-- ==== Sys2Proof/Word.lean ====
section
/-!
DEFINITION. The word types of the PF324 (R5, R6) and the plainest helpers over them.
Everything a test could show wrong about bit fields stands in Machine/Bits.lean instead.
-/

namespace Sys2Proof

/-- A 32-bit word: a register, an address, an operand (R5). -/
abbrev Word := BitVec 32

/-- One byte of memory (R6). -/
abbrev Byte := BitVec 8

/-- A 64-bit word: tempo, the accumulator, a memory word with its check bits (R199). -/
abbrev DWord := BitVec 64

end Sys2Proof
end

