-- ==== Sys2Proof/Syntax.lean ====
section
/-!
DEFINITION. The commands of the block: one constructor of `Instr` for each row of spec/opcode_table.json.
An operand that the spec's step takes from outside the node (a measured voltage, a received frame, the instant
inside an XT32 period) is an operand of the constructor; what the node itself holds is in State.
-/

namespace Sys2Proof

/-- Who makes an access to registers or memory (SYS_FAULT_INFO.INIT, 06): a shuttle S0-S3 (codes 0-3), the debug
port (4), a remote access from a chain head (5). -/
inductive Initiator where
  | shuttle (s : Fin 4)
  | debug
  | chain
  deriving DecidableEq, Repr, Inhabited

/-- The two islands that start and stop with XO32M (R127). -/
inductive Island where
  | radio
  | dmi
  deriving DecidableEq, Repr, Inhabited

/-- The three islands that gather counts for the performance counters (R496). -/
inductive GatherIsland where
  | radio
  | dmi
  | aon
  deriving DecidableEq, Repr, Inhabited

/-- What begins a cold start while the node has no power (R97). -/
inductive ColdSource where
  /-- VPV exceeds 2.2 V with 50 uA available. -/
  | panel
  /-- VTEG exceeds 20 mV (R54). -/
  | teg
  /-- A cell is first connected at or above the reconnect threshold. -/
  | cell
  /-- In ship mode, VPV is detected (R75). -/
  | shipPanel
  /-- In ship mode, WAKE goes high (R75). -/
  | shipWake
  deriving DecidableEq, Repr, Inhabited

/-- What a cold start reads from the board: the two strap resistors in ohms (`none` is an open pin, R44, R56) and
whether XO32M_OUT is tied to DGND (R533). -/
structure PowerUp where
  source  : ColdSource
  /-- For `cell`: the voltage of the connected cell, mV (R97). -/
  cellMv  : Nat
  mpsetPv  : Option Nat
  mpsetTeg : Option Nat
  tcxo    : Bool
  deriving DecidableEq, Repr, Inhabited

/-- What the cell thermistor reads (R65): a temperature in quarter degrees, an open or a shorted NTC. -/
inductive NtcReading where
  | temp (quarterC : Int)
  | openCircuit
  | shorted
  deriving DecidableEq, Repr, Inhabited

/-- One 64 ms cell measurement (R60, R89, R353). -/
structure CellSample where
  /-- Cell voltage, mV. -/
  vcell : Nat
  ntc   : NtcReading
  /-- Current into the cell, mA (the CV row of R60). -/
  chargeMa : Nat
  /-- VHB can supply the charger, that is harvest holds VHB above VCELL (R60). -/
  harvest : Bool
  /-- AON die temperature, quarter degrees (R353). -/
  aonTemp : Int
  deriving DecidableEq, Repr, Inhabited

/-- How a chop period went: the current reached its target before its start, within it, or not at all (R228). -/
inductive Chop where
  | above | reached | below
  deriving DecidableEq, Repr, Inhabited

/-- The output that an over-current trip concerns (R273). -/
inductive OcOutput where
  | leg (v : Fin 24)
  | treadle (t : Fin 3)
  deriving DecidableEq, Repr, Inhabited

/-- How one ultrasonic shot ended (R298, R299): each rejection condition as it was seen, the time of flight in TDC
units and the peak receiver output in mV. -/
structure Shot where
  noise : Bool
  sat   : Bool
  noSig : Bool
  late  : Bool
  tof   : Nat
  amp   : Nat
  deriving DecidableEq, Repr, Inhabited

/-- What one contact sample of a pulse input reads (R313). -/
inductive PinSample where
  /-- Below 0.4 V. -/
  | active
  /-- Above 1.4 V. -/
  | inactive
  /-- In between: the previous level repeats. -/
  | between
  deriving DecidableEq, Repr, Inhabited

/-- The sources of a blanking window (R332). -/
inductive BlankSource where
  | drv
  | shot
  | tmpMatch
  deriving DecidableEq, Repr, Inhabited

/-- What the interpolator counts for a capture (R350): `na` ring cycles from the event to the next XT32 edge, and `nb` over
one whole XT32 period. -/
structure Ring where
  na : Nat
  nb : Nat
  deriving DecidableEq, Repr, Inhabited

/-- A frame as the receiver takes it from the channel (R371 to R373, R380, R381), a coded one behind its decoder. -/
structure RxFrame where
  /-- The data rate, by the codes of RAD_PHY.RATE. -/
  rate : Nat
  /-- The SFD is the coded one (R372). -/
  coded : Bool
  /-- The PHR, its first bit highest: MS, two reserved bits, FCS type, DW, frame length. -/
  phr : BitVec 16
  /-- The octets after the PHR as they were on the air, whitened if DW says so, FCS included. -/
  octets : List (BitVec 8)
  /-- RSSI of the frame, dBm. -/
  rssi : Int
  /-- The capture of the end of the SFD (R350, R381). -/
  sfd : Ring
  deriving DecidableEq, Repr, Inhabited

/-- What an island does not acknowledge within 250 us (R28, R181): a register access of any initiator, DRV, STAMP, or a COMMIT
with this mask, of whose domains those of `late` are not acknowledged. -/
inductive Crossing where
  | access (i : Initiator) (write : Bool) (addr : Word)
  | drv (sh : Fin 4)
  | stamp (sh : Fin 4)
  | commit (sh : Fin 4) (mask late : BitVec 9)
  deriving DecidableEq, Repr, Inhabited

/-- The commands: one constructor for each row of the table of operations and events. Engine rows carry the shuttle
that issues the instruction, and the fields of its encoding. -/
inductive Instr where
  -- ALU (R153)
  | add (sh : Fin 4) (rd ra rb : Fin 16)
  | sub (sh : Fin 4) (rd ra rb : Fin 16)
  | and (sh : Fin 4) (rd ra rb : Fin 16)
  | or (sh : Fin 4) (rd ra rb : Fin 16)
  | xor (sh : Fin 4) (rd ra rb : Fin 16)
  | shl (sh : Fin 4) (rd ra rb : Fin 16)
  | shr (sh : Fin 4) (rd ra rb : Fin 16)
  | sra (sh : Fin 4) (rd ra rb : Fin 16)
  | slt (sh : Fin 4) (rd ra rb : Fin 16)
  | sltu (sh : Fin 4) (rd ra rb : Fin 16)
  | min (sh : Fin 4) (rd ra rb : Fin 16)
  | max (sh : Fin 4) (rd ra rb : Fin 16)
  | minu (sh : Fin 4) (rd ra rb : Fin 16)
  | maxu (sh : Fin 4) (rd ra rb : Fin 16)
  | clz (sh : Fin 4) (rd ra : Fin 16)
  | popc (sh : Fin 4) (rd ra : Fin 16)
  | adds (sh : Fin 4) (rd ra rb : Fin 16)
  | subs (sh : Fin 4) (rd ra rb : Fin 16)
  -- multiply, divide and the accumulator (R154 to R156)
  | mul (sh : Fin 4) (rd ra rb : Fin 16)
  | mulh (sh : Fin 4) (rd ra rb : Fin 16)
  | mulhu (sh : Fin 4) (rd ra rb : Fin 16)
  | div (sh : Fin 4) (rd ra rb : Fin 16)
  | divu (sh : Fin 4) (rd ra rb : Fin 16)
  | rem (sh : Fin 4) (rd ra rb : Fin 16)
  | remu (sh : Fin 4) (rd ra rb : Fin 16)
  | macs (sh : Fin 4) (rd ra rb : Fin 16)
  | macu (sh : Fin 4) (rd ra rb : Fin 16)
  | accclr (sh : Fin 4)
  -- immediates (R157 to R159)
  | addi (sh : Fin 4) (rd ra : Fin 16) (imm : BitVec 18)
  | andi (sh : Fin 4) (rd ra : Fin 16) (imm : BitVec 18)
  | ori (sh : Fin 4) (rd ra : Fin 16) (imm : BitVec 18)
  | xori (sh : Fin 4) (rd ra : Fin 16) (imm : BitVec 18)
  | slti (sh : Fin 4) (rd ra : Fin 16) (imm : BitVec 18)
  | shli (sh : Fin 4) (rd ra : Fin 16) (cnt : BitVec 5)
  | shri (sh : Fin 4) (rd ra : Fin 16) (cnt : BitVec 5)
  | srai (sh : Fin 4) (rd ra : Fin 16) (cnt : BitVec 5)
  | lui (sh : Fin 4) (rd : Fin 16) (imm : BitVec 22)
  -- loads and stores (R160, R161)
  | ldw (sh : Fin 4) (rd ra : Fin 16) (imm : BitVec 18)
  | ldh (sh : Fin 4) (rd ra : Fin 16) (imm : BitVec 18)
  | ldhu (sh : Fin 4) (rd ra : Fin 16) (imm : BitVec 18)
  | ldb (sh : Fin 4) (rd ra : Fin 16) (imm : BitVec 18)
  | ldbu (sh : Fin 4) (rd ra : Fin 16) (imm : BitVec 18)
  | ldd (sh : Fin 4) (rd ra : Fin 16) (imm : BitVec 18)
  | stw (sh : Fin 4) (rs ra : Fin 16) (imm : BitVec 18)
  | sth (sh : Fin 4) (rs ra : Fin 16) (imm : BitVec 18)
  | stb (sh : Fin 4) (rs ra : Fin 16) (imm : BitVec 18)
  | std (sh : Fin 4) (rs ra : Fin 16) (imm : BitVec 18)
  -- branches and jumps (R164 to R166)
  | beq (sh : Fin 4) (ra rb : Fin 16) (off : BitVec 18)
  | bne (sh : Fin 4) (ra rb : Fin 16) (off : BitVec 18)
  | blt (sh : Fin 4) (ra rb : Fin 16) (off : BitVec 18)
  | bge (sh : Fin 4) (ra rb : Fin 16) (off : BitVec 18)
  | bltu (sh : Fin 4) (ra rb : Fin 16) (off : BitVec 18)
  | bgeu (sh : Fin 4) (ra rb : Fin 16) (off : BitVec 18)
  | jal (sh : Fin 4) (rd : Fin 16) (off : BitVec 22)
  | jalr (sh : Fin 4) (rd ra : Fin 16) (imm : BitVec 18)
  -- system instructions (R167 to R174)
  | wait (sh : Fin 4) (rd ra : Fin 16) (imm : BitVec 12)
  | waitComplete (sh : Fin 4)
  | post (sh : Fin 4) (ra : Fin 16) (imm : BitVec 4)
  | trap (sh : Fin 4) (imm : BitVec 12)
  | eret (sh : Fin 4)
  | fence (sh : Fin 4)
  | fenceComplete (sh : Fin 4)
  | csrr (sh : Fin 4) (rd : Fin 16) (csr : BitVec 12)
  | csrw (sh : Fin 4) (ra : Fin 16) (csr : BitVec 12)
  | halt (sh : Fin 4)
  -- device instructions (R175 to R186)
  | drv (sh : Fin 4) (rd ra : Fin 16)
  | snap (sh : Fin 4) (rd : Fin 16) (sel : BitVec 12)
  | commit (sh : Fin 4) (rd ra : Fin 16) (imm : BitVec 12)
  | stamp (sh : Fin 4) (rd : Fin 16) (plant : Bool) (ph : Ring)
  | crc (sh : Fin 4) (rd ra : Fin 16) (imm : BitVec 4)
  -- the engine's own events
  | interruptEntry (sh : Fin 4)
  | shuttleStart (i : Initiator) (sh : Fin 4)
  | shuttleDisable (i : Initiator) (sh : Fin 4)
  | issueTableApply
  | coreClockRequest (i : Initiator) (v : Word)
  | coreClockSwitch
  | xo32mStop
  | coreClockRestart
  | xo32mStable
  | islandStop (isl : Island)
  | crossingTimeout (x : Crossing)
  | postedWriteComplete (ack : Bool)
  | registerWrite (i : Initiator) (addr v : Word)
  | engVecbaseWrite (i : Initiator) (v : Word)
  -- resets and the watchdog
  | softwareReset (i : Initiator) (v : Word)
  | wdogConfig (i : Initiator) (low : BitVec 16)
  | wdogKick (i : Initiator) (low : BitVec 16)
  | wdogTimeout
  | coldStart (p : PowerUp)
  | brownoutReset
  | pinReset
  | debugReset
  | bootHandover (selfTestOk entropyOk : Bool)
  -- memory
  | writeBufferEntryWrite
  | eccInjectRequest (i : Initiator) (v : Word)
  | scrubRead (mram : Bool)
  | pcommitImmediate (i : Initiator) (seq : BitVec 31)
  | pcommitArm (i : Initiator) (seq : BitVec 31)
  | persistBoundaryTick
  | persistCommitComplete
  -- energy, cell, last act
  | cellMeasurement (m : CellSample)
  | chargeTimerExpiry
  | lastact
  | lastactNextClose
  | lastactCloseSkip
  | lastactDeadline (begun : Bool)
  | lastactCutoff
  | resetHoldEnd (p : Option PowerUp)
  | lastactThresholdWrite (i : Initiator) (v : Word)
  | focvSampleStart (teg20 : Bool)
  | focvSample (vpv : Nat)
  | nrgBoundaryTick (teg20 : Bool)
  | tegTakeover
  | pvOvervoltage
  | pvOvervoltageClear
  | dcSupplyLoss
  | dcSupplyRestore
  | cellUvCutoff (vcell : Nat)
  | cellReconnect (vcell : Nat)
  | cellOvercurrentTrip
  | cellSwitchReclose
  | boostStart
  | boostStop
  | referenceRefresh
  | euseUpdate (vres : Nat) (drawn : List (Option Int))
  | shipModeEnter (i : Initiator) (v : Word)
  | reservoirDischarge (i : Initiator) (v : Word)
  -- valve drive
  | driveCommand (i : Initiator) (w : Word)
  | cancel (i : Initiator) (valve : BitVec 5)
  | release (i : Initiator) (valve : BitVec 5) (profile : BitVec 4)
  | startPointScan (vbsOk : BitVec 3) (drawn : List (Option Int))
  | admitWaitExpiry (t : Fin 3) (k : Nat)
  | boostEnd (v : Fin 24) (tpeak : Nat)
  | boostTimeout (v : Fin 24) (same : Bool)
  | peakEnd (v : Fin 24) (rm : Option Nat)
  | holdEnd (v : Fin 24) (rm : Option Nat)
  | endTimeout (v : Fin 24)
  | pulseEnd (v : Fin 24) (drawn : Int) (ph : Ring)
  | chopPeriod (v : Fin 24) (chop : Chop) (legEdge : Option Nat) (trdEdges : List Nat)
  | tTurnEnd (t : Fin 3)
  | vresFloor (mv : Nat) (same : List (Fin 24))
  | drvResultRead (i : Initiator) (rd : Fin 16)
  | valveTableWrite (i : Initiator) (v : Fin 24) (word : Fin 4) (w : Word)
  | turnoffTimeout (hb : Fin 27)
  | interlockRelease (hb : Fin 27)
  | manualMode (i : Initiator) (v : Word)
  | switchControl (i : Initiator) (leg : BitVec 5) (sw : BitVec 2)
  | switchAutoOff
  | bootstrapPrechargeEnd (t : Fin 3) (ok : Bool)
  | bootstrapRefresh (t : Fin 3) (ok : Bool) (edges : List Nat)
  | bootstrapUvlo (t : Fin 3)
  | overcurrentTrip (out : OcOutput)
  | vresFastLimit (v : Fin 24)
  | vresov
  | thermalShutdown
  | thermalShutdownClear
  | thermalWaitExpiry (t : Fin 3) (k : Nat)
  | coilThermalTick (tdie : Int) (meanMa : List Nat) (rm : List (Option Nat))
  | offstateTest (i : Initiator) (valve : BitVec 5)
  | testAll (i : Initiator)
  | offstateTestDone (mv : Nat)
  -- flow and pulse metering
  | flowDue (n : Fin 3)
  | flowPrewake (n : Fin 3)
  | flowStartRequest (i : Initiator) (mask : BitVec 3)
  | flowMeasurementStart
  | flowShot (o : Shot) (ph : Ring)
  | flowResultPost
  | flowZeroWrite (i : Initiator) (n : Fin 3) (v : Word)
  | pulseInputSample (n : Fin 3) (p : PinSample)
  | pulseCountWrite (i : Initiator) (n : Fin 3) (v : Word) (p : Option PinSample)
  -- pressure and comparators
  | pressureSample (n : Fin 3) (uv : Int) (ph : Ring)
  | spotReading (i : Initiator) (n : Fin 3)
  | spotReadingDone (n : Fin 3) (uv : List Int)
  | comparatorSample (c : Fin 8) (uv : Int)
  | comparatorTransition (c : Fin 8) (uv : Int) (ph : Ring)
  | captureForce (i : Initiator) (n : Fin 3) (ph : Ring)
  | captureComplete (n : Fin 3)
  | captureRelease (i : Initiator) (n : Fin 3)
  | blankWindowEnd (src : BlankSource)
  | comparatorConfigWrite (i : Initiator) (c : Fin 8) (v : Word)
  | comparatorTestWrite (i : Initiator) (v : Word)
  -- tempo
  | tempoStart
  | xt32StartTimeout
  | xt32Fail
  | xt32Recover
  | tmpNowRead (i : Initiator) (rd : Fin 16) (ph : Ring)
  | tmpOffsRead (i : Initiator) (rd : Fin 16)
  | tmpOffsStage (i : Initiator) (v : Word)
  | tmpOffsSet (i : Initiator) (v : Word)
  | timeSourceChange (i : Initiator) (src : BitVec 2)
  | matchArm (i : Initiator) (v : Word)
  | matchDisarm (i : Initiator)
  | tmpMatch
  | ppsEdge (ph : Ring)
  | timeQualityTick
  -- radio and MAC
  | frameReceive (f : RxFrame)
  | keyup (sfd : Ring) (edges : Nat)
  | lbtListenEnd (rssi : Int) (sfd : Bool)
  | dwellSubwindow
  | dwellConfig (i : Initiator) (v : Word)
  | radioTest (i : Initiator) (v : Word)
  | slotEvent
  | radioPrewake
  | slotStart
  | superframeBoundary
  | ackTransmit (sfd : Ring) (edges : Nat)
  | ackTimeout
  | rxWindowTimeout
  | scanCycleEnd
  | scanResume
  | macModeOff (i : Initiator)
  | macModeNode (i : Initiator)
  | macModeRoot (i : Initiator)
  | linkListen (i : Initiator) (l : Fin 16)
  | linkActivate (i : Initiator) (l : Fin 16)
  | linkOff (i : Initiator) (l : Fin 16)
  | linkMapPend (i : Initiator) (l : Fin 16)
  | macTableWrite (i : Initiator) (v : Word)
  | asnRead (i : Initiator) (rd : Fin 16)
  -- security
  | unwrap (i : Initiator) (slot : Fin 16) (buf : BitVec 15)
  | erase (i : Initiator) (slot : Fin 16)
  | bind (i : Initiator) (slot : Fin 16) (neigh : BitVec 5)
  | keystoreCommitDone (ok : Bool)
  | sha256 (sh : Fin 4)
  | ecdsaVerify (sh : Fin 4)
  | ecdhGen (sh : Fin 4)
  | ecdhSlot (sh : Fin 4)
  | trngRead (i : Initiator) (rd : Fin 16)
  | entropyFailure
  | lifecycleTransition (i : Initiator) (req : BitVec 2)
  | dbglock (i : Initiator)
  | fuseBurnDone
  | rollbackBurn (i : Initiator) (level : BitVec 6)
  | otpProgram (off : Nat) (v : Word)
  | debugChallenge (v : BitVec 16)
  | debugChallengeRead
  | debugResponseWord (v : Word)
  | debugVerify
  | debugHalt (sh : Fin 4)
  | debugResume (sh : Fin 4)
  -- performance counters
  | gatherTransfer (isl : GatherIsland)
  | prfFreeze (i : Initiator) (frozen : Bool)
  | prfSelectWrite (i : Initiator) (m : Fin 4) (v : Word)
  -- the selvedge chain
  | chainStrapSample (low : Bool)
  | enumReq (crcOk : Bool)
  | enumAns (crcOk valid : Bool) (pos : BitVec 5)
  | hwmsg (crcOk : Bool) (pos : BitVec 5) (w : Word)
  | chainProbe (answering : Nat)
  | read (crcOk : Bool) (pos : BitVec 5) (off : BitVec 18)
  | write (crcOk : Bool) (pos : BitVec 5) (off : BitVec 18) (w : Word)
  | rdata (crcOk : Bool) (pos : BitVec 5) (cause : BitVec 4) (w : Word)
  | wack (crcOk : Bool) (pos : BitVec 5) (cause : BitVec 4)
  | remoteAccessTimeout
  | txboxWrite (i : Initiator) (v : Word)
  | send (i : Initiator)
  | flush (i : Initiator)
  | msg (crcOk up : Bool) (pos : BitVec 5) (ws : List Word)
  | mack (crcOk up : Bool) (pos : BitVec 5) (status : BitVec 4)
  | mailboxLost
  | rxboxRead (i : Initiator) (rd : Fin 16)
  | syncPulse (ph : Ring)
  | syncEdge (ph : Ring)
  | time (crcOk : Bool) (plant : BitVec 64) (qual : Word)
  | syncPairTimeout
  | linkTimeout
  -- the remaining rows of the table
  | zeroCondition (n : Fin 3)
  | coilCurrentSample (v : Fin 24) (ma : Nat)
  | tegSampleEnd (vteg : Nat)
  | traceLoss
  | rollbackBurnDone
  | vresDischarged
  deriving DecidableEq, Repr

end Sys2Proof
end

