-- ==== Sys2Proof/Decode.lean ====
section
/-!
DEFINITION. The command that a word spells by the bits of spec/opcode_table.json. No row of the table has bits: the node's
commands are register accesses, occurrences and instructions whose encodings the engine itself checks, so no word spells one.
-/

namespace Sys2Proof

/-- The command whose bits are `w`, over the rows that give bits: there is none. -/
def decodeTableWord (_nbits _w : Nat) : Option Instr := none

end Sys2Proof
end

