-- ==== Sys2Proof/Machine/Bits.lean ====
section
/-!
DEFINITION. Bit fields of a 32-bit word (R5), signs, and the little helpers that registers and tables share.
-/

namespace Sys2Proof.Machine

/-- The field of `n` bits whose lowest bit is `lo` (R5). -/
def fld (w : Word) (lo n : Nat) : Nat := (w.toNat >>> lo) % 2 ^ n

/-- The field as a signed number, in two's complement. -/
def sfld (w : Word) (lo n : Nat) : Int :=
  if 2 ^ (n - 1) ≤ fld w lo n then (fld w lo n : Int) - 2 ^ n else fld w lo n

/-- Bit `i` of the word. -/
def bit (w : Word) (i : Nat) : Bool := fld w i 1 == 1

/-- 1 for true, 0 for false. -/
def b2n (b : Bool) : Nat := if b then 1 else 0

/-- A field's value placed with its lowest bit at `lo`. -/
def place (v lo : Nat) : Word := BitVec.ofNat 32 (v <<< lo)

/-- A Bool placed at bit `lo`. -/
def placeB (b : Bool) (lo : Nat) : Word := place (b2n b) lo

/-- The word with the field of `n` bits at `lo` replaced by `v` (modulo 2^n). -/
def putFld (w : Word) (lo n v : Nat) : Word :=
  BitVec.ofNat 32 (w.toNat - (fld w lo n) <<< lo + (v % 2 ^ n) <<< lo)

/-- An integer as a field of `n` bits in two's complement. -/
def toTwos (n : Nat) (v : Int) : Nat := (v % (2 ^ n : Nat)).toNat

/-- `v` limited to `lo` .. `hi`. -/
def clampI (lo hi v : Int) : Int := max lo (min hi v)

/-- `v` limited to at most `hi`. -/
def capN (hi v : Nat) : Nat := min hi v

/-- A count that saturates at `hi`. -/
def incSat (hi v : Nat) : Nat := if v < hi then v + 1 else hi

/-- Division that truncates toward zero, as the spec's pseudocode does (00). -/
def divT (a b : Int) : Int := Int.tdiv a b

/-- Rounding of a quotient up. -/
def ceilDiv (a b : Nat) : Nat := (a + b - 1) / b

/-- Round to nearest, halves away from zero. -/
def roundDiv (a : Int) (b : Nat) : Int :=
  if 0 ≤ a then (2 * a + b) / (2 * b) else -((2 * (-a) + b) / (2 * b))

/-- Entry `i` of a list, or `d`. -/
def nth {α : Type} (d : α) (l : List α) (i : Nat) : α := l.getD i d

/-- The 24-valve index, if `n` is below 24. -/
def fin? (m n : Nat) : Option (Fin m) := if h : n < m then some ⟨n, h⟩ else none

/-- All indices below `n`, ascending. -/
def upTo (n : Nat) : List (Fin n) := List.finRange n

/-- The bits of `w` below `n` that are set, ascending. -/
def setBits (w n : Nat) : List Nat := (List.range n).filter fun i => w.testBit i

end Sys2Proof.Machine
end

