-- ==== Sys2Proof/Machine/Crypto.lean ====
section
/-!
DEFINITION. The crypto engine's functions, from the standards that 15 names: AES-128 (FIPS 197), CCM* (IEEE 802.15.4), key
unwrap (SP 800-38F KW), SHA-256 (FIPS 180-4), ECDSA verification and ECDH on P-256 (FIPS 186-4, SP 800-56A). PRESUMED:
the standards' texts are not in spec/ (log 21).
-/

namespace Sys2Proof.Machine

/-! ## AES-128 -/

/-- The S-box, 32 bytes a word, entry 0 lowest. -/
def sboxWords : List Nat :=
  [0xC072A49CAFA2D4ADF04759FA7DC982CA76ABD7FE2B670130C56F6BF27B777C63,
   0x75B227EBE28012079A059618C323C7041531D871F1E5A534CCF73F362693FDB7,
   0xCF584C4A39BECB6A5BB1FC20ED00D153842FE329B3D63B52A05A6E1B1A2C8309,
   0xD2F3FF1021DAB6BCF5389D928F40A351A89F3C507F02F94585334D43FBAAEFD0,
   0xDB0B5EDE14B8EE4688902A22DC4F816073195D643D7EA7C41744975FEC130CCD,
   0x08AE7A65EAF4566CA94ED58D6D37C8E779E4959162ACD3C25C2406490A3A32E0,
   0x9E1DC186B95735610EF6034866B53E708A8BBD4B1F74DDE8C6B4A61C2E2578BA,
   0x16BB54B00F2D99416842E6BF0D89A18CDF2855CEE9871E9B948ED9691198F8E1]

/-- The inverse S-box. -/
def isboxWords : List Nat :=
  [0xCBE9DEC444438E3487FF2F9B8239E37CFBD7F3819EA340BF38A53630D56A0952,
   0x25D18B6D49A25B76B224D92866A12E084EC3FA420B954CEE3D23C2A632947B54,
   0x849D8DA75746155EDAB9EDFD5048706C92B6655DCC5CA4D41698688664F6F872,
   0x6B8A130103BDAFC1020F3FCA8F1E2CD00645B3B80558E4F70AD3BC8C00ABD890,
   0x6EDF751CE837F9E28535ADE72274AC9673E6B4F0CECFF297EADC674F4111913A,
   0xF45ACD78FEC0DB9A2079D2C64B3E56FC1BBE18AA0E62B76F89C5291D711AF147,
   0xEF9CC9939F7AE52D0D4AB519A97F51605FEC8027591012B131C7078833A8DD1F,
   0x7D0C2155631469E126D677BA7E042B17619953833CBBEBC8B0F52AAE4D3BE0A0]

def subByte (x : Nat) : Nat := (nth 0 sboxWords (x / 32) >>> (8 * (x % 32))) % 256
def invSubByte (x : Nat) : Nat := (nth 0 isboxWords (x / 32) >>> (8 * (x % 32))) % 256

/-- Multiplication by x in GF(2^8). -/
def xtime (a : Nat) : Nat := if a < 128 then 2 * a else (2 * a) ^^^ 0x11B

/-- Multiplication by a constant below 16. -/
def gmul (a k : Nat) : Nat :=
  let a2 := xtime a
  let a4 := xtime a2
  let a8 := xtime a4
  (if k.testBit 0 then a else 0) ^^^ (if k.testBit 1 then a2 else 0) ^^^ (if k.testBit 2 then a4 else 0) ^^^
    (if k.testBit 3 then a8 else 0)

def xorL (a b : List Nat) : List Nat := List.zipWith (fun x y => x ^^^ y) a b

/-- Round keys after `n` more rounds from a round key of 16 bytes. -/
def roundKeys : Nat → Nat → List Nat → List (List Nat)
  | 0, _, k => [k]
  | n + 1, rc, k =>
    let w (i : Nat) : List Nat := (k.drop (4 * i)).take 4
    let rot := [nth 0 k 13, nth 0 k 14, nth 0 k 15, nth 0 k 12].map subByte
    let w0 := xorL (xorL (w 0) rot) [rc, 0, 0, 0]
    let w1 := xorL (w 1) w0
    let w2 := xorL (w 2) w1
    let w3 := xorL (w 3) w2
    k :: roundKeys n (xtime rc) (w0 ++ w1 ++ w2 ++ w3)

/-- ShiftRows on a column-major block; `back` for the inverse. -/
def shiftRows (back : Bool) (b : List Nat) : List Nat :=
  (List.range 16).map fun i => nth 0 b ((if back then 13 * i else 5 * i) % 16)

/-- MixColumns with the row coefficients of the circulant matrix. -/
def mixColumns (c : List Nat) (b : List Nat) : List Nat :=
  (List.range 16).map fun i =>
    let k := i / 4 * 4
    (List.range 4).foldl (fun v j => v ^^^ gmul (nth 0 b (k + j)) (nth 0 c ((j + 4 - i % 4) % 4))) 0

/-- AES-128 encryption of a 16-byte block. -/
def aesEnc (key blk : List Nat) : List Nat :=
  match roundKeys 10 1 key with
  | [] => blk
  | k0 :: rest =>
    let mid := rest.dropLast.foldl (fun b k =>
      xorL (mixColumns [2, 3, 1, 1] (shiftRows false (b.map subByte))) k) (xorL blk k0)
    xorL (shiftRows false (mid.map subByte)) (rest.getLastD [])

/-- AES-128 decryption of a 16-byte block. -/
def aesDec (key blk : List Nat) : List Nat :=
  match (roundKeys 10 1 key).reverse with
  | [] => blk
  | k0 :: rest =>
    let mid := rest.dropLast.foldl (fun b k =>
      mixColumns [14, 11, 13, 9] (xorL ((shiftRows true b).map invSubByte) k)) (xorL blk k0)
    xorL ((shiftRows true mid).map invSubByte) (rest.getLastD [])

/-! ## Bytes and numbers -/

/-- `n` bytes of `v`, most significant first. -/
def bytesBE (v n : Nat) : List Nat := (List.range n).map fun i => (v >>> (8 * (n - 1 - i))) % 256

/-- `n` bytes of `v`, least significant first. -/
def bytesLE (v n : Nat) : List Nat := (List.range n).map fun i => (v >>> (8 * i)) % 256

def ofBE (l : List Nat) : Nat := l.foldl (fun v b => v * 256 + b) 0

def ofLE (l : List Nat) : Nat := ofBE l.reverse

/-- The bytes padded with zeros to a multiple of 16. -/
def pad16 (l : List Nat) : List Nat := l ++ List.replicate ((16 - l.length % 16) % 16) 0

/-! ## CCM* with 13-octet nonces -/

/-- CBC-MAC over `n` blocks. -/
def cbcMac (key : List Nat) : Nat → List Nat → List Nat → List Nat
  | 0, _, x => x
  | n + 1, l, x => cbcMac key n (l.drop 16) (aesEnc key (xorL x (l.take 16)))

/-- The key-stream block `i`. -/
def ctrBlock (key nonce : List Nat) (i : Nat) : List Nat := aesEnc key ([1] ++ nonce ++ bytesBE i 2)

/-- The message with the key stream from block 1 on: encryption and decryption. -/
def ctrText (key nonce msg : List Nat) : List Nat :=
  xorL msg ((List.range (ceilDiv msg.length 16)).flatMap fun i => ctrBlock key nonce (i + 1))

/-- The MIC of `m` octets over authenticated data and message. -/
def ccmMic (key nonce auth msg : List Nat) (m : Nat) : List Nat :=
  let b0 := [(if auth.isEmpty then 0 else 64) + 8 * ((m - 2) / 2) + 1] ++ nonce ++ bytesBE msg.length 2
  let l := b0 ++ (if auth.isEmpty then [] else pad16 (bytesBE auth.length 2 ++ auth)) ++ pad16 msg
  (xorL (cbcMac key (l.length / 16) l (List.replicate 16 0)) (ctrBlock key nonce 0)).take m

/-! ## Key unwrap (KW) of a 128-bit key -/

/-- The 12 unwrapping steps, from step `t` down: A and the two halves. -/
def kwSteps (key : List Nat) : Nat → List Nat → List Nat → List Nat → List Nat × List Nat × List Nat
  | 0, a, r1, r2 => (a, r1, r2)
  | t + 1, a, r1, r2 =>
    let odd := (t + 1) % 2 = 1
    let b := aesDec key (xorL a (bytesBE (t + 1) 8) ++ (if odd then r1 else r2))
    kwSteps key t (b.take 8) (if odd then b.drop 8 else r1) (if odd then r2 else b.drop 8)

/-- The key in 24 wrapped octets, or `none` if the integrity check fails. -/
def kwUnwrap (kek c : List Nat) : Option (List Nat) :=
  let (a, r1, r2) := kwSteps kek 12 (c.take 8) ((c.drop 8).take 8) ((c.drop 16).take 8)
  if a = List.replicate 8 0xA6 then some (r1 ++ r2) else none

/-! ## SHA-256 -/

def shaK : List Nat :=
  [0x428A2F98, 0x71374491, 0xB5C0FBCF, 0xE9B5DBA5, 0x3956C25B, 0x59F111F1, 0x923F82A4, 0xAB1C5ED5] ++
  [0xD807AA98, 0x12835B01, 0x243185BE, 0x550C7DC3, 0x72BE5D74, 0x80DEB1FE, 0x9BDC06A7, 0xC19BF174] ++
  [0xE49B69C1, 0xEFBE4786, 0x0FC19DC6, 0x240CA1CC, 0x2DE92C6F, 0x4A7484AA, 0x5CB0A9DC, 0x76F988DA] ++
  [0x983E5152, 0xA831C66D, 0xB00327C8, 0xBF597FC7, 0xC6E00BF3, 0xD5A79147, 0x06CA6351, 0x14292967] ++
  [0x27B70A85, 0x2E1B2138, 0x4D2C6DFC, 0x53380D13, 0x650A7354, 0x766A0ABB, 0x81C2C92E, 0x92722C85] ++
  [0xA2BFE8A1, 0xA81A664B, 0xC24B8B70, 0xC76C51A3, 0xD192E819, 0xD6990624, 0xF40E3585, 0x106AA070] ++
  [0x19A4C116, 0x1E376C08, 0x2748774C, 0x34B0BCB5, 0x391C0CB3, 0x4ED8AA4A, 0x5B9CCA4F, 0x682E6FF3] ++
  [0x748F82EE, 0x78A5636F, 0x84C87814, 0x8CC70208, 0x90BEFFFA, 0xA4506CEB, 0xBEF9A3F7, 0xC67178F2]

def shaH : List Nat := [0x6A09E667, 0xBB67AE85, 0x3C6EF372, 0xA54FF53A, 0x510E527F, 0x9B05688C, 0x1F83D9AB, 0x5BE0CD19]

def rotr (x n : Nat) : Nat := (x >>> n ||| x <<< (32 - n)) % 2 ^ 32

/-- The message schedule, newest word first, extended by `n` words. -/
def shaSched : Nat → List Nat → List Nat
  | 0, w => w
  | n + 1, w =>
    let g (k : Nat) : Nat := nth 0 w (k - 1)
    let s0 := rotr (g 15) 7 ^^^ rotr (g 15) 18 ^^^ (g 15) >>> 3
    let s1 := rotr (g 2) 17 ^^^ rotr (g 2) 19 ^^^ (g 2) >>> 10
    shaSched n ((g 16 + s0 + g 7 + s1) % 2 ^ 32 :: w)

/-- One round. -/
def shaRound (v : List Nat) (kw : Nat × Nat) : List Nat :=
  match v with
  | [a, b, c, d, e, f, g, h] =>
    let s1 := rotr e 6 ^^^ rotr e 11 ^^^ rotr e 25
    let ch := (e &&& f) ^^^ ((2 ^ 32 - 1 - e) &&& g)
    let t1 := h + s1 + ch + kw.1 + kw.2
    let s0 := rotr a 2 ^^^ rotr a 13 ^^^ rotr a 22
    let mj := (a &&& b) ^^^ (a &&& c) ^^^ (b &&& c)
    [(t1 + s0 + mj) % 2 ^ 32, a, b, c, (d + t1) % 2 ^ 32, e, f, g]
  | _ => v

/-- One block of 64 bytes. -/
def shaBlock (h blk : List Nat) : List Nat :=
  let w := (List.range 16).map fun i => ofBE ((blk.drop (4 * i)).take 4)
  let ws := (shaSched 48 w.reverse).reverse
  let v := (List.zip shaK ws).foldl shaRound h
  List.zipWith (fun a b => (a + b) % 2 ^ 32) h v

def shaBlocks : Nat → List Nat → List Nat → List Nat
  | 0, _, h => h
  | n + 1, l, h => shaBlocks n (l.drop 64) (shaBlock h (l.take 64))

/-- SHA-256 of a list of bytes, as 32 bytes. -/
def sha256 (l : List Nat) : List Nat :=
  let p := l ++ [0x80] ++ List.replicate ((119 - l.length % 64) % 64) 0 ++ bytesBE (8 * l.length) 8
  (shaBlocks (p.length / 64) p shaH).flatMap fun w => bytesBE w 4

/-! ## P-256 -/

def p256 : Nat := 2 ^ 256 - 2 ^ 224 + 2 ^ 192 + 2 ^ 96 - 1
def n256 : Nat := 0xFFFFFFFF00000000FFFFFFFFFFFFFFFFBCE6FAADA7179E84F3B9CAC2FC632551
def b256 : Nat := 0x5AC635D8AA3A93E7B3EBBD55769886BC651D06B0CC53B0F63BCE3C3E27D2604B
def g256 : Nat × Nat :=
  (0x6B17D1F2E12C4247F8BCE6E563A440F277037D812DEB33A0F4A13945D898C296,
   0x4FE342E2FE1A7F9B8EE7EB4A7C0F9E162BCE33576B315ECECBB6406837BF51F5)

/-- a^e mod m over the low `n` bits of e. -/
def powMod (m : Nat) : Nat → Nat → Nat → Nat → Nat
  | 0, _, _, r => r
  | n + 1, a, e, r => powMod m n (a * a % m) (e / 2) (if e % 2 = 1 then r * a % m else r)

/-- The inverse modulo a prime. -/
def invMod (m a : Nat) : Nat := powMod m 256 (a % m) (m - 2) 1

/-- Point addition; `none` is the point at infinity. -/
def ecAdd : Option (Nat × Nat) → Option (Nat × Nat) → Option (Nat × Nat)
  | none, q => q
  | p, none => p
  | some (x1, y1), some (x2, y2) =>
    if x1 = x2 ∧ (y1 + y2) % p256 = 0 then none
    else
      let l := if x1 = x2 then (3 * x1 * x1 + p256 - 3) * invMod p256 (2 * y1) % p256
        else (y2 + p256 - y1) * invMod p256 (x2 + p256 - x1) % p256
      let x3 := (l * l + 2 * p256 - x1 - x2) % p256
      some (x3, (l * (x1 + p256 - x3) + p256 - y1) % p256)

/-- k times a point over the low `n` bits of k. -/
def ecMul : Nat → Nat → Option (Nat × Nat) → Option (Nat × Nat) → Option (Nat × Nat)
  | 0, _, _, r => r
  | n + 1, k, q, r => ecMul n (k / 2) (ecAdd q q) (if k % 2 = 1 then ecAdd r q else r)

def onCurve (q : Nat × Nat) : Bool :=
  decide (q.1 < p256) && decide (q.2 < p256) &&
    q.2 * q.2 % p256 == (q.1 * q.1 * q.1 + (p256 - 3) * q.1 + b256) % p256

/-- ECDSA verification of a 32-byte hash. -/
def ecdsaOk (hash : Nat) (q : Nat × Nat) (r s : Nat) : Bool :=
  decide (1 ≤ r) && decide (r < n256) && decide (1 ≤ s) && decide (s < n256) && onCurve q &&
    (let w := invMod n256 s
     match ecAdd (ecMul 256 (hash * w % n256) (some g256) none) (ecMul 256 (r * w % n256) (some q) none) with
     | none => false
     | some (x, _) => x % n256 == r)

end Sys2Proof.Machine
end

