-- ==== Sys2Proof/Config.lean ====
section
/-!
DEFINITION. What an implementation fixes and the spec does not: the free values of the model.
Each is an opaque constant with no body, so no proof can see what it is. A value that may differ each time it is
drawn takes a counter of State (`State.fresh`), which the step advances.
-/

namespace Sys2Proof

/-- The boot ROM's contents: the spec gives none (R190 lists the ROM, no chapter its bytes). -/
opaque Config.romByte : Nat → Byte

/-- 32 bits of the entropy source (R483), drawn with a fresh counter. -/
opaque Config.entropy : Nat → Word

/-- The live channel RSSI that RAD_STAT.RSSI shows while the radio receives or listens (12 RAD_STAT). -/
opaque Config.liveRssi : Nat → BitVec 8

/-- The fixed input delay of the pin LNK_SYNC, in tempo units (R519: the spec gives no value). -/
opaque Config.syncDelay : Nat

/-- What a debug-port read returns when the port is refused (R487: the spec gives the cause, not the data). -/
opaque Config.refusedRead : Nat → Word

/-- A result, a field or a sample that the spec leaves without a value; each draw takes a fresh counter. -/
opaque Config.freeWord : Nat → Word

end Sys2Proof
end

