-- ==== Sys2Proof/Machine/State.lean ====
section
/-!
DEFINITION. The state of the node as plain data: every register, table, FIFO, counter and mode the spec gives it, block
by block, and the queue of waiting commands. Registers that software writes whole are words; what the hardware alone
sets is a Bool, a Nat or an enumeration and is composed into its register when it is read.
-/

namespace Sys2Proof.Machine

/-! ## The loom engine (04) -/

/-- ENG_SHSTAT.STATE: DISABLED, READY, BUSY, WAIT, HALTED, FAULTED, DEBUG. -/
inductive RunState where
  | disabled | ready | busy | wait | halted | faulted | debug
  deriving DecidableEq, Repr, Inhabited

/-- What a BUSY shuttle waits for. -/
inductive BusyOn where
  /-- FENCE (R172). -/
  | fence
  /-- DRV while the DMI starts (R128): destination and command word. -/
  | drv (rd : Fin 16) (w : Word)
  /-- A load from the chain window (R514): destination. -/
  | remoteLoad (rd : Fin 16)
  /-- A store to the chain window (R514). -/
  | remoteStore
  /-- A store to MRAM that waits for a free write-buffer entry (R163): address, bytes, data, the check bits to invert
  (R205) and the core cycle after its issue, which orders the stores that wait (R120). -/
  | mramStore (addr : Word) (bytes : Nat) (data : DWord) (inj : Nat) (at_ : Nat)
  /-- A fuse burn (`false`, R484, R485) or a rollback burn (`true`, R481). -/
  | burn (rollback : Bool)
  deriving DecidableEq, Repr, Inhabited

/-- One shuttle (R110, R111, R114, R118, R143). -/
structure Shuttle where
  w       : Vector Word 16
  pc      : Word
  acc     : DWord
  ie      : Bool
  pie     : Bool
  /-- true is U. -/
  prv     : Bool
  pprv    : Bool
  inexc   : Bool
  epc     : Word
  cause   : Word
  addr    : Word
  scratch : Word
  run     : RunState
  busyOn  : Option BusyOn
  waitMask : BitVec 16
  waitRd  : Fin 16
  /-- The first core cycle in which the shuttle may issue again (R119). -/
  freeAt  : Nat
  /-- A change of flow has happened since the last fetch (R150). -/
  flow    : Bool
  /-- How many MRAM words had been superseded when the fetch buffer was last refilled (R150, R188). -/
  bufAt   : Nat
  /-- EN has gone to 0 and back to 1 with an instruction in flight: the start of R114 follows its completion (R115). -/
  restart : Bool
  wpend   : BitVec 16
  ien     : BitVec 16
  en      : Bool
  priv    : Bool
  udev    : Bool
  fixedReq : Bool
  recvReq  : Bool
  fixedAct : Bool
  recvAct  : Bool
  deriving DecidableEq, Repr, Inhabited

/-- What has occurred in the core cycle under way: events, overflows of PRF_OVF and flags of MEM_ECCSTAT. A clearing of the
same bit in that cycle leaves it set (R15, R146). -/
structure Same where
  ev  : BitVec 16
  ovf : BitVec 9
  ecc : BitVec 7
  deriving DecidableEq, Repr, Inhabited

/-- The ENG block and the issue logic. -/
structure Eng where
  sh       : Vector Shuttle 4
  /-- ENG_ISSUE as last written, the table before that write, and the cycle from which the write counts: it is in force from
  the first entry-0 cycle not before `issueAt` (R117). -/
  issueReq : Word
  issueAct : Word
  issueAt  : Nat
  /-- The same cycle for the FIXED and RECEIVE bits of ENG_SHCTL (R117). -/
  flagAt   : Nat
  evpend   : BitVec 16
  evroute  : Word
  vecbase  : Word
  mpu      : Vector (Vector Word 8) 4
  mpuctl   : Word
  /-- Core cycles since reset: cycle c uses ENG_ISSUE entry c mod 16 (R117). -/
  cyc      : Nat
  /-- The core clock is stopped (R123). -/
  stopped  : Bool
  /-- The cycle from which the AON, Radio and DMI islands serve the next crossing (R125). -/
  crossFree : Vector Nat 3
  same     : Same
  deriving DecidableEq, Repr, Inhabited

/-! ## SYS, resets and posted writes (00, 01, 03, 04) -/

/-- A write posted into AON (R14, R30). -/
structure Posted where
  init : Initiator
  addr : Word
  val  : Word
  deriving DecidableEq, Repr, Inhabited

/-- A posted write that failed (R30), waiting to be reported to its initiator. -/
structure FailedPost where
  init  : Initiator
  addr  : Word
  cause : BitVec 4
  deriving DecidableEq, Repr, Inhabited

/-- What a fuse burn under way will burn (R484, R485). -/
structure Burn where
  init   : Initiator
  bits   : Word
  retire : Bool
  deriving DecidableEq, Repr, Inhabited

/-- The power state of the node (R75, R94, R97). -/
inductive Power where
  /-- No power: before the first cold start. -/
  | off
  /-- Ship mode (R75). -/
  | ship
  /-- Every island held in reset for 1 s after a last act (R94). -/
  | hold
  /-- Powered; the boot ROM runs (R112). -/
  | boot
  /-- Powered; handed over to the program (R113). -/
  | run
  /-- Powered; no image passed (R480). -/
  | bootFail
  deriving DecidableEq, Repr, Inhabited

structure Sys where
  power     : Power
  rstCause  : BitVec 4
  shipExit  : Bool
  /-- A reset has happened in the XT32 period under way (R105). -/
  rstRecent : Bool
  faultAddr  : Word
  faultValid : Bool
  faultOvr   : Bool
  faultWrite : Bool
  faultInit  : BitVec 3
  faultCause : BitVec 4
  fallback  : Bool
  curSrc    : BitVec 2
  src       : BitVec 2
  div       : BitVec 2
  reqDmi    : Bool
  reqRad    : Bool
  runDmi    : Bool
  runRad    : Bool
  xoRun     : Bool
  /-- XO32M_OUT was tied to DGND at cold start (R533). -/
  tcxo      : Bool
  wdogEn    : Bool
  wdogPeriod : BitVec 4
  wdogKmask : BitVec 4
  wdogKicked : BitVec 4
  /-- The watchdog has stopped (R91, R108). -/
  wdogStopped : Bool
  /-- The core island has stopped at the last act's deadline (R93). -/
  coreStopped : Bool
  posted    : List Posted
  failed    : List FailedPost
  /-- The debug port's last read data and cause. -/
  dbgData   : Word
  dbgCause  : BitVec 4
  deriving DecidableEq, Repr, Inhabited

/-! ## Memory (06) -/

/-- A write-buffer entry (R194): word address, 8 bytes, byte mask, the shuttles whose stores it holds, check bits to
invert when it is written (R205). -/
structure WbEntry where
  word   : Nat
  data   : DWord
  mask   : BitVec 8
  owners : BitVec 4
  inj    : Nat
  deriving DecidableEq, Repr, Inhabited

/-- Which persistent bank is active (R218). -/
inductive Bank where
  | none | a | b
  deriving DecidableEq, Repr, Inhabited

/-- An MRAM word as it was before a write that some shuttle's fetch buffer has not seen: address, data, error class and the
number of the write (R150, R188). -/
structure OldWord where
  word : Nat
  data : DWord
  cls  : Nat
  num  : Nat
  deriving DecidableEq, Repr, Inhabited

structure Mem where
  /-- Bytes of SRAM, MRAM and OTP, addresses strictly rising, no zero byte listed. -/
  cells   : List Host.Cell
  /-- Word address and number of bits in error: 1 correctable, 2 uncorrectable, 3 poisoned (R199, R201, R203). -/
  ecc     : List (Nat × Nat)
  wbuf    : List WbEntry
  /-- Superseded MRAM words that a fetch buffer may still hold, oldest first, and how many there have been (R188). -/
  old     : List OldWord
  oldNum  : Nat
  cthresh : BitVec 8
  inj     : BitVec 2
  cwb     : Bool
  /-- POISON, SCRUE, MUE, SUE, THR, MCE, SCE. -/
  eccstat : BitVec 7
  mcnt    : BitVec 16
  scnt    : BitVec 16
  eccAddr : Word
  uncor   : Bool
  men     : Bool
  sen     : Bool
  mint    : BitVec 8
  sint    : BitVec 8
  mpass   : BitVec 4
  spass   : BitVec 4
  scrubM  : Nat
  scrubS  : Nat
  wprot   : BitVec 8
  wprotDone : Bool
  done    : Bool
  fail    : Bool
  noseq   : Bool
  /-- The SEQ held for the boundary (R220). -/
  pendSeq : Option (BitVec 31)
  /-- A boundary fell while a commit ran: the SEQ held starts when that commit ends (R221). -/
  pendDue : Bool
  /-- The SEQ of a commit under way (R222). -/
  busy    : Option (BitVec 31)
  act     : Bank
  deriving DecidableEq, Repr, Inhabited

/-! ## Energy (02, 03) -/

/-- NRG_STAT.CHG. -/
inductive Chg where
  | off | precharge | cc | cv | done | tempHold | fault | suspended
  deriving DecidableEq, Repr, Inhabited

/-- The cell switch (R62, R63, R94, R98). -/
inductive CellSwitch where
  /-- Open since power-up or since the last act's cut-off. -/
  | opened
  | closed
  | uvOpen
  | ocRetry
  | ocLatched
  deriving DecidableEq, Repr, Inhabited

/-- NRG_LASTACT.STATE. -/
inductive LaState where
  | idle | closing | commitWait | cutoff
  deriving DecidableEq, Repr, Inhabited

structure Nrg where
  refOk   : Bool
  svcref  : Bool
  evres   : Bool
  evchg   : Bool
  evsrc   : Bool
  ntcflt  : Bool
  chg     : Chg
  mpsOpen : Bool
  dcMode  : Bool
  dcPres  : Bool
  tegIdle : Bool
  tegAct  : Bool
  pvov    : Bool
  pvAct   : Bool
  focvReg : Bool
  ctl     : Word
  focvSh  : Word
  focvAct : Word
  tegVoc  : BitVec 16
  pvVoc   : BitVec 16
  chgReg  : Word
  tcell   : BitVec 10
  vcell   : BitVec 16
  protReg : Word
  protDone : Bool
  resctl  : Word
  euse    : BitVec 16
  vres    : BitVec 16
  reserve : Word
  eres    : BitVec 16
  resLow  : Bool
  deriving DecidableEq, Repr, Inhabited

/-- The parts of the energy manager that no register shows whole. -/
structure NrgAux where
  laState : LaState
  laArmed : Bool
  thresh  : BitVec 16
  /-- Consecutive measurements below the threshold (R90). -/
  laCount : Nat
  /-- The latest measurement read below the threshold (R70). -/
  lastLow : Bool
  /-- The 200 ms deadline has passed (R93). -/
  deadline : Bool
  cellSw  : CellSwitch
  ovBlock : Bool
  /-- Local times of the over-current trips, newest first (R63). -/
  ocTrips : List Nat
  boostOn : Bool
  /-- V_MPSET in 0.1 mV (R44). -/
  vMpset  : Nat
  /-- The TEG fraction in parts of 200,000 (R56). -/
  tegFrac : Nat
  /-- The PV converter has stopped for the 4 ms sample (R45). -/
  pvSampling : Bool
  /-- The panel's operating point, k x V_OC or V_MPSET, in 1/2560 mV (R45, R49). -/
  pvTarget : Nat
  /-- k x V_OC is below 2.0 V: off until the next sample (R48). -/
  pvLowOff : Bool
  /-- The controlled TEG converter has taken over (R55). -/
  tegRun  : Bool
  tegSampling : Bool
  /-- VTEG has reached 20 mV since the TEG converter went idle (R57). -/
  tegWatch : Bool
  /-- The TEG operating point: fraction x TEGVOC, in 10 uV / 200,000 (R55). -/
  tegTarget : Nat
  /-- The DC-mode converter runs (R52). -/
  dcRun   : Bool
  /-- The safety timer of the charger counts (R60). -/
  chgTimer : Bool
  /-- The current that the charger is set to, uA (R58, R60, R61). -/
  chgUa   : Nat
  /-- The 10 mA sink on VRES runs (R73). -/
  sink    : Bool
  deriving DecidableEq, Repr, Inhabited

/-! ## Valve drive (07, 08) -/

/-- A profile record: eight words (07). -/
abbrev Profile := Vector Word 8

/-- DRV_VSTATE. -/
inductive VState where
  | closed | opened | unknown | moving
  deriving DecidableEq, Repr, Inhabited

/-- A valve-table entry (07). -/
structure ValveEntry where
  lenergy : Word
  /-- Coil temperature, 2^-30 degrees C: the register shows quarter degrees, the model of R287 needs the fraction. -/
  tcoil   : Int
  rcoil   : BitVec 16
  tnotch  : BitVec 16
  tpeak   : BitVec 16
  notfit  : Bool
  gstep   : BitVec 4
  diag    : BitVec 4
  deriving DecidableEq, Repr, Inhabited

/-- Where a drive command comes from (R23, R24, R267). -/
inductive Origin where
  | program
  | priorityClose
  | sequencer
  deriving DecidableEq, Repr, Inhabited

/-- The rank of a queue entry (R241): reversals and priority closes, PRIORITY commands, the others. -/
inductive QRank where
  | head | prio | norm
  deriving DecidableEq, Repr, Inhabited

/-- A command that holds a queue entry (R241). -/
structure QEntry where
  valve   : Fin 24
  profile : BitVec 4
  /-- The number of this entry: entries are numbered as they are accepted, so that no two are alike. -/
  id      : Nat
  prediag : Bool
  tested  : Bool
  rank    : QRank
  origin  : Origin
  /-- An admission wait has begun (R81). -/
  waiting : Bool
  /-- The limit of that wait: ADMIT_WAIT as it stood when the wait began (R81). -/
  limit   : BitVec 16
  /-- The thermal model defers it (R289). -/
  deferred : Bool
  /-- The valve was left MOVING by a reversal that this command ends (R246, R248). -/
  reversal : Bool
  /-- The retry of a close ended at the floor (R86). -/
  retry   : Bool
  deriving DecidableEq, Repr, Inhabited

/-- The phase of a running pulse (R232, R263). -/
inductive Phase where
  | precharge | boost | peak | hold | ending
  deriving DecidableEq, Repr, Inhabited

/-- The off-modes of R229. -/
inductive OffMode where
  | slow | fast | clamp
  deriving DecidableEq, Repr, Inhabited

/-- A running pulse (R232, R233, R243, R248 to R250). -/
structure Pulse where
  valve   : Fin 24
  profile : BitVec 4
  /-- The profile copy latched at the start (R233). -/
  prof    : Profile
  phase   : Phase
  origin  : Origin
  /-- The result, if the pulse has been ended early (R232, R246, R277). -/
  early   : Option (BitVec 4)
  /-- The valve's state before the pulse (R248). -/
  before  : VState
  /-- E_req of its admission, quarter uJ (R79). -/
  ereq    : Nat
  /-- Net energy drawn so far, uJ, as the DMI last measured it (R79). -/
  drawn   : Int
  /-- The floor and capacitance latched at its admission (R71). -/
  resctl  : Word
  notchMax : Nat
  notchMaxAt : Nat
  notchDip : Bool
  notchSeen : Bool
  tnotch  : BitVec 16
  /-- Samples of the coil current taken in BOOST (R249). -/
  samples : Nat
  tpeak   : BitVec 16
  decay   : OffMode
  /-- In PEAK and HOLD: the leg is in an on-time; else it decays (R228). -/
  on      : Bool
  demoted : Bool
  peakEarly : Bool
  peakLate : Bool
  bootRefresh : Bool
  endSlow : Bool
  /-- A HELD pulse whose HOLD phase has been reached (R248). -/
  held    : Bool
  /-- The releases that wait for this open to end: their profiles, in order (R236). -/
  rels    : List (BitVec 4)
  /-- The coil resistance measured over the last millisecond of a regulated phase that has lasted 2 ms (R285). -/
  rm      : Option Nat
  retry   : Bool
  /-- The pulse's switches are off after a fault (R257, R273, R276). -/
  off     : Bool
  deriving DecidableEq, Repr, Inhabited

structure Treadle where
  queue   : List QEntry
  runs    : List Pulse
  /-- T_TURN runs after an open (`some false`) or a close (`some true`) (R244). -/
  turn    : Option Bool
  /-- Failed bootstrap refreshes in a row (R265). -/
  refFail : Nat
  /-- The high-side's own under-voltage lock-out holds it off (R266). -/
  uvlo    : Bool
  deriving DecidableEq, Repr, Inhabited

/-- A switch of a half-bridge that is on (R227, R229). -/
inductive Sw where
  | off | low | high
  deriving DecidableEq, Repr, Inhabited

/-- What an off-state test belongs to (R240, R283). -/
inductive TestFor where
  | tgo | tall | prediag
  deriving DecidableEq, Repr, Inhabited

/-- The last-act sequencer: idle, cold close or last act (R91, R101). -/
inductive SeqMode where
  | idle | cold | last
  deriving DecidableEq, Repr, Inhabited

structure Drv where
  profiles : Vector Profile 16
  valves  : Vector ValveEntry 24
  vstate  : Vector VState 24
  ctl     : Word
  rovf    : Bool
  cmdstat : BitVec 3
  trdcfg  : Vector Word 3
  pair    : BitVec 12
  fault   : BitVec 8
  faultv  : BitVec 24
  fifo    : List (Word × Word)
  rphase  : Bool
  trd     : Vector Treadle 3
  manual  : Bool
  sw      : BitVec 2
  leg     : BitVec 5
  tall    : Bool
  tgo     : Bool
  tres    : BitVec 4
  tvalve  : BitVec 5
  gate    : Word
  bootCnt : Vector (BitVec 10) 3
  tsdact  : Bool
  tdie    : BitVec 9
  therm   : Word
  /-- Half-bridges whose interlock has tripped (R257): legs 0-23, treadles 24-26. -/
  trips   : BitVec 27
  test    : Option (Fin 24 × TestFor)
  /-- The number of the queue entry that a PREDIAG test serves (R240). -/
  testEntry : Nat
  /-- The number of the next entry to be accepted. -/
  entryId : Nat
  /-- The initiator code of the latest write of DRV_DIAG (R259). -/
  diagInit : Nat
  tallNext : Nat
  seqMode : SeqMode
  seqNext : Nat
  /-- The valve whose close the sequencer has started (R92). -/
  seqRun  : Option (Fin 24)
  /-- The running close was started by a cold close that the last act has taken over (R103). -/
  seqOver : Bool
  /-- The valve whose close ended at the floor and is to be tried once more (R86). -/
  seqRetry : Option (Fin 24)
  /-- TMP_NOW when the DMI stopped (R287). -/
  stopAt  : Nat
  deriving DecidableEq, Repr, Inhabited

/-! ## Flow and pulse metering (09) -/

/-- FLW_STATn.ZSTATE. -/
inductive ZState where
  | unzeroed | auto | program
  deriving DecidableEq, Repr, Inhabited

/-- The result words of a line in the flow results table (09). -/
structure FlowResult where
  dtsum  : Word
  nvalid : BitVec 8
  nrej   : BitVec 8
  sdev   : BitVec 16
  tofup  : Word
  tofdn  : Word
  dtraw  : Word
  sos    : Word
  ampup  : BitVec 16
  ampdn  : BitVec 16
  rnoise : BitVec 6
  rslip  : BitVec 6
  rlate  : BitVec 6
  rsat   : BitVec 6
  rnosig : BitVec 6
  stamp  : Word
  seq    : Word
  deriving DecidableEq, Repr, Inhabited

/-- Debounce of a pulse input (R314, R315): the level of the current run, its length, the definite level, and the level that the
counter has last seen last for DEB + 1 samples. -/
structure PulseIn where
  level   : Bool
  runLen  : Nat
  settled : Bool
  definite : Bool
  counted : Bool
  deriving DecidableEq, Repr, Inhabited

structure FlowLine where
  ctlSh   : Word
  ctlAct  : Word
  meas    : Bool
  due     : Bool
  zcond   : Bool
  zstate  : ZState
  qual    : BitVec 3
  exclow  : Bool
  new     : Bool
  skip    : Bool
  povf    : Bool
  dt      : Word
  zero    : Word
  pcnt    : Word
  pcfg    : Word
  cfg0    : Word
  cfg1    : Word
  path    : Word
  toffs   : Word
  cfg4    : Word
  res     : FlowResult
  pin     : PulseIn
  /-- Start requested by FLW_GCTL (R295). -/
  start   : Bool
  /-- The due time of the measurement that is due, in local time (R294). -/
  dueAt   : Nat
  /-- The castling instant T_s (R293). -/
  ts      : Nat
  /-- The DMI has been started ahead of a due time of this line (R294). -/
  prewake : Bool
  /-- Results that have updated the zero since the condition began (R310). -/
  zk      : Nat
  deriving DecidableEq, Repr, Inhabited

/-- The measurement under way (R296 to R301). -/
structure FlowMeas where
  line   : Fin 3
  shots  : List Shot
  vexc   : Bool
  exclow : Bool
  /-- The zero condition held at the first shot (R310). -/
  zfirst : Bool
  /-- STAMP, once the first shot has been fired (R19). -/
  stamp  : Option Word
  deriving DecidableEq, Repr, Inhabited

structure Flw where
  line   : Vector FlowLine 3
  hquiet : Bool
  meas   : Option FlowMeas
  /-- Local time until which the DMI keeps running after a posting (R294). -/
  keep   : Nat
  /-- The receive window of the latest shot, from and to these local times, and HQUIET as it stood at that shot (R298, R300). -/
  winFrom : Nat
  winTo   : Nat
  quiet   : Bool
  /-- No measurement starts until the next reset (R307). -/
  dead   : Bool
  deriving DecidableEq, Repr, Inhabited

/-! ## Pressure and comparators (10) -/

inductive CapState where
  | off | recording | post | hold
  deriving DecidableEq, Repr, Inhabited

/-- The record under way (R339, R340, R342). -/
structure Record where
  own     : Bool
  plant   : Bool
  sampled : Bool
  soft    : Bool
  overlap : Bool
  stampW  : Word
  sfn     : Word
  qual    : Word
  valve   : BitVec 8
  /-- Local time of the stamp, for TOFF (R340). -/
  at_     : Nat
  npre    : Nat
  npost   : Nat
  toff    : Option Nat
  deriving DecidableEq, Repr, Inhabited

structure PrsLine where
  ctlSh   : Word
  ctlAct  : Word
  /-- Settings swapped in while a record is held: they apply from REL (R341). -/
  ctlHeld : Option Word
  valid   : Bool
  val     : BitVec 16
  missed  : BitVec 8
  cfgerr  : Bool
  state   : CapState
  sdone   : Bool
  done    : Bool
  trg     : Bool
  spot    : Bool
  stamp   : Word
  buf     : Word
  /-- Samples taken into the ring since it started. -/
  stored  : Nat
  /-- The samples gathered for the next 64-bit store, oldest first (R324). -/
  acc     : List (BitVec 16)
  /-- Local time of the latest sample. -/
  lastAt  : Nat
  rec_    : Option Record
  seq     : BitVec 8
  deriving DecidableEq, Repr, Inhabited

/-- One comparator (R328 to R335). -/
structure Cmp where
  cfg     : Word
  /-- The first sample or evaluation since the comparator started has been taken (R330). -/
  begun   : Bool
  /-- The latch was set in the XT32 period under way (R331). -/
  recent  : Bool
  /-- State of TA and of TB (R328). -/
  sa      : Bool
  sb      : Bool
  out     : Bool
  settled : Bool
  /-- The output as the latch and pulse-input logic sees it (R333). -/
  seen    : Bool
  latch   : Bool
  test    : BitVec 2
  /-- Blanked by a drive, a shot, a match window (R332). -/
  blDrv   : Bool
  blShot  : Bool
  blMatch : Bool
  deriving DecidableEq, Repr, Inhabited

/-- A blanking window under way (R332). -/
structure BlankWin where
  src   : BlankSource
  /-- The comparators whose bit in CMP_BLANK was 1 at its start. -/
  mask  : BitVec 8
  /-- The valve of a drive window's pulse. -/
  valve : BitVec 8
  /-- What follows the pulse, the burst or the match, in tempo units, as CMP_BLANK stood at the window's start. -/
  tail  : Nat
  /-- Local time at which it ends; none while its pulse runs. -/
  due   : Option Nat
  deriving DecidableEq, Repr, Inhabited

structure Prs where
  line  : Vector PrsLine 3
  cmp   : Vector Cmp 8
  blank : Word
  /-- The blanking windows under way, oldest first (R332). -/
  wins  : List BlankWin
  /-- After LASTACT no line leaves OFF or HOLD until the next reset (R337). -/
  dead  : Bool
  deriving DecidableEq, Repr, Inhabited

/-! ## Tempo (11) -/

/-- The discipline state of R359. -/
inductive Disc where
  | freeRun | first | locked
  deriving DecidableEq, Repr, Inhabited

structure Tmp where
  now     : BitVec 64
  frac    : BitVec 37
  counting : Bool
  /-- Tempo units since the last XT32 edge at which the latest command acted. -/
  phase   : Nat
  hiLatch : Vector Word 6
  offsLatch : Vector Word 6
  asnLatch : Vector (BitVec 8) 6
  rate    : Word
  offs    : BitVec 64
  staged  : Word
  sync    : Bool
  trace   : Bool
  src     : BitVec 2
  depth   : BitVec 4
  marm    : Bool
  xtfail  : Bool
  age     : BitVec 10
  err     : BitVec 12
  tmatch  : Word
  tcomp   : Word
  corr    : BitVec 12
  /-- The unsaturated temperature correction C, 2^-32 units (R353). -/
  tempC   : Int
  disc    : Disc
  refP    : BitVec 64
  refL    : BitVec 64
  rejected : Option Int
  /-- The parent's or head's ERR of the last reference event, ns (R363). -/
  parentErr : Nat
  /-- Accepted PPS edges, counted to 2 (R365). -/
  ppsEdges : Nat
  /-- Local times of the latest accepted edges of GP0 and LNK_SYNC (R351). -/
  gp0At   : Option (BitVec 64)
  syncAt  : Option (BitVec 64)
  deriving DecidableEq, Repr, Inhabited

/-! ## Radio and MAC (12, 13, 14) -/

inductive RadState where
  | off | idle | settling | listen | receive | transmit | test
  deriving DecidableEq, Repr, Inhabited

structure Rad where
  ctl     : Word
  phy     : Word
  maxpwr  : BitVec 8
  pwr     : BitVec 8
  pwrDone : Bool
  dwell   : Word
  unset   : Bool
  refcnt  : BitVec 16
  lbtThr  : BitVec 8
  /-- THR as it stood when the listen under way began (R387). -/
  lisThr  : BitVec 8
  busycnt : BitVec 8
  lbtLt   : BitVec 13
  rssif   : BitVec 8
  fcserr  : BitVec 8
  phrerr  : BitVec 4
  state   : RadState
  /-- Charges in us of each channel: 64 channels, each with its 17 sub-windows, newest first (R383). -/
  charge  : Vector (List Nat) 64
  /-- PLAN and SUBW of the previous reset (R392). -/
  oldPlan : Option (BitVec 16)
  /-- COLDHOLD is to be applied at the first RAD_DWELL write (R386). -/
  coldHold : Bool
  maxch   : BitVec 6
  maxuse  : BitVec 8
  deriving DecidableEq, Repr, Inhabited

inductive LinkState where
  | off | listen | active | resync
  deriving DecidableEq, Repr, Inhabited

/-- A link entry (13) and its link sequence (R431). -/
structure Link where
  state   : LinkState
  parent  : Bool
  pend    : Bool
  inc     : BitVec 6
  base    : BitVec 6
  neigh   : BitVec 5
  miss    : BitVec 3
  supage  : BitVec 8
  inst    : BitVec 16
  counter : BitVec 16
  map     : BitVec 64
  pmap    : BitVec 64
  lseq    : BitVec 8
  /-- Superframes since a frame was last sent to the parent (R418). -/
  quiet   : Nat
  deriving DecidableEq, Repr, Inhabited

/-- A neighbour entry (13), its two replay windows (R456) and the network window's generation (R474). -/
structure Neigh where
  eui    : BitVec 64
  saddr  : BitVec 10
  depth  : BitVec 4
  valid  : Bool
  pin    : Bool
  bcn    : Bool
  /-- BSLOT, BOFS, JOINOK, JOFS, JSLOT at bits [31:13]. -/
  cells  : BitVec 19
  drift  : BitVec 8
  netid  : BitVec 16
  rssi   : BitVec 8
  age    : BitVec 8
  lhigh  : Word
  lwin   : Word
  nhigh  : Word
  nwin   : Word
  ngen   : BitVec 16
  /-- The last JOIN frame accepted: direction, EUI, LSEQ (R440). -/
  lastJoin : Option (Bool × BitVec 64 × BitVec 8)
  deriving DecidableEq, Repr, Inhabited

structure Route where
  valid : Bool
  neigh : BitVec 5
  plen  : BitVec 4
  base  : BitVec 10
  hops  : BitVec 4
  age   : BitVec 8
  deriving DecidableEq, Repr, Inhabited

structure DupEntry where
  valid : Bool
  src   : BitVec 10
  seq   : BitVec 16
  stamp : Word
  deriving DecidableEq, Repr, Inhabited

/-- A queued frame (R447): what it is, its TX slot if the program's, its link, header and payload. -/
structure TxFrame where
  /-- The number of this frame: frames are numbered as they are queued, so that no two are alike (R41). -/
  id      : Nat
  /-- The frame's TYPE (R429). -/
  type    : BitVec 3
  slot    : Option (Fin 16)
  link    : Fin 16
  dst     : BitVec 10
  src     : BitVec 10
  seq     : BitVec 16
  hops    : BitVec 5
  payload : List Byte
  /-- The joiner's EUI-64 of a JOIN frame. -/
  eui     : BitVec 64
  /-- A JOIN frame from the parent to the joiner: it travels on no link. -/
  down    : Bool
  retry   : Nat
  tries   : Nat
  refused : Nat
  /-- LSEQ and, once secured, FCNT and key slot of the frame (R41, R431). -/
  lseq    : Option (BitVec 8)
  fcnt    : Option (Word × Fin 16)
  stamp   : Word
  deriving DecidableEq, Repr, Inhabited

/-- What the node does in the slot under way (R399, R404). -/
inductive Serving where
  | nothing
  /-- Sends the oldest frame of the link that fits the cell. -/
  | txData (link : Fin 16) (long : Bool)
  | keepAlive (link : Fin 16)
  /-- A JOIN frame, by the parent (`true`) or by the joiner. -/
  | txJoin (down : Bool)
  | beacon
  | rxData (link : Fin 16)
  | rxBeacon
  | rxJoin
  deriving DecidableEq, Repr, Inhabited

/-- A transmission that waits for its acknowledgement (R436). -/
structure Attempt where
  link  : Fin 16
  lseq  : BitVec 8
  type  : BitVec 3
  /-- The local time at which the acknowledgement's SFD is expected to end (R404). -/
  due   : BitVec 64
  deriving DecidableEq, Repr, Inhabited

/-- A frame that the radio has sent: its form on the air, its carrier, its power and the capture of its SFD (R371, R372, R375,
R378, R381). -/
structure AirFrame where
  rate    : Nat
  pre     : Nat
  coded   : Bool
  dw      : Bool
  /-- The PSDU before whitening, FCS included. -/
  psdu    : List Byte
  chan    : Nat
  /-- The centre frequency, kHz. -/
  freq    : Nat
  /-- The output power, dBm, and the amplifier: true is the high-power one. -/
  power   : BitVec 8
  high    : Bool
  stamp   : BitVec 64
  deriving DecidableEq, Repr, Inhabited

/-- An acknowledgement to send (R404, R435). -/
structure AckDue where
  lseq  : BitVec 8
  ldst  : BitVec 10
  rssi  : BitVec 8
  cnt   : BitVec 4
  again : Bool
  chan  : Nat
  deriving DecidableEq, Repr, Inhabited

structure Mac where
  ctl      : Word
  nbdrop   : BitVec 8
  noch     : Bool
  cconf    : Bool
  desync   : Bool
  resyncev : Bool
  linkdrop : Bool
  parlost  : Bool
  scandone : Bool
  newnb    : Bool
  mapSh    : BitVec 64
  mapAct   : BitVec 64
  guard    : Word
  supv     : BitVec 8
  addr     : Word
  /-- The fields of MAC_CTL other than MODE as they are in force (13). -/
  ctlAct   : Word
  qref     : BitVec 8
  peak     : BitVec 5
  tabsel   : Word
  cellAct  : Vector Word 64
  cellSh   : Vector Word 64
  links    : Vector Link 16
  neighs   : Vector Neigh 32
  routes   : Vector Route 64
  dups     : Vector DupEntry 32
  deriving DecidableEq, Repr, Inhabited

/-- The parts of the MAC that no register shows. -/
structure MacAux where
  dupPos   : Fin 32
  queue    : List TxFrame
  /-- The number of the next frame to be queued. -/
  frameId  : Nat
  txPtr    : Fin 16
  rxPtr    : Fin 16
  serving  : Serving
  chan     : Nat
  attempt  : Option Attempt
  ack      : Option AckDue
  /-- The transmission of the slot waits for a listen (R388), and that listen has ended free (R387). -/
  listens  : Bool
  lbtOk    : Bool
  /-- The cell entry whose service fills the slot under way (R401). -/
  cell     : Option (Fin 64)
  /-- The slot under way, and the slot before it, hold activity of the node (R389, R407). -/
  active   : Bool
  before   : Bool
  /-- The route error of the superframe has been raised (R445). -/
  routeErr : Bool
  scanChan : Nat
  scanPause : Bool
  /-- BE and the uplink occurrences left of the backoff (R423). -/
  be       : Nat
  backoff  : Option Nat
  joinSeq  : BitVec 8
  /-- The same for JOIN frames from the parent to a joiner (R439). -/
  joinDown : BitVec 8
  /-- The counter value c of the occurrence under way (R410). -/
  occ      : BitVec 16
  /-- Local time at which tempo last accepted a candidate from the parent (R414). -/
  candAt   : Nat
  /-- ASN of the slot under way (R395). -/
  slotAsn  : Nat
  /-- The MAC has requested the radio for its next cell (R403). -/
  prewake  : Bool
  /-- The capture of the SFD of the transmission that keys up (R381). -/
  sfdAt    : BitVec 64
  /-- The frames that keyed up, newest first: what the node has put on the air. -/
  sent     : List AirFrame
  deriving DecidableEq, Repr, Inhabited

/-! ## Security (15) -/

structure KeySlot where
  valid   : Bool
  key     : BitVec 128
  gen     : BitVec 16
  bound   : Option (BitVec 5)
  fcnt    : Word
  ceiling : Word
  deriving DecidableEq, Repr, Inhabited

inductive DbgSt where
  | idle | chal | verify | refused
  deriving DecidableEq, Repr, Inhabited

structure Sec where
  slots    : Vector KeySlot 16
  /-- The key store as its selected bank holds it (R466). -/
  store    : Vector KeySlot 16
  /-- What the commit under way writes (R467). -/
  image    : Vector KeySlot 16
  /-- A commit runs; another waits behind it (R467). -/
  commit   : Bool
  commitNext : Bool
  lock     : Bool
  minlvl   : BitVec 3
  txlvl    : BitVec 3
  nettx    : Bool
  miccnt   : BitVec 8
  stalecnt : BitVec 8
  stok     : Bool
  entok    : Bool
  ksfail   : Bool
  rekeyw   : Bool
  exh      : Bool
  lvlerr   : Bool
  dbgst    : DbgSt
  kstat    : BitVec 3
  selBuf   : BitVec 15
  selNeigh : BitVec 5
  selSlot  : Fin 16
  bootVer  : BitVec 15
  unsigned : Bool
  bootLevel : BitVec 6
  bootImg  : BitVec 2
  resA     : BitVec 4
  resB     : BitVec 4
  dbgOpen  : Bool
  scope    : BitVec 4
  deriving DecidableEq, Repr, Inhabited

structure SecAux where
  challenge : List Word
  chalPos   : Nat
  response  : List Word
  scopeReq  : BitVec 16
  failures  : Nat
  /-- The ephemeral private key of ECDH_GEN (R488). -/
  ephemeral : Option Nat
  burn      : Option Burn
  /-- Rollback levels being burnt and who waits (R481). -/
  rollback  : Option (Nat × Initiator)
  deriving DecidableEq, Repr, Inhabited

/-! ## Performance counters (16) -/

structure Prf where
  uread   : Bool
  frozen  : Bool
  frzsrc  : BitVec 2
  chain   : BitVec 4
  ovie    : BitVec 8
  cycen   : Bool
  en      : BitVec 8
  cyc     : DWord
  cnt     : Vector Word 8
  sel     : Vector Word 4
  ovf     : BitVec 9
  gather  : Vector Nat 8
  /-- XT32 periods modulo 16, for the fractional island cycles of a period (R491). -/
  per     : Nat
  deriving DecidableEq, Repr, Inhabited

/-! ## The selvedge chain (17) -/

/-- The two ends of a chip: the segment to the head's side and the segment away from it; and where a frame travels (R506). -/
inductive LinkDir where
  | up | down
  deriving DecidableEq, Repr, Inhabited

/-- A frame of a segment (R506). -/
structure LinkFrame where
  dir     : LinkDir
  type    : BitVec 4
  pos     : BitVec 5
  payload : List Word
  deriving DecidableEq, Repr, Inhabited

/-- A remote access of the head (R514): the chain-window address as issued and, of a store, the data. -/
structure Remote where
  init  : Initiator
  pos   : BitVec 5
  write : Bool
  addr  : Word
  data  : Word
  deriving DecidableEq, Repr, Inhabited

structure Lnk where
  ctl     : Word
  crcerr  : BitVec 8
  rxsrc   : BitVec 5
  rxhw    : Bool
  txst    : BitVec 3
  stfull  : Bool
  syncerr : Bool
  tout    : Bool
  linkdn  : Bool
  linkup  : Bool
  valid   : Bool
  head    : Bool
  /-- A member that VALID 0 left without a position until its next reset (R509). -/
  refused : Bool
  /-- The strap has been sampled since the reset (R504). -/
  sampled : Bool
  count   : BitVec 6
  pos     : BitVec 5
  staged  : List Word
  rxbox   : List Word
  /-- Hardware words that wait to be taken by the head (R516). -/
  hwWait  : List Word
  /-- The remote access under way, and those that wait behind it in issue order (R514). -/
  remotes : List Remote
  /-- An edge of LNK_SYNC waits for its TIME frame: its capture in local time (R519). -/
  edge    : Option (BitVec 64)
  /-- Local time of the latest reference event (R520). -/
  refAt   : Nat
  /-- The member to which the head's MSG under way goes (R515). -/
  txDest  : BitVec 5
  /-- The frames that wait at each end of the chip for its turn on the segment, oldest first (R507). -/
  upq     : List LinkFrame
  downq   : List LinkFrame
  /-- The chip's end has the turn on the segment (R507). -/
  upTurn  : Bool
  downTurn : Bool
  /-- The frames that the chip has put on its segments, newest first. -/
  sent    : List LinkFrame
  deriving DecidableEq, Repr, Inhabited

/-! ## The whole node -/

/-- The state of the node and the queue of the commands that wait, first in, first out. -/
structure State where
  sys    : Sys
  eng    : Eng
  mem    : Mem
  /-- The castling domains armed, in the bit order of the COMMIT mask (R210, R213). -/
  armed  : BitVec 9
  nrg    : Nrg
  nrgx   : NrgAux
  drv    : Drv
  flw    : Flw
  prs    : Prs
  tmp    : Tmp
  rad    : Rad
  mac    : Mac
  macx   : MacAux
  sec    : Sec
  secx   : SecAux
  prf    : Prf
  lnk    : Lnk
  /-- The model's own counter of free values drawn. -/
  fresh  : Nat
  pending : List Instr
  deriving DecidableEq, Repr, Inhabited

/-! ## Why a step stops -/

/-- The faults of the model: none. Every command of the block answers a next state, because the spec gives each of them
an effect (an error response, an exception, a refusal that a register shows); no meaning stops. Safe: nothing raises it. -/
inductive Fault where
  deriving DecidableEq, Repr

/-- The refusals of the model. -/
inductive Refusal where
  /-- Raised only by an arm of exec whose command has no meaning yet; safe, since the machine stops. -/
  | notModelled (mnemonic : String)
  deriving DecidableEq, Repr

/-! ## Reset values (R17, R104, R112 and the register tables) -/

/-- A shuttle after reset (R112): S0 READY at address 0 with RECEIVE, the others disabled. -/
def Shuttle.reset (first : Bool) : Shuttle :=
  { w := Vector.replicate 16 0, pc := 0, acc := 0, ie := false, pie := false, prv := false, pprv := false,
    inexc := false, epc := 0, cause := 0, addr := 0, scratch := 0,
    run := if first then .ready else .disabled, busyOn := none, waitMask := 0, waitRd := 0, freeAt := 0,
    flow := true, bufAt := 0, restart := false, wpend := 0, ien := 0, en := first, priv := false, udev := false,
    fixedReq := false, recvReq := first, fixedAct := false, recvAct := first }

def Eng.reset : Eng :=
  { sh := #v[Shuttle.reset true, Shuttle.reset false, Shuttle.reset false, Shuttle.reset false],
    issueReq := 0, issueAct := 0, issueAt := 0, flagAt := 0, evpend := 0, evroute := 0, vecbase := 0,
    mpu := Vector.replicate 4 (Vector.replicate 8 0), mpuctl := 0, cyc := 0, stopped := false,
    crossFree := Vector.replicate 3 0, same := { ev := 0, ovf := 0, ecc := 0 } }

/-- The SYS block after a cold start. -/
def Sys.reset : Sys :=
  { power := .boot, rstCause := 0, shipExit := false, rstRecent := false,
    faultAddr := 0, faultValid := false, faultOvr := false, faultWrite := false, faultInit := 0, faultCause := 0,
    fallback := false, curSrc := 0, src := 0, div := 0, reqDmi := false, reqRad := false, runDmi := false,
    runRad := false, xoRun := false, tcxo := false, wdogEn := false, wdogPeriod := 8, wdogKmask := 1,
    wdogKicked := 0, wdogStopped := false, coreStopped := false, posted := [], failed := [],
    dbgData := 0, dbgCause := 0 }

def Mem.reset : Mem :=
  { cells := [], ecc := [], wbuf := [], old := [], oldNum := 0, cthresh := 16, inj := 0, cwb := true, eccstat := 0, mcnt := 0, scnt := 0,
    eccAddr := 0, uncor := false, men := true, sen := true, mint := 32, sint := 4, mpass := 0, spass := 0,
    scrubM := 0, scrubS := 0, wprot := 0, wprotDone := false, done := false, fail := false, noseq := false,
    pendSeq := none, pendDue := false, busy := none, act := .none }

def Nrg.reset : Nrg :=
  { refOk := false, svcref := false, evres := false, evchg := false, evsrc := false, ntcflt := false, chg := .off,
    mpsOpen := false, dcMode := false, dcPres := false, tegIdle := false, tegAct := false, pvov := false,
    pvAct := false, focvReg := false, ctl := 0x5F, focvSh := 0xC810, focvAct := 0xC810, tegVoc := 0, pvVoc := 0,
    chgReg := 0x00A2000A, tcell := 0, vcell := 0, protReg := 0x53, protDone := false,
    resctl := 0x3058B478, euse := 0, vres := 0, reserve := 0x1110, eres := 0, resLow := false }

/-- The board's straps read as 40 kΩ (V_MPSET 4.0 V) and 100 kΩ (TEG fraction 0.50), DESIGN CHOICE (log 5). -/
def NrgAux.reset : NrgAux :=
  { laState := .idle, laArmed := false, thresh := 0, laCount := 0, lastLow := false, deadline := false,
    cellSw := .opened, ovBlock := false, ocTrips := [], boostOn := false, vMpset := 40000,
    tegFrac := 100000, pvSampling := false, pvTarget := 40000 * 256, pvLowOff := false, tegRun := false, tegSampling := false,
    tegWatch := false, tegTarget := 0, dcRun := false, chgTimer := false, chgUa := 0, sink := false }

/-- The ROM default profile, in the open (`false`) or the close direction (R99). -/
def romProfile (close : Bool) : Profile :=
  #v[if close then 0xC0026000 else 0x80026000, 0x03E80000, 0x07D00FA0, 0, 0, 0x00124F80, 0, 0]

/-- The ROM default profile table: P0 opens, P1 closes, the others are invalid (R99). -/
def romProfiles : Vector Profile 16 :=
  #v[romProfile false, romProfile true, Vector.replicate 8 0, Vector.replicate 8 0,
     Vector.replicate 8 0, Vector.replicate 8 0, Vector.replicate 8 0, Vector.replicate 8 0,
     Vector.replicate 8 0, Vector.replicate 8 0, Vector.replicate 8 0, Vector.replicate 8 0,
     Vector.replicate 8 0, Vector.replicate 8 0, Vector.replicate 8 0, Vector.replicate 8 0]

/-- The ROM default valve entry for a die temperature in whole degrees: learned energy 0, gate step 8, coil at die +
40 °C in quarter degrees, all else 0 (R99). -/
def romValve (tdie : Int) : ValveEntry :=
  { lenergy := 0, tcoil := (tdie + 40) * 2 ^ 30, rcoil := 0, tnotch := 0, tpeak := 0,
    notfit := false, gstep := 8, diag := 0 }

def Treadle.reset : Treadle := { queue := [], runs := [], turn := none, refFail := 0, uvlo := false }

def Drv.reset : Drv :=
  { profiles := romProfiles, valves := Vector.replicate 24 (romValve 0), vstate := Vector.replicate 24 .unknown,
    ctl := 0x00641901, rovf := false, cmdstat := 0, trdcfg := #v[0xFA0, 0xFA0, 0xFA0], pair := 0,
    fault := 0, faultv := 0, fifo := [], rphase := false,
    trd := #v[Treadle.reset, Treadle.reset, Treadle.reset], manual := false, sw := 0, leg := 0, tall := false,
    tgo := false, tres := 0, tvalve := 0, gate := 0x00114888, bootCnt := #v[0, 0, 0], tsdact := false, tdie := 0,
    therm := 0x1A6082, trips := 0, test := none, testEntry := 0, entryId := 0, diagInit := 0, tallNext := 0,
    seqMode := .idle, seqNext := 0, seqRun := none, seqOver := false, seqRetry := none, stopAt := 0 }

def FlowResult.reset : FlowResult :=
  { dtsum := 0, nvalid := 0, nrej := 0, sdev := 0, tofup := 0, tofdn := 0, dtraw := 0x80000000, sos := 0, ampup := 0,
    ampdn := 0, rnoise := 0, rslip := 0, rlate := 0, rsat := 0, rnosig := 0, stamp := 0, seq := 0 }

def FlowLine.reset (n : Nat) : FlowLine :=
  { ctlSh := 0x107FA808, ctlAct := 0x107FA808, meas := false, due := false, zcond := false, zstate := .unzeroed,
    qual := 0, exclow := false, new := false, skip := false, povf := false, dt := 0x80000000, zero := 0, pcnt := 0,
    pcfg := 0x00000D30, cfg0 := 0x403200FA, cfg1 := 0x00C80014, path := 0, toffs := 0,
    cfg4 := 0x1E000000 ||| place 0xFF (8 * n), res := FlowResult.reset,
    pin := { level := false, runLen := 0, settled := false, definite := false, counted := false }, start := false, dueAt := 0, ts := 0,
    prewake := false, zk := 0 }

def Flw.reset : Flw :=
  { line := #v[FlowLine.reset 0, FlowLine.reset 1, FlowLine.reset 2], hquiet := true, meas := none, keep := 0,
    winFrom := 0, winTo := 0, quiet := true, dead := false }

def PrsLine.reset : PrsLine :=
  { ctlSh := 0x40080000, ctlAct := 0x40080000, ctlHeld := none, valid := false, val := 0, missed := 0, cfgerr := false, state := .off,
    sdone := false, done := false, trg := false, spot := false, stamp := 0, buf := 0, stored := 0, acc := [], lastAt := 0, rec_ := none,
    seq := 0 }

def Cmp.reset : Cmp :=
  { cfg := 0x06100000, begun := false, recent := false, sa := false, sb := false, out := false, settled := false, seen := false, latch := false,
    test := 0, blDrv := false, blShot := false, blMatch := false }

def Prs.reset : Prs :=
  { line := #v[PrsLine.reset, PrsLine.reset, PrsLine.reset], cmp := Vector.replicate 8 Cmp.reset,
    blank := 0x09003F07, wins := [], dead := false }

def Tmp.reset : Tmp :=
  { now := 0, frac := 0, counting := false, phase := 0, hiLatch := Vector.replicate 6 0,
    offsLatch := Vector.replicate 6 0, asnLatch := Vector.replicate 6 0, rate := 0, offs := 0, staged := 0,
    sync := false, trace := false, src := 0, depth := 0xF, marm := false, xtfail := false, age := 0x3FF, err := 0xFFF,
    tmatch := 0, tcomp := 0xB2AA0000, corr := 0, tempC := 0, disc := .freeRun, refP := 0, refL := 0, rejected := none,
    parentErr := 0, ppsEdges := 0, gp0At := none, syncAt := none }

def Rad.reset : Rad :=
  { ctl := 1, phy := 0x0810, maxpwr := 14, pwr := 14, pwrDone := false, dwell := 0, unset := true, refcnt := 0,
    lbtThr := 0xA6, lisThr := 0xA6, busycnt := 0, lbtLt := 1600, rssif := 0x80, fcserr := 0, phrerr := 0, state := .off,
    charge := Vector.replicate 64 [], oldPlan := none, coldHold := true, maxch := 0, maxuse := 0 }

def Link.reset : Link :=
  { state := .off, parent := false, pend := false, inc := 1, base := 0, neigh := 0, miss := 0, supage := 0, inst := 0,
    counter := 0, map := BitVec.allOnes 64, pmap := 0, lseq := 0, quiet := 0 }

def Neigh.reset : Neigh :=
  { eui := 0, saddr := 0, depth := 0xF, valid := false, pin := false, bcn := false, cells := 0,
    drift := 20, netid := 0, rssi := 0x80, age := 0xFF, lhigh := 0, lwin := 0, nhigh := 0, nwin := 0, ngen := 0,
    lastJoin := none }

def Route.reset : Route := { valid := false, neigh := 0, plen := 0, base := 0, hops := 0, age := 0 }

def DupEntry.reset : DupEntry := { valid := false, src := 0, seq := 0, stamp := 0 }

def Mac.reset : Mac :=
  { ctl := 0x00884000, nbdrop := 0, noch := false, cconf := false, desync := false, resyncev := false,
    linkdrop := false, parlost := false, scandone := false, newnb := false,
    mapSh := BitVec.allOnes 64, mapAct := BitVec.allOnes 64, guard := 0x147814C8, supv := 64, addr := 0, ctlAct := 0x00884000, qref := 0,
    peak := 0, tabsel := 0, cellAct := Vector.replicate 64 0, cellSh := Vector.replicate 64 0,
    links := Vector.replicate 16 Link.reset, neighs := Vector.replicate 32 Neigh.reset,
    routes := Vector.replicate 64 Route.reset, dups := Vector.replicate 32 DupEntry.reset }

def MacAux.reset : MacAux :=
  { dupPos := 0, queue := [], frameId := 0, txPtr := 0, rxPtr := 0, serving := .nothing, chan := 0, attempt := none, ack := none,
    listens := false, lbtOk := false, cell := none, active := false, before := false, routeErr := false, scanChan := 0, scanPause := false, be := 2, backoff := none, joinSeq := 0, joinDown := 0, occ := 0,
    candAt := 0, slotAsn := 0, prewake := false, sfdAt := 0, sent := [] }

def KeySlot.empty : KeySlot := { valid := false, key := 0, gen := 0, bound := none, fcnt := 0, ceiling := 0 }

/-- SEC after a cold start; what OTP supplies (STATE, ROLLBACK) is read from the OTP bytes of memory. -/
def Sec.reset : Sec :=
  { slots := Vector.replicate 16 KeySlot.empty, store := Vector.replicate 16 KeySlot.empty,
    image := Vector.replicate 16 KeySlot.empty, commit := false,
    commitNext := false, lock := false, minlvl := 1, txlvl := 6, nettx := false, miccnt := 0, stalecnt := 0,
    stok := false, entok := false, ksfail := false, rekeyw := false, exh := false, lvlerr := false, dbgst := .idle,
    kstat := 0, selBuf := 0, selNeigh := 0, selSlot := 0, bootVer := 0, unsigned := false, bootLevel := 0,
    bootImg := 0, resA := 0, resB := 0, dbgOpen := false, scope := 0 }

def SecAux.reset : SecAux :=
  { challenge := [], chalPos := 0, response := [], scopeReq := 0, failures := 0, ephemeral := none, burn := none,
    rollback := none }

def Prf.reset : Prf :=
  { uread := false, frozen := false, frzsrc := 0, chain := 0, ovie := 0, cycen := true, en := 0,
    cyc := 0, cnt := Vector.replicate 8 0, sel := Vector.replicate 4 0xF000F000, ovf := 0,
    gather := Vector.replicate 8 0, per := 0 }

def Lnk.reset : Lnk :=
  { ctl := 0xD, crcerr := 0, rxsrc := 0, rxhw := false, txst := 0, stfull := false, syncerr := false, tout := false,
    linkdn := false, linkup := false, valid := false, head := false, refused := false, sampled := false, count := 0, pos := 0,
    staged := [], rxbox := [], hwWait := [], remotes := [], edge := none, refAt := 0, txDest := 0, upq := [], downq := [],
    upTurn := true, downTurn := true, sent := [] }

/-- The node right after the reset of a cold start: power-on reset released, the boot ROM about to run (R98, R104). -/
def State.reset : State :=
  { sys := Sys.reset, eng := Eng.reset, mem := Mem.reset, armed := 0, nrg := Nrg.reset, nrgx := NrgAux.reset,
    drv := Drv.reset, flw := Flw.reset, prs := Prs.reset, tmp := Tmp.reset, rad := Rad.reset, mac := Mac.reset,
    macx := MacAux.reset, sec := Sec.reset, secx := SecAux.reset, prf := Prf.reset, lnk := Lnk.reset, fresh := 0,
    pending := [] }

end Sys2Proof.Machine
end

