-- ==== Sys2Proof/Machine/Ops.lean ====
section
/-!
DEFINITION. The operations that every family shares: a shuttle's registers, the performance counters' counting, events,
issue slots, fetch permission, taking an exception and an interrupt, returning from them, and the fault record.
-/

namespace Sys2Proof.Machine

/-- The outcome of a command. -/
abbrev Out := Host.Outcome State Fault Refusal

/-- The engine and the blocks work: the node is powered and not in ship mode or in the reset hold (R75, R94). -/
def State.powered (s : State) : Bool :=
  s.sys.power == .boot || s.sys.power == .run || s.sys.power == .bootFail

/-- The effect of a command that needs power; without power the occurrence does not come about. -/
def whenPowered (s : State) (f : State → State) : Out :=
  if s.powered then .next (f s) else .next s

/-- The effect of a command whose condition holds; otherwise the occurrence does not come about. -/
def whenever (s : State) (c : Bool) (f : State → State) : Out :=
  if s.powered && c then .next (f s) else .next s

/-- Local time at the instant of the latest command (R347, R350): 0 before counting begins (R368). -/
def State.local (s : State) : BitVec 64 :=
  if s.tmp.counting then s.tmp.now + BitVec.ofNat 64 s.tmp.phase else 0

/-! ## A shuttle's own state (R110) -/

def State.sh (s : State) (i : Fin 4) : Shuttle := s.eng.sh.get i

def State.setSh (s : State) (i : Fin 4) (x : Shuttle) : State :=
  { s with eng := { s.eng with sh := s.eng.sh.set i x } }

def State.modSh (s : State) (i : Fin 4) (f : Shuttle → Shuttle) : State := s.setSh i (f (s.sh i))

/-- Read of a register: w0 reads 0 (R110). -/
def Shuttle.rd (x : Shuttle) (r : Fin 16) : Word := if r = 0 then 0 else x.w.get r

/-- Write of a register: a write to w0 is discarded (R110). -/
def Shuttle.wr (x : Shuttle) (r : Fin 16) (v : Word) : Shuttle :=
  if r = 0 then x else { x with w := x.w.set r v }

def State.reg (s : State) (i : Fin 4) (r : Fin 16) : Word := (s.sh i).rd r

def State.setReg (s : State) (i : Fin 4) (r : Fin 16) (v : Word) : State := s.modSh i fun x => x.wr r v

/-- All four shuttles changed alike. -/
def State.allSh (s : State) (f : Shuttle → Shuttle) : State :=
  { s with eng := { s.eng with
      sh := #v[f (s.eng.sh.get 0), f (s.eng.sh.get 1), f (s.eng.sh.get 2), f (s.eng.sh.get 3)] } }

/-! ## Performance counters: counting (R490 to R501) -/

/-- The 16-bit select of counter `n` (PRF_SEL). -/
def Prf.selOf (p : Prf) (n : Fin 8) : Nat :=
  fld (p.sel.get ⟨n.val / 2, by omega⟩) (16 * (n.val % 2)) 16

/-- The island that holds an event code: `none` is the core (R495). -/
def gatherOf (ev : Nat) : Option GatherIsland :=
  if 0x20 ≤ ev ∧ ev < 0x30 then some .radio
  else if 0x30 ≤ ev ∧ ev < 0x40 then some .dmi
  else if 0x40 ≤ ev then some .aon
  else none

/-- Counter `n` counts now: EN, not frozen, and not the odd half of a chained pair (R491, R498). -/
def Prf.counting (p : Prf) (n : Fin 8) : Bool :=
  !p.frozen && p.en.getLsbD n && !(n.val % 2 == 1 && p.chain.getLsbD (n.val / 2))

/-- How a change is counted (R491): an occurrence, the entry into a condition, cycles in which a condition holds. -/
inductive Counted where
  | occ | entry | cycles
  deriving DecidableEq, Repr

/-- Event bit `e` pends, in ENG_EVPEND and in every wait latch (R143). -/
def State.pendEvent (s : State) (e : Nat) : State :=
  let b : BitVec 16 := BitVec.ofNat 16 (1 <<< e)
  let s := s.allSh fun x => { x with wpend := x.wpend ||| b }
  { s with eng := { s.eng with evpend := s.eng.evpend ||| b, same := { s.eng.same with ev := s.eng.same.ev ||| b } } }

/-- OVF bits set in the core cycle under way are noted, so that a clearing in that cycle leaves them set (R15). -/
def State.sameOvf (s : State) (b : BitVec 9) : State :=
  { s with eng := { s.eng with same := { s.eng.same with ovf := s.eng.same.ovf ||| b } } }

/-- A new core cycle, or an access that is no instruction of a shuttle: nothing has occurred in its cycle yet (R15, R146). -/
def State.newCycle (s : State) : State := { s with eng := { s.eng with same := { ev := 0, ovf := 0, ecc := 0 } } }

/-- The counters freeze (R499). -/
def State.freeze (s : State) : State := { s with prf := { s.prf with frozen := true } }

/-- OVF bit `n` sets: PERF pends if OVIE lets it, and FRZSRC 3 freezes (R499, R501). -/
def State.overflow (s : State) (n : Fin 8) : State :=
  let was := s.prf.ovf.getLsbD n
  let s := { s with prf := { s.prf with ovf := s.prf.ovf ||| BitVec.ofNat 9 (1 <<< n.val) } }
  let s := s.sameOvf (BitVec.ofNat 9 (1 <<< n.val))
  let s := if s.prf.ovie.getLsbD n then s.pendEvent 13 else s
  if s.prf.frzsrc = 3 ∧ !was then s.freeze else s

/-- Counter `n` advances by `k`; a wrap overflows it, or carries into the odd counter of a chained pair (R498, R501). -/
def State.addCount (s : State) (n : Fin 8) (k : Nat) : State :=
  let v := (s.prf.cnt.get n).toNat + k
  let s := { s with prf := { s.prf with cnt := s.prf.cnt.set n (BitVec.ofNat 32 v) } }
  if v < 2 ^ 32 then s
  else if h : n.val % 2 = 0 ∧ s.prf.chain.getLsbD (n.val / 2) then
    let o : Fin 8 := ⟨n.val + 1, by omega⟩
    let c : Nat := (s.prf.cnt.get o).toNat + v / 2 ^ 32
    let s := { s with prf := { s.prf with cnt := s.prf.cnt.set o (BitVec.ofNat 32 c) } }
    if c < 2 ^ 32 then s else s.overflow o
  else s.overflow n

/-- Counter `n` receives its island's gathered count (R496). -/
def State.transfer (s : State) (n : Fin 8) : State :=
  let g := s.prf.gather.get n
  let s := { s with prf := { s.prf with gather := s.prf.gather.set n 0 } }
  if g = 0 then s else s.addCount n g

/-- Counter `n` counts this: its select, its shuttle mask and privilege filter, and its edge or level mode (R491, R492). -/
def State.hits (s : State) (ev : Nat) (sh : Option (Fin 4)) (m : Counted) (n : Fin 8) : Bool :=
  let sel := s.prf.selOf n
  s.prf.counting n && sel % 256 == ev &&
    (match sh with
     | none => true
     | some i => (sel >>> 12).testBit i.val &&
        (let p := (sel >>> 10) % 4
         p == 0 || (p == 1 && !(s.sh i).prv) || (p == 2 && (s.sh i).prv))) &&
    (match m with
     | .occ => true
     | .entry => !sel.testBit 9
     | .cycles => sel.testBit 9)

/-- One counter's share of an occurrence: at once for a core event, in the gather register for the others (R496). -/
def State.countIn (s : State) (ev k : Nat) (n : Fin 8) : State :=
  match gatherOf ev with
  | none => s.addCount n k
  | some _ =>
    let g := s.prf.gather.get n + k
    let s := { s with prf := { s.prf with gather := s.prf.gather.set n g } }
    if g < 0x8000 then s else s.transfer n

/-- Event `ev` of the catalogue is counted `k` times (R491, R495). -/
def State.count (s : State) (ev : Nat) (sh : Option (Fin 4)) (m : Counted) (k : Nat) : State :=
  (upTo 8).foldl (fun s n => if s.hits ev sh m n then s.countIn ev k n else s) s

/-- An occurrence of event `ev` that belongs to no shuttle. -/
def State.occur (s : State) (ev : Nat) : State := s.count ev none .occ 1

/-- A condition that held before (`a`) and holds after (`b`): its entry is counted (R491). -/
def State.entered (s : State) (ev : Nat) (sh : Option (Fin 4)) (a b : Bool) : State :=
  if !a && b then s.count ev sh .entry 1 else s

/-! ## Events (R142, R143) -/

/-- An occurrence of event `e`: it pends, and it freezes the counters if FRZSRC names it (R499). -/
def State.event (s : State) (e : Nat) : State :=
  let s := s.pendEvent e
  if (s.prf.frzsrc = 1 ∧ e = 0) ∨ (s.prf.frzsrc = 2 ∧ e = 11) then s.freeze else s

/-! ## The memory map as the engine sees it (R149, R190) -/

def inRom (a : Nat) : Bool := a < 0x8000
def inMram (a : Nat) : Bool := 0x08000000 ≤ a && a < 0x08200000
def inSram (a : Nat) : Bool := 0x20000000 ≤ a && a < 0x20030000

/-! ## The fault record (R208, R209) -/

def initCode : Initiator → Nat
  | .shuttle s => s.val
  | .debug => 4
  | .chain => 5

/-- An error response is recorded: INIT code, write flag, cause and address (R209). -/
def State.record (s : State) (init : Nat) (write : Bool) (cause : Nat) (addr : Word) : State :=
  let s := { s with sys := { s.sys with
    faultOvr := s.sys.faultOvr || s.sys.faultValid, faultValid := true, faultWrite := write,
    faultInit := BitVec.ofNat 3 init, faultCause := BitVec.ofNat 4 cause, faultAddr := addr } }
  s.occur 0x13

/-! ## The issue table (R117 to R120) -/

/-- Shuttle `i` can issue in core cycle `c` (R118). -/
def State.canIssue (s : State) (i : Fin 4) (c : Nat) : Bool :=
  (s.sh i).en && (s.sh i).run == .ready && decide ((s.sh i).freeAt ≤ c)

/-- In cycle `c` the round has begun at or after cycle `a`, so what was written by then is in force (R117). -/
def inForce (a c : Nat) : Bool := decide (a ≤ c / 16 * 16)

/-- The issue table in force in cycle `c` (R117). -/
def Eng.table (e : Eng) (c : Nat) : Word := if inForce e.issueAt c then e.issueReq else e.issueAct

/-- FIXED and RECEIVE of shuttle `i` in force in cycle `c` (R117). -/
def State.fixed (s : State) (i : Fin 4) (c : Nat) : Bool :=
  if inForce s.eng.flagAt c then (s.sh i).fixedReq else (s.sh i).fixedAct

def State.recv (s : State) (i : Fin 4) (c : Nat) : Bool :=
  if inForce s.eng.flagAt c then (s.sh i).recvReq else (s.sh i).recvAct

/-- The owner of the slot of cycle `c` (R117). -/
def State.owner (s : State) (c : Nat) : Fin 4 := ⟨fld (s.eng.table c) (2 * (c % 16)) 2, by
  unfold fld; exact Nat.mod_lt _ (by decide)⟩

/-- The shuttle to which R118 gives the slot of cycle `c`. -/
def State.slotOf (s : State) (c : Nat) : Option (Fin 4) :=
  let o := s.owner c
  if s.canIssue o c then some o
  else if (s.sh o).en && s.fixed o c then none
  else (upTo 4).find? fun i => s.recv i c && s.canIssue i c

/-- The engine runs: powered, not stopped at a last act's deadline, clock running (R93, R123). -/
def State.coreRuns (s : State) : Bool := s.powered && !s.sys.coreStopped && !s.eng.stopped

/-- The next cycle whose slot R118 gives to shuttle `i`, if one comes within two rounds of the table. -/
def State.nextSlot (s : State) (i : Fin 4) : Option Nat :=
  let base := max s.eng.cyc (s.sh i).freeAt
  ((List.range 32).find? fun k => s.slotOf (base + k) == some i).map fun k => base + k

/-- A shuttle's store waits for a write-buffer entry (R163). -/
def Shuttle.stalled (x : Shuttle) : Bool :=
  match x.busyOn with
  | some (.mramStore ..) => true
  | _ => false

/-- A shuttle is in flight on a crossing (R124, R128). -/
def Shuttle.crossing (x : Shuttle) : Bool :=
  match x.busyOn with
  | some (.drv ..) | some (.remoteLoad _) | some .remoteStore => true
  | _ => false

/-- `k` core cycles pass: the cycle counter and the level counts of the shuttles' conditions (R490, R491). -/
def State.coreTick (s : State) (k : Nat) : State :=
  let s := ({ s with eng := { s.eng with cyc := s.eng.cyc + k } } : State).newCycle
  let s :=
    if s.prf.cycen && !s.prf.frozen then
      let v := s.prf.cyc.toNat + k
      let s := { s with prf := { s.prf with cyc := BitVec.ofNat 64 v } }
      if v < 2 ^ 64 then s else ({ s with prf := { s.prf with ovf := s.prf.ovf ||| 0x100#9 } } : State).sameOvf 0x100#9
    else s
  (upTo 4).foldl (fun s i =>
    let x := s.sh i
    let s := if x.run == .busy then s.count 0x05 (some i) .cycles k else s
    let s := if x.run == .wait then s.count 0x06 (some i) .cycles k else s
    let s := if x.crossing then s.count 0x0C (some i) .cycles k else s
    if x.stalled then s.count 0x10 (some i) .cycles k else s) s

/-- Cycles without an issue (R118 rule 4, event IDLE). -/
def State.idleTick (s : State) (k : Nat) : State :=
  if k = 0 then s else (s.coreTick k).count 0x02 none .occ k

/-- Shuttle `i` issues in its next slot: the cycles before it pass, and the slot is counted (R117, R118, R495). `none`: no
slot comes, so the instruction is not issued. -/
def State.issue (s : State) (i : Fin 4) : Option State :=
  if s.coreRuns then
    match s.nextSlot i with
    | none => none
    | some c =>
      let o := s.owner c
      let s := (s.idleTick (c - s.eng.cyc)).coreTick 1
      let s := s.count 0x01 (some i) .occ 1
      if o = i then some s
      else some ((s.count 0x03 (some o) .occ 1).count 0x04 (some i) .occ 1)
  else none

/-! ## Exceptions, interrupts and return (R134 to R141) -/

/-- The core requests XO32M while its clock runs with SRC XO (R123). -/
def State.coreWantsXo (s : State) : Bool := s.coreRuns && s.sys.src == 2

/-- XT32 runs, for the core clock and the FLL (R538). -/
def State.xt32Runs (s : State) : Bool := s.tmp.counting && !s.tmp.xtfail

/-- The source the core falls back to: FLL, or FREE while XT32 does not run (R122). -/
def State.fallSrc (s : State) : BitVec 2 := if s.xt32Runs then 1 else 0

/-- A clock source is ready (R121). -/
def State.srcReady (s : State) (src : BitVec 2) : Bool :=
  src == 0 || (src == 1 && s.xt32Runs) || (src == 2 && s.sys.xoRun)

/-- The core loses its source: it falls back and FALLBACK sets (R122, R538). -/
def State.coreFall (s : State) : State :=
  { s with sys := { s.sys with curSrc := s.fallSrc, fallback := true } }

/-- A core that runs on XO leaves it as XO32M stops: to the source it has requested, if that is ready, and else it falls back
(R121, R122). -/
def State.leaveXo (s : State) : State :=
  if s.sys.curSrc = 2 && !s.eng.stopped then
    if s.srcReady s.sys.src then { s with sys := { s.sys with curSrc := s.sys.src } } else s.coreFall
  else s

/-- XO32M stops when no island runs and the core does not request it (R122, R123, R127). -/
def State.xoRest (s : State) : State :=
  if s.sys.runDmi || s.sys.runRad || s.coreWantsXo || !s.sys.xoRun then s
  else ({ s with sys := { s.sys with xoRun := false } } : State).leaveXo

/-- A shuttle other than READY, BUSY or DEBUG: it waits, is halted or faulted, or is not enabled and has nothing in flight. -/
def Shuttle.rests (x : Shuttle) : Bool :=
  (!x.en && x.run != .busy) || x.run == .wait || x.run == .halted || x.run == .faulted

/-- The core clock stops when every enabled shuttle waits, is halted or faulted, unless a commit keeps it running
(R123, R222); a stopped core does not keep XO32M running. -/
def State.checkStop (s : State) : State :=
  if ((upTo 4).all fun i => (s.sh i).rests) && s.mem.busy.isNone then
    ({ s with eng := { s.eng with stopped := true } } : State).xoRest
  else s

/-- Two slots more for the first fetch from MRAM after a change of flow (R150). -/
def flowCost (target : Word) : Nat := if inMram target.toNat then 2 else 0

/-- The entry of shuttle `i` at this offset (R137, R138, R114). -/
def State.entry (s : State) (i : Fin 4) (off : Nat) : Word :=
  s.eng.vecbase + BitVec.ofNat 32 (0x100 * i.val + off)

/-- The shuttle starts at its start entry (R114), after whatever it had in flight (R115, R119). -/
def State.begin (s : State) (i : Fin 4) : State :=
  let t := s.entry i 0xC0
  s.modSh i fun x => { x with
    pc := t, flow := true, run := .ready, busyOn := none, restart := false, prv := x.priv, ie := false, pie := false,
    inexc := false, freeAt := max s.eng.cyc x.freeAt + flowCost t }

/-- An instruction that was in flight has ended: a start that waited for it follows, and a shuttle that has been disabled
meanwhile stops (R115). -/
def State.restarted (s : State) (i : Fin 4) : State :=
  if (s.sh i).restart then s.begin i
  else if (s.sh i).en then s
  else (s.modSh i fun x => { x with run := .disabled }).checkStop

/-- Shuttle `i`, whose own state was `x`, has ended what it was doing: an instruction in flight, if it was BUSY (R115). -/
def State.ended (s : State) (i : Fin 4) (x : Shuttle) : State := if x.run == .busy then s.restarted i else s

/-- Exception entry (R137), or the double fault (R140) when INEXC is already 1. -/
def State.raise (s : State) (i : Fin 4) (cause addr : Word) : State :=
  let x := s.sh i
  if x.inexc then
    ((s.setSh i { x with epc := x.pc, cause := cause, addr := addr, run := .faulted, busyOn := none }).ended i x).checkStop
  else
    let t := s.entry i 0
    ((s.setSh i { x with
      epc := x.pc, cause := cause, addr := addr, pie := x.ie, ie := false, pprv := x.prv, prv := false,
      inexc := true, pc := t, flow := true, run := .ready, busyOn := none,
      freeAt := s.eng.cyc + flowCost t }).ended i x).count 0x0A (some i) .occ 1

/-- The instruction in flight ends at the next word (R115, R119). -/
def State.land (s : State) (i : Fin 4) : State :=
  (s.modSh i fun x => { x with busyOn := none, run := .ready, pc := x.pc + 4, freeAt := s.eng.cyc }).restarted i

/-- The events that may interrupt shuttle `i` now (R145). -/
def State.irqs (s : State) (i : Fin 4) : List Nat :=
  (List.range 16).filter fun e =>
    s.eng.evpend.getLsbD e && fld s.eng.evroute (2 * e) 2 == i.val && (s.sh i).ien.getLsbD e

/-- The interrupt condition of R145: the lowest event that meets it. -/
def State.irq (s : State) (i : Fin 4) : Option Nat :=
  let x := s.sh i
  if x.en && x.ie && (x.run == .ready || x.run == .wait) then (s.irqs i).head? else none

/-- Interrupt entry (R138): c.epc is the PC of the next instruction, or of the WAIT. -/
def State.interrupt (s : State) (i : Fin 4) (e : Nat) : State :=
  let x := s.sh i
  let t := s.entry i 0x80
  (s.setSh i { x with
    epc := x.pc, cause := BitVec.ofNat 32 (0x40 + e), addr := 0, pie := x.ie, ie := false, pprv := x.prv,
    prv := false, pc := t, flow := true, run := .ready,
    freeAt := max s.eng.cyc x.freeAt + flowCost t }).count 0x0B (some i) .occ 1

/-- The instruction of `cost` slots that issued in the cycle before `s.eng.cyc` ends at the next word (R119). -/
def State.advance (s : State) (i : Fin 4) (cost : Nat) : State :=
  let s := s.modSh i fun x => { x with pc := x.pc + 4, freeAt := s.eng.cyc + (cost - 1) }
  if cost ≤ 1 then s
  else (s.count 0x05 (some i) .entry 1).count 0x05 (some i) .cycles (cost - 1)

/-- A change of flow to `t` (R150). -/
def State.jump (s : State) (i : Fin 4) (t : Word) (cost : Nat) : State :=
  s.modSh i fun x => { x with pc := t, flow := true, freeAt := s.eng.cyc + (cost - 1) + flowCost t }

/-- Return from exception or interrupt (R139, R171). -/
def State.eret (s : State) (i : Fin 4) : State :=
  let s := s.modSh i fun x => { x with ie := x.pie, prv := x.pprv, inexc := false }
  s.jump i (s.sh i).epc 1

/-! ## Privilege and the MPU (R129 to R132) -/

/-- What an access needs of the MPU. -/
inductive Perm where
  | r | w | x
  deriving DecidableEq, Repr

/-- One region word grants the permission for the address (R132). -/
def regionGrants (m : Word) (a : Nat) (p : Perm) : Bool :=
  let base := fld m 12 20 * 4096
  bit m 3 && decide (base ≤ a) && decide (a < base + 2 ^ (fld m 7 5 + 12)) &&
    (match p with
     | .r => bit m 0
     | .w => bit m 1
     | .x => bit m 2)

/-- The MPU lets shuttle `i` make this access (R131, R132). -/
def State.mpuOk (s : State) (i : Fin 4) (a : Nat) (p : Perm) : Bool :=
  !(s.sh i).prv || !bit s.eng.mpuctl (4 + i.val) ||
    (upTo 8).any fun r => regionGrants ((s.eng.mpu.get i).get r) a p

end Sys2Proof.Machine
end

