-- ==== Sys2Proof/Machine/MemOps.lean ====
section
/-!
DEFINITION. Memory: the bytes of SRAM, MRAM and OTP in one canonical list, error correction, the write buffer, write
protection, the persistent banks and castling's armed bits (06).
-/

namespace Sys2Proof.Machine

/-! ## Bytes -/

/-- What an unlisted address reads as: SRAM after the boot ROM's clearing and unprogrammed OTP read 0 (R193, 15); an
MRAM byte that nothing has written is 0 by DESIGN CHOICE (log 3). -/
def unlisted : Byte := 0

/-- The byte at address `a` of a list of cells. -/
def cellAt : List Host.Cell → Nat → Byte
  | [], _ => unlisted
  | (x, b) :: r, a => if x = a then b else if a < x then unlisted else cellAt r a

/-- Writing a byte keeps the list's canonical form: addresses rising, nothing equal to what is unlisted. -/
def putCell : List Host.Cell → Nat → Byte → List Host.Cell
  | [], a, b => if b = unlisted then [] else [(a, b)]
  | (x, c) :: r, a, b =>
    if a < x then (if b = unlisted then (x, c) :: r else (a, b) :: (x, c) :: r)
    else if a = x then (if b = unlisted then r else (a, b) :: r)
    else (x, c) :: putCell r a b

/-- The canonical form: every entry's address lies above the bound, addresses rise, no entry is what is unlisted. -/
def cellsFrom : Nat → List Host.Cell → Bool
  | _, [] => true
  | lo, (x, b) :: r => decide (lo ≤ x) && b != unlisted && cellsFrom (x + 1) r

/-- The canonical form of memory. -/
def Memory.wf (m : Mem) : Bool := cellsFrom 0 m.cells

def State.byte (s : State) (a : Nat) : Byte :=
  if inRom a then Config.romByte a else cellAt s.mem.cells a

/-- `n` bytes from `a` upward, little-endian (R6). -/
def State.bytes (s : State) (a : Nat) : Nat → Nat
  | 0 => 0
  | n + 1 => (s.byte a).toNat + 256 * s.bytes (a + 1) n

/-- The list of `n` bytes from `a` upward. -/
def State.byteList (s : State) (a n : Nat) : List Byte := (List.range n).map fun k => s.byte (a + k)

def State.setCells (s : State) (c : List Host.Cell) : State := { s with mem := { s.mem with cells := c } }

/-- The bytes of `data` whose mask bit is set go to `a` .. `a + 7`. -/
def putMasked (c : List Host.Cell) (a : Nat) (data : DWord) (mask : BitVec 8) : List Host.Cell :=
  (List.range 8).foldl (fun c k =>
    if mask.getLsbD k then putCell c (a + k) (BitVec.ofNat 8 (data.toNat >>> (8 * k))) else c) c

/-- `n` bytes of `v`, little-endian, at `a`. -/
def State.poke (s : State) (a n v : Nat) : State :=
  s.setCells ((List.range n).foldl (fun c k => putCell c (a + k) (BitVec.ofNat 8 (v >>> (8 * k)))) s.mem.cells)

/-- A list of bytes at `a`. -/
def State.pokeList (s : State) (a : Nat) (l : List Byte) : State :=
  s.setCells ((l.zipIdx).foldl (fun c p => putCell c (a + p.2) p.1) s.mem.cells)

/-- A 32-bit word of memory. -/
def State.word (s : State) (a : Nat) : Word := BitVec.ofNat 32 (s.bytes a 4)

/-! ## Error correction (R199 to R205) -/

/-- The number of bits in error of the 64-bit word at `w`: 0, 1, 2, or 3 for poison. -/
def Mem.eccOf (m : Mem) (w : Nat) : Nat := ((m.ecc.find? fun p => p.1 == w).map Prod.snd).getD 0

/-- The word's error class becomes `c`. -/
def Mem.setEcc (m : Mem) (w c : Nat) : Mem :=
  let rest := m.ecc.filter fun p => p.1 != w
  { m with ecc := if c = 0 then rest else (w, c) :: rest }

def State.setMem (s : State) (m : Mem) : State := { s with mem := m }

/-- Flags of MEM_ECCSTAT set, and MEMERR pends for the flags that R204 names as they set. -/
def State.eccFlag (s : State) (bits : BitVec 7) (memerr : Bool) : State :=
  let s := s.setMem { s.mem with eccstat := s.mem.eccstat ||| bits }
  let s := { s with eng := { s.eng with same := { s.eng.same with ecc := s.eng.same.ecc ||| bits } } }
  if memerr then s.event 14 else s

/-- MEM_ECCADDR records the word (R199, R201, R202). -/
def State.eccRecord (s : State) (w : Nat) (uncor : Bool) : State :=
  if !uncor && s.mem.eccstat &&& 0x78#7 != 0 then s
  else s.setMem { s.mem with eccAddr := BitVec.ofNat 32 w, uncor := uncor }

/-- A correctable error is counted (R199, R204). -/
def State.eccCount (s : State) (w : Nat) : State :=
  let m := inMram w
  let old := (if m then s.mem.mcnt else s.mem.scnt).toNat
  let v := incSat 0xFFFF old
  let s := s.eccRecord w false
  let s := s.setMem (if m then { s.mem with mcnt := BitVec.ofNat 16 v } else { s.mem with scnt := BitVec.ofNat 16 v })
  let s := s.eccFlag (if m then 0x02 else 0x01) false
  let s := s.occur 0x12
  if s.mem.cthresh ≠ 0 ∧ old + 1 = s.mem.cthresh.toNat then s.eccFlag 0x04 true else s

/-- An uncorrectable word: flag `bits`, address, MEMERR (R201). -/
def State.eccUncor (s : State) (w : Nat) (bits : BitVec 7) : State :=
  (s.eccRecord w true).eccFlag bits true

/-- The write-buffer entry of a word. -/
def Mem.entryOf (m : Mem) (w : Nat) : Option WbEntry := m.wbuf.find? fun e => e.word == w

/-- The whole 64-bit word at `w` as memory holds it. -/
def State.dword (s : State) (w : Nat) : DWord := BitVec.ofNat 64 (s.bytes w 8)

/-- A read of the 64-bit word at `w` meets its check bits (R199 to R201): `false` when it is uncorrectable. `scrub` is the
scrubber's read, which sets SCRUE in place of SUE or MUE. -/
def State.eccRead (s : State) (w : Nat) (scrub : Bool) : State × Bool :=
  match s.mem.eccOf w with
  | 0 => (s, true)
  | 1 =>
    let s := s.eccCount w
    if !inMram w then (s.setMem (s.mem.setEcc w 0), true)
    else if s.mem.cwb && decide (s.mem.wbuf.length < 4) && (s.mem.entryOf w).isNone then
      (s.setMem { s.mem with wbuf := s.mem.wbuf ++
        [{ word := w, data := s.dword w, mask := 0xFF, owners := 0, inj := 0 }] }, true)
    else (s, true)
  | _ => (s.eccUncor w (if scrub then 0x20 else if inMram w then 0x10 else 0x08), false)

/-- Words in ascending order of their addresses. -/
def ascending (l : List Nat) : List Nat :=
  l.foldr (fun a r => r.takeWhile (fun b => decide (b < a)) ++ a :: r.dropWhile fun b => decide (b < a)) []

/-- These words are read in turn, up to the first that is uncorrectable: its address (R199, R201). -/
def State.readWords (s : State) : List Nat → State × Option Nat
  | [] => (s, none)
  | w :: r =>
    match s.eccRead w false with
    | (s, true) => s.readWords r
    | (s, false) => (s, some w)

/-- The words with errors among those that `n` bytes from `a` touch, in ascending order. -/
def State.errorWords (s : State) (a n : Nat) : List Nat :=
  ascending ((s.mem.ecc.filter fun p => decide (0 < n) && decide (a < p.1 + 8) && decide (p.1 < a + n)).map Prod.fst)

/-! ## What fetch buffers still hold (R150, R188) -/

/-- Some shuttle fetches sequentially since before this word was superseded. -/
def State.keepsOld (s : State) (o : OldWord) : Bool :=
  (upTo 4).any fun i => (s.sh i).en && !(s.sh i).flow && decide ((s.sh i).bufAt ≤ o.num)

/-- The MRAM word at `w` is about to be written: it is kept for the fetch buffers that have not seen the write (R188). -/
def State.supersede (s : State) (w : Nat) : State :=
  let o : OldWord := { word := w, data := s.dword w, cls := s.mem.eccOf w, num := s.mem.oldNum }
  if inMram w && s.keepsOld o then
    s.setMem { s.mem with old := s.mem.old.filter s.keepsOld ++ [o], oldNum := s.mem.oldNum + 1 }
  else s

/-- The word at `w` as it was when shuttle `i` last changed its flow, if it has been written since (R188). -/
def State.oldWord (s : State) (i : Fin 4) (w : Nat) : Option OldWord :=
  if (s.sh i).flow then none else s.mem.old.find? fun o => o.word == w && decide ((s.sh i).bufAt ≤ o.num)

/-- A masked write of the 64-bit word at `w` with its check bits (R195, R203, R205): a partial write reads the word first,
an uncorrectable word becomes poison, and an injection inverts 1 or 2 check bits of the word as written. -/
def State.writeWord (s : State) (w : Nat) (data : DWord) (mask : BitVec 8) (inj : Nat) : State :=
  let s := s.supersede w
  let cls := s.mem.eccOf w
  let full := mask == 0xFF
  let s := if !full && cls = 1 then s.eccCount w else s
  let s := s.setCells (putMasked s.mem.cells w data mask)
  if !full && decide (2 ≤ cls) then
    let s := s.setMem (s.mem.setEcc w 3)
    s.eccUncor w 0x40
  else s.setMem (s.mem.setEcc w inj)

/-! ## The write buffer (R194 to R197) -/

/-- Bytes under a mask: the new ones replace the old. -/
def mergeBytes (old new : DWord) (mask : BitVec 8) : DWord :=
  BitVec.ofNat 64 ((List.range 8).foldl (fun v k =>
    let src := if mask.getLsbD k then new else old
    v + ((src.toNat >>> (8 * k)) % 256) <<< (8 * k)) 0)

/-- The check bits that a store waiting for an entry is to invert. -/
def Shuttle.stallInj (x : Shuttle) : Nat :=
  match x.busyOn with
  | some (.mramStore _ _ _ j _) => j
  | _ => 0

/-- The request of MEM_CTL.INJ that the next store to issue takes: no store before it has taken it (R205). -/
def State.injFree (s : State) : Nat :=
  if s.mem.wbuf.any (fun e => e.inj != 0) || (upTo 4).any (fun i => (s.sh i).stallInj != 0) then 0 else s.mem.inj.toNat

/-- A store's entry: merged into the entry of its word, or a new one at the end (R194). -/
def wbPut : List WbEntry → WbEntry → List WbEntry
  | [], e => [e]
  | x :: r, e =>
    if x.word = e.word then
      { x with data := mergeBytes x.data e.data e.mask, mask := x.mask ||| e.mask, owners := x.owners ||| e.owners,
               inj := max x.inj e.inj } :: r
    else x :: wbPut r e

/-- The buffer can take a store to this word. -/
def Mem.wbRoom (m : Mem) (w : Nat) : Bool := m.wbuf.length < 4 || (m.entryOf w).isSome

/-- The oldest entry is written to MRAM (R195). -/
def State.wbWriteOne (s : State) : State :=
  match s.mem.wbuf with
  | [] => s
  | e :: r =>
    let s := s.setMem { s.mem with wbuf := r }
    let s := s.writeWord e.word e.data e.mask e.inj
    let s := if e.inj ≠ 0 then s.setMem { s.mem with inj := 0 } else s
    s.occur 0x11

/-- The mask of `n` bytes at byte `k` of a word. -/
def byteMask (k n : Nat) : BitVec 8 := BitVec.ofNat 8 ((2 ^ n - 1) <<< k)

/-- A store of `n` bytes at `a` to SRAM, or into the write buffer for MRAM (R163, R194); `own` are the shuttles whose
store it is, `inj` the check bits it inverts (R205). The caller has checked that the buffer has room. -/
def State.storeBytes (s : State) (a n : Nat) (v : DWord) (own : BitVec 4) (inj : Nat) : State :=
  let w := a / 8 * 8
  let data : DWord := BitVec.ofNat 64 (v.toNat <<< (8 * (a - w)))
  let mask := byteMask (a - w) n
  if inMram a then
    s.setMem { s.mem with wbuf := wbPut s.mem.wbuf { word := w, data := data, mask := mask, owners := own, inj := inj } }
  else
    let s := s.writeWord w data mask inj
    if inj ≠ 0 then s.setMem { s.mem with inj := 0 } else s

/-! ### Stores that wait for an entry (R163) -/

/-- The core cycle after the issue of a waiting store. -/
def Shuttle.stallAt (x : Shuttle) : Option Nat :=
  match x.busyOn with
  | some (.mramStore _ _ _ _ c) => some c
  | _ => none

/-- The shuttle whose store has waited longest: stores reach memory in issue order (R120, R189). -/
def State.firstStalled (s : State) : Option (Fin 4) :=
  (upTo 4).find? fun i =>
    match (s.sh i).stallAt with
    | none => false
    | some c => (upTo 4).all fun k => match (s.sh k).stallAt with
      | none => true
      | some d => decide (c ≤ d)

/-- The store that has waited longest enters the buffer, if there is room for it. -/
def State.stallOne (s : State) : State :=
  match s.firstStalled with
  | none => s
  | some k =>
    match (s.sh k).busyOn with
    | some (.mramStore a n v j _) =>
      if s.mem.wbRoom (a.toNat / 8 * 8) then (s.storeBytes a.toNat n v (BitVec.ofNat 4 (1 <<< k.val)) j).land k else s
    | _ => s

/-- Waiting stores enter the buffer while there is room. -/
def State.stallLand (s : State) : State := s.stallOne.stallOne.stallOne.stallOne

/-- The buffer drains completely, with the stores that wait for it. -/
def State.wbDrain (s : State) : State :=
  (List.range 8).foldl (fun s _ => s.wbWriteOne.stallLand) s

/-- A load of `n` bytes at `a` from SRAM or MRAM: `none` when the word is uncorrectable (R163, R196, R199, R201). -/
def State.loadBytes (s : State) (a n : Nat) : State × Option DWord :=
  let w := a / 8 * 8
  let cut (d : DWord) : DWord := BitVec.ofNat 64 ((d.toNat >>> (8 * (a - w))) % 2 ^ (8 * n))
  match s.mem.entryOf w with
  | some e =>
    if e.mask == 0xFF then (s, some (cut e.data))
    else
      let (s, ok) := s.eccRead w false
      (s, if ok then some (cut (mergeBytes (s.dword w) e.data e.mask)) else none)
  | none =>
    let (s, ok) := s.eccRead w false
    (s, if ok then some (cut (s.dword w)) else none)

/-! ## Castling (R210 to R215) -/

/-- Domain `d` is armed (bit order of the COMMIT mask). -/
def State.isArmed (s : State) (d : Nat) : Bool := s.armed.getLsbD d

def State.disarm (s : State) (d : Nat) : State :=
  { s with armed := s.armed &&& ~~~(BitVec.ofNat 9 (1 <<< d)) }

/-! ## Write protection and the persistent banks (R198, R216 to R223) -/

def bankBase : Bank → Nat
  | .b => 0x081F8000
  | _ => 0x081F0000

/-- The bank that a commit takes (R219). -/
def inactiveBank : Bank → Bank
  | .a => .b
  | _ => .a

/-- Why a store to MRAM at `a` is refused: its cause, if it is (R198, R217). -/
def State.mramRefuses (s : State) (a : Nat) : Option Nat :=
  if 0x081F0000 ≤ a then
    let bank : Bank := if a < 0x081F8000 then .a else .b
    if 0x7FF8 ≤ a % 0x8000 then some 4
    else if s.mem.act = bank then some 4
    else if bank = inactiveBank s.mem.act ∧ (s.isArmed 8 ∨ s.mem.busy.isSome) then some 5
    else none
  else if s.mem.wprot.getLsbD (a / 0x40000 % 8) then some 4
  else none

/-- One bit step of a reflected CRC (R186). -/
def crcBit (poly c : Nat) : Nat := if c % 2 = 1 then (c / 2) ^^^ poly else c / 2

/-- One byte of a reflected CRC (R186). -/
def crcByte (poly c b : Nat) : Nat :=
  crcBit poly (crcBit poly (crcBit poly (crcBit poly (crcBit poly (crcBit poly (crcBit poly
    (crcBit poly (c ^^^ b))))))))

/-- The CRC-32 of `n` bytes from `a` in ascending order, started at `c`. -/
def State.crcOver (s : State) (a : Nat) : Nat → Nat → Nat
  | 0, c => c
  | n + 1, c => s.crcOver (a + 1) n (crcByte 0xEDB88320 c (s.byte a).toNat)

/-- Some word of `lo` .. `lo + n - 1` is uncorrectable. -/
def State.badWord (s : State) (lo n : Nat) : Bool :=
  s.mem.ecc.any fun p => decide (lo ≤ p.1) && decide (p.1 < lo + n) && decide (2 ≤ p.2)

/-- SEQ of a bank's header. -/
def State.bankSeq (s : State) (bk : Bank) : Nat := s.bytes (bankBase bk + 0x7FF8) 4

/-- The bank's header and payload are valid (R218). Its CRC covers bytes 0x0000 to 0x7FF7. -/
def State.bankValid (s : State) (bk : Bank) : Bool :=
  let q := s.bankSeq bk
  decide (1 ≤ q) && decide (q ≤ 0x7FFFFFFE) && !s.badWord (bankBase bk) 0x8000 &&
    s.bytes (bankBase bk + 0x7FFC) 4 == s.crcOver (bankBase bk) 0x7FF8 0xFFFFFFFF ^^^ 0xFFFFFFFF

/-- The reads of a bank's words count their correctable errors and record their uncorrectable ones (R199, R201). -/
def State.readBank (s : State) (bk : Bank) : State :=
  let words := ascending
    ((s.mem.ecc.filter fun p => decide (bankBase bk ≤ p.1) && decide (p.1 < bankBase bk + 0x8000)).map Prod.fst)
  words.foldl (fun s w => (s.eccRead w false).1) s

/-- Selection of the active bank at every reset (R218). -/
def State.selectBank (s : State) : State :=
  let va := s.bankValid .a
  let vb := s.bankValid .b
  let act : Bank :=
    if va && vb then (if s.bankSeq .a < s.bankSeq .b then .b else .a)
    else if va then .a else if vb then .b else .none
  let s := (s.readBank .a).readBank .b
  s.setMem { s.mem with act := act }

/-- SEQ of the active bank, 0 with none (MEM_PCOMMIT). -/
def State.activeSeq (s : State) : Nat :=
  match s.mem.act with
  | .none => 0
  | bk => s.bankSeq bk

/-- The cause of a refused MEM_PCOMMIT write, 0 if it is accepted (R220). -/
def State.pcommitCheck (s : State) (seq : Nat) : Nat :=
  if s.isArmed 8 ∨ s.mem.busy.isSome then 5
  else if seq = 0 ∨ 0x7FFFFFFE < seq then 3
  else if s.mem.act ≠ .none ∧ seq ≤ s.activeSeq then 3
  else 0

/-- A commit starts with this SEQ: the buffer drains, BUSY sets and the core clock runs (R222 step 1). -/
def State.commitStart (s : State) (seq : BitVec 31) : State :=
  let s := s.wbDrain
  let s := s.setMem { s.mem with busy := some seq, pendDue := false }
  { s with eng := { s.eng with stopped := false } }

/-- An accepted write of MEM_PCOMMIT (R220). -/
def State.pcommit (s : State) (arm : Bool) (seq : BitVec 31) : State :=
  if arm then s.setMem { s.mem with pendSeq := some seq, pendDue := false }
  else (s.setMem { s.mem with pendSeq := none }).commitStart seq

/-- The boundary of domain PERSIST (R221). -/
def State.persistBoundary (s : State) : State :=
  if s.isArmed 8 then
    let s := s.disarm 8
    match s.mem.pendSeq with
    | none => s.setMem { s.mem with noseq := true }
    | some q => 
      if s.mem.busy.isSome then s.setMem { s.mem with pendDue := true }
      else (s.setMem { s.mem with pendSeq := none }).commitStart q
  else s

/-- What a finished commit leaves after the bank is read: FAIL and event 14 where a word of it was uncorrectable, else the header
with `seq` and the CRC, the bank active and DONE (R222). -/
def State.commitHeader (s : State) (bk : Bank) (bad : Bool) (seq : BitVec 31) : State :=
  if bad then (s.setMem { s.mem with fail := true, busy := none }).event 14
  else
    let header := bankBase bk + 0x7FF8
    let crc := s.crcOver (bankBase bk) 0x7FF8 0xFFFFFFFF ^^^ 0xFFFFFFFF
    let s := s.poke header 8 (seq.toNat + crc <<< 32)
    let s := s.setMem (s.mem.setEcc header 0)
    s.setMem { s.mem with act := bk, done := true, busy := none }

/-- After a commit: an armed one whose boundary has passed starts, else the core may stop (R123, R221). -/
def State.commitNext (s : State) : State :=
  match s.mem.pendSeq with
  | some q => if s.mem.pendDue then (s.setMem { s.mem with pendSeq := none }).commitStart q else s.checkStop
  | none => s.checkStop

/-- A running commit ends (R222 steps 2 to 5); a SEQ that a boundary left pending while it ran starts its own (R221). -/
def State.commitEnd (s : State) (seq : BitVec 31) : State :=
  let bk := inactiveBank s.mem.act
  let bad := s.badWord (bankBase bk) 0x7FF8
  ((s.readBank bk).commitHeader bk bad seq).commitNext

end Sys2Proof.Machine
end

