-- ==== Sys2Proof/Machine/DrvOps.lean ====
section
/-!
DEFINITION. The valve drive's operations: profiles, valve states, admission against the close reserve, results, pulses,
queues, the thermal model and the interlock (07, 08, R79 to R88).
-/

namespace Sys2Proof.Machine

/-! ## Profile records (07) -/

def Profile.valid (p : Profile) : Bool := bit (p.get 0) 31
/-- DIR: true closes. -/
def Profile.closes (p : Profile) : Bool := bit (p.get 0) 30
def Profile.omBoost (p : Profile) : Nat := fld (p.get 0) 24 2
def Profile.omPeak (p : Profile) : Nat := fld (p.get 0) 22 2
def Profile.omHold (p : Profile) : Nat := fld (p.get 0) 20 2
def Profile.omEnd (p : Profile) : Nat := fld (p.get 0) 18 2
def Profile.notchEn (p : Profile) : Bool := bit (p.get 0) 17
/-- The notch depth, mA. -/
def Profile.notchMa (p : Profile) : Nat := 5 * (fld (p.get 0) 13 4 + 1)
def Profile.tsw (p : Profile) : Nat := fld (p.get 0) 4 8
def Profile.iPeak (p : Profile) : Nat := fld (p.get 1) 16 16
def Profile.iHold (p : Profile) : Nat := fld (p.get 1) 0 16
def Profile.tBoostMax (p : Profile) : Nat := fld (p.get 2) 16 16
def Profile.tPeak (p : Profile) : Nat := fld (p.get 2) 0 16
def Profile.tHold (p : Profile) : Nat := fld (p.get 3) 16 16
def Profile.winHi (p : Profile) : Nat := fld (p.get 4) 16 16
def Profile.winLo (p : Profile) : Nat := fld (p.get 4) 0 16
def Profile.eBudget (p : Profile) : Nat := (p.get 5).toNat

def offMode (n : Nat) : OffMode := if n = 0 then .slow else if n = 1 then .fast else .clamp

/-- Pulse time t_p of R79, 10 us units; a T_HOLD of 0xFFFF counts as zero. -/
def Profile.tp (p : Profile) : Nat :=
  p.tBoostMax + p.tPeak + (if p.tHold = 0xFFFF then 0 else p.tHold * 100)

/-! ## Valves and treadles -/

def treadleOf (v : Fin 24) : Fin 3 := ⟨v.val / 8, by omega⟩

def Drv.paired (d : Drv) (v : Fin 24) : Bool := d.pair.getLsbD (v.val / 2)

/-- A paired output acts under its even index (R237, R252). -/
def Drv.even (d : Drv) (v : Fin 24) : Fin 24 :=
  if d.paired v then ⟨v.val - v.val % 2, by omega⟩ else v

def Drv.held (d : Drv) (t : Fin 3) : Bool := bit (d.trdcfg.get t) 16

def Drv.imax (d : Drv) (t : Fin 3) : Nat := fld (d.trdcfg.get t) 0 12

/-- A valve's state; a NOTFIT valve reads CLOSED (R226), and both halves of a pair read the even entry's state (R252). -/
def Drv.vs (d : Drv) (v : Fin 24) : VState :=
  if (d.valves.get (d.even v)).notfit then .closed else d.vstate.get (d.even v)

def Drv.setVs (d : Drv) (v : Fin 24) (x : VState) : Drv :=
  let e := d.even v
  let d1 := { d with vstate := d.vstate.set e x }
  if d.paired v then
    { d1 with vstate := d1.vstate.set ((e.val + 1) % 24) x (Nat.mod_lt _ (by decide)) }
  else d1

def Drv.modValve (d : Drv) (v : Fin 24) (f : ValveEntry → ValveEntry) : Drv :=
  { d with valves := d.valves.set v (f (d.valves.get v)) }

def Drv.modTrd (d : Drv) (t : Fin 3) (f : Treadle → Treadle) : Drv :=
  { d with trd := d.trd.set t (f (d.trd.get t)) }

/-- A gating valve that does not read CLOSED ends the zero condition of its line (R309). -/
def FlowLine.watch (l : FlowLine) (d : Drv) : FlowLine :=
  if l.zcond && (upTo 24).any (fun v => l.cfg4.getLsbD v.val && d.vs v != .closed) then { l with zcond := false } else l

/-- The drive changes; the lines watch their gating valves (R309). -/
def State.modDrv (s : State) (f : Drv → Drv) : State :=
  let d := f s.drv
  { s with drv := d, flw := { s.flw with line := s.flw.line.map fun l => l.watch d } }

/-- The running pulse of a valve. -/
def Drv.pulseOf (d : Drv) (v : Fin 24) : Option Pulse := (d.trd.get (treadleOf v)).runs.find? fun p => p.valve = v

def Drv.modPulse (d : Drv) (v : Fin 24) (f : Pulse → Pulse) : Drv :=
  d.modTrd (treadleOf v) fun t => { t with runs := t.runs.map fun p => if p.valve = v then f p else p }

/-- Every running pulse of the node. -/
def Drv.allRuns (d : Drv) : List Pulse := (d.trd.get 0).runs ++ (d.trd.get 1).runs ++ (d.trd.get 2).runs

/-- Every queued command. -/
def Drv.allQueued (d : Drv) : List QEntry := (d.trd.get 0).queue ++ (d.trd.get 1).queue ++ (d.trd.get 2).queue

/-- The valve has a running pulse or a queued command (R251, R253). -/
def Drv.engaged (d : Drv) (v : Fin 24) : Bool :=
  (d.pulseOf (d.even v)).isSome || (d.trd.get (treadleOf v)).queue.any fun e => e.valve = d.even v

/-- The queue entries that a treadle's commands hold; the retry of R86 waits without one, DESIGN CHOICE (log 70): a running
pulse holds no entry, and its retry takes none. -/
def Treadle.entries (t : Treadle) : List QEntry := t.queue.filter fun e => !e.retry

/-- Every valve CLOSED and every queue empty (R73, R75). -/
def Drv.quiet (d : Drv) : Bool :=
  (upTo 24).all (fun v => d.vs v == .closed) && d.allQueued.isEmpty

/-- The profile is valid for this valve (R235). -/
def Drv.profOk (d : Drv) (p : Profile) (v : Fin 24) : Bool :=
  let t := treadleOf v
  p.valid && p.eBudget != 0 && decide (p.iPeak ≤ (if d.paired v then 4000 else 2000)) &&
    decide (p.iPeak ≤ d.imax t) && decide (p.iHold ≤ p.iPeak) && decide (1 ≤ p.tBoostMax) &&
    (p.tsw == 0 || (decide (5 ≤ p.tsw) && decide (p.tsw ≤ 80))) && decide (p.winLo ≤ p.winHi) &&
    (d.held t || p.tHold != 0xFFFF) &&
    p.omBoost != 3 && p.omPeak != 3 && p.omHold != 3 && p.omEnd != 3

/-- The close profile of a treadle by NRG_RESERVE: its number. -/
def State.closeP (s : State) (t : Fin 3) : Nat := fld s.nrg.reserve (4 + 4 * t.val) 4

def Drv.profileAt (d : Drv) (n : Nat) : Profile := d.profiles.get ⟨n % 16, Nat.mod_lt _ (by decide)⟩

/-- The profile with which the node itself closes a valve: profile `n`, or the ROM default where that is invalid for this valve
or opens (R88). -/
def State.nodeProfile (s : State) (n : Nat) (v : Fin 24) : Profile :=
  let p := s.drv.profileAt n
  if (if s.drv.held (treadleOf v) then p.valid else s.drv.profOk p v) && p.closes then p else romProfile true

/-- The profile with which the sequencer closes a valve now (R88, R91). -/
def State.nodeClose (s : State) (v : Fin 24) : Profile := s.nodeProfile (s.closeP (treadleOf v)) v

/-- The profile of a queue entry as it stands now (R233); the node's own closes judge it now, too (R88). -/
def State.entryProfile (s : State) (e : QEntry) : Profile :=
  if e.origin = .program then s.drv.profileAt e.profile.toNat else s.nodeProfile e.profile.toNat e.valve

/-! ## Admission (R79 to R87), in quarter microjoules -/

/-- E_req of a profile for a valve (R79). -/
def State.eReq (s : State) (p : Profile) (v : Fin 24) : Nat :=
  max (4 * p.eBudget) (5 * (s.drv.valves.get v).lenergy.toNat)

/-- E_committed (R79). -/
def State.eCommitted (s : State) : Nat :=
  (s.drv.allRuns.map fun p => ((p.ereq : Int) - 4 * p.drawn).toNat).sum

/-- The boost's share of E_avail over the pulse time: 0.80 x P_boost x t_p is PLIM x t_p uJ with t_p in 10 us. -/
def State.boostTerm (s : State) (p : Profile) : Nat :=
  let plim := fld s.nrg.resctl 26 4
  4 * ((if s.nrgx.laState = .idle then plim else min plim 4) * p.tp)

/-- The valves counted in E_reserve; `extra` is the commanded valve of an open (R79). -/
def State.counted (s : State) (extra : Option (Fin 24)) : List (Fin 24) :=
  (upTo 24).filter fun v =>
    if s.drv.paired v && v.val % 2 == 1 then false
    else if extra = some v then true
    else match s.drv.vs v with
      | .opened | .unknown => true
      | .closed => false
      | .moving =>
        match s.drv.pulseOf v with
        | none => true
        | some p => !p.prof.closes

/-- E_reserve (R79). -/
def State.eReserve (s : State) (extra : Option (Fin 24)) : Nat :=
  ((s.counted extra).map fun v => 6 * (s.drv.profileAt (s.closeP (treadleOf v))).eBudget).sum

/-- The admission rule for a close (R80) or an open (R79, R84). -/
def State.admits (s : State) (p : Profile) (v : Fin 24) : Bool :=
  let avail := 4000 * s.nrg.euse.toNat + s.boostTerm p
  let need := s.eCommitted + s.eReq p v
  if p.closes then decide (need ≤ avail)
  else s.nrgx.laArmed && decide (need + s.eReserve (some v) ≤ avail)

/-! ## Faults and results -/

/-- A bit of DRV_FAULT sets, with DRV_FAULTV bits of the valves concerned; the DRV_FAULT event pends (07, R273). -/
def State.drvFault (s : State) (b : Nat) (vs : List (Fin 24)) : State :=
  let bits : Nat := vs.foldl (fun m v => m ||| (1 <<< v.val)) 0
  (s.modDrv fun d => { d with
    fault := d.fault ||| BitVec.ofNat 8 (1 <<< b), faultv := d.faultv ||| BitVec.ofNat 24 bits }).event 5

def vsCode : VState → Nat
  | .closed => 0
  | .opened => 1
  | .unknown => 2
  | .moving => 3

/-- The flags of a result record (R255). -/
def Pulse.flags (p : Pulse) : Nat :=
  (b2n (p.prof.notchEn && !p.notchSeen)) <<< 14 + (b2n p.demoted) <<< 13 + (b2n p.notchSeen) <<< 12 +
    (b2n p.peakEarly) <<< 11 + (b2n p.peakLate) <<< 10 + (b2n p.bootRefresh) <<< 9 + (b2n p.endSlow) <<< 8

/-- A result record enters the FIFO, or is lost with ROVF; DRV_DONE sets either way (R254, R255). -/
def State.post (s : State) (close : Bool) (v : Fin 24) (prof res flags : Nat) (uj : Int) : State :=
  let w := place 1 31 ||| placeB close 30 ||| place v.val 25 ||| place (prof % 16) 21 ||| place res 17 |||
    place (vsCode (s.drv.vs v)) 15 ||| BitVec.ofNat 32 flags ||| place (min 255 (uj.toNat / 10000)) 0
  let stamp : Word := BitVec.ofNat 32 s.local.toNat
  let s :=
    if s.drv.fifo.length < 16 then s.modDrv fun d => { d with fifo := d.fifo ++ [(w, stamp)] }
    else s.modDrv fun d => { d with rovf := true }
  s.event 4

/-- An entry of treadle `t` leaves its queue without a pulse: its record, and a valve that a reversal left MOVING becomes
UNKNOWN (R248, R254). -/
def State.endEntry (s : State) (t : Fin 3) (e : QEntry) (res : Nat) : State :=
  let s := s.modDrv fun d => d.modTrd t fun q => { q with queue := q.queue.erase e }
  let s :=
    if s.drv.vs e.valve == .moving && (s.drv.pulseOf e.valve).isNone then s.modDrv fun d => d.setVs e.valve .unknown
    else s
  s.post (s.entryProfile e).closes e.valve e.profile.toNat res 0 0

/-! ## The coil thermal model (R285 to R290) -/

def Drv.tcmax (d : Drv) : Nat := fld d.therm 0 8
def Drv.cth (d : Drv) : Nat := fld d.therm 8 6
def Drv.tau (d : Drv) : Nat := fld d.therm 14 5
def Drv.twait (d : Drv) : Nat := fld d.therm 19 3

/-- R_hot in 10^-7 ohm (R288). -/
def Drv.rHot (d : Drv) (v : Fin 24) : Int :=
  ((d.valves.get v).rcoil.toNat : Int) * (100000 + 393 * ((d.tcmax : Int) - 20))

/-- T_end <= TCMAX for an open that starts from the coil temperature `tc` (2^-30 degrees), in exact arithmetic (R288). -/
def Drv.thermFrom (d : Drv) (p : Profile) (v : Fin 24) (tc : Int) : Bool :=
  let r := d.rHot v
  let none_ := (d.valves.get v).rcoil = 0
  let inf := p.tHold = 0xFFFF
  let pulse : Int := (p.iPeak : Int) ^ 2 * r * ((p.tBoostMax : Int) + p.tPeak)
  let hold : Int := if inf then 0 else (p.iHold : Int) ^ 2 * r * (p.tHold : Int) * 100
  let e : Int := if none_ then (p.eBudget : Int) * 10 ^ 12 else pulse + hold
  let room : Int := (d.tcmax : Int) * 2 ^ 30 - tc
  let finite := decide (4 * e * 2 ^ 30 ≤ room * (d.cth : Int) * 10 ^ 18)
  let steady := decide (4 * ((p.iHold : Int) ^ 2 * r * 20 * (d.tau : Int)) ≤
    ((d.tcmax : Int) - d.tdie.toInt) * (d.cth : Int) * 10 ^ 13)
  finite && (!inf || none_ || steady)

/-- The thermal check of an open command (R288); a close always passes. -/
def Drv.thermOk (d : Drv) (p : Profile) (v : Fin 24) : Bool :=
  p.closes || d.thermFrom p v (d.valves.get v).tcoil

/-- The check fails even with TCOIL equal to TDIE (R289). -/
def Drv.thermHopeless (d : Drv) (p : Profile) (v : Fin 24) : Bool :=
  !p.closes && !d.thermFrom p v (d.tdie.toInt * 2 ^ 30)

/-- A coil measurement updates the entry (R286): `rm` in 10 mohm. -/
def Drv.measureCoil (d : Drv) (v : Fin 24) (rm : Nat) : Drv :=
  d.modValve v fun e =>
    let die : Int := d.tdie.toInt
    if e.rcoil = 0 then
      { e with
        rcoil := BitVec.ofInt 16 (roundDiv ((rm : Int) * 100000) (100000 + 393 * (die - 20)).toNat),
        tcoil := die * 2 ^ 30 }
    else
      let r0 : Int := e.rcoil.toNat
      let t : Int := 20 * 2 ^ 30 + ((rm : Int) - r0) * 100000 * 2 ^ 30 / (393 * r0)
      if -40 * 2 ^ 30 ≤ t ∧ t ≤ ((d.tcmax : Int) + 50) * 2 ^ 30 then { e with tcoil := t } else e

/-! ## Ending pulses (R229 to R232, R248) -/

/-- A measurement of the valve's coil, if one was taken (R285, R286). -/
def State.coilMeasured (s : State) (v : Fin 24) (taken : Bool) (rm : Option Nat) : State :=
  match taken, rm with
  | true, some r => s.modDrv fun d => d.measureCoil v r
  | _, _ => s

/-- A regulated phase. -/
def Phase.regulated (p : Phase) : Bool := p == .peak || p == .hold

/-- HOLD lasts until a command ends it (R232). -/
def Pulse.endless (p : Pulse) : Bool := p.prof.tHold == 0xFFFF

/-- The target current of the phase, mA (R232). -/
def Pulse.target (p : Pulse) : Nat := if p.phase = .hold then p.prof.iHold else p.prof.iPeak

/-- The phase takes a measurement at its end, if it lasts long enough: PEAK, or a finite HOLD, at 100 mA or more (R285). -/
def Pulse.measures (p : Pulse) : Bool :=
  (p.phase == .peak || (p.phase == .hold && !p.endless)) && decide (100 ≤ p.target)

/-- A regulated phase ends before its time: the measurement of its last millisecond is taken (R285). -/
def State.phaseMeasured (s : State) (p : Pulse) : State := s.coilMeasured p.valve p.measures p.rm

/-- The off-mode of the phase then running. -/
def Pulse.phaseMode (p : Pulse) : Nat :=
  match p.phase with
  | .precharge | .boost => p.prof.omBoost
  | .peak => p.prof.omPeak
  | .hold => p.prof.omHold
  | .ending => p.prof.omEnd

/-- A decay starts in mode `m`: demoted while the treadle runs more than one profile, CLAMP in place of FAST at 32 V
(R230, R274). -/
def State.decay (s : State) (p : Pulse) (m : Nat) : Pulse :=
  let many := decide (1 < (s.drv.trd.get (treadleOf p.valve)).runs.length)
  let mode := offMode m
  if many && mode != .slow then { p with decay := .slow, demoted := true }
  else if mode == .fast && decide (32000 ≤ s.nrg.vres.toNat) then { p with decay := .clamp }
  else { p with decay := mode }

/-- The pulse moves to END; a valve that stood in the HOLD of a HELD open reads MOVING again (R232, R248). -/
def State.toEnd (s : State) (v : Fin 24) (mode : Pulse → Nat) (f : Pulse → Pulse) : State :=
  match s.drv.pulseOf v with
  | none => s
  | some p =>
    if p.phase = .ending then s
    else
      let q := f { s.decay p (mode p) with phase := .ending }
      (s.phaseMeasured p).modDrv fun d => (d.modPulse v fun _ => q).setVs v .moving

/-- A pulse is ended early with this result, through the off-mode of its phase; one in END goes on (R232). -/
def State.endEarly (s : State) (v : Fin 24) (res : BitVec 4) : State :=
  s.toEnd v Pulse.phaseMode fun p => { p with early := some res }

/-- A fault turns the pulse's switches off, also in END: it ends with FAULT (R232, R260, R273, R276). -/
def State.faultPulse (s : State) (v : Fin 24) : State :=
  let s := match s.drv.pulseOf v with
    | some p => s.phaseMeasured p
    | none => s
  s.modDrv fun d => (d.modPulse v fun p =>
    { p with phase := .ending, early := some 11, off := true, decay := .clamp }).setVs v .moving

/-- T_TURN starts when the last profile of a treadle has ended (R244). -/
def Drv.dropPulse (d : Drv) (p : Pulse) : Drv :=
  d.modTrd (treadleOf p.valve) fun t =>
    let runs := t.runs.filter fun q => q.valve != p.valve
    { t with runs := runs, turn := if runs.isEmpty then some p.prof.closes else t.turn }

/-- The tail of a drive pulse's windows starts: its current has fallen below 20 mA (R332). -/
def State.blankTail (s : State) (v : Fin 24) : State :=
  { s with prs := { s.prs with
      wins := s.prs.wins.map fun w =>
        if w.src == .drv && w.valve == BitVec.ofNat 8 v.val && w.due.isNone then { w with due := some (s.local.toNat + w.tail) }
        else w } }

/-- State and result of a pulse that reached the end of its END phase by itself (R248). -/
def Drv.settle (d : Drv) (p : Pulse) : VState × Nat :=
  let seen := p.notchSeen || !p.prof.notchEn
  if p.prof.closes then (.closed, 0)
  else if d.held (treadleOf p.valve) then (.closed, 0)
  else if seen then (.opened, 0)
  else if p.before = .opened then (.opened, 0)
  else (.unknown, 1)

/-- Insertion of an entry by its rank (R241): behind those of its rank and of every higher rank. -/
def qInsert (e : QEntry) : List QEntry → List QEntry
  | [] => [e]
  | x :: r =>
    let rk : QRank → Nat := fun k => match k with
      | .head => 0
      | .prio => 1
      | .norm => 2
    if rk x.rank ≤ rk e.rank then x :: qInsert e r else e :: x :: r

/-- A command's entry as it is accepted. -/
def newEntry (v : Fin 24) (prof : BitVec 4) (rank : QRank) (o : Origin) : QEntry :=
  { valve := v, profile := prof, id := 0, prediag := false, tested := false, rank := rank, origin := o,
    waiting := false, limit := 0, deferred := false, reversal := false, retry := false }

/-- An entry joins its treadle's queue, under a number of its own. -/
def State.joinQueue (s : State) (t : Fin 3) (e : QEntry) : State :=
  s.modDrv fun d => { d.modTrd t fun q => { q with queue := qInsert { e with id := d.entryId } q.queue } with
    entryId := d.entryId + 1 }

/-- Learned values that a normal end writes (R250), and the heat of a coil without RCOIL (R287). -/
def State.learn (s : State) (p : Pulse) (drawn : Int) : State :=
  s.modDrv fun d => d.modValve p.valve fun e =>
    { e with
      lenergy := BitVec.ofNat 32 drawn.toNat, tpeak := p.tpeak,
      tnotch := if p.notchSeen then p.tnotch else 0 }

/-- Heat of a whole pulse on a coil without RCOIL: net energy divided by CTH (R287). -/
def State.heatByEnergy (s : State) (v : Fin 24) (drawn : Int) : State :=
  let cth : Nat := fld s.drv.therm 8 6
  s.modDrv fun d => d.modValve v fun e =>
    if e.rcoil = 0 then { e with tcoil := e.tcoil + drawn * 4 * 2 ^ 30 / (1000000 * (cth : Int)) } else e

/-! ## The boost's permission (R70, R73, R74) -/

def State.modNrg (s : State) (f : Nrg → Nrg) : State := { s with nrg := f s.nrg }

def State.modNrgx (s : State) (f : NrgAux → NrgAux) : State := { s with nrgx := f s.nrgx }

/-- The sequencer requests the boost, for the last act or the cold close (R70). -/
def State.seqBoost (s : State) : Bool := s.drv.seqMode != .idle

/-- The boost may run (R70, R73, R74). -/
def State.boostAllowed (s : State) : Bool :=
  s.nrg.refOk && !bit s.nrg.ctl 8 && (bit s.nrg.ctl 3 || s.seqBoost) &&
    (if (s.nrgx.laArmed && s.nrgx.lastLow) || s.nrgx.laState != .idle then s.seqBoost else true)

def State.setBoost (s : State) (b : Bool) : State :=
  (s.modNrgx fun x => { x with boostOn := b }).entered 0x43 none s.nrgx.boostOn b

/-- A boost that may no longer run stops. -/
def State.boostCheck (s : State) : State := if s.nrgx.boostOn && !s.boostAllowed then s.setBoost false else s

/-! ## The sequencer (R91, R92, R101, R103) -/

/-- The sequencer goes on after the close of a valve has ended or was skipped (R92); where no further close may start, none
does (R101); and where the last act has taken a running cold close over, it starts from V0 (R103). -/
def State.seqStep (s : State) (v : Fin 24) : State :=
  s.modDrv fun d => { d with
    seqNext := if d.seqOver then d.seqNext else max d.seqNext (v.val + 1), seqRun := none, seqOver := false, seqRetry := none }

/-- A valve that the sequencer still has to close: OPEN, UNKNOWN, or an open that the last act cancelled (R91). -/
def Drv.toClose (d : Drv) (v : Fin 24) : Bool :=
  if d.paired v && v.val % 2 == 1 then false
  else match d.vs v with
    | .opened | .unknown => true
    | .closed => false
    | .moving =>
      match d.pulseOf v with
      | none => true
      | some p => !p.prof.closes

/-- The sequencer's next valve. -/
def Drv.seqValve (d : Drv) : Option (Fin 24) :=
  (upTo 24).find? fun v => decide (d.seqNext ≤ v.val) && d.toClose v

/-- A retry of the sequencer's that can no longer start: the close's record is FLOOR, DESIGN CHOICE (log 70). -/
def State.dropRetry (s : State) : State :=
  match s.drv.seqRetry with
  | none => s
  | some v => (s.modDrv fun d => { d with seqRetry := none }).post true v (s.closeP (treadleOf v)) 8 0 0

/-- The sequencer has finished when no valve remains and its own close has ended: the cold close ends, or the last act
waits for the commit deadline; its request for the boost ends with it (R70, R91, R101). -/
def State.seqFinish (s : State) : State :=
  if s.drv.seqMode ≠ .idle ∧ s.drv.seqRun = none ∧ s.drv.seqValve = none then
    let s := s.dropRetry
    let last := s.drv.seqMode == .last
    let s := s.modDrv fun d => { d with seqMode := .idle, seqNext := 0 }
    let s := if last && s.nrgx.laState == .closing then s.modNrgx fun x => { x with laState := .commitWait } else s
    s.boostCheck
  else s

/-! ## The end of a pulse (R86, R236, R248) -/

/-- State and result of a pulse at its end (R248). With a release waiting, the valve becomes CLOSED, but for BOOT_UV and FAULT,
which leave it UNKNOWN (R236, R256). -/
def State.ending (s : State) (p : Pulse) : VState × Nat :=
  match p.early with
  | none => s.drv.settle p
  | some r =>
    if r = 3 then (.closed, 3)
    else if r = 10 ∨ r = 11 then (.unknown, r.toNat)
    else if !p.rels.isEmpty then (.closed, r.toNat)
    else if r = 7 ∧ (s.drv.trd.get (treadleOf p.valve)).queue.any (fun e => e.valve = p.valve && e.reversal) then (.moving, 7)
    else (.unknown, r.toNat)

/-- The pulse is a close ended at the floor that is retried (R86): one of the sequencer's, unless it starts no further close or
the last act has taken it over; any other, unless LASTACT has pended, which ends what waits (R91, R101, R103). DESIGN CHOICE
(log 70): a close that is not retried for these reasons has its record with FLOOR. -/
def State.retries (s : State) (p : Pulse) : Bool :=
  p.early == some 8 && p.prof.closes && !p.retry &&
    (if p.origin = .sequencer then !s.drv.seqOver && decide (s.drv.seqNext ≤ p.valve.val) else s.nrgx.laState == .idle)

/-- The sequencer's close of this valve is the one that has ended. -/
def Drv.seqOwns (d : Drv) (p : Pulse) : Bool := p.origin == .sequencer && d.seqRun == some p.valve

/-- A pulse has ended: its record (or its retry, R86), the releases that waited for it (R236), the sequencer's next
position (R92). -/
def State.pulseEnd (s : State) (p : Pulse) (drawn : Int) : State :=
  let v := p.valve
  let t := treadleOf v
  let s := (s.modDrv fun d => d.dropPulse p).blankTail p.valve
  let s := s.heatByEnergy v drawn
  let fin := s.ending p
  let s := if p.early.isNone || p.early = some 3 then s.learn p drawn else s
  let s := s.modDrv fun d => d.setVs v fin.1
  let s :=
    if s.retries p then
      if p.origin = .sequencer then s.modDrv fun d => { d with seqRun := none, seqRetry := some v }
      else s.joinQueue t { newEntry v p.profile .head p.origin with retry := true }
    else
      let s := s.post p.prof.closes v p.profile.toNat fin.2 p.flags drawn
      if s.drv.seqOwns p then s.seqStep v else s
  let s := p.rels.foldl (fun s r => s.post true v r.toNat 0 0 0) s
  s.seqFinish

/-! ## Starting pulses (R233, R242 to R248, R263) -/

/-- A fresh pulse of an entry. -/
def State.newPulse (s : State) (e : QEntry) (prof : Profile) (ereq : Nat) (before : VState) (ph : Phase) : Pulse :=
  { valve := e.valve, profile := e.profile, prof := prof, phase := ph, origin := e.origin, early := none,
    before := before, ereq := ereq, drawn := 0, resctl := s.nrg.resctl, notchMax := 0, notchMaxAt := 0, notchDip := false,
    notchSeen := false, tnotch := 0, samples := 0, tpeak := 0, decay := .slow, demoted := false, peakEarly := false,
    peakLate := false, bootRefresh := false, endSlow := false, held := false, rels := [], rm := none, retry := e.retry,
    off := false, on := true }

/-- The drive tail of CMP_BLANK.DTAIL in tempo units (R332). -/
def dtail (blank : Word) : Nat := let n := fld blank 24 4; if n = 0 then 0 else 16000 * 2 ^ (n - 1)

/-- The blanking window that a drive pulse of this valve opens, at the comparators that CMP_BLANK.DRV names (R332). -/
def State.blankDrive (s : State) (v : Fin 24) : State :=
  let mask := fld s.prs.blank 0 8
  { s with prs := { s.prs with
      cmp := (upTo 8).foldl (fun c (i : Fin 8) => if mask.testBit i.val then c.set i { c.get i with blDrv := true } else c)
        s.prs.cmp,
      wins := s.prs.wins ++
        [{ src := .drv, mask := BitVec.ofNat 8 mask, valve := BitVec.ofNat 8 v.val, tail := dtail s.prs.blank, due := none }] } }

/-! ### The switches (R227, R229, R263) -/

/-- The leg's and the treadle's switch in the path of a pulse that drives its coil (R227). -/
def onPath (closes : Bool) : Sw × Sw := if closes then (.high, .low) else (.low, .high)

/-- The leg's and the treadle's switch in an off-mode (R229). -/
def offPath (closes : Bool) (m : OffMode) : Sw × Sw :=
  match m, closes with
  | .slow, false => (.high, .high)
  | .slow, true => (.low, .low)
  | .fast, false => (.high, .low)
  | .fast, true => (.low, .high)
  | .clamp, _ => (.off, .off)

/-- The switches of a running pulse, leg and treadle (R227 to R229, R232, R263). -/
def Pulse.switches (p : Pulse) : Sw × Sw :=
  if p.off then (.off, .off)
  else match p.phase with
    | .precharge => (.off, .low)
    | .boost => onPath p.prof.closes
    | .peak | .hold => if p.on then onPath p.prof.closes else offPath p.prof.closes p.decay
    | .ending => offPath p.prof.closes p.decay

/-- The interlock of a half-bridge is tripped: legs 0-23, treadles 24-26 (R257). -/
def Drv.tripped (d : Drv) (hb : Nat) : Bool := d.trips.getLsbD hb

/-- Switch-level control requests a switch of `hb` (R261). -/
def Drv.manualReq (d : Drv) (hb : Nat) : Bool := d.manual && d.sw != 0 && d.leg.toNat == hb

/-- Switch-level control has a switch of `hb` on: its interlock does not keep it off (R257, R261). -/
def Drv.manualOn (d : Drv) (hb : Nat) : Bool := d.manualReq hb && !d.tripped hb

/-- The switch that switch-level control turns on. -/
def Drv.manualSw (d : Drv) : Sw := if d.sw = 1 then .low else .high

/-- The switch of leg `v` that is on; a pair's legs switch together (R252). -/
def Drv.legSw (d : Drv) (v : Fin 24) : Sw :=
  if d.manualOn v.val then d.manualSw
  else match d.pulseOf (d.even v) with
    | none => .off
    | some p => p.switches.1

/-- The switch of treadle `t` that is on: the high-side where a pulse needs it and it is not locked out (R227, R266), else the
low-side where one needs that. -/
def Drv.trdSw (d : Drv) (t : Fin 3) : Sw :=
  let want := (d.trd.get t).runs.map fun p => p.switches.2
  if d.manualOn (24 + t.val) then d.manualSw
  else if want.contains .high && !(d.trd.get t).uvlo then .high
  else if want.contains .low then .low
  else .off

/-- The treadle high-side is on (R227, R229, R264). -/
def Drv.highOn (d : Drv) (t : Fin 3) : Bool := d.trdSw t == .high

/-- A half-bridge has a switch on (R273). -/
def Drv.bridgeOn (d : Drv) (hb : Fin 27) : Bool :=
  match fin? 24 hb.val, fin? 3 (hb.val - 24) with
  | some v, _ => d.legSw v != .off
  | none, some t => d.trdSw t != .off
  | none, none => false

/-! ### The start -/

/-- An open whose treadle high-side is off starts with its precharge unless VBS is at 4.5 V (R263). -/
def Drv.firstPhase (d : Drv) (t : Fin 3) (closes vbsOk : Bool) : Phase :=
  if !closes && !d.highOn t && !vbsOk then .precharge else .boost

/-- An entry starts its pulse: a running pulse of the same valve is superseded and restarts from BOOST (R246); else the
pulse starts. An open with the treadle high-side off and VBS low starts in its precharge (R263). -/
def State.startPulse (s : State) (t : Fin 3) (e : QEntry) (vbsOk : Bool) : State :=
  let prof := s.entryProfile e
  let req := s.eReq prof e.valve
  let active := !s.drv.allRuns.isEmpty
  let ph := s.drv.firstPhase t prof.closes vbsOk
  let s := s.modDrv fun d => d.modTrd t fun q => { q with queue := q.queue.erase e }
  let s :=
    match s.drv.pulseOf e.valve with
    | some p =>
      let s := (s.phaseMeasured p).modDrv fun d => d.setVs e.valve .moving
      let s := (s.post p.prof.closes e.valve p.profile.toNat 6 p.flags p.drawn).heatByEnergy e.valve p.drawn
      let n := s.newPulse e prof req p.before ph
      s.modDrv fun d => d.modPulse e.valve fun _ => n
    | none =>
      let n := s.newPulse e prof req (s.drv.vs e.valve) ph
      s.modDrv fun d => (d.modTrd t fun q => { q with runs := q.runs ++ [n], turn := none }).setVs e.valve .moving
  let s := if !prof.closes && ph == .boost then s.modDrv fun d => d.modTrd t fun q => { q with uvlo := false } else s
  let s := (s.occur 0x30).entered 0x33 none active true
  s.blankDrive e.valve

/-- What a running profile charges its treadle with (R243). -/
def Pulse.charge (p : Pulse) : Nat := if p.held || p.phase = .hold then p.prof.iHold else p.prof.iPeak

/-- The interlock blocks a leg of the output of valve `v` (R252, R257). -/
def Drv.legTripped (d : Drv) (v : Fin 24) : Bool :=
  d.tripped v.val || (d.paired v && d.tripped (v.val + 1))

/-- The overlap rules let a command with this profile start on its treadle (R244, R246), and no interlock holds its leg
(R257). DESIGN CHOICE (log 70): a pulse that has already been ended, or that a release waits for, is not superseded; a command
in its direction waits until it has ended. -/
def Drv.overlapOk (d : Drv) (v : Fin 24) (prof : Profile) : Bool :=
  let t := d.trd.get (treadleOf v)
  let own := (d.pulseOf v).isSome
  let runs := t.runs.filter fun p => p.valve != v
  let ownSame := t.runs.all fun p => p.valve != v || (p.prof.closes == prof.closes && p.early.isNone && p.rels.isEmpty)
  ownSame && !d.legTripped v &&
    (if runs.isEmpty then own || t.turn.isNone || t.turn == some prof.closes
     else runs.all (fun p => p.prof.closes == prof.closes) &&
       decide ((runs.map Pulse.charge).sum + prof.iPeak ≤ d.imax (treadleOf v)))

/-! ## Heating and cooling (R287) -/

/-- One 1 ms step of the thermal model of a valve with mean current `ma` (R287). -/
def Drv.coilStep (d : Drv) (v : Fin 24) (ma : Nat) : Drv :=
  d.modValve v fun e =>
    if e.notfit then e
    else
      let die : Int := d.tdie.toInt * 2 ^ 30
      -- r in 10^-7 ohm x 2^30; p x 1 ms / cth in degrees x 2^30
      let r : Int := (e.rcoil.toNat : Int) * (100000 * 2 ^ 30 + 393 * (e.tcoil - 20 * 2 ^ 30))
      let heat : Int := (ma : Int) ^ 2 * r * 4 / ((d.cth : Int) * 10 ^ 16)
      let cool : Int := (e.tcoil - die) / (20000 * (d.tau : Int))
      { e with tcoil := e.tcoil + heat - cool }

/-- exp(-num/den) in units of 2^-48, by the Taylor series of num/(64 den) raised to the 64th power. -/
def expNeg (num den : Nat) : Nat :=
  if 40 * den ≤ num then 0
  else
    let one : Int := 2 ^ 48
    let x : Int := (num : Int) * one / (64 * den : Nat)
    let series := (List.range 14).foldl (fun (a : Int × Int) k =>
      let t := -(a.2 * x / one) / ((k : Int) + 1)
      (a.1 + t, t)) (one, one)
    let sq (y : Int) : Int := y * y / one
    (sq (sq (sq (sq (sq (sq series.1)))))).toNat

/-- The DMI restarts after `dt` tempo units: the coils have cooled toward the die (R287). -/
def Drv.cool (d : Drv) (dt : Nat) : Drv :=
  let k : Int := expNeg dt (d.tau * 20 * 16000000)
  (upTo 24).foldl (fun d v => d.modValve v fun e =>
    let die : Int := d.tdie.toInt * 2 ^ 30
    { e with tcoil := die + (e.tcoil - die) * k / 2 ^ 48 }) d

end Sys2Proof.Machine
end

