-- ==== Sys2Proof/Machine/DrvQueue.lean ====
section
/-!
DEFINITION. Commands to the valve drive, the treadles' queues and start points, the off-state test, and the node's own
closes (R236 to R247, R278 to R283, R288 to R289, R91 to R103).
-/

namespace Sys2Proof.Machine

/-- An entry counts as an open. -/
def State.opens (s : State) (e : QEntry) : Bool := !(s.entryProfile e).closes

/-- An entry is a release (R236). -/
def State.isRelease (s : State) (t : Fin 3) (e : QEntry) : Bool := s.drv.held t && (s.entryProfile e).closes

/-- What keeps the start point of a treadle from starting anything: manual mode, thermal shutdown, its interlock, a test on
the treadle or a pass of tests that waits for it (R257, R261, R276, R282, R283). -/
def Drv.blocked (d : Drv) (t : Fin 3) : Bool :=
  d.manual || d.tsdact || d.tripped (24 + t.val) ||
    (match d.test with
     | some (v, _) => treadleOf v == t
     | none => d.tall && d.tallNext / 8 == t.val)

/-- Program commands wait while the sequencer runs (R102). -/
def Drv.startBlocked (d : Drv) (t : Fin 3) : Bool := d.blocked t || d.seqMode != .idle

/-- The treadle has no running profile and no T_TURN (R240, R278). -/
def Drv.treadleIdle (d : Drv) (t : Fin 3) : Bool :=
  (d.trd.get t).runs.isEmpty && (d.trd.get t).turn.isNone

/-! ## Releases on a HELD treadle (R236) -/

/-- A release acts on its valve. -/
def State.release (s : State) (v : Fin 24) (prof : BitVec 4) : State :=
  match s.drv.pulseOf v with
  | none => (s.modDrv fun d => d.setVs v .closed).post true v prof.toNat 0 0 0
  | some p =>
    let rel (q : Pulse) : Pulse := { q with rels := q.rels ++ [prof] }
    match p.phase with
    | .hold => s.toEnd v (fun q => q.prof.omEnd) rel
    | .ending => s.modDrv fun d => d.modPulse v rel
    | _ => s.toEnd v Pulse.phaseMode fun q => { rel q with early := some 5 }

/-! ## Accepting a command word (R237 to R241, R246) -/

/-- A CANCEL for a valve (R239); after LASTACT it has nothing left to end (R91). -/
def State.cancelValve (s : State) (v : Fin 24) : State :=
  if s.nrgx.laState ≠ .idle then s
  else
    let s :=
      match s.drv.pulseOf v with
      | some p => if p.origin = Origin.program then s.endEarly v 5 else s
      | none => s
    let t := treadleOf v
    let es := (s.drv.trd.get t).queue.filter fun (e : QEntry) => e.valve = v && e.origin = Origin.program
    es.foldl (fun s e => s.endEntry t e 5) s

/-- Whether an entry behind these would be at its treadle's start point: everything ahead lets it pass (R242). -/
def State.passes (s : State) (q : List QEntry) (closesOnly : Bool) : Option Bool :=
  match q with
  | [] => some closesOnly
  | e :: r =>
    let p := s.entryProfile e
    if !p.closes && closesOnly then s.passes r closesOnly
    else if !p.closes && !s.drv.thermOk p e.valve then s.passes r closesOnly
    else if !p.closes && e.waiting && s.drv.overlapOk e.valve p then s.passes r true
    else none

/-- The command is at its treadle's start point as it is accepted (R238 order 7). -/
def State.atStart (s : State) (t : Fin 3) (v : Fin 24) (p : Profile) (ahead : List QEntry) : Bool :=
  !s.drv.startBlocked t && s.drv.overlapOk v p &&
    (match s.passes ahead false with
     | none => false
     | some closesOnly => p.closes || !closesOnly)

/-- The entries of a queue ahead of a new entry of this rank (R241). -/
def aheadOf (rank : QRank) (q : List QEntry) : List QEntry :=
  q.takeWhile fun x => (match x.rank with
    | .head => 0
    | .prio => 1
    | .norm => 2) ≤ (match rank with
    | .head => 0
    | .prio => 1
    | .norm => 2)

/-- RETIRED, as the lifecycle fuses in OTP read (R486, 15): LCFUSE bits. -/
def State.lcfuse (s : State) : Nat := s.bytes 0x40100084 4

/-- LCFUSE decodes by its highest burnt state bit (R537). -/
def State.lifecycle (s : State) : Nat :=
  let f := s.lcfuse
  if f.testBit 2 then 3 else if f.testBit 1 then 2 else if f.testBit 0 then 1 else 0

/-- An accepted open or close joins its treadle: status and state (R238 orders 5 to 8, R246). -/
def State.accept (s : State) (v : Fin 24) (prof : BitVec 4) (prio prediag : Bool) : State × Nat :=
  let t := treadleOf v
  let p := s.drv.profileAt prof.toNat
  let q := (s.drv.trd.get t).queue
  let queued := q.any fun e => e.valve = v
  let isRel := s.drv.held t && p.closes
  if isRel && !queued && s.drv.seqMode = .idle then (s.release v prof, 0)
  else if 8 ≤ (s.drv.trd.get t).entries.length then (s, 2)
  else
    let running := (s.drv.pulseOf v).isSome && !queued && !isRel && s.drv.seqMode == .idle
    let same := (s.drv.pulseOf v).any fun r => r.prof.closes == p.closes
    let live := (s.drv.pulseOf v).any fun r => r.early.isNone && r.rels.isEmpty
    let reverse := running && !same
    let rank : QRank := if reverse then .head else if prio then .prio else .norm
    let e := { newEntry v prof rank .program with prediag := prediag, reversal := reverse }
    let other := decide (1 < (s.drv.trd.get t).runs.length)
    let deferred := !s.drv.thermOk p v
    let start := s.atStart t v p (aheadOf rank q)
    let refuse := deferred && (s.drv.thermHopeless p v || s.drv.twait == 0)
    let s := if reverse && !refuse then s.endEarly v 7 else s
    if refuse then (s.post p.closes v prof.toNat 3 0 0, 3)
    else if deferred then (s.joinQueue t { e with deferred := true }, 3)
    else if reverse then (s.joinQueue t e, if other then 1 else 0)
    else if running && live then (s.joinQueue t e, 0)
    else (s.joinQueue t e, if start then 0 else 1)

/-- The DMI checks a command word in the order of R238: its cause (3 for a bad word) and status. -/
def State.command (s : State) (w : Word) : State × Nat × Nat :=
  let vn := fld w 0 5
  if h : vn < 24 then
    if fld w 15 17 ≠ 0 ∨ fld w 5 3 ≠ 0 then (s, 3, 0)
    else
      let v := s.drv.even ⟨vn, h⟩
      let prof : BitVec 4 := BitVec.ofNat 4 (fld w 8 4)
      let p := s.drv.profileAt prof.toNat
      let isRel := s.drv.held (treadleOf v) && p.closes
      if bit w 14 then (s.cancelValve v, 0, 0)
      else if s.lifecycle = 3 ∧ !p.closes then (s, 0, 5)
      else if !(if isRel then p.valid else s.drv.profOk p v) then (s, 0, 4)
      else if (s.drv.valves.get v).notfit then (s.post p.closes v prof.toNat 13 0 0, 0, 0)
      else if s.nrgx.laState ≠ .idle then (s.post p.closes v prof.toNat 4 0 0, 0, 1)
      else
        let (s, st) := s.accept v prof (bit w 13) (bit w 12)
        (s, 0, st)
  else (s, 3, 0)

/-! ## The off-state test (R278 to R283) -/

/-- A test of valve `v` may start (R278). -/
def Drv.testOk (d : Drv) (v : Fin 24) : Bool :=
  d.treadleIdle (treadleOf v) && d.test.isNone && !d.tall && !d.manual && !d.tsdact

/-- A pass of TALL goes on: past NOTFIT valves and odd halves of pairs, it tests the next valve or waits for its treadle; at
the end TALL reads 0 (R283). -/
def Drv.tallGo (d : Drv) : Drv :=
  if d.tall && d.test.isNone then
    match (upTo 24).find? fun v => decide (d.tallNext ≤ v.val) && !(d.valves.get v).notfit &&
        !(d.paired v && v.val % 2 == 1) with
    | none => { d with tall := false, tallNext := 0 }
    | some v =>
      if d.treadleIdle (treadleOf v) then { d with test := some (v, .tall), tallNext := v.val }
      else { d with tallNext := v.val }
  else d

/-- Codes of DIAG and TRES (R280, R281) by the mean VLVn in mV. -/
def testCode (mv : Nat) : Nat :=
  if mv < 1200 then 3 else if mv < 2200 then 1 else if mv < 3600 then 2 else 4

/-- A running test, or a pass that waits, ends early: TRES reads ABORTED, DIAG stays (R282, R283). -/
def Drv.abortTest (d : Drv) : Drv :=
  if d.test.isSome || d.tall then { d with test := none, tall := false, tgo := false, tres := 5 } else d

/-! ## The start point (R242, R83) -/

/-- How far a treadle's scan has come. -/
inductive ScanMode where
  | all | closesOnly | noPass | stop
  deriving DecidableEq, Repr

/-- The next entry of a queue that the scan acts on under a mode: a candidate, or an open whose thermal check, made as the scan
reaches it, changes its standing (R288, R289); opens that stay deferred are passed. -/
def State.candidate (s : State) (t : Fin 3) (closesOnly : Bool) : List QEntry → Option QEntry
  | [] => none
  | e :: r =>
    let p := s.entryProfile e
    if !p.closes && closesOnly then s.candidate t closesOnly r
    else if !p.closes && e.deferred && !s.drv.thermOk p e.valve then s.candidate t closesOnly r
    else if !p.closes && e.deferred == s.drv.thermOk p e.valve then some e
    else if s.isRelease t e then some e
    else if !s.drv.overlapOk e.valve p then none
    else some e

/-- The candidate of treadle `t`: a close that may pass a waiting open comes before that open (R82). -/
def State.nextCand (s : State) (t : Fin 3) (m : ScanMode) : Option QEntry :=
  let q := (s.drv.trd.get t).queue
  if s.drv.startBlocked t then none
  else match m with
    | .stop => none
    | .closesOnly => s.candidate t true q
    | .noPass => s.candidate t false q
    | .all =>
      match s.candidate t false q with
      | none => none
      | some e =>
        if s.opens e && e.waiting then
          match s.candidate t true q with
          | some c => some c
          | none => some e
        else some e

/-- The candidate that R83 takes first: closes before opens, then the lower treadle. -/
def State.pick (s : State) (ms : Vector ScanMode 3) : Option (Fin 3 × QEntry) :=
  let cs := (upTo 3).filterMap fun t => (s.nextCand t (ms.get t)).map fun e => (t, e)
  match cs.find? fun c => !s.opens c.2 with
  | some c => some c
  | none => cs.head?

/-- An entry's flags change in its queue. -/
def State.modEntry (s : State) (t : Fin 3) (e e' : QEntry) : State :=
  s.modDrv fun d => d.modTrd t fun q => { q with queue := q.queue.map fun x => if x = e then e' else x }

/-- An open whose thermal check has changed as the scan reaches it: deferred, a candidate again, or, where TWAIT is 0 or cooling
cannot help, ended with THERMAL_REFUSED (R289). -/
def State.thermOne (s : State) (t : Fin 3) (e : QEntry) : State :=
  let p := s.entryProfile e
  if s.drv.thermOk p e.valve then s.modEntry t e { e with deferred := false }
  else if s.drv.thermHopeless p e.valve || s.drv.twait = 0 then s.endEntry t e 3
  else s.modEntry t e { e with deferred := true }

/-- A candidate that the admission rule turns away: an open's wait begins, with the ADMIT_WAIT of that moment, and one with none
ends with NO_ENERGY; closes behind a waiting open are still evaluated (R81, R82, R242). -/
def State.turnAway (s : State) (t : Fin 3) (e : QEntry) (ms : Vector ScanMode 3) : State × Vector ScanMode 3 :=
  let first := !(s.drv.allQueued.any fun x => x.waiting)
  let wait := fld s.drv.ctl 16 16
  let e' : QEntry := if e.waiting then e else { e with waiting := true, limit := BitVec.ofNat 16 wait }
  let s' := (s.modEntry t e e').entered 0x34 none (!first) true
  if !s.opens e then (s', ms.set t (if ms.get t = .all then .noPass else .stop))
  else if !e.waiting && wait == 0 then (s'.endEntry t e' 2, ms)
  else (s', ms.set t (if ms.get t = .noPass then .stop else .closesOnly))

/-- One entry is dealt with: its deferral, its release, its end as PROFILE_INVALID, its test, its start, or its wait (R242). -/
def State.scanOne (s : State) (t : Fin 3) (e : QEntry) (ms : Vector ScanMode 3) (vbsOk : BitVec 3) :
    State × Vector ScanMode 3 :=
  let p := s.entryProfile e
  if !p.closes && e.deferred == s.drv.thermOk p e.valve then (s.thermOne t e, ms)
  else if s.isRelease t e then
    let s' := s.modDrv fun d => d.modTrd t fun q => { q with queue := q.queue.erase e }
    if p.valid then (s'.release e.valve e.profile, ms) else (s.endEntry t e 12, ms)
  else if e.origin = .program && !s.drv.profOk p e.valve then (s.endEntry t e 12, ms)
  else if e.prediag && !e.tested then
    if s.drv.testOk e.valve then
      (s.modDrv fun d => { d with test := some (e.valve, .prediag), testEntry := e.id }, ms.set t .stop)
    else (s, ms.set t .stop)
  else if s.admits p e.valve then (s.startPulse t e (vbsOk.getLsbD t), ms)
  else s.turnAway t e ms

/-- Deferred opens for which cooling can no longer help end at once, also where the start point is held (R289). -/
def State.thermScan (s : State) : State :=
  (upTo 3).foldl (fun s t =>
    (s.drv.trd.get t).queue.foldl (fun s e =>
      if e.deferred && s.drv.thermHopeless (s.entryProfile e) e.valve then s.endEntry t e 3 else s) s) s

/-- A start-point evaluation of all three treadles, with as much fuel as there can be candidates (R83, R242). -/
def State.scanLoop (vbsOk : BitVec 3) : Nat → State → Vector ScanMode 3 → State
  | 0, s, _ => s
  | n + 1, s, ms =>
    match s.pick ms with
    | none => s
    | some (t, e) =>
      let (s, ms) := s.scanOne t e ms vbsOk
      State.scanLoop vbsOk n s ms

/-- The net energy drawn so far by each running pulse, as the DMI measures it. -/
def State.takeDrawn (s : State) (drawn : List (Option Int)) : State :=
  (upTo 24).foldl (fun s v =>
    match nth none drawn v.val with
    | none => s
    | some e => s.modDrv fun d => d.modPulse v fun p => { p with drawn := e }) s

/-- The start point runs only while the DMI does. -/
def State.scan (s : State) (vbsOk : BitVec 3) : State :=
  let s := s.thermScan
  (State.scanLoop vbsOk 120 s #v[.all, .all, .all]).modDrv Drv.tallGo

/-! ## Priority closes and BOOT_UV (R265 to R267) -/

/-- A priority close of a valve enters at the head; a full queue's tail ends with CANCELLED; after LASTACT none is
issued (R267). It names the profile that CLOSEP names now, DESIGN CHOICE (log 70), and judges it as it starts (R88). -/
def State.priorityClose (s : State) (v : Fin 24) : State :=
  if s.nrgx.laState ≠ .idle then s
  else
    let t := treadleOf v
    let q := (s.drv.trd.get t).entries
    let s :=
      match q.getLast? with
      | some e => if 8 ≤ q.length then s.endEntry t e 5 else s
      | none => s
    s.joinQueue t (newEntry v (BitVec.ofNat 4 (s.closeP t)) .head .priorityClose)

/-- How BOOT_UV ends an open: with its off-mode undemoted, also one in END (R265, R274). A result that R277 ranks before BOOT_UV
stays. -/
def State.uvEnded (s : State) (p : Pulse) (alone : Bool) : Pulse :=
  let m := if p.endSlow then .clamp else offMode p.phaseMode
  let dem := !alone && m != .slow
  let cl := m == .fast && decide (32000 ≤ s.nrg.vres.toNat)
  { p with phase := .ending, early := if p.early = some 8 then p.early else some 10,
           decay := if dem then .slow else if cl then .clamp else m, demoted := p.demoted || dem }

/-- Every open running on a treadle ends with BOOT_UV, together, and a priority close is issued for each valve (R265). DESIGN
CHOICE (log 70): an open already in END counts as running. -/
def State.bootUv (s : State) (t : Fin 3) : State :=
  let hit := (s.drv.trd.get t).runs.filter fun p => !p.prof.closes && !p.off
  let alone := (s.drv.trd.get t).runs.all fun p => !p.prof.closes && !p.off
  let vs := hit.map Pulse.valve
  let s := hit.foldl (fun s p => (s.phaseMeasured p).modDrv fun d =>
    (d.modPulse p.valve fun q => s.uvEnded q alone).setVs p.valve .moving) s
  let s := s.modDrv fun d => d.modTrd t fun x => { x with refFail := 0 }
  if vs.isEmpty then s
  else vs.foldl (fun s v => s.priorityClose v) (s.drvFault 4 vs)

/-! ## The sequencer's closes (R91, R92, R101, R103) -/

/-- The sequencer may start the close of its next valve now: the rules of R244 and R80 hold, and nothing blocks the
treadle (R92, R247, R276). -/
def State.seqReady (s : State) : Option (Fin 24) :=
  if s.drv.seqMode = .idle ∨ s.drv.seqRun.isSome then none
  else match s.drv.seqValve with
    | none => none
    | some v =>
      let p := s.nodeClose v
      let t := treadleOf v
      if s.drv.blocked t then none
      else if s.drv.held t then (if (s.drv.pulseOf v).isNone then some v else none)
      else if (s.drv.pulseOf v).isNone && s.drv.overlapOk v p && s.admits p v then some v
      else none

/-- The sequencer starts its next close; on a HELD treadle it is a release (R236, R247). -/
def State.seqClose (s : State) (v : Fin 24) : State :=
  let t := treadleOf v
  let n : BitVec 4 := BitVec.ofNat 4 (s.closeP t)
  if s.drv.held t then
    match s.drv.pulseOf v with
    | none => ((s.release v n).seqStep v).seqFinish
    | some _ => s.release v n
  else
    let e := { newEntry v n .head .sequencer with retry := s.drv.seqRetry == some v }
    let s := s.modDrv fun d => { d with seqRun := some v, seqRetry := none }
    s.startPulse t e true

/-- The cold close begins at handover if COLDCLOSE is 1 (R101). -/
def State.coldClose (s : State) : State :=
  if bit s.drv.ctl 0 ∧ s.nrgx.laState = .idle then
    (s.modDrv fun d => { d with seqMode := .cold, seqNext := 0, seqRun := none, seqOver := false, seqRetry := none }).seqFinish
  else s

/-- A write of COLDCLOSE = 0 during the cold close stops further closes; the running one ends normally (R101). -/
def State.stopCold (s : State) : State :=
  if s.drv.seqMode = .cold ∧ !bit s.drv.ctl 0 then (s.modDrv fun d => { d with seqNext := 24 }).seqFinish else s

/-- What LASTACT does in the DMI: manual mode and tests end, running opens are cancelled, every queued command ends with
ABORTED_LASTACT, and the sequencer starts from V0, after the cold close's close that runs has ended (R91, R103, R261, R282). -/
def State.drvLastAct (s : State) : State :=
  let s := s.modDrv fun d => (d.abortTest)
  let s := s.modDrv fun d => { d with manual := false, sw := 0 }
  let opens := s.drv.allRuns.filter fun p => !p.prof.closes
  let s := opens.foldl (fun s p => s.endEarly p.valve 4) s
  let s := (upTo 3).foldl (fun s t =>
    (s.drv.trd.get t).queue.foldl (fun s e => s.endEntry t e 4) s) s
  let s := s.dropRetry
  (s.modDrv fun d => { d with seqMode := .last, seqNext := 0, seqOver := d.seqRun.isSome }).seqFinish

end Sys2Proof.Machine
end

