-- ==== Sys2Proof/Machine/NrgOps.lean ====
section
/-!
DEFINITION. The energy manager's operations: chemistry thresholds, the charger, the cell switch, the sources, the boost,
the boundary of domain NRG, arming and firing of the last act, and the NRG registers (02, 03).
-/

namespace Sys2Proof.Machine

/-! ## Chemistry (R58, R59) -/

/-- NRG_PROT.CHEM: 0 Li-ion, 1 LiFePO4, 2 thin-film LiPON, 3 unset. -/
def Nrg.chem (n : Nrg) : Nat := fld n.protReg 0 2

def Nrg.chemSet (n : Nrg) : Bool := n.chem != 3

/-- Charge voltage V_CHG, mV. -/
def Nrg.vchg (n : Nrg) : Nat :=
  (if n.chem = 1 then 3600 else if n.chem = 2 then 4100 else 4200) - 50 * fld n.chgReg 24 2

def Nrg.preMv (n : Nrg) : Nat := if n.chem = 1 then 2600 else 3000

def Nrg.ovMv (n : Nrg) : Nat := if n.chem = 1 then 3750 else if n.chem = 2 then 4200 else 4300

def Nrg.laDefault (n : Nrg) : Nat := if n.chem = 1 then 2950 else if n.chem = 2 then 3200 else 3300

/-- Under-voltage reconnect threshold; 2.75 V while CHEM is unset (R98). -/
def Nrg.reconnectMv (n : Nrg) : Nat := if n.chem = 1 ∨ n.chem = 3 then 2750 else 3150

/-- Under-voltage cut-off; 2.60 V while CHEM is unset (R58, R59). -/
def Nrg.uvMv (n : Nrg) : Nat := if n.chem = 1 ∨ n.chem = 3 then 2600 else 3000

/-- Charge current used, mA. -/
def Nrg.iUsed (n : Nrg) : Nat := let i := fld n.chgReg 0 9; if n.chem = 2 then min i 10 else i

/-- The charge current is halved: 0 to 10 degrees C, never for thin-film LiPON (R58). -/
def Nrg.half (n : Nrg) : Bool := n.chem != 2 && decide (0 ≤ n.tcell.toInt) && decide (n.tcell.toInt ≤ 40)

/-- The current that the charger is set to in this state, uA: in PRECHARGE ICHG / 10 and at least 1 mA, 1 mA below 2.0 V; in CC
and CV the current used, or half of it (R58, R60). -/
def Nrg.chargeUa (n : Nrg) (c : Chg) : Nat :=
  match c with
  | .precharge => if n.vcell.toNat < 2000 then 1000 else max 1000 (fld n.chgReg 0 9 * 100)
  | .cc | .cv => if n.half then n.iUsed * 500 else n.iUsed * 1000
  | _ => 0

/-- The cell temperature lies in the charge window; quarter degrees. -/
def Nrg.tempOk (n : Nrg) : Bool :=
  let t := n.tcell.toInt
  if n.chem = 2 then decide (-80 ≤ t) && decide (t ≤ 240) else decide (0 ≤ t) && decide (t ≤ 180)

/-- The last-act threshold in force (R90). -/
def State.laThresh (s : State) : Nat := if s.nrgx.thresh = 0 then s.nrg.laDefault else s.nrgx.thresh.toNat

/-! ## Events of the energy manager -/

/-- A source change: EVSRC sets, and ENERGY pends while EVSRCEN is 1. -/
def State.srcChange (s : State) : State :=
  let s := s.modNrg fun n => { n with evsrc := true }
  if bit s.nrg.ctl 4 then s.event 9 else s

def State.setPv (s : State) (b : Bool) : State :=
  if s.nrg.pvAct = b then s else (s.modNrg fun n => { n with pvAct := b }).srcChange

def State.setTeg (s : State) (b : Bool) : State :=
  if s.nrg.tegAct = b then s else (s.modNrg fun n => { n with tegAct := b }).srcChange

def State.setDc (s : State) (b : Bool) : State :=
  if s.nrg.dcPres = b then s else (s.modNrg fun n => { n with dcPres := b }).srcChange

def Chg.active : Chg → Bool
  | .precharge | .cc | .cv => true
  | _ => false

/-- The charger's next state; a change sets EVCHG, and ENERGY pends while EVCHGEN is 1 (R60). -/
def State.setChg (s : State) (c : Chg) : State :=
  if s.nrg.chg = c then s
  else
    let was := s.nrg.chg.active
    let s := s.modNrg fun n => { n with chg := c, evchg := true }
    let s := if bit s.nrg.ctl 5 then s.event 9 else s
    s.entered 0x42 none was c.active

/-! ## The panel, DC and TEG inputs (R44 to R57) -/

/-- The VPV converter switches: in either mode PVEN, in DC mode a supply, in panel mode no over-voltage and no operating point
below 2.0 V (R46, R48, R50, R52, R77). In panel mode it first switches when REF_OK sets (03, the cold-start timeline). -/
def State.pvRuns (s : State) : Bool :=
  bit s.nrg.ctl 0 && (if s.nrg.dcMode then s.nrg.dcPres && s.nrgx.dcRun
    else s.nrg.refOk && !s.nrg.pvov && !s.nrgx.pvLowOff)

def State.pvUpdate (s : State) : State := s.setPv s.pvRuns

def State.tegUpdate (s : State) : State :=
  s.setTeg (bit s.nrg.ctl 1 && s.nrgx.tegRun && !s.nrg.tegIdle)

/-- FOCV in the active copy: 0 disables it (R49). -/
def Nrg.period (n : Nrg) : Nat := fld n.focvAct 0 8

/-- An idle TEG converter restarts at a boundary after VTEG has reached 20 mV (R57). -/
def State.tegRestart (s : State) (teg20 : Bool) : State :=
  if s.nrg.tegIdle && (teg20 || s.nrgx.tegWatch) then
    ((s.modNrg fun n => { n with tegIdle := false }).modNrgx fun x => { x with tegWatch := false }).tegUpdate
  else s

/-- The boundary of domain NRG (R51, R55, R57, R211): an armed NRG_FOCV swaps, the panel sample starts unless PERIOD is 0 or the
node is in DC mode, and the controlled TEG converter starts its sample, an idle one again once VTEG has reached 20 mV
(`teg20`). -/
def State.nrgBoundary (s : State) (teg20 : Bool) : State :=
  let s :=
    if s.isArmed 7 then (s.disarm 7).modNrg fun n => { n with focvAct := n.focvSh }
    else s
  let panel := !s.nrg.dcMode && s.nrg.period != 0
  let s := s.modNrgx fun x => { x with
    pvSampling := panel, tegSampling := x.tegRun && bit s.nrg.ctl 1,
    pvTarget := if panel then x.pvTarget else x.vMpset * 256, pvLowOff := panel && x.pvLowOff }
  let s := if panel then s else s.modNrg fun n => { n with focvReg := false }
  (s.tegRestart teg20).pvUpdate

/-! ## The last act: arming and firing (R89 to R96) -/

/-- R89: the last act arms once CHEM is set and VCELL reads at or above the threshold + 100 mV. -/
def State.laArm (s : State) : State :=
  if s.nrgx.laState = .idle ∧ s.nrg.chemSet ∧ s.laThresh + 100 ≤ s.nrg.vcell.toNat then
    s.modNrgx fun x => { x with laArmed := true }
  else s

/-- One measurement counts toward R90. Four in a row stay counted: the last act has then fired. -/
def State.laCountOne (s : State) : State :=
  let low := decide (s.nrg.vcell.toNat < s.laThresh)
  s.modNrgx fun x => { x with
    lastLow := low,
    laCount := if x.laCount = 4 then 4 else if x.laArmed && low then x.laCount + 1 else 0 }

/-! ## The charger (R60, R61, R65) -/

/-- PRECHARGE or CC, by VCELL. -/
def Nrg.startChg (n : Nrg) : Chg := if n.vcell.toNat < n.preMv then .precharge else .cc

/-- The charger's rows, first that applies (R60). -/
def State.chgNext (s : State) (ma : Nat) (harvest : Bool) : Chg :=
  let n := s.nrg
  let v := n.vcell.toNat
  let off := !bit n.ctl 2 || !n.chemSet
  let hold := !n.tempOk || n.ntcflt
  let any (k : Chg) : Chg := if off then .off else if hold then .tempHold else if !harvest then .suspended else k
  match n.chg with
  | .off => if !off && harvest && n.refOk then n.startChg else .off
  | .precharge => any (if n.preMv + 100 ≤ v then .cc else .precharge)
  | .cc => any (if n.vchg ≤ v then .cv else .cc)
  | .cv => any (if ma * 100 < fld n.chgReg 16 4 * 5 * n.iUsed then .done else .cv)
  | .tempHold | .suspended => any n.startChg
  | .done => if off then .off else if v + 100 < n.vchg then .cc else .done
  | .fault => .fault

/-- One 64 ms cell measurement without the tempo correction (R60 to R65, R89, R90). OV_BLOCK begins at its threshold and lasts
until VCELL is below V_CHG, where charging resumes, DESIGN CHOICE (log 66). -/
def State.cellMeasure (s : State) (m : CellSample) : State :=
  let (tc, flt) : BitVec 10 × Bool :=
    match m.ntc with
    | .temp q => (BitVec.ofInt 10 (clampI (-512) 511 q), decide (q < -160) || decide (400 < q))
    | .openCircuit => (0x200, true)
    | .shorted => (0x1FF, true)
  let s := s.modNrg fun n => { n with tcell := tc, vcell := BitVec.ofNat 16 (min 65535 m.vcell), ntcflt := flt }
  let n := s.nrg
  let v := n.vcell.toNat
  let s := s.modNrgx fun x => { x with
    ovBlock := n.chemSet && (if n.ovMv ≤ v then true else if v < n.vchg then false else x.ovBlock) }
  let c := s.chgNext m.chargeMa m.harvest
  let s := s.modNrgx fun x => { x with chgTimer := c.active, chgUa := if x.ovBlock then 0 else n.chargeUa c }
  let s := s.setChg c
  (s.laCountOne.laArm).boostCheck

/-! ## EUSE and the reserve (R72, R87) -/

/-- Usable energy in mJ from VRES in mV (02): 1/2 C (VRES^2 - FLOOR^2), 0 at or below the floor. -/
def euseOf (resctl : Word) (vres : Nat) : Nat :=
  let f := fld resctl 9 9 * 100
  fld resctl 18 8 * (vres * vres - f * f) / 20000000

/-- The 1 ms update of EUSE, VRES, ERES and the reserve-low condition (R87). -/
def State.euseTick (s : State) (vres : Nat) : State :=
  let e := min 0xFFFF (euseOf s.nrg.resctl vres)
  let s := s.modNrg fun n => { n with euse := BitVec.ofNat 16 e, vres := BitVec.ofNat 16 (min 0xFFFF vres) }
  let er := s.eReserve none
  let low := decide (4000 * e < er + s.eCommitted)
  let was := s.nrg.resLow
  let s := s.modNrg fun n => { n with eres := BitVec.ofNat 16 (min 0xFFFF (er / 4000)), resLow := low }
  if low && !was then
    let s := s.modNrg fun n => { n with evres := true }
    if bit s.nrg.ctl 6 then s.event 9 else s
  else s

/-! ## NRG registers (02, 03) -/

def chgCode : Chg → Nat
  | .off => 0
  | .precharge => 1
  | .cc => 2
  | .cv => 3
  | .done => 4
  | .tempHold => 5
  | .fault => 6
  | .suspended => 7

/-- NRG_STAT.PROT. An open cell switch is shown before OV_BLOCK, DESIGN CHOICE (log 66): the spec does not rank them. -/
def NrgAux.prot (x : NrgAux) : Nat :=
  match x.cellSw with
  | .uvOpen => 1
  | .ocRetry => 2
  | .ocLatched => 3
  | _ => if x.ovBlock then 4 else 0

def laCode : LaState → Nat
  | .idle => 0
  | .closing => 1
  | .commitWait => 2
  | .cutoff => 3

/-- NRG_STAT.RESRDY: VRES >= VRES_SET - 0.5 V (R72). -/
def Nrg.resRdy (n : Nrg) : Bool := decide (fld n.resctl 0 9 * 100 ≤ n.vres.toNat + 500)

def State.nrgStat (s : State) : Word :=
  let n := s.nrg
  placeB (s.isArmed 7) 21 ||| placeB n.refOk 20 ||| placeB n.svcref 19 ||| placeB n.evres 18 ||| placeB n.evchg 17 |||
    placeB n.evsrc 16 ||| place s.nrgx.prot 13 ||| placeB n.ntcflt 12 ||| place (chgCode n.chg) 9 |||
    placeB n.resRdy 8 ||| placeB n.mpsOpen 7 ||| placeB n.dcMode 6 ||| placeB n.dcPres 5 ||| placeB n.tegIdle 4 |||
    placeB n.tegAct 3 ||| placeB n.pvov 2 ||| placeB n.pvAct 1 ||| placeB n.focvReg 0

/-- Reads of the NRG block: `none` is an unmapped offset. -/
def State.nrgRead (s : State) (off : Nat) : Option Word :=
  let n := s.nrg
  match off with
  | 0x00 => some s.nrgStat
  | 0x04 => some n.ctl
  | 0x08 => some n.focvSh
  | 0x0C => some (place n.tegVoc.toNat 16 ||| place n.pvVoc.toNat 0)
  | 0x10 => some n.chgReg
  | 0x14 => some (place n.tcell.toNat 16 ||| place n.vcell.toNat 0)
  | 0x18 => some n.protReg
  | 0x1C => some n.resctl
  | 0x20 => some (place n.euse.toNat 16 ||| place n.vres.toNat 0)
  | 0x24 => some (place n.eres.toNat 16 ||| (n.reserve &&& 0xFFF0) ||| placeB n.resLow 0)
  | 0x28 => some (place (laCode s.nrgx.laState) 18 ||| placeB s.nrgx.laArmed 17 ||| place s.nrgx.thresh.toNat 0)
  | _ => none

/-- The check before a write to the NRG block is posted: its cause, 0 to accept (R10, R12, R18, R76, R213). -/
def State.nrgCheck (s : State) (off : Nat) (v : Word) : Nat :=
  let in_ (lo n a b : Nat) : Bool := decide (a ≤ fld v lo n) && decide (fld v lo n ≤ b)
  match off with
  | 0x00 => if fld v 22 10 = 0 then 0 else 3
  | 0x04 => if fld v 9 23 = 0 then 0 else 3
  | 0x08 => if fld v 16 16 ≠ 0 ∨ !in_ 8 8 154 230 then 3 else if s.isArmed 7 then 5 else 0
  | 0x0C | 0x14 | 0x20 => 4
  | 0x10 => if fld v 26 6 = 0 ∧ fld v 9 7 = 0 ∧ in_ 16 4 1 4 ∧ in_ 0 9 1 500 then 0 else 3
  | 0x18 => if fld v 8 24 = 0 ∧ fld v 2 2 = 0 ∧ in_ 4 4 0 10 then 0 else 3
  | 0x1C =>
    if fld v 30 2 = 0 ∧ in_ 26 4 2 12 ∧ in_ 18 8 22 220 ∧ in_ 0 9 90 280 ∧ 90 ≤ fld v 9 9 ∧ fld v 9 9 ≤ fld v 0 9 then 0
    else 3
  | 0x24 => if fld v 1 3 = 0 then 0 else 3
  | 0x28 =>
    let t := fld v 0 16
    if fld v 20 12 ≠ 0 ∨ bit v 16 then 3
    else if t = 0 then 0
    else if !s.nrg.chemSet ∨ t ≤ s.nrg.reconnectMv ∨ s.nrg.vchg - 100 ≤ t then 3
    else 0
  | _ => 1

/-- Entry into ship mode (R75): tempo, the radio and the engine stop and SRAM is lost. -/
def State.enterShip (s : State) : State :=
  let s := s.setCells (s.mem.cells.filter fun c => !inSram c.1)
  { s with
    sys := { s.sys with power := .ship, wdogStopped := true, xoRun := false, runDmi := false, runRad := false },
    tmp := { s.tmp with counting := false }, rad := { s.rad with state := .off },
    mem := { s.mem with ecc := s.mem.ecc.filter fun p => !inSram p.1, wbuf := [] } }

/-- A completed write of NRG_CTL (R60, R70, R73, R75, R77). DESIGN CHOICE (log 66): a write of RESDISCH = 1 that finds the bit
at 1 sets it anew only if it was 0, so it keeps the bit and sets no SVCREF; and TEGEN set again makes the TEG converter deliver
at once at its old operating point. -/
def State.nrgCtlWrite (s : State) (v : Word) : State :=
  let quiet := s.drv.quiet
  let ship := bit v 7
  let dis := bit v 8 && !bit s.nrg.ctl 8
  let refused := (ship || dis) && !quiet
  let v' := v &&& 0x7F ||| placeB (bit v 8 && (bit s.nrg.ctl 8 || quiet)) 8
  let s := s.modNrg fun n => { n with ctl := v', svcref := n.svcref || refused }
  let s := s.modNrgx fun x => { x with sink := if bit v' 8 then x.sink || dis else false }
  let s := if s.nrg.chg = .fault ∧ !bit v' 2 then s.setChg .off else s
  let s := ((s.pvUpdate).tegUpdate).boostCheck
  if ship && quiet then s.enterShip else s

/-- A write to the NRG block completes: the cause of a refusal at completion, 0 if it took effect (R30, R76). -/
def State.nrgWrite (s : State) (off : Nat) (v : Word) : State × Nat :=
  match off with
  | 0x00 =>
    (s.modNrg fun n => { n with
      svcref := n.svcref && !bit v 19, evres := n.evres && !bit v 18, evchg := n.evchg && !bit v 17,
      evsrc := n.evsrc && !bit v 16 }, 0)
  | 0x04 => (s.nrgCtlWrite v, 0)
  | 0x08 => if s.isArmed 7 then (s, 5) else (s.modNrg fun n => { n with focvSh := v }, 0)
  | 0x10 => (s.modNrg fun n => { n with chgReg := v }, 0)
  | 0x18 =>
    if s.nrg.protDone then (s, 0)
    else (s.modNrg fun n => { n with protReg := v, protDone := true }, 0)
  | 0x1C => (s.modNrg fun n => { n with resctl := v }, 0)
  | 0x24 => (s.modNrg fun n => { n with reserve := v &&& 0xFFF0 }, 0)
  | 0x28 =>
    -- every write of THRESH restarts the count, also one of the value it has (log 66)
    let s := s.modNrgx fun x => { x with thresh := BitVec.ofNat 16 (fld v 0 16), laCount := 0 }
    (if s.nrgx.laArmed then s else s.laArm, 0)
  | _ => (s, 0)

end Sys2Proof.Machine
end

