-- ==== Sys2Proof/Machine/TmpOps.lean ====
section
/-!
DEFINITION. Tempo's operations: the phase accumulator, reads and captures, the discipline, time quality, and the TMP
registers (11).
-/

namespace Sys2Proof.Machine

def State.modTmp (s : State) (f : Tmp → Tmp) : State := { s with tmp := f s.tmp }

/-- One superframe of local time (R359, R363). -/
def superframe : Nat := 65536000

/-! ## The accumulator (R346, R353) -/

/-- RATE as a signed number. -/
def Tmp.rateI (t : Tmp) : Int := t.rate.toInt

/-- The temperature correction in force: 0 while EN is 0, ignored on the RC oscillator (R353, R369). -/
def Tmp.corrI (t : Tmp) : Int := if bit t.tcomp 31 && !t.xtfail then t.tempC else 0

/-- The total rate term X, limited to 400 ppm (R346). -/
def Tmp.x (t : Tmp) : Int := clampI (-1717987) 1717987 (t.rateI + t.corrI)

/-- The increment A of one XT32 period, units of 2^-37 tempo unit (R346). -/
def Tmp.inc (t : Tmp) : Nat := (15625 * ((2 ^ 32 : Int) + t.x)).toNat

/-- One XT32 edge (R346). -/
def Tmp.edge (t : Tmp) : Tmp :=
  if t.counting then
    let v := t.frac.toNat + t.inc
    { t with now := t.now + BitVec.ofNat 64 (v / 2 ^ 37), frac := BitVec.ofNat 37 v, phase := 0 }
  else t

/-- Whole tempo units from the latest XT32 edge to the `n`-th after it. -/
def Tmp.ahead (t : Tmp) (n : Nat) : Nat := (t.frac.toNat + n * t.inc) / 2 ^ 37

/-- The captured value of an event before the `n`-th XT32 edge from now, in tempo units after the latest edge: the count at
that edge less A x n_a / n_b, rounded to the nearest unit (R350). -/
def Tmp.captured (t : Tmp) (n : Nat) (r : Ring) : Nat :=
  (roundDiv (((t.ahead n * 2 ^ 37 * r.nb : Nat) : Int) - ((t.inc * r.na : Nat) : Int)) (2 ^ 37 * r.nb)).toNat

/-- A command acts at an instant inside the XT32 period under way; time does not run backwards (R345, R350). Before tempo
counts there is no edge to count from. -/
def State.atPhase (s : State) (r : Ring) : State :=
  s.modTmp fun t => { t with phase := max t.phase (if t.counting then t.captured 1 r else 0) }

/-- The local time at which the ring captures an event before the `n`-th XT32 edge from now, less a delay of OTP in ns, to the
nearest tempo unit (R350, R381, R536). -/
def State.captureLess (s : State) (n : Nat) (r : Ring) (dly : Word) : BitVec 64 :=
  s.tmp.now + BitVec.ofNat 64 (if s.tmp.counting then s.tmp.captured n r else 0) -
    BitVec.ofNat 64 (roundDiv ((16 * dly.toNat : Nat) : Int) 1000).toNat

/-- Plant time (R354). -/
def State.plant (s : State) : BitVec 64 := s.local + s.tmp.offs

/-- The 64 ms temperature correction (R353): `q` is the die temperature in quarter degrees. -/
def Tmp.compensate (t : Tmp) (q : Int) : Tmp :=
  let d := q - 4 * (fld t.tcomp 25 6 : Int)
  let b : Int := fld t.tcomp 15 10
  let on := bit t.tcomp 31
  { t with
    tempC := if on then roundDiv (-(b * d * d * 2 ^ 32)) 160000000000 else 0,
    corr := if on then BitVec.ofInt 12 (clampI (-2048) 2047 (roundDiv (-(b * d * d)) 16000)) else 0 }

/-! ## Time quality (R363, R364) -/

/-- The integer square root by binary digits, from bit `k` down. -/
def isqrtFrom : Nat → Nat → Nat → Nat
  | 0, _, r => r
  | k + 1, n, r => if (r + 2 ^ k) * (r + 2 ^ k) ≤ n then isqrtFrom k n (r + 2 ^ k) else isqrtFrom k n r

/-- The least r with r * r >= n. -/
def ceilSqrt (n : Nat) : Nat :=
  let r := isqrtFrom 32 n 0
  if r * r = n then r else r + 1

/-- ERR in units of 16 ns, rounded up, for the discipline in force (R363). -/
def Tmp.errOf (t : Tmp) : Nat :=
  let a := t.age.toNat
  if !t.sync then 0xFFF
  else if t.src = 0 then ceilDiv (ceilSqrt (t.parentErr ^ 2 + 9 * (66 ^ 2 + (30 * a) ^ 2)) + 7) 16
  else if t.src = 1 then ceilDiv (ceilSqrt (t.parentErr ^ 2 + (90 * a) ^ 2) + 50) 16
  else 0

/-- SYNC clears: DEPTH and ERR read unsynced. -/
def Tmp.unsync (t : Tmp) : Tmp := { t with sync := false, depth := 0xF, err := 0xFFF }

/-- ERR is recomputed; SYNC clears above 50 us with SRC MESH or CHAIN (R363, R364). -/
def Tmp.quality (t : Tmp) : Tmp :=
  let e := t.errOf
  if t.sync && (t.src = 0 || t.src = 1) && decide (50000 < 16 * e) then { t.unsync with disc := .freeRun }
  else { t with err := BitVec.ofNat 12 (min 0xFFF e) }

/-! ## The discipline (R359, R360) -/

/-- The signed difference of two 64-bit times. -/
def diff64 (a b : BitVec 64) : Int := (a - b).toInt

/-- The unlimited result of a rate update at gain 1 / `g` from the reference pair (R360). -/
def Tmp.rateFrom (t : Tmp) (p l : BitVec 64) (g : Nat) : Int :=
  let dl := diff64 l t.refL
  let dp := diff64 p t.refP
  if dl ≤ 0 then t.rateI
  else t.rateI + roundDiv (((2 ^ 32 : Int) + t.x) * (dp - dl)) (g * dl.toNat)

def rateOk (r : Int) : Bool := decide (-858993 ≤ r) && decide (r ≤ 858993)

/-- The candidate becomes the reference; AGE restarts, TRACE, DEPTH and ERR follow by time quality. -/
def Tmp.took (t : Tmp) (p l : BitVec 64) (depth : Nat) (trace : Bool) (perr : Nat) : Tmp :=
  let t := { t with refP := p, refL := l, age := 0, trace := trace, parentErr := perr, rejected := none,
                    depth := if t.sync then BitVec.ofNat 4 depth else 0xF }
  t.quality

/-- A candidate of SRC MESH or CHAIN: plant time `p` at local time `l`, with the sender's depth + 1, TRACE and ERR in ns
(R359); none is taken before tempo counts or while XTFAIL is 1 (R358, R369). Result: the new tempo and whether it was
accepted. The superframes between two candidates are those of the plant times that they carry (log 67). -/
def Tmp.candidate (t : Tmp) (p l : BitVec 64) (depth : Nat) (trace : Bool) (perr : Nat) : Tmp × Bool :=
  let e := diff64 p (l + t.offs)
  if !t.counting || t.xtfail then (t, false)
  else match t.disc with
  | .freeRun => (({ t with offs := p - l, disc := .first } : Tmp).took p l depth trace perr, true)
  | .first =>
    let dp := diff64 p t.refP
    let r := t.rateFrom p l 1
    if dp < superframe ∨ 16 * superframe < dp ∨ !rateOk r then
      (({ t with offs := p - l } : Tmp).took p l depth trace perr, true)
    else
      (({ t with rate := BitVec.ofInt 32 r, offs := t.offs + BitVec.ofInt 64 e, sync := true, disc := .locked } :
        Tmp).took p l depth trace perr, true)
  | .locked =>
    let near := decide (-64 ≤ e) && decide (e ≤ 64)
    let again := match t.rejected with
      | none => false
      | some r => decide (-64 ≤ e - r) && decide (e - r ≤ 64)
    if near || again then
      let r := clampI (-858993) 858993 (t.rateFrom p l 4)
      (({ t with rate := BitVec.ofInt 32 r, offs := t.offs + BitVec.ofInt 64 e } : Tmp).took p l depth trace perr, true)
    else ({ t with rejected := some e }, false)

/-- An accepted edge of GP0 under SRC PPS at local time `l` (R365). -/
def Tmp.ppsAt (t : Tmp) (l : BitVec 64) : Tmp :=
  let p0 := (l + t.offs).toNat
  let whole := (p0 + 8000000) / 16000000 * 16000000
  let p := BitVec.ofNat 64 whole
  let e : Int := (whole : Int) - p0
  let first (t : Tmp) : Tmp :=
    ({ t with offs := t.offs + BitVec.ofInt 64 e, ppsEdges := 1 } : Tmp).took p l 0 true 0
  if t.ppsEdges = 0 then first t
  else if !(decide (-8000 ≤ e) && decide (e ≤ 8000)) then t
  else if t.ppsEdges = 1 then
    let r := t.rateFrom p l 1
    if rateOk r then
      ({ t with rate := BitVec.ofInt 32 r, offs := t.offs + BitVec.ofInt 64 e, sync := true, ppsEdges := 2 } :
        Tmp).took p l 0 true 0
    else first t
  else
    let r := clampI (-858993) 858993 (t.rateFrom p l 4)
    ({ t with rate := BitVec.ofInt 32 r, offs := t.offs + BitVec.ofInt 64 e } : Tmp).took p l 0 true 0

/-- An edge of a pin is ignored less than 1 ms after the previous accepted one (R351). -/
def edgeTooSoon (last : Option (BitVec 64)) (l : BitVec 64) : Bool :=
  match last with
  | none => false
  | some a => decide (diff64 l a < 16000)

/-! ## TMP registers -/

/-- A change of SRC (R357). -/
def Tmp.setSrc (t : Tmp) (src : Nat) : Tmp :=
  if t.src.toNat = src then t
  else { t.unsync with src := BitVec.ofNat 2 src, trace := false, disc := .freeRun, ppsEdges := 0, rejected := none }

def Tmp.qual (t : Tmp) : Word :=
  placeB t.sync 31 ||| placeB t.trace 30 ||| place t.src.toNat 28 ||| place t.depth.toNat 24 ||| placeB t.marm 23 |||
    placeB t.xtfail 22 ||| place t.age.toNat 12 ||| place t.err.toNat 0

/-- The index of an initiator's latches (R347). -/
def initIdx (i : Initiator) : Fin 6 :=
  match i with
  | .shuttle s => ⟨s.val, by omega⟩
  | .debug => 4
  | .chain => 5

/-- Reads of the TMP block; those of the low words latch the high word for the initiator (R347, R348). -/
def State.tmpRead (s : State) (i : Initiator) (off : Nat) : Option (State × Word) :=
  let t := s.tmp
  match off with
  | 0x00 =>
    let n := s.local
    some (s.modTmp fun t => { t with hiLatch := t.hiLatch.set (initIdx i) (n.extractLsb' 32 32) }, n.extractLsb' 0 32)
  | 0x04 => some (s, t.hiLatch.get (initIdx i))
  | 0x08 => some (s, t.rate)
  | 0x0C =>
    some (s.modTmp fun t => { t with offsLatch := t.offsLatch.set (initIdx i) (t.offs.extractLsb' 32 32) },
      t.offs.extractLsb' 0 32)
  | 0x10 => some (s, t.offsLatch.get (initIdx i))
  | 0x14 => some (s, t.qual)
  | 0x18 => some (s, t.tmatch)
  | 0x1C => some (s, (t.tcomp &&& 0xFFFF8000) ||| place t.corr.toNat 0)
  | _ => none

/-- The program may write the rate and the offset (R352, R355). -/
def Tmp.free (t : Tmp) : Bool := !t.sync || t.src == 3

/-- The check before a write to the TMP block is posted (R10, R12, R76, R352, R355). -/
def Tmp.check (t : Tmp) (off : Nat) (v : Word) : Nat :=
  match off with
  | 0x00 | 0x04 => 4
  | 0x08 => if !rateOk v.toInt then 3 else if t.free then 0 else 4
  | 0x0C | 0x10 => if t.free then 0 else 4
  | 0x14 | 0x18 => 0
  | 0x1C => if fld v 12 3 ≠ 0 ∨ 50 < fld v 25 6 then 3 else 0
  | _ => 1

/-- A write to the TMP block completes; a permission lost meanwhile refuses it with cause 4 (R76). -/
def Tmp.write (t : Tmp) (off : Nat) (v : Word) : Tmp × Nat :=
  match off with
  | 0x08 => if t.free then ({ t with rate := v }, 0) else (t, 4)
  | 0x0C => if t.free then ({ t with staged := v }, 0) else (t, 4)
  | 0x10 =>
    if t.free then
      let t := { t with offs := v ++ t.staged }
      (if t.src = 3 then { t with sync := true, depth := 0, trace := false, err := 0 } else t, 0)
    else (t, 4)
  | 0x14 =>
    let t := t.setSrc (fld v 28 2)
    (if bit v 23 then t else { t with marm := false }, 0)
  | 0x18 => ({ t with tmatch := v, marm := true }, 0)
  | 0x1C =>
    ({ t with tcomp := v &&& 0xFFFF8000, tempC := if bit v 31 then t.tempC else 0,
              corr := if bit v 31 then t.corr else 0 }, 0)
  | _ => (t, 0)

/-- The match fires at this edge (R367). -/
def Tmp.matches (t : Tmp) : Bool :=
  t.marm && t.counting && decide ((t.now.toNat + 2 ^ 32 - t.tmatch.toNat) % 2 ^ 32 < 2 ^ 31)

end Sys2Proof.Machine
end

