-- ==== Sys2Proof/Machine/PrsOps.lean ====
section
/-!
DEFINITION. Pressure lines, comparators, blanking and transient records: evaluation, latches, capture, and the PRS and CMP
registers (10).
-/

namespace Sys2Proof.Machine

/-! ## Superframes, as records and boundaries see them (R394, R520) -/

def Mac.mode (m : Mac) : Nat := fld m.ctl 0 2

/-- The current parent's link (R422). -/
def Mac.parentLink (m : Mac) : Option (Fin 16) :=
  (upTo 16).find? fun l => (m.links.get l).parent && (m.links.get l).state != .off

/-- The MAC runs superframes (R394). -/
def State.macRuns (s : State) : Bool :=
  s.mac.mode == 2 || (s.mac.mode == 1 && s.mac.parentLink.isSome && s.tmp.disc != .freeRun)

/-- The absolute slot number of plant time, 40 bits (R393). -/
def State.asn (s : State) : Nat := s.plant.toNat / 256000 % 2 ^ 40

/-- Slot number `a` comes after `b`, in the 40-bit numbers' cycle (R40, R393). -/
def asnAfter (a b : Nat) : Bool :=
  let d := (a + 2 ^ 40 - b) % 2 ^ 40
  decide (0 < d) && decide (d < 2 ^ 39)

/-- The slot under way: a backward step of plant time lengthens it, and no ASN comes again (R395). -/
def State.asnNow (s : State) : Nat := if asnAfter s.macx.slotAsn s.asn then s.macx.slotAsn else s.asn

/-- The superframe number that a node keeps: of its MAC, or of plant time at a member that is synced (R393, R520). -/
def State.sfn (s : State) : Option Word :=
  if s.macRuns then some (BitVec.ofNat 32 (s.asnNow / 256))
  else if s.lnk.valid && !s.lnk.head && s.tmp.sync then some (BitVec.ofNat 32 (s.plant.toNat / 65536000))
  else none

/-- The superframe number in progress at local time `at_`, at or shortly before this instant (R342): that of its plant time,
unless a backward step keeps the number of the slot under way (R395). -/
def State.sfnAt (s : State) (at_ : BitVec 64) : Option Word :=
  let plant := (at_ + s.tmp.offs).toNat
  s.sfn.map fun w => if s.macRuns && s.asnNow != s.asn then w else BitVec.ofNat 32 (plant / 65536000)

/-! ## Lines -/

def State.modPrs (s : State) (f : Prs → Prs) : State := { s with prs := f s.prs }

def State.prsLine (s : State) (n : Fin 3) : PrsLine := s.prs.line.get n

def State.modLine (s : State) (n : Fin 3) (f : PrsLine → PrsLine) : State :=
  s.modPrs fun p => { p with line := p.line.set n (f (p.line.get n)) }

def State.modCmp (s : State) (c : Fin 8) (f : Cmp → Cmp) : State :=
  s.modPrs fun p => { p with cmp := p.cmp.set c (f (p.cmp.get c)) }

/-- A line is armed: EN in the active copy, and its capture is not OFF (R323). -/
def PrsLine.armed (l : PrsLine) : Bool := bit l.ctlAct 31 && l.state != .off

/-- Pulsed excitation: the comparator of the line evaluates the held output at each sample (R322, R329). -/
def PrsLine.pulsed (l : PrsLine) : Bool := !bit l.ctlAct 28 && !bit l.ctlAct 29

def PrsLine.len (l : PrsLine) : Nat := fld l.buf 0 13
def PrsLine.pre (l : PrsLine) : Nat := fld l.ctlAct 15 8 * 16
def PrsLine.base (l : PrsLine) : Nat := 0x20000000 + 8 * fld l.buf 16 16
/-- Samples from the trigger on (R340). -/
def PrsLine.want (l : PrsLine) : Nat := l.len - l.pre

/-- VPn of a line's front end, in uV, for the differential voltage `d` of its pins (R319); one below 0 V reads as
0 V (R320), DESIGN CHOICE (log 69). -/
def PrsLine.vp (l : PrsLine) (d : Int) : Nat :=
  (if bit l.ctlAct 28 then d else 900000 + 2 ^ fld l.ctlAct 23 2 * d).toNat

/-- The ADC code of a front-end voltage in uV (R320). -/
def adcCode (uv : Nat) : BitVec 16 := BitVec.ofNat 16 (min 65535 ((2 * uv * 65536 + 1800000) / 3600000))

/-- All samples of the record are stored (R340). -/
def Record.done (r : Record) (l : PrsLine) : Bool := r.toff.isSome && decide (l.want ≤ r.npost)

/-! ## Comparators (R327 to R336) -/

def Cmp.mode (c : Cmp) : Nat := fld c.cfg 23 2
def Cmp.hys (c : Cmp) : Nat := fld c.cfg 19 4
def Cmp.tb (c : Cmp) : Nat := fld c.cfg 9 9
def Cmp.ta (c : Cmp) : Nat := fld c.cfg 0 9
def Cmp.srate (c : Cmp) : Nat := fld c.cfg 25 3
def Cmp.blanked (c : Cmp) : Bool := c.blDrv || c.blShot || c.blMatch

/-- The comparator starts anew: unsettled until its input has lain outside its bands (R330). -/
def Cmp.restart (c : Cmp) : Cmp := { c with begun := false, settled := false }

/-- Input `uv` lies inside the band of threshold `t` (R327, R328): a threshold step is 1.80 V / 512 and HYS counts half steps. -/
def inBand (uv t hys : Nat) : Bool :=
  !decide ((2 * t + hys) * 1800000 < uv * 1024) && !decide (uv * 1024 + hys * 1800000 < 2 * t * 1800000)

/-- The next state of one threshold: inside its band the old one, where there is one; otherwise the side the input lies on
(R328, R330). -/
def threshold (begun old swap : Bool) (uv t hys : Nat) : Bool :=
  if inBand uv t hys && begun then old else decide (2 * t * 1800000 < uv * 1024) != swap

/-- OUT by MODE (R328). -/
def outOf (mode : Nat) (sa sb : Bool) : Bool :=
  if mode = 0 then sb else if mode = 1 then !sa else if mode = 2 then !sa || sb else sa && !sb

/-- One evaluation of a comparator's input (R328, R330, R335). -/
def Cmp.eval (c : Cmp) (uv : Nat) : Cmp :=
  let t := c.test.toNat
  let x := if t = 2 then 300000 else if t = 3 then 1200000 else uv
  let sa := threshold c.begun c.sa (t == 1) x c.ta c.hys
  let sb := threshold c.begun c.sb (t == 1) x c.tb c.hys
  let outside := (c.mode = 0 || !inBand x c.ta c.hys) && (c.mode = 1 || !inBand x c.tb c.hys)
  { c with sa := sa, sb := sb, out := outOf c.mode sa sb, begun := true, settled := c.settled || outside }

/-- The comparator has its input (R327): CMP0 to CMP2 only while their line is armed or in a spot reading. -/
def State.cmpInput (s : State) (c : Fin 8) : Bool :=
  if h : c.val < 3 then (s.prsLine ⟨c.val, h⟩).armed || (s.prsLine ⟨c.val, h⟩).spot else true

def State.cmpActive (s : State) (c : Fin 8) : Bool := bit (s.prs.cmp.get c).cfg 31 && s.cmpInput c

/-- The comparator evaluates the samples of its pressure line (R329). -/
def State.cmpByLine (s : State) (c : Fin 8) : Bool :=
  if h : c.val < 3 then (s.prsLine ⟨c.val, h⟩).armed && (s.prsLine ⟨c.val, h⟩).pulsed else false

/-- The voltage at a comparator's input in uV, for `v` at its pins: VPn of a line, or the pin itself (R319, R327). -/
def State.cmpUv (s : State) (c : Fin 8) (v : Int) : Nat :=
  if h : c.val < 3 then (s.prsLine ⟨c.val, h⟩).vp v else v.toNat

/-- CMPn starts anew (R327, R330). -/
def State.cmpStart (s : State) (n : Fin 3) : State := s.modCmp ⟨n.val, by omega⟩ Cmp.restart

/-- CMPn's line gained or lost its input, or took other front-end settings that it evaluates by, since `old`: it starts anew
(R327, R330). -/
def State.cmpFollow (s : State) (n : Fin 3) (old : PrsLine) : State :=
  let l := s.prsLine n
  if (l.armed || l.spot) != (old.armed || old.spot) || (l.armed && old.armed && l.pulsed != old.pulsed) then s.cmpStart n
  else s

/-- The latch of a comparator sets (R331). -/
def State.latch (s : State) (c : Fin 8) : State :=
  let was := (s.prs.cmp.get c).latch
  let s := s.modCmp c fun x => { x with latch := true, recent := true }
  let s := if was then s else s.occur 0x40
  if bit (s.prs.cmp.get c).cfg 30 then s.event 8 else s

/-- A clear of a latch; one in the XT32 period of the transition leaves it set (R331, R146). -/
def Cmp.clear (c : Cmp) : Cmp := if c.recent then c else { c with latch := false }

/-- The latches with this LCLR clear (R331). -/
def State.latchPeriod (s : State) (lclr : Nat) (which : Fin 8 → Bool) : State :=
  s.modPrs fun p => { p with
      cmp := Vector.ofFn fun c =>
        let x := p.cmp.get c
        if fld x.cfg 28 2 == lclr && which c then x.clear else x }

/-! ## Capture (R337 to R342) -/

/-- The sample is stored once four have been gathered (R324). -/
def State.ringPut (s : State) (n : Fin 3) (v : BitVec 16) : State :=
  let l := s.prsLine n
  let acc := l.acc ++ [v]
  let i := l.stored % l.len
  let s := s.modLine n fun l => { l with stored := l.stored + 1, acc := if acc.length = 4 then [] else acc }
  if acc.length = 4 then
    let d : Nat := (acc.zipIdx).foldl (fun d p => d + p.1.toNat <<< (16 * p.2)) 0
    s.writeWord (l.base + 32 + 2 * (i / 4 * 4)) (BitVec.ofNat 64 d) 0xFF 0
  else s

/-- A partial word at the end of a capture (R340). -/
def State.ringFlush (s : State) (n : Fin 3) : State :=
  let l := s.prsLine n
  if l.acc.isEmpty then s
  else
    let i := (l.stored - l.acc.length) % l.len
    let d : Nat := (l.acc.zipIdx).foldl (fun d p => d + p.1.toNat <<< (16 * p.2)) 0
    let s := s.writeWord (l.base + 32 + 2 * (i / 4 * 4)) (BitVec.ofNat 64 d) (BitVec.ofNat 8 (2 ^ (2 * l.acc.length) - 1)) 0
    s.modLine n fun l => { l with acc := [] }

/-- The ring starts empty (R337). -/
def PrsLine.empty (l : PrsLine) : PrsLine := { l with stored := 0, acc := [], rec_ := none, lastAt := 0 }

/-- A trigger is accepted, or counted as missed (R338). `own`: own-source. `soft`: FORCE. `at_`: its instant in local time.
OWN's valve, QUAL and PLANT are those of the acceptance and SFN that of the stamp, DESIGN CHOICE (log 69). -/
def State.trigger (s : State) (n : Fin 3) (own soft sampled : Bool) (at_ : BitVec 64) : State :=
  let l := s.prsLine n
  match l.state with
  | .recording =>
    let plant := s.tmp.sync
    let valve := ((s.prs.wins.filter fun b => b.src == .drv && b.mask.getLsbD n.val).getLast?.map BlankWin.valve).getD 0xFF
    let w : Word := (if plant then at_ + s.tmp.offs else at_).extractLsb' 0 32
    let r : Record :=
      { own := own, plant := plant, sampled := sampled, soft := soft, overlap := false, stampW := w,
        sfn := (s.sfnAt at_).getD 0xFFFFFFFF, qual := s.tmp.qual, valve := if own then valve else 0xFF,
        at_ := at_.toNat, npre := min l.pre l.stored, npost := 0, toff := none }
    -- a sample already taken at or after the stamp is the trigger sample (R340)
    let r := if 0 < l.stored ∧ at_.toNat ≤ l.lastAt then
        { r with npre := min l.pre (l.stored - 1), npost := 1, toff := some (l.lastAt - at_.toNat) }
      else r
    (s.modLine n fun l => { l with state := .post, trg := true, stamp := w, rec_ := some r }).event 7
  | .post | .hold =>
    if soft then s
    else s.modLine n fun l => { l with
      missed := BitVec.ofNat 8 (incSat 255 l.missed.toNat),
      rec_ := if l.state = .post then l.rec_.map fun r => { r with overlap := true } else l.rec_ }
  | .off => s

/-- The header of a record (R342), as 32 bytes of a number. -/
def headerOf (n : Fin 3) (l : PrsLine) (r : Record) (trunc : Bool) (toff first lo hi : Nat) : Nat :=
  let flags := b2n r.own + 2 * b2n r.plant + 4 * b2n r.sampled + 8 * b2n r.soft + 16 * b2n trunc + 32 * b2n r.overlap
  0x01 + n.val <<< 8 + flags <<< 16 + (fld l.ctlAct 25 3) <<< 24 + r.stampW.toNat <<< 32 + r.sfn.toNat <<< 64 +
    r.qual.toNat <<< 96 + (r.npre % 65536) <<< 128 + (r.npost % 65536) <<< 144 + (toff % 65536) <<< 160 +
    r.valve.toNat <<< 176 + ((l.seq.toNat + 1) % 256) <<< 184 + (first % 65536) <<< 192 + l.len <<< 208 + lo <<< 224 +
    hi <<< 240

/-- A record ends: the partial word and the header are written, the line holds the record (R337, R340, R342). TOFF without a
trigger sample, and MIN and MAX of no samples, are free values. -/
def State.capEnd (s : State) (n : Fin 3) (trunc : Bool) : State :=
  match (s.prsLine n).rec_ with
  | none => s
  | some r =>
    let s := s.ringFlush n
    let l := s.prsLine n
    let first := (l.stored - r.npre - r.npost) % l.len
    let free := (Config.freeWord s.fresh).toNat
    let vs := (List.range (r.npre + r.npost)).map fun k => s.bytes (l.base + 32 + 2 * ((first + k) % l.len)) 2
    let lo := vs.foldl min (if vs.isEmpty then free % 65536 else 65535)
    let hi := vs.foldl max (if vs.isEmpty then (Config.freeWord (s.fresh + 1)).toNat % 65536 else 0)
    let h := headerOf n l r trunc (r.toff.getD ((Config.freeWord (s.fresh + 2)).toNat % 65536)) first lo hi
    let s := { s with fresh := s.fresh + 3 }
    let s := (List.range 4).foldl (fun s k =>
      s.writeWord (l.base + 8 * k) (BitVec.ofNat 64 (h >>> (64 * k))) 0xFF 0) s
    (s.modLine n fun l => { l with state := .hold, done := true, seq := l.seq + 1, rec_ := none }).event 7

/-- What the swap of EN and of the settings does to a line's capture (R337, R341). `old`: the line before. -/
def State.prsSwapAct (s : State) (n : Fin 3) (old : PrsLine) : State :=
  let l := s.prsLine n
  let en := bit l.ctlAct 31
  match old.state with
  | .off =>
    if !en then s
    else if l.len ≠ 0 ∧ l.pre < l.len then
      if s.prs.dead then s else s.modLine n fun l => { l.empty with state := .recording }
    else s.modLine n fun l => { l with cfgerr := true }
  | .recording =>
    if !en then s.modLine n fun l => { l with state := .off }
    else if (old.ctlAct ^^^ l.ctlAct) &&& 0x3FFF8000 ≠ 0 then s.modLine n PrsLine.empty
    else s
  | .hold => if en || s.prs.dead then s else s.modLine n fun l => { l with state := .off, ctlAct := l.ctlSh, ctlHeld := none }
  | .post => s

/-- The swap of a line's PRS domain (R211, R337, R341): while a record is held EN alone acts, and the other settings wait for
REL, DESIGN CHOICE (log 69) for EN. -/
def State.prsSwap (s : State) (n : Fin 3) : State :=
  if s.isArmed (4 + n.val) then
    let s := s.disarm (4 + n.val)
    let old := s.prsLine n
    let s := s.modLine n fun l =>
      if l.state = .hold then
        { l with ctlAct := (l.ctlAct &&& 0x7FFFFFFF) ||| (l.ctlSh &&& 0x80000000), ctlHeld := some l.ctlSh }
      else { l with ctlAct := l.ctlSh }
    (s.prsSwapAct n old).cmpFollow n old
  else s

/-- A held record is released, and the settings that waited for it apply (R337, R341). -/
def State.prsRelease (s : State) (n : Fin 3) : State :=
  let old := s.prsLine n
  if old.state = .hold ∧ !s.prs.dead then
    (s.modLine n fun l => { l.empty with
      state := .recording, ctlAct := l.ctlHeld.getD l.ctlAct, ctlHeld := none }).cmpFollow n old
  else s

/-- The record of a POST line is complete: it is written, and an armed domain swaps (R337, R341). -/
def State.prsComplete (s : State) (n : Fin 3) : State := (s.capEnd n false).prsSwap n

/-- LASTACT at a pressure line: it is idle from now on, and an armed domain swaps (R212, R337, R341). -/
def State.lineLastAct (s : State) (n : Fin 3) : State :=
  let old := s.prsLine n
  match old.state with
  | .recording => ((s.modLine n fun l => { l with state := .off }).cmpFollow n old).prsSwap n
  | .post => (s.capEnd n true).prsSwap n
  | _ => s

/-- LASTACT at the pressure lines (R337). -/
def State.prsLastAct (s : State) : State :=
  (upTo 3).foldl State.lineLastAct (s.modPrs fun p => { p with dead := true })

/-- The delay of CMPDLYn in OTP, tempo units, rounded to nearest (R339, R536). -/
def State.cmpDelay (s : State) (n : Fin 3) : Nat := (2 * s.bytes (0x40100030 + 4 * n.val) 4 * 16 + 1000) / 2000

/-! ## Transitions (R331, R333, R334) -/

/-- A definite change of a comparator's output reaches the latches, the captures and the pulse inputs. -/
def State.cmpChange (s : State) (c : Fin 8) (rise sampled : Bool) : State :=
  let x := s.prs.cmp.get c
  let stamp : BitVec 64 :=
    if h : c.val < 3 then (if sampled then s.local else s.local - BitVec.ofNat 64 (s.cmpDelay ⟨c.val, h⟩)) else s.local
  if !x.blanked then
    let s := s.modCmp c fun y => { y with seen := y.out }
    if rise then
      let s := s.latch c
      if h : c.val < 3 then s.trigger ⟨c.val, h⟩ false false sampled stamp else s
    else s
  else if rise && x.blDrv && !x.blShot && !x.blMatch then
    if h : c.val < 3 then
      if bit (s.prsLine ⟨c.val, h⟩).ctlAct 30 then s.trigger ⟨c.val, h⟩ true false sampled stamp else s
    else s
  else s

/-- One evaluation of comparator `c` (R328 to R336). -/
def State.cmpEval (s : State) (c : Fin 8) (v : Int) (sampled : Bool) : State :=
  let old := s.prs.cmp.get c
  let new := old.eval (s.cmpUv c v)
  let s := s.modCmp c fun _ => new
  if new.test ≠ 0 then s
  else if !old.settled then (if new.settled then s.modCmp c fun y => { y with seen := y.out } else s)
  else if old.out = new.out then s
  else s.cmpChange c new.out sampled

/-- A source blanks the comparator, or no longer does (R332). -/
def Cmp.setBlank (x : Cmp) (src : BlankSource) (b : Bool) : Cmp :=
  match src with
  | .drv => { x with blDrv := b }
  | .shot => { x with blShot := b }
  | .tmpMatch => { x with blMatch := b }

/-- Comparator `c` has lost a blanking window of this source: it stays blanked while another covers it; otherwise a held
difference is released as a transition, never as a trigger (R332, R333). -/
def State.unblank (s : State) (src : BlankSource) (c : Fin 8) : State :=
  let x := s.prs.cmp.get c
  let y := x.setBlank src (s.prs.wins.any fun w => w.src == src && w.mask.getLsbD c.val)
  let s := s.modCmp c fun _ => y
  if x.blanked && !y.blanked && y.settled && y.test == 0 && y.seen != y.out then
    let s := s.modCmp c fun z => { z with seen := z.out }
    if y.out then s.latch c else s
  else s

/-- The window of this source that ends next: a drive window waits for its pulse (R332). -/
def Prs.nextWin (p : Prs) (src : BlankSource) : Option BlankWin :=
  (p.wins.filter fun w => w.src == src && w.due.isSome).foldl
    (fun a w => match a with
      | none => some w
      | some x => if w.due.getD 0 < x.due.getD 0 then some w else some x) none

/-- The next window of this source ends (R332, R333). -/
def State.blankEnd (s : State) (src : BlankSource) : State :=
  match s.prs.nextWin src with
  | none => s
  | some w => (upTo 8).foldl (fun s c => s.unblank src c) (s.modPrs fun p => { p with wins := p.wins.erase w })

/-- A blanking window of a shot or of a TMP_MATCH starts, with `tail` tempo units to its end (R332). -/
def State.blankStart (s : State) (src : BlankSource) (tail : Nat) : State :=
  let lo := match src with
    | .drv => 0
    | .shot => 8
    | .tmpMatch => 16
  s.modPrs fun p => { p with
      cmp := Vector.ofFn fun c => if bit p.blank (lo + c.val) then (p.cmp.get c).setBlank src true else p.cmp.get c,
      wins := p.wins ++
        [{ src := src, mask := BitVec.ofNat 8 (fld p.blank lo 8), valve := 0, tail := tail, due := some (s.local.toNat + tail) }] }

/-- A pressure sample of an armed line (R320, R323, R324, R329, R340, R341). -/
def State.prsSample (s : State) (n : Fin 3) (uv : Int) : State :=
  let code := adcCode ((s.prsLine n).vp uv)
  let s := s.occur 0x3A
  let s := s.modLine n fun l => { l with val := code, valid := true }
  let c : Fin 8 := ⟨n.val, by omega⟩
  let s := if s.cmpByLine c && bit (s.prs.cmp.get c).cfg 31 then s.cmpEval c uv true else s
  let now := s.local.toNat
  match (s.prsLine n).state with
  | .recording =>
    let s := (s.ringPut n code).modLine n fun l => { l with lastAt := now }
    if (s.prsLine n).stored % 64 = 0 then s.prsSwap n else s
  | .post =>
    match (s.prsLine n).rec_ with
    | none => s
    | some r =>
      let l := s.prsLine n
      if r.done l then s
      else if r.toff.isNone ∧ now < r.at_ then
        -- taken before the stamp: still a pre-trigger sample
        (s.ringPut n code).modLine n fun l => { l with
          lastAt := now, rec_ := some { r with npre := min l.pre l.stored } }
      else
        let r := if r.toff.isNone then { r with npre := min l.pre l.stored, toff := some (now - r.at_) } else r
        (s.ringPut n code).modLine n fun l => { l with lastAt := now, rec_ := some { r with npost := r.npost + 1 } }
  | _ => s

/-! ## PRS registers -/

def capCode : CapState → Nat
  | .off => 0
  | .recording => 1
  | .post => 2
  | .hold => 3

def State.prsRead (s : State) (off : Nat) : Option Word :=
  match fin? 3 (off / 0x40) with
  | none => none
  | some n =>
    let l := s.prsLine n
    match off % 0x40 with
    | 0x00 => some l.ctlSh
    | 0x04 => some (placeB l.valid 16 ||| place l.val.toNat 0)
    | 0x08 => some (place l.missed.toNat 24 ||| placeB l.cfgerr 23 ||| place (capCode l.state) 21 |||
        placeB (s.isArmed (4 + n.val)) 20 ||| placeB l.sdone 7 ||| placeB l.done 6 ||| placeB l.trg 5 ||| placeB l.spot 2)
    | 0x0C => some l.stamp
    | 0x10 => some l.buf
    | _ => none

/-- The region of a line's ring: its first byte and its size. -/
def ringOf (buf : Word) : Nat × Nat := (0x20000000 + 8 * fld buf 16 16, 32 + 2 * fld buf 0 13)

/-- R344: the checks on a PRS_BUF write. -/
def State.bufOk (s : State) (n : Fin 3) (v : Word) : Bool :=
  let len := fld v 0 13
  let (b, z) := ringOf v
  (s.prsLine n).state == .off && fld v 13 3 == 0 &&
    (len == 0 || (decide (64 ≤ len) && decide (len ≤ 4096) && len % 64 == 0)) &&
    decide (b + z ≤ 0x20030000) &&
    (upTo 3).all fun m =>
      let (b2, z2) := ringOf (s.prsLine m).buf
      m == n || fld (s.prsLine m).buf 0 13 == 0 || decide (b + z ≤ b2) || decide (b2 + z2 ≤ b)

/-- A SPOT write (R326). -/
def State.spotStart (s : State) (n : Fin 3) : State :=
  let l := s.prsLine n
  if bit l.ctlAct 31 || l.spot then s else (s.modLine n fun l => { l with spot := true }).cmpFollow n l

/-- A FORCE write at the instant of the command (R338, R339). -/
def State.force (s : State) (n : Fin 3) : State :=
  if (s.prsLine n).state = .recording then s.trigger n false true false s.local else s

/-- Writes to the PRS block: the cause of a refusal, 0 if accepted. -/
def State.prsWrite (s : State) (off : Nat) (v : Word) : State × Nat :=
  match fin? 3 (off / 0x40) with
  | none => (s, 1)
  | some n =>
    match off % 0x40 with
    | 0x00 =>
      if fld v 0 15 ≠ 0 ∨ 4 < fld v 25 3 ∨ (bit v 28 ∧ fld v 23 2 ≠ 0) ∨ 128 < fld v 15 8 then (s, 3)
      else if s.isArmed (4 + n.val) then (s, 5)
      else (s.modLine n fun l => { l with ctlSh := v }, 0)
    | 0x04 | 0x0C => (s, 4)
    | 0x08 =>
      if fld v 8 12 ≠ 0 ∨ fld v 3 2 ≠ 0 then (s, 3)
      else
        let s := s.modLine n fun l => { l with
          missed := BitVec.ofNat 8 (fld v 24 8), cfgerr := l.cfgerr && !bit v 23, sdone := l.sdone && !bit v 7,
          done := l.done && !bit v 6, trg := l.trg && !bit v 5 }
        let s := if bit v 2 then s.spotStart n else s
        let s := if bit v 1 then s.prsRelease n else s
        (if bit v 0 then s.force n else s, 0)
    | 0x10 => if s.bufOk n v then (s.modLine n fun l => { l with buf := v }, 0) else (s, 3)
    | _ => (s, 1)

/-! ## CMP registers -/

/-- CMP_OUT; the live output of a comparator that has started and not yet sampled is a free value. -/
def State.cmpOut (s : State) : State × Word :=
  let free := (Config.freeWord s.fresh).toNat
  let w := (upTo 8).foldl (fun (w : Nat) (c : Fin 8) =>
    let x := s.prs.cmp.get c
    let en := bit x.cfg 31
    let out := en && (if x.begun then x.out else free.testBit c.val)
    w + (b2n out) <<< c.val + (b2n (!(s.cmpActive c && x.settled))) <<< (8 + c.val) +
      (b2n x.blanked) <<< (16 + c.val)) 0
  ({ s with fresh := s.fresh + 1 }, BitVec.ofNat 32 w)

def State.cmpRead (s : State) (off : Nat) : Option (State × Word) :=
  if off < 0x20 then (fin? 8 (off / 4)).map fun c => (s, (s.prs.cmp.get c).cfg)
  else match off with
    | 0x20 => some s.cmpOut
    | 0x24 => some (s, BitVec.ofNat 32 ((upTo 8).foldl (fun w c => w + (b2n (s.prs.cmp.get c).latch) <<< c.val) 0))
    | 0x28 => some (s, s.prs.blank)
    | 0x2C => some (s, BitVec.ofNat 32 ((upTo 8).foldl (fun w c => w + (s.prs.cmp.get c).test.toNat <<< (2 * c.val)) 0))
    | _ => none

/-- The check before a write to the CMP block is posted. -/
def cmpCheck (off : Nat) (v : Word) : Nat :=
  if off < 0x20 then
    let c := off / 4
    if bit v 18 ∨ fld v 25 3 = 6 ∨ (2 ≤ fld v 23 2 ∧ fld v 9 9 < fld v 0 9 + fld v 19 4 + 1) ∨
      (6 ≤ c ∧ fld v 28 2 = 2) then 3 else 0
  else match off with
    | 0x20 => 4
    | 0x24 => if fld v 8 24 = 0 then 0 else 3
    | 0x28 => if fld v 28 4 ≤ 15 then 0 else 3
    | 0x2C => if fld v 16 16 = 0 then 0 else 3
    | _ => 1

/-- A CMP_CFG write: a change of the comparison, or an enable, restarts the comparator (R330). -/
def Cmp.configure (c : Cmp) (v : Word) : Cmp :=
  let change := (c.cfg ^^^ v) &&& 0x8FFBFFFF ≠ 0
  let c' := { c with cfg := v }
  if change then c'.restart else c'

/-- A CMP_TEST write at one comparator: leaving a test restarts it (R335). -/
def Cmp.setTest (c : Cmp) (t : Nat) : Cmp :=
  let c' := { c with test := BitVec.ofNat 2 t }
  if c.test ≠ 0 ∧ t = 0 then c'.restart else c'

def State.cmpWrite (s : State) (off : Nat) (v : Word) : State :=
  if off < 0x20 then
    match fin? 8 (off / 4) with
    | none => s
    | some c => s.modCmp c fun x => x.configure v
  else match off with
    | 0x24 => s.modPrs fun p => { p with
      cmp := Vector.ofFn fun c =>
            if bit v c.val then (p.cmp.get c).clear else p.cmp.get c }
    | 0x28 => s.modPrs fun p => { p with blank := v }
    | 0x2C => s.modPrs fun p => { p with cmp := Vector.ofFn fun c => (p.cmp.get c).setTest (fld v (2 * c.val) 2) }
    | _ => s

end Sys2Proof.Machine
end

