-- ==== Sys2Proof/Machine/FlwOps.lean ====
section
/-!
DEFINITION. Ultrasonic flow and pulse metering: due measurements, shots, results, the zero, pulse inputs, and the FLW
registers and results table (09).
-/

namespace Sys2Proof.Machine

def State.modFlw (s : State) (f : Flw → Flw) : State := { s with flw := f s.flw }

def State.flow (s : State) (n : Fin 3) : FlowLine := s.flw.line.get n

def State.modFlow (s : State) (n : Fin 3) (f : FlowLine → FlowLine) : State :=
  s.modFlw fun w => { w with line := w.line.set n (f (w.line.get n)) }

def FlowLine.en (l : FlowLine) : Bool := bit l.ctlAct 31
def FlowLine.vexc (l : FlowLine) : Bool := bit l.ctlAct 30
def FlowLine.npulse (l : FlowLine) : Nat := fld l.ctlAct 25 5
/-- Shot pairs of a measurement, P. -/
def FlowLine.pairs (l : FlowLine) : Nat := fld l.ctlAct 15 6 + 1
def FlowLine.period (l : FlowLine) : Nat := fld l.ctlAct 0 8
def FlowLine.fdiv (l : FlowLine) : Nat := fld l.cfg0 24 8
def FlowLine.sint (l : FlowLine) : Nat := fld l.cfg0 0 16
def FlowLine.wclose (l : FlowLine) : Nat := fld l.cfg1 16 10
def FlowLine.wopen (l : FlowLine) : Nat := fld l.cfg1 0 10
def FlowLine.zsettle (l : FlowLine) : Nat := fld l.cfg4 24 8
def FlowLine.mask (l : FlowLine) : Nat := fld l.cfg4 0 24

/-! ## Due times (R293 to R296) -/

/-- The due time nearest to now on the line's grid (R293). -/
def FlowLine.gridTime (l : FlowLine) (now : Nat) : Nat :=
  let p := l.period * 2000000
  if p = 0 then now else l.ts + (2 * (now - l.ts) + p) / (2 * p) * p

/-- A due time of an enabled periodic line (R293). -/
def State.flowDue (s : State) (n : Fin 3) : State :=
  let now := s.local.toNat
  s.modFlow n fun l =>
    let l := { l with prewake := false }
    if l.meas || l.due then { l with skip := true }
    else { l with due := true, dueAt := l.gridTime now }

/-- A START request of an enabled line (R295): merged into a measurement that is due or runs. -/
def State.flowRequest (s : State) (n : Fin 3) : State :=
  let now := s.local.toNat
  s.modFlow n fun l =>
    if l.meas then l
    else if l.due then { l with start := true }
    else { l with due := true, start := true, dueAt := now }

/-- The swap of a line's FLW domain while the line is idle or at its posting (R211, R296). -/
def State.flowSwap (s : State) (n : Fin 3) : State :=
  if s.isArmed (1 + n.val) then
    let now := s.local.toNat
    (s.disarm (1 + n.val)).modFlow n fun l =>
      let en := bit l.ctlSh 31
      { l with ctlAct := l.ctlSh, ts := now, due := l.due && en, start := l.start && en, prewake := false }
  else s

/-- The due measurement that runs first: earliest due time, then line index (R294). -/
def Flw.first (w : Flw) : Option (Fin 3) :=
  (upTo 3).foldl (fun b n =>
    if (w.line.get n).due then
      match b with
      | none => some n
      | some m => if (w.line.get n).dueAt < (w.line.get m).dueAt then some n else b
    else b) none

/-- The flow meter needs the DMI: a measurement runs, is due, or soon will be, or a result has posted within the last 5 ms
(R127, R294, R307). -/
def State.flowWants (s : State) : Bool :=
  s.flw.meas.isSome || decide (s.local.toNat < s.flw.keep) ||
    (!s.flw.dead && (upTo 3).any fun n => (s.flow n).due || (s.flow n).prewake)

/-- A receive window is open, and HQUIET holds HOLD-phase on-times out of it (R300). -/
def State.holdQuiet (s : State) : Bool :=
  s.flw.quiet && decide (s.flw.winFrom ≤ s.local.toNat) && decide (s.local.toNat < s.flw.winTo)

/-- R305: the settings of a measurement are consistent. -/
def FlowLine.configOk (l : FlowLine) : Bool :=
  decide (l.wopen < l.wclose) && decide (l.wclose + 50 ≤ l.sint) && decide (l.npulse * l.fdiv ≤ 64 * l.wopen)

/-! ## From shots to a result (R299, R302 to R306) -/

/-- Why a shot is rejected, in the order of R299: 0 NOISE, 1 SAT, 2 NOSIG, 3 LATE; 4 for a valid shot. -/
def shotReason (o : Shot) : Nat :=
  if o.noise then 0 else if o.sat then 1 else if o.noSig then 2 else if o.late then 3 else 4

/-- The pairs of a measurement as (upstream, downstream), in order (R297). -/
def pairsOf : Nat → List Shot → List (Shot × Shot)
  | k, a :: b :: r => (if k % 2 = 0 then (b, a) else (a, b)) :: pairsOf (k + 1) r
  | _, _ => []

/-- The reason that rejects a pair: the earlier of its shots' (R299). -/
def pairReason (p : Shot × Shot) : Nat := min (shotReason p.1) (shotReason p.2)

def dtOf (p : Shot × Shot) : Int := (p.1.tof : Int) - p.2.tof

/-- Twice the pair's mean m_k. -/
def m2Of (p : Shot × Shot) : Int := (p.1.tof : Int) + p.2.tof

/-- Insertion by value, behind equal values. -/
def insBy (x : Int × Nat) : List (Int × Nat) → List (Int × Nat)
  | [] => [x]
  | y :: r => if y.1 ≤ x.1 then y :: insBy x r else x :: y :: r

/-- The place in the list of the element that gives the lower median (R302). -/
def medianAt (l : List Int) : Nat :=
  let a := (l.zipIdx).foldl (fun a x => insBy x a) []
  (nth (0, 0) a ((a.length - 1) / 2)).2

/-- The pairs that pass the slip check (R302). -/
def noSlip (fdiv : Nat) (ps : List (Shot × Shot)) : List (Shot × Shot) :=
  let ds := ps.map dtOf
  let ms := ps.map m2Of
  let i := medianAt ds
  let j := medianAt ms
  let d := nth 0 ds i
  let m := nth 0 ms j
  ((ps.zipIdx).filter fun p =>
    p.2 == i || p.2 == j ||
      (decide ((dtOf p.1 - d).natAbs ≤ 250 * fdiv) && decide ((m2Of p.1 - m).natAbs ≤ 500 * fdiv))).map Prod.fst

/-- A mean of naturals, rounded to nearest, halves up. -/
def meanUp (l : List Nat) : Nat := if l.isEmpty then 0 else (2 * l.sum + l.length) / (2 * l.length)

/-- Standard deviation of the differences, rounded, with n - 1 in the denominator (R303). -/
def sdevOf (l : List Int) : Nat :=
  let n := l.length
  if n < 2 then 0
  else
    let num := (n : Int) * (l.map fun x => x * x).sum - l.sum * l.sum
    min 0xFFFF ((isqrtFrom 48 (4 * num.toNat / (n * (n - 1))) 0 + 1) / 2)

/-- QUAL of a result without a valid pair: the reason that rejected most pairs, the lower value of equal ones (R304). -/
def worstOf (noSig sat late noise : Nat) : Nat :=
  let best := max (max noSig sat) (max late noise)
  if noSig = best then 2 else if sat = best then 3 else if late = best then 4 else 5

/-- SOS (R308); a value beyond 32 bits is open. -/
def sosOf (path toffs : Word) (up dn free : Nat) : Nat :=
  let d : Int := (up : Int) + dn - 2 * toffs.toNat
  if path = 0 ∨ d ≤ 0 then 0
  else
    let v := (4 * path.toNat * 64000000 + d.toNat) / (2 * d.toNat)
    if v < 2 ^ 32 then v else free

/-- A result posts (R306): `cut` is QUAL 6 or 7 of a measurement cut short or without shots. -/
def State.flowPost (s : State) (n : Fin 3) (m : FlowMeas) (cut : Option Nat) : State :=
  let l := s.flow n
  let ps := pairsOf 0 m.shots
  let ok := ps.filter fun p => pairReason p == 4
  let va := noSlip l.fdiv ok
  let cnt (r : Nat) : Nat := (ps.filter fun p => pairReason p == r).length
  let slip := ok.length - va.length
  let nv := va.length
  let sum := (va.map dtOf).sum
  let up := meanUp (va.map fun p => p.1.tof)
  let dn := meanUp (va.map fun p => p.2.tof)
  let raw : Int := if nv = 0 then 0 else roundDiv sum nv
  let qual : Nat := match cut with
    | some q => q
    | none =>
      if nv = 0 then worstOf (cnt 2) (cnt 1) (cnt 3) (cnt 0)
      else if ceilDiv l.pairs 2 ≤ nv then 0 else 1
  let learn := qual == 0 && m.zfirst && l.zcond
  let zk := if learn then l.zk + 1 else l.zk
  let z : Int := l.zero.toInt
  let z := if learn then z + roundDiv (raw - z) (min zk 16) else z
  let cap (k : Nat) : BitVec 6 := BitVec.ofNat 6 (min 63 k)
  let free := Config.freeWord s.fresh
  let res : FlowResult :=
    { dtsum := BitVec.ofInt 32 sum, nvalid := BitVec.ofNat 8 nv, nrej := BitVec.ofNat 8 (ps.length - nv),
      sdev := BitVec.ofNat 16 (sdevOf (va.map dtOf)), tofup := BitVec.ofNat 32 up, tofdn := BitVec.ofNat 32 dn,
      dtraw := if nv = 0 then 0x80000000 else BitVec.ofInt 32 raw,
      sos := if nv = 0 then 0 else BitVec.ofNat 32 (sosOf l.path l.toffs up dn (Config.freeWord (s.fresh + 1)).toNat),
      ampup := BitVec.ofNat 16 (meanUp (va.map fun p => p.1.amp)),
      ampdn := BitVec.ofNat 16 (meanUp (va.map fun p => p.2.amp)),
      rnoise := cap (cnt 0), rslip := cap slip, rlate := cap (cnt 3), rsat := cap (cnt 1), rnosig := cap (cnt 2),
      stamp := m.stamp.getD free, seq := l.res.seq + 1 }
  let s := { s with fresh := s.fresh + 2 }
  let s := s.count 0x39 none .occ (ps.length - nv)
  let s := s.modFlow n fun l =>
    { l with
      res := res, zero := BitVec.ofInt 32 z, zk := zk, zstate := if learn then .auto else l.zstate,
      dt := if nv = 0 then 0x80000000 else BitVec.ofInt 32 (clampI (-2147483648) 2147483647 (raw - z)),
      qual := BitVec.ofNat 3 qual, exclow := m.exclow, new := true, meas := false, start := false }
  let s := s.modFlw fun w => { w with meas := none, keep := s.local.toNat + 80000 }
  let s := s.event 6
  let s := s.latchPeriod 2 fun c => c.val == n.val || c.val == 3 + n.val
  s.flowSwap n

/-- The earliest due measurement starts; one whose settings fail R305 posts at once (R294, R301, R305). -/
def State.flowStart (s : State) (n : Fin 3) : State :=
  let l := s.flow n
  let low := l.vexc && decide (s.nrg.vres.toNat < 11000)
  let m : FlowMeas :=
    { line := n, shots := [], vexc := l.vexc && !low, exclow := low, zfirst := false, stamp := none }
  let s := s.modFlow n fun l => { l with meas := true, due := false, start := false }
  let s := s.modFlw fun w => { w with meas := some m }
  let s := s.entered 0x3B none false true
  if l.configOk then s else s.flowPost n m (some 7)

/-- One shot: it is fired, opens its receive window, blanks the comparators, and is timed or rejected (R297 to R300, R332). -/
def State.flowShot (s : State) (m : FlowMeas) (o : Shot) : State :=
  let first := m.shots.isEmpty
  let l := s.flow m.line
  let now := s.local.toNat
  let m := { m with
    shots := m.shots ++ [o], stamp := if first then some (s.local.extractLsb' 0 32) else m.stamp,
    zfirst := if first then (s.flow m.line).zcond else m.zfirst }
  let s := s.modFlw fun w => { w with
    meas := some m, winFrom := now + 16 * l.wopen, winTo := now + 16 * l.wclose, quiet := w.hquiet }
  (s.occur 0x38).blankStart .shot 160

/-- LASTACT at the flow meter (R307). -/
def State.flowLastAct (s : State) : State :=
  let s := match s.flw.meas with
    | some m => s.flowPost m.line m (some 6)
    | none => s
  s.modFlw fun w => { w with dead := true }

/-! ## Pulse inputs (R313 to R317) -/

def FlowLine.pmode (l : FlowLine) : Nat := fld l.pcfg 0 2
def FlowLine.pedge (l : FlowLine) : Nat := fld l.pcfg 2 2
def FlowLine.deb (l : FlowLine) : Nat := fld l.pcfg 10 4

/-- One sample of this level enters the debounce: the new state, and the transition that it lets the counter count. A level
becomes definite at the DEB-th sample that agrees (R314), and a definite transition counts once its level has lasted DEB + 1
samples, as the level before it did (R315). -/
def PulseIn.step (p : PulseIn) (deb : Nat) (v : Bool) : PulseIn × Option Bool :=
  let n := if p.runLen ≠ 0 ∧ p.level = v then incSat 16 p.runLen else 1
  let p := { p with level := v, runLen := n }
  if n < deb then (p, none)
  else if !p.settled then ({ p with settled := true, definite := v, counted := v }, none)
  else
    let p := { p with definite := v }
    if n ≤ deb ∨ p.counted = v then (p, none) else ({ p with counted := v }, some v)

/-- EDGE selects this transition. -/
def edgeCounts (edge : Nat) (toActive : Bool) : Bool := edge == 2 || (edge == 0 && toActive) || (edge == 1 && !toActive)

/-- An increment of the pulse count; a wrap sets POVF (R317). -/
def State.pulseCount (s : State) (n : Fin 3) : State :=
  (s.modFlow n fun l => { l with pcnt := l.pcnt + 1, povf := l.povf || l.pcnt == 0xFFFFFFFF }).occur 0x41

/-- The level of an input sample: the contact of mode 1, or the comparator of mode 2, which gives none while it is inactive,
unsettled or under test (R313, R336). -/
def State.pulseLevel (s : State) (n : Fin 3) (p : PinSample) : Option Bool :=
  let l := s.flow n
  if l.pmode = 1 then
    match p with
    | .active => some true
    | .inactive => some false
    | .between => if l.pin.runLen = 0 then none else some l.pin.level
  else if l.pmode = 2 then
    let c : Fin 8 := ⟨3 + n.val, by omega⟩
    let x := s.prs.cmp.get c
    if s.cmpActive c && x.settled && x.test == 0 then some x.seen else none
  else none

def State.pulseSample (s : State) (n : Fin 3) (p : PinSample) : State :=
  match s.pulseLevel n p with
  | none => s
  | some v =>
    let l := s.flow n
    let (pin, tr) := l.pin.step l.deb v
    let s := s.modFlow n fun l => { l with pin := pin }
    match tr with
    | none => s
    | some a => if edgeCounts l.pedge a then s.pulseCount n else s

/-- A write of FLW_PCNTn (R317). -/
def State.pulseWrite (s : State) (n : Fin 3) (v : Word) : State := s.modFlow n fun l => { l with pcnt := v }

/-! ## FLW registers and the results table -/

def zCode : ZState → Nat
  | .unzeroed => 0
  | .auto => 1
  | .program => 2

def State.flowStat (s : State) (n : Fin 3) : Word :=
  let l := s.flow n
  placeB (s.isArmed (1 + n.val)) 19 ||| placeB l.meas 18 ||| placeB l.due 17 ||| placeB l.zcond 16 |||
    place (zCode l.zstate) 14 ||| place l.qual.toNat 11 ||| placeB l.exclow 10 ||| placeB l.new 9 ||| placeB l.skip 8 |||
    placeB l.povf 7 ||| placeB (l.pin.settled && l.pin.definite) 6 ||| placeB l.pin.settled 5

/-- Words of the results table (09). -/
def FlowLine.table (l : FlowLine) (off : Nat) : Word :=
  let r := l.res
  match off with
  | 0x00 => l.cfg0
  | 0x04 => l.cfg1
  | 0x08 => l.path
  | 0x0C => l.toffs
  | 0x10 => l.cfg4
  | 0x18 => r.dtsum
  | 0x1C => place r.nvalid.toNat 24 ||| place r.nrej.toNat 16 ||| place r.sdev.toNat 0
  | 0x20 => r.tofup
  | 0x24 => r.tofdn
  | 0x28 => r.dtraw
  | 0x2C => r.sos
  | 0x30 => place r.ampup.toNat 16 ||| place r.ampdn.toNat 0
  | 0x34 => place r.rnoise.toNat 24 ||| place r.rslip.toNat 18 ||| place r.rlate.toNat 12 ||| place r.rsat.toNat 6 |||
      place r.rnosig.toNat 0
  | 0x38 => r.stamp
  | 0x3C => r.seq
  | _ => 0

def State.flwRead (s : State) (off : Nat) : Option Word :=
  if off = 0x100 then
    some (placeB s.flw.hquiet 3 ||| place ((upTo 3).foldl (fun v n => v + (b2n (s.flow n).start) <<< n.val) 0) 0)
  else if 0x800 ≤ off ∧ off < 0x900 then
    match fin? 3 ((off - 0x800) / 0x40) with
    | none => some 0
    | some n => some ((s.flow n).table ((off - 0x800) % 0x40))
  else
    match fin? 3 (off / 0x40) with
    | none => none
    | some n =>
      let l := s.flow n
      match off % 0x40 with
      | 0x00 => some l.ctlSh
      | 0x04 => some (s.flowStat n)
      | 0x08 => some l.dt
      | 0x0C => some l.zero
      | 0x10 => some l.pcnt
      | 0x14 => some l.pcfg
      | _ => none

/-- A write of FLW_ZEROn (R312). -/
def State.zeroWrite (s : State) (n : Fin 3) (v : Word) : State :=
  s.modFlow n fun l => { l with zero := v, zstate := .program, zk := if l.zcond then 16 else l.zk }

/-- A write of FLW_GCTL; START of a line that is not enabled gives cause 3 and writes nothing (R295). -/
def State.gctlWrite (s : State) (v : Word) : State × Nat :=
  if fld v 4 28 ≠ 0 ∨ (upTo 3).any (fun n => bit v n.val && !(s.flow n).en) then (s, 3)
  else
    let s := (upTo 3).foldl (fun s n => if bit v n.val then s.flowRequest n else s) s
    (s.modFlw fun w => { w with hquiet := bit v 3 }, 0)

/-- Writes to the configuration words of the results table (R318). -/
def State.tableWrite (s : State) (n : Fin 3) (off : Nat) (v : Word) : State × Nat :=
  if 0x18 ≤ off then (s, 4)
  else if (s.flow n).en ∨ off = 0x14 then (s, 3)
  else match off with
    | 0x00 =>
      if fld v 24 8 < 16 ∨ 128 < fld v 24 8 ∨ fld v 16 8 = 0 ∨ fld v 0 16 < 100 ∨ 10000 < fld v 0 16 then (s, 3)
      else (s.modFlow n fun l => { l with cfg0 := v }, 0)
    | 0x04 =>
      if fld v 26 6 ≠ 0 ∨ fld v 10 6 ≠ 0 ∨ fld v 16 10 < 10 ∨ fld v 0 10 = 1023 then (s, 3)
      else (s.modFlow n fun l => { l with cfg1 := v }, 0)
    | 0x08 => (s.modFlow n fun l => { l with path := v }, 0)
    | 0x0C => (s.modFlow n fun l => { l with toffs := v }, 0)
    | 0x10 => (s.modFlow n fun l => { l with cfg4 := v, zcond := l.zcond && l.cfg4 == v }, 0)
    | _ => (s, 3)

def State.flwWrite (s : State) (off : Nat) (v : Word) : State × Nat :=
  if off = 0x100 then s.gctlWrite v
  else if 0x800 ≤ off ∧ off < 0x900 then
    match fin? 3 ((off - 0x800) / 0x40) with
    | none => (s, 3)
    | some n => s.tableWrite n ((off - 0x800) % 0x40) v
  else
    match fin? 3 (off / 0x40) with
    | none => (s, 1)
    | some n =>
      match off % 0x40 with
      | 0x00 =>
        if fld v 8 2 ≠ 0 ∨ fld v 25 5 = 0 ∨ fld v 21 4 = 0 ∨ 22 < fld v 10 5 then (s, 3)
        else if s.isArmed (1 + n.val) then (s, 5)
        else (s.modFlow n fun l => { l with ctlSh := v }, 0)
      | 0x04 =>
        if fld v 20 12 ≠ 0 ∨ fld v 0 5 ≠ 0 then (s, 3)
        else (s.modFlow n fun l => { l with
          new := l.new && !bit v 9, skip := l.skip && !bit v 8, povf := l.povf && !bit v 7 }, 0)
      | 0x08 => (s, 4)
      | 0x0C => (s.zeroWrite n v, 0)
      | 0x10 => (s.pulseWrite n v, 0)
      | 0x14 =>
        if fld v 14 18 ≠ 0 ∨ bit v 7 ∨ fld v 10 4 = 0 ∨ 5 < fld v 4 3 ∨ fld v 2 2 = 3 ∨ fld v 0 2 = 3 then (s, 3)
        else (s.modFlow n fun l => { l with
          pcfg := v,
          pin := if l.pmode = fld v 0 2 then l.pin
            else { level := false, runLen := 0, settled := false, definite := false, counted := false } }, 0)
      | _ => (s, 1)

end Sys2Proof.Machine
end

