-- ==== Sys2Proof/Machine/SecOps.lean ====
section
/-!
DEFINITION. Security: OTP words, key slots and the key store, frame counters and frame protection, lifecycle and rollback
burns, authenticated debug, the ROM services, and the SEC registers (15).
-/

namespace Sys2Proof.Machine

def State.modSec (s : State) (f : Sec → Sec) : State := { s with sec := f s.sec }

def State.modSecx (s : State) (f : SecAux → SecAux) : State := { s with secx := f s.secx }

/-! ## OTP (R461 to R464, R537) -/

def otpBase : Nat := 0x40100000

/-- A word of OTP. -/
def State.otp (s : State) (off : Nat) : Word := s.word (otpBase + off)

/-- The node's EUI-64. -/
def State.eui (s : State) : Nat := s.bytes otpBase 8

def State.dbgLock (s : State) : Bool := s.lcfuse.testBit 8

/-- Rollback levels burnt (ROLLBACK). -/
def State.levels (s : State) : Nat := (setBits (s.otp 0x80).toNat 32).length

/-- The debug port may program this OTP word in this lifecycle state (R464); only listed words exist. -/
def otpMay (life off : Nat) : Bool :=
  let listed := decide (off < 0x1C) || (decide (0x20 ≤ off) && decide (off < 0x80)) ||
    (decide (0x100 ≤ off) && decide (off < 0x110))
  off % 4 == 0 && listed &&
    (life == 0 || (life == 1 && ((decide (0x14 ≤ off) && decide (off < 0x1C)) || (decide (0x60 ≤ off) && decide (off < 0x80)))))

/-- Programming of an OTP word: one that is programmed keeps its value (R461). -/
def State.otpProgram (s : State) (off : Nat) (v : Word) : State :=
  if otpMay s.lifecycle off ∧ s.otp off = 0 then s.poke (otpBase + off) 4 v.toNat else s

/-! ## Key slots and the key store (R465 to R470) -/

def State.slot (s : State) (k : Fin 16) : KeySlot := s.sec.slots.get k

def State.modSlot (s : State) (k : Fin 16) (f : KeySlot → KeySlot) : State :=
  s.modSec fun c => { c with slots := c.slots.set k (f (c.slots.get k)) }

def Sec.kbusy (c : Sec) : Bool := c.commit || c.commitNext

/-- A commit of the key store is requested (R467). -/
def State.keyCommit (s : State) : State :=
  s.modSec fun c => if c.commit then { c with commitNext := true } else { c with commit := true, image := c.slots }

/-- A commit ends (R467). -/
def State.keyCommitDone (s : State) (ok : Bool) : State :=
  let s := if ok then s.modSec fun c => { c with store := c.image }
    else (s.modSec fun c => { c with ksfail := true }).event 14
  s.modSec fun c =>
    if c.commitNext then { c with commitNext := false, image := c.slots } else { c with commit := false }

/-- The network slot that SEC_CTL.NETTX names, and the other one. -/
def Sec.netSlot (c : Sec) : Fin 16 := if c.nettx then 2 else 1
def Sec.otherNet (c : Sec) : Fin 16 := if c.nettx then 1 else 2

/-- The link slot bound to a neighbour: the lower-numbered of two (R470). -/
def Sec.linkSlot (c : Sec) (n : BitVec 5) : Option (Fin 16) :=
  (upTo 16).find? fun k => decide (3 ≤ k.val) && (c.slots.get k).valid && (c.slots.get k).bound == some n

def natBytes (l : List Byte) : List Nat := l.map BitVec.toNat

def keyBytes (k : KeySlot) : List Nat := bytesBE k.key.toNat 16

def State.kstat (s : State) (v : Nat) : State := s.modSec fun c => { c with kstat := BitVec.ofNat 3 v }

/-- A fresh key in a slot (R475). -/
def newKey (key : BitVec 128) (gen : BitVec 16) (bound : Option (BitVec 5)) : KeySlot :=
  { valid := true, key := key, gen := gen, bound := bound, fcnt := 0, ceiling := 4096 }

/-- What UNWRAP needs of a slot: not refused for being locked, busy, slot 0 or occupied. `some` is the KSTAT of a refusal. -/
def State.keyGate (s : State) : Option Nat :=
  if s.lifecycle = 3 then some 5 else if s.sec.kbusy then some 1 else none

/-- UNWRAP of the 32 bytes at `a` into a slot that is free for it (R469, R470). -/
def State.unwrapAt (s : State) (k : Fin 16) (a : Nat) : State :=
  let l := natBytes (s.byteList a 32)
  match kwUnwrap (keyBytes (s.slot 0)) (l.take 24) with
  | none => s.kstat 3
  | some key =>
    let gen : BitVec 16 := BitVec.ofNat 16 (ofLE ((l.drop 24).take 2))
    let o : Fin 16 := if k.val = 1 then 2 else 1
    if (s.slot 0).valid = false then s.kstat 3
    else if k.val < 3 ∧ (s.slot o).valid ∧ gen.toNat ≤ (s.slot o).gen.toNat then s.kstat 7
    else ((s.modSlot k fun _ => newKey (BitVec.ofNat 128 (ofBE key)) gen none).kstat 0).keyCommit

/-- UNWRAP (R469, R470). The buffer is read through its check bits (R199, R201); DESIGN CHOICE (log 66): an uncorrectable word in
it ends the operation with UNWRAP_FAIL. -/
def State.unwrap (s : State) (k : Fin 16) (buf : BitVec 15) : State :=
  let a := 0x20000000 + 8 * buf.toNat
  match s.keyGate with
  | some e => s.kstat e
  | none =>
    if k.val = 0 then s.kstat 4
    else if (s.slot k).valid then s.kstat 2
    else
      match s.readWords (s.errorWords a 32) with
      | (s, some _) => s.kstat 3
      | (s, none) => s.unwrapAt k a

/-- ERASE (R470). -/
def State.erase (s : State) (k : Fin 16) : State :=
  match s.keyGate with
  | some e => s.kstat e
  | none =>
    if k.val = 0 ∨ k = s.sec.netSlot then s.kstat 4
    else if !(s.slot k).valid then s.kstat 6
    else ((s.modSlot k fun _ => KeySlot.empty).kstat 0).keyCommit

/-- A neighbour's link-class window clears (R470). -/
def State.clearLinkWin (s : State) (n : BitVec 5) : State :=
  let x := s.mac.neighs.get n.toFin
  { s with mac := { s.mac with neighs := s.mac.neighs.set n.toFin { x with lhigh := 0, lwin := 0 } } }

/-- BIND (R470). -/
def State.bindKey (s : State) (k : Fin 16) (n : BitVec 5) : State :=
  match s.keyGate with
  | some e => s.kstat e
  | none =>
    if k.val < 3 then s.kstat 4
    else if !(s.slot k).valid then s.kstat 6
    else (((s.modSlot k fun x => { x with bound := some n }).clearLinkWin n).kstat 0).keyCommit

/-! ## Frame counters (R475 to R477) -/

/-- What becomes of a frame that needs a counter. -/
inductive Counter where
  | use (f : Word)
  /-- The counter waits for its ceiling to be committed (R475). -/
  | waits
  | exhausted
  deriving DecidableEq, Repr

/-- A frame takes the counter of a slot. -/
def State.takeCounter (s : State) (k : Fin 16) : State × Counter :=
  let x := s.slot k
  if x.fcnt = 0xFFFFFFFF then ((s.modSec fun c => { c with exh := true }).event 3, .exhausted)
  else if (s.sec.store.get k).ceiling.toNat ≤ x.fcnt.toNat then (s, .waits)
  else
    let n := x.fcnt + 1
    let s := s.modSlot k fun x => { x with fcnt := n }
    let s := if n = 0xFFFF0000 then (s.modSec fun c => { c with rekeyw := true }).event 3 else s
    let s := if x.ceiling.toNat ≤ n.toNat + 2048 ∧ x.ceiling ≠ 0xFFFFFFFF then
        (s.modSlot k fun x => { x with ceiling := BitVec.ofNat 32 (min 0xFFFFFFFF (x.ceiling.toNat + 4096)) }).keyCommit
      else s
    (s, .use x.fcnt)

/-! ## Frame protection (R437, R471 to R473) -/

/-- MIC octets of a security level (R431). -/
def micLen (lvl : Nat) : Nat := if lvl % 4 = 1 then 4 else if lvl % 4 = 2 then 8 else if lvl % 4 = 3 then 16 else 0

/-- The CCM* nonce (R472). -/
def nonceOf (eui : Nat) (fcnt : Word) (lvlOctet : Nat) : List Nat :=
  bytesBE eui 8 ++ bytesBE fcnt.toNat 4 ++ [lvlOctet]

/-- Body and MIC of a secured frame: levels 5 to 7 also encrypt (R431). -/
def protect (key : List Nat) (eui : Nat) (fcnt : Word) (lvlOctet : Nat) (auth body : List Nat) : List Nat :=
  let n := nonceOf eui fcnt lvlOctet
  let lvl := lvlOctet % 8
  (if 4 ≤ lvl then ctrText key n body else body) ++ ccmMic key n auth body (micLen lvl)

/-- The plain body of a secured frame, if its MIC holds. -/
def unprotect (key : List Nat) (eui : Nat) (fcnt : Word) (lvlOctet : Nat) (auth text : List Nat) : Option (List Nat) :=
  let n := nonceOf eui fcnt lvlOctet
  let lvl := lvlOctet % 8
  let m := micLen lvl
  let c := text.take (text.length - m)
  let body := if 4 ≤ lvl then ctrText key n c else c
  if ccmMic key n auth body m = text.drop (text.length - m) then some body else none

/-- The CRC-32 of a list of octets (R186 form 0b00, R371). -/
def crc32 (l : List Nat) : Nat := l.foldl (crcByte 0xEDB88320) 0xFFFFFFFF ^^^ 0xFFFFFFFF

/-! ## Lifecycle and rollback burns (R481, R484, R485) -/

/-- A request that meets a burn under way joins it. -/
def Burn.join (b : Burn) (o : Option Burn) : Burn :=
  match o with
  | none => b
  | some o => { b with bits := b.bits ||| o.bits, retire := b.retire || o.retire }

/-- A burn of LCFUSE bits begins, or nothing is to be burnt: the cause, and whether a burn runs. -/
def State.lifeWrite (s : State) (init : Initiator) (v : Word) : State × Nat :=
  if fld v 16 16 ≠ 0x1FE0 ∨ fld v 9 7 ≠ 0 ∨ bit v 7 ∨ fld v 2 2 ≠ 0 then (s, 3)
  else
    let st := s.lifecycle
    let req := fld v 4 2
    let lock := bit v 6
    let prog := decide (s.eui ≠ 0) && s.bytes (otpBase + 0x100) 16 != 0 && s.bytes (otpBase + 0x40) 32 != 0 &&
      bit (s.otp 0x08) 31
    let trans : Option Nat :=
      if req = st then some 0
      else if st = 0 ∧ req = 1 ∧ prog then some 1
      else if st = 1 ∧ req = 2 then some 2
      else if (st = 1 ∨ st = 2) ∧ req = 3 then some 4
      else none
    let lockBits : Option Nat :=
      if !lock || s.dbgLock then some 0 else if st = 1 ∨ st = 2 then some 0x100 else none
    match trans, lockBits with
    | some t, some d =>
      if t + d = 0 then (s, 0)
      else
        let b : Burn := { init := init, bits := BitVec.ofNat 32 (t + d), retire := t == 4 }
        (s.modSecx fun x => { x with burn := some (b.join x.burn) }, 0)
    | _, _ => (s, 3)

/-- The burn completes: the fuses read burnt, and retirement clears the keys (R484, R485). -/
def State.burnDone (s : State) (b : Burn) : State :=
  let s := s.poke (otpBase + 0x84) 4 (s.lcfuse ||| b.bits.toNat)
  let s := s.modSecx fun x => { x with burn := none }
  if b.retire then
    let none16 : Vector KeySlot 16 := Vector.replicate 16 KeySlot.empty
    s.modSec fun c => { c with slots := none16, store := none16, image := none16, commit := false, commitNext := false }
  else s

/-- A write of SEC_ROLLBACK.LEVEL: its cause, and the burn it starts (R481). -/
def State.rollbackWrite (s : State) (init : Initiator) (v : Word) : State × Nat :=
  let l := fld v 0 6
  if fld v 6 26 ≠ 0 ∨ 32 < l ∨ l < s.levels ∨ s.sec.bootLevel.toNat < l then (s, 3)
  else if s.lifecycle = 3 then (s, 6)
  else if l = s.levels then (s, 0)
  else (s.modSecx fun x => { x with rollback := some (l, init) }, 0)

/-- The burning of the levels below `l` completes. -/
def State.rollbackDone (s : State) (l : Nat) : State :=
  (s.poke (otpBase + 0x80) 4 ((s.otp 0x80).toNat ||| (2 ^ l - 1))).modSecx fun x => { x with rollback := none }

/-! ## Authenticated debug (R487) -/

/-- A failure: DBGST returns to IDLE, or REFUSED after the fourth. -/
def State.dbgFail (s : State) : State :=
  let n := s.secx.failures + 1
  let s := s.modSecx fun x => { x with failures := n, challenge := [], chalPos := 0, response := [] }
  s.modSec fun c => { c with dbgst := if 4 ≤ n then .refused else .idle }

/-- A write that asks for a challenge with this scope: its cause. -/
def State.dbgChallenge (s : State) (scope : BitVec 16) : State × Nat :=
  if s.sec.dbgst = .refused then (s, 6)
  else if s.sec.dbgst ≠ .idle then (s.dbgFail, 0)
  else if scope.toNat ≥ 16 then (s, 3)
  else if !s.sec.entok then (s, 6)
  else
    let ws := (List.range 8).map fun k => Config.entropy (s.fresh + k)
    let s := { s with fresh := s.fresh + 8 }
    let s := s.modSecx fun x => { x with challenge := ws, chalPos := 0, response := [], scopeReq := scope }
    (s.modSec fun c => { c with dbgst := .chal }, 0)

/-- A read of SEC_DBGAUTH by the debug port. -/
def State.dbgRead (s : State) : State × Word :=
  if s.sec.dbgst = .chal ∧ s.secx.chalPos < 8 then
    (s.modSecx fun x => { x with chalPos := x.chalPos + 1 }, nth 0 s.secx.challenge s.secx.chalPos)
  else if s.sec.dbgst = .refused then (s, 0)
  else (s.dbgFail, 0)

/-- A response word; the thirty-second starts the verification. -/
def State.dbgWord (s : State) (v : Word) : State :=
  if s.sec.dbgst = .chal ∧ s.secx.chalPos = 8 then
    let r := s.secx.response ++ [v]
    let s := s.modSecx fun x => { x with response := r }
    if r.length = 32 then s.modSec fun c => { c with dbgst := .verify } else s
  else if s.sec.dbgst = .refused then s
  else s.dbgFail

/-- A write of SEC_DBGAUTH by the debug port: a challenge request or a response word. -/
def State.dbgWrite (s : State) (v : Word) : State × Nat :=
  if s.sec.dbgst = .idle ∨ s.sec.dbgst = .refused then
    if fld v 16 16 = 0xD0C0 then s.dbgChallenge (v.extractLsb' 0 16)
    else if s.sec.dbgst = .refused then (s, 6) else (s.dbgFail, 0)
  else (s.dbgWord v, 0)

/-- The engine verifies (R487 step 4). -/
def State.dbgVerify (s : State) : State :=
  let r := s.secx.response.flatMap fun w => bytesBE w.toNat 4
  let key := r.take 64
  let msg := (s.secx.challenge.flatMap fun w => bytesLE w.toNat 4) ++ natBytes (s.byteList otpBase 8) ++
    bytesLE (0xD0C00000 + s.secx.scopeReq.toNat) 4
  let n (i : Nat) : Nat := ofBE ((r.drop (32 * i)).take 32)
  let ok := sha256 key == natBytes (s.byteList (otpBase + 0x60) 32) && ecdsaOk (ofBE (sha256 msg)) (n 0, n 1) (n 2) (n 3)
  if ok then
    let s := s.modSecx fun x => { x with challenge := [], chalPos := 0, response := [] }
    s.modSec fun c => { c with dbgst := .idle, dbgOpen := true, scope := BitVec.ofNat 4 s.secx.scopeReq.toNat }
  else s.dbgFail

/-- What the debug port reaches in FIELD with DBGLOCK 1 (R486, R487): `mem`, `wr` say what the access is. -/
def State.dbgMay (s : State) (addr : Nat) (wr : Bool) : Bool :=
  if s.lifecycle ≠ 2 ∨ !s.dbgLock then true
  else if addr = 0x40000000 ∨ addr = 0x4000000C ∨ addr = 0x4000B004 ∨ addr = 0x4000B018 then true
  else if !s.sec.dbgOpen then false
  else if inSram addr || inMram addr then (if wr then s.sec.scope.getLsbD 2 else s.sec.scope.getLsbD 1)
  else s.sec.scope.getLsbD 0

/-! ## SEC registers -/

def dbgCode : DbgSt → Nat
  | .idle => 0
  | .chal => 1
  | .verify => 2
  | .refused => 3

/-- SEC_STAT.CERT (R489). -/
def State.cert (s : State) : Bool :=
  let c := s.sec
  s.lifecycle == 2 && s.dbgLock && c.stok && c.entok && c.lock && (c.txlvl == 6 || c.txlvl == 7) &&
    (c.minlvl == 6 || c.minlvl == 7) && c.bootImg != 0 && !c.unsigned && s.levels == c.bootLevel.toNat

def State.secStat (s : State) : Word :=
  let c := s.sec
  place c.miccnt.toNat 24 ||| place c.stalecnt.toNat 16 ||| placeB s.cert 15 ||| placeB c.stok 14 ||| placeB c.entok 13 |||
    placeB c.ksfail 11 ||| placeB c.rekeyw 10 ||| placeB c.exh 9 ||| placeB c.lvlerr 8 ||| place (dbgCode c.dbgst) 6 |||
    place c.kstat.toNat 3 ||| placeB c.kbusy 2

/-- SEC_FCNT: the next counter of the selected slot; 0 for slot 0 and an empty slot. -/
def State.secFcnt (s : State) : Word :=
  let x := s.slot s.sec.selSlot
  if s.sec.selSlot.val = 0 ∨ !x.valid then 0 else x.fcnt

/-- A read of SEC_TRNG while ENTOK is 1 (R483). -/
def State.trng (s : State) : State × Word := ({ s with fresh := s.fresh + 1 }, Config.entropy s.fresh)

/-- A read of the SEC block: state, cause, value. -/
def State.secRead (s : State) (init : Initiator) (off : Nat) : State × Nat × Word :=
  let c := s.sec
  let k := s.slot c.selSlot
  match off with
  | 0x00 => (s, 0, placeB c.lock 31 ||| place c.minlvl.toNat 12 ||| place c.txlvl.toNat 8 ||| placeB c.nettx 0)
  | 0x04 => (s, 0, s.secStat)
  | 0x08 => (s, 0, place c.selBuf.toNat 14 ||| place (k.bound.getD 0).toNat 9 ||| placeB k.valid 8 |||
      place c.selSlot.val 4)
  | 0x0C => (s, 0, s.secFcnt)
  | 0x10 => (s, 0, place c.bootVer.toNat 17 ||| placeB c.unsigned 16 ||| place c.bootLevel.toNat 10 |||
      place c.bootImg.toNat 8 ||| place c.resA.toNat 4 ||| place c.resB.toNat 0)
  | 0x14 => (s, 0, place s.levels 0)
  | 0x18 =>
    if init = .debug then (let (s, v) := s.dbgRead; (s, 0, v)) else (s, 6, 0)
  | 0x1C => if c.entok then (let (s, v) := s.trng; (s, 0, v)) else (s, 6, 0)
  | _ => (s, 1, 0)

def lvlOk (l : Nat) : Bool := l != 0 && l != 4

/-- A write of SEC_CTL. -/
def State.secCtl (s : State) (v : Word) : State × Nat :=
  let c := s.sec
  let mi := fld v 12 3
  let tx := fld v 8 3
  let want : Fin 16 := if bit v 0 then 2 else 1
  if fld v 15 16 ≠ 0 ∨ bit v 11 ∨ fld v 1 7 ≠ 0 ∨ !lvlOk mi ∨ !lvlOk tx then (s, 3)
  else if !(s.slot want).valid then (s, 3)
  else if c.lock && (mi != c.minlvl.toNat || tx != c.txlvl.toNat) then (s, 3)
  else (s.modSec fun c => { c with
    lock := c.lock || bit v 31, minlvl := BitVec.ofNat 3 mi, txlvl := BitVec.ofNat 3 tx, nettx := bit v 0 }, 0)

/-- A write of SEC_KEYSEL (R470). -/
def State.keysel (s : State) (init : Initiator) (v : Word) : State × Nat :=
  let op := fld v 29 3
  if 3 < op ∨ 24572 < fld v 14 15 ∨ fld v 0 4 ≠ 0 then (s, 3)
  else if op ≠ 0 ∧ init = .debug ∧ s.lifecycle = 2 then (s, 6)
  else
    let k : Fin 16 := ⟨fld v 4 4, by unfold fld; exact Nat.mod_lt _ (by decide)⟩
    let n : BitVec 5 := BitVec.ofNat 5 (fld v 9 5)
    let b : BitVec 15 := BitVec.ofNat 15 (fld v 14 15)
    let s := s.modSec fun c => { c with selSlot := k, selNeigh := n, selBuf := b }
    if !s.sec.stok then (s, 0)
    else if op = 1 then (s.unwrap k b, 0)
    else if op = 2 then (s.erase k, 0)
    else if op = 3 then (s.bindKey k n, 0)
    else (s, 0)

/-- A write to the SEC block: state, cause. -/
def State.secWrite (s : State) (init : Initiator) (off : Nat) (v : Word) : State × Nat :=
  match off with
  | 0x00 => s.secCtl v
  | 0x04 =>
    if bit v 12 ∨ fld v 0 2 ≠ 0 then (s, 3)
    else (s.modSec fun c => { c with
      miccnt := BitVec.ofNat 8 (fld v 24 8), stalecnt := BitVec.ofNat 8 (fld v 16 8), ksfail := c.ksfail && !bit v 11,
      rekeyw := c.rekeyw && !bit v 10, exh := c.exh && !bit v 9, lvlerr := c.lvlerr && !bit v 8 }, 0)
  | 0x08 => s.keysel init v
  | 0x0C | 0x10 => (s, 4)
  | 0x14 => s.rollbackWrite init v
  | 0x18 => if init = .debug then s.dbgWrite v else (s, 6)
  | 0x1C => (s, 4)
  | _ => (s, 1)

/-! ## ROM services (R488) -/

/-- Registers `lo` to `lo + n - 1` take free values. -/
def State.scramble (s : State) (i : Fin 4) (lo n : Nat) : State :=
  let f := s.fresh
  (List.range n).foldl (fun s k => s.modSh i fun x => { x with
    w := x.w.set ((lo + k) % 16) (Config.freeWord (f + k)) (Nat.mod_lt _ (by decide)) }) { s with fresh := s.fresh + n }

/-- An exception within a service: the spec gives neither the address of the ROM's instruction nor the registers that the service
was using (R141, R488). -/
def State.serviceFault (s : State) (i : Fin 4) (exc addr : Word) : State :=
  let s := s.scramble i 1 7
  let pc := Config.freeWord s.fresh &&& 0x7FFC
  (({ s with fresh := s.fresh + 1 } : State).modSh i fun x => { x with pc := pc }).raise i exc addr

/-- The registers a service does not preserve take free values; the result goes to w1, and the caller goes on at its link
register w14, which the service reaches by a jump (04, R148, R150, R166, R488). -/
def State.serviceEnd (s : State) (i : Fin 4) (r : Word) : State :=
  let t := (s.sh i).w.get 14
  if t.toNat % 4 ≠ 0 then s.serviceFault i 6 t else ((s.scramble i 2 6).setReg i 1 r).jump i t 1

/-- A service whose result the spec leaves open: a free value. -/
def State.serviceOpen (s : State) (i : Fin 4) : State :=
  ({ s with fresh := s.fresh + 1 }).serviceEnd i (Config.freeWord s.fresh)

/-- Output octets of a service go to SRAM, a 64-bit word at a time. -/
def State.serviceOut (s : State) (a : Nat) (l : List Nat) : State :=
  if inSram a && inSram (a + l.length - 1) then
    (List.range (l.length / 8 + 2)).foldl (fun s k =>
      let lo := max a (a / 8 * 8 + 8 * k)
      let part := (l.drop (lo - a)).take (a / 8 * 8 + 8 * k + 8 - lo)
      if part.isEmpty then s else s.storeBytes lo part.length (BitVec.ofNat 64 (ofLE part)) 0 s.injFree) s
  else s

def State.memBytes (s : State) (a n : Nat) : List Nat := natBytes (s.byteList a n)

/-- A big-endian number of 32 octets in memory. -/
def State.mem256 (s : State) (a : Nat) : Nat := ofBE (s.memBytes a 32)

/-- A service reads its arguments, each an address and a length, through their check bits; the first uncorrectable word ends it
with a bus error (R199, R201). -/
def State.serviceRead (s : State) (i : Fin 4) (args : List (Nat × Nat)) (f : State → State) : State :=
  match s.readWords (args.flatMap fun p => s.errorWords p.1 p.2) with
  | (s, some w) => (s.record i.val false 7 (BitVec.ofNat 32 w)).serviceFault i 8 (BitVec.ofNat 32 w)
  | (s, none) => f s

def State.svcSha (s : State) (i : Fin 4) : State :=
  s.serviceRead i [((s.reg i 1).toNat, (s.reg i 2).toNat)] fun s =>
  let s := s.serviceOut (s.reg i 3).toNat (sha256 (s.memBytes (s.reg i 1).toNat (s.reg i 2).toNat))
  s.serviceEnd i 0

def State.svcVerify (s : State) (i : Fin 4) : State :=
  s.serviceRead i [((s.reg i 1).toNat, 32), ((s.reg i 2).toNat, 64), ((s.reg i 3).toNat, 64)] fun s =>
  let q := (s.mem256 (s.reg i 2).toNat, s.mem256 ((s.reg i 2).toNat + 32))
  let g := (s.reg i 3).toNat
  let r : Word := if !onCurve q then 2 else if ecdsaOk (s.mem256 (s.reg i 1).toNat) q (s.mem256 g) (s.mem256 (g + 32)) then 0
    else 1
  s.serviceEnd i r

/-- The private key drawn from the entropy source. -/
def State.drawKey (s : State) : State × Nat :=
  let d := (List.range 8).foldl (fun d k => d * 2 ^ 32 + (Config.entropy (s.fresh + k)).toNat) 0
  ({ s with fresh := s.fresh + 8 }, d % (n256 - 1) + 1)

def State.svcGen (s : State) (i : Fin 4) : State :=
  if !s.sec.entok then (s.modSecx fun x => { x with ephemeral := none }).serviceEnd i 3
  else
    let (s, d) := s.drawKey
    let q := (ecMul 256 d (some g256) none).getD (0, 0)
    let s := s.modSecx fun x => { x with ephemeral := some d }
    (s.serviceOut (s.reg i 1).toNat (bytesBE q.1 32 ++ bytesBE q.2 32)).serviceEnd i 0

/-- ECDH_SLOT: BADSLOT below slot 3, OCCUPIED; without an ephemeral key, or for a peer key off the curve, the result is open. -/
def State.svcSlot (s : State) (i : Fin 4) : State :=
  let n := (s.reg i 2).toNat
  let d := s.secx.ephemeral
  let peer := (s.mem256 (s.reg i 1).toNat, s.mem256 ((s.reg i 1).toNat + 32))
  let neigh : BitVec 5 := BitVec.ofNat 5 (s.reg i 3).toNat
  let s' := s.modSecx fun x => { x with ephemeral := none }
  match s.keyGate with
  | some e => s'.serviceEnd i (BitVec.ofNat 32 e)
  | none =>
    match fin? 16 n with
    | none => s'.serviceEnd i 4
    | some k =>
      if k.val < 3 then s'.serviceEnd i 4
      else if (s.slot k).valid then s'.serviceEnd i 2
      else
        s'.serviceRead i [((s.reg i 1).toNat, 64)] fun s' =>
        match d with
        | none => s'.serviceOpen i
        | some d =>
          match (if onCurve peer then ecMul 256 d (some peer) none else none) with
          | none => s'.serviceOpen i
          | some z =>
            let pe := (s.mac.neighs.get neigh.toFin).eui.toNat
            let lo := min s.eui pe
            let hi := max s.eui pe
            let key := (sha256 (bytesBE z.1 32 ++ bytesLE lo 8 ++ bytesLE hi 8)).take 16
            let s' := s'.modSlot k fun _ => newKey (BitVec.ofNat 128 (ofBE key)) 0 (some neigh)
            ((s'.clearLinkWin neigh).keyCommit).serviceEnd i 0

end Sys2Proof.Machine
end

