-- ==== Sys2Proof/Machine/RadOps.lean ====
section
/-!
DEFINITION. The radio below the MAC: air time, channel plans, the dwell limiter, listen-before-talk, and the RAD
registers (12).
-/

namespace Sys2Proof

/-! ## Whitening and the form of a frame (R371, R372) -/

/-- The next bit of PN9, from its nine latest bits, the newest lowest: r(n) = r(n - 9) xor r(n - 4) (R371, log 68). -/
def pn9Next (r : BitVec 9) : BitVec 9 := (r <<< 1) ||| (BitVec.ofBool (r.getLsbD 8 ^^ r.getLsbD 3)).setWidth 9

/-- Eight bits of PN9, the first lowest, and the state after them. -/
def pn9Octet (r : BitVec 9) : BitVec 8 × BitVec 9 :=
  (List.range 8).foldl (fun x i =>
    let n := pn9Next x.2
    (x.1 ||| (BitVec.ofBool (n.getLsbD 0)).setWidth 8 <<< i, n)) (0, r)

def whitenFrom (r : BitVec 9) : List (BitVec 8) → List (BitVec 8)
  | [] => []
  | x :: l => (x ^^^ (pn9Octet r).1) :: whitenFrom (pn9Octet r).2 l

/-- Whitening, which undoes itself: exclusive or with PN9 from its seed of all ones. -/
def whiten (l : List (BitVec 8)) : List (BitVec 8) := whitenFrom (BitVec.allOnes 9) l

/-- PHR bit MS. -/
def RxFrame.ms (f : RxFrame) : Bool := f.phr.getLsbD 15
/-- PHR FCS type: true is type 1. -/
def RxFrame.fcs2 (f : RxFrame) : Bool := f.phr.getLsbD 12
/-- PHR bit DW. -/
def RxFrame.dw (f : RxFrame) : Bool := f.phr.getLsbD 11
/-- PHR frame length. -/
def RxFrame.len (f : RxFrame) : Nat := f.phr.toNat % 2048
/-- The PSDU: as many octets as the PHR states, de-whitened as DW shows (R372). -/
def RxFrame.psdu (f : RxFrame) : List (BitVec 8) :=
  let l := f.octets.take f.len
  if f.dw then whiten l else l

end Sys2Proof

namespace Sys2Proof.Machine

def State.modRad (s : State) (f : Rad → Rad) : State := { s with rad := f s.rad }

/-! ## PHY (R371 to R374) -/

def Rad.rate (r : Rad) : Nat := fld r.phy 0 2
def Rad.pre (r : Rad) : Nat := fld r.phy 8 6
def Rad.fec (r : Rad) : Bool := bit r.phy 3

/-- The time of one octet in thirds of a microsecond: 8 bits at 50, 100 or 150 kb/s. -/
def Rad.octet3 (r : Rad) : Nat := if r.rate = 0 then 480 else if r.rate = 1 then 240 else 160

/-- T_air of `n` PSDU octets in thirds of a microsecond (R374). -/
def Rad.air3 (r : Rad) (n : Nat) : Nat :=
  (r.pre + 2 + (if r.fec then 2 * (2 + n + 1) else 2 + n)) * r.octet3

/-- The transmitter-on time in us, rounded up to the limiter's 1 us (R374, R383). -/
def Rad.onTime (r : Rad) (n : Nat) : Nat := ceilDiv (r.air3 n) 3 + 32

/-! ### A sent frame on the air -/

/-- The lowest `n` bits of `v`, the highest first. -/
def bitsHigh (n v : Nat) : List Bool := ((List.range n).map v.testBit).reverse

/-- The bits of octets, each from its lowest. -/
def bitsLow (l : List Byte) : List Bool := l.flatMap fun x => (List.range 8).map x.getLsbD

/-- The rate-1/2 code NRNSC without interleaving: two bits for each, of 1 + x + x^2 + x^3 and 1 + x^2 + x^3 (R371, log 68). -/
def nrnsc (a b c : Bool) : List Bool → List Bool
  | [] => []
  | x :: l => (x ^^ a ^^ b ^^ c) :: (x ^^ b ^^ c) :: nrnsc x a b l

/-- The PHR: MS 0, FCS type 0, DW and the length (R371, R372). -/
def AirFrame.phr (f : AirFrame) : Nat := 2048 * b2n f.dw + f.psdu.length

/-- The octets after the PHR, whitened when DW is 1 (R372). -/
def AirFrame.octets (f : AirFrame) : List Byte := if f.dw then whiten f.psdu else f.psdu

/-- Every bit of the frame in the order of the air: preamble, SFD, then PHR and PSDU, coded with a tail and padding octet when
the SFD is the coded one (R371, R374). -/
def AirFrame.bits (f : AirFrame) : List Bool :=
  let body := bitsHigh 16 f.phr ++ bitsLow f.octets
  (List.replicate f.pre (bitsHigh 8 0x55)).flatten ++
    (if f.coded then bitsHigh 16 0x6F4E ++ nrnsc false false false (body ++ bitsHigh 8 0x0B)
     else bitsHigh 16 0x904E ++ body)

/-- From key-up to the end of the SFD, tempo units (R404). -/
def Rad.sfdDelay (r : Rad) : Nat := 256 + (2 * (r.pre + 2) * r.octet3 * 16 + 3) / 6

/-! ## Channel plans and the dwell limiter (R375, R383 to R386) -/

def Rad.us (r : Rad) : Bool := bit r.dwell 31
def Rad.limitUs (r : Rad) : Nat := fld r.dwell 0 14 * 10000
/-- Channels of the plan (R375). -/
def Rad.chans (r : Rad) : Nat := if r.us then 64 else 35

/-- The centre frequency of channel `k`, kHz (R375). -/
def Rad.freq (r : Rad) (k : Nat) : Nat := if r.us then 902400 + 400 * k else 863100 + 200 * k

/-- The transmitter-on time charged to a channel over the 17 sub-windows, us. -/
def Rad.charged (r : Rad) (k : Nat) : Nat := (r.charge.toList.getD k []).sum

/-- MAXCH and MAXUSE are updated. -/
def Rad.peak (r : Rad) : Rad :=
  let m := (List.range r.chans).foldl (fun b k => if r.charged b < r.charged k then k else b) 0
  let l := r.limitUs
  { r with maxch := BitVec.ofNat 6 m,
           maxuse := if l = 0 then 0 else BitVec.ofNat 8 (min 100 (r.charged m * 100 / l)) }

/-- A transmission is charged to the current sub-window of its channel (R383). -/
def Rad.bill (r : Rad) (k us : Nat) : Rad :=
  let k : Fin 64 := ⟨k % 64, Nat.mod_lt _ (by decide)⟩
  let c : List Nat := match r.charge.get k with
    | [] => [us]
    | x :: t => (x + us) :: t
  ({ r with charge := r.charge.set k c } : Rad).peak

/-- A sub-window boundary: the oldest of the 17 is discarded (R383). Until RAD_DWELL is written there is no LIMIT to measure
against, and MAXCH and MAXUSE stay as reset left them (DESIGN CHOICE, log 66). -/
def Rad.subWindow (r : Rad) : Rad :=
  let r := { r with charge := r.charge.map fun c => (0 :: c).take 17 }
  if r.unset then r else r.peak

/-- Sub-windows count: those of RAD_DWELL, or until it is written those of the setting before the reset (R386). -/
def Rad.windows (r : Rad) : Bool := !r.unset || r.oldPlan.isSome

/-- Usable channels of the active map below 64. -/
def State.usMap (s : State) : Nat := (setBits s.mac.mapAct.toNat 64).length

def State.fewCh (s : State) : Bool := s.rad.us && decide (s.usMap < 50)

inductive Refuse where
  | unset | fewch | dwell | lbtBusy
  deriving DecidableEq, Repr

/-- Conditions 1 to 3 of R384 for a transmission of `us` on channel `k`. -/
def State.dwellCheck (s : State) (k us : Nat) : Option Refuse :=
  if s.rad.unset then some .unset
  else if s.fewCh then some .fewch
  else if s.rad.limitUs < s.rad.charged k + us then some .dwell
  else none

/-- A refusal is reported: NETERR, and REFCNT but for LBT_BUSY (R385). -/
def State.refuse (s : State) (r : Refuse) : State :=
  let s := (s.event 3).occur 0x23
  if r = .lbtBusy then s
  else s.modRad fun x => { x with refcnt := BitVec.ofNat 16 (incSat 0xFFFF x.refcnt.toNat) }

/-- LBT applies to transmissions other than acknowledgements (R388). -/
def Rad.lbt (r : Rad) : Bool := bit r.ctl 1 || bit r.dwell 30

/-- The chip is the head of its chain: only then does its radio key up (R505). -/
def State.isHead (s : State) : Bool := s.lnk.valid && s.lnk.head

/-- The radio may key up at all. -/
def State.mayKey (s : State) : Bool := bit s.rad.ctl 0 && s.isHead

/-- The radio's state, off while its island is stopped; the conditions RX_ON and TX_ON are entered (R127, R495). -/
def State.setRad (s : State) (st : RadState) : State :=
  let st := if s.sys.runRad then st else .off
  let rx (x : RadState) : Bool := x == .listen || x == .receive
  let old := s.rad.state
  let s := s.modRad fun r => { r with state := st }
  (s.entered 0x24 none (rx old) (rx st)).entered 0x25 none (old == .transmit) (st == .transmit)

/-- The frame that a transmission on channel `k` puts on the air, with RAD_PHY and RAD_PWR as they stand at key-up (R372,
R375, R378); settings above +14 dBm use the high-power amplifier. -/
def State.airFrame (s : State) (k : Nat) (psdu : List Nat) : AirFrame :=
  { rate := s.rad.rate, pre := s.rad.pre, coded := s.rad.fec, dw := bit s.rad.phy 4, psdu := psdu.map (BitVec.ofNat 8),
    chan := k, freq := s.rad.freq k, power := s.rad.pwr, high := decide (14 < s.rad.pwr.toInt), stamp := s.macx.sfdAt }

/-- The local time of the SFD of a transmission, whose capture ends `n` XT32 edges from now, less TXDLY (R350, R381). -/
def State.sfdCapture (s : State) (n : Nat) (sfd : Ring) : State :=
  { s with macx := { s.macx with sfdAt := s.captureLess n sfd (s.otp 0x2C) } }

/-- A transmission of `n` octets keys up on channel `k` (R384): it is charged, counted and on the air. -/
def State.onAir (s : State) (k : Nat) (psdu : List Nat) : State :=
  let us := s.rad.onTime psdu.length
  let s := s.modRad fun r => r.bill k us
  let s := (s.setRad .transmit).count 0x25 none .cycles (us * 32)
  let s := s.occur 0x21
  { s with macx := { s.macx with sent := s.airFrame k psdu :: s.macx.sent } }

/-! ## RAD registers -/

/-- The first valid RAD_DWELL write (R386, R392): cause. -/
def State.dwellWrite (s : State) (v : Word) : State × Nat :=
  let sub := fld v 15 15
  if sub = 0 ∨ 22500 < sub ∨ fld v 0 14 = 0 then (s, 3)
  else if !s.rad.unset then (s, 0)
  else
    let plan : BitVec 16 := BitVec.ofNat 16 (sub + 32768 * b2n (bit v 31))
    (s.modRad fun r =>
      let c : Vector (List Nat) 64 := if r.oldPlan.isSome ∧ r.oldPlan ≠ some plan then Vector.replicate 64 [] else r.charge
      let c : Vector (List Nat) 64 :=
        if r.coldHold && bit v 14 then Vector.replicate 64 [fld v 0 14 * 10000] else c
      { r with dwell := v, unset := false, charge := c, coldHold := false, oldPlan := some plan }, 0)

def dbmOk (v : BitVec 8) (lo hi : Int) : Bool := decide (lo ≤ v.toInt) && decide (v.toInt ≤ hi)

/-- A power as the RSSI measures it, -125 to -10 dBm (R380). -/
def rssiRange (v : Int) : Int := clampI (-125) (-10) v

/-- RAD_STAT.RSSI while receiving or listening is a free value of the RSSI's range (12, R380). -/
def State.rssiNow (s : State) : State × BitVec 8 :=
  if s.rad.state = .listen ∨ s.rad.state = .receive then
    ({ s with fresh := s.fresh + 1 }, BitVec.ofInt 8 (rssiRange (Config.liveRssi s.fresh).toInt))
  else (s, 0x80)

def radCode : RadState → Nat
  | .off => 0
  | .idle => 1
  | .settling => 2
  | .listen => 3
  | .receive => 4
  | .transmit => 5
  | .test => 6

def State.radRead (s : State) (off : Nat) : Option (State × Word) :=
  let r := s.rad
  match off with
  | 0x00 => some (s, r.ctl)
  | 0x04 => some (s, r.phy)
  | 0x08 => some (s, place r.maxpwr.toNat 8 ||| place r.pwr.toNat 0)
  | 0x0C => some (s, r.dwell)
  | 0x10 => some (s, place r.refcnt.toNat 16 ||| placeB r.unset 15 ||| placeB s.fewCh 14 ||| place r.maxch.toNat 8 |||
      place r.maxuse.toNat 0)
  | 0x14 => some (s, place r.lbtThr.toNat 24 ||| place r.busycnt.toNat 16 ||| place r.lbtLt.toNat 0)
  | 0x18 =>
    let (s, live) := s.rssiNow
    some (s, place r.rssif.toNat 24 ||| place live.toNat 16 ||| place r.fcserr.toNat 8 ||| place r.phrerr.toNat 4 |||
      place (radCode r.state) 0)
  | _ => none

/-- A write of RAD_CTL (R486). -/
def State.radCtl (s : State) (v : Word) : State × Nat :=
  let t := fld v 4 2
  if fld v 15 17 ≠ 0 ∨ fld v 6 2 ≠ 0 ∨ fld v 2 2 ≠ 0 ∨ t = 3 ∨ s.rad.chans ≤ fld v 8 7 then (s, 3)
  else if t ≠ 0 ∧ s.lifecycle ≠ 0 then (s, 6)
  else
    let was := s.rad.state
    let s := s.modRad fun r => { r with ctl := v }
    (if t ≠ 0 then s.setRad .test else if was = .test then s.setRad .idle else s, 0)

/-- A write of RAD_PWR (12). -/
def State.radPwr (s : State) (v : Word) : State × Nat :=
  let m : BitVec 8 := v.extractLsb' 8 8
  let p : BitVec 8 := v.extractLsb' 0 8
  if fld v 16 16 ≠ 0 ∨ !dbmOk m (-10) 20 then (s, 3)
  else if s.rad.pwrDone then
    if dbmOk p (-10) s.rad.maxpwr.toInt then (s.modRad fun r => { r with pwr := p }, 0) else (s, 3)
  else if dbmOk p (-10) 20 then
    (s.modRad fun r => { r with maxpwr := m, pwr := if m.toInt < p.toInt then m else p, pwrDone := true }, 0)
  else (s, 3)

def State.radWrite (s : State) (off : Nat) (v : Word) : State × Nat :=
  match off with
  | 0x00 => s.radCtl v
  | 0x04 =>
    if fld v 14 18 ≠ 0 ∨ fld v 8 6 < 4 ∨ fld v 5 3 ≠ 0 ∨ bit v 2 ∨ fld v 0 2 = 3 then (s, 3)
    else (s.modRad fun r => { r with phy := v }, 0)
  | 0x08 => s.radPwr v
  | 0x0C => s.dwellWrite v
  | 0x10 => (s.modRad fun r => { r with refcnt := v.extractLsb' 16 16 }, 0)
  | 0x14 =>
    if fld v 13 3 ≠ 0 ∨ !dbmOk (v.extractLsb' 24 8) (-110) (-60) ∨ fld v 0 13 < 128 ∨ 5000 < fld v 0 13 then (s, 3)
    else (s.modRad fun r => { r with
      lbtThr := v.extractLsb' 24 8, busycnt := v.extractLsb' 16 8, lbtLt := v.extractLsb' 0 13 }, 0)
  | 0x18 =>
    if bit v 3 then (s, 3)
    else (s.modRad fun r => { r with fcserr := v.extractLsb' 8 8, phrerr := v.extractLsb' 4 4 }, 0)
  | _ => (s, 1)

end Sys2Proof.Machine
end

