-- ==== Sys2Proof/Machine/MacOps.lean ====
section
/-!
DEFINITION. The MAC's tables, links, neighbours, routes, transmit queue and descriptor rings, its modes, and the MAC
registers (13, 14).
-/

namespace Sys2Proof.Machine

def State.modMac (s : State) (f : Mac → Mac) : State := { s with mac := f s.mac }

def State.modMacx (s : State) (f : MacAux → MacAux) : State := { s with macx := f s.macx }

def State.link (s : State) (l : Fin 16) : Link := s.mac.links.get l

def State.modLink (s : State) (l : Fin 16) (f : Link → Link) : State :=
  s.modMac fun m => { m with links := m.links.set l (f (m.links.get l)) }

def State.neigh (s : State) (n : BitVec 5) : Neigh := s.mac.neighs.get n.toFin

def State.modNeigh (s : State) (n : BitVec 5) (f : Neigh → Neigh) : State :=
  s.modMac fun m => { m with neighs := m.neighs.set n.toFin (f (m.neighs.get n.toFin)) }

/-! ## Configuration in force -/

def Mac.scanGap (m : Mac) : Nat := fld m.ctlAct 20 4
def Mac.kaint (m : Mac) : Nat := fld m.ctlAct 16 4
def Mac.missLim (m : Mac) : Nat := fld m.ctlAct 12 4
def Mac.bskip (m : Mac) : Nat := fld m.ctlAct 8 3
def Mac.saddr (m : Mac) : BitVec 10 := BitVec.ofNat 10 (fld m.addr 0 10)
def Mac.netid (m : Mac) : Nat := fld m.addr 16 16
def Mac.block (m : Mac) : Nat := fld m.addr 12 4

/-- The MAC is synchronised (R394). -/
def State.macSync (s : State) : Bool := s.macRuns && s.tmp.sync

/-- The node scans: MODE NODE with every link OFF (R420). -/
def State.scanning (s : State) : Bool :=
  s.mac.mode == 1 && (upTo 16).all fun l => (s.link l).state == .off

/-! ## Descriptor rings (R451 to R454) -/

/-- `n` bytes of the frame area as the radio reads them; their words meet their check bits. -/
def State.dmaRead (s : State) (a n : Nat) : State × Nat :=
  let lo := a / 8
  let hi := (a + n + 7) / 8
  ((List.range (hi - lo)).foldl (fun s k => (s.eccRead (8 * (lo + k)) false).1) s, s.bytes a n)

/-- Bytes written by the radio. -/
def State.dmaWrite (s : State) (a : Nat) (l : List Nat) : State :=
  (l.zipIdx).foldl (fun s p => s.storeBytes (a + p.2) 1 (BitVec.ofNat 64 p.1) 0 0) s

def txSlotAt (k : Fin 16) : Nat := 0x2002E000 + 256 * k.val
def rxSlotAt (k : Fin 16) : Nat := 0x2002F000 + 256 * k.val

/-- A 32-bit word of a descriptor written by the radio. -/
def State.descWrite (s : State) (a : Nat) (w : Word) : State := s.storeBytes a 4 (w.setWidth 64) 0 0

/-- A TX descriptor ends with this status (R452, R453): OWN clears and RADIO sets. -/
def State.endDesc (s : State) (k : Fin 16) (status : Nat) (stamp : Word) (link tries : Nat) : State :=
  let a := txSlotAt k
  let (s, w) := s.dmaRead a 4
  let w0 := putFld (putFld (BitVec.ofNat 32 w) 31 1 0) 27 4 status
  let s := ((s.descWrite a w0).descWrite (a + 8) stamp).descWrite (a + 12) (place (link % 256) 8 ||| place (tries % 256) 0)
  s.event 2

/-- A frame of the queue ends: the program's with a status, any other without (R448, R450, R453). LINK of a frame that used no
link is a free value. -/
def State.endFrame (s : State) (f : TxFrame) (status : Nat) : State :=
  let s := s.modMacx fun x => { x with queue := x.queue.erase f }
  match f.slot with
  | none => s
  | some k =>
    if f.down then
      ({ s with fresh := s.fresh + 1 }).endDesc k status f.stamp (Config.freeWord s.fresh).toNat f.tries
    else s.endDesc k status f.stamp f.link.val f.tries

/-- A frame enters the queue under a number of its own (R41, R447). -/
def State.enqueue (s : State) (f : TxFrame) : State :=
  let s := s.modMacx fun x => { x with queue := x.queue ++ [{ f with id := x.frameId }], frameId := x.frameId + 1 }
  let n := s.macx.queue.length
  if s.mac.peak.toNat < n then s.modMac fun m => { m with peak := BitVec.ofNat 5 n } else s

def State.queueFull (s : State) : Bool := decide (16 ≤ s.macx.queue.length)

def State.countQref (s : State) : State := s.modMac fun m => { m with qref := BitVec.ofNat 8 (incSat 255 m.qref.toNat) }

/-- The frames of a link end as FLUSHED (R450). -/
def State.flushLink (s : State) (l : Fin 16) : State :=
  (s.macx.queue.filter fun (f : TxFrame) => !f.down && f.link = l).foldl (fun s f => s.endFrame f 7) s

def State.flushAll (s : State) : State := s.macx.queue.foldl (fun s f => s.endFrame f 7) s

/-! ## Links (R415 to R425) -/

/-- What serves the link stops when the link goes OFF. -/
def Serving.on (v : Serving) (l : Fin 16) : Bool :=
  match v with
  | .txData k _ | .keepAlive k | .rxData k => k == l
  | _ => false

/-- The attempt on link `l` is given up; its frame was sent, which RADIO reports (R142). -/
def State.dropAttempt (s : State) (l : Fin 16) : State :=
  if s.macx.attempt.any fun a => a.link = l then (s.modMacx fun x => { x with attempt := none }).event 2 else s

/-- A link goes OFF (R425, R450). -/
def State.linkOff (s : State) (l : Fin 16) : State :=
  let s := s.modLink l fun x => { x with state := .off }
  let s := (s.flushLink l).dropAttempt l
  s.modMacx fun x => { x with serving := if x.serving.on l then .nothing else x.serving }

def State.allLinksOff (s : State) : State := (upTo 16).foldl (fun s l => s.linkOff l) s

/-- Scanning begins at this channel (R420). -/
def State.scanFrom (s : State) (c : Nat) : State :=
  (s.modMacx fun x => { x with scanChan := c, scanPause := false }).setRad .receive

/-- A link is dropped (R422). -/
def State.dropLink (s : State) (l : Fin 16) : State :=
  if (s.link l).parent then
    let s := s.modMac fun m => { m with parlost := true }
    s.allLinksOff.scanFrom s.macx.scanChan
  else (s.linkOff l).modMac fun m => { m with linkdrop := true }

/-- MISS of the parent link advances, and RESYNC begins at MISSLIM (R415). -/
def State.missed (s : State) (l : Fin 16) : State :=
  let x := s.link l
  if x.parent ∧ x.state = .active then
    let n := incSat 7 x.miss.toNat
    let s := s.modLink l fun x => { x with miss := BitVec.ofNat 3 n }
    if s.mac.missLim ≤ n then
      (s.modLink l fun x => { x with state := .resync }).modMac fun m => { m with resyncev := true }
    else s
  else s

/-- Ages advance by a superframe; links at MAC_SUPV are dropped (R417, R422, R442). -/
def State.ageTick (s : State) : State :=
  let s := s.modMac fun m => { m with
    ctlAct := m.ctl,
    links := m.links.map fun x => if x.state = .off then x
      else { x with supage := BitVec.ofNat 8 (incSat 255 x.supage.toNat), quiet := x.quiet + 1 },
    neighs := m.neighs.map fun x => { x with age := BitVec.ofNat 8 (incSat 255 x.age.toNat) },
    routes := m.routes.map fun x => { x with age := BitVec.ofNat 8 (incSat 255 x.age.toNat) } }
  (upTo 16).foldl (fun s l =>
    if (s.link l).state ≠ .off ∧ s.mac.supv.toNat ≤ (s.link l).supage.toNat then s.dropLink l else s) s

/-! ## Neighbours (R421, R428, R443) -/

/-- The link, not OFF, that names a neighbour. -/
def State.linkTo (s : State) (n : BitVec 5) : Option (Fin 16) :=
  (upTo 16).find? fun l => (s.link l).state != .off && (s.link l).neigh == n

def State.pinned (s : State) (n : BitVec 5) : Bool := (s.neigh n).pin || (s.linkTo n).isSome

/-- Routes that name a neighbour become invalid (R443). -/
def State.dropRoutes (s : State) (n : BitVec 5) : State :=
  s.modMac fun m => { m with routes := m.routes.map fun r => if r.neigh = n then { r with valid := false } else r }

def allNeighs : List (BitVec 5) := (upTo 32).map fun i => BitVec.ofFin i

/-- A place for a new neighbour: a free entry, or the unpinned one with the greatest AGE (R428). -/
def State.neighPlace (s : State) : Option (BitVec 5) :=
  match allNeighs.find? fun n => !(s.neigh n).valid with
  | some n => some n
  | none =>
    allNeighs.foldl (fun b n =>
      if s.pinned n then b
      else match b with
        | none => some n
        | some k => if (s.neigh k).age.toNat < (s.neigh n).age.toNat then some n else b) none

/-- A new neighbour is entered, or its frame is dropped (R421, R428, R457). -/
def State.newNeigh (s : State) (f : Neigh → Neigh) : State × Option (BitVec 5) :=
  match s.neighPlace with
  | none => (s.modMac fun m => { m with nbdrop := BitVec.ofNat 8 (incSat 255 m.nbdrop.toNat) }, none)
  | some n =>
    let s := if (s.neigh n).valid then s.dropRoutes n else s
    let s := s.modNeigh n fun _ => f { Neigh.reset with valid := true }
    (s.modMac fun m => { m with newnb := true }, some n)

def State.neighBySaddr (s : State) (a : BitVec 10) : Option (BitVec 5) :=
  if a = 0 then none else allNeighs.find? fun n => (s.neigh n).valid && (s.neigh n).saddr == a

def State.neighByEui (s : State) (e : BitVec 64) : Option (BitVec 5) :=
  allNeighs.find? fun n => (s.neigh n).valid && (s.neigh n).eui == e

/-- A valid frame of a neighbour: its RSSI mean and age, and the supervision of its links (13, R415, R417). -/
def State.heard (s : State) (n : BitVec 5) (rssi : Int) : State :=
  let s := s.modNeigh n fun x =>
    let m := x.rssi.toInt
    { x with age := 0, rssi := if x.rssi = 0x80 then BitVec.ofInt 8 rssi else BitVec.ofInt 8 (m + divT (rssi - m) 8) }
  (upTo 16).foldl (fun s l =>
    let x := s.link l
    if x.state ≠ .off ∧ x.neigh = n then
      s.modLink l fun x => { x with supage := 0, miss := if x.parent then 0 else x.miss }
    else s) s

/-! ## Modes and link writes (R424, R425) -/

/-- A write of MODE OFF (R424, R450). -/
def State.macOff (s : State) : State :=
  let s := s.allLinksOff.flushAll
  let s := s.modMacx fun x => { x with
    serving := .nothing, attempt := none, ack := none, scanPause := false, prewake := false, lbtOk := false,
    listens := false, cell := none, active := false, before := false }
  let s := s.setRad .idle
  -- with no superframes left, an armed domain MAC has its boundary at once (R212)
  s.modMac fun m => { m with ctl := putFld m.ctl 0 2 0 }

/-- The swap of domain MAC (R402). -/
def State.macSwap (s : State) : State :=
  if s.isArmed 0 then
    (s.disarm 0).modMac fun m => { m with cellAct := m.cellSh, mapAct := m.mapSh }
  else s

/-- The cause of a MODE request, 0 if it is accepted (R424, R505). -/
def State.modeCheck (s : State) (mode : Nat) : Nat :=
  let cur := s.mac.mode
  if mode = 3 then 3
  else if mode = 0 then 0
  else if !s.isHead then 3
  else if cur ≠ 0 ∧ cur ≠ mode then 3
  else if mode = 2 then (if (s.tmp.src = 2 ∨ s.tmp.src = 3) ∧ s.tmp.sync then 0 else 3)
  else if s.tmp.src = 0 then 0 else 3

/-- A mode that the check accepted is entered. -/
def State.setMode (s : State) (mode : Nat) : State :=
  if s.mac.mode = mode then s
  else if mode = 0 then s.macOff.macSwap
  else
    let s := s.modMac fun m => { m with ctl := putFld m.ctl 0 2 mode }
    let s := s.modMacx fun x => { x with slotAsn := s.asn, routeErr := false, cell := none, active := false, before := false }
    if mode = 1 then s.scanFrom 0 else s.setRad .idle

/-- A write of MAC_CTL: cause. -/
def State.macCtl (s : State) (v : Word) : State × Nat :=
  if fld v 24 8 ≠ 0 ∨ bit v 11 ∨ fld v 2 6 ≠ 0 ∨ fld v 16 4 = 0 ∨ fld v 12 4 = 0 ∨ 7 < fld v 12 4 then (s, 3)
  else
    let c := s.modeCheck (fld v 0 2)
    if c ≠ 0 then (s, c)
    else
      let s := s.setMode (fld v 0 2)
      (s.modMac fun m => { m with ctl := v }, 0)

def linkCode : LinkState → Nat
  | .off => 0
  | .listen => 1
  | .active => 2
  | .resync => 3

/-- Word 0 of a link entry. -/
def Link.word0 (x : Link) : Word :=
  place (linkCode x.state) 30 ||| placeB x.parent 29 ||| placeB x.pend 28 ||| place x.inc.toNat 22 |||
    place x.base.toNat 16 ||| place x.neigh.toNat 11 ||| place x.miss.toNat 8 ||| place x.supage.toNat 0

/-- The program may ask for this state (R425); `w` is the whole word. -/
def State.linkAsk (s : State) (l : Fin 16) (w : Word) : Bool :=
  let st := (s.link l).state
  let rq := fld w 30 2
  if linkCode st = rq ∨ rq = 0 then true
  else if rq = 1 then
    st == .off && bit w 29 && s.mac.mode == 1 && (s.mac.parentLink).isNone &&
      (s.neigh (BitVec.ofNat 5 (fld w 11 5))).depth != 8
  else if rq = 2 then st == .off || st == .listen
  else false

/-- A write of word 0 of a link entry (R425, R427): cause. -/
def State.linkWrite0 (s : State) (l : Fin 16) (w : Word) : State × Nat :=
  let x := s.link l
  let fixed := (w ^^^ x.word0) &&& 0x2FFFF800 = 0
  if fld w 22 6 = 0 ∨ (x.state ≠ .off ∧ !fixed) ∨ !s.linkAsk l w then (s, 3)
  else
    let rq := fld w 30 2
    let runs := s.macRuns
    let scan := s.scanning
    let s := s.modLink l fun x => { x with
      parent := bit w 29, pend := bit w 28, inc := BitVec.ofNat 6 (fld w 22 6), base := BitVec.ofNat 6 (fld w 16 6),
      neigh := BitVec.ofNat 5 (fld w 11 5) }
    let s :=
      if rq = linkCode x.state then s
      else if rq = 0 then s.linkOff l
      else if rq = 1 then
        let s := s.modLink l fun x => { x with state := .listen, supage := 0 }
        -- without superframes the node listens all the time for the parent's first beacon (R394, R422)
        s.setRad (if s.macRuns then .idle else .receive)
      else s.modLink l fun x => { x with
        state := .active, miss := 0, quiet := 0, supage := if x.state = .off then 0 else x.supage }
    let s := if !runs && s.macRuns then s.modMacx fun x => { x with slotAsn := s.asn } else s
    let s := if !scan && s.scanning then s.scanFrom s.macx.scanChan else s
    (s, 0)

/-! ## The table window (R400, R426 to R428, R442, R457, R459) -/

/-- Words of a page. -/
def pageSize (t : Nat) : Nat :=
  if t = 2 then 96 else if t = 3 then 160 else if t = 4 then 128 else if t = 5 then 192 else 64

def Mac.table (m : Mac) : Nat := fld m.tabsel 28 4
def Mac.index (m : Mac) : Nat := fld m.tabsel 0 12

def Neigh.word (x : Neigh) (k : Nat) : Word :=
  match k with
  | 0 => x.eui.extractLsb' 0 32
  | 1 => x.eui.extractLsb' 32 32
  | 2 => place x.saddr.toNat 12 ||| place x.depth.toNat 8 ||| placeB x.valid 7 ||| placeB x.pin 6 ||| placeB x.bcn 5 |||
      placeB (x.depth == 8) 4
  | 3 => place x.cells.toNat 13 ||| place x.drift.toNat 0
  | _ => place x.netid.toNat 16 ||| place x.rssi.toNat 8 ||| place x.age.toNat 0

def Link.word (x : Link) (k : Nat) : Word :=
  match k with
  | 0 => x.word0
  | 1 => place x.inst.toNat 16 ||| place x.counter.toNat 0
  | 2 => x.map.extractLsb' 0 32
  | 3 => x.map.extractLsb' 32 32
  | 4 => x.pmap.extractLsb' 0 32
  | _ => x.pmap.extractLsb' 32 32

/-- The word that MAC_TABSEL selects. -/
def State.tabWord (s : State) : Word :=
  let m := s.mac
  let i := m.index
  match m.table with
  | 0 => m.cellAct.toList.getD i 0
  | 1 => m.cellSh.toList.getD i 0
  | 2 => (m.links.toList.getD (i / 6) Link.reset).word (i % 6)
  | 3 => (m.neighs.toList.getD (i / 5) Neigh.reset).word (i % 5)
  | 4 =>
    let r := m.routes.toList.getD (i / 2) Route.reset
    if i % 2 = 0 then placeB r.valid 31 ||| place r.neigh.toNat 20 ||| place r.plen.toNat 16 ||| place r.base.toNat 0
    else place r.hops.toNat 8 ||| place r.age.toNat 0
  | _ =>
    if i < 64 then
      let d := m.dups.toList.getD (i / 2) DupEntry.reset
      if i % 2 = 0 then placeB d.valid 31 ||| place d.src.toNat 16 ||| place d.seq.toNat 0 else d.stamp
    else
      let x := m.neighs.toList.getD ((i - 64) / 4) Neigh.reset
      match i % 4 with
      | 0 => x.lhigh
      | 1 => x.lwin
      | 2 => x.nhigh
      | _ => x.nwin

/-- AINC: the index advances after an access (13). -/
def Mac.step (m : Mac) : Mac :=
  if bit m.tabsel 16 then { m with tabsel := putFld m.tabsel 0 12 ((m.index + 1) % pageSize m.table) } else m

/-- A shadow cell that R400 accepts. -/
def cellOk (w : Word) : Bool :=
  let kind := fld w 29 2
  let slot := fld w 0 8
  fld w 20 6 == 0 && fld w 11 5 == 0 &&
    (!bit w 31 ||
      (kind != 3 && (kind == 1 || decide (16 ≤ slot)) && (kind != 1 || (decide (1 ≤ slot) && decide (slot ≤ 15))) &&
        (!bit w 27 || (kind == 0 && slot != 255))))

/-- A write of a neighbour entry's word (R428, R443). -/
def State.neighWrite (s : State) (n : BitVec 5) (k : Nat) (v : Word) : State × Nat :=
  match k with
  | 0 => (s.modNeigh n fun x => { x with eui := x.eui.extractLsb' 32 32 ++ v }, 0)
  | 1 => (s.modNeigh n fun x => { x with eui := v ++ x.eui.extractLsb' 0 32 }, 0)
  | 2 =>
    let d := fld v 8 4
    if fld v 22 10 ≠ 0 ∨ fld v 0 4 &&& 0xF ≠ 0 ∨ (8 < d ∧ d ≠ 15) then (s, 3)
    else if (s.neigh n).valid && !bit v 7 && s.pinned n then (s, 3)
    else
      let s := if (s.neigh n).valid && !bit v 7 then s.dropRoutes n else s
      (s.modNeigh n fun x => { x with
        saddr := BitVec.ofNat 10 (fld v 12 10), depth := BitVec.ofNat 4 d, valid := bit v 7, pin := bit v 6 }, 0)
  | 3 => if fld v 8 5 ≠ 0 then (s, 3) else (s.modNeigh n fun x => { x with drift := BitVec.ofNat 8 (fld v 0 8) }, 0)
  | _ => (s, 4)

/-- A write of a link entry's word (R412, R427). -/
def State.linkWrite (s : State) (l : Fin 16) (k : Nat) (v : Word) : State × Nat :=
  let off := (s.link l).state == .off
  match k with
  | 0 => s.linkWrite0 l v
  | 1 => (s.modLink l fun x => { x with
      inst := BitVec.ofNat 16 (fld v 16 16), counter := if off then BitVec.ofNat 16 (fld v 0 16) else x.counter }, 0)
  | 2 => if off then (s.modLink l fun x => { x with map := x.map.extractLsb' 32 32 ++ v }, 0) else (s, 3)
  | 3 => if off then (s.modLink l fun x => { x with map := v ++ x.map.extractLsb' 0 32 }, 0) else (s, 3)
  | 4 => if (s.link l).pend then (s, 3) else (s.modLink l fun x => { x with pmap := x.pmap.extractLsb' 32 32 ++ v }, 0)
  | _ => if (s.link l).pend then (s, 3) else (s.modLink l fun x => { x with pmap := v ++ x.pmap.extractLsb' 0 32 }, 0)

/-- A write of a route entry's word (R442). -/
def State.routeWrite (s : State) (e : Fin 64) (k : Nat) (v : Word) : State × Nat :=
  let set (f : Route → Route) : State := s.modMac fun m => { m with routes := m.routes.set e (f (m.routes.get e)) }
  if k = 0 then
    let plen := fld v 16 4
    if fld v 25 6 ≠ 0 ∨ fld v 10 6 ≠ 0 ∨ 10 < plen ∨ fld v 0 (10 - plen) ≠ 0 then (s, 3)
    else (set fun r => { r with
      valid := bit v 31, neigh := BitVec.ofNat 5 (fld v 20 5), plen := BitVec.ofNat 4 plen,
      base := BitVec.ofNat 10 (fld v 0 10), age := if bit v 31 then 0 else r.age }, 0)
  else if fld v 12 20 ≠ 0 then (s, 3)
  else (set fun r => { r with hops := BitVec.ofNat 4 (fld v 8 4) }, 0)

/-- A write of the duplicate filter and the replay windows (R457, R459, R474). -/
def State.filterWrite (s : State) (i : Nat) (v : Word) : State × Nat :=
  if i < 64 then
    let e : Fin 32 := ⟨i / 2 % 32, Nat.mod_lt _ (by decide)⟩
    let set (f : DupEntry → DupEntry) : State := s.modMac fun m => { m with dups := m.dups.set e (f (m.dups.get e)) }
    if i % 2 = 1 then (set fun d => { d with stamp := v }, 0)
    else if fld v 26 5 ≠ 0 then (s, 3)
    else (set fun d => { d with
      valid := bit v 31, src := BitVec.ofNat 10 (fld v 16 10), seq := BitVec.ofNat 16 (fld v 0 16) }, 0)
  else
    let n : BitVec 5 := BitVec.ofNat 5 ((i - 64) / 4)
    (s.modNeigh n fun x =>
      match i % 4 with
      | 0 => { x with lhigh := v }
      | 1 => { x with lwin := v }
      | 2 => { x with nhigh := v, ngen := (s.slot s.sec.netSlot).gen }
      | _ => { x with nwin := v }, 0)

/-- A write of MAC_TABDAT (R426): cause. -/
def State.tabWrite (s : State) (v : Word) : State × Nat :=
  let m := s.mac
  let i := m.index
  let r : State × Nat :=
    match m.table with
    | 0 => (s, 4)
    | 1 =>
      if s.isArmed 0 then (s, 5)
      else if !cellOk v then (s, 3)
      else (s.modMac fun m => { m with cellSh := m.cellSh.set (i % 64) v (Nat.mod_lt _ (by decide)) }, 0)
    | 2 => s.linkWrite ⟨i / 6 % 16, Nat.mod_lt _ (by decide)⟩ (i % 6) v
    | 3 => s.neighWrite (BitVec.ofNat 5 (i / 5)) (i % 5) v
    | 4 => s.routeWrite ⟨i / 2 % 64, Nat.mod_lt _ (by decide)⟩ (i % 2) v
    | _ => s.filterWrite i v
  if r.2 = 0 then (r.1.modMac Mac.step, 0) else r

/-! ## MAC registers -/

def State.pstate (s : State) : Nat :=
  match s.mac.parentLink with
  | none => 0
  | some l => linkCode (s.link l).state

def State.macRead (s : State) (i : Initiator) (off : Nat) : Option (State × Word) :=
  let m := s.mac
  match off with
  | 0x00 => some (s, m.ctl)
  | 0x04 => some (s, place m.nbdrop.toNat 24 ||| placeB (s.isArmed 0) 15 ||| placeB s.macSync 14 ||| placeB s.macRuns 13 |||
      placeB s.scanning 12 ||| place s.pstate 10 ||| placeB m.noch 7 ||| placeB m.cconf 6 ||| placeB m.desync 5 |||
      placeB m.resyncev 4 ||| placeB m.linkdrop 3 ||| placeB m.parlost 2 ||| placeB m.scandone 1 ||| placeB m.newnb 0)
  | 0x08 =>
    let a := if s.macRuns then s.asnNow else 0
    some (s.modTmp fun t => { t with asnLatch := t.asnLatch.set (initIdx i) (BitVec.ofNat 8 (a / 2 ^ 32)) },
      BitVec.ofNat 32 a)
  | 0x0C => some (s, if s.macRuns then place (s.tmp.asnLatch.get (initIdx i)).toNat 0 else 0)
  | 0x10 => some (s, if s.macRuns then BitVec.ofNat 32 (s.asnNow / 256) else 0)
  | 0x14 => some (s, m.mapSh.extractLsb' 0 32)
  | 0x18 => some (s, m.mapSh.extractLsb' 32 32)
  | 0x1C => some (s, m.guard)
  | 0x20 => some (s, place m.supv.toNat 0)
  | 0x24 => some (s, m.addr)
  | 0x28 => some (s, place m.qref.toNat 24 ||| place m.peak.toNat 8 ||| place s.macx.queue.length 0)
  | 0x2C => some (s, m.tabsel)
  | 0x30 => some (s.modMac Mac.step, s.tabWord)
  | _ => none

def State.macWrite (s : State) (off : Nat) (v : Word) : State × Nat :=
  match off with
  | 0x00 => s.macCtl v
  | 0x04 =>
    if fld v 16 8 ≠ 0 ∨ fld v 8 2 ≠ 0 then (s, 3)
    else (s.modMac fun m => { m with
      nbdrop := BitVec.ofNat 8 (fld v 24 8), noch := m.noch && !bit v 7, cconf := m.cconf && !bit v 6,
      desync := m.desync && !bit v 5, resyncev := m.resyncev && !bit v 4, linkdrop := m.linkdrop && !bit v 3,
      parlost := m.parlost && !bit v 2, scandone := m.scandone && !bit v 1, newnb := m.newnb && !bit v 0 }, 0)
  | 0x08 | 0x0C | 0x10 => (s, 4)
  | 0x14 =>
    if s.isArmed 0 then (s, 5) else (s.modMac fun m => { m with mapSh := m.mapSh.extractLsb' 32 32 ++ v }, 0)
  | 0x18 =>
    if s.isArmed 0 then (s, 5) else (s.modMac fun m => { m with mapSh := v ++ m.mapSh.extractLsb' 0 32 }, 0)
  | 0x1C =>
    if fld v 24 8 = 0 ∨ bit v 23 ∨ fld v 18 5 < 5 ∨ 30 < fld v 18 5 ∨ fld v 15 3 ≠ 0 ∨ fld v 9 6 = 0 ∨ 50 < fld v 9 6 ∨
      fld v 0 9 < 20 ∨ 400 < fld v 0 9 then (s, 3)
    else (s.modMac fun m => { m with guard := v }, 0)
  | 0x20 => if fld v 8 24 ≠ 0 ∨ fld v 0 8 = 0 then (s, 3) else (s.modMac fun m => { m with supv := BitVec.ofNat 8 (fld v 0 8) }, 0)
  | 0x24 => if fld v 10 2 ≠ 0 ∨ 10 < fld v 12 4 then (s, 3) else (s.modMac fun m => { m with addr := v }, 0)
  | 0x28 =>
    if fld v 13 11 ≠ 0 ∨ fld v 5 3 ≠ 0 ∨ 16 < fld v 8 5 then (s, 3)
    else (s.modMac fun m => { m with qref := BitVec.ofNat 8 (fld v 24 8), peak := BitVec.ofNat 5 (fld v 8 5) }, 0)
  | 0x2C =>
    if 5 < fld v 28 4 ∨ fld v 17 11 ≠ 0 ∨ fld v 12 4 ≠ 0 ∨ pageSize (fld v 28 4) ≤ fld v 0 12 then (s, 3)
    else (s.modMac fun m => { m with tabsel := v }, 0)
  | 0x30 => s.tabWrite v
  | _ => (s, 1)

end Sys2Proof.Machine
end

