-- ==== Sys2Proof/Machine/MacSlots.lean ====
section
/-!
DEFINITION. A slot of the superframe: occurrences and hopping, the cell that is served, the frame that is selected, and
the transmission that keys up (13, 14).
-/

namespace Sys2Proof.Machine

/-! ## Cells (R399, R401) -/

def cellValid (w : Word) : Bool := bit w 31
def cellKind (w : Word) : Nat := fld w 29 2
def cellTx (w : Word) : Bool := bit w 28
def cellLong (w : Word) : Bool := bit w 27
def cellEv (w : Word) : Bool := bit w 26
def cellLink (w : Word) : Fin 16 := ⟨fld w 16 4, by unfold fld; exact Nat.mod_lt _ (by decide)⟩
def cellOfs (w : Word) : Nat := fld w 8 3
def cellSlot (w : Word) : Nat := fld w 0 8

/-- The cell occupies slot `sl`: a LONG cell counts in both its slots (R401). -/
def occupies (w : Word) (sl : Nat) : Bool :=
  cellValid w && (cellSlot w == sl || (cellLong w && cellSlot w + 1 == sl))

/-- The occurrences of slot `sl` with an ASN from 0 to `x`. -/
def occurrencesTo (x sl : Nat) : Nat := (x + 256 - sl) / 256

/-! ## Hopping (R408, R412) -/

/-- The usable list of a link. -/
def State.usable (s : State) (l : Fin 16) : List Nat :=
  (List.range s.rad.chans).filter fun k => (s.link l).map.getLsbD k && s.mac.mapAct.getLsbD k

/-- The channel of an occurrence with counter value `c` in a cell with offset `ofs` (R408). -/
def State.hop (s : State) (l : Fin 16) (c ofs : Nat) : Nat :=
  let u := s.usable l
  let x := s.link l
  u.getD ((x.base.toNat + ofs + c * x.inc.toNat) % u.length) 0

/-- The beacon channel `i` of the plan (R396). -/
def Rad.beaconChan (r : Rad) (i : Nat) : Nat :=
  if r.us then [7, 31, 55].getD (i % 3) 7 else [4, 17, 30].getD (i % 3) 4

/-- `k` occurrences of the link's DATA cells from the current counter value on: the pending map applies at the first one at
or after its instant, and the counter advances (R410, R412). -/
def Link.occurs (x : Link) (k : Nat) : Link :=
  if k = 0 then x
  else
    let d := (x.counter - x.inst).toNat
    let applies := x.pend && (decide (d < 0x8000) || decide (0x10000 ≤ d + (k - 1)))
    let x := if applies then { x with map := x.pmap, pend := false } else x
    { x with counter := x.counter + BitVec.ofNat 16 k }

/-- The occurrences in the skipped slots after `lo` and before `a`, which lies ahead in the numbers' cycle (R40, R395, R410). -/
def State.skipSlots (s : State) (lo a : Nat) : State :=
  let hi := lo + (a + 2 ^ 40 - lo) % 2 ^ 40
  s.mac.cellAct.toList.foldl (fun s w =>
    if cellValid w && cellKind w == 0 && (s.link (cellLink w)).state != .off then
      let sl := cellSlot w
      s.modLink (cellLink w) fun x => x.occurs (occurrencesTo (hi - 1) sl - occurrencesTo lo sl)
    else s) s

/-! ## Timing between sleepers (R413, R414) -/

/-- The guard toward the parent, in units of 1/160,000,000 us, uncapped products kept exact (R414). -/
def State.guardOf (s : State) : Nat :=
  let g := s.mac.guard
  let peer := match s.mac.parentLink with
    | none => 0
    | some l => fld (place (s.neigh (s.link l).neigh).drift.toNat 0) 0 8
  let own := if s.tmp.disc = .locked then fld g 24 8 else 400
  let t := (s.local - BitVec.ofNat 64 s.macx.candAt).toNat
  min (fld g 9 6 * 1600000000 + (own + peer) * t) (fld g 0 9 * 1600000000)

/-- The guard is at most TXW (R413). -/
def State.guardOk (s : State) : Bool := decide (s.guardOf ≤ fld s.mac.guard 18 5 * 1600000000)

/-- The instant, in plant time, at which the slot under way starts (R393). -/
def State.slotPlant (s : State) : BitVec 64 :=
  let q := s.plant.toNat / 256000
  let d := (s.macx.slotAsn + 2 ^ 40 - q % 2 ^ 40 + 2 ^ 39) % 2 ^ 40
  BitVec.ofNat 64 ((q + d - 2 ^ 39) * 256000)

/-- Plant time of the SFD of a transmission in the slot under way (R382, R404). -/
def State.sfdPlant (s : State) : Nat := (s.slotPlant + BitVec.ofNat 64 (32000 + s.rad.sfdDelay)).toNat

/-- A child may transmit toward its parent (R413). -/
def State.childMay (s : State) : Bool := s.tmp.sync && s.guardOk

/-! ## What a slot serves (R397, R401, R416, R419, R423) -/

/-- The choice of a slot. -/
inductive Pick where
  | parentBeacon
  | rootBeacon
  /-- The joiner's use of its parent's JOIN cell (R423). -/
  | joiner
  | cell (i : Fin 64)
  deriving DecidableEq, Repr

/-- The node's own depth, as its beacons show it (R363). -/
def State.depth8 (s : State) : Bool := s.tmp.depth == 8

def State.resync (s : State) : Bool :=
  match s.mac.parentLink with
  | none => false
  | some l => (s.link l).state == .resync

/-- The parent's neighbour entry. -/
def State.parentNeigh (s : State) : Option Neigh := s.mac.parentLink.map fun l => s.neigh (s.link l).neigh

def Neigh.bslot (x : Neigh) : Nat := x.cells.toNat / 2 ^ 15 % 16
def Neigh.bofs (x : Neigh) : Nat := x.cells.toNat / 2 ^ 12 % 8
def Neigh.joinOk (x : Neigh) : Bool := x.cells.getLsbD 11
def Neigh.jofs (x : Neigh) : Nat := x.cells.toNat / 2 ^ 8 % 8
def Neigh.jslot (x : Neigh) : Nat := x.cells.toNat % 256

/-- The node listens to its parent's beacon in this superframe (R419). -/
def State.hearsBeacon (s : State) (sfn : Nat) : Bool :=
  match s.mac.parentLink with
  | none => false
  | some l =>
    let x := s.link l
    x.state == .listen || x.state == .resync || x.miss != 0 || !s.guardOk || sfn % (s.mac.bskip + 1) == 0

/-- The node's lowest-indexed BEACON cell (R397). -/
def Mac.beaconCell (m : Mac) : Option (Fin 64) :=
  (upTo 64).find? fun i => cellValid (m.cellAct.get i) && cellKind (m.cellAct.get i) == 1

/-- The node's lowest-indexed JOIN cell (R398). -/
def Mac.joinCell (m : Mac) : Option (Fin 64) :=
  (upTo 64).find? fun i => cellValid (m.cellAct.get i) && cellKind (m.cellAct.get i) == 2

/-- Cells that a slot holds for the node; a DATA cell whose link is OFF counts as none (R401). -/
def State.slotCells (s : State) (sl : Nat) : List (Fin 64) :=
  (upTo 64).filter fun i =>
    let w := s.mac.cellAct.get i
    occupies w sl && !(cellKind w == 0 && (s.link (cellLink w)).state == .off)

/-- The cell can be served at all: a relay's BEACON cell, not a root's (R397, R408, R416, R441). -/
def State.servable (s : State) (i : Fin 64) : Bool :=
  let w := s.mac.cellAct.get i
  match cellKind w with
  | 0 => (s.link (cellLink w)).state == .active && !s.resync && decide (2 ≤ (s.usable (cellLink w)).length)
  | 1 => s.mac.mode == 1 && s.mac.saddr != 0 && s.mac.beaconCell == some i && !s.depth8
  | _ => !s.resync && !s.depth8

/-- What the slot with this ASN serves. -/
def State.pickCell (s : State) (asn : Nat) : Option Pick :=
  let sl := asn % 256
  let sfn := asn / 256
  let parent := match s.parentNeigh with
    | none => false
    | some n => n.bslot == sl && s.hearsBeacon sfn
  let joins := match s.parentNeigh with
    | none => false
    | some n => s.pstate == 1 && n.joinOk && n.jslot == sl
  if s.mac.mode == 2 && sl == 0 then some .rootBeacon
  else if parent then some .parentBeacon
  else if joins then some .joiner
  else ((s.slotCells sl).find? s.servable).map .cell

/-- EV of the cell that the slot with this ASN serves (R403). -/
def State.pickEv (s : State) (asn : Nat) : Bool :=
  match s.pickCell asn with
  | some (.cell i) => cellEv (s.mac.cellAct.get i)
  | _ => false

/-! ## Frame sizes (R406, R431 to R439) -/

/-- PSDU octets of a frame (R431). -/
def State.psduLen (s : State) (f : TxFrame) : Nat :=
  let m := micLen s.sec.txlvl.toNat
  if f.type = 5 then 17 + f.payload.length
  else if f.type = 6 then 17 + m
  else 23 + m + f.payload.length

/-- The cap and the bound E of R406. -/
def Rad.cellFits (r : Rad) (n : Nat) (long : Bool) : Bool :=
  let cap := if long then [127, 255, 255].getD r.rate 255 else [40, 127, 200].getD r.rate 200
  decide (n ≤ cap) &&
    decide (3 * 2016 + r.air3 n + 3 * 516 + r.air3 12 ≤ 3 * (if long then 31600 else 15600))

/-- The frame fits some TX cell of its link, or a JOIN cell (R406, R453). -/
def State.fitsLink (s : State) (f : TxFrame) : Bool :=
  let n := s.psduLen f
  if f.type = 5 then s.rad.cellFits n false
  else s.mac.cellAct.toList.any fun w =>
    cellValid w && cellKind w == 0 && cellTx w && cellLink w == f.link && s.rad.cellFits n (cellLong w)

/-- A beacon ends within its slot (R398, R438). -/
def Rad.beaconFits (r : Rad) : Bool := decide (3 * 2016 + r.air3 48 ≤ 3 * 15600)

/-! ## Routing (R441 to R445) -/

/-- The next hop for destination `d` of a frame that arrived on link `a` or starts here (R444); `none`: no route or a
loop (`some true`). -/
def State.route (s : State) (d : BitVec 10) (a : Option (Fin 16)) : Except Bool (Fin 16) :=
  let same (r : Route) : Bool := d.toNat >>> (10 - r.plen.toNat) == r.base.toNat >>> (10 - r.plen.toNat)
  let best : Option Route :=
    if d = 0 then none
    else s.mac.routes.toList.foldl (fun b r =>
      if r.valid && (s.linkTo r.neigh).isSome && same r then
        match b with
        | none => some r
        | some x => if x.plen.toNat < r.plen.toNat then some r else some x
      else b) none
  let next : Option (Fin 16) :=
    match best with
    | some r => s.linkTo r.neigh
    | none => if s.mac.mode = 1 ∧ a ≠ s.mac.parentLink then s.mac.parentLink else none
  match next with
  | none => .error false
  | some l => if a = some l then .error true else .ok l

/-- The entry that chose the next hop starts a new age (R442). -/
def State.routeUsed (s : State) (d : BitVec 10) : State :=
  let same (r : Route) : Bool := d.toNat >>> (10 - r.plen.toNat) == r.base.toNat >>> (10 - r.plen.toNat)
  let ok (i : Fin 64) : Bool :=
    let r := s.mac.routes.get i
    d != 0 && r.valid && (s.linkTo r.neigh).isSome && same r
  let best := (upTo 64).foldl (fun (b : Option (Fin 64)) i =>
    if ok i then
      match b with
      | none => some i
      | some j => if (s.mac.routes.get j).plen.toNat < (s.mac.routes.get i).plen.toNat then some i else some j
    else b) none
  match best with
  | none => s
  | some i => s.modMac fun m => { m with routes := m.routes.set i { m.routes.get i with age := 0 } }

/-- The node itself is the destination (R444). -/
def State.isHere (s : State) (d : BitVec 10) : Bool := d == s.mac.saddr || (s.mac.mode == 2 && d == 0)

/-! ## Keys of a frame to send (R471, R477) -/

/-- The key slot and class for a next hop, if there is one (R471). -/
def State.keyFor (s : State) (n : BitVec 5) : Option (Fin 16 × Nat) :=
  match s.sec.linkSlot n with
  | some k => some (k, 1)
  | none => if (s.slot s.sec.netSlot).valid then some (s.sec.netSlot, 0) else none

/-- A frame was refused for a missing or exhausted key: EXH sets and NETERR pends (R471, R477). -/
def State.noKey (s : State) : State := (s.modSec fun c => { c with exh := true }).event 3

/-! ## Taking descriptors (R450, R452, R453) -/

/-- A TX descriptor ends at the take: no attempt was made, so STAMP is a free value (R452, R453). -/
def State.takeEnd (s : State) (k : Fin 16) (status : Nat) (link : Option (Fin 16)) : State :=
  let stamp := Config.freeWord s.fresh
  let l := match link with
    | some l => l.val
    | none => (Config.freeWord (s.fresh + 1)).toNat
  ({ s with fresh := s.fresh + 2 }).endDesc k status stamp l 0

/-- A parent has a link in ACTIVE with the neighbour that an EUI names (R423). -/
def State.activeTo (s : State) (n : BitVec 5) : Bool :=
  (upTo 16).any fun l => (s.link l).state == .active && (s.link l).neigh == n

/-- The frame that a TX descriptor describes, and whether it has a next hop (R452). -/
def State.takeFrame (s : State) (k : Fin 16) (w0 w1 : Word) (bytes : List Byte) : TxFrame × Bool :=
  let type := fld w0 24 3
  let dst : BitVec 10 := BitVec.ofNat 10 (fld w0 0 10)
  let base : TxFrame :=
    { id := 0, type := BitVec.ofNat 3 type, slot := some k, link := 0, dst := dst, src := s.mac.saddr,
      seq := BitVec.ofNat 16 (fld w1 16 16), hops := 16, payload := bytes, eui := 0, down := false,
      retry := fld w0 12 4, tries := 0, refused := 0, lseq := none, fcnt := none, stamp := Config.freeWord s.fresh }
  if type = 5 then
    let eui : BitVec 64 := BitVec.ofNat 64 (ofLE (natBytes (bytes.take 8)))
    let f : TxFrame := { base with eui := eui, payload := bytes.drop 8, dst := 0, seq := 0 }
    match s.mac.parentLink, s.pstate == 1 with
    | some l, true => ({ f with link := l }, true)
    | _, _ => ({ f with down := true }, (s.neighByEui eui).isSome)
  else if s.mac.saddr = 0 then (base, false)
  else if type = 6 then
    match s.mac.parentLink with
    | none => (base, false)
    | some l => ({ base with link := l, dst := 0, seq := 0, payload := bytes.take 1 }, true)
  else if s.isHere dst then (base, false)
  else match s.route dst none with
    | .ok l => ({ base with link := l }, true)
    | .error _ => (base, false)

/-- A frame on this link would have no key, or an exhausted one (R471, R477). -/
def State.keyGone (s : State) (l : Fin 16) : Bool :=
  match s.keyFor (s.link l).neigh with
  | none => true
  | some (c, _) => (s.slot c).fcnt == 0xFFFFFFFF

/-- One TX slot is taken (R452, R453). -/
def State.takeOne (s : State) (k : Fin 16) (w0 w1 : Word) : State :=
  let type := fld w0 24 3
  let len := fld w0 16 8
  if (type ≠ 0 ∧ type ≠ 5 ∧ type ≠ 6) ∨ len = 0 ∨ 240 < len ∨ fld w0 12 4 = 0 then s.takeEnd k 8 none
  else
    let (s, _) := s.dmaRead (txSlotAt k + 16) len
    let bytes := s.byteList (txSlotAt k + 16) (if type = 5 then max 8 len else len)
    let (f, hop) := s.takeFrame k w0 w1 bytes
    let s := { s with fresh := s.fresh + 1 }
    let used := if f.down then none else some f.link
    if !hop then s.takeEnd k 4 none
    else
      let s := if type = 0 then s.routeUsed f.dst else s
      if !s.fitsLink f then s.takeEnd k 3 used
      else if type != 5 && s.keyGone f.link then s.noKey.takeEnd k 5 used
      else if s.queueFull then s.countQref.takeEnd k 2 used
      else s.enqueue f

/-- TX slots are taken in ring order until one is not handed over (R452); `n` bounds the walk at one round of the ring. -/
def State.takeDescs (s : State) : Nat → State
  | 0 => s
  | n + 1 =>
    let k := s.macx.txPtr
    if s.macx.queue.any fun f => f.slot == some k then s
    else
      let (s, v) := s.dmaRead (txSlotAt k) 8
      let w0 : Word := BitVec.ofNat 32 v
      if !bit w0 31 then s
      else
        let s := s.modMacx fun x => { x with txPtr := k + 1 }
        (s.takeOne k w0 (BitVec.ofNat 32 (v / 2 ^ 32))).takeDescs n

/-! ## The slot's service (R387, R397, R399, R418, R423) -/

/-- The queued frame that a TX service sends: the oldest that fits. -/
def State.selected (s : State) (v : Serving) : Option TxFrame :=
  match v with
  | .txData l long => s.macx.queue.find? fun (f : TxFrame) =>
      f.type != 5 && f.link == l && s.rad.cellFits (s.psduLen f) long
  | .txJoin true => s.macx.queue.find? fun (f : TxFrame) =>
      f.type == 5 && f.down && (match s.neighByEui f.eui with
        | none => false
        | some n => !s.activeTo n)
  | .txJoin false => s.macx.queue.find? fun (f : TxFrame) => f.type == 5 && !f.down
  | _ => none

/-- PSDU octets of the transmission of a service. -/
def State.servingLen (s : State) (v : Serving) : Nat :=
  match v with
  | .beacon => 48
  | .keepAlive _ => 16 + micLen s.sec.txlvl.toNat
  | _ => match s.selected v with
    | some f => s.psduLen f
    | none => 0

/-- The radio is free for the whole listen: one that reaches into the slot before needs that slot to have been idle (R389). -/
def State.listenFree (s : State) : Bool := !s.macx.before || decide (s.rad.lbtLt.toNat ≤ 1900)

/-- The cell's transmission is refused: a frame refused in 64 consecutive cells ends (R385, R448). -/
def State.txRefused (s : State) : State :=
  let f? := s.selected s.macx.serving
  let s := (s.modMacx fun x => { x with serving := .nothing, lbtOk := false }).setRad .idle
  match f? with
  | none => s
  | some f =>
    let g : TxFrame := { f with refused := f.refused + 1 }
    let s := s.modMacx fun x => { x with queue := x.queue.map fun q => if q = f then g else q }
    if 64 ≤ g.refused then s.endFrame g 6 else s

/-- The refusal of a transmission of this service on this channel, under conditions 1 to 3 of R384. -/
def State.txCheck (s : State) : Option Refuse := s.dwellCheck s.macx.chan (s.rad.onTime (s.servingLen s.macx.serving))

/-- A transmission is to be made in the slot: with LBT its listen begins with dwell checks 1 to 3, at the threshold that
stands (R384, R387 to R389). -/
def State.serveTx (s : State) (v : Serving) (chan : Nat) : State :=
  let s := s.modMacx fun x => { x with serving := v, chan := chan, listens := s.rad.lbt, lbtOk := false, active := true }
  if s.rad.lbt then
    match s.txCheck with
    | some r => (s.refuse r).txRefused
    | none =>
      if s.listenFree then (s.modRad fun r => { r with lisThr := r.lbtThr }).setRad .listen
      else (s.refuse .lbtBusy).txRefused
  else s.setRad .idle

def State.serveRx (s : State) (v : Serving) (chan : Nat) : State :=
  (s.modMacx fun x => { x with serving := v, chan := chan, active := true }).setRad .receive

def State.serveNone (s : State) : State := (s.modMacx fun x => { x with serving := .nothing }).setRad .idle

/-- A DATA cell of link `l` on channel `chan` (R399, R413, R418). -/
def State.serveData (s : State) (l : Fin 16) (tx long : Bool) (chan : Nat) : State :=
  let x := s.link l
  if !tx then s.serveRx (.rxData l) chan
  else if (x.parent && !s.childMay) || (s.mac.mode == 1 && s.mac.saddr == 0) then s.serveNone
  else if x.parent && decide (s.mac.kaint ≤ x.quiet) then s.serveTx (.keepAlive l) chan
  else if (s.selected (.txData l long)).isSome then s.serveTx (.txData l long) chan
  else s.serveNone

/-- The joiner's use of its parent's JOIN cell (R413, R423). -/
def State.serveJoiner (s : State) (sfn chan : Nat) : State :=
  if sfn % 2 = 1 then s.serveRx .rxJoin chan
  else if (s.selected (.txJoin false)).isNone then s.serveNone
  else
    let (s, b) := match s.macx.backoff with
      | some b => (s, b)
      | none =>
        ({ s with fresh := s.fresh + 1 }, if s.sec.entok then (Config.entropy s.fresh).toNat % 2 ^ s.macx.be else 0)
    if b ≠ 0 then (s.modMacx fun x => { x with backoff := some (b - 1) }).serveNone
    else
      let s := s.modMacx fun x => { x with backoff := some 0 }
      if s.childMay then s.serveTx (.txJoin false) chan else s.serveNone

/-- The second slot of a LONG cell that is being served (R399, R401). -/
def State.goesOn (s : State) : State :=
  s.modMacx fun x => { x with active := x.serving != .nothing || x.attempt.isSome || x.ack.isSome }

/-- The slot serves its choice. -/
def State.serve (s : State) (asn : Nat) (p : Option Pick) : State :=
  let sl := asn % 256
  let sfn := asn / 256
  match p with
  | none => s.serveNone
  | some .rootBeacon =>
    if s.macSync && s.rad.beaconFits then s.serveTx .beacon (s.rad.beaconChan sfn) else s.serveNone
  | some .parentBeacon =>
    match s.parentNeigh with
    | none => s.serveNone
    | some n => s.serveRx .rxBeacon (s.rad.beaconChan (sfn + n.bofs))
  | some .joiner =>
    match s.parentNeigh with
    | none => s.serveNone
    | some n => s.serveJoiner sfn (s.rad.beaconChan (sfn + n.jofs))
  | some (.cell i) =>
    let w := s.mac.cellAct.get i
    if cellSlot w ≠ sl then (if s.macx.cell = some i then s.goesOn else s.serveNone)
    else if cellKind w = 0 then
      s.serveData (cellLink w) (cellTx w) (cellLong w) s.macx.chan
    else
      let chan := s.rad.beaconChan (sfn + cellOfs w)
      if cellKind w = 1 then
        if s.macSync && s.rad.beaconFits then s.serveTx .beacon chan else s.serveNone
      else if sfn % 2 = 0 then s.serveRx .rxJoin chan
      else if (s.selected (.txJoin true)).isSome then s.serveTx (.txJoin true) chan
      else s.serveNone

/-- The occurrences of the slot count for their links; the served one leaves its value and its channel (R408, R410). -/
def State.occurrences (s : State) (sl : Nat) (served : Option (Fin 64)) : State :=
  (upTo 64).foldl (fun s i =>
    let w := s.mac.cellAct.get i
    let l := cellLink w
    if cellValid w && cellKind w == 0 && cellSlot w == sl && (s.link l).state != .off then
      let c := (s.link l).counter
      let s := s.modLink l fun x => x.occurs 1
      if served = some i then
        let k := s.hop l c.toNat (cellOfs w)
        s.modMacx fun x => { x with occ := c, chan := k }
      else s
    else s) s

/-- The start of the slot with this ASN (R395, R401, R403, R450). -/
def State.slotBegin (s : State) (asn : Nat) : State :=
  let s := s.skipSlots s.macx.slotAsn asn
  let next := asn == (s.macx.slotAsn + 1) % 2 ^ 40
  let s := s.modMacx fun x => { x with slotAsn := asn, prewake := false, before := next && x.active, active := false }
  let s := s.takeDescs 16
  let p := s.pickCell asn
  let sl := asn % 256
  let served := match p with
    | some (.cell i) => some i
    | _ => none
  let here := s.slotCells sl
  let few := here.any fun i =>
    let w := s.mac.cellAct.get i
    cellKind w == 0 && cellSlot w == sl && (s.link (cellLink w)).state == .active &&
      decide ((s.usable (cellLink w)).length < 2)
  let s := s.modMac fun m => { m with
    noch := m.noch || few, cconf := m.cconf || here.any fun i => some i != served }
  let s := s.occurrences sl served
  let s := if s.sys.runRad then s.serve asn p else s.serveNone
  s.modMacx fun x => { x with cell := served }

/-! ## Composing (R429 to R439) -/

def le16 (v : Nat) : List Nat := bytesLE v 2

def fcOf (type cnt : Nat) (sec : Bool) (up9 : Nat) : List Nat :=
  le16 (0x2000 + up9 + (cnt % 16) * 16 + 8 * b2n sec + type)

/-- The PSDU with its FCS (R371). -/
def withFcs (l : List Nat) : List Nat := l ++ bytesLE (crc32 l) 4

/-- A secured frame (R431). -/
def State.secured (s : State) (type lseq ldst : Nat) (key : Fin 16) (cls : Nat) (fcnt : Word) (body : List Nat) : List Nat :=
  let lvl := s.sec.txlvl.toNat + 8 * cls
  let auth := fcOf type s.macx.occ.toNat true 0 ++ [lseq] ++ le16 ldst ++ le16 s.mac.saddr.toNat ++ [lvl] ++
    bytesLE fcnt.toNat 4
  withFcs (auth ++ protect (keyBytes (s.slot key)) s.eui fcnt lvl auth body)

/-- The body of a queued frame (R431, R432). -/
def frameBody (f : TxFrame) : List Nat :=
  if f.type = 6 then natBytes f.payload
  else le16 f.dst.toNat ++ le16 f.src.toNat ++ le16 f.seq.toNat ++ [f.hops.toNat] ++ natBytes f.payload

/-- Word 3 of a neighbour entry as the node's own beacon shows it (R398, R437). -/
def State.ownCells (s : State) (bslot bofs : Nat) : Nat :=
  let j := match s.mac.joinCell with
    | none => 0
    | some i =>
      let w := s.mac.cellAct.get i
      2 ^ 24 + cellOfs w * 2 ^ 21 + cellSlot w * 2 ^ 13
  bslot * 2 ^ 28 + bofs * 2 ^ 25 + (if s.depth8 then 0 else j)

/-- The stamp of the transmission that keys up, as a descriptor shows it (R381, R452). -/
def State.sfdLocal (s : State) : Word := s.macx.sfdAt.setWidth 32

/-- A beacon (R437): its bytes before the MIC. -/
def State.beaconAuth (s : State) (fcnt : Word) : List Nat :=
  let (bslot, bofs) := match s.mac.mode, s.mac.beaconCell with
    | 2, _ => (0, 0)
    | _, some i => (cellSlot (s.mac.cellAct.get i), cellOfs (s.mac.cellAct.get i))
    | _, none => (0, 0)
  fcOf 2 0 true 0 ++ le16 s.mac.netid ++ le16 s.mac.saddr.toNat ++ bytesLE s.eui 8 ++ [1] ++ bytesLE fcnt.toNat 4 ++
    bytesLE s.sfdPlant 8 ++ bytesLE s.macx.slotAsn 5 ++
    bytesLE ((s.tmp.qual &&& 0xCF000FFF).toNat) 4 ++ bytesLE (s.ownCells bslot bofs) 4

/-! ## Key-up (R384, R404, R412, R431) -/

/-- The slot's transmission is not made; nothing was refused. -/
def State.txIdle (s : State) : State :=
  (s.modMacx fun x => { x with serving := .nothing, lbtOk := false }).setRad .idle

/-- From the end of a frame's SFD to the end of its acknowledgement's, tempo units: the `n` octets of its PSDU, 516 us, and the
acknowledgement's preamble and SFD (R374, R404). -/
def Rad.ackDelay (r : Rad) (n : Nat) : Nat :=
  16 * (((if r.fec then 2 * (2 + n + 1) else 2 + n) + r.pre + 2) * r.octet3 + 3 * 516) / 3

/-- When the acknowledgement of a frame of `n` octets that keys up now is due (R404). -/
def State.ackDue (s : State) (n : Nat) : BitVec 64 := s.macx.sfdAt + BitVec.ofNat 64 (s.rad.ackDelay n)

/-- After the frame the sender waits for its acknowledgement (R404, R436). -/
def State.awaitAck (s : State) (a : Attempt) : State :=
  (s.modMacx fun x => { x with serving := .nothing, lbtOk := false, attempt := some a }).setRad .receive

/-- A frame of a link resets the keep-alive interval of the parent link (R418). -/
def State.spoke (s : State) (l : Fin 16) : State := s.modLink l fun x => { x with quiet := 0 }

/-- The counter of a frame: the one it has, if its key slot still holds a key, or a new one (R41, R475). A frame whose slot
has been erased meanwhile ends with status 5, and one whose slot has been refilled keeps its counter under the new key: the
spec states neither (DESIGN CHOICE, log 66). -/
def State.frameCounter (s : State) (f : TxFrame) : State × Option (Fin 16 × Nat × Word) × Bool :=
  let n := (s.link f.link).neigh
  match f.fcnt with
  | some (c, k) =>
    if (s.slot k).valid then (s, some (k, if 3 ≤ k.val then 1 else 0, c), false) else (s.noKey, none, true)
  | none =>
    match s.keyFor n with
    | none => (s.noKey, none, true)
    | some (k, cls) =>
      match s.takeCounter k with
      | (s, .use c) => (s, some (k, cls, c), false)
      | (s, .waits) => (s, none, false)
      | (s, .exhausted) => (s, none, true)

/-- A queued frame of a link keys up. -/
def State.keyData (s : State) (f : TxFrame) : State :=
  match s.frameCounter f with
  | (s, none, gone) => if gone then (s.endFrame f 5).txIdle else s.txIdle
  | (s, some (k, cls, c), _) =>
    let x := s.link f.link
    let q := f.lseq.getD x.lseq
    let s := if f.lseq.isNone then s.modLink f.link fun x => { x with lseq := x.lseq + 1 } else s
    let psdu := s.secured f.type.toNat q.toNat (s.neigh x.neigh).saddr.toNat k cls c (frameBody f)
    let g : TxFrame := { f with
      lseq := some q, fcnt := some (c, k), tries := f.tries + 1, refused := 0, stamp := s.sfdLocal }
    let s := s.modMacx fun x => { x with queue := x.queue.map fun r => if r = f then g else r }
    ((s.onAir s.macx.chan psdu).spoke f.link).awaitAck { link := f.link, lseq := q, type := f.type, due := s.ackDue psdu.length }

/-- A JOIN frame keys up (R423, R439). -/
def State.keyJoin (s : State) (f : TxFrame) : State :=
  let q := f.lseq.getD (if f.down then s.macx.joinDown else s.macx.joinSeq)
  let s := if f.lseq.isSome then s
    else if f.down then s.modMacx fun x => { x with joinDown := q + 1 }
    else s.modMacx fun x => { x with joinSeq := q + 1 }
  let paddr := if f.down then s.mac.saddr else (s.neigh (s.link f.link).neigh).saddr
  let psdu := withFcs (fcOf 5 0 false (if f.down then 0x100 else 0) ++ [q.toNat] ++ le16 paddr.toNat ++
    bytesLE f.eui.toNat 8 ++ natBytes f.payload)
  let g : TxFrame := { f with lseq := some q, tries := f.tries + 1, refused := 0, stamp := s.sfdLocal }
  let s := s.modMacx fun x => { x with queue := x.queue.map fun r => if r = f then g else r }
  let s := s.onAir s.macx.chan psdu
  let s := if f.down then s else (s.spoke f.link).modMacx fun x => { x with backoff := none }
  s.awaitAck { link := f.link, lseq := q, type := 5, due := s.ackDue psdu.length }

/-- A keep-alive keys up (R418, R431). -/
def State.keyAlive (s : State) (l : Fin 16) : State :=
  let x := s.link l
  match s.keyFor x.neigh with
  | none => s.noKey.txIdle
  | some (k, cls) =>
    match s.takeCounter k with
    | (s, .use c) =>
      let q := x.lseq
      let s := s.modLink l fun x => { x with lseq := x.lseq + 1 }
      let psdu := s.secured 3 q.toNat (s.neigh x.neigh).saddr.toNat k cls c []
      ((s.onAir s.macx.chan psdu).spoke l).awaitAck { link := l, lseq := q, type := 3, due := s.ackDue psdu.length }
    | (s, _) => s.txIdle

/-- A beacon keys up (R397, R437). -/
def State.keyBeacon (s : State) : State :=
  let k := s.sec.netSlot
  if !(s.slot k).valid then s.noKey.txIdle
  else
    match s.takeCounter k with
    | (s, .use c) =>
      let a := s.beaconAuth c
      let psdu := withFcs (a ++ protect (keyBytes (s.slot k)) s.eui c 1 a [])
      ((s.onAir s.macx.chan psdu).event 2).txIdle
    | (s, _) => s.txIdle

/-- The service transmits in this slot. -/
def Serving.transmits : Serving → Bool
  | .txData .. | .keepAlive _ | .txJoin _ | .beacon => true
  | _ => false

/-- The frame of the service keys up, past every check. -/
def State.keyFrame (s : State) : State :=
  match s.macx.serving with
  | .beacon => s.keyBeacon
  | .keepAlive l => s.keyAlive l
  | .txData l long =>
    match s.selected (.txData l long) with
    | some f => s.keyData f
    | none => s.txIdle
  | .txJoin d =>
    match s.selected (.txJoin d) with
    | some f => s.keyJoin f
    | none => s.txIdle
  | _ => s

/-- Key-up: with EN 0, or at a member, it is refused; without a listen the dwell checks 1 to 3 are made here (R384, R505). -/
def State.keyUp (s : State) : State :=
  if !s.mayKey then s.txRefused
  else if s.macx.listens then s.keyFrame
  else match s.txCheck with
    | some r => (s.refuse r).txRefused
    | none => s.keyFrame

/-- A listen ends; RAD_LBT as it stood when it began decides (R387). -/
def State.listenEnd (s : State) (rssi : Int) (sfd : Bool) : State :=
  if sfd || decide (s.rad.lisThr.toInt < rssiRange rssi) then
    ((s.modRad fun r => { r with busycnt := BitVec.ofNat 8 (incSat 255 r.busycnt.toNat) }).refuse .lbtBusy).txRefused
  else s.modMacx fun x => { x with lbtOk := true }

end Sys2Proof.Machine
end

