-- ==== Sys2Proof/Machine/MacFrames.lean ====
section
/-!
DEFINITION. A received frame through the checks of R455, acknowledgements, timeouts, and the superframe boundary (13, 14).
-/

namespace Sys2Proof.Machine

/-! ## Fields of a received PSDU -/

def oct (p : List Nat) (i : Nat) : Nat := p.getD i 0
def oct16 (p : List Nat) (i : Nat) : Nat := oct p i + 256 * oct p (i + 1)
/-- `n` octets from `i`, little-endian. -/
def octLE (p : List Nat) (i n : Nat) : Nat := ofLE ((p.drop i).take n)

def fcType (p : List Nat) : Nat := oct16 p 0 % 8
def fcSec (p : List Nat) : Bool := (oct16 p 0).testBit 3
def fcCnt (p : List Nat) : Nat := oct16 p 0 / 16 % 16
def fcDown (p : List Nat) : Bool := (oct16 p 0).testBit 8

/-- The type carries security (R430). -/
def secType (t : Nat) : Bool := t != 1 && t != 5

/-- The length matches the layout (R431 to R439); MIC octets by SECLVL. -/
def lenOk (t n lvl : Nat) : Bool :=
  let m := micLen lvl
  match t with
  | 1 => n == 12
  | 2 => n == 48
  | 5 => decide (17 ≤ n) && decide (n ≤ 249)
  | 3 => n == 16 + m
  | 4 => n == 30 + m
  | 6 => n == 17 + m
  | _ => decide (23 + m ≤ n)

/-- The reserved bits of the layout are 0, and SECLVL is one that exists (R429, R431, R437). -/
def layoutOk (t : Nat) (p : List Nat) : Bool :=
  let fc := oct16 p 0
  let addr (i : Nat) : Bool := oct16 p i < 1024
  fc / 2 ^ 13 == 1 && fc / 2 ^ 10 % 8 == 0 && (t == 1 || !fc.testBit 9) && (t == 5 || !fc.testBit 8) &&
    ((t != 2 && t != 5) || fcCnt p == 0) &&
    (match t with
     | 1 => addr 3 && addr 5
     | 2 => addr 4 && oct p 14 == 1
     | 5 => addr 3
     | _ => addr 3 && addr 5 && oct p 7 / 32 == 0 && decide (oct p 7 / 8 % 4 < 2) &&
         decide (micLen (oct p 7 % 8) ≠ 0))

/-- R430: the node discards what does not match. -/
def frameOk (p : List Nat) : Bool :=
  let t := fcType p
  t != 7 && fcSec p == secType t && lenOk t p.length (if secType t then oct p 7 % 8 else 0) && layoutOk t p

/-! ## Replay windows (R456, R474) -/

inductive Fresh where
  | new | repeated | stale
  deriving DecidableEq, Repr

/-- A counter against a window. -/
def winCheck (h w f : Word) : Fresh :=
  if h.toNat < f.toNat then .new
  else if h.toNat - f.toNat < 32 then (if bit w (h.toNat - f.toNat) then .repeated else .new)
  else .stale

/-- The window after an accepted counter: highest, map. -/
def winTake (h w f : Word) : Word × Word :=
  if h.toNat < f.toNat then
    (f, if f.toNat - h.toNat < 32 then (w <<< (f.toNat - h.toNat)) ||| 1 else 1)
  else (h, w ||| place 1 (h.toNat - f.toNat))

/-- A frame of key class `cls`, authentic under generation `gen`, against the neighbour's window (R456, R474). -/
def Neigh.fresh (x : Neigh) (cls : Nat) (gen : BitVec 16) (f : Word) : Fresh :=
  if cls = 1 then winCheck x.lhigh x.lwin f
  else if x.ngen.toNat < gen.toNat then winCheck 0 0 f
  else if gen.toNat < x.ngen.toNat then .stale
  else winCheck x.nhigh x.nwin f

/-- The window takes an accepted frame. -/
def Neigh.accept (x : Neigh) (cls : Nat) (gen : BitVec 16) (f : Word) : Neigh :=
  if cls = 1 then
    let r := winTake x.lhigh x.lwin f
    { x with lhigh := r.1, lwin := r.2 }
  else
    let r := if x.ngen.toNat < gen.toNat then winTake 0 0 f else winTake x.nhigh x.nwin f
    { x with nhigh := r.1, nwin := r.2, ngen := gen }

/-- A higher generation clears the window before the check (R474). -/
def Neigh.newGen (x : Neigh) (cls : Nat) (gen : BitVec 16) : Neigh :=
  if cls ≠ 1 ∧ x.ngen.toNat < gen.toNat then { x with nhigh := 0, nwin := 0, ngen := gen } else x

/-! ## Reports -/

def State.micFail (s : State) : State :=
  (s.modSec fun c => { c with miccnt := BitVec.ofNat 8 (incSat 255 c.miccnt.toNat) }).event 3

def State.staleFrame (s : State) : State :=
  (s.modSec fun c => { c with stalecnt := BitVec.ofNat 8 (incSat 255 c.stalecnt.toNat) }).event 3

/-! ## Authentication (R473) -/

/-- Class 0 is tried with the NETTX slot, then with the other network slot: the slot and what it opens. -/
def State.openNet (s : State) (f : Fin 16 → Option (List Nat)) : Option (Fin 16 × List Nat) :=
  let try_ (k : Fin 16) : Option (Fin 16 × List Nat) :=
    if (s.slot k).valid then (f k).map fun b => (k, b) else none
  match try_ s.sec.netSlot with
  | some r => some r
  | none => try_ s.sec.otherNet

/-! ## Delivery (R454, R458) -/

/-- The MAC is offered the RX slot at its pointer. -/
def State.rxOffered (s : State) : State × Bool :=
  let (s, v) := s.dmaRead (rxSlotAt s.macx.rxPtr) 4
  (s, bit (BitVec.ofNat 32 v) 31)

/-- A frame is written to the RX slot at the pointer, which advances; RADIO sets (R454). -/
def State.deliver (s : State) (dup : Bool) (type src seq : Nat) (rssi : BitVec 8) (n : BitVec 5) (stamp : Word)
    (hops : Nat) (payload : List Nat) : State :=
  let a := rxSlotAt s.macx.rxPtr
  let s := s.dmaWrite (a + 16) payload
  let s := s.descWrite (a + 4) (place (seq % 65536) 16 ||| place rssi.toNat 8 ||| place n.toNat 0)
  let s := s.descWrite (a + 8) stamp
  let s := s.descWrite (a + 12) (place (hops % 256) 0)
  let s := s.descWrite a (placeB dup 30 ||| place (type % 8) 27 ||| place (payload.length % 256) 16 ||| place (src % 1024) 0)
  (s.modMacx fun x => { x with rxPtr := x.rxPtr + 1 }).event 2

/-- The duplicate filter (R458): hit, and the filter with the pair inserted on a miss. -/
def State.dupCheck (s : State) (src seq : Nat) (stamp : Word) : State × Bool :=
  let a : BitVec 10 := BitVec.ofNat 10 src
  let q : BitVec 16 := BitVec.ofNat 16 seq
  if s.mac.dups.toList.any fun d => d.valid && d.src == a && d.seq == q then (s, true)
  else
    let p := s.macx.dupPos
    let e : DupEntry := { valid := true, src := a, seq := q, stamp := stamp }
    let s := s.modMac fun m => { m with dups := m.dups.set p e }
    (s.modMacx fun x => { x with dupPos := p + 1 }, false)

/-! ## Route errors (R445) -/

/-- A route error about a dropped frame. -/
def State.routeError (s : State) (dst src seq reason : Nat) (stamp : Word) : State :=
  if s.macx.routeErr then s
  else
    let payload := le16 dst ++ le16 src ++ le16 seq ++ [reason]
    if s.mac.mode = 2 then
      let s := s.modMacx fun x => { x with routeErr := true }
      let (s, ok) := s.rxOffered
      if ok then s.deliver false 4 s.mac.saddr.toNat 0 0x80 0 stamp 16 payload else s
    else
      match s.route 0 none with
      | .error _ => s
      | .ok l =>
        if s.queueFull then s
        else
          let s := s.modMacx fun x => { x with routeErr := true }
          let stampFree := Config.freeWord s.fresh
          let s := { s with fresh := s.fresh + 1 }
          s.enqueue
            { id := 0, type := 4, slot := none, link := l, dst := 0, src := s.mac.saddr, seq := 0, hops := 16,
              payload := payload.map (BitVec.ofNat 8), eui := 0, down := false, retry := 8, tries := 0, refused := 0,
              lseq := none, fcnt := none, stamp := stampFree }

/-- The reason for a frame without a next hop (R445). -/
def State.dropReason (s : State) (dst : Nat) (a : Option (Fin 16)) : Nat :=
  let sh := 10 - s.mac.block
  if a.isSome && a == s.mac.parentLink && s.mac.mode == 1 && decide (dst / 2 ^ sh ≠ s.mac.saddr.toNat / 2 ^ sh) then 2 else 1

/-! ## Acknowledgements (R404, R435) -/

/-- An acknowledgement is to be sent. -/
def State.ackFor (s : State) (lseq ldst : Nat) (rssi : Int) (cnt : Nat) (again : Bool) : State :=
  let a : AckDue :=
    { lseq := BitVec.ofNat 8 lseq, ldst := BitVec.ofNat 10 ldst, rssi := BitVec.ofInt 8 rssi, cnt := BitVec.ofNat 4 cnt,
      again := again, chan := s.macx.chan }
  s.modMacx fun x => { x with ack := some a }

/-- The acknowledgement keys up, or is refused (R384, R385, R388). -/
def State.ackSend (s : State) (a : AckDue) : State :=
  let s := s.modMacx fun x => { x with ack := none }
  if !s.mayKey then s.setRad .idle
  else match s.dwellCheck a.chan (s.rad.onTime 12) with
    | some r => (s.refuse r).setRad .idle
    | none =>
      let psdu := withFcs (fcOf 1 a.cnt.toNat false (if a.again then 0x200 else 0) ++ [a.lseq.toNat] ++ le16 a.ldst.toNat ++
        le16 s.mac.saddr.toNat ++ [a.rssi.toNat])
      ((s.onAir a.chan psdu).event 2).setRad .idle

/-- The counter bits of a frame from the parent correct the child's counter (R411). -/
def State.counterCheck (s : State) (l : Fin 16) (cnt : Nat) : State :=
  if (s.link l).parent then
    let d := (cnt + 16 - s.macx.occ.toNat % 16) % 16
    if d = 0 then s
    else
      let k : BitVec 16 := if d < 8 then BitVec.ofNat 16 d else BitVec.ofNat 16 (65520 + d)
      let s := s.modLink l fun x => { x with counter := x.counter + k }
      let s := s.modMacx fun x => { x with occ := x.occ + k }
      s.modMac fun m => { m with desync := true }
  else s

/-- The reception of the slot is over. -/
def State.rxOver (s : State) : State := (s.modMacx fun x => { x with serving := .nothing }).setRad .idle

/-! ## Beacons (R358, R421, R437) -/

/-- Superframes have begun to run: slots count from this one. -/
def State.runsFrom (s : State) (before : Bool) : State :=
  if !before && s.macRuns then (s.modMacx fun x => { x with slotAsn := s.asn, active := true }).setRad .idle else s

/-- A beacon of the current parent as tempo's candidate (R358, R416). -/
def State.beaconTime (s : State) (l : Fin 16) (p : List Nat) (stamp : BitVec 64) : State :=
  let q : Word := BitVec.ofNat 32 (octLE p 32 4)
  if s.tmp.src = 0 ∧ bit q 31 then
    let ran := s.macRuns
    let (t, ok) := s.tmp.candidate (BitVec.ofNat 64 (octLE p 19 8)) stamp (min 15 (fld q 24 4 + 1)) (bit q 30) (16 * fld q 0 12)
    let s := s.modTmp fun _ => t
    let s := if ok then
        let s := s.modMacx fun x => { x with candAt := stamp.toNat }
        if (s.link l).state = .resync then s.modLink l fun x => { x with state := .active, miss := 0 } else s
      else s
    s.runsFrom ran
  else s

/-- An authentic beacon updates its sender's entry (R421). -/
def State.beaconNeigh (s : State) (n : BitVec 5) (p : List Nat) : State :=
  let q : Word := BitVec.ofNat 32 (octLE p 32 4)
  s.modNeigh n fun x => { x with
    eui := BitVec.ofNat 64 (octLE p 6 8), saddr := BitVec.ofNat 10 (oct16 p 4), depth := BitVec.ofNat 4 (fld q 24 4),
    bcn := true, cells := BitVec.ofNat 19 (octLE p 36 4 / 2 ^ 13), netid := BitVec.ofNat 16 (oct16 p 2) }

/-- The sender's neighbour entry, or a new one (R421, R428). -/
def State.senderEntry (s : State) (n? : Option (BitVec 5)) (f : Neigh → Neigh) : State × Option (BitVec 5) :=
  match n? with
  | some n => (s, some n)
  | none => s.newNeigh f

/-- A received beacon. -/
def State.rxBeacon (s : State) (p : List Nat) (rssi : Int) (stamp : BitVec 64) : State :=
  if s.mac.netid ≠ 0 ∧ oct16 p 2 ≠ s.mac.netid then s
  else
    let eui := octLE p 6 8
    let fcnt : Word := BitVec.ofNat 32 (octLE p 15 4)
    let auth := p.take 40
    let tag := (p.drop 40).take 4
    let opened := s.openNet fun k => unprotect (keyBytes (s.slot k)) eui fcnt 1 auth tag
    let open_ := (s.slot s.sec.netSlot).valid
    if open_ && opened.isNone then s.micFail
    else
      let n? := match s.neighByEui (BitVec.ofNat 64 eui) with
        | some n => some n
        | none => s.neighBySaddr (BitVec.ofNat 10 (oct16 p 4))
      let (s, e) := s.senderEntry n? fun x => { x with eui := BitVec.ofNat 64 eui }
      match e with
      | none => s
      | some n =>
        let gen := match opened with
          | some (k, _) => (s.slot k).gen
          | none => 0
        let verdict := if opened.isSome then (s.neigh n).fresh 0 gen fcnt else .new
        match verdict with
        | .stale => s.staleFrame
        | .repeated => s
        | .new =>
          let s := if opened.isSome then s.modNeigh n fun x => x.accept 0 gen fcnt else s
          let s := ((s.beaconNeigh n p).heard n rssi).event 2
          match s.mac.parentLink with
          | none => s
          | some l =>
            if (s.link l).neigh = n then
              let s := s.beaconTime l p stamp
              if s.macx.serving = .rxBeacon then s.rxOver else s
            else s

/-! ## Acknowledgement received (R411, R436) -/

/-- The frame of an attempt. -/
def State.attempted (s : State) (a : Attempt) : Option TxFrame :=
  s.macx.queue.find? fun (f : TxFrame) => f.lseq == some a.lseq && f.type == a.type && (f.down || f.link == a.link)

/-- A received acknowledgement. -/
def State.rxAck (s : State) (p : List Nat) (rssi : Int) : State :=
  match s.macx.attempt with
  | none => s
  | some a =>
    let f? := s.attempted a
    let down := match f? with
      | some f => f.down
      | none => false
    let n? := match f? with
      | some f => if f.down then s.neighByEui f.eui else some (s.link a.link).neigh
      | none => some (s.link a.link).neigh
    match n? with
    | none => s
    | some n =>
      let peer := (s.neigh n).saddr.toNat
      let ldst := if a.type = 5 ∧ !down then peer else s.mac.saddr.toNat
      if oct p 2 = a.lseq.toNat ∧ oct16 p 3 = ldst ∧ oct16 p 5 = peer then
        let s := s.heard n rssi
        let s := if a.type = 5 then s.modMacx fun x => { x with be := 2 } else s.counterCheck a.link (fcCnt p)
        let s := (s.modMacx fun x => { x with attempt := none }).event 2
        let s := match f? with
          | some f => s.endFrame f 0
          | none => s
        s.rxOver
      else s

/-! ## JOIN frames (R440) -/

/-- A received JOIN frame. -/
def State.rxJoinFrame (s : State) (p : List Nat) (rssi : Int) (stamp : Word) : State :=
  let down := fcDown p
  let eui : BitVec 64 := BitVec.ofNat 64 (octLE p 5 8)
  let paddr := oct16 p 3
  let here :=
    if down then
      s.pstate == 1 && eui.toNat == s.eui && (match s.parentNeigh with
        | none => false
        | some x => x.saddr.toNat == paddr)
    else paddr == s.mac.saddr.toNat && s.pstate != 1
  if !here then s
  else
    let n? := if down then s.mac.parentLink.map fun l => (s.link l).neigh else s.neighByEui eui
    let (s, e) := s.senderEntry n? fun x => { x with eui := eui }
    match e with
    | none => s
    | some n =>
      let id := some (down, eui, BitVec.ofNat 8 (oct p 2))
      if (s.neigh n).lastJoin = id then
        (((s.heard n rssi).ackFor (oct p 2) paddr rssi 0 true).event 2).rxOver
      else
        let (s, ok) := s.rxOffered
        if !ok then s.event 2
        else
          let s := (s.heard n rssi).modNeigh n fun x => { x with lastJoin := id }
          let s := s.ackFor (oct p 2) paddr rssi 0 false
          (s.deliver false 5 0 0 (BitVec.ofInt 8 rssi) n stamp 0 ((p.drop 5).take (p.length - 9))).rxOver

/-! ## Secured frames (R444, R455) -/

/-- Acceptance of a new secured frame (R455 step 5): its effect, or `none` when it is not accepted. `a` is the link on which
it arrived. -/
def State.acceptBody (s : State) (type lsrc : Nat) (body : List Nat) (rssi : BitVec 8) (n : BitVec 5) (a : Option (Fin 16))
    (stamp : Word) : State × Option (State → State) :=
  let dst := oct16 body 0
  let src := oct16 body 2
  let seq := oct16 body 4
  let hops := oct body 6
  let pay := body.drop 7
  let err (reason : Nat) : State → State := fun s => if type = 4 then s else s.routeError dst src seq reason stamp
  if type = 3 then (s, some fun s => s.event 2)
  else if type = 6 then
    let (s, ok) := s.rxOffered
    (s, if ok then some fun s => s.deliver false 6 lsrc 0 rssi n stamp 0 (body.take 1) else none)
  else if s.isHere (BitVec.ofNat 10 dst) then
    let (s, ok) := s.rxOffered
    (s, if ok then some fun s =>
        let (s, dup) := if type = 0 then s.dupCheck src seq stamp else (s, false)
        s.deliver dup type src seq rssi n stamp hops pay
      else none)
  else if hops = 0 then (s, some fun s => (err 3 s).event 2)
  else
    match s.route (BitVec.ofNat 10 dst) a with
    | .error true => (s, some fun s => (err 4 s).event 2)
    | .error false => (s, some fun s => (err (s.dropReason dst a) s).event 2)
    | .ok l =>
      if s.queueFull then (s.countQref, none)
      else
        (s, some fun s =>
          let f : TxFrame :=
            { id := 0, type := BitVec.ofNat 3 type, slot := none, link := l, dst := BitVec.ofNat 10 dst, src := BitVec.ofNat 10 src,
              seq := BitVec.ofNat 16 seq, hops := BitVec.ofNat 5 (hops - 1), payload := pay.map (BitVec.ofNat 8), eui := 0,
              down := false, retry := 8, tries := 0, refused := 0, lseq := none, fcnt := none, stamp := 0 }
          let s := (s.routeUsed (BitVec.ofNat 10 dst)).event 2
          if s.fitsLink f then s.enqueue f else s)

/-- A received DATA, KEEPALIVE, ROUTE_ERR or LEAVE frame (R455 steps 2 to 6). -/
def State.rxSecured (s : State) (p : List Nat) (rssi : Int) (stamp : Word) : State :=
  let type := fcType p
  let lvlOct := oct p 7
  let lvl := lvlOct % 8
  let cls := lvlOct / 8 % 4
  let lsrc := oct16 p 5
  let fcnt : Word := BitVec.ofNat 32 (octLE p 8 4)
  if oct16 p 3 ≠ s.mac.saddr.toNat then s
  else if lvl < s.sec.minlvl.toNat then (s.modSec fun c => { c with lvlerr := true }).event 3
  else
    match s.neighBySaddr (BitVec.ofNat 10 lsrc) with
    | none => s.micFail
    | some n =>
      let eui := (s.neigh n).eui.toNat
      let auth := p.take 12
      let text := (p.drop 12).take (p.length - 16)
      let un (k : Fin 16) : Option (List Nat) := unprotect (keyBytes (s.slot k)) eui fcnt lvlOct auth text
      let opened : Option (Fin 16 × List Nat) :=
        if eui = 0 then none
        else if cls = 1 then (s.sec.linkSlot n).bind fun k => (un k).map fun b => (k, b)
        else s.openNet un
      match opened with
      | none => s.micFail
      | some (k, body) =>
        let gen := (s.slot k).gen
        let verdict := (s.neigh n).fresh cls gen fcnt
        let s := s.modNeigh n fun x => x.newGen cls gen
        let a := s.linkTo n
        let bits := s.macx.occ.toNat % 16
        let good (s : State) : State :=
          let s := s.heard n rssi
          match a with
          | some l => s.counterCheck l (fcCnt p)
          | none => s
        match verdict with
        | .stale => s.staleFrame
        | .repeated => (((good s).ackFor (oct p 2) lsrc rssi bits true).event 2).rxOver
        | .new =>
          if (type = 0 ∨ type = 4) ∧ (1024 ≤ oct16 body 0 ∨ 1024 ≤ oct16 body 2 ∨ 32 ≤ oct body 6) then s
          else
            let s := good s
            let bits := s.macx.occ.toNat % 16
            match s.acceptBody type lsrc body (BitVec.ofInt 8 rssi) n a stamp with
            | (s, none) => s.event 2
            | (s, some effect) =>
              let s := s.modNeigh n fun x => x.accept cls gen fcnt
              (effect (s.ackFor (oct p 2) lsrc rssi bits false)).rxOver

/-- A frame that the PHY passed goes to the MAC (R373, R455). -/
def State.macFrame (s : State) (p : List Nat) (rssi : Int) (stamp : BitVec 64) : State :=
  if !frameOk p then s
  else
    let t := fcType p
    let low : Word := stamp.extractLsb' 0 32
    if t = 1 then s.rxAck p rssi
    else if s.macx.attempt.isSome then s
    else if t = 2 then s.rxBeacon p rssi stamp
    else if t = 5 then (if s.macx.serving = .rxJoin then s.rxJoinFrame p rssi low else s)
    else match s.macx.serving with
      | .rxData _ => s.rxSecured p rssi low
      | _ => s

/-- The local time of the SFD of a received frame: its capture less RXDLY of its rate (R350, R381, R536). -/
def State.rxStamp (s : State) (f : RxFrame) : BitVec 64 := s.captureLess 1 f.sfd (s.otp (0x20 + 4 * f.rate))

/-- How far from the expected instant the SFD may end, in 10^-7 tempo units: TXW toward a child, the guard toward the parent
(R407). -/
def State.rxWindow (s : State) : Nat :=
  let fromParent := match s.macx.serving with
    | .rxData l => (s.link l).parent
    | .rxJoin => s.pstate == 1
    | _ => true
  if fromParent then s.guardOf else fld s.mac.guard 18 5 * 1600000000

/-- The receiver is on for a frame whose SFD ends at `stamp` (R404, R407, R416): within 100 us of an acknowledgement's due
time; through the whole slot for the beacon in RESYNC; else from the expected first preamble bit less the window, or from
the slot's start when the slot before held activity, to the expected SFD end plus the window; and always while the node scans
or listens for its parent. -/
def State.inWindow (s : State) (stamp : BitVec 64) : Bool :=
  match s.macx.attempt with
  | some a => decide ((diff64 stamp a.due).natAbs ≤ 1600)
  | none =>
    if s.macx.serving = .nothing ∨ !s.macRuns then true
    else
      let sfd := s.rad.octet3 * 32 / 3
      let at_ := diff64 (stamp + s.tmp.offs) s.slotPlant
      if s.macx.serving = .rxBeacon ∧ s.resync then decide (0 ≤ at_) && decide (at_ < 256000)
      else
        let e := at_ - (32000 + s.rad.sfdDelay : Nat)
        let pre := s.rad.pre * s.rad.octet3 * 16 / 3
        decide (e * 10000000 ≤ s.rxWindow) && decide (-(s.rxWindow : Int) ≤ (e + pre) * 10000000) &&
          (!s.macx.before || decide ((sfd : Int) ≤ at_))

/-- The receiver takes the frame: it is on, and the frame has the rate of RAD_PHY (R372, R407). -/
def State.hears (s : State) (f : RxFrame) : Bool := f.rate == s.rad.rate && s.inWindow (s.rxStamp f)

/-- A frame is received (R373, R380, R455). -/
def State.rxFrame (s : State) (f : RxFrame) : State :=
  let stamp := s.rxStamp f
  let rssi := rssiRange f.rssi
  let s := s.atPhase f.sfd
  let n := f.len
  if f.ms || f.fcs2 || decide (n < 5) || decide (255 < n) then
    s.modRad fun r => { r with phrerr := BitVec.ofNat 4 (incSat 15 r.phrerr.toNat) }
  else
    let s := s.modRad fun r => { r with rssif := BitVec.ofInt 8 rssi }
    let p := natBytes f.psdu
    if p.length ≠ n ∨ crc32 (p.take (n - 4)) ≠ ofLE (p.drop (n - 4)) then
      s.modRad fun r => { r with fcserr := BitVec.ofNat 8 (incSat 255 r.fcserr.toNat) }
    else (s.occur 0x20).macFrame p rssi stamp

/-- The radio can receive: it is enabled and its receiver is on (12 RAD_CTL.EN). -/
def State.receiving (s : State) : Bool := s.sys.runRad && bit s.rad.ctl 0 && s.rad.state == .receive

/-! ## Timeouts (R407, R415, R423, R436, R448) -/

/-- No valid acknowledgement arrives; the frame was sent, which RADIO reports (R142). -/
def State.ackLost (s : State) (a : Attempt) : State :=
  let s := ((s.occur 0x22).event 2).missed a.link
  let f? := s.attempted a
  let s := s.modMacx fun x => { x with attempt := none, be := if a.type = 5 then min 5 (x.be + 1) else x.be }
  let s := match f? with
    | none => s
    | some f =>
      if f.slot.isSome then (if f.retry ≤ f.tries then s.endFrame f 1 else s)
      else if 8 ≤ f.tries then s.endFrame f 1 else s
  s.rxOver

/-- The receive window ends without an SFD. -/
def State.rxLost (s : State) : State :=
  let s := match s.macx.serving, s.mac.parentLink with
    | .rxBeacon, some l => s.missed l
    | _, _ => s
  s.rxOver

def Serving.receives : Serving → Bool
  | .rxData _ | .rxBeacon | .rxJoin => true
  | _ => false

/-! ## The superframe boundary and the local tick (R394, R402, R417, R221, R363) -/

/-- At each superframe boundary while superframes run. -/
def State.superframe (s : State) : State :=
  let s := (s.event 0).macSwap.ageTick
  let s := s.modMacx fun x => { x with routeErr := false }
  let s := s.latchPeriod 1 fun _ => true
  if s.macSync || s.mac.mode == 2 then s.persistBoundary else s

/-- Each local superframe: AGE and ERR are recomputed, and ages advance while no superframes run (R363, R417). -/
def State.localTick (s : State) : State :=
  let s := s.modTmp fun t => ({ t with age := BitVec.ofNat 10 (incSat 1023 t.age.toNat) } : Tmp).quality
  if s.macRuns then s else s.ageTick

end Sys2Proof.Machine
end

