-- ==== Sys2Proof/Machine/PrfOps.lean ====
section
/-!
DEFINITION. The performance counters' registers, gather transfers and select changes (16). The counting itself stands in
Ops.lean, because every block counts.
-/

namespace Sys2Proof.Machine

def State.modPrf (s : State) (f : Prf → Prf) : State := { s with prf := f s.prf }

/-- The event codes that exist (R495), and 0, which counts nothing. -/
def eventListed (e : Nat) : Bool :=
  decide (e ≤ 0x0C) || (decide (0x10 ≤ e) && decide (e ≤ 0x13)) || (decide (0x20 ≤ e) && decide (e ≤ 0x25)) ||
    (decide (0x30 ≤ e) && decide (e ≤ 0x34)) || (decide (0x38 ≤ e) && decide (e ≤ 0x3B)) ||
    (decide (0x40 ≤ e) && decide (e ≤ 0x43))

/-- A select field that may be written (R12, R495). -/
def selectOk (sel : Nat) : Bool := eventListed (sel % 256) && !sel.testBit 8 && sel / 2 ^ 10 % 4 != 3

/-- The counter gathers from this island. -/
def State.gathersFrom (s : State) (isl : GatherIsland) (n : Fin 8) : Bool := gatherOf (s.prf.selOf n % 256) == some isl

/-- An island's gathered counts reach their counters (R496). -/
def State.gather (s : State) (isl : GatherIsland) : State :=
  (upTo 8).foldl (fun s n => if s.gathersFrom isl n then s.transfer n else s) s

/-- Every transfer since the freeze has arrived (R500). -/
def Prf.settled (p : Prf) : Bool := p.frozen && p.gather.toList.all fun g => g == 0

def Prf.ctl (p : Prf) : Word :=
  placeB p.uread 31 ||| placeB p.frozen 30 ||| place p.frzsrc.toNat 28 ||| place p.chain.toNat 24 |||
    place p.ovie.toNat 16 ||| placeB p.settled 9 ||| placeB p.cycen 8 ||| place p.en.toNat 0

/-- A write of PRF_SELm: each half that changes receives its pending counts first (R493). -/
def State.selectWrite (s : State) (m : Fin 4) (v : Word) : State :=
  let lo : Fin 8 := ⟨2 * m.val, by omega⟩
  let hi : Fin 8 := ⟨2 * m.val + 1, by omega⟩
  let s := if fld v 0 16 = s.prf.selOf lo then s else s.transfer lo
  let s := if fld v 16 16 = s.prf.selOf hi then s else s.transfer hi
  s.modPrf fun p => { p with sel := p.sel.set m v }

def State.prfRead (s : State) (off : Nat) : Option Word :=
  let p := s.prf
  if off = 0x00 then some p.ctl
  else if off = 0x04 then some (p.cyc.extractLsb' 0 32)
  else if off = 0x08 then some (p.cyc.extractLsb' 32 32)
  else if 0x10 ≤ off ∧ off < 0x30 then some (p.cnt.toList.getD ((off - 0x10) / 4) 0)
  else if 0x30 ≤ off ∧ off < 0x40 then some (p.sel.toList.getD ((off - 0x30) / 4) 0)
  else if off = 0x40 then some (place p.ovf.toNat 0)
  else none

/-- A write of PRF_CTL: FROZEN freezes and resumes (R499). -/
def State.prfCtl (s : State) (v : Word) : State :=
  s.modPrf fun p => { p with
    uread := bit v 31, frozen := bit v 30, frzsrc := BitVec.ofNat 2 (fld v 28 2), chain := BitVec.ofNat 4 (fld v 24 4),
    ovie := BitVec.ofNat 8 (fld v 16 8), cycen := bit v 8, en := BitVec.ofNat 8 (fld v 0 8) }

def State.prfWrite (s : State) (off : Nat) (v : Word) : State × Nat :=
  if off = 0x00 then (if fld v 10 6 ≠ 0 then (s, 3) else (s.prfCtl v, 0))
  else if off = 0x04 then (s.modPrf fun p => { p with cyc := p.cyc.extractLsb' 32 32 ++ v }, 0)
  else if off = 0x08 then (s.modPrf fun p => { p with cyc := v ++ p.cyc.extractLsb' 0 32 }, 0)
  else if h : 0x10 ≤ off ∧ off < 0x30 then
    (s.modPrf fun p => { p with cnt := p.cnt.set ((off - 0x10) / 4) v (by omega) }, 0)
  else if h : 0x30 ≤ off ∧ off < 0x40 then
    if selectOk (fld v 0 16) && selectOk (fld v 16 16) then (s.selectWrite ⟨(off - 0x30) / 4, by omega⟩ v, 0) else (s, 3)
  else if off = 0x40 then
    if fld v 9 23 ≠ 0 then (s, 3)
    else (s.modPrf fun p => { p with ovf := p.ovf &&& ~~~(BitVec.ofNat 9 (fld v 0 9) &&& ~~~s.eng.same.ovf) }, 0)
  else (s, 1)

end Sys2Proof.Machine
end

