-- ==== Sys2Proof/Machine/LnkOps.lean ====
section
/-!
DEFINITION. The selvedge chain: enumeration, mailboxes, shared time, and the LNK registers (17). Remote accesses use the bus
and stand in Remote.lean.
-/

namespace Sys2Proof.Machine

def State.modLnk (s : State) (f : Lnk → Lnk) : State := { s with lnk := f s.lnk }

/-! ## Turns on a segment (R507) -/

/-- The bits of a frame (R506). -/
def LinkFrame.bits (f : LinkFrame) : Nat :=
  match f.type.toNat with
  | 1 => 21
  | 2 => 22
  | 3 => 53
  | 4 => 39
  | 5 => 71
  | 6 => 57
  | 7 => 25
  | 8 => 25 + 32 * f.payload.length
  | 9 => 25
  | _ => 117

/-- The order in which frames wait within one end (R507): TIME; READ, WRITE, RDATA and WACK; ENUM_REQ, ENUM_ANS and HWMSG; MSG
and MACK. -/
def LinkFrame.rank (f : LinkFrame) : Nat :=
  let t := f.type.toNat
  if t = 0xA then 0 else if 4 ≤ t ∧ t ≤ 7 then 1 else if t ≤ 3 then 2 else 3

/-- What waits at an end: its queued frames, and the hardware word that the head has not taken (R516). -/
def Lnk.waiting (l : Lnk) (d : LinkDir) : List LinkFrame :=
  match d with
  | .up => l.upq ++ (l.hwWait.take 1).map fun w => { dir := .up, type := 3, pos := l.pos, payload := [w] }
  | .down => l.downq

/-- The frame that goes next (R507). -/
def Lnk.next (l : Lnk) (d : LinkDir) : Option LinkFrame :=
  (List.range 4).findSome? fun k => (l.waiting d).find? fun f => f.rank == k

/-- The end of a segment has the turn, or not. -/
def Lnk.turn (l : Lnk) (d : LinkDir) : Bool :=
  match d with
  | .up => l.upTurn
  | .down => l.downTurn

def Lnk.setTurn (l : Lnk) (d : LinkDir) (b : Bool) : Lnk :=
  match d with
  | .up => { l with upTurn := b }
  | .down => { l with downTurn := b }

/-- An end that has the turn starts one frame, and the turn goes to the other end (R507). -/
def Lnk.serve (l : Lnk) (d : LinkDir) : Lnk :=
  if l.turn d then
    match l.next d with
    | none => l
    | some f =>
      match d with
      | .up => { l with sent := f :: l.sent, upq := l.upq.erase f, upTurn := false }
      | .down => { l with sent := f :: l.sent, downq := l.downq.erase f, downTurn := false }
  else l

/-- A frame waits at an end, and goes when its turn has come. -/
def Lnk.send (l : Lnk) (dir : LinkDir) (type : Nat) (pos : BitVec 5) (payload : List Word) : Lnk :=
  let f : LinkFrame := { dir := dir, type := BitVec.ofNat 4 type, pos := pos, payload := payload }
  Lnk.serve (match dir with
    | .up => { l with upq := l.upq ++ [f] }
    | .down => { l with downq := l.downq ++ [f] }) dir

/-- The other end's frame has ended: this end has the turn (R507). -/
def Lnk.answers (l : Lnk) (d : LinkDir) : Lnk := (l.setTurn d true).serve d

/-- Frames go one after the other while the other end has nothing to send; each takes its bits and 6 bit times more until the
turn returns. -/
def Lnk.drain (d : LinkDir) : Nat → Nat → Lnk → Lnk
  | 0, _, l => l
  | n + 1, b, l =>
    let l := l.setTurn d true
    match l.next d with
    | none => l
    | some f => if b < f.bits + 6 then l else Lnk.drain d n (b - f.bits - 6) (l.serve d)

/-- One XT32 period, 488 bit times, in which no frame arrives. -/
def Lnk.idle (l : Lnk) : Lnk := Lnk.drain .down 24 488 (Lnk.drain .up 24 488 l)

/-- A frame is to go onto a segment (R506, R507). -/
def State.linkSend (s : State) (dir : LinkDir) (type : Nat) (pos : BitVec 5) (payload : List Word) : State :=
  s.modLnk fun l => l.send dir type pos payload

/-- A frame whose CRC fails is counted and acted on by no chip (R508). -/
def State.linkCrc (s : State) : State := s.modLnk fun l => { l with crcerr := BitVec.ofNat 8 (incSat 255 l.crcerr.toNat) }

/-- The chip forwards frames: it has a position and is not the head (R508, R510). -/
def State.isMember (s : State) : Bool := s.lnk.valid && !s.lnk.head

/-- A frame received on the segment `d`: the other end has had the turn, the frame's CRC decides (R508), and then the turn is
this end's (R507). -/
def State.linkFrame (s : State) (d : LinkDir) (crcOk : Bool) (f : State → State) : State :=
  let s := s.modLnk fun l => l.setTurn d false
  (if crcOk then f s else s.linkCrc).modLnk fun l => l.answers d

/-- CHAIN sets when the enable bit of LNK_CTL is 1 (R517). -/
def State.chainEvent (s : State) (b : Nat) : State := if bit s.lnk.ctl b then s.event 12 else s

/-! ## Enumeration (R504, R509, R511, R516) -/

/-- The strap sample (R504). -/
def State.strapSample (s : State) (low : Bool) : State :=
  s.modLnk fun l => if low then { l with sampled := true, valid := true, head := true, pos := 0, count := 1, linkup := true }
    else { l with sampled := true }

/-- MAJOR x 16 + MINOR of SYS_ID 0x3242_16E5 (R33). -/
def revOctet : Nat := 0x21

/-- A hardware word (R516). -/
def hwWord (kind cause : Nat) : Word := place kind 28 ||| place cause 24 ||| place revOctet 16

/-- A member has a hardware word for the head: it goes in each of its turns until the head's mailbox has taken it (R516). -/
def State.hwSend (s : State) (w : Word) : State := s.modLnk fun l => ({ l with hwWait := l.hwWait ++ [w] } : Lnk).serve .up

/-- ENUM_REQ: a member without a position sends one; a chip with one answers its neighbour's (R509). -/
def State.enumRequest (s : State) : State :=
  if s.lnk.valid then
    let ok := decide (s.lnk.pos.toNat < 31)
    s.linkSend .down 2 (s.lnk.pos + 1) [placeB ok 0]
  else if s.lnk.sampled && !s.lnk.refused then s.linkSend .up 1 0 []
  else s

/-- ENUM_ANS at a member that asked (R509). -/
def State.enumAnswer (s : State) (valid : Bool) (pos : BitVec 5) : State :=
  if s.lnk.valid || !s.lnk.sampled || s.lnk.refused then s
  else if valid then
    (s.modLnk fun l => { l with valid := true, pos := pos }).hwSend (hwWord 1 s.sys.rstCause.toNat)
  else s.modLnk fun l => { l with refused := true }

/-- The receive mailbox takes a message (R516). -/
def State.mailbox (s : State) (pos : BitVec 5) (hw : Bool) (ws : List Word) : State :=
  (s.modLnk fun l => { l with rxbox := ws, rxsrc := pos, rxhw := hw }).chainEvent 0

/-- A hardware word: the head's mailbox takes it when it is free; a member's own has been taken, and others' it forwards
(R508, R516). -/
def State.hwFrame (s : State) (pos : BitVec 5) (w : Word) : State :=
  if s.isHead then (if s.lnk.rxbox.isEmpty then s.mailbox pos true [w] else s)
  else if !s.lnk.valid then s
  else if pos = s.lnk.pos then
    if s.lnk.hwWait.head? = some w then s.modLnk fun l => { l with hwWait := l.hwWait.drop 1 } else s
  else s.linkSend .up 3 pos [w]

/-! ## Mailboxes (R515, R516) -/

/-- One word for the staging buffer (R515). -/
def State.stage (s : State) (v : Word) : State :=
  if s.lnk.txst = 1 ∨ 8 ≤ s.lnk.staged.length then s.modLnk fun l => { l with stfull := true }
  else s.modLnk fun l => { l with staged := l.staged ++ [v] }

/-- SEND = 1 (R515). -/
def State.sendStaged (s : State) : State :=
  let l := s.lnk
  if l.staged.isEmpty ∨ l.txst = 1 then s
  else if s.isHead then
    let d : BitVec 5 := BitVec.ofNat 5 (fld l.ctl 11 5)
    if d = 0 ∨ l.count.toNat ≤ d.toNat then s.modLnk fun l => { l with txst := 4 }
    else (s.linkSend .down 8 d l.staged).modLnk fun l => { l with txst := 1, txDest := d }
  else ((if l.valid then s.linkSend .up 8 l.pos l.staged else s)).modLnk fun l => { l with txst := 1 }

/-- FLUSH = 1 (17 LNK_CTL). -/
def State.flushStaged (s : State) : State := if s.lnk.txst = 1 then s else s.modLnk fun l => { l with staged := [] }

/-- TXST leaves SENDING (R515, R517). -/
def State.sendEnds (s : State) (st : Nat) : State :=
  (s.modLnk fun l => { l with txst := BitVec.ofNat 3 st, staged := if st = 2 then [] else l.staged }).chainEvent 1

/-- The segment on which a frame that travels up, or down, arrives. -/
def arrives (up : Bool) : LinkDir := if up then .down else .up

/-- A MSG or MACK that travels up or down is this chip's: the head takes what comes up, a member what comes down to its own
position (R506). -/
def State.linkMine (s : State) (up : Bool) (pos : BitVec 5) : Bool := if s.isHead then up else !up && pos == s.lnk.pos

/-- A received MSG that travels up or down (R515). -/
def State.msgFrame (s : State) (up : Bool) (pos : BitVec 5) (ws : List Word) : State :=
  if ws.isEmpty ∨ 8 < ws.length ∨ !s.lnk.valid then s
  else if s.linkMine up pos then
    if s.lnk.rxbox.isEmpty then
      ((s.linkSend (arrives up) 9 pos [0]).mailbox (if s.isHead then pos else 0) false ws)
    else s.linkSend (arrives up) 9 pos [1]
  else if s.isHead then s
  else s.linkSend (if up then .up else .down) 8 pos ws

/-- A received MACK that travels up or down (R515): it ends the SEND that it answers. -/
def State.mackFrame (s : State) (up : Bool) (pos : BitVec 5) (status : BitVec 4) : State :=
  if !s.lnk.valid then s
  else if s.linkMine up pos then
    if s.lnk.txst ≠ 1 ∨ (s.isHead ∧ pos ≠ s.lnk.txDest) then s
    else if status = 0 then s.sendEnds 2 else if status = 1 then s.sendEnds 3 else s
  else if s.isHead then s
  else s.linkSend (if up then .up else .down) 9 pos [place status.toNat 0]

/-- A read of LNK_RXBOX (R516). -/
def State.rxboxRead (s : State) : State × Word :=
  match s.lnk.rxbox with
  | [] => (s, 0)
  | w :: r => (s.modLnk fun l => { l with rxbox := r, rxhw := if r.isEmpty then false else l.rxhw }, w)

/-! ## Shared time (R518 to R521) -/

/-- The head's SYNC pulse and TIME frame (R518). -/
def State.syncPulse (s : State) : State :=
  let p := s.plant
  s.linkSend .down 0xA 0 [p.extractLsb' 32 32, p.extractLsb' 0 32, s.tmp.qual]

/-- SYNCERR sets (R517, R519). -/
def State.syncError (s : State) : State := (s.modLnk fun l => { l with syncerr := true }).chainEvent 2

/-- A member captures an edge of LNK_SYNC, less the pin's fixed input delay, which the spec does not give (R351, R519). -/
def State.syncEdge (s : State) : State :=
  let l := s.local - BitVec.ofNat 64 Config.syncDelay
  if edgeTooSoon s.tmp.syncAt l then s
  else
    let s := s.modTmp fun t => { t with syncAt := some l }
    let s := if s.lnk.edge.isSome then s.syncError else s
    s.modLnk fun k => { k with edge := some l }

/-- A reference event at a member (R519, R520). -/
def State.reference (s : State) (l plant : BitVec 64) (q : Word) : State :=
  let s :=
    if s.tmp.src = 1 ∧ bit q 31 then
      s.modTmp fun t => (t.candidate plant l (fld q 24 4) (bit q 30) (16 * fld q 0 12)).1
    else s
  (s.modLnk fun k => { k with refAt := l.toNat }).persistBoundary

/-- A valid TIME frame at a member (R508, R519, R521). -/
def State.timeFrame (s : State) (plant : BitVec 64) (q : Word) : State :=
  if !s.isMember then s
  else
    let s := s.linkSend .down 0xA 0 [plant.extractLsb' 32 32, plant.extractLsb' 0 32, q]
    let s := s.modLnk fun l => { l with linkup := true }
    match s.lnk.edge with
    | none => s.syncError
    | some l => (s.modLnk fun k => { k with edge := none }).reference l plant q

/-! ## LNK registers -/

def State.lnkRead (s : State) (off : Nat) : Option (State × Word) :=
  let l := s.lnk
  match off with
  | 0x00 => some (s, l.ctl ||| placeB (l.txst == 1) 7)
  | 0x04 => some (s, place l.crcerr.toNat 24 ||| place l.rxsrc.toNat 19 ||| place l.rxbox.length 15 ||| placeB l.rxhw 14 |||
      place l.txst.toNat 11 ||| placeB l.stfull 7 ||| placeB l.syncerr 6 ||| placeB l.tout 5 ||| placeB l.linkdn 4 |||
      placeB (l.linkup || s.isHead) 2)
  | 0x08 => some (s, placeB l.valid 31 ||| placeB l.head 30 ||| place l.count.toNat 16 ||| place l.pos.toNat 0)
  | 0x10 => some s.rxboxRead
  | _ => none

/-- A write of LNK_CTL: FLUSH discards before SEND sends (R515). -/
def State.lnkCtl (s : State) (v : Word) : State :=
  let s := s.modLnk fun l => { l with ctl := v &&& 0xFFFFFF3F }
  let s := if bit v 6 then s.flushStaged else s
  if bit v 7 then s.sendStaged else s

def State.lnkWrite (s : State) (off : Nat) (v : Word) : State × Nat :=
  match off with
  | 0x00 => if fld v 16 16 ≠ 0 ∨ fld v 8 3 ≠ 0 ∨ fld v 4 2 ≠ 0 then (s, 3) else (s.lnkCtl v, 0)
  | 0x04 =>
    if fld v 8 3 ≠ 0 ∨ bit v 3 ∨ fld v 0 2 ≠ 0 then (s, 3)
    else (s.modLnk fun l => { l with
      crcerr := BitVec.ofNat 8 (fld v 24 8), stfull := l.stfull && !bit v 7, syncerr := l.syncerr && !bit v 6,
      tout := l.tout && !bit v 5, linkdn := l.linkdn && !bit v 4 }, 0)
  | 0x08 | 0x10 => (s, 4)
  | 0x0C => (s.stage v, 0)
  | _ => (s, 1)

end Sys2Proof.Machine
end

