-- ==== Sys2Proof/Machine/SysOps.lean ====
section
/-!
DEFINITION. Clocks, islands, posted writes into AON, and the resets (R14, R30, R104 to R108, R121 to R128, R538, R539).
-/

namespace Sys2Proof.Machine

def State.modSys (s : State) (f : Sys → Sys) : State := { s with sys := f s.sys }

def State.modEng (s : State) (f : Eng → Eng) : State := { s with eng := f s.eng }

/-! ## XT32, XO32M and the core clock (R121 to R123, R538) -/

/-- The core moves to its requested source, if that is ready; XO32M stops if the core was its last user (R121, R123). -/
def State.coreSwitch (s : State) : State :=
  if s.srcReady s.sys.src then (s.modSys fun x => { x with curSrc := x.src }).xoRest else s

/-- The stopped core clock restarts: on FLL or FREE, without FALLBACK, if its source has stopped meanwhile (R123). -/
def State.coreStart (s : State) : State :=
  if s.eng.stopped then
    let s := s.modEng fun e => { e with stopped := false }
    if s.srcReady s.sys.curSrc then s else s.modSys fun x => { x with curSrc := s.fallSrc }
  else s

/-- The frequency of the source in use, kHz, undivided. -/
def Sys.sourceKHz (x : Sys) : Nat := if x.curSrc = 2 then 64000 else 16000

/-- Core cycles of a crossing that takes 4 core cycles and `ns` nanoseconds (R124, R349). -/
def State.crossCost (s : State) (ns : Nat) : Nat :=
  4 + ceilDiv (ns * (s.sys.sourceKHz / 2 ^ s.sys.div.toNat)) 1000000

/-! ## Islands (R127) -/

/-- A shuttle waits in DRV for the DMI (R128). -/
def Shuttle.awaitsDmi (x : Shuttle) : Bool :=
  match x.busyOn with
  | some (.drv ..) => true
  | _ => false

/-- A reason to run the DMI (R127, R294, R462). -/
def State.dmiWanted (s : State) : Bool :=
  s.sys.reqDmi || s.sys.power == .boot || !s.drv.allRuns.isEmpty || !s.drv.allQueued.isEmpty ||
    s.flowWants ||
    (upTo 3).any (fun n => (s.prsLine n).armed || (s.prsLine n).spot) ||
    s.drv.test.isSome || s.drv.tall || s.drv.tgo || s.drv.seqMode != .idle ||
    (upTo 4).any fun i => (s.sh i).awaitsDmi

/-- The node listens for its parent with no superframes to time it (R394, R422). -/
def State.awaitsParent (s : State) : Bool := s.pstate == 1 && !s.macRuns

/-- A reason to run the Radio island (R127, R390, R403). -/
def State.radWanted (s : State) : Bool :=
  s.sys.reqRad || (s.sys.power == .boot && s.otp 0x14 != 0) || s.macx.prewake || s.macx.serving != .nothing ||
    s.macx.attempt.isSome || s.macx.ack.isSome || (s.scanning && !s.macx.scanPause) || s.awaitsParent || s.resync

/-- The AON island keeps XO32M running (R127). -/
def State.xoWanted (s : State) : Bool := s.dmiWanted || s.radWanted || s.coreWantsXo

/-- The DMI starts: the coils have cooled while it was stopped (R287). -/
def State.startDmi (s : State) : State :=
  if s.sys.runDmi then s
  else (s.modSys fun x => { x with runDmi := true }).modDrv fun d => d.cool (s.local.toNat - d.stopAt)

/-- The Radio island starts: it scans, listens for a parent, or is idle (R394, R420). -/
def State.startRad (s : State) : State :=
  if s.sys.runRad then s
  else
    let s := s.modSys fun x => { x with runRad := true }
    s.setRad (if (s.scanning && !s.macx.scanPause) || s.awaitsParent then .receive else .idle)

/-- While XO32M runs, the islands that are wanted start (R127). -/
def State.startIslands (s : State) : State :=
  if s.sys.xoRun then
    let s := if s.dmiWanted then s.startDmi else s
    if s.radWanted then s.startRad else s
  else s

/-- The DMI's clock stops. -/
def State.dmiOff (s : State) : State :=
  if s.sys.runDmi then
    (s.modSys fun x => { x with runDmi := false }).modDrv fun d => { d with stopAt := s.local.toNat }
  else s

/-- The Radio island's clock stops. -/
def State.radOff (s : State) : State :=
  if s.sys.runRad then (s.modSys fun x => { x with runRad := false }).setRad .off else s

/-- An island stops once no reason remains; its pending counts arrive first, and XO32M stops with the last user
(R127, R496). -/
def State.islandStop (s : State) (isl : Island) : State :=
  let s := match isl with
    | .dmi => (s.gather .dmi).dmiOff
    | .radio => (s.gather .radio).radOff
  s.xoRest

/-- The island runs and no reason to run it remains. -/
def State.mayStop (s : State) (isl : Island) : Bool :=
  match isl with
  | .dmi => s.sys.runDmi && !s.dmiWanted
  | .radio => s.sys.runRad && !s.radWanted

/-- XO32M stops: both islands lose their clock, and a core that runs on it falls back (R29, R122, R123). -/
def State.xoStop (s : State) : State :=
  let s := (s.dmiOff.radOff).modSys fun x => { x with xoRun := false }
  if s.sys.curSrc = 2 && !s.eng.stopped then s.coreFall else s

/-- XO32M becomes stable: the wanted islands run, and a core whose SRC is XO moves to it (R121, R122, R127). -/
def State.xoStable (s : State) : State :=
  let s := (s.modSys fun x => { x with xoRun := true }).startIslands
  if s.sys.src = 2 && !s.eng.stopped then s.coreSwitch else s

/-! ## Posted writes into AON (R14, R30, R76) -/

/-- A write reaches the AON island: its cause at completion. -/
def State.aonApply (s : State) (addr v : Word) : State × Nat :=
  let off := addr.toNat % 0x1000
  let blk := addr.toNat / 0x1000
  if blk = 0x40003 then s.nrgWrite off v
  else if blk = 0x40004 then
    let (t, c) := s.tmp.write off v
    (s.modTmp fun _ => t, c)
  else if blk = 0x40008 then (s.cmpWrite off v, 0)
  else (s, 0)

/-- The initiator is a halted shuttle: a posted write's failure is not reported to it (R173). -/
def State.initHalted (s : State) (i : Initiator) : Bool :=
  match i with
  | .shuttle k => (s.sh k).run == .halted
  | _ => false

/-- A posted write has failed: it is logged and waits to be reported to its initiator (R30, R173). -/
def State.postFails (s : State) (p : Posted) (c : Nat) : State :=
  let s := s.record (initCode p.init) true c p.addr
  if s.initHalted p.init then s
  else s.modSys fun x => { x with failed := x.failed ++ [{ init := p.init, addr := p.addr, cause := BitVec.ofNat 4 c }] }

/-- The oldest posted write completes, or goes unacknowledged (R14, R30). -/
def State.postedOne (s : State) (ack : Bool) : State :=
  match s.sys.posted with
  | [] => s
  | p :: r =>
    let s := s.modSys fun x => { x with posted := r }
    if ack then
      match s.aonApply p.addr p.val with
      | (s, 0) => s
      | (s, c) => s.postFails p c
    else s.postFails p 0xB

/-- Every posted write completes, in order. -/
def State.drainPosted (s : State) : State := s.sys.posted.foldl (fun s _ => s.postedOne true) s

/-! ## Resets (R17, R104, R105, R112, R215, R218, R386, R539) -/

/-- The order of R105: COLD, BROWNOUT, PIN, WDOG, DEBUG, SOFT. -/
def resetRank (c : BitVec 4) : Nat :=
  if c = 0 then 0 else if c = 5 then 1 else if c = 1 then 2 else if c = 3 then 3 else if c = 4 then 4 else 5

/-- CAUSE of a reset: the first in order of those of one XT32 period (R105). -/
def Sys.causeOf (x : Sys) (c : BitVec 4) : BitVec 4 :=
  if x.rstRecent && decide (resetRank x.rstCause < resetRank c) then x.rstCause else c

/-- The NRG block and the energy manager across a reset other than COLD (R17, R63, R73, R78, R89). -/
def State.nrgReset (s : State) : State :=
  (s.modNrg fun n => { n with ctl := putFld n.ctl 8 1 0, protDone := false }).modNrgx fun x => { x with
    laArmed := false, laCount := 0, sink := false, ocTrips := [],
    cellSw := if x.cellSw = .ocLatched then .closed else x.cellSw }

/-- The radio across a reset: the charges survive unless power was lost (R386, R392). -/
def Rad.afterReset (r : Rad) (lose : Bool) : Rad :=
  if lose then { Rad.reset with oldPlan := r.oldPlan }
  else { Rad.reset with charge := r.charge, oldPlan := r.oldPlan, coldHold := r.coldHold }

/-- Memory across a reset: the registers reset; SRAM is lost, and later cleared by the boot ROM, when power was lost
(R104, R193). -/
def Mem.afterReset (m : Mem) (lose : Bool) : Mem :=
  { Mem.reset with
    cells := if lose then m.cells.filter fun c => !inSram c.1 else m.cells,
    ecc := if lose then m.ecc.filter fun p => !inSram p.1 else m.ecc }

/-- A last act that a reset interrupts goes on (R539). -/
def State.laResume (s : State) : State :=
  match s.nrgx.laState with
  | .closing =>
    let s := s.modSys fun x => { x with
      wdogStopped := true, coreStopped := s.nrgx.deadline, xoRun := true, runDmi := true }
    s.modDrv fun d => { d with seqMode := .last, seqNext := 0, seqRun := none, seqOver := false, seqRetry := none }
  | .commitWait => s.modSys fun x => { x with wdogStopped := true, coreStopped := s.nrgx.deadline }
  | _ => s

/-- Every reset other than COLD: every block but NRG and TMP takes its reset values; `lose` is BROWNOUT (R17, R104). -/
def State.resetAs (s : State) (cause : BitVec 4) (lose : Bool) : State :=
  let s := if lose then s else s.wbDrain
  let c := s.sys.causeOf cause
  let now := s.local.toNat
  let s := s.nrgReset
  let sys : Sys := { Sys.reset with rstCause := c, rstRecent := true, tcxo := s.sys.tcxo }
  let drv : Drv := { Drv.reset with stopAt := now }
  let tmp : Tmp := { s.tmp with
    staged := 0, hiLatch := Vector.replicate 6 0, asnLatch := Vector.replicate 6 0 }
  let macx : MacAux := { MacAux.reset with sent := s.macx.sent }
  let sec : Sec := { Sec.reset with store := s.sec.store, image := s.sec.store }
  let lnk : Lnk := { Lnk.reset with sent := s.lnk.sent, refAt := now }
  let t : State :=
    { s with sys := sys, eng := Eng.reset, mem := s.mem.afterReset lose, armed := 0, drv := drv, flw := Flw.reset,
             prs := Prs.reset, tmp := tmp, rad := s.rad.afterReset lose, mac := Mac.reset, macx := macx, sec := sec,
             secx := SecAux.reset, prf := Prf.reset, lnk := lnk }
  (t.selectBank).laResume.boostCheck

/-- A software reset takes effect once the posted writes have completed (R106). -/
def State.softReset (s : State) : State := s.drainPosted.resetAs 2 false

/-! ## Cold start (R44, R56, R97, R533) -/

/-- V_MPSET in 0.1 mV, DC mode and an open strap, from MPSET_PV in ohms (R44): R / 10 kOhm volts are R units. In DC mode
V_MPSET is not used. -/
def mpsetOf (r : Option Nat) : Nat × Bool × Bool :=
  match r with
  | none => (40000, false, true)
  | some r =>
    if r < 2000 then (40000, true, false)
    else if r ≤ 20000 then (20000, false, false)
    else if r ≤ 90000 then (r, false, false)
    else if r ≤ 500000 then (90000, false, false)
    else (40000, false, true)

/-- The TEG fraction in parts of 200,000, from MPSET_TEG in ohms (R56): R / 200 kOhm are R parts. -/
def tegFracOf (r : Option Nat) : Nat :=
  match r with
  | none => 100000
  | some r => if r < 60000 then 60000 else if r ≤ 140000 then r else if r ≤ 500000 then 140000 else 100000

/-- The source can start a node in this power state (R75, R97, R98). -/
def coldFrom (p : Power) (u : PowerUp) : Bool :=
  match u.source with
  | .panel | .teg => p == .off
  | .cell => p == .off && decide (2750 ≤ u.cellMv)
  | .shipPanel | .shipWake => p == .ship

/-- A cold start: what MRAM and OTP hold stays, all else takes its reset value (R17, R94, R104, R112). -/
def State.coldStart (s : State) (u : PowerUp) : State :=
  let (mv, dc, open_) := mpsetOf u.mpsetPv
  let ship := u.source == .shipPanel || u.source == .shipWake
  let sys : Sys := { Sys.reset with rstRecent := true, shipExit := ship, tcxo := u.tcxo }
  let nrg : Nrg := { Nrg.reset with
    dcMode := dc, mpsOpen := open_, vcell := if u.source = .cell then BitVec.ofNat 16 (min 65535 u.cellMv) else 0 }
  let nrgx : NrgAux := { NrgAux.reset with
    vMpset := mv, pvTarget := mv * 256, tegFrac := tegFracOf u.mpsetTeg }
  let sec : Sec := { Sec.reset with store := s.sec.store, image := s.sec.store }
  let t : State :=
    { State.reset with
      sys := sys, nrg := nrg, nrgx := nrgx, mem := s.mem.afterReset true, sec := sec,
      macx := { MacAux.reset with sent := s.macx.sent }, lnk := { Lnk.reset with sent := s.lnk.sent },
      fresh := s.fresh, pending := s.pending }
  t.selectBank

end Sys2Proof.Machine
end

