-- ==== Sys2Proof/Machine/DrvRegs.lean ====
section
/-!
DEFINITION. The DRV registers, the profile table and the valve table as a bus access sees them (07, 08).
-/

namespace Sys2Proof.Machine

/-! ## Reads -/

/-- DRV_STAT.POLn: 0 idle, 1 open polarity, 2 close polarity, 3 idle in T_TURN. -/
def Treadle.pol (t : Treadle) : Nat :=
  match t.runs with
  | p :: _ => if p.prof.closes then 2 else 1
  | [] => if t.turn.isSome then 3 else 0

def Drv.stat (d : Drv) : Word :=
  placeB d.rovf 23 ||| place d.fifo.length 18 ||| placeB d.rphase 17 ||| place d.cmdstat.toNat 14 |||
    placeB (d.seqMode == .cold) 13 ||| placeB (d.seqMode == .last) 12 ||| place (d.trd.get 2).pol 10 |||
    place (d.trd.get 1).pol 8 ||| place (d.trd.get 0).pol 6

def Drv.qstat (d : Drv) : Word :=
  BitVec.ofNat 32 ((upTo 3).foldl (fun w t =>
    w + (d.trd.get t).entries.length <<< (8 * t.val + 4) + (d.trd.get t).runs.length <<< (8 * t.val)) 0)

/-- DRV_VSTATE0 (`lo` 0) and DRV_VSTATE1 (`lo` 16): two bits a valve (R248). -/
def Drv.vstates (d : Drv) (lo : Nat) : Word :=
  BitVec.ofNat 32 ((upTo 24).foldl (fun w v =>
    if lo ≤ v.val ∧ v.val < lo + 16 then w + vsCode (d.vs v) <<< (2 * (v.val - lo)) else w) 0)

def Drv.diag (d : Drv) : Word :=
  placeB d.manual 31 ||| place d.sw.toNat 29 ||| place d.leg.toNat 24 ||| placeB d.tall 21 ||| placeB d.tgo 20 |||
    place d.tres.toNat 16 ||| place d.tvalve.toNat 8

def Drv.boot (d : Drv) : Word :=
  place (d.bootCnt.get 2).toNat 20 ||| place (d.bootCnt.get 1).toNat 10 ||| place (d.bootCnt.get 0).toNat 0

/-- DRV_THERM; the settings of DRV_THERM.TWAIT, TAU, CTH and TCMAX as written. -/
def Drv.thermReg (d : Drv) : Word := placeB d.tsdact 31 ||| place d.tdie.toNat 22 ||| (d.therm &&& 0x3FFFFF)

/-- TCOIL as its field shows it: whole quarter degrees. -/
def ValveEntry.tcoilQ (e : ValveEntry) : Int := e.tcoil / 2 ^ 28

/-- A word of a valve-table entry. -/
def ValveEntry.word (e : ValveEntry) (k : Nat) : Word :=
  match k with
  | 0 => e.lenergy
  | 1 => place (toTwos 16 e.tcoilQ) 16 ||| place e.rcoil.toNat 0
  | 2 => place e.tnotch.toNat 16 ||| place e.tpeak.toNat 0
  | _ => placeB e.notfit 12 ||| place e.gstep.toNat 8 ||| place e.diag.toNat 0

/-- A read of DRV_RESULT: the summary of the oldest record, then its stamp, which removes it (R255). -/
def State.resultRead (s : State) : State × Word :=
  match s.drv.fifo with
  | [] => (s, 0)
  | (w, st) :: r =>
    if s.drv.rphase then (s.modDrv fun d => { d with fifo := r, rphase := false }, st)
    else (s.modDrv fun d => { d with rphase := true }, w)

def State.drvRead (s : State) (off : Nat) : Option (State × Word) :=
  let d := s.drv
  if 0x400 ≤ off ∧ off < 0x600 then
    some (s, (d.profileAt ((off - 0x400) / 32)).toList.getD ((off - 0x400) % 32 / 4) 0)
  else if 0x600 ≤ off ∧ off < 0x780 then
    (fin? 24 ((off - 0x600) / 16)).map fun v => (s, (d.valves.get v).word ((off - 0x600) % 16 / 4))
  else match off with
    | 0x00 => some (s, d.ctl)
    | 0x04 => some (s, d.stat)
    | 0x0C => some (s, d.qstat)
    | 0x10 => some (s, d.trdcfg.get 0)
    | 0x14 => some (s, d.trdcfg.get 1)
    | 0x18 => some (s, d.trdcfg.get 2)
    | 0x1C => some (s, place d.pair.toNat 0)
    | 0x20 => some (s, d.vstates 0)
    | 0x24 => some (s, d.vstates 16)
    | 0x28 => some (s, place d.fault.toNat 0)
    | 0x2C => some (s, place d.faultv.toNat 0)
    | 0x30 => some (s, d.diag)
    | 0x34 => some (s, d.gate)
    | 0x38 => some (s, d.boot)
    | 0x3C => some (s, d.thermReg)
    | 0x40 => some s.resultRead
    | _ => none

/-! ## Writes -/

/-- A write of DRV_CMD: the command's status goes to CMDSTAT, and a full queue also gives cause 0x9 (R176, R238). -/
def State.cmdWrite (s : State) (w : Word) : State × Nat :=
  match s.command w with
  | (s, 0, st) => (s.modDrv fun d => { d with cmdstat := BitVec.ofNat 3 st }, if st = 2 then 9 else 0)
  | (s, c, _) => (s, c)

/-- A write of DRV_TRDCFGt (R224, R245). -/
def State.trdcfgWrite (s : State) (t : Fin 3) (v : Word) : State × Nat :=
  let x := s.drv.trd.get t
  let imax := fld v 0 12
  if fld v 17 15 ≠ 0 ∨ fld v 12 4 ≠ 0 ∨ imax < 500 ∨ 4000 < imax then (s, 3)
  else if bit v 16 != s.drv.held t && !(x.runs.isEmpty && x.queue.isEmpty) then (s, 3)
  else (s.modDrv fun d => { d with trdcfg := d.trdcfg.set t v }, 0)

/-- Pair `k` may be joined or parted (R253). -/
def Drv.pairFree (d : Drv) (k : Nat) : Bool :=
  (upTo 24).all fun v => v.val / 2 != k || (d.vs v == .closed && !d.engaged v)

/-- Pair `k` is joined or parted: its valves read CLOSED, and each is so afterwards. -/
def Drv.repair (d : Drv) (k : Nat) : Drv :=
  { d with vstate := (upTo 24).foldl (fun x (v : Fin 24) => if v.val / 2 = k then x.set v VState.closed else x) d.vstate }

/-- A write of DRV_PAIR (R253). -/
def State.pairWrite (s : State) (v : Word) : State × Nat :=
  let p : BitVec 12 := BitVec.ofNat 12 (fld v 0 12)
  let ks := setBits (p ^^^ s.drv.pair).toNat 12
  if fld v 12 20 ≠ 0 ∨ ks.any (fun k => !s.drv.pairFree k) then (s, 3)
  else (s.modDrv fun d => { ks.foldl Drv.repair d with pair := p }, 0)

/-- MANUAL may be set (R261). -/
def Drv.manualOk (d : Drv) : Bool :=
  d.allRuns.isEmpty && d.allQueued.isEmpty && d.seqMode == .idle && d.test.isNone && !d.tall && !d.tsdact

/-- The valve a test of `n` tests: the even leg of a pair. -/
def Drv.testValve (d : Drv) (n : Nat) : Option (Fin 24) := (fin? 24 n).map d.even

/-- The cause of a DRV_DIAG write, 0 if it is accepted (R261, R278, R283). -/
def State.diagCheck (s : State) (v : Word) : Nat :=
  let d := s.drv
  let man := bit v 31
  let sw := fld v 29 2
  let leg := fld v 24 5
  if fld v 22 2 ≠ 0 ∨ fld v 13 3 ≠ 0 ∨ fld v 0 8 ≠ 0 ∨ 27 ≤ leg ∨ 24 ≤ fld v 8 5 ∨ (bit v 20 ∧ bit v 21) then 3
  else if man && s.lifecycle != 0 then 6
  else if man && !d.manual && !d.manualOk then 3
  else if sw ≠ 0 && !(man && d.manual) then 3
  else if leg ≠ d.leg.toNat ∧ d.sw ≠ 0 ∧ sw ≠ 0 then 3
  else if bit v 21 && (man || d.manual || d.test.isSome || d.tall || d.tsdact) then 3
  else if bit v 20 && (man || !(match d.testValve (fld v 8 5) with
      | some n => d.testOk n
      | none => false)) then 3
  else if sw = 3 then 8
  else 0

/-- The interlock of a half-bridge trips: both its switches stay off until it is released (R257). -/
def Drv.trip (d : Drv) (hb : Fin 27) : Drv := { d with trips := d.trips ||| BitVec.ofNat 27 (1 <<< hb.val) }

/-- A write of DRV_DIAG (R257, R259, R261, R283). A request for both switches trips the interlock of the output named; a request
for one switch of a tripped half-bridge stands, and turns nothing on (R257). -/
def State.diagWrite (s : State) (i : Initiator) (v : Word) : State × Nat :=
  match s.diagCheck v with
  | 0 =>
    let go := bit v 20
    (s.modDrv fun d =>
      let d := { d with manual := bit v 31, sw := BitVec.ofNat 2 (fld v 29 2), leg := BitVec.ofNat 5 (fld v 24 5),
                        tvalve := BitVec.ofNat 5 (fld v 8 5), diagInit := initCode i }
      let d := match go, d.testValve (fld v 8 5) with
        | true, some n => { d with test := some (n, .tgo), tgo := true }
        | _, _ => d
      if bit v 21 then ({ d with tall := true, tallNext := 0 } : Drv).tallGo else d, 0)
  | 8 =>
    let s := s.modDrv fun d =>
      let d := { d with sw := 0 }
      match fin? 27 (fld v 24 5) with
      | some hb => d.trip hb
      | none => d
    (s.drvFault 0 [], 8)
  | c => (s, c)

/-- A write of DRV_THERM. -/
def State.thermWrite (s : State) (v : Word) : State × Nat :=
  let tc := fld v 0 8
  if fld v 14 5 = 0 ∨ fld v 8 6 = 0 ∨ tc < 60 ∨ 200 < tc then (s, 3)
  else (s.modDrv fun d => { d with therm := v &&& 0x3FFFFF }, 0)

/-- A profile word that R234 refuses. -/
def badProfileWord (k : Nat) (v : Word) : Bool :=
  if k = 0 then v &&& 0x3C00100F != 0 || fld v 24 2 == 3 || fld v 22 2 == 3 || fld v 20 2 == 3 || fld v 18 2 == 3
  else k == 6 && v != 0 || k == 7 && v != 0

/-- A write to the profile table (R233, R234). -/
def State.profileWrite (s : State) (p : Fin 16) (k : Fin 8) (v : Word) : State × Nat :=
  if badProfileWord k.val v then (s, 3)
  else (s.modDrv fun d => { d with profiles := d.profiles.set p ((d.profiles.get p).set k v) }, 0)

/-- A write to the valve table (R251). -/
def State.valveWrite (s : State) (v : Fin 24) (k : Nat) (w : Word) : State × Nat :=
  match k with
  | 0 => (s.modDrv fun d => d.modValve v fun e => { e with lenergy := w }, 0)
  | 1 => (s.modDrv fun d => d.modValve v fun e => { e with
      tcoil := sfld w 16 16 * 2 ^ 28, rcoil := BitVec.ofNat 16 (fld w 0 16) }, 0)
  | 2 => (s.modDrv fun d => d.modValve v fun e => { e with
      tnotch := BitVec.ofNat 16 (fld w 16 16), tpeak := BitVec.ofNat 16 (fld w 0 16) }, 0)
  | _ =>
    let old := (s.drv.valves.get v).notfit
    let new := bit w 12
    let st := s.drv.vs v
    if fld w 13 19 ≠ 0 ∨ fld w 4 4 ≠ 0 ∨ 4 < fld w 0 4 then (s, 3)
    else if new && !((st == .closed || st == .unknown) && !s.drv.engaged v) then (s, 3)
    else
      let s := s.modDrv fun d => d.modValve v fun e => { e with
        notfit := new, gstep := BitVec.ofNat 4 (fld w 8 4), diag := BitVec.ofNat 4 (fld w 0 4) }
      -- the odd entry of a pair is unused (R252)
      let s := if old && !new && s.drv.even v = v then s.modDrv fun d => d.setVs v .unknown else s
      (s.seqFinish, 0)

def State.drvWrite (s : State) (i : Initiator) (off : Nat) (v : Word) : State × Nat :=
  if 0x400 ≤ off ∧ off < 0x600 then
    s.profileWrite ⟨(off - 0x400) / 32 % 16, Nat.mod_lt _ (by decide)⟩ ⟨off % 32 / 4, by omega⟩ v
  else if 0x600 ≤ off ∧ off < 0x780 then
    match fin? 24 ((off - 0x600) / 16) with
    | some n => s.valveWrite n (off % 16 / 4) v
    | none => (s, 1)
  else match off with
    | 0x00 =>
      if fld v 14 2 ≠ 0 ∨ fld v 1 7 ≠ 0 ∨ fld v 8 6 < 20 ∨ 50 < fld v 8 6 then (s, 3)
      else ((s.modDrv fun d => { d with ctl := v }).stopCold, 0)
    | 0x04 =>
      if fld v 24 8 ≠ 0 ∨ fld v 0 6 ≠ 0 then (s, 3)
      else (s.modDrv fun d => { d with rovf := d.rovf && !bit v 23 }, 0)
    | 0x08 => s.cmdWrite v
    | 0x0C | 0x20 | 0x24 | 0x40 => (s, 4)
    | 0x10 => s.trdcfgWrite 0 v
    | 0x14 => s.trdcfgWrite 1 v
    | 0x18 => s.trdcfgWrite 2 v
    | 0x1C => s.pairWrite v
    | 0x28 =>
      if fld v 8 24 ≠ 0 then (s, 3)
      else (s.modDrv fun d => { d with fault := d.fault &&& ~~~(BitVec.ofNat 8 (fld v 0 8)) }, 0)
    | 0x2C =>
      if fld v 24 8 ≠ 0 then (s, 3)
      else (s.modDrv fun d => { d with faultv := d.faultv &&& ~~~(BitVec.ofNat 24 (fld v 0 24)) }, 0)
    | 0x30 => s.diagWrite i v
    | 0x34 =>
      if fld v 21 11 ≠ 0 ∨ fld v 12 8 < 5 ∨ 80 < fld v 12 8 then (s, 3)
      else (s.modDrv fun d => { d with gate := v }, 0)
    | 0x38 =>
      if fld v 30 2 ≠ 0 then (s, 3)
      else (s.modDrv fun d => { d with
        bootCnt := #v[BitVec.ofNat 10 (fld v 0 10), BitVec.ofNat 10 (fld v 10 10), BitVec.ofNat 10 (fld v 20 10)] }, 0)
    | 0x3C => s.thermWrite v
    | _ => (s, 1)

/-! ## Loading the drive image (R99) -/

/-- The profile table in a bank, without its reserved bits. -/
def State.bankProfiles (s : State) (base : Nat) : Vector Profile 16 :=
  Vector.ofFn fun p : Fin 16 => Vector.ofFn fun k : Fin 8 =>
    let w := s.word (base + 32 * p.val + 4 * k.val)
    if k.val = 0 then w &&& 0xC3FFEFF0 else if 6 ≤ k.val then 0 else w

/-- The valve table in a bank: the coil temperature is TDIE + 40 degrees. -/
def State.bankValves (s : State) (base : Nat) : Vector ValveEntry 24 :=
  Vector.ofFn fun v : Fin 24 =>
    let w (k : Nat) : Word := s.word (base + 0x200 + 16 * v.val + 4 * k)
    { lenergy := w 0, tcoil := (s.drv.tdie.toInt + 40) * 2 ^ 30, rcoil := BitVec.ofNat 16 (fld (w 1) 0 16),
      tnotch := BitVec.ofNat 16 (fld (w 2) 16 16), tpeak := BitVec.ofNat 16 (fld (w 2) 0 16),
      notfit := bit (w 3) 12, gstep := BitVec.ofNat 4 (fld (w 3) 8 4), diag := BitVec.ofNat 4 (fld (w 3) 0 4) }

/-- The drive image is loaded from the active bank, or the tables take their ROM defaults (R99); a sequencer that a last act
runs finishes if no fitted valve remains (R91, R539). -/
def State.loadImage (s : State) : State :=
  (match s.mem.act with
   | .none => s.modDrv fun d => { d with
       profiles := romProfiles, valves := Vector.replicate 24 (romValve d.tdie.toInt) }
   | bk => s.modDrv fun d => { d with
       profiles := s.bankProfiles (bankBase bk), valves := s.bankValves (bankBase bk) }).seqFinish

end Sys2Proof.Machine
end

