-- ==== Sys2Proof/Machine/BootOps.lean ====
section
/-!
DEFINITION. What the boot ROM does between a reset and its handover: self-tests, the key store, the image check, the copies
of BRDCFG and RFREG, the drive image, the cold close, and the handover itself (R99, R101, R113, R390, R462, R463,
R468, R476, R478 to R480, R482).
-/

namespace Sys2Proof.Machine

/-! ## Keys (R465, R468, R476) -/

/-- A slot as the boot ROM restores it: its counter resumes at the persisted ceiling, which advances by 4,096. -/
def KeySlot.resume (k : KeySlot) : KeySlot :=
  if k.valid then
    { k with fcnt := k.ceiling, ceiling := BitVec.ofNat 32 (min 0xFFFFFFFF (k.ceiling.toNat + 4096)) }
  else k

/-- Slot 0 holds the device key of OTP. -/
def State.deviceSlot (s : State) : KeySlot :=
  let key : BitVec 128 := BitVec.ofNat 128 (ofBE (natBytes (s.byteList (otpBase + 0x100) 16)))
  if key = 0 ∨ s.lifecycle = 3 then KeySlot.empty else { KeySlot.empty with valid := true, key := key }

/-- The key store is restored, and the advanced ceilings are committed; a counter that resumes at or beyond 0xFFFF0000 raises
the rekey warning (R40, R476, R477). -/
def State.restoreKeys (s : State) : State :=
  let dev := s.deviceSlot
  let s := s.modSec fun c => { c with slots := (c.store.map KeySlot.resume).set 0 dev }
  let s := if (upTo 16).any fun k => (s.slot k).valid && decide (0xFFFF0000 ≤ (s.slot k).fcnt.toNat) then
      (s.modSec fun c => { c with rekeyw := true }).event 3
    else s
  if (upTo 16).any (fun k => k.val != 0 && (s.slot k).valid) then s.keyCommit else s

/-! ## The image check (R478, R479) -/

/-- Image A (`false`) or B (`true`). -/
def imageBase (b : Bool) : Nat := if b then 0x080F0000 else 0x08000000

/-- A range of memory is read: its errors are counted and recorded (R199, R201). -/
def State.readRange (s : State) (lo n : Nat) : State :=
  let words := ascending ((s.mem.ecc.filter fun p => decide (lo ≤ p.1) && decide (p.1 < lo + n)).map Prod.fst)
  words.foldl (fun s w => (s.eccRead w false).1) s

/-- ROOTHASH is unprogrammed in MANUFACTURE: checks 6 and 7 are skipped (R479). -/
def State.skipsSignature (s : State) : Bool := s.lifecycle == 0 && s.bytes (otpBase + 0x40) 32 == 0

/-- Check 3: LENGTH, LEVEL, VECBASE and the zero fields. -/
def State.imageFields (s : State) (base : Nat) : Bool :=
  let len := (s.word (base + 8)).toNat
  let vec := (s.word (base + 0x14)).toNat
  len % 8 == 0 && decide (len ≤ 982784) && decide ((s.word (base + 0x10)).toNat ≤ 32) && vec % 1024 == 0 &&
    decide (base ≤ vec) && decide (vec < base + 256 + len) && s.bytes (base + 0x1C) 4 == 0 && s.bytes (base + 0x60) 96 == 0

/-- Check 7: the signature over the header's first 0xC0 bytes and the body. -/
def State.imageSigned (s : State) (base : Nat) : Bool :=
  let len := (s.word (base + 8)).toNat
  let msg := s.memBytes base 0xC0 ++ s.memBytes (base + 256) len
  ecdsaOk (ofBE (sha256 msg)) (s.mem256 (base + 0x20), s.mem256 (base + 0x40)) (s.mem256 (base + 0xC0))
    (s.mem256 (base + 0xE0))

/-- The result of checking the image at `base`: 1 passed, else the first check that fails. -/
def State.imageCode (s : State) (base : Nat) : Nat :=
  let minrev := (s.word (base + 0x18)).toNat
  if s.word base ≠ 0x6E530324 ∨ s.word (base + 4) ≠ 1 then 2
  else if !s.imageFields base then 3
  else if 0x21 < minrev ∨ minrev / 16 ≠ 2 then 4
  else if (s.word (base + 0x10)).toNat < s.levels then 5
  else if !s.skipsSignature && sha256 (s.memBytes (base + 0x20) 64) != s.memBytes (otpBase + 0x40) 32 then 6
  else if !s.skipsSignature && !s.imageSigned base then 7
  else if s.badWord base (256 + (s.word (base + 8)).toNat) then 8
  else 1

/-- One image is checked and its result goes to SEC_BOOT. -/
def State.checkImage (s : State) (b : Bool) : State × Bool :=
  let base := imageBase b
  let c := s.imageCode base
  let n := if c = 1 ∨ 6 ≤ c then 256 + (s.word (base + 8)).toNat else 256
  let s := (s.readRange base n).modSec fun x =>
    if b then { x with resB := BitVec.ofNat 4 c } else { x with resA := BitVec.ofNat 4 c }
  (s, c == 1)

/-- The higher VERSION first, A first when they are equal (R480): the image that passes. -/
def State.chooseImage (s : State) : State × Option Bool :=
  let first := decide ((s.word 0x0800000C).toNat < (s.word 0x080F000C).toNat)
  match s.checkImage first with
  | (s, true) => (s, some first)
  | (s, false) =>
    match s.checkImage !first with
    | (s, true) => (s, some !first)
    | (s, false) => (s, none)

/-! ## The board configuration and the regulatory settings (R390, R462, R463) -/

/-- A write of the boot ROM to the NRG block: a refused value leaves the register as it is. -/
def State.bootNrg (s : State) (off : Nat) (v : Word) : State :=
  if s.nrgCheck off v = 0 then (s.nrgWrite off v).1 else s

/-- BRDCFG is copied; unprogrammed, only COLDCLOSE is written, as 1 (R462). -/
def State.copyBoard (s : State) : State :=
  let w0 := s.otp 0x08
  let w1 := s.otp 0x0C
  let w2 := s.otp 0x10
  let close (s : State) (b : Bool) : State := s.modDrv fun d => { d with ctl := putFld d.ctl 0 1 (b2n b) }
  if bit w0 31 then
    let s := s.bootNrg 0x18 (place (fld w1 12 4) 4 ||| place (fld w1 10 2) 0)
    let s := s.bootNrg 0x1C (place (fld w0 0 30) 0)
    let s := s.bootNrg 0x10 (place (fld w1 16 10) 16 ||| place (fld w1 0 9) 0)
    (close s (bit w2 12)).modDrv fun d => { d with pair := BitVec.ofNat 12 (fld w2 0 12) }
  else close s true

/-- RFREG is copied to RAD_DWELL and RAD_PWR, if it is programmed (R390). -/
def State.copyRegulatory (s : State) : State :=
  let w := s.otp 0x14
  if w = 0 then s
  else
    let m : BitVec 8 := (s.otp 0x18).extractLsb' 0 8
    let p : BitVec 8 := if m.toInt < 14 then m else 14
    let s := (s.dwellWrite w).1
    (s.radPwr (place m.toNat 8 ||| place p.toNat 0)).1

/-- XO32M is stable and the islands the ROM asks for run: it waits for them before it writes there (R390, R462). With no
image to start, the radio stays off (R480). -/
def State.bootIslands (s : State) (start : Bool) : State :=
  let s := s.modSys fun x => { x with xoRun := true }
  if start then s.startIslands else s.startDmi

/-! ## Handover (R113, R480) -/

/-- The image passed is started: VECBASE, and S0 at its start entry, at S privilege with IE = 0. -/
def State.startImage (s : State) (b : Bool) : State :=
  let base := imageBase b
  let vec := s.word (base + 0x14)
  let s := s.modSec fun c => { c with
    bootVer := (s.word (base + 0x0C)).extractLsb' 0 15, unsigned := s.skipsSignature,
    bootLevel := BitVec.ofNat 6 (s.word (base + 0x10)).toNat, bootImg := if b then 2 else 1 }
  let s := s.modEng fun e => { e with vecbase := vec }
  let s := s.modSh 0 fun x => { x with
    pc := s.entry 0 0xC0, flow := true, run := .ready, prv := false, ie := false,
    freeAt := s.eng.cyc + flowCost (s.entry 0 0xC0) }
  s.modSys fun x => { x with power := .run }

/-- BOOT_HANDOVER: all that the boot ROM does, up to the end of its requests for the islands, with the outcomes of its self-tests and of the entropy source's start-up
test as the environment gives them (R482, R483). -/
def State.bootHandover (s : State) (selfTestOk entropyOk : Bool) : State :=
  let s := s.modSec fun c => { c with stok := selfTestOk, entok := entropyOk }
  let s := s.restoreKeys
  let (s, img) := if selfTestOk then s.chooseImage else (s, none)
  let s := s.bootIslands img.isSome
  let s := s.copyBoard
  let s := if img.isSome then s.copyRegulatory else s
  let s := (s.loadImage).modSys fun x => { x with reqDmi := false, reqRad := false }
  match img with
  | some b => (s.startImage b).coldClose
  | none => (s.modSys fun x => { x with power := .bootFail }).coldClose

end Sys2Proof.Machine
end

