-- ==== Sys2Proof/Machine/CoreRegs.lean ====
section
/-!
DEFINITION. The registers of the core island's SYS, ENG and MEM blocks, and the start and stop of a shuttle (R33, R105 to
R108, R114 to R117, R121, R127, R131, R142 to R147, R198 to R209, R220).
-/

namespace Sys2Proof.Machine

/-! ## Shuttle start and disable (R114, R115) -/

/-- EN goes from 0 to 1: the wait latches clear, and the shuttle starts at its start entry, once an instruction that is still
in flight has completed. -/
def State.startShuttle (s : State) (i : Fin 4) : State :=
  let s := s.coreStart.modSh i fun x => { x with wpend := 0 }
  if (s.sh i).run = .busy then s.modSh i fun x => { x with restart := true } else s.begin i

/-- EN goes from 1 to 0: an instruction in flight still completes, and then the shuttle is DISABLED. -/
def State.stopShuttle (s : State) (i : Fin 4) : State :=
  (s.modSh i fun x => if x.run = .busy then { x with restart := false } else { x with run := .disabled }).checkStop

/-- One shuttle's byte of ENG_SHCTL. -/
def State.shctlOne (s : State) (i : Fin 4) (b : Nat) : State :=
  let was := (s.sh i).en
  let f := s.fixed i s.eng.cyc
  let r := s.recv i s.eng.cyc
  let s := s.modSh i fun x => { x with
    en := b.testBit 0, priv := b.testBit 1, fixedAct := f, fixedReq := b.testBit 2, recvAct := r, recvReq := b.testBit 3,
    udev := b.testBit 4 }
  if !was && b.testBit 0 then s.startShuttle i
  else if was && !b.testBit 0 then s.stopShuttle i
  else s

/-- A write of ENG_SHCTL: FIXED and RECEIVE count from the next entry-0 cycle (R117). -/
def State.shctlWrite (s : State) (v : Word) : State :=
  ((upTo 4).foldl (fun s i => s.shctlOne i (fld v (8 * i.val) 8)) s).modEng fun e => { e with flagAt := e.cyc }

def Shuttle.ctl (x : Shuttle) : Nat :=
  b2n x.en + 2 * b2n x.priv + 4 * b2n x.fixedReq + 8 * b2n x.recvReq + 16 * b2n x.udev

def runCode : RunState → Nat
  | .disabled => 0
  | .ready => 1
  | .busy => 2
  | .wait => 3
  | .halted => 4
  | .faulted => 5
  | .debug => 6

/-- A shuttle's byte of ENG_SHSTAT in core cycle `c`: a shuttle whose instruction is in flight shows BUSY (R119). -/
def Shuttle.stat (c : Nat) (x : Shuttle) : Nat :=
  (if !x.en && x.run != .busy then 0 else if x.run = .ready ∧ c < x.freeAt then 2 else runCode x.run) +
    8 * b2n x.prv + 16 * b2n x.ie + 32 * b2n x.inexc

/-- The core cycle in which an initiator's access takes place: a shuttle's own slot is the cycle before `cyc`. -/
def State.cycleOf (s : State) (i : Initiator) : Nat :=
  match i with
  | .shuttle _ => s.eng.cyc - 1
  | _ => s.eng.cyc

/-- Four bytes, S0 in the lowest. -/
def State.shBytes (s : State) (f : Shuttle → Nat) : Word :=
  place (f (s.sh 3)) 24 ||| place (f (s.sh 2)) 16 ||| place (f (s.sh 1)) 8 ||| place (f (s.sh 0)) 0

/-! ## ENG -/

/-- The bank that ENG_MPUCTL.SEL shows. -/
def Eng.mpuSel (e : Eng) : Fin 4 := ⟨fld e.mpuctl 0 2, by unfold fld; exact Nat.mod_lt _ (by decide)⟩

def State.engRead (s : State) (i : Initiator) (off : Nat) : Option Word :=
  let e := s.eng
  if h : 0x10 ≤ off ∧ off < 0x20 then
    let x := s.sh ⟨(off - 0x10) / 4, by omega⟩
    some (place x.wpend.toNat 16 ||| place x.ien.toNat 0)
  else if h : 0x40 ≤ off ∧ off < 0x60 then some ((e.mpu.get e.mpuSel).get ⟨(off - 0x40) / 4, by omega⟩)
  else match off with
    | 0x00 => some e.issueReq
    | 0x04 => some (s.shBytes Shuttle.ctl)
    | 0x08 => some (place e.evpend.toNat 0)
    | 0x20 => some e.evroute
    | 0x24 => some e.vecbase
    | 0x28 => some (s.shBytes (Shuttle.stat (s.cycleOf i)))
    | 0x60 => some e.mpuctl
    | _ => none

/-- BASE .. BASE + 0x3FF lies in the boot ROM, MRAM or SRAM (R147). -/
def vecbaseOk (v : Word) : Bool :=
  let a := v.toNat
  let e := a + 0x3FF
  fld v 0 10 == 0 && ((inRom a && inRom e) || (inMram a && inMram e) || (inSram a && inSram e))

def State.engWrite (s : State) (off : Nat) (v : Word) : State × Nat :=
  if h : 0x10 ≤ off ∧ off < 0x20 then
    (s.modSh ⟨(off - 0x10) / 4, by omega⟩ fun x => { x with
      wpend := x.wpend &&& ~~~(v.extractLsb' 16 16 &&& ~~~s.eng.same.ev), ien := v.extractLsb' 0 16 }, 0)
  else if h : 0x40 ≤ off ∧ off < 0x60 then
    if 19 < fld v 7 5 ∨ fld v 4 3 ≠ 0 then (s, 3)
    else (s.modEng fun e =>
      { e with mpu := e.mpu.set e.mpuSel ((e.mpu.get e.mpuSel).set ((off - 0x40) / 4) v (by omega)) }, 0)
  else match off with
    | 0x00 => (s.modEng fun e => { e with issueAct := e.table e.cyc, issueReq := v, issueAt := e.cyc }, 0)
    | 0x04 => if v &&& 0xE0E0E0E0 ≠ 0 then (s, 3) else (s.shctlWrite v, 0)
    | 0x08 =>
      if fld v 16 16 ≠ 0 then (s, 3) else (s.modEng fun e => { e with evpend := e.evpend &&& ~~~(v.extractLsb' 0 16 &&& ~~~e.same.ev) }, 0)
    | 0x20 => (s.modEng fun e => { e with evroute := v }, 0)
    | 0x24 => if vecbaseOk v then (s.modEng fun e => { e with vecbase := v }, 0) else (s, 3)
    | 0x28 => (s, 4)
    | 0x60 => if v &&& 0xFFFFFF0C ≠ 0 then (s, 3) else (s.modEng fun e => { e with mpuctl := v }, 0)
    | _ => (s, 1)

/-! ## SYS -/

def State.coreclk (s : State) : Word :=
  placeB s.sys.fallback 11 ||| placeB (s.sys.curSrc == s.sys.src) 10 ||| place s.sys.curSrc.toNat 8 |||
    place s.sys.div.toNat 4 ||| place s.sys.src.toNat 0

/-- SYS_ISLANDS. A write to the DMI or the Radio island is acknowledged within its own step, so only AON pends. -/
def State.islandsReg (s : State) : Word :=
  place s.armed.toNat 16 ||| placeB s.sys.xoRun 12 ||| placeB s.sys.reqDmi 9 ||| placeB s.sys.reqRad 8 |||
    placeB (!s.sys.posted.isEmpty) 4 ||| placeB s.sys.runDmi 3 ||| placeB s.sys.runRad 2 ||| 3

def Sys.wdogReg (x : Sys) : Word :=
  placeB x.wdogEn 15 ||| place x.wdogPeriod.toNat 8 ||| place x.wdogKmask.toNat 4 ||| place x.wdogKicked.toNat 0

def Sys.faultInfo (x : Sys) : Word :=
  placeB x.faultValid 31 ||| placeB x.faultOvr 30 ||| placeB x.faultWrite 11 ||| place x.faultInit.toNat 8 |||
    place x.faultCause.toNat 0

/-- A read of the SYS block: cause and value. -/
def State.sysRead (s : State) (off : Nat) : Nat × Word :=
  let x := s.sys
  match off with
  | 0x00 => (0, 0x324216E5)
  | 0x04 => (0, placeB x.shipExit 4 ||| place x.rstCause.toNat 0)
  | 0x08 => (4, 0)
  | 0x0C => (0, placeB s.sec.dbgOpen 8 ||| placeB s.dbgLock 6 ||| place s.lifecycle 0)
  | 0x10 => (0, x.faultAddr)
  | 0x14 => (0, x.faultInfo)
  | 0x18 => (0, s.coreclk)
  | 0x1C => (0, s.islandsReg)
  | 0x20 => (0, x.wdogReg)
  | _ => (1, 0)

/-- A configuration write of SYS_WDOG (R107). Kicks made while EN is 0 stay in KICKED, also when this write sets EN: the spec
settles neither (DESIGN CHOICE, log 66). -/
def State.wdogConfig (s : State) (v : Word) : State × Nat :=
  if fld v 12 3 ≠ 0 ∨ fld v 4 4 = 0 then (s, 3)
  else if s.sys.wdogEn then (s, 0)
  else (s.modSys fun x => { x with
    wdogEn := bit v 15, wdogPeriod := BitVec.ofNat 4 (fld v 8 4), wdogKmask := BitVec.ofNat 4 (fld v 4 4) }, 0)

/-- A kick: the bit of the shuttle that wrote it; a full set restarts the timeout and clears KICKED (R107). -/
def State.wdogKick (s : State) (init : Initiator) : State :=
  match init with
  | .shuttle i =>
    let k := s.sys.wdogKicked ||| BitVec.ofNat 4 (1 <<< i.val)
    s.modSys fun x => { x with wdogKicked := if x.wdogKmask &&& ~~~k = 0 then 0 else k }
  | _ => s

/-- A write of SYS_WDOG. -/
def State.wdogWrite (s : State) (init : Initiator) (v : Word) : State × Nat :=
  if fld v 16 16 = 0x7A1E then (s.wdogKick init, 0)
  else if fld v 16 16 = 0 then s.wdogConfig v
  else (s, 3)

/-- A write of SYS_CORECLK (R121). -/
def State.coreclkWrite (s : State) (v : Word) : State × Nat :=
  if fld v 12 20 ≠ 0 ∨ fld v 6 2 ≠ 0 ∨ fld v 2 2 ≠ 0 ∨ fld v 0 2 = 3 then (s, 3)
  else (s.modSys fun x => { x with
    fallback := x.fallback && !bit v 11, div := BitVec.ofNat 2 (fld v 4 2), src := BitVec.ofNat 2 (fld v 0 2) }, 0)

/-- A write of SYS_ISLANDS (R127). -/
def State.islandsWrite (s : State) (v : Word) : State × Nat :=
  if v &&& 0xFE00EC20 ≠ 0 then (s, 3)
  else ((s.modSys fun x => { x with reqDmi := bit v 9, reqRad := bit v 8 }).startIslands, 0)

/-- A write of SYS_SWRESET (R106): its cause. The reset follows once the access has ended (`State.afterStore`). -/
def swresetCheck (v : Word) : Nat := if fld v 16 16 ≠ 0x0C5E ∨ fld v 1 15 ≠ 0 then 3 else 0

def State.sysWrite (s : State) (init : Initiator) (off : Nat) (v : Word) : State × Nat :=
  match off with
  | 0x00 | 0x04 | 0x10 => (s, 4)
  | 0x08 => (s, swresetCheck v)
  | 0x0C => s.lifeWrite init v
  | 0x14 =>
    if fld v 12 18 ≠ 0 ∨ fld v 4 4 ≠ 0 then (s, 3)
    else (s.modSys fun x => { x with faultValid := x.faultValid && !bit v 31, faultOvr := x.faultOvr && !bit v 30 }, 0)
  | 0x18 => s.coreclkWrite v
  | 0x1C => s.islandsWrite v
  | 0x20 => s.wdogWrite init v
  | _ => (s, 1)

/-! ## MEM -/

def bankCode : Bank → Nat
  | .none => 0
  | .a => 1
  | .b => 2

def State.memRead (s : State) (off : Nat) : Option Word :=
  let m := s.mem
  match off with
  | 0x00 => some (place m.cthresh.toNat 16 ||| place m.inj.toNat 2 ||| placeB m.cwb 0)
  | 0x04 => some (place m.eccstat.toNat 0)
  | 0x08 => some (place m.mcnt.toNat 16 ||| place m.scnt.toNat 0)
  | 0x0C => some ((m.eccAddr &&& 0xFFFFFFF8) ||| placeB m.uncor 0)
  | 0x10 => some (placeB m.men 25 ||| placeB m.sen 24 ||| place m.mint.toNat 16 ||| place m.sint.toNat 8 |||
      place m.mpass.toNat 4 ||| place m.spass.toNat 0)
  | 0x14 => some (place m.wprot.toNat 0)
  | 0x18 => some (BitVec.ofNat 32 s.activeSeq)
  | 0x1C => some (placeB m.done 7 ||| placeB m.fail 6 ||| placeB m.noseq 5 ||| placeB m.pendSeq.isSome 4 |||
      placeB (s.isArmed 8) 3 ||| placeB m.busy.isSome 2 ||| place (bankCode m.act) 0)
  | _ => none

/-- A store that waits for an entry takes no injection: a later write of MEM_CTL has replaced the request (R205). -/
def Shuttle.unbound (x : Shuttle) : Shuttle :=
  match x.busyOn with
  | some (.mramStore a n v _ c) => { x with busyOn := some (.mramStore a n v 0 c) }
  | _ => x

/-- A write of MEM_CTL: it replaces a pending injection request (R205). -/
def State.memCtl (s : State) (v : Word) : State × Nat :=
  if fld v 24 8 ≠ 0 ∨ fld v 4 12 ≠ 0 ∨ bit v 1 ∨ fld v 2 2 = 3 then (s, 3)
  else ((s.setMem { s.mem with
    cthresh := BitVec.ofNat 8 (fld v 16 8), inj := BitVec.ofNat 2 (fld v 2 2), cwb := bit v 0,
    wbuf := s.mem.wbuf.map fun e => { e with inj := 0 } }).allSh Shuttle.unbound, 0)

def State.memWrite (s : State) (off : Nat) (v : Word) : State × Nat :=
  let m := s.mem
  match off with
  | 0x00 => s.memCtl v
  | 0x04 => if fld v 7 25 ≠ 0 then (s, 3) else (s.setMem { m with eccstat := m.eccstat &&& ~~~(v.extractLsb' 0 7 &&& ~~~s.eng.same.ecc) }, 0)
  | 0x08 => (s.setMem { m with mcnt := v.extractLsb' 16 16, scnt := v.extractLsb' 0 16 }, 0)
  | 0x0C => (s, 4)
  | 0x10 =>
    if fld v 26 6 ≠ 0 ∨ fld v 16 8 = 0 ∨ fld v 8 8 = 0 then (s, 3)
    else (s.setMem { m with men := bit v 25, sen := bit v 24, mint := v.extractLsb' 16 8, sint := v.extractLsb' 8 8 }, 0)
  | 0x14 =>
    if fld v 8 24 ≠ 0 then (s, 3)
    else (if m.wprotDone then s else s.setMem { m with wprot := v.extractLsb' 0 8, wprotDone := true }, 0)
  | 0x18 =>
    let c := s.pcommitCheck (fld v 0 31)
    if c ≠ 0 then (s, c) else (s.pcommit (bit v 31) (v.extractLsb' 0 31), 0)
  | 0x1C =>
    if fld v 8 24 ≠ 0 then (s, 3)
    else (s.setMem { m with done := m.done && !bit v 7, fail := m.fail && !bit v 6, noseq := m.noseq && !bit v 5 }, 0)
  | _ => (s, 1)

end Sys2Proof.Machine
end

