-- ==== Sys2Proof/Machine/Bus.lean ====
section
/-!
DEFINITION. The bus: the address map, the accesses of an initiator to memory, registers, OTP and the local chain window, and
their error responses (R8 to R14, R29, R30, R126, R127, R162, R163, R190 to R192, R198, R208, R209, R217, R461, R466, R512).
-/

namespace Sys2Proof.Machine

/-! ## The address map (R190, R191) -/

def inRegs (a : Nat) : Bool := 0x40000000 ≤ a && a < 0x4000E000
def inOtp (a : Nat) : Bool := 0x40100000 ≤ a && a < 0x40101000
def inChain (a : Nat) : Bool := 0x60000000 ≤ a && a < 0x62000000
/-- The key store's part of MRAM (R466). -/
def inKeyStore (a : Nat) : Bool := 0x081EF000 ≤ a && a < 0x081F0000

/-- The number of the register block at an address: 0 SYS .. 13 LNK. -/
def blockOf (a : Nat) : Nat := a / 0x1000 % 0x100

def isAon (k : Nat) : Bool := k == 3 || k == 4 || k == 8
def isDmi (k : Nat) : Bool := k == 5 || k == 6 || k == 7
def isRad (k : Nat) : Bool := k == 9 || k == 10

/-- The block's island does not run: cause 0xB at once (R29, R127). -/
def State.islandOff (s : State) (k : Nat) : Bool := (isDmi k && !s.sys.runDmi) || (isRad k && !s.sys.runRad)

/-- What an access answers: cause 0 and a value, or a cause and the address to record; `logged` when the fault record has
it already (R30). -/
structure Resp where
  cause  : Nat
  addr   : Word
  val    : DWord
  logged : Bool
  deriving DecidableEq, Repr

def good (v : DWord) : Resp := { cause := 0, addr := 0, val := v, logged := false }

def bad (c a : Nat) : Resp := { cause := c, addr := BitVec.ofNat 32 a, val := 0, logged := false }

def respW (c a : Nat) (v : Word) : Resp := if c = 0 then good (v.setWidth 64) else bad c a

/-! ## Failed posted writes (R30, R135) -/

/-- The oldest failed posted write of an initiator, which is then reported. -/
def State.takeFailed (s : State) (i : Initiator) : State × Option Resp :=
  match s.sys.failed.find? (fun f => f.init == i) with
  | none => (s, none)
  | some f =>
    let r : Resp := { cause := f.cause.toNat, addr := f.addr, val := 0, logged := true }
    (s.modSys fun x => { x with failed := x.failed.erase f }, some r)

/-! ## Registers -/

/-- An optional register value as a response: cause 1 for an offset that is not listed (R191). -/
def opt1 (a : Nat) (r : Option (State × Word)) (s : State) : State × Resp :=
  match r with
  | some (s, v) => (s, good (v.setWidth 64))
  | none => (s, bad 1 a)

/-- A read of a register whose island runs (R10, R11, R191). -/
def State.regRead (s : State) (i : Initiator) (a : Nat) : State × Resp :=
  let off := a % 0x1000
  let pure (v : Option Word) : State × Resp := opt1 a (v.map fun w => (s, w)) s
  match blockOf a with
  | 0 => let (c, v) := s.sysRead off; (s, respW c a v)
  | 1 => pure (s.engRead i off)
  | 2 => pure (s.memRead off)
  | 3 => pure (s.nrgRead off)
  | 4 => opt1 a (s.tmpRead i off) s
  | 5 => if off = 8 then (s, bad 4 a) else opt1 a (s.drvRead off) s
  | 6 => pure (s.flwRead off)
  | 7 => pure (s.prsRead off)
  | 8 => opt1 a (s.cmpRead off) s
  | 9 => opt1 a (s.radRead off) s
  | 10 => opt1 a (s.macRead i off) s
  | 11 => let (s, c, v) := s.secRead i off; (s, respW c a v)
  | 12 => pure (s.prfRead off)
  | _ => if off = 0xC then (s, bad 4 a) else opt1 a (s.lnkRead off) s

/-- A write of a register outside AON whose island runs: its cause (R126). -/
def State.regWrite (s : State) (i : Initiator) (a : Nat) (v : Word) : State × Nat :=
  let off := a % 0x1000
  match blockOf a with
  | 0 => s.sysWrite i off v
  | 1 => s.engWrite off v
  | 2 => s.memWrite off v
  | 5 => s.drvWrite i off v
  | 6 => s.flwWrite off v
  | 7 => s.prsWrite off v
  | 9 => s.radWrite off v
  | 10 => s.macWrite off v
  | 11 => s.secWrite i off v
  | 12 => s.prfWrite off v
  | 13 => s.lnkWrite off v
  | _ => (s, 1)

/-- The check of a write into AON before it is posted: its cause (R10, R12, R18, R76). -/
def State.aonCheck (s : State) (a : Nat) (v : Word) : Nat :=
  let off := a % 0x1000
  if blockOf a = 3 then s.nrgCheck off v
  else if blockOf a = 4 then s.tmp.check off v
  else cmpCheck off v

/-- A write into AON is posted, unless its check refuses it (R14, R76). -/
def State.aonPost (s : State) (i : Initiator) (a : Nat) (v : Word) : State × Resp :=
  match s.takeFailed i with
  | (s, some r) => (s, r)
  | (s, none) =>
    let c := s.aonCheck a v
    if c ≠ 0 then (s, bad c a)
    else (s.modSys fun x => { x with posted := x.posted ++ [{ init := i, addr := BitVec.ofNat 32 a, val := v }] }, good 0)

/-- A read of an AON register: it waits for a pending write of the same register, and reports a failed one (R14, R30). -/
def State.aonRead (s : State) (i : Initiator) (a : Nat) : State × Resp :=
  let s := if s.sys.posted.any (fun p => p.addr.toNat == a) then s.drainPosted else s
  match s.takeFailed i with
  | (s, some r) => (s, r)
  | (s, none) => s.regRead i a

/-- An island's own reasons to run may have changed with a write (R127). -/
def State.afterWrite (s : State) : State := s.startIslands

/-! ## Accesses -/

/-- The register-space checks that come before the register's own: island, size, alignment (R8, R29, R127, R162). -/
def State.regGate (s : State) (a n : Nat) : Option Nat :=
  if s.islandOff (blockOf a) then some 0xB else if n ≠ 4 ∨ a % 4 ≠ 0 then some 2 else none

/-- A read of a register, by any initiator. -/
def State.regAccess (s : State) (i : Initiator) (a n : Nat) : State × Resp :=
  match s.regGate a n with
  | some c => (s, bad c a)
  | none => if isAon (blockOf a) then s.aonRead i a else s.regRead i a

/-- A load from memory with its error correction (R163, R196, R201). -/
def State.memLoad (s : State) (a n : Nat) : State × Resp :=
  match s.loadBytes a n with
  | (s, some v) => (s, good v)
  | (s, none) => (s, bad 7 (a / 8 * 8))

/-- The offset in the local register space that a chain-window address at the head's own position names. -/
def chainLocal (a : Nat) : Nat := 0x40000000 + a % 0x100000

/-- The position that a chain-window address names. -/
def chainPos (a : Nat) : Nat := a / 0x100000 % 0x20

/-- A chain-window access goes to a member (R512): its position. -/
def State.remoteTarget (s : State) (a n : Nat) : Option (BitVec 5) :=
  if inChain a && s.isHead && n == 4 && a % 4 == 0 && decide (a % 0x100000 < 0xE000) &&
      decide (0 < chainPos a) && decide (chainPos a < s.lnk.count.toNat) then
    some (BitVec.ofNat 5 (chainPos a))
  else none

/-- The cause of a chain-window access that goes to no member, 0 for one to the chip itself (R512). -/
def State.chainGate (s : State) (a n : Nat) : Nat :=
  if !s.isHead then 1 else if n ≠ 4 ∨ a % 4 ≠ 0 then 2
  else if 0xE000 ≤ a % 0x100000 ∨ 0 < chainPos a then 1 else 0

/-- An error response to a chain-window access of the chip itself records the address as issued (R512). -/
def Resp.at_ (r : Resp) (a : Nat) : Resp :=
  if r.cause = 0 ∨ r.logged then r else { r with addr := BitVec.ofNat 32 a }

/-- A load of `n` bytes at `a` by an initiator (R190). -/
def State.busRead (s : State) (i : Initiator) (a n : Nat) : State × Resp :=
  if i = .debug ∧ a % n ≠ 0 then (s, bad 2 a)
  else if inRom a then (s, good (BitVec.ofNat 64 (s.bytes a n)))
  else if inMram a then (if inKeyStore a then (s, bad 4 a) else s.memLoad a n)
  else if inSram a then s.memLoad a n
  else if inRegs a then s.regAccess i a n
  else if inOtp a then
    if n ≠ 4 ∨ a % 4 ≠ 0 then (s, bad 2 a)
    else if otpBase + 0x100 ≤ a ∧ a < otpBase + 0x110 then (s, bad 4 a)
    else (s, good ((s.word a).setWidth 64))
  else if inChain a then
    let c := s.chainGate a n
    if c ≠ 0 then (s, bad c a)
    else
      let (s, r) := s.regAccess i (chainLocal a) n
      (s, r.at_ a)
  else (s, bad 1 a)

/-- A write of a register, by any initiator. -/
def State.regStore (s : State) (i : Initiator) (a n : Nat) (v : Word) : State × Resp :=
  match s.regGate a n with
  | some c => (s, bad c a)
  | none =>
    if isAon (blockOf a) then s.aonPost i a v
    else
      let (s, c) := s.regWrite i a v
      (s.afterWrite, if c = 0 then good 0 else bad c a)

/-- The shuttles whose store this is. -/
def ownerMask (i : Initiator) : BitVec 4 :=
  match i with
  | .shuttle k => BitVec.ofNat 4 (1 <<< k.val)
  | _ => 0

/-- A store to MRAM that the bus does not refuse; a full buffer makes room first (R163, R194). -/
def State.mramStore (s : State) (i : Initiator) (a n : Nat) (v : DWord) : State :=
  let inj := s.injFree
  let s := if s.firstStalled.isSome then s.wbDrain else s
  let s := if s.mem.wbRoom (a / 8 * 8) then s else s.wbWriteOne
  s.storeBytes a n v (ownerMask i) inj

/-- The cause of a store to MRAM, 0 if it is accepted (R198, R217, R466). -/
def State.mramGate (s : State) (a : Nat) : Nat := if inKeyStore a then 4 else (s.mramRefuses a).getD 0

/-- A store of `n` bytes at `a` by an initiator (R190). -/
def State.busWrite (s : State) (i : Initiator) (a n : Nat) (v : DWord) : State × Resp :=
  if i = .debug ∧ a % n ≠ 0 then (s, bad 2 a)
  else if inRom a then (s, bad 4 a)
  else if inMram a then
    let c := s.mramGate a
    if c ≠ 0 then (s, bad c a) else (s.mramStore i a n v, good 0)
  else if inSram a then (s.storeBytes a n v (ownerMask i) s.injFree, good 0)
  else if inRegs a then s.regStore i a n (v.setWidth 32)
  else if inOtp a then (if n ≠ 4 ∨ a % 4 ≠ 0 then (s, bad 2 a) else (s, bad 4 a))
  else if inChain a then
    let c := s.chainGate a n
    if c ≠ 0 then (s, bad c a)
    else
      -- a kick through the chain window sets no bit (R107)
      let (s, r) := s.regStore (if chainLocal a = 0x40000020 then .chain else i) (chainLocal a) n (v.setWidth 32)
      (s, r.at_ a)
  else (s, bad 1 a)

/-- The local address that an address names: a chain-window address of the chip itself is an alias (R512). -/
def localOf (a : Nat) : Nat := if inChain a then chainLocal a else a

/-- What follows an accepted store once its access has ended: a software reset that it asked for (R106, R513). -/
def State.afterStore (s : State) (a : Nat) (v : DWord) : State :=
  if localOf a = 0x40000008 ∧ v.getLsbD 0 then s.softReset else s

/-- An error response goes into the fault record, unless it is there already (R209). -/
def State.respond (s : State) (i : Initiator) (wr : Bool) (r : Resp) : State :=
  if r.cause = 0 ∨ r.logged then s else s.record (initCode i) wr r.cause r.addr

end Sys2Proof.Machine
end

