-- ==== Sys2Proof/Machine/Operands.lean ====
section
/-!
DEFINITION. Operand forms of the Noger instructions: the five formats as words, the sign and zero extensions, the effective
address, and the instruction word of every engine command (R148, R151 to R154, R157 to R160, R164 to R186).
-/

namespace Sys2Proof.Machine

/-! ## Extensions and addresses (05, Notation) -/

/-- sext of an 18-bit immediate. -/
def sx18 (imm : BitVec 18) : Word := imm.signExtend 32

/-- 4 x sext(off18): a branch displacement (R164). -/
def disp18 (off : BitVec 18) : Word := sx18 off <<< 2

/-- 4 x sext(off22): the displacement of JAL (R165). -/
def disp22 (off : BitVec 22) : Word := off.signExtend 32 <<< 2

/-- The address of a load, a store or a JALR target: ra + sext(imm18) (R160, R166). -/
def State.ea (s : State) (i : Fin 4) (ra : Fin 16) (imm : BitVec 18) : Word := s.reg i ra + sx18 imm

/-- The register after `r`, the high half of a pair (R161). -/
def pairHi (r : Fin 16) : Fin 16 := r + 1

/-- A value's halves go to a register pair, the low word in `rd` (R161, R177, R184). -/
def State.setPair (s : State) (i : Fin 4) (rd : Fin 16) (v : DWord) : State :=
  (s.setReg i rd (v.extractLsb' 0 32)).setReg i (pairHi rd) (v.extractLsb' 32 32)

/-- A register pair as one value; `w0` gives 0 as the low word (R161). -/
def State.pair (s : State) (i : Fin 4) (rs : Fin 16) : DWord := s.reg i (pairHi rs) ++ s.reg i rs

/-- s(x) and u(x). -/
def sI (w : Word) : Int := w.toInt

/-- A truth value as a register's 1 or 0. -/
def flag (b : Bool) : Word := if b then 1 else 0

/-! ## Formats (05) -/

def encA (op : Nat) (rd ra rb : Fin 16) (fn : Nat) : Word :=
  place op 26 ||| place rd.val 22 ||| place ra.val 18 ||| place rb.val 14 ||| place fn 0

def encI (op : Nat) (rd ra : Fin 16) (imm : BitVec 18) : Word :=
  place op 26 ||| place rd.val 22 ||| place ra.val 18 ||| place imm.toNat 0

def encB (op : Nat) (ra rb : Fin 16) (off : BitVec 18) : Word :=
  place op 26 ||| place ra.val 22 ||| place rb.val 18 ||| place off.toNat 0

def encJ (op : Nat) (rd : Fin 16) (off : BitVec 22) : Word := place op 26 ||| place rd.val 22 ||| place off.toNat 0

def encD (op : Nat) (rd ra : Fin 16) (dfn : Nat) (imm : BitVec 12) : Word :=
  place op 26 ||| place rd.val 22 ||| place ra.val 18 ||| place dfn 12 ||| place imm.toNat 0

/-- Opcode 0x07: the shift kind in imm18[6:5], the count in imm18[4:0] (R158). -/
def encShift (kind : Nat) (rd ra : Fin 16) (cnt : BitVec 5) : Word := encI 0x07 rd ra (BitVec.ofNat 18 (32 * kind + cnt.toNat))

/-! ## Words that are instructions (R151, R152) -/

/-- The zero fields hold 0 and the selectors are listed: ALU and MUL groups (R153, R154). -/
def aluListed (w : Word) : Bool :=
  let fn := fld w 0 14
  decide (1 ≤ fn) && decide (fn ≤ 0x12) && (!(fn == 0xF || fn == 0x10) || fld w 14 4 == 0)

def mulListed (w : Word) : Bool :=
  let fn := fld w 0 14
  decide (1 ≤ fn) && decide (fn ≤ 0xA) && (fn != 0xA || fld w 14 12 == 0)

/-- Opcode 0x30: WAIT, POST, TRAP, ERET, FENCE, CSRR, CSRW and HALT with their zero fields (R152, R174). -/
def sysListed (w : Word) : Bool :=
  let rd := fld w 22 4
  let ra := fld w 18 4
  let imm := fld w 0 12
  match fld w 12 6 with
  | 0 => true
  | 1 => rd == 0 && imm / 16 == 0
  | 2 => rd == 0 && ra == 0
  | 3 | 4 | 7 => rd == 0 && ra == 0 && imm == 0
  | 5 => ra == 0 && decide (imm ≤ 7)
  | 6 => rd == 0 && decide (imm ≤ 6)
  | _ => false

/-- Opcode 0x31: DRV, SNAP, COMMIT, STAMP and CRC with their zero fields (R152). -/
def devListed (w : Word) : Bool :=
  let rd := fld w 22 4
  let ra := fld w 18 4
  let imm := fld w 0 12
  match fld w 12 6 with
  | 0 => imm == 0
  | 1 => ra == 0 && rd % 2 == 0 && decide (imm ≤ 4)
  | 2 => true
  | 3 => ra == 0 && rd % 2 == 0 && imm / 2 == 0
  | 4 => imm / 16 == 0 && imm / 4 != 3
  | _ => false

/-- The word is an instruction: its opcode and its selectors are listed, its zero fields hold 0, and the pair registers of LDD,
STD, SNAP and STAMP are even (R151, R152). STD names an even rs by R161. -/
def isInstr (w : Word) : Bool :=
  let op := fld w 26 6
  if op = 0 then aluListed w
  else if op = 1 then mulListed w
  else if op ≤ 0x06 ∨ op = 0x08 then true
  else if op = 0x07 then fld w 7 11 == 0 && fld w 5 2 != 3
  else if 0x10 ≤ op ∧ op ≤ 0x14 then true
  else if op = 0x15 ∨ op = 0x1B then fld w 22 4 % 2 == 0
  else if 0x18 ≤ op ∧ op ≤ 0x1A then true
  else if 0x20 ≤ op ∧ op ≤ 0x25 then true
  else if op = 0x28 ∨ op = 0x29 then true
  else if op = 0x30 then sysListed w
  else if op = 0x31 then devListed w
  else false

/-- The word of an engine command; `none` for a command that is no instruction (the opcode map of 05). -/
def wordOf (i : Instr) : Option Word :=
  match i with
  | .add _ d a b => some (encA 0 d a b 0x001)
  | .sub _ d a b => some (encA 0 d a b 0x002)
  | .and _ d a b => some (encA 0 d a b 0x003)
  | .or _ d a b => some (encA 0 d a b 0x004)
  | .xor _ d a b => some (encA 0 d a b 0x005)
  | .shl _ d a b => some (encA 0 d a b 0x006)
  | .shr _ d a b => some (encA 0 d a b 0x007)
  | .sra _ d a b => some (encA 0 d a b 0x008)
  | .slt _ d a b => some (encA 0 d a b 0x009)
  | .sltu _ d a b => some (encA 0 d a b 0x00A)
  | .min _ d a b => some (encA 0 d a b 0x00B)
  | .max _ d a b => some (encA 0 d a b 0x00C)
  | .minu _ d a b => some (encA 0 d a b 0x00D)
  | .maxu _ d a b => some (encA 0 d a b 0x00E)
  | .clz _ d a => some (encA 0 d a 0 0x00F)
  | .popc _ d a => some (encA 0 d a 0 0x010)
  | .adds _ d a b => some (encA 0 d a b 0x011)
  | .subs _ d a b => some (encA 0 d a b 0x012)
  | .mul _ d a b => some (encA 1 d a b 0x001)
  | .mulh _ d a b => some (encA 1 d a b 0x002)
  | .mulhu _ d a b => some (encA 1 d a b 0x003)
  | .div _ d a b => some (encA 1 d a b 0x004)
  | .divu _ d a b => some (encA 1 d a b 0x005)
  | .rem _ d a b => some (encA 1 d a b 0x006)
  | .remu _ d a b => some (encA 1 d a b 0x007)
  | .macs _ d a b => some (encA 1 d a b 0x008)
  | .macu _ d a b => some (encA 1 d a b 0x009)
  | .accclr _ => some (encA 1 0 0 0 0x00A)
  | .addi _ d a m => some (encI 0x02 d a m)
  | .andi _ d a m => some (encI 0x03 d a m)
  | .ori _ d a m => some (encI 0x04 d a m)
  | .xori _ d a m => some (encI 0x05 d a m)
  | .slti _ d a m => some (encI 0x06 d a m)
  | .shli _ d a c => some (encShift 0 d a c)
  | .shri _ d a c => some (encShift 1 d a c)
  | .srai _ d a c => some (encShift 2 d a c)
  | .lui _ d m => some (encJ 0x08 d m)
  | .ldw _ d a m => some (encI 0x10 d a m)
  | .ldh _ d a m => some (encI 0x11 d a m)
  | .ldhu _ d a m => some (encI 0x12 d a m)
  | .ldb _ d a m => some (encI 0x13 d a m)
  | .ldbu _ d a m => some (encI 0x14 d a m)
  | .ldd _ d a m => some (encI 0x15 d a m)
  | .stw _ r a m => some (encI 0x18 r a m)
  | .sth _ r a m => some (encI 0x19 r a m)
  | .stb _ r a m => some (encI 0x1A r a m)
  | .std _ r a m => some (encI 0x1B r a m)
  | .beq _ a b o => some (encB 0x20 a b o)
  | .bne _ a b o => some (encB 0x21 a b o)
  | .blt _ a b o => some (encB 0x22 a b o)
  | .bge _ a b o => some (encB 0x23 a b o)
  | .bltu _ a b o => some (encB 0x24 a b o)
  | .bgeu _ a b o => some (encB 0x25 a b o)
  | .jal _ d o => some (encJ 0x28 d o)
  | .jalr _ d a m => some (encI 0x29 d a m)
  | .wait _ d a m => some (encD 0x30 d a 0x00 m)
  | .post _ a m => some (encD 0x30 0 a 0x01 (m.setWidth 12))
  | .trap _ m => some (encD 0x30 0 0 0x02 m)
  | .eret _ => some (encD 0x30 0 0 0x03 0)
  | .fence _ => some (encD 0x30 0 0 0x04 0)
  | .csrr _ d c => some (encD 0x30 d 0 0x05 c)
  | .csrw _ a c => some (encD 0x30 0 a 0x06 c)
  | .halt _ => some (encD 0x30 0 0 0x07 0)
  | .drv _ d a => some (encD 0x31 d a 0x00 0)
  | .snap _ d m => some (encD 0x31 d 0 0x01 m)
  | .commit _ d a m => some (encD 0x31 d a 0x02 m)
  | .stamp _ d p _ => some (encD 0x31 d 0 0x03 (if p then 1 else 0))
  | .crc _ d a m => some (encD 0x31 d a 0x04 (m.setWidth 12))
  | _ => none

end Sys2Proof.Machine
end

