-- ==== Sys2Proof/Machine/Flags.lean ====
section
/-!
DEFINITION. Results that stand where other machines have flags. The engine has none: "no instruction sets a flag" (R153); a
comparison goes to a register or into a branch. Here stand the comparisons, the saturation, the division corners and the
counts that the ALU and MUL groups name (R153 to R155, R164).
-/

namespace Sys2Proof.Machine

/-- sat32: limited to -2^31 .. 2^31 - 1. -/
def sat32 (v : Int) : Word := BitVec.ofInt 32 (clampI (-(2 ^ 31)) (2 ^ 31 - 1) v)

/-- The shift count of a register shift: rb and 31 (R153). -/
def shCount (b : Word) : Nat := b.toNat % 32

/-- Leading zero bits, 0 to 32 (R153). -/
def clz32 (w : Word) : Nat := 32 - (if w = 0 then 0 else Nat.log2 w.toNat + 1)

/-- 1 bits, 0 to 32 (R153). -/
def popc32 (w : Word) : Nat := (setBits w.toNat 32).length

def minS (a b : Word) : Word := if a.toInt ≤ b.toInt then a else b
def maxS (a b : Word) : Word := if a.toInt ≤ b.toInt then b else a
def minU (a b : Word) : Word := if a.toNat ≤ b.toNat then a else b
def maxU (a b : Word) : Word := if a.toNat ≤ b.toNat then b else a

/-- The high word of a signed product (R154). -/
def mulHi (a b : Word) : Word := BitVec.ofInt 32 (a.toInt * b.toInt / 2 ^ 32)

/-- The high word of an unsigned product (R154). -/
def mulHiU (a b : Word) : Word := BitVec.ofNat 32 (a.toNat * b.toNat / 2 ^ 32)

/-- DIV: truncates toward zero; by zero all ones; the most negative number by -1 wraps to itself (R154, R155). -/
def divS (a b : Word) : Word := if b = 0 then 0xFFFFFFFF else BitVec.ofInt 32 (divT a.toInt b.toInt)

/-- DIVU (R154, R155). -/
def divU (a b : Word) : Word := if b = 0 then 0xFFFFFFFF else BitVec.ofNat 32 (a.toNat / b.toNat)

/-- REM: takes the sign of the dividend; by zero the dividend (R154, R155). -/
def remS (a b : Word) : Word := if b = 0 then a else BitVec.ofInt 32 (a.toInt - divT a.toInt b.toInt * b.toInt)

/-- REMU (R154, R155). -/
def remU (a b : Word) : Word := if b = 0 then a else BitVec.ofNat 32 (a.toNat % b.toNat)

/-- The conditions of the branches (R164). -/
inductive Cond where
  | eq | ne | lt | ge | ltu | geu
  deriving DecidableEq, Repr

def Cond.holds (c : Cond) (a b : Word) : Bool :=
  match c with
  | .eq => a == b
  | .ne => a != b
  | .lt => decide (a.toInt < b.toInt)
  | .ge => decide (b.toInt ≤ a.toInt)
  | .ltu => decide (a.toNat < b.toNat)
  | .geu => decide (b.toNat ≤ a.toNat)

end Sys2Proof.Machine
end

