-- ==== Sys2Proof/Machine/Remote.lean ====
section
/-!
DEFINITION. Accesses that outlast their command: a shuttle's instruction in flight, remote accesses of the chain head, and the
debug port's accesses (R119, R124, R125, R487, R511 to R514).
-/

namespace Sys2Proof.Machine

/-! ## A shuttle in flight (R119, R125) -/

/-- The shuttle becomes BUSY with an instruction in flight; the conditions it enters are counted (R491). -/
def State.setBusy (s : State) (i : Fin 4) (b : BusyOn) : State :=
  let s := s.modSh i fun x => { x with run := .busy, busyOn := some b }
  let s := s.count 0x05 (some i) .entry 1
  let s := s.entered 0x0C (some i) false (s.sh i).crossing
  s.entered 0x10 (some i) false (s.sh i).stalled

/-- The instruction in flight writes its destination and ends. -/
def State.landReg (s : State) (i : Fin 4) (rd : Fin 16) (v : Word) : State := (s.setReg i rd v).land i

/-- The instruction in flight ends in an error response (R135). -/
def State.landBad (s : State) (i : Fin 4) (addr : Word) : State := s.raise i 7 addr

/-! ## Remote accesses of the head (R514) -/

/-- The frame of a remote access is sent (R506). -/
def State.remoteSend (s : State) (r : Remote) : State :=
  let off : Word := place (fld r.addr 2 18) 0
  if r.write then s.linkSend .down 5 r.pos [off, r.data] else s.linkSend .down 4 r.pos [off]

/-- A remote access is issued: it is sent at once, or waits in issue order (R514). -/
def State.remoteIssue (s : State) (r : Remote) : State :=
  let first := s.lnk.remotes.isEmpty
  let s := s.modLnk fun l => { l with remotes := l.remotes ++ [r] }
  if first then s.remoteSend r else s

/-- The end of a remote access reaches its initiator. -/
def State.remoteDeliver (s : State) (r : Remote) (cause : Nat) (v : Word) : State :=
  let s := if cause = 0 then s else s.record (initCode r.init) r.write cause r.addr
  match r.init with
  | .shuttle i =>
    if cause ≠ 0 then s.landBad i r.addr
    else match (s.sh i).busyOn with
      | some (.remoteLoad rd) => s.landReg i rd v
      | some .remoteStore => s.land i
      | _ => s
  | _ => s.modSys fun x => { x with dbgData := if cause = 0 then v else 0, dbgCause := BitVec.ofNat 4 cause }

/-- The remote access under way ends, and the next is sent. -/
def State.remoteDone (s : State) (cause : Nat) (v : Word) : State :=
  match s.lnk.remotes with
  | [] => s
  | r :: rest =>
    let s := (s.modLnk fun l => { l with remotes := rest }).remoteDeliver r cause v
    match rest with
    | [] => s
    | n :: _ => s.remoteSend n

/-- A response of this kind from this position answers the access under way (R508, R514). -/
def State.remoteFits (s : State) (pos : BitVec 5) (write : Bool) : Bool :=
  match s.lnk.remotes with
  | [] => false
  | r :: _ => r.pos == pos && r.write == write

/-! ## Remote accesses at a member (R513) -/

/-- The member's local address of a word offset. -/
def memberAddr (off : BitVec 18) : Nat := 0x40000000 + 4 * off.toNat

/-- A READ frame at a member: its own is performed and answered, another's is forwarded (R508, R513). -/
def State.memberRead (s : State) (pos : BitVec 5) (off : BitVec 18) : State :=
  if !s.isMember then s
  else if pos ≠ s.lnk.pos then s.linkSend .down 4 pos [place off.toNat 0]
  else
    let (s, r) := s.newCycle.busRead .chain (memberAddr off) 4
    let s := s.respond .chain false r
    s.linkSend .up 6 s.lnk.pos [place r.cause 0, r.val.setWidth 32]

/-- A WRITE frame at a member; its WACK leaves before a software reset takes effect (R513). -/
def State.memberWrite (s : State) (pos : BitVec 5) (off : BitVec 18) (w : Word) : State :=
  if !s.isMember then s
  else if pos ≠ s.lnk.pos then s.linkSend .down 5 pos [place off.toNat 0, w]
  else
    let (s, r) := s.newCycle.busWrite .chain (memberAddr off) 4 (w.setWidth 64)
    let s := s.respond .chain true r
    let s := s.linkSend .up 7 s.lnk.pos [place r.cause 0]
    if r.cause = 0 then s.afterStore (memberAddr off) (w.setWidth 64) else s

/-- An RDATA frame: the head's response, or forwarded upward by a member (R508, R514). -/
def State.rdataFrame (s : State) (pos : BitVec 5) (cause : BitVec 4) (w : Word) : State :=
  if s.isHead then (if s.remoteFits pos false then s.remoteDone cause.toNat w else s)
  else if s.isMember then s.linkSend .up 6 pos [place cause.toNat 0, w]
  else s

/-- A WACK frame. -/
def State.wackFrame (s : State) (pos : BitVec 5) (cause : BitVec 4) : State :=
  if s.isHead then (if s.remoteFits pos true then s.remoteDone cause.toNat 0 else s)
  else if s.isMember then s.linkSend .up 7 pos [place cause.toNat 0]
  else s

/-- No valid response within 2 ms: cause 0xA and TOUT (R514, R517). -/
def State.remoteTimeout (s : State) : State :=
  ((s.remoteDone 0xA 0).modLnk fun l => { l with tout := true }).chainEvent 2

/-! ## The debug port (R8, R487) -/

/-- What a failed debug read returns: 0 where the spec says so, else a free value (R28, R201, R514). -/
def State.debugFail (s : State) (c : Nat) : State :=
  let z := c == 7 || c == 0xA || c == 0xB
  let v : Word := if z then 0 else Config.refusedRead s.fresh
  { (s.modSys fun x => { x with dbgData := v, dbgCause := BitVec.ofNat 4 c }) with fresh := if z then s.fresh else s.fresh + 1 }

/-- A read by the debug port. -/
def State.debugRead (s : State) (a n : Nat) : State :=
  if !s.dbgMay a false then (s.respond .debug false (bad 6 a)).debugFail 6
  else match s.remoteTarget a n with
    | some p => s.remoteIssue { init := .debug, pos := p, write := false, addr := BitVec.ofNat 32 a, data := 0 }
    | none =>
      let (s, r) := s.newCycle.busRead .debug a n
      let s := s.respond .debug false r
      if r.cause = 0 then s.modSys fun x => { x with dbgData := r.val.setWidth 32, dbgCause := 0 } else s.debugFail r.cause

/-- A write by the debug port. -/
def State.debugWrite (s : State) (a n : Nat) (v : DWord) : State :=
  let done (s : State) (c : Nat) : State := s.modSys fun x => { x with dbgCause := BitVec.ofNat 4 c }
  if !s.dbgMay a true then done (s.respond .debug true (bad 6 a)) 6
  else match s.remoteTarget a n with
    | some p =>
      s.remoteIssue { init := .debug, pos := p, write := true, addr := BitVec.ofNat 32 a, data := v.setWidth 32 }
    | none =>
      let (s, r) := s.newCycle.busWrite .debug a n v
      let s := done (s.respond .debug true r) r.cause
      if r.cause = 0 then s.afterStore a v else s

/-- What a chain head reaches: the first mebibyte of register space (R192). -/
def inMember (a : Nat) : Bool := 0x40000000 ≤ a && a < 0x40100000

/-- A write by a chain head as this chip's own step, for the rows that name their initiator (R513). -/
def State.chainWrite (s : State) (a : Nat) (v : DWord) : State :=
  if !(s.isMember && inMember a) then s
  else
  let (s, r) := s.newCycle.busWrite .chain a 4 v
  let s := s.respond .chain true r
  if r.cause = 0 then s.afterStore a v else s

/-- A read by a chain head as this chip's own step. -/
def State.chainRead (s : State) (a : Nat) : State :=
  if !(s.isMember && inMember a) then s
  else
  let (s, r) := s.newCycle.busRead .chain a 4
  s.respond .chain false r

end Sys2Proof.Machine
end

