-- ==== Sys2Proof/Machine/Engine.lean ====
section
/-!
DEFINITION. The engine's shared operations: issue and fetch, register results, loads, stores, branches, and the shared part of
the system and device instructions (R117 to R120, R129 to R141, R148 to R189).
-/

namespace Sys2Proof.Machine

/-! ## Issue and fetch (R136, R149, R150, R199, R201) -/

/-- An error response to shuttle `i`: recorded, and raised as exception `exc` (R135, R209). -/
def State.busError (s : State) (i : Fin 4) (wr : Bool) (cause exc : Nat) (a : Word) : State :=
  (s.record i.val wr cause a).raise i (BitVec.ofNat 32 exc) a

/-- The read of the instruction's word from memory: SRAM at every fetch, MRAM once for each 64-bit word (R150, R199). A word
that has been written since the shuttle's last change of flow reads as it was before (R188). -/
def State.fetchRead (s : State) (i : Fin 4) : State × Bool :=
  let x := s.sh i
  let a := x.pc.toNat
  let w := a / 8 * 8
  if inRom a || (inMram a && !x.flow && a % 8 != 0) then (s, true)
  else match (if inMram a then s.oldWord i w else none) with
    | none => s.eccRead w false
    | some o =>
      if o.cls = 0 then (s, true) else if o.cls = 1 then (s.eccCount w, true) else (s.eccUncor w 0x10, false)

/-- The instruction word at the shuttle's PC, as its fetch buffer has it (R148, R150, R188). -/
def State.fetchWord (s : State) (i : Fin 4) : Word :=
  let a := (s.sh i).pc.toNat
  match (if inMram a then s.oldWord i (a / 8 * 8) else none) with
  | none => s.word a
  | some o => BitVec.ofNat 32 (o.data.toNat >>> (8 * (a % 8)))

/-- Memory holds a word at the PC that is no instruction (R151, R152). The boot ROM's words are not given (log 63). -/
def State.illegalWord (s : State) (i : Fin 4) : Bool := !inRom (s.sh i).pc.toNat && !isInstr (s.fetchWord i)

/-- The fetch at the shuttle's PC: `false` when it raised an exception (R132, R136, R149, R201, R466). -/
def State.fetch (s : State) (i : Fin 4) : State × Bool :=
  let pc := (s.sh i).pc
  let a := pc.toNat
  if !s.mpuOk i a .x then (s.raise i 3 pc, false)
  else if !(inRom a || inMram a || inSram a) then (s.busError i false 1 7 pc, false)
  else if inKeyStore a then (s.busError i false 4 7 pc, false)
  else
    match s.fetchRead i with
    | (s, false) => (s.busError i false 7 8 (BitVec.ofNat 32 (a / 8 * 8)), false)
    | (s, true) =>
      let s := if inMram a && (s.sh i).flow then s.count 0x08 (some i) .occ 1 else s
      (s.modSh i fun x => { x with flow := false, bufAt := if x.flow then s.mem.oldNum else x.bufAt }, true)

/-- The engine as it stands when the cycles before the shuttle's next slot have passed: its issue point (R141, R177). -/
def State.preSlot (s : State) (i : Fin 4) : State :=
  match s.nextSlot i with
  | none => s
  | some c => s.idleTick (c - s.eng.cyc)

/-- A cause that is found before the instruction issues: exception and c.addr (R141). -/
abbrev PreCause := Option (Word × Word)

/-- An instruction of shuttle `i`: it is fetched and issues in the shuttle's next slot; then `f` is what it does. If no slot
comes for the shuttle, it is not issued. At its issue point a fetch cause, an illegal word or the instruction's own cause
`pre` (illegal, privileged, TRAP) raises its exception, and else an interrupt whose condition holds is taken first
(R141, R145, R168). -/
def State.instrWith (s : State) (i : Fin 4) (pre : State → PreCause) (f : State → State) : State :=
  match s.issue i with
  | none => s
  | some t =>
    let w := t.fetchWord i
    let illegal := t.illegalWord i
    match t.fetch i with
    | (t, false) => t
    | (t, true) =>
      if illegal then t.raise i 1 w
      else match pre t with
        | some (c, a) => t.raise i c a
        | none => match (s.preSlot i).irq i with
          | some e => (s.preSlot i).interrupt i e
          | none => f t

/-- An instruction without a cause of its own before it issues. -/
def State.instr (s : State) (i : Fin 4) (f : State → State) : State := s.instrWith i (fun _ => none) f

/-- Exception 0x01 with the instruction word, under this condition (R152). -/
def illegalIf (c : Bool) (w : Word) : PreCause := if c then some (1, w) else none

/-- Exception 0x02 with the instruction word of a privileged instruction, under this condition (R134). -/
def privIf (c : Bool) (w : Word) : PreCause := if c then some (2, w) else none

/-- Exception 0x02 with the target address (R130, R134). -/
def State.privFault (s : State) (i : Fin 4) (w : Word) : State := s.raise i 2 w

/-- The shuttle runs U code. -/
def State.user (s : State) (i : Fin 4) : Bool := (s.sh i).prv

def oddReg (r : Fin 16) : Bool := r.val % 2 == 1

/-! ## Register results -/

/-- rd takes a value, and the instruction of `cost` slots ends. -/
def State.result (s : State) (i : Fin 4) (rd : Fin 16) (v : Word) (cost : Nat) : State := (s.setReg i rd v).advance i cost

/-- rd = f(ra, rb). -/
def State.op2 (s : State) (i : Fin 4) (rd ra rb : Fin 16) (cost : Nat) (f : Word → Word → Word) : State :=
  s.instr i fun s => s.result i rd (f (s.reg i ra) (s.reg i rb)) cost

/-- rd = f(ra). -/
def State.op1 (s : State) (i : Fin 4) (rd ra : Fin 16) (f : Word → Word) : State :=
  s.instr i fun s => s.result i rd (f (s.reg i ra)) 1

/-- acc = acc + p; rd = acc[63:32] (R154, R156). -/
def State.macc (s : State) (i : Fin 4) (rd : Fin 16) (p : Int) : State :=
  let acc : DWord := (s.sh i).acc + BitVec.ofInt 64 p
  let s := s.modSh i fun x => { x with acc := acc }
  s.result i rd (acc.extractLsb' 32 32) 1

/-- The index of an island's crossings (R125). -/
def islIdx : GatherIsland → Fin 3
  | .aon => 0
  | .radio => 1
  | .dmi => 2

/-- Core cycles until the end of a crossing of `cost` cycles that issued in the cycle before `cyc`: it waits until its island
has served the crossings before it (R125). -/
def Eng.crossEnd (e : Eng) (isl : GatherIsland) (cost : Nat) : Nat :=
  e.crossFree.get (islIdx isl) - (e.cyc - 1) + cost

/-- The island serves the next crossing `n` cycles after the cycle before `cyc` (R125). -/
def Eng.takes (e : Eng) (isl : GatherIsland) (n : Nat) : Eng :=
  { e with crossFree := e.crossFree.set (islIdx isl) (e.cyc - 1 + n) }

/-- Crossings into these islands, all addressed at once, end at the next word (R124, R125, R180). -/
def State.crossed (s : State) (i : Fin 4) (isls : List (GatherIsland × Nat)) : State :=
  let n := (isls.map fun p => s.eng.crossEnd p.1 p.2).foldl max 1
  let e := isls.foldl (fun e p => e.takes p.1 (s.eng.crossEnd p.1 p.2)) s.eng
  let s := ({ s with eng := e } : State).advance i n
  (s.count 0x0C (some i) .entry 1).count 0x0C (some i) .cycles (n - 1)

/-! ## Loads and stores (R124, R130, R132, R160 to R163) -/

/-- U code may not make this access whatever the MPU says (R130, R512). -/
def State.barred (s : State) (a : Nat) (wr : Bool) : Bool :=
  let k := blockOf a
  inChain a || (inRegs a &&
    (if wr then k == 0 || k == 1 || k == 2 || k == 11 || k == 12 else k == 12 && !s.prf.uread))

/-- The exception that a data access raises before it reaches the bus (R130, R132, R136, R160). -/
def State.dataGate (s : State) (i : Fin 4) (a n : Nat) (wr : Bool) : Option Word :=
  if a % n ≠ 0 then some 6
  else if s.user i && s.barred a wr then some 2
  else if !s.mpuOk i a (if wr then .w else .r) then some (if wr then 5 else 4)
  else none

/-- Core cycles of a register access, and the island that it crosses into (R124, R349). -/
def State.regCost (s : State) (a : Nat) (wr : Bool) : Nat × Option GatherIsland :=
  let k := blockOf a
  if isDmi k then (s.crossCost 125, some .dmi)
  else if isRad k then (s.crossCost 125, some .radio)
  else if wr then (1, none)
  else if k == 4 && a % 0x1000 == 0 then (s.crossCost 250, some .aon)
  else if isAon k then (4, some .aon)
  else (1, none)

/-- What an access of `n` bytes costs (R124, R160). -/
def State.accessCost (s : State) (a n : Nat) (wr : Bool) : Nat × Option GatherIsland :=
  if inRegs a then s.regCost a wr
  else if inChain a then s.regCost (chainLocal a) wr
  else ((if n = 8 then 2 else 1) + (if inMram a && !wr then 2 else 0), none)

/-- The access ends at the next word. -/
def State.accessEnd (s : State) (i : Fin 4) (c : Nat × Option GatherIsland) : State :=
  match c.2 with
  | some isl => s.crossed i [(isl, c.1)]
  | none => s.advance i c.1

/-- The exception that an error response raises: 0x08 for an uncorrectable word of memory, else 0x07 (R134, R201). -/
def excOf (r : Resp) (a : Nat) : Word := if r.cause = 7 ∧ (inMram a || inSram a) then 8 else 7

/-- The bus answers an error (R135, R209). -/
def State.accessBad (s : State) (i : Fin 4) (wr : Bool) (a : Nat) (r : Resp) : State :=
  (s.respond (.shuttle i) wr r).raise i (excOf r a) r.addr

/-- A load of `n` bytes: `fin` puts the value into its destination; a remote one lands in `rd`. -/
def State.load (s : State) (i : Fin 4) (rd : Fin 16) (addr : Word) (n : Nat) (fin : DWord → State → State) : State :=
  let a := addr.toNat
  match s.dataGate i a n false with
  | some e => s.raise i e addr
  | none =>
    match s.remoteTarget a n with
    | some p =>
      (s.setBusy i (.remoteLoad rd)).remoteIssue { init := .shuttle i, pos := p, write := false, addr := addr, data := 0 }
    | none =>
      let c := s.accessCost a n false
      let (s, r) := s.busRead (.shuttle i) a n
      if r.cause ≠ 0 then s.accessBad i false a r
      else
        let s := if inMram a then s.count 0x07 (some i) .occ 1 else s
        (fin r.val s).accessEnd i c

/-- A load's value into one register. -/
def State.loadTo (s : State) (i : Fin 4) (rd : Fin 16) (addr : Word) (n : Nat) (ext : DWord → Word) : State :=
  s.load i rd addr n fun v s => s.setReg i rd (ext v)

/-- The burn that a write just made has begun: `some true` is a rollback burn. -/
def burnBegun (old new : State) : Option Bool :=
  if new.secx.burn ≠ old.secx.burn then some false
  else if new.secx.rollback ≠ old.secx.rollback then some true
  else none

/-- An accepted store ends: at the next word, or BUSY while the fuses it asked for burn (R481, R484, R485). -/
def State.storeEnd (s : State) (i : Fin 4) (c : Nat × Option GatherIsland) (b : Option Bool) : State :=
  match b with
  | some rb => s.setBusy i (.burn rb)
  | none => s.accessEnd i c

/-- A store of `n` bytes. -/
def State.store (s : State) (i : Fin 4) (addr : Word) (n : Nat) (v : DWord) : State :=
  let a := addr.toNat
  match s.dataGate i a n true with
  | some e => s.raise i e addr
  | none =>
    match s.remoteTarget a n with
    | some p =>
      (s.setBusy i .remoteStore).remoteIssue
        { init := .shuttle i, pos := p, write := true, addr := addr, data := v.setWidth 32 }
    | none =>
      if inMram a && s.mramGate a == 0 && (s.firstStalled.isSome || !s.mem.wbRoom (a / 8 * 8)) then
        s.setBusy i (.mramStore addr n v s.injFree s.eng.cyc)
      else
        let c := s.accessCost a n true
        let (t, r) := s.busWrite (.shuttle i) a n v
        if r.cause ≠ 0 then t.accessBad i true a r
        else (t.storeEnd i c (burnBegun s t)).afterStore a v

/-- A 32-bit store to a register by a shuttle, for the rows that name the register. -/
def State.storeReg (s : State) (i : Fin 4) (a : Nat) (v : Word) : State :=
  s.instr i fun s => s.store i (BitVec.ofNat 32 a) 4 (v.setWidth 64)

/-- A write of a register by any initiator: a shuttle's STW, the debug port's write, or a chain head's (R8, R126, R513). -/
def State.writeBy (s : State) (i : Initiator) (a : Nat) (v : Word) : State :=
  match i with
  | .shuttle k => s.storeReg k a v
  | .debug => s.debugWrite a 4 (v.setWidth 64)
  | .chain => s.chainWrite a (v.setWidth 64)

/-- A read of a register by any initiator; a shuttle's LDW puts the value into `rd`. -/
def State.readBy (s : State) (i : Initiator) (rd : Fin 16) (a : Nat) : State :=
  match i with
  | .shuttle k => s.instr k fun s => s.loadTo k rd (BitVec.ofNat 32 a) 4 fun v => v.setWidth 32
  | .debug => s.debugRead a 4
  | .chain => s.chainRead a

/-! ## Branches and jumps (R164 to R166) -/

/-- A taken branch or a jump. -/
def State.goto (s : State) (i : Fin 4) (t : Word) : State := (s.count 0x09 (some i) .occ 1).jump i t 1

/-- A conditional branch. -/
def State.branch (s : State) (i : Fin 4) (c : Cond) (ra rb : Fin 16) (off : BitVec 18) : State :=
  s.instr i fun s =>
    if c.holds (s.reg i ra) (s.reg i rb) then s.goto i ((s.sh i).pc + disp18 off) else s.advance i 1

/-! ## WAIT, POST, FENCE (R143, R144, R167 to R169, R172) -/

/-- The events that complete a WAIT. -/
def Shuttle.waited (x : Shuttle) (mask : BitVec 16) : BitVec 16 := x.wpend &&& mask

/-- WAIT completes: rd takes the latched events of the mask, which clear (R144). -/
def State.waitEnd (s : State) (i : Fin 4) (rd : Fin 16) (mask : BitVec 16) : State :=
  let got := (s.sh i).waited mask
  (s.modSh i fun x => { x with wpend := x.wpend &&& ~~~(got &&& ~~~s.eng.same.ev) }).setReg i rd (got.setWidth 32)

/-- WAIT executes: it completes at once, or the shuttle enters WAIT (R144, R167). -/
def State.waitFor (s : State) (i : Fin 4) (rd : Fin 16) (mask : BitVec 16) : State :=
  if mask = 0 ∨ (s.sh i).waited mask ≠ 0 then (s.waitEnd i rd mask).advance i 1
  else
    ((s.modSh i fun x => { x with run := .wait, waitMask := mask, waitRd := rd }).count 0x06 (some i) .entry 1).checkStop

/-- POST to a set of shuttles (R143, R169). -/
def State.postTo (s : State) (set : Nat) : State :=
  if set = 0 then s
  else
    let s := s.modEng fun e => { e with evpend := e.evpend ||| 0x8000 }
    (upTo 4).foldl (fun s k =>
      if set.testBit k.val then s.modSh k fun x => { x with wpend := x.wpend ||| 0x8000 } else s) s

/-- FENCE may complete: no posted write and no buffered store of its shuttle remains (R172). -/
def State.fenceClear (s : State) (i : Fin 4) : Bool :=
  !(s.sys.posted.any fun p => p.init == .shuttle i) && !(s.mem.wbuf.any fun e => e.owners.getLsbD i.val)

/-- FENCE reports a failed posted write, completes, or waits (R30, R172). -/
def State.fenceTry (s : State) (i : Fin 4) : State :=
  match s.takeFailed (.shuttle i) with
  | (s, some r) => s.raise i 7 r.addr
  | (s, none) => if s.fenceClear i then s.advance i 1 else s.setBusy i .fence

/-- A waiting FENCE completes. -/
def State.fenceEnd (s : State) (i : Fin 4) : State :=
  match s.takeFailed (.shuttle i) with
  | (s, some r) => s.raise i 7 r.addr
  | (s, none) => s.land i

/-- HALT (R116, R173). -/
def State.haltShuttle (s : State) (i : Fin 4) : State :=
  let s := s.modSys fun x => { x with failed := x.failed.filter fun f => f.init != .shuttle i }
  (s.modSh i fun x => { x with run := .halted, pc := x.pc + 4 }).checkStop

/-! ## Control registers (R111, R174) -/

def Shuttle.status (x : Shuttle) : Word :=
  placeB x.inexc 4 ||| placeB x.pprv 3 ||| placeB x.prv 2 ||| placeB x.pie 1 ||| placeB x.ie 0

/-- The CSRs that only S code may use. -/
def csrPriv (n : Nat) : Bool := decide (n ≤ 4)

def Shuttle.csr (x : Shuttle) (i : Fin 4) (n : Nat) : Word :=
  match n with
  | 0 => x.status
  | 1 => x.epc
  | 2 => x.cause
  | 3 => x.addr
  | 4 => x.scratch
  | 5 => x.acc.extractLsb' 0 32
  | 6 => x.acc.extractLsb' 32 32
  | _ => BitVec.ofNat 32 i.val

def Shuttle.setCsr (x : Shuttle) (n : Nat) (v : Word) : Shuttle :=
  match n with
  | 0 => { x with inexc := bit v 4, pprv := bit v 3, pie := bit v 1, ie := bit v 0 }
  | 1 => { x with epc := v &&& 0xFFFFFFFC }
  | 2 => { x with cause := v }
  | 3 => { x with addr := v }
  | 4 => { x with scratch := v }
  | 5 => { x with acc := x.acc.extractLsb' 32 32 ++ v }
  | 6 => { x with acc := v ++ x.acc.extractLsb' 0 32 }
  | _ => x

/-! ## DRV (R128, R175, R176) -/

def drvCmdAddr : Nat := 0x40005008

/-- The DMI answers a DRV: an error response, or the status for rd. A DRV error response records WRITE = 1, as a write of
DRV_CMD does: the field's text names only a write and a COMMIT (DESIGN CHOICE, log 66). -/
def State.drvAnswer (s : State) (i : Fin 4) (rd : Fin 16) (w : Word) : State × Bool :=
  match s.command w with
  | (s, 0, st) => (s.setReg i rd (BitVec.ofNat 32 st), true)
  | (s, c, _) => (s.busError i true c 7 (BitVec.ofNat 32 drvCmdAddr), false)

/-- A DRV that waited for the DMI completes (R128). -/
def State.drvLand (s : State) (i : Fin 4) : State :=
  match (s.sh i).busyOn with
  | some (.drv rd w) =>
    match s.drvAnswer i rd w with
    | (s, true) => s.land i
    | (s, false) => s
  | _ => s

/-- DRV executes (R128): at once while the DMI runs, or when it has started. -/
def State.drvExec (s : State) (i : Fin 4) (rd : Fin 16) (w : Word) : State :=
  if s.sys.runDmi then
    match s.drvAnswer i rd w with
    | (s, true) => s.crossed i [(.dmi, s.crossCost 125)]
    | (s, false) => s
  else
    let s := (s.setBusy i (.drv rd w)).startIslands
    if s.sys.runDmi then s.drvLand i else s

/-- Every DRV that waits for the DMI completes once it runs (R125, R128). -/
def State.drvLandAll (s : State) : State :=
  if s.sys.runDmi then (upTo 4).foldl (fun s i => s.drvLand i) s else s

/-! ## SNAP, COMMIT, STAMP, CRC (R177 to R186) -/

/-- The count that a selector names. -/
def Prf.snap (p : Prf) (sel : Nat) : DWord :=
  match sel with
  | 0 => p.cyc
  | 1 => p.cnt.get 1 ++ p.cnt.get 0
  | 2 => p.cnt.get 3 ++ p.cnt.get 2
  | 3 => p.cnt.get 5 ++ p.cnt.get 4
  | _ => p.cnt.get 7 ++ p.cnt.get 6

/-- The address that R178 gives a selector. -/
def snapAddr (sel : Nat) : Word := if sel = 0 then 0x4000C004 else BitVec.ofNat 32 (0x4000C008 + 8 * sel)

/-- The block that owns a castling domain (R181, R210). -/
def domainBase (d : Nat) : Word :=
  if d = 0 then 0x4000A000 else if d ≤ 3 then 0x40006000 else if d ≤ 6 then 0x40007000
  else if d = 7 then 0x40003000 else 0x40002000

/-- The island that holds a domain does not run (R181). -/
def State.domainOff (s : State) (d : Nat) : Bool :=
  if d = 0 then !s.sys.runRad else if d ≤ 6 then !s.sys.runDmi else false

/-- Domains whose boundary is the arming itself swap before COMMIT completes (R212, R296, R341). -/
def State.swapIdle (s : State) : State :=
  let s := if s.macRuns then s else s.macSwap
  let s := (upTo 3).foldl (fun s n => if (s.flow n).meas then s else s.flowSwap n) s
  (upTo 3).foldl (fun s n =>
    if (s.prsLine n).state == .off || (s.prsLine n).state == .hold then s.prsSwap n else s) s

/-- Arm or cancel, and rd (R179, R182, R183). -/
def State.commitDo (s : State) (mask : BitVec 9) (cancel : Bool) : State × Word :=
  let both := s.armed &&& mask
  let s := if cancel then { s with armed := s.armed &&& ~~~mask }
    else ({ s with armed := s.armed ||| mask } : State).swapIdle
  (s, place both.toNat 16 ||| place s.armed.toNat 0)

/-- The islands that COMMIT addresses and what each costs: an acknowledgement from AON takes up to three XT32 periods
(R180). -/
def State.commitCrossings (s : State) (mask : BitVec 9) : List (GatherIsland × Nat) :=
  (if mask.getLsbD 0 then [(.radio, s.crossCost 125)] else []) ++
    (if mask &&& 0x7E#9 = 0 then [] else [(.dmi, s.crossCost 125)]) ++
    (if mask.getLsbD 7 then [(.aon, s.crossCost 91553)] else [])

/-- COMMIT executes (R30, R179 to R183). One that names NRG reaches AON after the writes posted before it (R214). Where it also
names a domain that is off, cause 0xB comes first and a failed posted write stays pending: the spec does not rank the two
(DESIGN CHOICE, log 66). -/
def State.commitExec (s : State) (i : Fin 4) (rd : Fin 16) (mask : BitVec 9) (cancel : Bool) : State :=
  match (setBits mask.toNat 9).find? (fun d => s.domainOff d) with
  | some d => s.busError i true 0xB 7 (domainBase d)
  | none =>
    match (if mask.getLsbD 7 then s.drainPosted.takeFailed (.shuttle i) else (s, none)) with
    | (s, some r) => s.raise i 7 r.addr
    | (s, none) =>
      let (s, v) := s.commitDo mask cancel
      let s := s.setReg i rd v
      match s.commitCrossings mask with
      | [] => s.advance i 1
      | l => s.crossed i l

/-- STAMP (R184, R185). -/
def State.stampExec (s : State) (i : Fin 4) (rd : Fin 16) (plant : Bool) : State :=
  match s.takeFailed (.shuttle i) with
  | (s, some r) => s.raise i 7 r.addr
  | (s, none) => (s.setPair i rd (if plant then s.plant else s.local)).crossed i [(.aon, s.crossCost 250)]

/-- The running CRC over the low `n` bytes of `v`, lowest first (R186). -/
def crcRun (poly : Nat) : Nat → Nat → Nat → Nat
  | 0, c, _ => c
  | n + 1, c, v => crcRun poly n (crcByte poly c (v % 256)) (v / 256)

/-- CRC with selector and byte count (R186). -/
def crcOf (sel n : Nat) (rd ra : Word) : Word :=
  if sel = 2 then BitVec.ofNat 32 (crcRun 0x8408 n (rd.toNat % 0x10000) ra.toNat)
  else BitVec.ofNat 32 (crcRun (if sel = 0 then 0xEDB88320 else 0x82F63B78) n rd.toNat ra.toNat)

end Sys2Proof.Machine
end

