-- ==== Sys2Proof/Machine/Alu.lean ====
section
/-!
DEFINITION. The ALU group (R153).
-/

namespace Sys2Proof.Machine

/-- ADD: rd = ra + rb (R153). -/
def execAdd (sh : Fin 4) (rd ra rb : Fin 16) (s : State) : Out := .next (s.op2 sh rd ra rb 1 fun a b => a + b)

/-- SUB: rd = ra - rb (R153). -/
def execSub (sh : Fin 4) (rd ra rb : Fin 16) (s : State) : Out := .next (s.op2 sh rd ra rb 1 fun a b => a - b)

/-- AND (R153). -/
def execAnd (sh : Fin 4) (rd ra rb : Fin 16) (s : State) : Out := .next (s.op2 sh rd ra rb 1 fun a b => a &&& b)

/-- OR (R153). -/
def execOr (sh : Fin 4) (rd ra rb : Fin 16) (s : State) : Out := .next (s.op2 sh rd ra rb 1 fun a b => a ||| b)

/-- XOR (R153). -/
def execXor (sh : Fin 4) (rd ra rb : Fin 16) (s : State) : Out := .next (s.op2 sh rd ra rb 1 fun a b => a ^^^ b)

/-- SHL by rb and 31 (R153). -/
def execShl (sh : Fin 4) (rd ra rb : Fin 16) (s : State) : Out := .next (s.op2 sh rd ra rb 1 fun a b => a <<< shCount b)

/-- SHR, zeros shifted in (R153). -/
def execShr (sh : Fin 4) (rd ra rb : Fin 16) (s : State) : Out := .next (s.op2 sh rd ra rb 1 fun a b => a >>> shCount b)

/-- SRA, sign shifted in (R153). -/
def execSra (sh : Fin 4) (rd ra rb : Fin 16) (s : State) : Out :=
  .next (s.op2 sh rd ra rb 1 fun a b => a.sshiftRight (shCount b))

/-- SLT (R153). -/
def execSlt (sh : Fin 4) (rd ra rb : Fin 16) (s : State) : Out :=
  .next (s.op2 sh rd ra rb 1 fun a b => flag (Cond.lt.holds a b))

/-- SLTU (R153). -/
def execSltu (sh : Fin 4) (rd ra rb : Fin 16) (s : State) : Out :=
  .next (s.op2 sh rd ra rb 1 fun a b => flag (Cond.ltu.holds a b))

/-- MIN, signed (R153). -/
def execMin (sh : Fin 4) (rd ra rb : Fin 16) (s : State) : Out := .next (s.op2 sh rd ra rb 1 minS)

/-- MAX, signed (R153). -/
def execMax (sh : Fin 4) (rd ra rb : Fin 16) (s : State) : Out := .next (s.op2 sh rd ra rb 1 maxS)

/-- MINU (R153). -/
def execMinu (sh : Fin 4) (rd ra rb : Fin 16) (s : State) : Out := .next (s.op2 sh rd ra rb 1 minU)

/-- MAXU (R153). -/
def execMaxu (sh : Fin 4) (rd ra rb : Fin 16) (s : State) : Out := .next (s.op2 sh rd ra rb 1 maxU)

/-- CLZ (R153). -/
def execClz (sh : Fin 4) (rd ra : Fin 16) (s : State) : Out := .next (s.op1 sh rd ra fun a => BitVec.ofNat 32 (clz32 a))

/-- POPC (R153). -/
def execPopc (sh : Fin 4) (rd ra : Fin 16) (s : State) : Out := .next (s.op1 sh rd ra fun a => BitVec.ofNat 32 (popc32 a))

/-- ADDS: saturating sum (R153). -/
def execAdds (sh : Fin 4) (rd ra rb : Fin 16) (s : State) : Out := .next (s.op2 sh rd ra rb 1 fun a b => sat32 (sI a + sI b))

/-- SUBS: saturating difference (R153). -/
def execSubs (sh : Fin 4) (rd ra rb : Fin 16) (s : State) : Out := .next (s.op2 sh rd ra rb 1 fun a b => sat32 (sI a - sI b))

end Sys2Proof.Machine
end

