-- ==== Sys2Proof/Machine/MulDiv.lean ====
section
/-!
DEFINITION. Multiply, divide and the accumulator (R154 to R156).
-/

namespace Sys2Proof.Machine

/-- MUL: the low word of the product (R154). -/
def execMul (sh : Fin 4) (rd ra rb : Fin 16) (s : State) : Out := .next (s.op2 sh rd ra rb 1 fun a b => a * b)

/-- MULH: the high word of the signed product (R154). -/
def execMulh (sh : Fin 4) (rd ra rb : Fin 16) (s : State) : Out := .next (s.op2 sh rd ra rb 1 mulHi)

/-- MULHU: the high word of the unsigned product (R154). -/
def execMulhu (sh : Fin 4) (rd ra rb : Fin 16) (s : State) : Out := .next (s.op2 sh rd ra rb 1 mulHiU)

/-- DIV: 18 slots (R154, R155). -/
def execDiv (sh : Fin 4) (rd ra rb : Fin 16) (s : State) : Out := .next (s.op2 sh rd ra rb 18 divS)

/-- DIVU: 18 slots (R154, R155). -/
def execDivu (sh : Fin 4) (rd ra rb : Fin 16) (s : State) : Out := .next (s.op2 sh rd ra rb 18 divU)

/-- REM: 18 slots (R154, R155). -/
def execRem (sh : Fin 4) (rd ra rb : Fin 16) (s : State) : Out := .next (s.op2 sh rd ra rb 18 remS)

/-- REMU: 18 slots (R154, R155). -/
def execRemu (sh : Fin 4) (rd ra rb : Fin 16) (s : State) : Out := .next (s.op2 sh rd ra rb 18 remU)

/-- MACS: acc += s64(ra) x s64(rb); rd = acc[63:32] (R154, R156). -/
def execMacs (sh : Fin 4) (rd ra rb : Fin 16) (s : State) : Out :=
  .next (s.instr sh fun s => s.macc sh rd (sI (s.reg sh ra) * sI (s.reg sh rb)))

/-- MACU: acc += u64(ra) x u64(rb); rd = acc[63:32] (R154, R156). -/
def execMacu (sh : Fin 4) (rd ra rb : Fin 16) (s : State) : Out :=
  .next (s.instr sh fun s => s.macc sh rd (((s.reg sh ra).toNat * (s.reg sh rb).toNat : Nat) : Int))

/-- ACCCLR: acc = 0 (R154). -/
def execAccclr (sh : Fin 4) (s : State) : Out :=
  .next (s.instr sh fun s => (s.modSh sh fun x => { x with acc := 0 }).advance sh 1)

end Sys2Proof.Machine
end

