-- ==== Sys2Proof/Machine/Immediate.lean ====
section
/-!
DEFINITION. The immediate forms (R157 to R159).
-/

namespace Sys2Proof.Machine

/-- ADDI (R157). -/
def execAddi (sh : Fin 4) (rd ra : Fin 16) (imm : BitVec 18) (s : State) : Out :=
  .next (s.op1 sh rd ra fun a => a + sx18 imm)

/-- ANDI (R157). -/
def execAndi (sh : Fin 4) (rd ra : Fin 16) (imm : BitVec 18) (s : State) : Out :=
  .next (s.op1 sh rd ra fun a => a &&& sx18 imm)

/-- ORI (R157). -/
def execOri (sh : Fin 4) (rd ra : Fin 16) (imm : BitVec 18) (s : State) : Out :=
  .next (s.op1 sh rd ra fun a => a ||| sx18 imm)

/-- XORI (R157). -/
def execXori (sh : Fin 4) (rd ra : Fin 16) (imm : BitVec 18) (s : State) : Out :=
  .next (s.op1 sh rd ra fun a => a ^^^ sx18 imm)

/-- SLTI (R157). -/
def execSlti (sh : Fin 4) (rd ra : Fin 16) (imm : BitVec 18) (s : State) : Out :=
  .next (s.op1 sh rd ra fun a => flag (Cond.lt.holds a (sx18 imm)))

/-- SHLI (R158). -/
def execShli (sh : Fin 4) (rd ra : Fin 16) (cnt : BitVec 5) (s : State) : Out :=
  .next (s.op1 sh rd ra fun a => a <<< cnt.toNat)

/-- SHRI (R158). -/
def execShri (sh : Fin 4) (rd ra : Fin 16) (cnt : BitVec 5) (s : State) : Out :=
  .next (s.op1 sh rd ra fun a => a >>> cnt.toNat)

/-- SRAI (R158). -/
def execSrai (sh : Fin 4) (rd ra : Fin 16) (cnt : BitVec 5) (s : State) : Out :=
  .next (s.op1 sh rd ra fun a => a.sshiftRight cnt.toNat)

/-- LUI: rd = imm22 << 10 (R159). -/
def execLui (sh : Fin 4) (rd : Fin 16) (imm : BitVec 22) (s : State) : Out :=
  .next (s.instr sh fun s => s.result sh rd (imm ++ 0#10) 1)

end Sys2Proof.Machine
end

