-- ==== Sys2Proof/Machine/LoadStore.lean ====
section
/-!
DEFINITION. Loads and stores (R124, R130, R132, R160 to R163).
-/

namespace Sys2Proof.Machine

/-- LDW (R160). -/
def execLdw (sh : Fin 4) (rd ra : Fin 16) (imm : BitVec 18) (s : State) : Out :=
  .next (s.instr sh fun s => s.loadTo sh rd (s.ea sh ra imm) 4 fun v => v.setWidth 32)

/-- LDH: sign-extended (R160). -/
def execLdh (sh : Fin 4) (rd ra : Fin 16) (imm : BitVec 18) (s : State) : Out :=
  .next (s.instr sh fun s => s.loadTo sh rd (s.ea sh ra imm) 2 fun v => (v.extractLsb' 0 16).signExtend 32)

/-- LDHU: zero-extended (R160). -/
def execLdhu (sh : Fin 4) (rd ra : Fin 16) (imm : BitVec 18) (s : State) : Out :=
  .next (s.instr sh fun s => s.loadTo sh rd (s.ea sh ra imm) 2 fun v => (v.extractLsb' 0 16).setWidth 32)

/-- LDB: sign-extended (R160). -/
def execLdb (sh : Fin 4) (rd ra : Fin 16) (imm : BitVec 18) (s : State) : Out :=
  .next (s.instr sh fun s => s.loadTo sh rd (s.ea sh ra imm) 1 fun v => (v.extractLsb' 0 8).signExtend 32)

/-- LDBU: zero-extended (R160). -/
def execLdbu (sh : Fin 4) (rd ra : Fin 16) (imm : BitVec 18) (s : State) : Out :=
  .next (s.instr sh fun s => s.loadTo sh rd (s.ea sh ra imm) 1 fun v => (v.extractLsb' 0 8).setWidth 32)

/-- LDD: a register pair, rd even (R152, R160, R161). -/
def execLdd (sh : Fin 4) (rd ra : Fin 16) (imm : BitVec 18) (s : State) : Out :=
  .next (s.instrWith sh (fun _ => illegalIf (oddReg rd) (encI 0x15 rd ra imm)) fun s =>
    s.load sh rd (s.ea sh ra imm) 8 fun v s => s.setPair sh rd v)

/-- STW (R160). -/
def execStw (sh : Fin 4) (rs ra : Fin 16) (imm : BitVec 18) (s : State) : Out :=
  .next (s.instr sh fun s => s.store sh (s.ea sh ra imm) 4 ((s.reg sh rs).setWidth 64))

/-- STH (R160). -/
def execSth (sh : Fin 4) (rs ra : Fin 16) (imm : BitVec 18) (s : State) : Out :=
  .next (s.instr sh fun s => s.store sh (s.ea sh ra imm) 2 (((s.reg sh rs).extractLsb' 0 16).setWidth 64))

/-- STB (R160). -/
def execStb (sh : Fin 4) (rs ra : Fin 16) (imm : BitVec 18) (s : State) : Out :=
  .next (s.instr sh fun s => s.store sh (s.ea sh ra imm) 1 (((s.reg sh rs).extractLsb' 0 8).setWidth 64))

/-- STD: a register pair, rs even (R152, R160, R161). -/
def execStd (sh : Fin 4) (rs ra : Fin 16) (imm : BitVec 18) (s : State) : Out :=
  .next (s.instrWith sh (fun _ => illegalIf (oddReg rs) (encI 0x1B rs ra imm)) fun s =>
    s.store sh (s.ea sh ra imm) 8 (s.pair sh rs))

end Sys2Proof.Machine
end

