-- ==== Sys2Proof/Machine/Branch.lean ====
section
/-!
DEFINITION. Branches and jumps (R164 to R166).
-/

namespace Sys2Proof.Machine

/-- BEQ (R164). -/
def execBeq (sh : Fin 4) (ra rb : Fin 16) (off : BitVec 18) (s : State) : Out := .next (s.branch sh .eq ra rb off)

/-- BNE (R164). -/
def execBne (sh : Fin 4) (ra rb : Fin 16) (off : BitVec 18) (s : State) : Out := .next (s.branch sh .ne ra rb off)

/-- BLT (R164). -/
def execBlt (sh : Fin 4) (ra rb : Fin 16) (off : BitVec 18) (s : State) : Out := .next (s.branch sh .lt ra rb off)

/-- BGE (R164). -/
def execBge (sh : Fin 4) (ra rb : Fin 16) (off : BitVec 18) (s : State) : Out := .next (s.branch sh .ge ra rb off)

/-- BLTU (R164). -/
def execBltu (sh : Fin 4) (ra rb : Fin 16) (off : BitVec 18) (s : State) : Out := .next (s.branch sh .ltu ra rb off)

/-- BGEU (R164). -/
def execBgeu (sh : Fin 4) (ra rb : Fin 16) (off : BitVec 18) (s : State) : Out := .next (s.branch sh .geu ra rb off)

/-- JAL: rd = pc + 4 and pc = pc + 4 x sext(off22) (R165). -/
def execJal (sh : Fin 4) (rd : Fin 16) (off : BitVec 22) (s : State) : Out :=
  .next (s.instr sh fun s =>
    let pc := (s.sh sh).pc
    (s.setReg sh rd (pc + 4)).goto sh (pc + disp22 off))

/-- JALR: exception 0x06 on a misaligned target, else rd = pc + 4 and pc = target (R166). -/
def execJalr (sh : Fin 4) (rd ra : Fin 16) (imm : BitVec 18) (s : State) : Out :=
  .next (s.instr sh fun s =>
    let t := s.ea sh ra imm
    if t.extractLsb' 0 2 ≠ 0 then s.raise sh 6 t
    else (s.setReg sh rd ((s.sh sh).pc + 4)).goto sh t)

end Sys2Proof.Machine
end

