-- ==== Sys2Proof/Machine/System.lean ====
section
/-!
DEFINITION. The system instructions, and the completion of WAIT and FENCE (R123, R138, R144, R167 to R174).
-/

namespace Sys2Proof.Machine

/-- WAIT (R144, R167). -/
def execWait (sh : Fin 4) (rd ra : Fin 16) (imm : BitVec 12) (s : State) : Out :=
  .next (s.instr sh fun s => s.waitFor sh rd ((s.reg sh ra ||| imm.setWidth 32).extractLsb' 0 16))

/-- WAIT_COMPLETE: an event of the mask has set in the latch of a shuttle in WAIT; a stopped core restarts (R123, R144). An
interrupt whose condition holds is taken first (R168). -/
def execWaitComplete (sh : Fin 4) (s : State) : Out :=
  let x := s.sh sh
  whenever s (!s.sys.coreStopped && x.en && x.run == .wait && x.waited x.waitMask != 0) fun s =>
    let s := s.newCycle.coreStart
    match s.irq sh with
    | some e => s.interrupt sh e
    | none =>
      (s.waitEnd sh x.waitRd x.waitMask).modSh sh fun x => { x with run := .ready, pc := x.pc + 4, freeAt := s.eng.cyc }

/-- POST (R143, R169). -/
def execPost (sh : Fin 4) (ra : Fin 16) (imm : BitVec 4) (s : State) : Out :=
  .next (s.instr sh fun s =>
    (s.postTo ((s.reg sh ra ||| imm.setWidth 32).extractLsb' 0 4).toNat).advance sh 1)

/-- TRAP: exception 0x09 (R170). -/
def execTrap (sh : Fin 4) (imm : BitVec 12) (s : State) : Out :=
  .next (s.instrWith sh (fun _ => some (9, imm.setWidth 32)) id)

/-- ERET: S code only (R139, R171). -/
def execEret (sh : Fin 4) (s : State) : Out :=
  .next (s.instrWith sh (fun s => privIf (s.user sh) (encD 0x30 0 0 0x03 0)) fun s => s.eret sh)

/-- FENCE (R30, R172). -/
def execFence (sh : Fin 4) (s : State) : Out := .next (s.instr sh fun s => s.fenceTry sh)

/-- FENCE_COMPLETE: the shuttle's writes have all completed (R172). -/
def execFenceComplete (sh : Fin 4) (s : State) : Out :=
  whenever s ((s.sh sh).busyOn == some .fence && s.fenceClear sh) fun s => s.fenceEnd sh

/-- CSRR (R152, R174). -/
def execCsrr (sh : Fin 4) (rd : Fin 16) (csr : BitVec 12) (s : State) : Out :=
  let w := encD 0x30 rd 0 0x05 csr
  .next (s.instrWith sh
    (fun s => (illegalIf (decide (7 < csr.toNat)) w).or (privIf (s.user sh && csrPriv csr.toNat) w))
    fun s => s.result sh rd ((s.sh sh).csr sh csr.toNat) 1)

/-- CSRW (R152, R174). -/
def execCsrw (sh : Fin 4) (ra : Fin 16) (csr : BitVec 12) (s : State) : Out :=
  let w := encD 0x30 0 ra 0x06 csr
  .next (s.instrWith sh
    (fun s => (illegalIf (decide (6 < csr.toNat)) w).or (privIf (s.user sh && csrPriv csr.toNat) w))
    fun s =>
      let v := s.reg sh ra
      (s.modSh sh fun x => x.setCsr csr.toNat v).advance sh 1)

/-- HALT: S code only (R116, R173). -/
def execHalt (sh : Fin 4) (s : State) : Out :=
  .next (s.instrWith sh (fun s => privIf (s.user sh) (encD 0x30 0 0 0x07 0)) fun s => s.haltShuttle sh)

end Sys2Proof.Machine
end

