-- ==== Sys2Proof/Machine/Device.lean ====
section
/-!
DEFINITION. The device instructions (R175 to R186).
-/

namespace Sys2Proof.Machine

/-- U code of a shuttle without UDEV may not use DRV and COMMIT (R130). -/
def State.noDevice (s : State) (i : Fin 4) : Bool := s.user i && !(s.sh i).udev

/-- DRV (R128, R130, R175, R176). -/
def execDrv (sh : Fin 4) (rd ra : Fin 16) (s : State) : Out :=
  .next (s.instr sh fun s =>
    if s.noDevice sh then s.privFault sh (BitVec.ofNat 32 drvCmdAddr) else s.drvExec sh rd (s.reg sh ra))

/-- SNAP: a pair of counts as they stood before the SNAP issued (R152, R177, R178). -/
def execSnap (sh : Fin 4) (rd : Fin 16) (sel : BitVec 12) (s : State) : Out :=
  let v := (s.preSlot sh).prf.snap sel.toNat
  .next (s.instrWith sh (fun _ => illegalIf (oddReg rd || decide (4 < sel.toNat)) (encD 0x31 rd 0 0x01 sel)) fun s =>
    if s.user sh && !s.prf.uread then s.privFault sh (snapAddr sel.toNat)
    else (s.setPair sh rd v).advance sh 2)

/-- COMMIT (R30, R130, R179 to R183). -/
def execCommit (sh : Fin 4) (rd ra : Fin 16) (imm : BitVec 12) (s : State) : Out :=
  .next (s.instrWith sh (fun s =>
    let op := s.reg sh ra ||| imm.setWidth 32
    illegalIf (decide (fld op 12 20 ≠ 0 ∨ fld op 9 2 ≠ 0)) (encD 0x31 rd ra 0x02 imm)) fun s =>
    let op := s.reg sh ra ||| imm.setWidth 32
    let mask := op.extractLsb' 0 9
    if s.noDevice sh then
      s.privFault sh (domainBase (((setBits mask.toNat 9).head?).getD 8))
    else s.commitExec sh rd mask (bit op 11))

/-- STAMP: local or plant time of one instant (R152, R184, R185). -/
def execStamp (sh : Fin 4) (rd : Fin 16) (plant : Bool) (ph : Ring) (s : State) : Out :=
  .next (s.instrWith sh (fun _ => illegalIf (oddReg rd) (encD 0x31 rd 0 0x03 (if plant then 1 else 0))) fun s =>
    (s.atPhase ph).stampExec sh rd plant)

/-- CRC (R152, R186). -/
def execCrc (sh : Fin 4) (rd ra : Fin 16) (imm : BitVec 4) (s : State) : Out :=
  let sel := imm.toNat / 4
  .next (s.instrWith sh (fun _ => illegalIf (decide (sel = 3)) (encD 0x31 rd ra 0x04 (imm.setWidth 12))) fun s =>
    s.result sh rd (crcOf sel (imm.toNat % 4 + 1) (s.reg sh rd) (s.reg sh ra)) 1)

end Sys2Proof.Machine
end

