-- ==== Sys2Proof/Machine/EngineEvents.lean ====
section
/-!
DEFINITION. The engine's own events: interrupt entry, shuttle start and disable, the issue table, the core clock, islands,
crossings and posted writes, and register writes in general (R14, R28, R30, R114 to R128, R138, R145, R147).
-/

namespace Sys2Proof.Machine

/-- A cause that the word at the shuttle's PC has before it issues: no instruction, TRAP, or a privileged instruction in U code
(R134, R141, R151, R152, R170). -/
def State.wordCause (s : State) (i : Fin 4) : PreCause :=
  let w := s.fetchWord i
  let dfn := fld w 12 6
  if s.illegalWord i then some (1, w)
  else if inRom (s.sh i).pc.toNat || fld w 26 6 != 0x30 then none
  else if dfn = 2 then some (9, place (fld w 0 12) 0)
  else if dfn = 3 ∨ dfn = 7 then privIf (s.user i) w
  else if dfn = 5 ∨ dfn = 6 then privIf (s.user i && csrPriv (fld w 0 12)) w
  else none

/-- The shuttle reaches its issue point with an interrupt due: a cause that the fetch or the word has comes first (R141). -/
def State.enter (s : State) (i : Fin 4) : State :=
  match s.issue i with
  | none => s
  | some t =>
    let cause := t.wordCause i
    match t.fetch i with
    | (t, false) => t
    | (t, true) =>
      match cause with
      | some (c, a) => t.raise i c a
      | none => match (s.preSlot i).irq i with
        | some e => (s.preSlot i).interrupt i e
        | none => s.preSlot i

/-- INTERRUPT_ENTRY: the interrupt condition holds at the shuttle's issue point or in WAIT (R123, R138, R141, R145). -/
def execInterruptEntry (sh : Fin 4) (s : State) : Out :=
  match s.irq sh with
  | none => whenever s false id
  | some e => whenever s (!s.sys.coreStopped) fun s =>
      if (s.sh sh).run = .wait then s.coreStart.interrupt sh e else s.coreStart.enter sh

/-- The address of ENG_SHCTL. -/
def shctlAddr : Nat := 0x40001004

/-- SHUTTLE_START: a write of ENG_SHCTL with this shuttle's EN at 1 and the rest as it is (R114). -/
def execShuttleStart (i : Initiator) (sh : Fin 4) (s : State) : Out :=
  whenPowered s fun s => s.writeBy i shctlAddr (putFld (s.shBytes Shuttle.ctl) (8 * sh.val) 1 1)

/-- SHUTTLE_DISABLE: the same with EN at 0 (R115). -/
def execShuttleDisable (i : Initiator) (sh : Fin 4) (s : State) : Out :=
  whenPowered s fun s => s.writeBy i shctlAddr (putFld (s.shBytes Shuttle.ctl) (8 * sh.val) 1 0)

/-- ISSUE_TABLE_APPLY: the current round ends, and the table and the flags last written take effect (R117, R118). -/
def execIssueTableApply (s : State) : Out :=
  whenever s s.coreRuns fun s =>
    let s := s.idleTick ((16 - s.eng.cyc % 16) % 16)
    let s := s.modEng fun e => { e with issueAct := e.issueReq }
    s.allSh fun x => { x with fixedAct := x.fixedReq, recvAct := x.recvReq }

/-- CORE_CLOCK_REQUEST: a write of SYS_CORECLK (R121). -/
def execCoreClockRequest (i : Initiator) (v : Word) (s : State) : Out :=
  whenPowered s fun s => s.writeBy i 0x40000018 v

/-- CORE_CLOCK_SWITCH: the requested source is ready (R121, R122). -/
def execCoreClockSwitch (s : State) : Out :=
  whenever s (!s.eng.stopped && s.sys.curSrc != s.sys.src && s.srcReady s.sys.src) State.coreSwitch

/-- XO32M_STOP: XO32M stops under its users (R29, R122). -/
def execXo32mStop (s : State) : Out := whenever s s.sys.xoRun State.xoStop

/-- Some shuttle of a stopped core can issue again (R123). -/
def State.canWake (s : State) : Bool :=
  (upTo 4).any fun k =>
    let x := s.sh k
    (x.en && x.run == .wait && x.waited x.waitMask != 0) || (s.irq k).isSome

/-- CORE_CLOCK_RESTART (R123). -/
def execCoreClockRestart (s : State) : Out :=
  whenever s (s.eng.stopped && !s.sys.coreStopped && s.canWake) State.coreStart

/-- XO32M_STABLE: the wanted islands run, and the DRV instructions that waited for the DMI complete (R121, R122, R127, R128). -/
def execXo32mStable (s : State) : Out :=
  whenever s (!s.sys.xoRun && s.xoWanted) fun s => s.xoStable.drvLandAll

/-- ISLAND_STOP: no reason to run the island remains (R127, R496). -/
def execIslandStop (isl : Island) (s : State) : Out := whenever s (s.mayStop isl) fun s => s.islandStop isl

/-- An access that can time out: a read, or a write that is not posted, of a register of another island, also under the head's
own part of the chain window (R14, R28, R512). -/
def canTimeout (write : Bool) (a : Nat) : Bool :=
  let k := blockOf (localOf a)
  (inRegs a || (inChain a && chainPos a == 0)) && inRegs (localOf a) && (isDmi k || isRad k || (isAon k && !write))

/-- The access reaches its island: neither its address nor its size stops it on the way (R162, R512). -/
def State.crosses (s : State) (write : Bool) (a : Nat) : Bool :=
  canTimeout write a && a % 4 == 0 && !s.islandOff (blockOf (localOf a)) && (!inChain a || s.isHead)

/-- A register access of any initiator that no island acknowledges (R28, R513). -/
def State.accessLate (s : State) (i : Initiator) (write : Bool) (addr : Word) : State :=
  match i with
  | .shuttle k => s.instr k fun s =>
      match s.dataGate k addr.toNat 4 write with
      | some e => s.raise k e addr
      | none => s.busError k write 0xB 7 addr
  | .debug =>
    if !s.dbgMay addr.toNat write then (s.respond .debug write (bad 6 addr.toNat)).debugFail 6
    else (s.respond .debug write (bad 0xB addr.toNat)).debugFail 0xB
  | .chain =>
    if !(s.isMember && inMember addr.toNat) then s
    else (s.respond .chain write (bad 0xB addr.toNat)).linkSend .up (if write then 7 else 6) s.lnk.pos
      (if write then [0xB] else [0xB, 0])

/-- The domains of a mask that an island beside the core's holds (R180). -/
def crossMask : BitVec 9 := 0xFF

/-- CROSSING_TIMEOUT: an access, DRV, STAMP or COMMIT is not acknowledged within 250 us and ends in cause 0xB without effect
(R28, R181). -/
def execCrossingTimeout (x : Crossing) (s : State) : Out :=
  match x with
  | .access i write addr => whenever s (s.crosses write addr.toNat) fun s => s.accessLate i write addr
  | .drv k => whenever s s.sys.runDmi fun s => s.instr k fun s =>
      if s.noDevice k then s.privFault k (BitVec.ofNat 32 drvCmdAddr)
      else s.busError k true 0xB 7 (BitVec.ofNat 32 drvCmdAddr)
  | .stamp k => whenPowered s fun s => s.instr k fun s =>
      match s.takeFailed (.shuttle k) with
      | (s, some r) => s.raise k 7 r.addr
      | (s, none) => s.busError k false 0xB 7 0x40004000
  | .commit k mask late => whenever s (mask &&& late &&& crossMask != 0) fun s => s.instr k fun s =>
      if s.noDevice k then s.privFault k (domainBase (((setBits mask.toNat 9).head?).getD 8))
      else
        match (setBits mask.toNat 9).find? (fun d => s.domainOff d), (setBits (mask &&& late &&& crossMask).toNat 9).head? with
        | some d, _ => s.busError k true 0xB 7 (domainBase d)
        | none, some d => s.busError k true 0xB 7 (domainBase d)
        | none, none => s

/-- POSTED_WRITE_COMPLETE: the oldest posted write completes, or is not acknowledged (R14, R30). -/
def execPostedWriteComplete (ack : Bool) (s : State) : Out :=
  whenever s (!s.sys.posted.isEmpty) fun s => s.postedOne ack

/-- REGISTER_WRITE: a write of any register by any initiator (R8 to R18, R126). -/
def execRegisterWrite (i : Initiator) (addr v : Word) (s : State) : Out :=
  whenPowered s fun s => s.writeBy i addr.toNat v

/-- ENG_VECBASE write (R147). -/
def execEngVecbaseWrite (i : Initiator) (v : Word) (s : State) : Out :=
  whenPowered s fun s => s.writeBy i 0x40001024 v

end Sys2Proof.Machine
end

