-- ==== Sys2Proof/Machine/Resets.lean ====
section
/-!
DEFINITION. Resets, the watchdog and the boot (R97 to R108, R112, R113, R487, R539).
-/

namespace Sys2Proof.Machine

/-- SOFTWARE_RESET: a write of SYS_SWRESET (R106). -/
def execSoftwareReset (i : Initiator) (v : Word) (s : State) : Out :=
  whenPowered s fun s => s.writeBy i 0x40000008 v

/-- WDOG_CONFIG: a write of SYS_WDOG with KEY 0 (R107). -/
def execWdogConfig (i : Initiator) (low : BitVec 16) (s : State) : Out :=
  whenPowered s fun s => s.writeBy i 0x40000020 (0#16 ++ low)

/-- WDOG_KICK: a write of SYS_WDOG with KEY 0x7A1E (R107). -/
def execWdogKick (i : Initiator) (low : BitVec 16) (s : State) : Out :=
  whenPowered s fun s => s.writeBy i 0x40000020 (0x7A1E#16 ++ low)

/-- The debug port holds every shuttle: the watchdog's count pauses (R108). A shuttle that is DISABLED, HALTED or FAULTED is
not held: the spec does not say (DESIGN CHOICE, log 66). -/
def State.allHeld (s : State) : Bool := (upTo 4).all fun k => (s.sh k).run == .debug

/-- WDOG_TIMEOUT (R107, R108). -/
def execWdogTimeout (s : State) : Out :=
  whenever s (s.sys.wdogEn && !s.sys.wdogStopped && !s.allHeld) fun s => s.resetAs 3 false

/-- COLD_START (R97). -/
def execColdStart (p : PowerUp) (s : State) : Out := .next (if coldFrom s.sys.power p then s.coldStart p else s)

/-- BROWNOUT_RESET (R104, R197). -/
def execBrownoutReset (s : State) : Out := whenPowered s fun s => s.resetAs 5 true

/-- PIN_RESET (R104). -/
def execPinReset (s : State) : Out := whenPowered s fun s => s.resetAs 1 false

/-- The debug port may ask for a reset: open, or authenticated with SCOPE bit 3 (R486, R487). -/
def State.debugResets (s : State) : Bool :=
  s.lifecycle != 2 || !s.dbgLock || (s.sec.dbgOpen && s.sec.scope.getLsbD 3)

/-- DEBUG_RESET (R104, R487). -/
def execDebugReset (s : State) : Out := whenever s s.debugResets fun s => s.resetAs 4 false

/-- BOOT_HANDOVER (R99, R101, R113, R462, R480). -/
def execBootHandover (selfTestOk entropyOk : Bool) (s : State) : Out :=
  whenever s (s.sys.power == .boot && !s.sys.coreStopped) fun s => s.bootHandover selfTestOk entropyOk

end Sys2Proof.Machine
end

