-- ==== Sys2Proof/Machine/Memory.lean ====
section
/-!
DEFINITION. Memory's commands: the write buffer, error injection, the scrubber and the persistent commit (R163, R194 to R207,
R220 to R222, R540).
-/

namespace Sys2Proof.Machine

/-- WRITE_BUFFER_ENTRY_WRITE: the oldest entry is written, and stores that waited for an entry follow (R163, R194, R195). -/
def execWriteBufferEntryWrite (s : State) : Out :=
  whenever s (!s.mem.wbuf.isEmpty) fun s => s.wbWriteOne.stallLand

/-- ECC_INJECT_REQUEST: a write of MEM_CTL (R205). -/
def execEccInjectRequest (i : Initiator) (v : Word) (s : State) : Out :=
  whenPowered s fun s => s.writeBy i 0x40002000 v

/-- The number of words a scrubber walks. -/
def scrubWords (mram : Bool) : Nat := if mram then 262144 else 24576

/-- One scrubber read: the word's errors, and the walk goes on (R206, R207). -/
def State.scrub (s : State) (mram : Bool) : State :=
  let k := if mram then s.mem.scrubM else s.mem.scrubS
  let w := (if mram then 0x08000000 else 0x20000000) + 8 * k
  let s := if (s.mem.entryOf w).isSome then s else (s.eccRead w true).1
  let wrap := decide (scrubWords mram ≤ k + 1)
  let k := if wrap then 0 else k + 1
  s.setMem (if mram then { s.mem with scrubM := k, mpass := if wrap then s.mem.mpass + 1 else s.mem.mpass }
    else { s.mem with scrubS := k, spass := if wrap then s.mem.spass + 1 else s.mem.spass })

/-- SCRUB_READ: while the scrubber is enabled, once XT32 has run (R206, R207). -/
def execScrubRead (mram : Bool) (s : State) : Out :=
  whenever s (s.tmp.counting && !s.sys.coreStopped && (if mram then s.mem.men else s.mem.sen)) fun s => s.scrub mram

/-- PCOMMIT_IMMEDIATE: a write of MEM_PCOMMIT with ARM = 0 (R220). -/
def execPcommitImmediate (i : Initiator) (seq : BitVec 31) (s : State) : Out :=
  whenPowered s fun s => s.writeBy i 0x40002018 (0#1 ++ seq)

/-- PCOMMIT_ARM: a write of MEM_PCOMMIT with ARM = 1 (R220). -/
def execPcommitArm (i : Initiator) (seq : BitVec 31) (s : State) : Out :=
  whenPowered s fun s => s.writeBy i 0x40002018 (1#1 ++ seq)

/-- A chain member has had no reference event for two superframes of local time (R520). -/
def State.memberAlone (s : State) : Bool := decide (s.lnk.refAt + 131072000 ≤ s.local.toNat)

/-- The PERSIST boundary is the local tick: neither a synchronised MAC, nor a root, nor a chain member that gets reference
events (R221, R520). -/
def State.localTickRules (s : State) : Bool :=
  !(s.macRuns && (s.tmp.sync || s.mac.mode == 2)) && (!s.isMember || s.memberAlone)

/-- PERSIST_BOUNDARY_TICK (R221). -/
def execPersistBoundaryTick (s : State) : Out :=
  whenever s (s.tmp.counting && s.localTickRules && !s.sys.coreStopped) State.persistBoundary

/-- PERSIST_COMMIT_COMPLETE: the running commit ends (R221, R222). -/
def execPersistCommitComplete (s : State) : Out :=
  match s.mem.busy with
  | none => whenever s false id
  | some q => whenever s true fun s => s.commitEnd q

end Sys2Proof.Machine
end

