-- ==== Sys2Proof/Machine/Energy.lean ====
section
/-!
DEFINITION. Energy's commands: the cell and its charger, the sources, the reservoir and ship mode (R44 to R77, R87, R98).
-/

namespace Sys2Proof.Machine

/-- A write into AON whose own row completes it: posted behind the earlier ones, and completed with them (R14, R30). -/
def State.writeThrough (s : State) (i : Initiator) (a : Nat) (v : Word) : State := (s.writeBy i a v).drainPosted

/-- CELL_MEASUREMENT (R58 to R65, R89, R90, R353). -/
def execCellMeasurement (m : CellSample) (s : State) : Out :=
  whenPowered s fun s => (s.cellMeasure m).modTmp fun t => t.compensate m.aonTemp

/-- The timer of the charger's state can expire: 1 h in PRECHARGE, or the safety timer in CC and CV, which TIMER = 0 disables
(R60, 02 NRG_CHG). -/
def Nrg.timed (n : Nrg) : Bool := n.chg == .precharge || ((n.chg == .cc || n.chg == .cv) && fld n.chgReg 20 4 != 0)

/-- CHARGE_TIMER_EXPIRY (R60). -/
def execChargeTimerExpiry (s : State) : Out :=
  whenever s (s.nrgx.chgTimer && s.nrg.timed) fun s =>
    (s.modNrgx fun x => { x with chgTimer := false, chgUa := 0 }).setChg .fault

/-- FOCV_SAMPLE_START: a period boundary of the panel input, which is the boundary of domain NRG (R46, R47, R51, R55). -/
def execFocvSampleStart (teg20 : Bool) (s : State) : Out :=
  whenever s (!s.nrg.dcMode && s.nrg.period != 0) fun s => s.nrgBoundary teg20

/-- FOCV_SAMPLE: V_OC is taken, and the converter regulates at k x V_OC, or stays off when that is below 2.0 V (R46 to R48).
FOCVREG reads 1 also then, DESIGN CHOICE (log 66): the spec names PVACT only. -/
def execFocvSample (vpv : Nat) (s : State) : Out :=
  whenever s s.nrgx.pvSampling fun s =>
    let v := min 65535 vpv
    let target := fld s.nrg.focvAct 8 8 * v * 10
    let s := s.modNrg fun n => { n with pvVoc := BitVec.ofNat 16 v, focvReg := true }
    (s.modNrgx fun x => { x with
      pvSampling := false, pvTarget := target, pvLowOff := decide (target < 2000 * 2560) }).pvUpdate

/-- NRG_BOUNDARY_TICK: the 16 s tick, while PERIOD is 0 or in DC supply mode (R49, R51, R55). -/
def execNrgBoundaryTick (teg20 : Bool) (s : State) : Out :=
  whenever s (s.tmp.counting && (s.nrg.period == 0 || s.nrg.dcMode)) fun s => s.nrgBoundary teg20

/-- TEG_TAKEOVER: VHB has reached 3.0 V, and the controlled converter takes its first sample (R55, R57). -/
def execTegTakeover (s : State) : Out :=
  whenever s (bit s.nrg.ctl 1 && !s.nrgx.tegRun) fun s =>
    s.modNrgx fun x => { x with tegRun := true, tegSampling := true }

/-- TEG_SAMPLE_END: below 10 mV the converter idles; an idle one goes on at the first boundary after 20 mV; the operating point is
the strap's fraction of the sample (R55, R57); `vteg` in 10 uV. -/
def execTegSampleEnd (vteg : Nat) (s : State) : Out :=
  whenever s s.nrgx.tegSampling fun s =>
    let v := min 65535 vteg
    let idle := decide (v < 1000) || s.nrg.tegIdle
    let s := s.modNrg fun n => { n with tegVoc := BitVec.ofNat 16 v, tegIdle := idle }
    (s.modNrgx fun x => { x with
      tegSampling := false, tegTarget := x.tegFrac * v, tegWatch := idle && (x.tegWatch || decide (2000 ≤ v)) }).tegUpdate

/-- PV_OVERVOLTAGE (R50). -/
def execPvOvervoltage (s : State) : Out :=
  whenever s (!s.nrg.dcMode && !s.nrg.pvov) fun s => (s.modNrg fun n => { n with pvov := true }).pvUpdate

/-- PV_OVERVOLTAGE_CLEAR (R50). -/
def execPvOvervoltageClear (s : State) : Out :=
  whenever s s.nrg.pvov fun s => (s.modNrg fun n => { n with pvov := false }).pvUpdate

/-- DC_SUPPLY_LOSS (R52). -/
def execDcSupplyLoss (s : State) : Out :=
  whenever s (s.nrg.dcMode && s.nrg.dcPres) fun s =>
    ((s.modNrgx fun x => { x with dcRun := false }).setDc false).pvUpdate

/-- DC_SUPPLY_RESTORE (R52). -/
def execDcSupplyRestore (s : State) : Out :=
  whenever s (s.nrg.dcMode && !s.nrg.dcPres) fun s =>
    ((s.modNrgx fun x => { x with dcRun := true }).setDc true).pvUpdate

def State.setCell (s : State) (c : CellSwitch) : State := s.modNrgx fun x => { x with cellSw := c }

/-- CELL_UV_CUTOFF: for 10 ms VCELL has been at most this, which lies below the cut-off (R58, R59, R62); in mV. -/
def execCellUvCutoff (vcell : Nat) (s : State) : Out :=
  whenever s (s.nrgx.cellSw == .closed && decide (vcell < s.nrg.uvMv)) fun s => s.setCell .uvOpen

/-- CELL_RECONNECT: VCELL is above the reconnect threshold after an under-voltage cut-off, or at or above it with REF_OK at 1 for
the first closing (R58, R62, R98); in mV. -/
def execCellReconnect (vcell : Nat) (s : State) : Out :=
  whenever s ((s.nrgx.cellSw == .uvOpen && decide (s.nrg.reconnectMv < vcell)) ||
    (s.nrgx.cellSw == .opened && s.nrg.refOk && decide (s.nrg.reconnectMv ≤ vcell))) fun s => s.setCell .closed

/-- CELL_OVERCURRENT_TRIP: the third within 10 s latches (R63). The window is measured in local time; trips before tempo counts
all fall at its instant 0, DESIGN CHOICE (log 66). -/
def execCellOvercurrentTrip (s : State) : Out :=
  whenever s (s.nrgx.cellSw == .closed) fun s =>
    let now := s.local.toNat
    let trips := now :: s.nrgx.ocTrips.filter fun t => decide (now ≤ t + 160000000)
    (s.modNrgx fun x => { x with ocTrips := trips.take 3 }).setCell (if 3 ≤ trips.length then .ocLatched else .ocRetry)

/-- CELL_SWITCH_RECLOSE (R63). -/
def execCellSwitchReclose (s : State) : Out := whenever s (s.nrgx.cellSw == .ocRetry) fun s => s.setCell .closed

/-- BOOST_START: VRES is below VRES_SET - 0.5 V, and the boost may run (R67, R70, R73, R74). -/
def execBoostStart (s : State) : Out := whenever s (s.boostAllowed && !s.nrgx.boostOn) fun s => s.setBoost true

/-- BOOST_STOP: VRES has reached VRES_SET (R67, R69). -/
def execBoostStop (s : State) : Out := whenever s s.nrgx.boostOn fun s => s.setBoost false

/-- REFERENCE_REFRESH: the first sets REF_OK, and the cell switch closes if VCELL allows (R74, R98). -/
def execReferenceRefresh (s : State) : Out :=
  whenPowered s fun s =>
    if s.nrg.refOk then s
    else
      let s := s.modNrg fun n => { n with refOk := true }
      let close := s.nrgx.cellSw == .opened && decide (s.nrg.reconnectMv ≤ s.nrg.vcell.toNat)
      (if close then s.setCell .closed else s).pvUpdate

/-- EUSE_UPDATE: with the energy that the running pulses have drawn (R72, R79, R87). -/
def execEuseUpdate (vres : Nat) (drawn : List (Option Int)) (s : State) : Out :=
  whenPowered s fun s => (s.takeDrawn drawn).euseTick vres

/-- SHIP_MODE_ENTER: a write of NRG_CTL with SHIP = 1 (R75). -/
def execShipModeEnter (i : Initiator) (v : Word) (s : State) : Out :=
  whenPowered s fun s => s.writeThrough i 0x40003004 (v ||| 0x80)

/-- RESERVOIR_DISCHARGE: a write of NRG_CTL with RESDISCH = 1 (R73). -/
def execReservoirDischarge (i : Initiator) (v : Word) (s : State) : Out :=
  whenPowered s fun s => s.writeThrough i 0x40003004 (v ||| 0x100)

/-- VRES has fallen to 1.0 V: the sink stops, and the bit stays (R73). -/
def execVresDischarged (s : State) : Out :=
  whenever s s.nrgx.sink fun s => s.modNrgx fun x => { x with sink := false }

end Sys2Proof.Machine
end

