-- ==== Sys2Proof/Machine/LastAct.lean ====
section
/-!
DEFINITION. The last act and the cold close: firing, the sequencer's closes, the deadline, the cut-off and the reset hold (R89 to
R97, R101 to R103, R539).
-/

namespace Sys2Proof.Machine

/-- What LASTACT does beyond the drive, in the order of R91: RESDISCH ends, the watchdog stops, metering and captures end, a
chain member tells the head, and XO32M's users start (R73, R108, R307, R337, R516). -/
def State.fireLastAct (s : State) : State :=
  let s := s.event 10
  let s := s.modNrgx fun x => { x with laState := .closing, laArmed := false, sink := false }
  let s := s.modNrg fun n => { n with ctl := putFld n.ctl 8 1 0 }
  let s := s.modSys fun x => { x with wdogStopped := true }
  let s := ((s.drvLastAct).flowLastAct).prsLastAct
  let s := if s.isMember then s.hwSend (hwWord 2 0) else s
  s.boostCheck.startIslands

/-- LASTACT: armed, and four measurements in a row have read below the threshold (R90, R91). -/
def execLastact (s : State) : Out :=
  whenever s (s.nrgx.laArmed && s.nrgx.laCount == 4 && s.nrgx.laState == .idle) State.fireLastAct

/-- LASTACT_NEXT_CLOSE: the sequencer's next close starts, in the last act or the cold close (R91, R92, R101). -/
def execLastactNextClose (s : State) : Out :=
  match s.seqReady with
  | none => whenever s false id
  | some v => whenever s s.sys.runDmi fun s => s.seqClose v

/-- The sequencer waits for admission of its next close, or for a thermal shutdown to end (R92, R276). -/
def State.seqWaits (s : State) : Bool :=
  s.drv.seqMode != .idle && s.drv.seqRun.isNone &&
    (match s.drv.seqValve with
     | none => false
     | some v => s.drv.tsdact || (!s.drv.held (treadleOf v) && !s.admits (s.nodeClose v) v))

/-- LASTACT_CLOSE_SKIP: R80 has not held for 2 s; the valve stays UNKNOWN and the sequencer moves on (R92). -/
def execLastactCloseSkip (s : State) : Out :=
  whenever s (s.sys.runDmi && s.seqWaits) fun s =>
    match s.drv.seqValve with
    | none => s
    | some v => ((s.dropRetry).seqStep v).seqFinish

/-- A commit under way whose header write has begun completes (R93). -/
def State.headerDone (s : State) (begun : Bool) : State :=
  match s.mem.busy with
  | some q => if begun then s.commitEnd q else s
  | none => s

/-- The core island stops: the buffer drains, a commit whose header write has begun completes, and an armed PERSIST and a commit
without its header are lost (R93, R467). -/
def State.deadline (s : State) (begun : Bool) : State :=
  let s := if s.sec.commit then s.keyCommitDone true else s
  let s := ((s.wbDrain).headerDone begun).disarm 8
  let s := s.setMem { s.mem with busy := none, pendSeq := none, pendDue := false }
  let s := s.modNrgx fun x => { x with deadline := true }
  s.modSys fun x => { x with coreStopped := true }

/-- LASTACT_DEADLINE: 200 ms after LASTACT; `begun`: the header write of a running commit has begun (R93). -/
def execLastactDeadline (begun : Bool) (s : State) : Out :=
  whenever s ((s.nrgx.laState == .closing || s.nrgx.laState == .commitWait) && !s.nrgx.deadline) fun s => s.deadline begun

/-- The cell switch opens, the converters stop and every island is held in reset; SRAM and tempo are lost (R94). -/
def State.cutOff (s : State) : State :=
  let s := s.modNrgx fun x => { x with
    laState := .cutoff, cellSw := .opened, boostOn := false, tegRun := false, tegSampling := false, pvSampling := false,
    dcRun := false, chgTimer := false, chgUa := 0 }
  let s := s.modNrg fun n => { n with pvAct := false, tegAct := false, dcPres := false, chg := .off }
  let s := s.modTmp fun t => { t with counting := false }
  let s := s.setMem (s.mem.afterReset true)
  s.modSys fun x => { x with power := .hold, xoRun := false, runDmi := false, runRad := false }

/-- LASTACT_CUTOFF: the sequencer has finished and the deadline has passed (R94). -/
def execLastactCutoff (s : State) : Out :=
  whenever s (s.nrgx.laState == .commitWait && s.nrgx.deadline) State.cutOff

/-- RESET_HOLD_END: after 1 s the cold-start conditions apply (R94, R97). -/
def execResetHoldEnd (p : Option PowerUp) (s : State) : Out :=
  if s.sys.power = .hold then
    let s := s.modSys fun x => { x with power := .off }
    match p with
    | none => .next s
    | some u => .next (if coldFrom .off u then s.coldStart u else s)
  else .next s

/-- LASTACT_THRESHOLD_WRITE: a write of NRG_LASTACT (R96). -/
def execLastactThresholdWrite (i : Initiator) (v : Word) (s : State) : Out :=
  whenPowered s fun s => s.writeThrough i 0x40003028 v

end Sys2Proof.Machine
end

