-- ==== Sys2Proof/Machine/Drive.lean ====
section
/-!
DEFINITION. The valve drive's commands: command words, the start point, the phases of a pulse, bootstrap, interlock, over-current,
thermal shutdown, the coil model and the off-state test (07, 08, R79 to R86).
-/

namespace Sys2Proof.Machine

/-! ## Command words and registers -/

/-- DRIVE_COMMAND: a write of DRV_CMD; the same checks serve the DRV instruction (R175, R237, R238). -/
def execDriveCommand (i : Initiator) (w : Word) (s : State) : Out :=
  whenPowered s fun s => s.writeBy i drvCmdAddr w

/-- CANCEL: a command word with CANCEL = 1 (R239). -/
def execCancel (i : Initiator) (valve : BitVec 5) (s : State) : Out :=
  whenPowered s fun s => s.writeBy i drvCmdAddr (place 1 14 ||| place valve.toNat 0)

/-- RELEASE: a command word that names a close profile on a HELD treadle (R236). -/
def execRelease (i : Initiator) (valve : BitVec 5) (profile : BitVec 4) (s : State) : Out :=
  whenPowered s fun s => s.writeBy i drvCmdAddr (place profile.toNat 8 ||| place valve.toNat 0)

/-- DRV_RESULT_READ: the summary of the oldest record, then its stamp (R255). -/
def execDrvResultRead (i : Initiator) (rd : Fin 16) (s : State) : Out :=
  whenPowered s fun s => s.readBy i rd 0x40005040

/-- VALVE_TABLE_WRITE: a word of a valve-table entry (R251). -/
def execValveTableWrite (i : Initiator) (v : Fin 24) (word : Fin 4) (w : Word) (s : State) : Out :=
  whenPowered s fun s => s.writeBy i (0x40005600 + 16 * v.val + 4 * word.val) w

/-! ## The start point -/

/-- START_POINT_SCAN: with which treadles' VBS is at 4.5 V, and the energy that the running pulses have drawn (R79 to R84, R242,
R263). -/
def execStartPointScan (vbsOk : BitVec 3) (drawn : List (Option Int)) (s : State) : Out :=
  whenever s s.sys.runDmi fun s => (s.takeDrawn drawn).scan vbsOk

/-- The `k`-th entry of a treadle's queue. -/
def State.entryAt (s : State) (t : Fin 3) (k : Nat) : Option QEntry := (s.drv.trd.get t).queue[k]?

/-- ADMIT_WAIT_EXPIRY: a waiting open still fails the rule (R81, R84). -/
def execAdmitWaitExpiry (t : Fin 3) (k : Nat) (s : State) : Out :=
  match s.entryAt t k with
  | none => whenever s false id
  | some e =>
    whenever s (s.sys.runDmi && s.opens e && e.waiting && !s.admits (s.entryProfile e) e.valve) fun s => s.endEntry t e 2

/-- THERMAL_WAIT_EXPIRY: an open that the thermal model defers, or that a shutdown holds, has waited out TWAIT (R276,
R289). -/
def execThermalWaitExpiry (t : Fin 3) (k : Nat) (s : State) : Out :=
  match s.entryAt t k with
  | none => whenever s false id
  | some e =>
    whenever s (s.sys.runDmi && s.opens e && (e.deferred || s.drv.tsdact)) fun s => s.endEntry t e 3

/-! ## The phases of a pulse (R232, R248, R249, R284, R285) -/

/-- The running pulse of the valve's output is in one of these phases, and its switches work. -/
def State.pulseIn (s : State) (v : Fin 24) (f : Phase → Bool) : Bool :=
  s.sys.runDmi &&
    (match s.drv.pulseOf (s.drv.even v) with
     | none => false
     | some p => f p.phase && !p.off)

/-- The pulse leaves BOOST or PEAK for END as its profile ends it. -/
def State.toNormalEnd (s : State) (v : Fin 24) : State := s.toEnd v (fun q => q.prof.omEnd) id

/-- The pulse enters HOLD, or END when T_HOLD is 0; a HELD valve then stands open (R232, R243, R248). -/
def State.afterPeak (s : State) (v : Fin 24) : State :=
  match s.drv.pulseOf v with
  | none => s
  | some p =>
    if p.prof.tHold = 0 then s.toNormalEnd v
    else
      let s := s.modDrv fun d => d.modPulse v fun q => { q with phase := .hold, held := true }
      if s.drv.held (treadleOf v) then
        s.modDrv fun d => d.setVs v (if p.notchSeen || !p.prof.notchEn then .opened else .unknown)
      else s

/-- The window of the profile is enabled (R284). -/
def Profile.window (p : Profile) : Bool := p.winLo != 0 || p.winHi != 0

/-- BOOST has ended at I_PEAK: TPEAK and the window's flags, then PEAK or what follows it (R232, R284). -/
def State.boostDone (s : State) (v : Fin 24) (tpeak : Nat) : State :=
  match s.drv.pulseOf v with
  | none => s
  | some p =>
    let s := s.modDrv fun d => d.modPulse v fun q => { q with
      phase := .peak, tpeak := BitVec.ofNat 16 tpeak,
      peakEarly := q.prof.window && decide (tpeak < q.prof.winLo),
      peakLate := q.prof.window && decide (q.prof.winHi < tpeak) }
    if p.prof.tPeak = 0 then s.afterPeak v else s

/-- BOOST_END: the current has reached I_PEAK, `tpeak` 10 us units after the pulse's start (R232). -/
def execBoostEnd (v : Fin 24) (tpeak : Nat) (s : State) : Out :=
  whenever s (s.pulseIn v (· == .boost)) fun s => s.boostDone (s.drv.even v) tpeak

/-- BOOST has timed out (R232, R284). -/
def State.boostLate (s : State) (v : Fin 24) : State :=
  let s := s.modDrv fun d => d.modPulse v fun q => { q with peakLate := q.prof.window }
  (s.endEarly v 9).drvFault 6 [v]

/-- BOOST_TIMEOUT (R232). `same`: another cause has ended the pulse in this DMI cycle; its result stays, and DRV_FAULT.BTMO sets
all the same (R277). -/
def execBoostTimeout (v : Fin 24) (same : Bool) (s : State) : Out :=
  let ended := same && (s.pulseIn v (· == .ending)) && (s.drv.pulseOf (s.drv.even v)).any fun p => p.early.isSome
  whenever s (s.pulseIn v (· == .boost) || ended) fun s =>
    if ended then s.drvFault 6 [s.drv.even v] else s.boostLate (s.drv.even v)

/-- The notch search on one sample (R249). -/
def Pulse.sample (p : Pulse) (ma : Nat) : Pulse :=
  let p := { p with samples := p.samples + 1 }
  if p.notchMax < ma then
    let found := p.prof.notchEn && p.notchDip && !p.notchSeen
    { p with
      notchSeen := p.notchSeen || found,
      tnotch := if found then BitVec.ofNat 16 p.notchMaxAt else p.tnotch,
      notchDip := false, notchMax := ma, notchMaxAt := p.samples }
  else { p with notchDip := p.notchDip || decide (ma + p.prof.notchMa ≤ p.notchMax) }

/-- COIL_CURRENT_SAMPLE: each 10 us of BOOST (R249). -/
def execCoilCurrentSample (v : Fin 24) (ma : Nat) (s : State) : Out :=
  whenever s (s.pulseIn v (· == .boost)) fun s =>
    s.modDrv fun d => d.modPulse (d.even v) fun p => p.sample ma

/-- A regulated phase of this length and target ends with a measurement of the coil: at least 2 ms and 100 mA (R285). -/
def measured (units10us target : Nat) : Bool := decide (200 ≤ units10us) && decide (100 ≤ target)

/-- A regulated phase has run its time: its measurement is taken, and none is left over (R285). -/
def State.phaseDone (s : State) (v : Fin 24) (taken : Bool) (rm : Option Nat) : State :=
  (s.coilMeasured v taken rm).modDrv fun d => d.modPulse v fun p => { p with rm := none }

/-- PEAK_END: T_PEAK has passed (R232, R285). -/
def execPeakEnd (v : Fin 24) (rm : Option Nat) (s : State) : Out :=
  whenever s (s.pulseIn v (· == .peak)) fun s =>
    let v := s.drv.even v
    let taken := (s.drv.pulseOf v).any fun p => measured p.prof.tPeak p.prof.iPeak
    (s.phaseDone v taken rm).afterPeak v

/-- HOLD_END: a finite T_HOLD has passed (R232, R285). -/
def execHoldEnd (v : Fin 24) (rm : Option Nat) (s : State) : Out :=
  whenever s (s.pulseIn v (· == .hold) && (s.drv.pulseOf (s.drv.even v)).any fun p => !p.endless) fun s =>
    let v := s.drv.even v
    let taken := (s.drv.pulseOf v).any fun p => measured (100 * p.prof.tHold) p.prof.iHold
    (s.phaseDone v taken rm).toNormalEnd v

/-- The decay outlasts T_END_MAX: it goes on in CLAMP, or in SLOW while the treadle runs other profiles (R230, R232). -/
def State.slowEnd (s : State) (v : Fin 24) : State :=
  let many := decide (1 < (s.drv.trd.get (treadleOf v)).runs.length)
  let s := s.modDrv fun d => d.modPulse v fun p => { p with
    endSlow := true, decay := if many then .slow else .clamp, demoted := p.demoted || many }
  s.drvFault 7 [v]

/-- END_TIMEOUT: T_END_MAX has passed, once for each pulse (R232). -/
def execEndTimeout (v : Fin 24) (s : State) : Out :=
  whenever s (s.pulseIn v (· == .ending) && (s.drv.pulseOf (s.drv.even v)).any fun p => !p.endSlow) fun s =>
    s.slowEnd (s.drv.even v)

/-- PULSE_END: the current has fallen below 20 mA, with the net energy drawn (R232, R236, R248, R250, R254). -/
def execPulseEnd (v : Fin 24) (drawn : Int) (ph : Ring) (s : State) : Out :=
  match s.drv.pulseOf (s.drv.even v) with
  | none => whenever s false id
  | some p => whenever s (s.sys.runDmi && p.phase == .ending) fun s => (s.atPhase ph).pulseEnd p drawn

/-- One step of a gate by a measured edge: `edge` and `target` in ns (R271). -/
def gateStep (step edge target : Nat) : Nat :=
  if 5 * target < 4 * edge then min 15 (step + 1) else if 4 * edge < 3 * target then step - 1 else step

/-- DRV_GATE.TSWDEF in ns. -/
def Drv.tswDef (d : Drv) : Nat := 10 * fld d.gate 12 8

/-- The leg of a pulse adapts to the longest edge of its chop period (R271, R272). -/
def Drv.adaptLeg (d : Drv) (p : Pulse) (edge : Option Nat) : Drv :=
  match edge, bit d.gate 20 with
  | some e, true =>
    let target := if p.prof.tsw = 0 then d.tswDef else 10 * p.prof.tsw
    d.modValve p.valve fun x => { x with gstep := BitVec.ofNat 4 (gateStep x.gstep.toNat e target) }
  | _, _ => d

/-- A treadle adapts to a measured edge (R271, R272). -/
def Drv.adaptTrd (d : Drv) (t : Fin 3) (e : Nat) : Drv :=
  if bit d.gate 20 then
    { d with gate := putFld d.gate (4 * t.val) 4 (gateStep (fld d.gate (4 * t.val) 4) e d.tswDef) }
  else d

/-- A treadle adapts to each measured edge in turn (R271). -/
def Drv.adaptTrdAll (d : Drv) (t : Fin 3) (edges : List Nat) : Drv := edges.foldl (fun d e => d.adaptTrd t e) d

/-- The pulse after a chop period in a regulated phase: an on-time that lasts, or an off-time, which is demoted like any other
(R228 to R230, R274). -/
def State.chopped (s : State) (p : Pulse) (c : Chop) : Pulse :=
  if c = .below then { p with on := true } else { s.decay p p.phaseMode with on := false }

/-- A leg in HOLD whose off-time lasts starts no new on-time in a receive window that HQUIET keeps quiet (R300). -/
def State.chopHeld (s : State) (p : Pulse) : Bool := p.phase == .hold && !p.on && s.holdQuiet

/-- CHOP_PERIOD: one chop period of a leg in a regulated phase, or the edges of a phase change in BOOST or END, with the longest
edge of the leg and every edge of the treadle that were measured, in ns (R228 to R230, R270 to R272, R274, R300). -/
def execChopPeriod (v : Fin 24) (chop : Chop) (legEdge : Option Nat) (trdEdges : List Nat) (s : State) : Out :=
  match s.drv.pulseOf (s.drv.even v) with
  | none => whenever s false id
  | some p =>
    whenever s (s.sys.runDmi && p.phase != .precharge && !p.off) fun s =>
      let s := s.modDrv fun d => (d.adaptLeg p legEdge).adaptTrdAll (treadleOf p.valve) trdEdges
      if p.phase.regulated && !s.chopHeld p then
        let q := s.chopped p chop
        (s.modDrv fun d => d.modPulse p.valve fun _ => q).occur 0x31
      else s

/-- T_TURN_END: the 50 us have passed (R244). -/
def execTTurnEnd (t : Fin 3) (s : State) : Out :=
  whenever s (s.sys.runDmi && (s.drv.trd.get t).turn.isSome) fun s =>
    s.modDrv fun d => (d.modTrd t fun x => { x with turn := none }).tallGo

/-! ## The reservoir's floor and its limits (R86, R274, R275) -/

/-- The floor latched at the pulse's admission, mV (R71, R86). -/
def Pulse.floorMv (p : Pulse) : Nat := fld p.resctl 9 9 * 100

/-- R86 ends this pulse at this voltage: it runs in BOOST, PEAK or HOLD, or a cause that R277 ranks behind the floor has ended it
in this same DMI cycle (`same`). -/
def Pulse.atFloor (p : Pulse) (mv : Nat) (same : List (Fin 24)) : Bool :=
  decide (mv < p.floorMv) &&
    (p.phase == .boost || p.phase.regulated ||
      (same.contains p.valve && !p.off && (p.early == some 3 || p.early == some 9 || p.early == some 10)))

/-- What becomes of a pulse of a treadle on which R86 ends pulses; `alone`: it ends every one there (R86, R230). -/
def Pulse.floored (p : Pulse) (mv : Nat) (same : List (Fin 24)) (alone : Bool) : Pulse :=
  if p.atFloor mv same then
    { p with phase := .ending, early := some 8, decay := if alone then .clamp else .slow, demoted := p.demoted || !alone }
  else if p.phase == .ending && !p.off then { p with decay := .slow, demoted := p.demoted || p.decay != .slow }
  else p

/-- The pulses of treadle `t` that are below their floor end together (R86). -/
def State.floorTrd (s : State) (mv : Nat) (same : List (Fin 24)) (t : Fin 3) : State :=
  let runs := (s.drv.trd.get t).runs
  let hit := runs.filter fun p => p.atFloor mv same
  if hit.isEmpty then s
  else
    let alone := runs.all fun p => p.atFloor mv same
    let s := hit.foldl (fun s p => s.phaseMeasured p) s
    let s := s.modDrv fun d => d.modTrd t fun x => { x with runs := x.runs.map fun p => p.floored mv same alone }
    s.modDrv fun d => hit.foldl (fun d p => d.setVs p.valve .moving) d

/-- VRES_FLOOR: VRES has fallen to `mv`, below the floor of a running pulse; `same`: the valves whose pulses another cause has
ended in this DMI cycle (R86, R277). -/
def execVresFloor (mv : Nat) (same : List (Fin 24)) (s : State) : Out :=
  let hit := (s.drv.allRuns.filter fun p => p.atFloor mv same).map Pulse.valve
  whenever s (s.sys.runDmi && !hit.isEmpty) fun s =>
    ((upTo 3).foldl (fun s t => s.floorTrd mv same t) s).drvFault 5 hit

/-- VRES_FAST_LIMIT: VRES reaches 32.0 V during a decay in FAST, which goes on in CLAMP (R274). -/
def execVresFastLimit (v : Fin 24) (s : State) : Out :=
  whenever s ((s.pulseIn v fun f => f == .ending || f.regulated) &&
      (s.drv.pulseOf (s.drv.even v)).any fun p => p.decay == .fast) fun s =>
    s.modDrv fun d => d.modPulse (d.even v) fun p => { p with decay := .clamp }

/-- VRESOV: VRES reaches 33.5 V (R275). -/
def execVresov (s : State) : Out := whenever s s.sys.runDmi fun s => s.drvFault 1 []

/-! ## Interlock, switch-level control and over-current (R257 to R261, R273) -/

def diagAddr : Nat := 0x40005030

/-- The running pulses that use half-bridge `hb`: legs 0-23, treadles 24-26. -/
def Drv.users (d : Drv) (hb : Fin 27) : List Pulse :=
  match fin? 24 hb.val with
  | some v => d.allRuns.filter fun p => p.valve == d.even v && !p.off
  | none => d.allRuns.filter fun p => (treadleOf p.valve).val + 24 == hb.val && !p.off

/-- The pulses of this list end with FAULT. -/
def State.faultAll (s : State) (ps : List Pulse) : State := ps.foldl (fun s p => s.faultPulse p.valve) s

/-- The request for both switches of `hb` trips its interlock. The sequencer's own is recorded with INIT 6; one of switch-level
control, with the initiator that wrote DRV_DIAG (R257 to R260). DEDUCED (log 43): the write itself has been answered. -/
def State.turnoffFail (s : State) (hb : Fin 27) : State :=
  let us := s.drv.users hb
  let man := s.drv.manualReq hb.val
  let s := s.modDrv fun d => { d.trip hb with sw := if man then 0 else d.sw }
  let s := (s.faultAll us).drvFault 0 (us.map Pulse.valve)
  match us with
  | p :: _ => s.record 6 true 8 (BitVec.ofNat 32 (0x40005400 + 0x20 * p.profile.toNat))
  | [] => if man then s.record s.drv.diagInit true 8 (BitVec.ofNat 32 diagAddr) else s

/-- TURNOFF_TIMEOUT: a turn-off of a half-bridge in use is not complete within 2 us (R258). -/
def execTurnoffTimeout (hb : Fin 27) (s : State) : Out :=
  whenever s (s.sys.runDmi && (!(s.drv.users hb).isEmpty || s.drv.manualReq hb.val)) fun s => s.turnoffFail hb

/-- INTERLOCK_RELEASE: both requests have been off for 1 us (R257). -/
def execInterlockRelease (hb : Fin 27) (s : State) : Out :=
  whenever s (s.sys.runDmi && s.drv.tripped hb.val && (s.drv.users hb).isEmpty && !s.drv.manualReq hb.val) fun s =>
    s.modDrv fun d => { d with trips := d.trips &&& ~~~(BitVec.ofNat 27 (1 <<< hb.val)) }

/-- DRV_DIAG as it stands, without TALL, TGO and the read-only fields. -/
def Drv.diagKeep (d : Drv) : Word :=
  placeB d.manual 31 ||| place d.sw.toNat 29 ||| place d.leg.toNat 24 ||| place d.tvalve.toNat 8

/-- MANUAL_MODE: a write of DRV_DIAG with MANUAL = 1 (R261). -/
def execManualMode (i : Initiator) (v : Word) (s : State) : Out :=
  whenPowered s fun s => s.writeBy i diagAddr (putFld v 31 1 1)

/-- SWITCH_CONTROL: a write of SW and LEG (R257, R259, R261). -/
def execSwitchControl (i : Initiator) (leg : BitVec 5) (sw : BitVec 2) (s : State) : Out :=
  whenPowered s fun s =>
    s.writeBy i diagAddr (putFld (putFld s.drv.diagKeep 24 5 leg.toNat) 29 2 sw.toNat)

/-- SWITCH_AUTO_OFF: 10 ms after SW turned a switch on (R261). -/
def execSwitchAutoOff (s : State) : Out :=
  whenever s (s.sys.runDmi && s.drv.sw != 0) fun s => s.modDrv fun d => { d with sw := 0 }

/-- The half-bridge of an output. -/
def bridgeOf (o : OcOutput) : Fin 27 :=
  match o with
  | .leg v => ⟨v.val, by omega⟩
  | .treadle t => ⟨24 + t.val, by omega⟩

/-- The valves whose DRV_FAULTV bits an over-current trip sets: those of the pulses, or the leg's own under switch-level
control (R273). -/
def Drv.ocValves (d : Drv) (o : OcOutput) : List (Fin 24) :=
  let us := (d.users (bridgeOf o)).map Pulse.valve
  match o with
  | .leg v => if us.isEmpty then [v] else us
  | .treadle _ => us

/-- OVERCURRENT_TRIP: of an output with a switch on; one whose switches are all off never trips (R273). -/
def execOvercurrentTrip (out : OcOutput) (s : State) : Out :=
  let hb := bridgeOf out
  whenever s (s.sys.runDmi && s.drv.bridgeOn hb) fun s =>
    let vs := s.drv.ocValves out
    let s := s.faultAll (s.drv.users hb)
    (s.modDrv fun d => { d with sw := if d.manualReq hb.val then 0 else d.sw }).drvFault 3 vs

/-! ## Bootstrap (R263 to R268) -/

/-- BOOTSTRAP_PRECHARGE_END: VBS has reached 4.5 V, or has not within 50 us (R263, R265). -/
def execBootstrapPrechargeEnd (t : Fin 3) (ok : Bool) (s : State) : Out :=
  whenever s (s.sys.runDmi && (s.drv.trd.get t).runs.any fun p => p.phase == .precharge) fun s =>
    if ok then
      s.modDrv fun d => d.modTrd t fun x => { x with
        runs := x.runs.map fun p => if p.phase == .precharge then { p with phase := .boost } else p, uvlo := false }
    else s.bootUv t

/-- The treadle's single pulse is ended by a CANCEL, by the last act's, or by a reversal, and takes the high-side off with it; a
release is none of these (R268). -/
def Pulse.cut (p : Pulse) : Bool :=
  p.early == some 7 || p.early == some 4 || (p.early == some 5 && p.rels.isEmpty)

/-- A refresh may be inserted: the high-side is on, and is not about to turn off anyway (R264, R268). -/
def Drv.refreshes (d : Drv) (t : Fin 3) : Bool :=
  let runs := (d.trd.get t).runs
  d.highOn t && !(runs.length == 1 && runs.all Pulse.cut) && !(runs.all fun p => p.early == some 8)

/-- A refresh is inserted, and judged by VBS at its end; its edges are measured like any (R264, R265, R271). -/
def State.refresh (s : State) (t : Fin 3) (ok : Bool) (edges : List Nat) : State :=
  let s := s.modDrv fun d => { d.adaptTrdAll t edges with bootCnt := d.bootCnt.set t (d.bootCnt.get t + 1) }
  let s := s.modDrv fun d => d.modTrd t fun x =>
    { x with runs := x.runs.map fun p => { p with bootRefresh := true }, refFail := if ok then 0 else x.refFail + 1 }
  let s := s.occur 0x32
  if 3 ≤ (s.drv.trd.get t).refFail then s.bootUv t else s

/-- BOOTSTRAP_REFRESH: VBS is below 4.0 V while the high-side stays on (R264, R268). -/
def execBootstrapRefresh (t : Fin 3) (ok : Bool) (edges : List Nat) (s : State) : Out :=
  whenever s (s.sys.runDmi && s.drv.refreshes t) fun s => s.refresh t ok edges

/-- BOOTSTRAP_UVLO: VBS is below 3.5 V while the high-side is on, which its own lock-out then turns off (R266). -/
def execBootstrapUvlo (t : Fin 3) (s : State) : Out :=
  whenever s (s.sys.runDmi && s.drv.highOn t) fun s =>
    (s.modDrv fun d => d.modTrd t fun x => { x with uvlo := true }).bootUv t

/-! ## Temperature (R276, R287, R290) -/

/-- The die reaches 160 degrees: every half-bridge turns off (R276). -/
def State.shutdown (s : State) : State :=
  let ps := s.drv.allRuns
  let s := s.modDrv fun d => { d.abortTest with tsdact := true, sw := 0 }
  (s.faultAll ps).drvFault 2 (ps.map Pulse.valve)

/-- THERMAL_SHUTDOWN (R276). -/
def execThermalShutdown (s : State) : Out := whenever s (s.sys.runDmi && !s.drv.tsdact) State.shutdown

/-- THERMAL_SHUTDOWN_CLEAR: the die is below 140 degrees (R276). -/
def execThermalShutdownClear (s : State) : Out :=
  whenever s (s.sys.runDmi && s.drv.tsdact) fun s => s.modDrv fun d => { d with tsdact := false }

/-- The running pulse of `v` is in a HOLD of 0xFFFF with at least 100 mA, in which R285 measures once a second. -/
def Drv.holdMeasured (d : Drv) (v : Fin 24) : Bool :=
  (d.pulseOf v).any fun p => p.phase == .hold && p.endless && decide (100 ≤ p.prof.iHold)

/-- The millisecond of the coil model for one valve: its heat, and a measurement if one was taken. In an endless HOLD, in which
one is taken each second, it acts at once; in another regulated phase it is that of the last millisecond so far, which acts as the
phase ends (R285 to R287). -/
def Drv.coilMs (d : Drv) (v : Fin 24) (ma : Nat) (rm : Option Nat) : Drv :=
  let d := d.coilStep v (if (d.pulseOf v).isSome then ma else 0)
  match rm with
  | none => d
  | some r => if d.holdMeasured v then d.measureCoil v r else d.modPulse v fun p => { p with rm := some r }

/-- HOLD ends on a HELD treadle whose coil has reached TCMAX (R290). -/
def State.holdLimit (s : State) (v : Fin 24) : State :=
  match s.drv.pulseOf v with
  | none => s
  | some p =>
    if s.drv.held (treadleOf v) && p.phase == .hold &&
        decide ((s.drv.tcmax : Int) * 2 ^ 30 ≤ (s.drv.valves.get v).tcoil) then
      s.toEnd v (fun q => q.prof.omEnd) fun q => { q with early := some 3 }
    else s

/-- COIL_THERMAL_TICK: each millisecond, with the die temperature, the mean current of each coil and the measurements of long
holds (R285, R287, R290). -/
def execCoilThermalTick (tdie : Int) (meanMa : List Nat) (rm : List (Option Nat)) (s : State) : Out :=
  whenever s s.sys.runDmi fun s =>
    let s := s.modDrv fun d => { d with tdie := BitVec.ofInt 9 tdie }
    let s := s.modDrv fun d => (upTo 24).foldl (fun d v => d.coilMs v (nth 0 meanMa v.val) (nth none rm v.val)) d
    (upTo 24).foldl (fun s v => s.holdLimit v) s

/-! ## The off-state test (R278 to R283) -/

/-- OFFSTATE_TEST: a write of DRV_DIAG with TGO = 1 (R283). -/
def execOffstateTest (i : Initiator) (valve : BitVec 5) (s : State) : Out :=
  whenPowered s fun s => s.writeBy i diagAddr (putFld (putFld s.drv.diagKeep 8 5 valve.toNat) 20 1 1)

/-- TEST_ALL: a write of DRV_DIAG with TALL = 1 (R283). -/
def execTestAll (i : Initiator) (s : State) : Out :=
  whenPowered s fun s => s.writeBy i diagAddr (putFld s.drv.diagKeep 21 1 1)

/-- The tested command goes on, or ends with PREDIAG_FAIL (R240). -/
def State.prediagDone (s : State) (v : Fin 24) (ok : Bool) : State :=
  let t := treadleOf v
  match (s.drv.trd.get t).queue.find? fun e => e.id == s.drv.testEntry with
  | none => s
  | some e => if ok then s.modEntry t e { e with tested := true } else s.endEntry t e 14

/-- A test ends with this mean voltage: its code goes to DIAG and TRES (R280, R281). -/
def State.testDone (s : State) (v : Fin 24) (w : TestFor) (mv : Nat) : State :=
  let c := testCode mv
  let s := s.modDrv fun d => { d.modValve v fun e => { e with diag := BitVec.ofNat 4 c } with
    tres := BitVec.ofNat 4 c, test := none }
  match w with
  | .tgo => s.modDrv fun d => { d with tgo := false }
  | .tall => s.modDrv fun d => ({ d with tallNext := v.val + 1 } : Drv).tallGo
  | .prediag => s.prediagDone v (c == 1)

/-- OFFSTATE_TEST_DONE: after 200 us, with the mean of VLVn in mV (R279, R280). -/
def execOffstateTestDone (mv : Nat) (s : State) : Out :=
  match s.drv.test with
  | none => whenever s false id
  | some (v, w) => whenever s s.sys.runDmi fun s => s.testDone v w mv

end Sys2Proof.Machine
end

