-- ==== Sys2Proof/Machine/Flow.lean ====
section
/-!
DEFINITION. The commands of ultrasonic flow and pulse metering (09).
-/

namespace Sys2Proof.Machine

/-- Line `n` has due times: enabled, with a period, while local time counts (R293). -/
def State.periodic (s : State) (n : Fin 3) : Bool := (s.flow n).en && (s.flow n).period != 0 && s.tmp.counting

/-- FLOW_DUE: a due time of line `n`'s grid (R293). -/
def execFlowDue (n : Fin 3) (s : State) : Out := whenever s (s.sys.runDmi && s.periodic n) fun s => s.flowDue n

/-- FLOW_PREWAKE: 1.5 ms before a due time AON starts the DMI and XO32M (R127, R294). -/
def execFlowPrewake (n : Fin 3) (s : State) : Out :=
  whenever s (s.periodic n && !s.flw.dead) fun s => (s.modFlow n fun l => { l with prewake := true }).startIslands

/-- FLOW_START_REQUEST: a write of FLW_GCTL.START (R295). -/
def execFlowStartRequest (i : Initiator) (mask : BitVec 3) (s : State) : Out :=
  whenPowered s fun s => s.writeBy i 0x40006100 (placeB s.flw.hquiet 3 ||| place mask.toNat 0)

/-- FLOW_MEASUREMENT_START: the front end is free, and the earliest due measurement starts (R294, R301, R305, R307). -/
def execFlowMeasurementStart (s : State) : Out :=
  match s.flw.first with
  | none => whenever s false id
  | some n => whenever s (s.sys.runDmi && s.flw.meas.isNone && !s.flw.dead) fun s => s.flowStart n

/-- The shots that a measurement takes, 2P (R297). -/
def State.shotsOf (s : State) (m : FlowMeas) : Nat := 2 * (s.flow m.line).pairs

/-- FLOW_SHOT: the next shot of the measurement, `ph` tempo units after an XT32 edge (R297 to R299). -/
def execFlowShot (o : Shot) (ph : Ring) (s : State) : Out :=
  match s.flw.meas with
  | none => whenever s false id
  | some m =>
    whenever s (s.sys.runDmi && decide (m.shots.length < s.shotsOf m)) fun s => (s.atPhase ph).flowShot m o

/-- FLOW_RESULT_POST: 20 us after the last window closed (R302 to R306, R310, R311). -/
def execFlowResultPost (s : State) : Out :=
  match s.flw.meas with
  | none => whenever s false id
  | some m => whenever s (s.sys.runDmi && m.shots.length == s.shotsOf m) fun s => s.flowPost m.line m none

/-- FLOW_ZERO_WRITE: a write of FLW_ZEROn (R312). -/
def execFlowZeroWrite (i : Initiator) (n : Fin 3) (v : Word) (s : State) : Out :=
  whenPowered s fun s => s.writeBy i (0x4000600C + 0x40 * n.val) v

/-- Every gating valve of the line reads CLOSED, and auto-zero is enabled (R309). -/
def State.gateClosed (s : State) (n : Fin 3) : Bool :=
  let l := s.flow n
  l.zsettle != 0 && l.mask != 0 && (upTo 24).all fun v => !l.mask.testBit v.val || s.drv.vs v == .closed

/-- ZERO_CONDITION: ZSETTLE seconds have passed since the last gating valve read CLOSED (R309, R310). -/
def execZeroCondition (n : Fin 3) (s : State) : Out :=
  whenever s (s.tmp.counting && s.gateClosed n && !(s.flow n).zcond) fun s =>
    s.modFlow n fun l => { l with zcond := true, zk := 0 }

/-- PULSE_INPUT_SAMPLE: one input sample; in mode 2 the comparator gives the level (R313 to R315). -/
def execPulseInputSample (n : Fin 3) (p : PinSample) (s : State) : Out :=
  whenever s ((s.flow n).pmode != 0) fun s => s.pulseSample n p

/-- PULSE_COUNT_WRITE: a write of FLW_PCNTn, and the input sample in which it lands, if it lands in one: an increment of that
sample is counted on top of the written value (R317). -/
def execPulseCountWrite (i : Initiator) (n : Fin 3) (v : Word) (p : Option PinSample) (s : State) : Out :=
  whenPowered s fun s =>
    let s := s.writeBy i (0x40006010 + 0x40 * n.val) v
    match p with
    | some p => s.pulseSample n p
    | none => s

end Sys2Proof.Machine
end

