-- ==== Sys2Proof/Machine/Pressure.lean ====
section
/-!
DEFINITION. The commands of the pressure lines, the comparators and transient capture (10).
-/

namespace Sys2Proof.Machine

/-- PRESSURE_SAMPLE: an armed line converts VPn at its grid instant, with `uv` between its pins (R319, R320, R323, R324, R340). -/
def execPressureSample (n : Fin 3) (uv : Int) (ph : Ring) (s : State) : Out :=
  whenever s (s.sys.runDmi && (s.prsLine n).armed) fun s => (s.atPhase ph).prsSample n uv

/-- A write of PRS_TRGn that sets one of its command bits and keeps MISSED. -/
def State.trgWrite (s : State) (i : Initiator) (n : Fin 3) (b : Nat) : State :=
  s.writeBy i (0x40007008 + 0x40 * n.val) (place (s.prsLine n).missed.toNat 24 ||| place 1 b)

/-- SPOT_READING: a write of PRS_TRGn.SPOT (R326). -/
def execSpotReading (i : Initiator) (n : Fin 3) (s : State) : Out := whenPowered s fun s => s.trgWrite i n 2

/-- The spot reading ends: the mean of its conversions, rounded; a line armed meanwhile keeps its input (R326, R327). -/
def State.spotDone (s : State) (n : Fin 3) (uv : List Int) : State :=
  let old := s.prsLine n
  let v := meanUp (uv.map fun x => (adcCode (old.vp x)).toNat)
  let s := s.modLine n fun l => { l with val := BitVec.ofNat 16 v, valid := true, sdone := true, spot := false }
  (s.cmpFollow n old).event 7

/-- SPOT_READING_DONE: the 16 conversions, as the voltages between the line's pins (R319, R326). -/
def execSpotReadingDone (n : Fin 3) (uv : List Int) (s : State) : Out :=
  whenever s (s.sys.runDmi && (s.prsLine n).spot) fun s => s.spotDone n uv

/-- SRATE 7: the comparator runs continuously (R329). -/
def Cmp.continuous (c : Cmp) : Bool := c.srate == 7

/-- COMPARATOR_SAMPLE: one sample of a sampled comparator, with `uv` at its pins (R319, R327 to R331). -/
def execComparatorSample (c : Fin 8) (uv : Int) (s : State) : Out :=
  whenever s (s.cmpActive c && !(s.prs.cmp.get c).continuous && !s.cmpByLine c) fun s => s.cmpEval c uv true

/-- COMPARATOR_TRANSITION: a continuous comparator's output follows its input, `ph` tempo units after an XT32 edge (R328 to
R331, R339). -/
def execComparatorTransition (c : Fin 8) (uv : Int) (ph : Ring) (s : State) : Out :=
  whenever s (s.cmpActive c && (s.prs.cmp.get c).continuous && !s.cmpByLine c) fun s => (s.atPhase ph).cmpEval c uv false

/-- CAPTURE_FORCE: a write of PRS_TRGn.FORCE (R338, R339). -/
def execCaptureForce (i : Initiator) (n : Fin 3) (ph : Ring) (s : State) : Out :=
  whenPowered s fun s => (s.atPhase ph).trgWrite i n 0

/-- The record under way has all its samples (R340). -/
def State.captureReady (s : State) (n : Fin 3) : Bool :=
  (s.prsLine n).state == .post && (s.prsLine n).rec_.any fun r => r.done (s.prsLine n)

/-- CAPTURE_COMPLETE: the partial word and the header are written (R337, R340 to R342). -/
def execCaptureComplete (n : Fin 3) (s : State) : Out :=
  whenever s (s.sys.runDmi && s.captureReady n) fun s => s.prsComplete n

/-- CAPTURE_RELEASE: a write of PRS_TRGn.REL (R337). -/
def execCaptureRelease (i : Initiator) (n : Fin 3) (s : State) : Out := whenPowered s fun s => s.trgWrite i n 1

/-- A window of this source is open and may end: a drive window lasts while its pulse runs (R332). -/
def State.windowOpen (s : State) (src : BlankSource) : Bool := (s.prs.nextWin src).isSome

/-- BLANK_WINDOW_END: of the source's windows the one whose end comes first (R332, R333), DESIGN CHOICE (log 69). -/
def execBlankWindowEnd (src : BlankSource) (s : State) : Out :=
  whenever s (s.windowOpen src) fun s => s.blankEnd src

/-- COMPARATOR_CONFIG_WRITE: a write of CMP_CFGc, posted and completed (R14, R330). -/
def execComparatorConfigWrite (i : Initiator) (c : Fin 8) (v : Word) (s : State) : Out :=
  whenPowered s fun s => s.writeThrough i (0x40008000 + 4 * c.val) v

/-- COMPARATOR_TEST_WRITE: a write of CMP_TEST, posted and completed (R14, R335). -/
def execComparatorTestWrite (i : Initiator) (v : Word) (s : State) : Out :=
  whenPowered s fun s => s.writeThrough i 0x4000802C v

end Sys2Proof.Machine
end

