-- ==== Sys2Proof/Machine/Tempo.lean ====
section
/-!
DEFINITION. The commands of tempo: its start and failure, reads and writes of its registers, the match, a root's PPS and the
quality tick (11, R538).
-/

namespace Sys2Proof.Machine

/-- A core with SRC 1 or 2 takes up what XT32 and XO32M now offer, whether its clock runs or not (R538). -/
def State.coreReturn (s : State) : State :=
  if s.sys.src == 0 || !s.xt32Runs then s
  else s.modSys fun x => { x with curSrc := if x.src = 2 ∧ x.xoRun then 2 else 1 }

/-- TEMPO_START: the first XT32 edge after a cold start; a core that waits for the FLL moves to it (R121, R345, R538). -/
def execTempoStart (s : State) : Out :=
  whenever s (!s.tmp.counting) fun s =>
    let s := s.modTmp fun t => { t with counting := true, now := 0, frac := 0, phase := 0 }
    if s.eng.stopped then s else s.coreSwitch

/-- XT32_START_TIMEOUT: tempo starts on the RC oscillator (R370). -/
def execXt32StartTimeout (s : State) : Out :=
  whenever s (!s.tmp.counting) fun s =>
    s.modTmp fun t => { t with counting := true, now := 0, frac := 0, phase := 0, xtfail := true }

/-- The discipline starts again in FREE_RUN (R359, R365). -/
def Tmp.freeRun (t : Tmp) : Tmp := { t with disc := .freeRun, ppsEdges := 0, rejected := none }

/-- XT32_FAIL: tempo goes on from the RC oscillator, and a core on the FLL, stopped or not, falls back (R369, R538). -/
def execXt32Fail (s : State) : Out :=
  whenever s (s.tmp.counting && !s.tmp.xtfail) fun s =>
    let s := s.modTmp fun t => { t.unsync.freeRun with xtfail := true }
    if s.sys.curSrc = 1 then s.coreFall else s

/-- XT32_RECOVER: 256 good periods (R369, R370, R538). -/
def execXt32Recover (s : State) : Out :=
  whenever s s.tmp.xtfail fun s => (s.modTmp fun t => { t.freeRun with xtfail := false }).coreReturn

/-- TMP_NOW_READ: a read of TMP_NOW_LO at an instant that the interpolator captures (R347, R349, R350). -/
def execTmpNowRead (i : Initiator) (rd : Fin 16) (ph : Ring) (s : State) : Out :=
  whenPowered s fun s => (s.atPhase ph).readBy i rd 0x40004000

/-- TMP_OFFS_READ: a read of TMP_OFFS_LO (R348). -/
def execTmpOffsRead (i : Initiator) (rd : Fin 16) (s : State) : Out :=
  whenPowered s fun s => s.readBy i rd 0x4000400C

/-- TMP_OFFS_STAGE: a write of TMP_OFFS_LO, posted and completed (R14, R355). -/
def execTmpOffsStage (i : Initiator) (v : Word) (s : State) : Out :=
  whenPowered s fun s => s.writeThrough i 0x4000400C v

/-- TMP_OFFS_SET: a write of TMP_OFFS_HI, posted and completed (R14, R355, R366). -/
def execTmpOffsSet (i : Initiator) (v : Word) (s : State) : Out :=
  whenPowered s fun s => s.writeThrough i 0x40004010 v

/-- TIME_SOURCE_CHANGE: a write of TMP_QUAL with this SRC and the match as it stands (R357). -/
def execTimeSourceChange (i : Initiator) (src : BitVec 2) (s : State) : Out :=
  whenPowered s fun s => s.writeThrough i 0x40004014 (place src.toNat 28 ||| placeB s.tmp.marm 23)

/-- MATCH_ARM: a write of TMP_MATCH, posted and completed (R14, R367). -/
def execMatchArm (i : Initiator) (v : Word) (s : State) : Out :=
  whenPowered s fun s => s.writeThrough i 0x40004018 v

/-- MATCH_DISARM: a write of TMP_QUAL with MARM = 0 and SRC as it stands (R367). -/
def execMatchDisarm (i : Initiator) (s : State) : Out :=
  whenPowered s fun s => s.writeThrough i 0x40004014 (place s.tmp.src.toNat 28)

/-- The match fires (R331, R332, R367). -/
def State.fireMatch (s : State) : State :=
  let s := (s.modTmp fun t => { t with marm := false }).event 11
  (s.latchPeriod 3 fun _ => true).blankStart .tmpMatch (16000 * 2 ^ fld s.prs.blank 28 4)

/-- TMP_MATCH: at an XT32 edge at which the armed value lies 0 to 2^31 - 1 units in the past (R367, R368). -/
def execTmpMatch (s : State) : Out := whenever s s.tmp.matches State.fireMatch

/-- An edge of GP0 is captured, and one that is not too soon disciplines plant time (R351, R365). -/
def State.ppsTake (s : State) : State :=
  let l := s.local
  if edgeTooSoon s.tmp.gp0At l then s else s.modTmp fun t => ({ t with gp0At := some l } : Tmp).ppsAt l

/-- PPS_EDGE: a rising edge of GP0 under SRC PPS (R351, R365, R369). -/
def execPpsEdge (ph : Ring) (s : State) : Out :=
  whenever s (s.tmp.src == 2 && s.tmp.counting && !s.tmp.xtfail) fun s => (s.atPhase ph).ppsTake

/-- TIME_QUALITY_TICK: a local superframe tick; a node that lost its parent scans again (R127, R363, R364, R417, R422). -/
def execTimeQualityTick (s : State) : Out := whenever s s.tmp.counting fun s => s.localTick.startIslands

/-- TRACE_LOSS: no PPS edge has been accepted for 4 s (R365). -/
def execTraceLoss (s : State) : Out :=
  whenever s (s.tmp.src == 2 && s.tmp.trace) fun s => s.modTmp fun t => { t with trace := false }

end Sys2Proof.Machine
end

