-- ==== Sys2Proof/Machine/Radio.lean ====
section
/-!
DEFINITION. The commands of the radio and of the MAC (12, 13, 14).
-/

namespace Sys2Proof.Machine

/-! ## The radio -/

/-- FRAME_RECEIVE (R371 to R373, R454 to R459). -/
def execFrameReceive (f : RxFrame) (s : State) : Out := whenever s (s.receiving && s.hears f) fun s => s.rxFrame f

/-- A transmission of the slot is due, and its listen, if it has one, found the channel free (R384, R387). -/
def State.keyupDue (s : State) : Bool :=
  s.sys.runRad && s.macx.serving.transmits && (!s.macx.listens || s.macx.lbtOk)

/-- KEYUP: the slot's transmission; the capture of its SFD ends at the XT32 edge `edges` after the next (R381, R384, R385,
R404), DEDUCED (log 67). -/
def execKeyup (sfd : Ring) (edges : Nat) (s : State) : Out :=
  whenever s s.keyupDue fun s => (s.sfdCapture (edges + 1) sfd).keyUp

/-- The slot's listen is under way (R387). -/
def State.listening (s : State) : Bool :=
  s.sys.runRad && s.macx.listens && s.macx.serving.transmits && s.rad.state == .listen && !s.macx.lbtOk

/-- LBT_LISTEN_END: the greatest RSSI of the listen and whether an SFD was seen (R387). -/
def execLbtListenEnd (rssi : Int) (sfd : Bool) (s : State) : Out := whenever s s.listening fun s => s.listenEnd rssi sfd

/-- DWELL_SUBWINDOW: a boundary of the limiter's sub-windows (R383, R386, R392). -/
def execDwellSubwindow (s : State) : Out :=
  whenever s (s.rad.windows && s.tmp.counting) fun s => s.modRad Rad.subWindow

/-- DWELL_CONFIG: a write of RAD_DWELL (R386, R392). -/
def execDwellConfig (i : Initiator) (v : Word) (s : State) : Out := whenPowered s fun s => s.writeBy i 0x4000900C v

/-- RADIO_TEST: a write of RAD_CTL (R486). -/
def execRadioTest (i : Initiator) (v : Word) (s : State) : Out := whenPowered s fun s => s.writeBy i 0x40009000 v

/-! ## Slots and superframes -/

/-- SLOT_EVENT: 2 ms before a cell with EV (R403). -/
def execSlotEvent (s : State) : Out := whenever s (s.macRuns && s.pickEv (s.asnNow + 1)) fun s => s.event 1

/-- RADIO_PREWAKE: before a cell or its listen (R127, R403). -/
def execRadioPrewake (s : State) : Out :=
  whenever s (s.macRuns && (s.pickCell (s.asnNow + 1)).isSome) fun s =>
    (s.modMacx fun x => { x with prewake := true }).startIslands

/-- SLOT_START: plant time has reached a slot later than the latest begun; no ASN is repeated (R40, R395, R401, R410). -/
def execSlotStart (s : State) : Out :=
  whenever s (s.macRuns && asnAfter s.asn s.macx.slotAsn) fun s => s.slotBegin s.asn

/-- SUPERFRAME_BOUNDARY; a node that lost its parent scans again, for which it needs the radio (R127, R212, R331, R394, R402,
R417, R422, R445). -/
def execSuperframeBoundary (s : State) : Out := whenever s s.macRuns fun s => s.superframe.startIslands

/-- ACK_TRANSMIT: 500 us after an accepted frame (R381, R384, R404, R435). -/
def execAckTransmit (sfd : Ring) (edges : Nat) (s : State) : Out :=
  match s.macx.ack with
  | none => whenever s false id
  | some a => whenever s s.sys.runRad fun s => (s.sfdCapture (edges + 1) sfd).ackSend a

/-- ACK_TIMEOUT (R415, R423, R436, R448). -/
def execAckTimeout (s : State) : Out :=
  match s.macx.attempt with
  | none => whenever s false id
  | some a => whenever s true fun s => s.ackLost a

/-- RX_WINDOW_TIMEOUT (R407, R415). -/
def execRxWindowTimeout (s : State) : Out :=
  whenever s (s.macx.serving.receives && s.rad.state == .receive) State.rxLost

/-- A scan cycle ends: SCANDONE, the next channel, and the pause of SCANGAP (R420). -/
def State.scanEnd (s : State) : State :=
  let s := s.modMac fun m => { m with scandone := true }
  let c := (s.macx.scanChan + 1) % 3
  if s.mac.scanGap = 0 then s.scanFrom c
  else (s.modMacx fun x => { x with scanChan := c, scanPause := true }).setRad .idle

/-- SCAN_CYCLE_END (R420). -/
def execScanCycleEnd (s : State) : Out := whenever s (s.scanning && !s.macx.scanPause) State.scanEnd

/-- SCAN_RESUME: the MAC needs the radio again (R127, R420). -/
def execScanResume (s : State) : Out :=
  whenever s (s.scanning && s.macx.scanPause) fun s => (s.scanFrom s.macx.scanChan).startIslands

/-! ## Modes, links and tables -/

/-- A write of MAC_CTL with this MODE and the other fields as they are. -/
def State.modeWrite (s : State) (i : Initiator) (mode : Nat) : State := s.writeBy i 0x4000A000 (putFld s.mac.ctl 0 2 mode)

/-- MAC_MODE_OFF (R424, R450). -/
def execMacModeOff (i : Initiator) (s : State) : Out := whenPowered s fun s => s.modeWrite i 0

/-- MAC_MODE_NODE (R420, R424). -/
def execMacModeNode (i : Initiator) (s : State) : Out := whenPowered s fun s => s.modeWrite i 1

/-- MAC_MODE_ROOT (R424). -/
def execMacModeRoot (i : Initiator) (s : State) : Out := whenPowered s fun s => s.modeWrite i 2

def tabDataAddr : Nat := 0x4000A030

/-- MAC_TABSEL names word 0 of a link entry (R426). -/
def State.selectsLink (s : State) (l : Fin 16) : Bool := s.mac.table == 2 && s.mac.index == 6 * l.val

/-- A write of the link's word 0, which MAC_TABSEL names (R425 to R427). -/
def State.linkWord (s : State) (i : Initiator) (l : Fin 16) (f : Word → Word) : Out :=
  whenever s (s.selectsLink l) fun s => s.writeBy i tabDataAddr (f (s.link l).word0)

/-- LINK_LISTEN: STATE LISTEN with PARENT 1 (R422, R425). -/
def execLinkListen (i : Initiator) (l : Fin 16) (s : State) : Out :=
  s.linkWord i l fun w => putFld (putFld w 30 2 1) 29 1 1

/-- LINK_ACTIVATE: STATE ACTIVE (R425). -/
def execLinkActivate (i : Initiator) (l : Fin 16) (s : State) : Out := s.linkWord i l fun w => putFld w 30 2 2

/-- LINK_OFF: STATE OFF (R425, R450). -/
def execLinkOff (i : Initiator) (l : Fin 16) (s : State) : Out := s.linkWord i l fun w => putFld w 30 2 0

/-- LINK_MAP_PEND: PEND 1 (R412). -/
def execLinkMapPend (i : Initiator) (l : Fin 16) (s : State) : Out := s.linkWord i l fun w => putFld w 28 1 1

/-- MAC_TABLE_WRITE: a write of MAC_TABDAT (R400, R426 to R428, R442, R457, R459). -/
def execMacTableWrite (i : Initiator) (v : Word) (s : State) : Out := whenPowered s fun s => s.writeBy i tabDataAddr v

/-- ASN_READ: a read of MAC_ASN_LO (R394). -/
def execAsnRead (i : Initiator) (rd : Fin 16) (s : State) : Out := whenPowered s fun s => s.readBy i rd 0x4000A008

end Sys2Proof.Machine
end

