-- ==== Sys2Proof/Machine/Security.lean ====
section
/-!
DEFINITION. The commands of the key slots, the ROM services, lifecycle and rollback, OTP, authenticated debug (15, R116), and the
performance counters (16).
-/

namespace Sys2Proof.Machine

/-! ## Key operations (R465 to R470) -/

/-- A write of SEC_KEYSEL. -/
def State.keyWrite (s : State) (i : Initiator) (op : Nat) (slot : Fin 16) (neigh buf : Nat) : State :=
  s.writeBy i 0x4000B008 (place op 29 ||| place buf 14 ||| place neigh 9 ||| place slot.val 4)

/-- UNWRAP (R470). -/
def execUnwrap (i : Initiator) (slot : Fin 16) (buf : BitVec 15) (s : State) : Out :=
  whenPowered s fun s => s.keyWrite i 1 slot s.sec.selNeigh.toNat buf.toNat

/-- ERASE (R470). -/
def execErase (i : Initiator) (slot : Fin 16) (s : State) : Out :=
  whenPowered s fun s => s.keyWrite i 2 slot s.sec.selNeigh.toNat s.sec.selBuf.toNat

/-- BIND (R470). -/
def execBind (i : Initiator) (slot : Fin 16) (neigh : BitVec 5) (s : State) : Out :=
  whenPowered s fun s => s.keyWrite i 3 slot neigh.toNat s.sec.selBuf.toNat

/-- KEYSTORE_COMMIT_DONE (R467). -/
def execKeystoreCommitDone (ok : Bool) (s : State) : Out := whenever s s.sec.commit fun s => s.keyCommitDone ok

/-! ## ROM services (R488) -/

/-- A shuttle at S privilege has jumped to the service at this address, and the crypto engine works (R482, R488). -/
def State.calls (s : State) (i : Fin 4) (a : Word) : Bool :=
  s.coreRuns && (s.sh i).en && (s.sh i).run == .ready && !s.user i && (s.sh i).pc == a && s.sec.stok

/-- The service runs; an interrupt that is due at its first instruction is taken first (R141, R145). -/
def State.service (s : State) (i : Fin 4) (f : State → Fin 4 → State) : State :=
  match s.irq i with
  | some e => s.interrupt i e
  | none => f s i

/-- SHA256 (R488). -/
def execSha256 (sh : Fin 4) (s : State) : Out := whenever s (s.calls sh 0x100) fun s => s.service sh State.svcSha

/-- ECDSA_VERIFY (R488). -/
def execEcdsaVerify (sh : Fin 4) (s : State) : Out := whenever s (s.calls sh 0x108) fun s => s.service sh State.svcVerify

/-- ECDH_GEN (R483, R488). -/
def execEcdhGen (sh : Fin 4) (s : State) : Out := whenever s (s.calls sh 0x110) fun s => s.service sh State.svcGen

/-- ECDH_SLOT (R470, R488). -/
def execEcdhSlot (sh : Fin 4) (s : State) : Out := whenever s (s.calls sh 0x118) fun s => s.service sh State.svcSlot

/-! ## Entropy, lifecycle, rollback and OTP (R461 to R464, R481 to R485) -/

/-- TRNG_READ: a read of SEC_TRNG (R483). -/
def execTrngRead (i : Initiator) (rd : Fin 16) (s : State) : Out := whenPowered s fun s => s.readBy i rd 0x4000B01C

/-- ENTROPY_FAILURE: a health test fails (R483). -/
def execEntropyFailure (s : State) : Out :=
  whenever s s.sec.entok fun s => s.modSec fun c => { c with entok := false }

/-- A keyed write of SYS_LIFECYCLE. -/
def State.lifeKeyed (s : State) (i : Initiator) (v : Word) : State := s.writeBy i 0x4000000C (0x1FE00000 ||| v)

/-- LIFECYCLE_TRANSITION (R484). -/
def execLifecycleTransition (i : Initiator) (req : BitVec 2) (s : State) : Out :=
  whenPowered s fun s => s.lifeKeyed i (place req.toNat 4)

/-- DBGLOCK: REQ equal to STATE asks for no transition (R485). -/
def execDbglock (i : Initiator) (s : State) : Out :=
  whenPowered s fun s => s.lifeKeyed i (place 1 6 ||| place s.lifecycle 4)

/-- The shuttles that were BUSY for a burn go on. -/
def State.burnLand (s : State) (rollback : Bool) : State :=
  (upTo 4).foldl (fun s i => if (s.sh i).busyOn = some (.burn rollback) then s.land i else s) s

/-- FUSE_BURN_DONE (R484, R485, R537). -/
def execFuseBurnDone (s : State) : Out :=
  match s.secx.burn with
  | none => whenever s false id
  | some b => whenever s true fun s => (s.burnDone b).burnLand false

/-- ROLLBACK_BURN: a write of SEC_ROLLBACK (R481). -/
def execRollbackBurn (i : Initiator) (level : BitVec 6) (s : State) : Out :=
  whenPowered s fun s => s.writeBy i 0x4000B014 (place level.toNat 0)

/-- ROLLBACK_BURN_DONE (R481). -/
def execRollbackBurnDone (s : State) : Out :=
  match s.secx.rollback with
  | none => whenever s false id
  | some (l, _) => whenever s true fun s => (s.rollbackDone l).burnLand true

/-- OTP_PROGRAM: by the debug port, as the lifecycle allows (R461, R464, R486). -/
def execOtpProgram (off : Nat) (v : Word) (s : State) : Out := whenPowered s fun s => s.otpProgram off v

/-! ## Authenticated debug (R116, R487) -/

def dbgAuthAddr : Nat := 0x4000B018

/-- DEBUG_CHALLENGE (R487). -/
def execDebugChallenge (v : BitVec 16) (s : State) : Out :=
  whenPowered s fun s => s.debugWrite dbgAuthAddr 4 (BitVec.ofNat 64 (0xD0C00000 + v.toNat))

/-- DEBUG_CHALLENGE_READ (R487). -/
def execDebugChallengeRead (s : State) : Out := whenPowered s fun s => s.debugRead dbgAuthAddr 4

/-- DEBUG_RESPONSE_WORD (R487). -/
def execDebugResponseWord (v : Word) (s : State) : Out :=
  whenPowered s fun s => s.debugWrite dbgAuthAddr 4 (v.setWidth 64)

/-- DEBUG_VERIFY: the engine verifies the response, unless its self-tests failed (R482, R487). -/
def execDebugVerify (s : State) : Out := whenever s (s.sec.dbgst == .verify && s.sec.stok) State.dbgVerify

/-- The debug port may halt and resume shuttles: open, or authenticated with SCOPE bit 0 (R486, R487). -/
def State.debugHalts (s : State) : Bool :=
  s.lifecycle != 2 || !s.dbgLock || (s.sec.dbgOpen && s.sec.scope.getLsbD 0)

/-- DEBUG_HALT: a shuttle that runs or waits stops in state DEBUG at its next instruction (R118). -/
def execDebugHalt (sh : Fin 4) (s : State) : Out :=
  whenever s (s.debugHalts && ((s.sh sh).run == .ready || (s.sh sh).run == .wait)) fun s =>
    s.coreStart.modSh sh fun x => { x with run := .debug }

/-- DEBUG_RESUME: a shuttle in DEBUG, or one that HALT stopped, goes on at its pc (R116). -/
def execDebugResume (sh : Fin 4) (s : State) : Out :=
  whenever s (s.debugHalts && ((s.sh sh).run == .debug || (s.sh sh).run == .halted)) fun s =>
    s.coreStart.modSh sh fun x => { x with run := .ready }

/-! ## Performance counters (R493, R496, R499, R500) -/

/-- GATHER_TRANSFER: an island's gathered counts arrive (R496). -/
def execGatherTransfer (isl : GatherIsland) (s : State) : Out := whenPowered s fun s => s.gather isl

/-- PRF_FREEZE: a write of PRF_CTL with this FROZEN and the rest as it is (R499). -/
def execPrfFreeze (i : Initiator) (frozen : Bool) (s : State) : Out :=
  whenPowered s fun s => s.writeBy i 0x4000C000 (putFld (putFld s.prf.ctl 9 1 0) 30 1 (b2n frozen))

/-- PRF_SELECT_WRITE: a write of PRF_SELm (R12, R493). -/
def execPrfSelectWrite (i : Initiator) (m : Fin 4) (v : Word) (s : State) : Out :=
  whenPowered s fun s => s.writeBy i (0x4000C030 + 4 * m.val) v

end Sys2Proof.Machine
end

