-- ==== Sys2Proof/Machine/Chain.lean ====
section
/-!
DEFINITION. The commands of the selvedge chain (17).
-/

namespace Sys2Proof.Machine

/-! ## Roles and enumeration -/

/-- CHAIN_STRAP_SAMPLE: once after each reset (R504). -/
def execChainStrapSample (low : Bool) (s : State) : Out := whenever s (!s.lnk.sampled) fun s => s.strapSample low

/-- ENUM_REQ: sent by a member without a position, answered by a chip with one (R509). -/
def execEnumReq (crcOk : Bool) (s : State) : Out :=
  whenPowered s fun s => s.linkFrame .down crcOk State.enumRequest

/-- ENUM_ANS at a member (R509). -/
def execEnumAns (crcOk valid : Bool) (pos : BitVec 5) (s : State) : Out :=
  whenPowered s fun s => s.linkFrame .up crcOk fun s => s.enumAnswer valid pos

/-- HWMSG (R508, R516). -/
def execHwmsg (crcOk : Bool) (pos : BitVec 5) (w : Word) (s : State) : Out :=
  whenPowered s fun s => s.linkFrame .down crcOk fun s => s.hwFrame pos w

/-- The READ of SYS_ID to position `p` goes onto the segment (R511). -/
def probeFrame (p : Nat) : LinkFrame := { dir := .down, type := 4, pos := BitVec.ofNat 5 p, payload := [0] }

/-- CHAIN_PROBE: SYS_ID is read at positions 1, 2 and so on; positions 1 to `answering` answer, and the next does not
(R511). -/
def execChainProbe (answering : Nat) (s : State) : Out :=
  whenever s s.isHead fun s => s.modLnk fun l => { l with
    count := BitVec.ofNat 6 (min 32 (answering + 1)),
    sent := ((List.range (min 31 (answering + 1))).map fun k => probeFrame (k + 1)).reverse ++ l.sent }

/-! ## Remote accesses -/

/-- READ at a member (R508, R513). -/
def execRead (crcOk : Bool) (pos : BitVec 5) (off : BitVec 18) (s : State) : Out :=
  whenPowered s fun s => s.linkFrame .up crcOk fun s => s.memberRead pos off

/-- WRITE at a member (R508, R513). -/
def execWrite (crcOk : Bool) (pos : BitVec 5) (off : BitVec 18) (w : Word) (s : State) : Out :=
  whenPowered s fun s => s.linkFrame .up crcOk fun s => s.memberWrite pos off w

/-- RDATA (R508, R513, R514). -/
def execRdata (crcOk : Bool) (pos : BitVec 5) (cause : BitVec 4) (w : Word) (s : State) : Out :=
  whenPowered s fun s => s.linkFrame .down crcOk fun s => s.rdataFrame pos cause w

/-- WACK (R508, R513, R514). -/
def execWack (crcOk : Bool) (pos : BitVec 5) (cause : BitVec 4) (s : State) : Out :=
  whenPowered s fun s => s.linkFrame .down crcOk fun s => s.wackFrame pos cause

/-- REMOTE_ACCESS_TIMEOUT: no valid response within 2 ms (R514, R517). -/
def execRemoteAccessTimeout (s : State) : Out := whenever s (!s.lnk.remotes.isEmpty) State.remoteTimeout

/-! ## Mailboxes -/

/-- TXBOX_WRITE: a write of LNK_TXBOX (R515). -/
def execTxboxWrite (i : Initiator) (v : Word) (s : State) : Out := whenPowered s fun s => s.writeBy i 0x4000D00C v

/-- SEND: a write of LNK_CTL with SEND = 1 and the rest as it is (R515). -/
def execSend (i : Initiator) (s : State) : Out := whenPowered s fun s => s.writeBy i 0x4000D000 (putFld s.lnk.ctl 7 1 1)

/-- FLUSH: a write of LNK_CTL with FLUSH = 1 and the rest as it is (17 LNK_CTL). -/
def execFlush (i : Initiator) (s : State) : Out := whenPowered s fun s => s.writeBy i 0x4000D000 (putFld s.lnk.ctl 6 1 1)

/-- MSG that travels up or down (R508, R515, R517). -/
def execMsg (crcOk up : Bool) (pos : BitVec 5) (ws : List Word) (s : State) : Out :=
  whenPowered s fun s => s.linkFrame (arrives up) crcOk fun s => s.msgFrame up pos ws

/-- MACK that travels up or down (R508, R515). -/
def execMack (crcOk up : Bool) (pos : BitVec 5) (status : BitVec 4) (s : State) : Out :=
  whenPowered s fun s => s.linkFrame (arrives up) crcOk fun s => s.mackFrame up pos status

/-- MAILBOX_LOST: no valid MACK within 2 ms (R515). -/
def execMailboxLost (s : State) : Out := whenever s (s.lnk.txst == 1) fun s => s.sendEnds 5

/-- RXBOX_READ: a read of LNK_RXBOX (R516). -/
def execRxboxRead (i : Initiator) (rd : Fin 16) (s : State) : Out := whenPowered s fun s => s.readBy i rd 0x4000D010

/-! ## Shared time -/

/-- SYNC_PULSE of a head with SYNCEN 1 (R518). -/
def execSyncPulse (ph : Ring) (s : State) : Out :=
  whenever s (s.isHead && bit s.lnk.ctl 3) fun s => (s.atPhase ph).syncPulse

/-- SYNC_EDGE at a member (R351, R519). -/
def execSyncEdge (ph : Ring) (s : State) : Out := whenever s (!s.isHead) fun s => (s.atPhase ph).syncEdge

/-- TIME (R508, R519 to R521). -/
def execTime (crcOk : Bool) (plant : BitVec 64) (qual : Word) (s : State) : Out :=
  whenPowered s fun s => s.linkFrame .up crcOk fun s => s.timeFrame plant qual

/-- SYNC_PAIR_TIMEOUT: no TIME frame within 1 ms of the edge (R519). -/
def execSyncPairTimeout (s : State) : Out :=
  whenever s s.lnk.edge.isSome fun s => (s.modLnk fun l => { l with edge := none }).syncError

/-- LINK_TIMEOUT: no valid TIME frame for two superframes of local time (R517, R521). -/
def execLinkTimeout (s : State) : Out :=
  whenever s (s.lnk.linkup && !s.isHead) fun s =>
    (s.modLnk fun l => { l with linkup := false, linkdn := true }).chainEvent 2

end Sys2Proof.Machine
end

