-- ==== Sys2Proof/Machine/Period.lean ====
section
/-!
DEFINITION. What happens while no command waits: one XT32 period passes. Tempo advances (R345, R346), the windows that the
spec measures in one XT32 period end (R105, R331), the boot ROM's requests appear (R462), waiting frames of the chain go (R507), and the level counts of the islands'
conditions grow (R491, R495).
-/

namespace Sys2Proof.Machine

/-- Island clock cycles of one XT32 period: a period is 15625 / 16 cycles at `mul` = 1, so over 16 periods none is lost
(R495: 31.25 ns is 32 MHz and 15.625 ns is 64 MHz; R345: XT32 is 32,768 Hz). -/
def islandCycles (per mul : Nat) : Nat := 15625 * mul * (per + 1) / 16 - 15625 * mul * per / 16

/-- The level counts that one XT32 period adds (R491, R495): RX_ON, PULSE_ACTIVE, ADMIT_WAIT, FLOW_MEAS, CHG_ACTIVE and
BOOST_ON. TX_ON is counted with the transmission itself. -/
def State.levelCounts (s : State) : State :=
  let rad := islandCycles s.prf.per 1
  let dmi := islandCycles s.prf.per 2
  let held (s : State) (c : Bool) (ev k : Nat) : State := if c then s.count ev none .cycles k else s
  let s := { s with prf := { s.prf with per := (s.prf.per + 1) % 16 } }
  let s := held s (s.sys.runRad && (s.rad.state == .listen || s.rad.state == .receive)) 0x24 rad
  let s := held s (s.sys.runDmi && !s.drv.allRuns.isEmpty) 0x33 dmi
  let s := held s (s.sys.runDmi && s.drv.allQueued.any fun e => e.waiting) 0x34 dmi
  let s := held s (s.sys.runDmi && s.flw.meas.isSome) 0x3B dmi
  let s := held s s.nrg.chg.active 0x42 1
  held s s.nrgx.boostOn 0x43 1

/-- The boot ROM, once it runs, asks for the DMI, and for the Radio island when RFREG is programmed (R390, R462, 03). -/
def State.romRequests (s : State) : State :=
  if s.sys.power = .boot ∧ !s.sys.coreStopped then
    s.modSys fun x => { x with reqDmi := true, reqRad := s.otp 0x14 != 0 }
  else s

/-- One XT32 period of a node without a command (R105, R331, R345, R346, R462, R507). -/
def State.period (s : State) : State :=
  if s.powered then
    let s := s.romRequests.levelCounts
    let s := s.modSys fun x => { x with rstRecent := false }
    let s := s.modPrs fun p => { p with cmp := p.cmp.map fun c => { c with recent := false } }
    (s.modLnk Lnk.idle).modTmp Tmp.edge
  else s

end Sys2Proof.Machine
end

