-- ==== Sys2Proof/Machine/Dispatch.lean ====
section
/-!
DEFINITION. One arm per command: each calls the meaning of its row.
-/

namespace Sys2Proof.Machine

def exec (i : Instr) (s : State) : Host.Outcome State Fault Refusal :=
  match i with
  | .add sh rd ra rb => Sys2Proof.Machine.execAdd sh rd ra rb s
  | .sub sh rd ra rb => Sys2Proof.Machine.execSub sh rd ra rb s
  | .and sh rd ra rb => Sys2Proof.Machine.execAnd sh rd ra rb s
  | .or sh rd ra rb => Sys2Proof.Machine.execOr sh rd ra rb s
  | .xor sh rd ra rb => Sys2Proof.Machine.execXor sh rd ra rb s
  | .shl sh rd ra rb => Sys2Proof.Machine.execShl sh rd ra rb s
  | .shr sh rd ra rb => Sys2Proof.Machine.execShr sh rd ra rb s
  | .sra sh rd ra rb => Sys2Proof.Machine.execSra sh rd ra rb s
  | .slt sh rd ra rb => Sys2Proof.Machine.execSlt sh rd ra rb s
  | .sltu sh rd ra rb => Sys2Proof.Machine.execSltu sh rd ra rb s
  | .min sh rd ra rb => Sys2Proof.Machine.execMin sh rd ra rb s
  | .max sh rd ra rb => Sys2Proof.Machine.execMax sh rd ra rb s
  | .minu sh rd ra rb => Sys2Proof.Machine.execMinu sh rd ra rb s
  | .maxu sh rd ra rb => Sys2Proof.Machine.execMaxu sh rd ra rb s
  | .clz sh rd ra => Sys2Proof.Machine.execClz sh rd ra s
  | .popc sh rd ra => Sys2Proof.Machine.execPopc sh rd ra s
  | .adds sh rd ra rb => Sys2Proof.Machine.execAdds sh rd ra rb s
  | .subs sh rd ra rb => Sys2Proof.Machine.execSubs sh rd ra rb s
  | .mul sh rd ra rb => Sys2Proof.Machine.execMul sh rd ra rb s
  | .mulh sh rd ra rb => Sys2Proof.Machine.execMulh sh rd ra rb s
  | .mulhu sh rd ra rb => Sys2Proof.Machine.execMulhu sh rd ra rb s
  | .div sh rd ra rb => Sys2Proof.Machine.execDiv sh rd ra rb s
  | .divu sh rd ra rb => Sys2Proof.Machine.execDivu sh rd ra rb s
  | .rem sh rd ra rb => Sys2Proof.Machine.execRem sh rd ra rb s
  | .remu sh rd ra rb => Sys2Proof.Machine.execRemu sh rd ra rb s
  | .macs sh rd ra rb => Sys2Proof.Machine.execMacs sh rd ra rb s
  | .macu sh rd ra rb => Sys2Proof.Machine.execMacu sh rd ra rb s
  | .accclr sh => Sys2Proof.Machine.execAccclr sh s
  | .addi sh rd ra imm => Sys2Proof.Machine.execAddi sh rd ra imm s
  | .andi sh rd ra imm => Sys2Proof.Machine.execAndi sh rd ra imm s
  | .ori sh rd ra imm => Sys2Proof.Machine.execOri sh rd ra imm s
  | .xori sh rd ra imm => Sys2Proof.Machine.execXori sh rd ra imm s
  | .slti sh rd ra imm => Sys2Proof.Machine.execSlti sh rd ra imm s
  | .shli sh rd ra cnt => Sys2Proof.Machine.execShli sh rd ra cnt s
  | .shri sh rd ra cnt => Sys2Proof.Machine.execShri sh rd ra cnt s
  | .srai sh rd ra cnt => Sys2Proof.Machine.execSrai sh rd ra cnt s
  | .lui sh rd imm => Sys2Proof.Machine.execLui sh rd imm s
  | .ldw sh rd ra imm => Sys2Proof.Machine.execLdw sh rd ra imm s
  | .ldh sh rd ra imm => Sys2Proof.Machine.execLdh sh rd ra imm s
  | .ldhu sh rd ra imm => Sys2Proof.Machine.execLdhu sh rd ra imm s
  | .ldb sh rd ra imm => Sys2Proof.Machine.execLdb sh rd ra imm s
  | .ldbu sh rd ra imm => Sys2Proof.Machine.execLdbu sh rd ra imm s
  | .ldd sh rd ra imm => Sys2Proof.Machine.execLdd sh rd ra imm s
  | .stw sh rs ra imm => Sys2Proof.Machine.execStw sh rs ra imm s
  | .sth sh rs ra imm => Sys2Proof.Machine.execSth sh rs ra imm s
  | .stb sh rs ra imm => Sys2Proof.Machine.execStb sh rs ra imm s
  | .std sh rs ra imm => Sys2Proof.Machine.execStd sh rs ra imm s
  | .beq sh ra rb off => Sys2Proof.Machine.execBeq sh ra rb off s
  | .bne sh ra rb off => Sys2Proof.Machine.execBne sh ra rb off s
  | .blt sh ra rb off => Sys2Proof.Machine.execBlt sh ra rb off s
  | .bge sh ra rb off => Sys2Proof.Machine.execBge sh ra rb off s
  | .bltu sh ra rb off => Sys2Proof.Machine.execBltu sh ra rb off s
  | .bgeu sh ra rb off => Sys2Proof.Machine.execBgeu sh ra rb off s
  | .jal sh rd off => Sys2Proof.Machine.execJal sh rd off s
  | .jalr sh rd ra imm => Sys2Proof.Machine.execJalr sh rd ra imm s
  | .wait sh rd ra imm => Sys2Proof.Machine.execWait sh rd ra imm s
  | .waitComplete sh => Sys2Proof.Machine.execWaitComplete sh s
  | .post sh ra imm => Sys2Proof.Machine.execPost sh ra imm s
  | .trap sh imm => Sys2Proof.Machine.execTrap sh imm s
  | .eret sh => Sys2Proof.Machine.execEret sh s
  | .fence sh => Sys2Proof.Machine.execFence sh s
  | .fenceComplete sh => Sys2Proof.Machine.execFenceComplete sh s
  | .csrr sh rd csr => Sys2Proof.Machine.execCsrr sh rd csr s
  | .csrw sh ra csr => Sys2Proof.Machine.execCsrw sh ra csr s
  | .halt sh => Sys2Proof.Machine.execHalt sh s
  | .drv sh rd ra => Sys2Proof.Machine.execDrv sh rd ra s
  | .snap sh rd sel => Sys2Proof.Machine.execSnap sh rd sel s
  | .commit sh rd ra imm => Sys2Proof.Machine.execCommit sh rd ra imm s
  | .stamp sh rd plant ph => Sys2Proof.Machine.execStamp sh rd plant ph s
  | .crc sh rd ra imm => Sys2Proof.Machine.execCrc sh rd ra imm s
  | .interruptEntry sh => Sys2Proof.Machine.execInterruptEntry sh s
  | .shuttleStart ini sh => Sys2Proof.Machine.execShuttleStart ini sh s
  | .shuttleDisable ini sh => Sys2Proof.Machine.execShuttleDisable ini sh s
  | .issueTableApply => Sys2Proof.Machine.execIssueTableApply s
  | .coreClockRequest ini v => Sys2Proof.Machine.execCoreClockRequest ini v s
  | .coreClockSwitch => Sys2Proof.Machine.execCoreClockSwitch s
  | .xo32mStop => Sys2Proof.Machine.execXo32mStop s
  | .coreClockRestart => Sys2Proof.Machine.execCoreClockRestart s
  | .xo32mStable => Sys2Proof.Machine.execXo32mStable s
  | .islandStop isl => Sys2Proof.Machine.execIslandStop isl s
  | .crossingTimeout x => Sys2Proof.Machine.execCrossingTimeout x s
  | .postedWriteComplete ack => Sys2Proof.Machine.execPostedWriteComplete ack s
  | .registerWrite ini addr v => Sys2Proof.Machine.execRegisterWrite ini addr v s
  | .engVecbaseWrite ini v => Sys2Proof.Machine.execEngVecbaseWrite ini v s
  | .softwareReset ini v => Sys2Proof.Machine.execSoftwareReset ini v s
  | .wdogConfig ini low => Sys2Proof.Machine.execWdogConfig ini low s
  | .wdogKick ini low => Sys2Proof.Machine.execWdogKick ini low s
  | .wdogTimeout => Sys2Proof.Machine.execWdogTimeout s
  | .coldStart p => Sys2Proof.Machine.execColdStart p s
  | .brownoutReset => Sys2Proof.Machine.execBrownoutReset s
  | .pinReset => Sys2Proof.Machine.execPinReset s
  | .debugReset => Sys2Proof.Machine.execDebugReset s
  | .bootHandover selfTestOk entropyOk => Sys2Proof.Machine.execBootHandover selfTestOk entropyOk s
  | .writeBufferEntryWrite => Sys2Proof.Machine.execWriteBufferEntryWrite s
  | .eccInjectRequest ini v => Sys2Proof.Machine.execEccInjectRequest ini v s
  | .scrubRead mram => Sys2Proof.Machine.execScrubRead mram s
  | .pcommitImmediate ini seq => Sys2Proof.Machine.execPcommitImmediate ini seq s
  | .pcommitArm ini seq => Sys2Proof.Machine.execPcommitArm ini seq s
  | .persistBoundaryTick => Sys2Proof.Machine.execPersistBoundaryTick s
  | .persistCommitComplete => Sys2Proof.Machine.execPersistCommitComplete s
  | .cellMeasurement m => Sys2Proof.Machine.execCellMeasurement m s
  | .chargeTimerExpiry => Sys2Proof.Machine.execChargeTimerExpiry s
  | .lastact => Sys2Proof.Machine.execLastact s
  | .lastactNextClose => Sys2Proof.Machine.execLastactNextClose s
  | .lastactCloseSkip => Sys2Proof.Machine.execLastactCloseSkip s
  | .lastactDeadline begun => Sys2Proof.Machine.execLastactDeadline begun s
  | .lastactCutoff => Sys2Proof.Machine.execLastactCutoff s
  | .resetHoldEnd p => Sys2Proof.Machine.execResetHoldEnd p s
  | .lastactThresholdWrite ini v => Sys2Proof.Machine.execLastactThresholdWrite ini v s
  | .focvSampleStart teg20 => Sys2Proof.Machine.execFocvSampleStart teg20 s
  | .focvSample vpv => Sys2Proof.Machine.execFocvSample vpv s
  | .nrgBoundaryTick teg20 => Sys2Proof.Machine.execNrgBoundaryTick teg20 s
  | .tegTakeover => Sys2Proof.Machine.execTegTakeover s
  | .pvOvervoltage => Sys2Proof.Machine.execPvOvervoltage s
  | .pvOvervoltageClear => Sys2Proof.Machine.execPvOvervoltageClear s
  | .dcSupplyLoss => Sys2Proof.Machine.execDcSupplyLoss s
  | .dcSupplyRestore => Sys2Proof.Machine.execDcSupplyRestore s
  | .cellUvCutoff vcell => Sys2Proof.Machine.execCellUvCutoff vcell s
  | .cellReconnect vcell => Sys2Proof.Machine.execCellReconnect vcell s
  | .cellOvercurrentTrip => Sys2Proof.Machine.execCellOvercurrentTrip s
  | .cellSwitchReclose => Sys2Proof.Machine.execCellSwitchReclose s
  | .boostStart => Sys2Proof.Machine.execBoostStart s
  | .boostStop => Sys2Proof.Machine.execBoostStop s
  | .referenceRefresh => Sys2Proof.Machine.execReferenceRefresh s
  | .euseUpdate vres drawn => Sys2Proof.Machine.execEuseUpdate vres drawn s
  | .shipModeEnter ini v => Sys2Proof.Machine.execShipModeEnter ini v s
  | .reservoirDischarge ini v => Sys2Proof.Machine.execReservoirDischarge ini v s
  | .driveCommand ini w => Sys2Proof.Machine.execDriveCommand ini w s
  | .cancel ini valve => Sys2Proof.Machine.execCancel ini valve s
  | .release ini valve profile => Sys2Proof.Machine.execRelease ini valve profile s
  | .startPointScan vbsOk drawn => Sys2Proof.Machine.execStartPointScan vbsOk drawn s
  | .admitWaitExpiry t k => Sys2Proof.Machine.execAdmitWaitExpiry t k s
  | .boostEnd v tpeak => Sys2Proof.Machine.execBoostEnd v tpeak s
  | .boostTimeout v same => Sys2Proof.Machine.execBoostTimeout v same s
  | .peakEnd v rm => Sys2Proof.Machine.execPeakEnd v rm s
  | .holdEnd v rm => Sys2Proof.Machine.execHoldEnd v rm s
  | .endTimeout v => Sys2Proof.Machine.execEndTimeout v s
  | .pulseEnd v drawn ph => Sys2Proof.Machine.execPulseEnd v drawn ph s
  | .chopPeriod v chop legEdge trdEdges => Sys2Proof.Machine.execChopPeriod v chop legEdge trdEdges s
  | .tTurnEnd t => Sys2Proof.Machine.execTTurnEnd t s
  | .vresFloor mv same => Sys2Proof.Machine.execVresFloor mv same s
  | .drvResultRead ini rd => Sys2Proof.Machine.execDrvResultRead ini rd s
  | .valveTableWrite ini v word w => Sys2Proof.Machine.execValveTableWrite ini v word w s
  | .turnoffTimeout hb => Sys2Proof.Machine.execTurnoffTimeout hb s
  | .interlockRelease hb => Sys2Proof.Machine.execInterlockRelease hb s
  | .manualMode ini v => Sys2Proof.Machine.execManualMode ini v s
  | .switchControl ini leg sw => Sys2Proof.Machine.execSwitchControl ini leg sw s
  | .switchAutoOff => Sys2Proof.Machine.execSwitchAutoOff s
  | .bootstrapPrechargeEnd t ok => Sys2Proof.Machine.execBootstrapPrechargeEnd t ok s
  | .bootstrapRefresh t ok edges => Sys2Proof.Machine.execBootstrapRefresh t ok edges s
  | .bootstrapUvlo t => Sys2Proof.Machine.execBootstrapUvlo t s
  | .overcurrentTrip out => Sys2Proof.Machine.execOvercurrentTrip out s
  | .vresFastLimit v => Sys2Proof.Machine.execVresFastLimit v s
  | .vresov => Sys2Proof.Machine.execVresov s
  | .thermalShutdown => Sys2Proof.Machine.execThermalShutdown s
  | .thermalShutdownClear => Sys2Proof.Machine.execThermalShutdownClear s
  | .thermalWaitExpiry t k => Sys2Proof.Machine.execThermalWaitExpiry t k s
  | .coilThermalTick tdie meanMa rm => Sys2Proof.Machine.execCoilThermalTick tdie meanMa rm s
  | .offstateTest ini valve => Sys2Proof.Machine.execOffstateTest ini valve s
  | .testAll ini => Sys2Proof.Machine.execTestAll ini s
  | .offstateTestDone mv => Sys2Proof.Machine.execOffstateTestDone mv s
  | .flowDue n => Sys2Proof.Machine.execFlowDue n s
  | .flowPrewake n => Sys2Proof.Machine.execFlowPrewake n s
  | .flowStartRequest ini mask => Sys2Proof.Machine.execFlowStartRequest ini mask s
  | .flowMeasurementStart => Sys2Proof.Machine.execFlowMeasurementStart s
  | .flowShot o ph => Sys2Proof.Machine.execFlowShot o ph s
  | .flowResultPost => Sys2Proof.Machine.execFlowResultPost s
  | .flowZeroWrite ini n v => Sys2Proof.Machine.execFlowZeroWrite ini n v s
  | .pulseInputSample n p => Sys2Proof.Machine.execPulseInputSample n p s
  | .pulseCountWrite ini n v p => Sys2Proof.Machine.execPulseCountWrite ini n v p s
  | .pressureSample n uv ph => Sys2Proof.Machine.execPressureSample n uv ph s
  | .spotReading ini n => Sys2Proof.Machine.execSpotReading ini n s
  | .spotReadingDone n uv => Sys2Proof.Machine.execSpotReadingDone n uv s
  | .comparatorSample c uv => Sys2Proof.Machine.execComparatorSample c uv s
  | .comparatorTransition c uv ph => Sys2Proof.Machine.execComparatorTransition c uv ph s
  | .captureForce ini n ph => Sys2Proof.Machine.execCaptureForce ini n ph s
  | .captureComplete n => Sys2Proof.Machine.execCaptureComplete n s
  | .captureRelease ini n => Sys2Proof.Machine.execCaptureRelease ini n s
  | .blankWindowEnd src => Sys2Proof.Machine.execBlankWindowEnd src s
  | .comparatorConfigWrite ini c v => Sys2Proof.Machine.execComparatorConfigWrite ini c v s
  | .comparatorTestWrite ini v => Sys2Proof.Machine.execComparatorTestWrite ini v s
  | .tempoStart => Sys2Proof.Machine.execTempoStart s
  | .xt32StartTimeout => Sys2Proof.Machine.execXt32StartTimeout s
  | .xt32Fail => Sys2Proof.Machine.execXt32Fail s
  | .xt32Recover => Sys2Proof.Machine.execXt32Recover s
  | .tmpNowRead ini rd ph => Sys2Proof.Machine.execTmpNowRead ini rd ph s
  | .tmpOffsRead ini rd => Sys2Proof.Machine.execTmpOffsRead ini rd s
  | .tmpOffsStage ini v => Sys2Proof.Machine.execTmpOffsStage ini v s
  | .tmpOffsSet ini v => Sys2Proof.Machine.execTmpOffsSet ini v s
  | .timeSourceChange ini src => Sys2Proof.Machine.execTimeSourceChange ini src s
  | .matchArm ini v => Sys2Proof.Machine.execMatchArm ini v s
  | .matchDisarm ini => Sys2Proof.Machine.execMatchDisarm ini s
  | .tmpMatch => Sys2Proof.Machine.execTmpMatch s
  | .ppsEdge ph => Sys2Proof.Machine.execPpsEdge ph s
  | .timeQualityTick => Sys2Proof.Machine.execTimeQualityTick s
  | .frameReceive f => Sys2Proof.Machine.execFrameReceive f s
  | .keyup sfd edges => Sys2Proof.Machine.execKeyup sfd edges s
  | .lbtListenEnd rssi sfd => Sys2Proof.Machine.execLbtListenEnd rssi sfd s
  | .dwellSubwindow => Sys2Proof.Machine.execDwellSubwindow s
  | .dwellConfig ini v => Sys2Proof.Machine.execDwellConfig ini v s
  | .radioTest ini v => Sys2Proof.Machine.execRadioTest ini v s
  | .slotEvent => Sys2Proof.Machine.execSlotEvent s
  | .radioPrewake => Sys2Proof.Machine.execRadioPrewake s
  | .slotStart => Sys2Proof.Machine.execSlotStart s
  | .superframeBoundary => Sys2Proof.Machine.execSuperframeBoundary s
  | .ackTransmit sfd edges => Sys2Proof.Machine.execAckTransmit sfd edges s
  | .ackTimeout => Sys2Proof.Machine.execAckTimeout s
  | .rxWindowTimeout => Sys2Proof.Machine.execRxWindowTimeout s
  | .scanCycleEnd => Sys2Proof.Machine.execScanCycleEnd s
  | .scanResume => Sys2Proof.Machine.execScanResume s
  | .macModeOff ini => Sys2Proof.Machine.execMacModeOff ini s
  | .macModeNode ini => Sys2Proof.Machine.execMacModeNode ini s
  | .macModeRoot ini => Sys2Proof.Machine.execMacModeRoot ini s
  | .linkListen ini l => Sys2Proof.Machine.execLinkListen ini l s
  | .linkActivate ini l => Sys2Proof.Machine.execLinkActivate ini l s
  | .linkOff ini l => Sys2Proof.Machine.execLinkOff ini l s
  | .linkMapPend ini l => Sys2Proof.Machine.execLinkMapPend ini l s
  | .macTableWrite ini v => Sys2Proof.Machine.execMacTableWrite ini v s
  | .asnRead ini rd => Sys2Proof.Machine.execAsnRead ini rd s
  | .unwrap ini slot buf => Sys2Proof.Machine.execUnwrap ini slot buf s
  | .erase ini slot => Sys2Proof.Machine.execErase ini slot s
  | .bind ini slot neigh => Sys2Proof.Machine.execBind ini slot neigh s
  | .keystoreCommitDone ok => Sys2Proof.Machine.execKeystoreCommitDone ok s
  | .sha256 sh => Sys2Proof.Machine.execSha256 sh s
  | .ecdsaVerify sh => Sys2Proof.Machine.execEcdsaVerify sh s
  | .ecdhGen sh => Sys2Proof.Machine.execEcdhGen sh s
  | .ecdhSlot sh => Sys2Proof.Machine.execEcdhSlot sh s
  | .trngRead ini rd => Sys2Proof.Machine.execTrngRead ini rd s
  | .entropyFailure => Sys2Proof.Machine.execEntropyFailure s
  | .lifecycleTransition ini req => Sys2Proof.Machine.execLifecycleTransition ini req s
  | .dbglock ini => Sys2Proof.Machine.execDbglock ini s
  | .fuseBurnDone => Sys2Proof.Machine.execFuseBurnDone s
  | .rollbackBurn ini level => Sys2Proof.Machine.execRollbackBurn ini level s
  | .otpProgram off v => Sys2Proof.Machine.execOtpProgram off v s
  | .debugChallenge v => Sys2Proof.Machine.execDebugChallenge v s
  | .debugChallengeRead => Sys2Proof.Machine.execDebugChallengeRead s
  | .debugResponseWord v => Sys2Proof.Machine.execDebugResponseWord v s
  | .debugVerify => Sys2Proof.Machine.execDebugVerify s
  | .debugHalt sh => Sys2Proof.Machine.execDebugHalt sh s
  | .debugResume sh => Sys2Proof.Machine.execDebugResume sh s
  | .gatherTransfer isl => Sys2Proof.Machine.execGatherTransfer isl s
  | .prfFreeze ini frozen => Sys2Proof.Machine.execPrfFreeze ini frozen s
  | .prfSelectWrite ini m v => Sys2Proof.Machine.execPrfSelectWrite ini m v s
  | .chainStrapSample low => Sys2Proof.Machine.execChainStrapSample low s
  | .enumReq crcOk => Sys2Proof.Machine.execEnumReq crcOk s
  | .enumAns crcOk valid pos => Sys2Proof.Machine.execEnumAns crcOk valid pos s
  | .hwmsg crcOk pos w => Sys2Proof.Machine.execHwmsg crcOk pos w s
  | .chainProbe answering => Sys2Proof.Machine.execChainProbe answering s
  | .read crcOk pos off => Sys2Proof.Machine.execRead crcOk pos off s
  | .write crcOk pos off w => Sys2Proof.Machine.execWrite crcOk pos off w s
  | .rdata crcOk pos cause w => Sys2Proof.Machine.execRdata crcOk pos cause w s
  | .wack crcOk pos cause => Sys2Proof.Machine.execWack crcOk pos cause s
  | .remoteAccessTimeout => Sys2Proof.Machine.execRemoteAccessTimeout s
  | .txboxWrite ini v => Sys2Proof.Machine.execTxboxWrite ini v s
  | .send ini => Sys2Proof.Machine.execSend ini s
  | .flush ini => Sys2Proof.Machine.execFlush ini s
  | .msg crcOk up pos ws => Sys2Proof.Machine.execMsg crcOk up pos ws s
  | .mack crcOk up pos status => Sys2Proof.Machine.execMack crcOk up pos status s
  | .mailboxLost => Sys2Proof.Machine.execMailboxLost s
  | .rxboxRead ini rd => Sys2Proof.Machine.execRxboxRead ini rd s
  | .syncPulse ph => Sys2Proof.Machine.execSyncPulse ph s
  | .syncEdge ph => Sys2Proof.Machine.execSyncEdge ph s
  | .time crcOk plant qual => Sys2Proof.Machine.execTime crcOk plant qual s
  | .syncPairTimeout => Sys2Proof.Machine.execSyncPairTimeout s
  | .linkTimeout => Sys2Proof.Machine.execLinkTimeout s
  | .zeroCondition n => Sys2Proof.Machine.execZeroCondition n s
  | .coilCurrentSample v ma => Sys2Proof.Machine.execCoilCurrentSample v ma s
  | .tegSampleEnd vteg => Sys2Proof.Machine.execTegSampleEnd vteg s
  | .traceLoss => Sys2Proof.Machine.execTraceLoss s
  | .rollbackBurnDone => Sys2Proof.Machine.execRollbackBurnDone s
  | .vresDischarged => Sys2Proof.Machine.execVresDischarged s

end Sys2Proof.Machine
end

