-- ==== Sys2Proof/Machine/Step.lean ====
section
/-!
DEFINITION. One step: the command at the front of the queue, or one XT32 period when none waits.
-/

namespace Sys2Proof.Machine

/-- The step. With a command waiting it is exec of the front command on the state with the queue's rest; with none, one
XT32 period passes. -/
def step (s : State) : Host.Outcome State Fault Refusal :=
  match s.pending with
  | [] => .next s.period
  | c :: rest => exec c { s with pending := rest }

/-- The table gives no row any bits, so no word spells a command and the queue stays as it is. -/
def State.withFetchWord (s : State) (nbits w : Nat) : State :=
  match decodeTableWord nbits w with
  | none => s
  | some c => { s with pending := c :: s.pending }

end Sys2Proof.Machine
end

