-- ==== Sys2Proof/Machine/Pins.lean ====
section
/-!
DEFINITION. The output lands that carry fixed hardware signals, as functions of the state (R322, R526, R527).
-/

namespace Sys2Proof.Machine

/-- The level of GP1 to GP7 (R526); an unpowered node's lands are pulled down (R527), and GP0 is an input. -/
def State.gp (s : State) (n : Fin 8) : Bool :=
  s.powered &&
    (match n with
     | 0 => false
     | 1 => s.sys.xoRun || s.xoWanted
     | 2 => s.rad.state == .transmit
     | 3 => s.rad.state == .listen || s.rad.state == .receive
     | 4 => (upTo 24).any fun v => s.drv.vs v == .opened || s.drv.vs v == .moving
     | 5 => !s.drv.allRuns.isEmpty
     | 6 => s.drv.fault != 0
     | 7 => s.lnk.head)

/-- The lands VLV0 to VLV23 and TRD0 to TRD2: which switch of the half-bridge is on (R227, R229). -/
def State.vlv (s : State) (v : Fin 24) : Sw := if s.sys.runDmi then s.drv.legSw v else .off
def State.trdLand (s : State) (t : Fin 3) : Sw := if s.sys.runDmi then s.drv.trdSw t else .off

/-- PEXC is on continuously: a bridge line with EXC = 1 is armed (R322). -/
def State.pexcHeld (s : State) : Bool :=
  s.powered && (upTo 3).any fun n => (s.prsLine n).armed && !bit (s.prsLine n).ctlAct 28 && bit (s.prsLine n).ctlAct 29

/-- PEXC (R322, R326): also on during a spot reading of a bridge line, and where `near n` says that this instant lies between
20 us before a sampling instant of line `n` and the end of its conversion, if that line is armed with a bridge. -/
def State.pexc (s : State) (near : Fin 3 → Bool) : Bool :=
  s.pexcHeld || (s.powered && (upTo 3).any fun n =>
    let l := s.prsLine n
    !bit l.ctlAct 28 && (l.spot || (l.armed && near n)))

end Sys2Proof.Machine
end

