-- ==== Sys2Proof/Safety.lean ====
section
/-!
DEFINITION. What a safe step and a sound state are, in the terms the claims use.
-/

namespace Sys2Proof.Machine

/-! ## What counting and events touch -/

/-- What the performance counters, the event latches, the core cycle counter and the occurrences of the cycle under way hold after
a command (R15, R142, R143, R146, R490 to R501).
Every command may count and pend events, so claims about the rest of the state name these apart. -/
structure Noted where
  prf    : Prf
  evpend : BitVec 16
  cyc    : Nat
  same   : Same
  wpend  : Fin 4 → BitVec 16

/-- The state with other counters, event latches and cycle count, and everything else as it was. -/
def State.noted (s : State) (n : Noted) : State :=
  { s with
    prf := n.prf,
    eng := { s.eng with
      evpend := n.evpend, cyc := n.cyc, same := n.same,
      sh := Vector.ofFn fun k => { s.eng.sh.get k with wpend := n.wpend k } } }

/-- `n` notes of `s` what counting may do: no event but PERF pends or occurs (an overflow, R501), no flag of MEM_ECCSTAT occurs, the
counters' set-up stays, and with no counter enabled nothing changes but the cycle count (R491). -/
structure Noted.Counts (n : Noted) (s : State) : Prop where
  pend  : ∀ e : Nat, e ≠ 13 → n.evpend.getLsbD e = s.eng.evpend.getLsbD e
  wait  : ∀ (k : Fin 4) (e : Nat), e ≠ 13 → (n.wpend k).getLsbD e = (s.eng.sh.get k).wpend.getLsbD e
  fresh : ∀ e : Nat, e ≠ 13 → n.same.ev.getLsbD e = true → s.eng.same.ev.getLsbD e = true
  ecc   : ∀ e : Nat, n.same.ecc.getLsbD e = true → s.eng.same.ecc.getLsbD e = true
  setup : { n.prf with
    frozen := s.prf.frozen, cyc := s.prf.cyc, cnt := s.prf.cnt, ovf := s.prf.ovf, gather := s.prf.gather } = s.prf
  still : s.prf.en = 0 → s.prf.cycen = false →
    n.prf = s.prf ∧ n.evpend = s.eng.evpend ∧ (∀ k : Fin 4, n.wpend k = (s.eng.sh.get k).wpend) ∧
      ∀ e : Nat, n.same.ev.getLsbD e = true → s.eng.same.ev.getLsbD e = true

/-- The outcome is the state `t`, up to what counting notes of it: the machine answers a next state. -/
def Yields (o : Out) (t : State) : Prop := ∃ n : Noted, n.cyc = t.eng.cyc ∧ n.Counts t ∧ o = .next (t.noted n)

/-! ## When an instruction executes normally -/

/-- The check bits of the instruction's 64-bit word, as the shuttle's fetch buffer has it (R188, R199). -/
def State.fetchClass (s : State) (i : Fin 4) : Nat :=
  let a := (s.sh i).pc.toNat
  match (if inMram a then s.oldWord i (a / 8 * 8) else none) with
  | none => s.mem.eccOf (a / 8 * 8)
  | some o => o.cls

/-- The word at the shuttle's PC can be fetched: the MPU grants it, the address is in a region that holds instructions, and
its 64-bit word has no error (R132, R149, R188, R199, R201, R466). -/
def State.fetchable (s : State) (i : Fin 4) : Bool :=
  let a := (s.sh i).pc.toNat
  s.mpuOk i a .x && (inRom a || (inMram a && !inKeyStore a) || inSram a) && s.fetchClass i == 0

/-- Shuttle `i` has an instruction to issue: the engine runs, R118 gives the shuttle a slot, its PC is fetchable, and the word there
is an instruction (R152). -/
def State.hasSlot (s : State) (i : Fin 4) : Bool := s.coreRuns && (s.nextSlot i).isSome && s.fetchable i && !s.illegalWord i

/-- Shuttle `i` issues an instruction: it has one, and at its issue point no interrupt condition holds (R145). -/
def State.issues (s : State) (i : Fin 4) : Bool := s.hasSlot i && ((s.preSlot i).irq i).isNone

/-- A shuttle's own state after the fetch: its buffer is refilled after a change of flow (R150, R188). -/
def Shuttle.fetched (x : Shuttle) (old : Nat) : Shuttle := { x with flow := false, bufAt := if x.flow then old else x.bufAt }

/-- The instruction of shuttle `i` issues in cycle `c` and yields what `f` makes of the shuttle's own state, with everything
else as it was, up to what counting notes; the cycle count stands at the cycle after the issue. -/
def Issued (o : Out) (s : State) (i : Fin 4) (f : Nat → Shuttle → Shuttle) : Prop :=
  ∃ (c : Nat) (n : Noted), s.nextSlot i = some c ∧ n.cyc = c + 1 ∧
    n.Counts (s.modSh i fun x => f (c + 1) (x.fetched s.mem.oldNum)) ∧
    o = .next ((s.modSh i fun x => f (c + 1) (x.fetched s.mem.oldNum)).noted n)

/-- The same for an instruction that also changes what lies outside its shuttle: `g` makes that of the state. -/
def IssuedOn (o : Out) (s : State) (i : Fin 4) (g : State → State) (f : Nat → Shuttle → Shuttle) : Prop :=
  ∃ (c : Nat) (n : Noted), s.nextSlot i = some c ∧ n.cyc = c + 1 ∧
    n.Counts ((g s).modSh i fun x => f (c + 1) (x.fetched s.mem.oldNum)) ∧
    o = .next (((g s).modSh i fun x => f (c + 1) (x.fetched s.mem.oldNum)).noted n)

/-- A shuttle's own state after an instruction of `cost` slots that writes `v` to `rd` (R110, R119). -/
def Shuttle.wrote (x : Shuttle) (rd : Fin 16) (v : Word) (cost now : Nat) : Shuttle :=
  { x.wr rd v with pc := x.pc + 4, flow := false, freeAt := now + (cost - 1) }

/-- The registers are as they were, and the PC moves past an instruction of `cost` slots (R119). -/
def Shuttle.stepped (x : Shuttle) (cost now : Nat) : Shuttle :=
  { x with pc := x.pc + 4, flow := false, freeAt := now + (cost - 1) }

/-- The islands of `l` have served a crossing of that cost each, which issued in cycle `c`: each follows the crossings into its
island that were open (R125). -/
def State.served (s : State) (c : Nat) (l : List (GatherIsland × Nat)) : State :=
  { s with eng := { s.eng with
      crossFree := l.foldl (fun f p => f.set (islIdx p.1) (max (s.eng.crossFree.get (islIdx p.1)) c + p.2)) s.eng.crossFree } }

/-- The core cycles that crossings issued in cycle `c` take, until the last of their islands answers (R125, R180). -/
def State.crossTime (s : State) (c : Nat) (l : List (GatherIsland × Nat)) : Nat :=
  (l.map fun p => max (s.eng.crossFree.get (islIdx p.1)) c + p.2 - c).foldl max 1

/-- An instruction that issues and crosses into the islands of `l`: it yields what `f` makes of its shuttle, given how long it
takes, and what `g` makes of the rest (R124, R125). -/
def Crosses (o : Out) (s : State) (i : Fin 4) (l : List (GatherIsland × Nat)) (g : State → State)
    (f : Nat → Nat → Shuttle → Shuttle) : Prop :=
  ∃ (c : Nat) (n : Noted), s.nextSlot i = some c ∧ n.cyc = c + 1 ∧
    let t := ((g s).served c l).modSh i fun x => f (s.crossTime c l) (c + 1) (x.fetched s.mem.oldNum)
    n.Counts t ∧ o = .next (t.noted n)

/-- A shuttle's own state after exception entry at the handler `t` with this cause and address (R137). -/
def Shuttle.trapped (x : Shuttle) (t cause addr : Word) (now : Nat) : Shuttle :=
  { x with
    epc := x.pc, cause := cause, addr := addr, pie := x.ie, ie := false, pprv := x.prv, prv := false, inexc := true,
    pc := t, flow := true, run := .ready, busyOn := none, freeAt := now + flowCost t }

/-- A shuttle's own state after interrupt entry for event `e` at the handler `t`, in cycle `now` (R138). -/
def Shuttle.interrupted (x : Shuttle) (t : Word) (e now : Nat) : Shuttle :=
  { x with
    epc := x.pc, cause := BitVec.ofNat 32 (0x40 + e), addr := 0, pie := x.ie, ie := false, pprv := x.prv, prv := false,
    pc := t, flow := true, run := .ready, freeAt := now + flowCost t }

/-- Shuttle `i` takes the interrupt of event `e` at its issue point, in cycle `c`: the instruction there is not issued
(R138, R145). -/
def Interrupts (o : Out) (s : State) (i : Fin 4) (e : Nat) : Prop :=
  let t := s.eng.vecbase + BitVec.ofNat 32 (0x100 * i.val + 0x80)
  ∃ (c : Nat) (n : Noted), s.nextSlot i = some c ∧ n.cyc = c ∧ n.Counts (s.modSh i fun x => x.interrupted t e c) ∧
    o = .next ((s.modSh i fun x => x.interrupted t e c).noted n)

/-- The instruction of shuttle `i` issues and takes exception `cause` with this address, at the handler of its shuttle
(R114, R137). -/
def Traps (o : Out) (s : State) (i : Fin 4) (cause : Nat) (addr : Word) : Prop :=
  Issued o s i fun now x => x.trapped (s.eng.vecbase + BitVec.ofNat 32 (0x100 * i.val)) (BitVec.ofNat 32 cause) addr now

/-- Besides shuttle `i`, every shuttle is off with nothing in flight, or in WAIT, HALTED or FAULTED, and no commit runs: the core
clock stops when shuttle `i` comes to rest too (R123, R222). -/
def State.othersRest (s : State) (i : Fin 4) : Bool :=
  (upTo 4).all (fun k => k == i || (s.sh k).rests) && s.mem.busy.isNone

/-- The core clock stops if shuttle `i` was the last to come to rest, and XO32M with it unless an island keeps it running
(R122, R123). -/
def State.rested (s : State) (i : Fin 4) : State :=
  if s.othersRest i then { s with
    eng := { s.eng with stopped := true },
    sys := { s.sys with xoRun := s.sys.xoRun && (s.sys.runDmi || s.sys.runRad) } }
  else s

/-! ## When an access reaches a register -/

/-- A 32-bit access of the register at `a` reaches it: the debug port is let in, the chip is a member that the head reaches,
or a shuttle's instruction issues and raises nothing on the way (R8, R130, R132, R487, R513). -/
def State.reaches (s : State) (i : Initiator) (a : Nat) (wr : Bool) : Bool :=
  match i with
  | .shuttle k => s.issues k && (s.dataGate k a 4 wr).isNone
  | .debug => s.dbgMay a wr
  | .chain => s.isMember && inMember a

/-- The state in which the access of initiator `i` reaches the bus: a shuttle's, in the cycle after its instruction issued. -/
def State.AtBus (s : State) (i : Initiator) (u : State) : Prop :=
  match i with
  | .shuttle k => ∃ (c : Nat) (n : Noted), s.nextSlot k = some c ∧ n.cyc = c + 1 ∧ n.Counts s.newCycle ∧
      u = (s.modSh k fun x => x.fetched s.mem.oldNum).noted n
  | _ => u = s.newCycle

/-- How an accepted write of the register at `a` ends for its initiator: the debug port reads no cause, a shuttle's instruction
ends after the access (R124, R487). -/
def State.wroteBy (t : State) (u : State) (i : Initiator) (a : Nat) : State :=
  match i with
  | .shuttle k => t.accessEnd k (u.accessCost a 4 true)
  | .debug => t.modSys fun x => { x with dbgCause := 0 }
  | .chain => t

/-- How a read that answers `v` ends: it lands in `rd`, or in the debug port's data. -/
def State.gotBy (t : State) (u : State) (i : Initiator) (a : Nat) (rd : Fin 16) (v : Word) : State :=
  match i with
  | .shuttle k => (t.setReg k rd v).accessEnd k (u.accessCost a 4 false)
  | .debug => t.modSys fun x => { x with dbgData := v, dbgCause := 0 }
  | .chain => t

/-- The write of the register at `a` by `i` takes effect as `f`. -/
def Written (o : Out) (s : State) (i : Initiator) (a : Nat) (f : State → State) : Prop :=
  ∃ u : State, s.AtBus i u ∧ o = .next ((f u).wroteBy u i a)

/-- The write of an AON register at `a` by `i` is posted, and then takes effect as `f`. -/
def Posts (o : Out) (s : State) (i : Initiator) (a : Nat) (f : State → State) : Prop :=
  ∃ u : State, s.AtBus i u ∧ o = .next (f (u.wroteBy u i a))

/-- The read of the register at `a` by `i` answers what `f` gives. -/
def Got (o : Out) (s : State) (i : Initiator) (a : Nat) (rd : Fin 16) (f : State → State × Word) : Prop :=
  ∃ u : State, s.AtBus i u ∧ o = .next ((f u).1.gotBy u i a rd (f u).2)

/-! ## What an event changes -/

/-- The fault record after an error response: SYS_FAULT_ADDR takes the address and SYS_FAULT_INFO the rest, with OVR set where a
record was held (R209). -/
def Sys.recorded (x : Sys) (init : Nat) (write : Bool) (cause : Nat) (addr : Word) : Sys :=
  { x with
    faultOvr := x.faultOvr || x.faultValid, faultValid := true, faultWrite := write, faultInit := BitVec.ofNat 3 init,
    faultCause := BitVec.ofNat 4 cause, faultAddr := addr }

/-- The outcome is a next state that is what `w` makes of it, up to counters, event latches and the cycle count, and of which
`f` holds. With `w t` the state before with some blocks taken from `t`, everything outside those blocks is as it was. -/
def Touches (o : Out) (w : State → State) (f : State → Prop) : Prop :=
  ∃ (t : State) (n : Noted), o = .next t ∧ t = (w t).noted n ∧ f t

/-! ## Sound states -/

/-- Memory and its write buffer as every step keeps them: the cells in canonical form, at most four entries, and one entry a
word (R194). -/
structure Mem.Sound (m : Mem) : Prop where
  cells : Memory.wf m = true
  room  : m.wbuf.length ≤ 4
  once  : (m.wbuf.map WbEntry.word).Nodup

/-- Memory is sound, and these commands wait. -/
def Sound (q : List Instr) (s : State) : Prop := s.mem.Sound ∧ s.pending = q

end Sys2Proof.Machine
end

