-- ==== Sys2Proof/Certificates/Slice0/Obligations.lean ====
section
/-!
DEFINITION. The statements about the node, for the provers.
-/

open Sys2Proof Sys2Proof.Machine

/--
Whatever the state, with command c at the front of the queue a step is exec of c on the state with the rest of the queue.
With an empty queue a step lets one XT32 period pass; that clause is the model's choice, DESIGN CHOICE, log entry 1. (R346)
-/
def Obligations.StepRunsTheFrontCommand : Prop :=
  ∀ s : State,
    (∀ (c : Instr) (rest : List Instr), s.pending = c :: rest → step s = exec c { s with pending := rest }) ∧
    (s.pending = [] → step s = .next s.period)

/--
At State.reset the registers named here hold the reset value of their Reset column or rule: the boot ROM runs in shuttle 0
with the other shuttles disabled, every w register and control register is 0, the fault record is empty, SYS_WDOG, MEM_CTL,
MEM_SCRUB, NRG_CTL, NRG_CHG, NRG_PROT, NRG_RESCTL, NRG_RESERVE, DRV_CTL, DRV_GATE, the flow and pressure controls, the
comparators, CMP_BLANK, the TMP, RAD, MAC, SEC, PRF and LNK registers hold their values, every valve state is UNKNOWN, and
every queue, FIFO and mailbox is empty. The queue of commands is empty and memory lists no byte; that SRAM and OTP read 0 is
R193 and R461, that MRAM reads 0 is the model's choice, DESIGN CHOICE, log entry 3. The state is that at the release of the
power-on reset, DEDUCED, log entry 7. (R17, R104, R193, R461, R109)
-/
def Obligations.ResetLeavesTheSpecifiedValues : Prop :=
  let s := State.reset
  (s.pending = [] ∧ s.mem.cells = [] ∧ s.mem.ecc = [] ∧ s.mem.wbuf = [] ∧ s.armed = 0 ∧ s.sys.power = .boot) ∧
  (∀ k : Fin 4, (s.sh k).w = Vector.replicate 16 0 ∧ (s.sh k).pc = 0 ∧ (s.sh k).acc = 0 ∧ (s.sh k).epc = 0 ∧
    (s.sh k).cause = 0 ∧ (s.sh k).addr = 0 ∧ (s.sh k).scratch = 0 ∧ (s.sh k).prv = false ∧ (s.sh k).ie = false ∧
    (s.sh k).inexc = false ∧ (s.sh k).wpend = 0 ∧ (s.sh k).ien = 0 ∧ (s.sh k).en = (k == 0) ∧
    (s.sh k).run = if k = 0 then .ready else .disabled) ∧
  (s.eng.issueReq = 0 ∧ s.eng.evpend = 0 ∧ s.eng.evroute = 0 ∧ s.eng.vecbase = 0 ∧ s.eng.mpuctl = 0) ∧
  (s.sys.rstCause = 0 ∧ s.sys.faultValid = false ∧ s.sys.faultAddr = 0 ∧ s.sys.src = 0 ∧ s.sys.curSrc = 0 ∧
    s.sys.wdogEn = false ∧ s.sys.wdogPeriod = 8 ∧ s.sys.wdogKmask = 1) ∧
  (s.mem.cthresh = 16 ∧ s.mem.inj = 0 ∧ s.mem.cwb = true ∧ s.mem.men = true ∧ s.mem.mint = 32 ∧ s.mem.sen = true ∧
    s.mem.sint = 4 ∧ s.mem.eccstat = 0 ∧ s.mem.wprot = 0) ∧
  (s.nrg.refOk = false ∧ s.nrg.chg = .off ∧ s.nrg.ctl = 0x5F ∧ s.nrg.focvSh = 0xC810 ∧ s.nrg.chgReg = 0x00A2000A ∧
    s.nrg.protReg = 0x53 ∧ s.nrg.resctl = 0x3058B478 ∧ s.nrg.reserve = 0x1110 ∧ s.nrgx.laArmed = false) ∧
  (s.drv.vstate = Vector.replicate 24 .unknown ∧ s.drv.ctl = 0x00641901 ∧ s.drv.gate = 0x00114888 ∧ s.drv.fault = 0 ∧
    s.drv.faultv = 0 ∧ s.drv.fifo = [] ∧ s.drv.manual = false ∧ s.drv.sw = 0) ∧
  (∀ n : Fin 3, (s.flow n).ctlSh = 0x107FA808 ∧ (s.flow n).dt = 0x80000000 ∧ (s.flow n).zero = 0 ∧ (s.flow n).pcnt = 0 ∧
    (s.flow n).pcfg = 0xD30 ∧ (s.prsLine n).ctlSh = 0x40080000 ∧ (s.prsLine n).state = .off ∧ (s.prsLine n).buf = 0) ∧
  (∀ c : Fin 8, (s.prs.cmp.get c).cfg = 0x06100000 ∧ (s.prs.cmp.get c).latch = false ∧ (s.prs.cmp.get c).test = 0) ∧
  (s.prs.blank = 0x09003F07) ∧
  (s.tmp.now = 0 ∧ s.tmp.counting = false ∧ s.tmp.offs = 0 ∧ s.tmp.rate = 0 ∧ s.tmp.sync = false ∧ s.tmp.src = 0 ∧
    s.tmp.depth = 0xF ∧ s.tmp.err = 0xFFF ∧ s.tmp.age = 0x3FF ∧ s.tmp.tcomp = 0xB2AA0000 ∧ s.tmp.marm = false) ∧
  (s.rad.ctl = 1 ∧ s.rad.phy = 0x0810 ∧ s.rad.pwr = 14 ∧ s.rad.unset = true ∧ s.rad.lbtThr = 0xA6 ∧ s.rad.lbtLt = 1600) ∧
  (s.mac.ctl = 0x00884000 ∧ s.mac.guard = 0x147814C8 ∧ s.mac.supv = 64 ∧ s.mac.mapSh = BitVec.allOnes 64 ∧
    ∀ l : Fin 16, (s.link l).state = .off) ∧
  (s.sec.lock = false ∧ s.sec.minlvl = 1 ∧ s.sec.txlvl = 6 ∧ s.sec.nettx = false ∧ s.sec.dbgOpen = false) ∧
  (s.prf.en = 0 ∧ s.prf.cycen = true ∧ s.prf.frozen = false ∧ s.prf.sel = Vector.replicate 4 0xF000F000) ∧
  (s.lnk.ctl = 0xD ∧ s.lnk.valid = false ∧ s.lnk.txst = 0 ∧ s.lnk.staged = [] ∧ s.lnk.rxbox = [])

/--
The memory of State.reset is in canonical form and its write buffer is sound. (R194)
-/
def Obligations.ResetMemoryIsSound : Prop :=
  State.reset.mem.Sound

/--
For every command, with any operands, and every state there is a state that exec answers as next: no command of the table
ends in a fault or a refusal. That a command whose condition does not hold leaves the state as it was is the model's choice,
DESIGN CHOICE, log entry 10; what each command does is in the other statements. (spec/opcode_table.json)
-/
def Obligations.EveryCommandAnswers : Prop :=
  ∀ (c : Instr) (s : State), ∃ t : State, exec c s = .next t

/--
From every state whose memory is in canonical form (addresses strictly rising, no byte listed that an unlisted address reads
as) and whose write buffer holds at most four entries with one entry for each 64-bit word (R194), whatever step answers as
next has such a memory too, and its queue of commands is the tail of the queue before. The canonical form is the model's
own; that unlisted MRAM reads 0 is DESIGN CHOICE, log entry 3. (R194, R190)
-/
def Obligations.EveryStepKeepsMemorySound : Prop :=
  ∀ s t : State, s.mem.Sound → step s = .next t → t.mem.Sound ∧ t.pending = s.pending.tail

/--
When shuttle sh issues one of ADD, SUB, AND, OR, XOR, SHL, SHR, SRA, SLT, SLTU, MIN, MAX, MINU, MAXU, CLZ, POPC, ADDS and
SUBS and its fetch raises no exception, exec answers a next state in which rd holds the exact result wrapped modulo 2^32, or
limited to the signed range for ADDS and SUBS, the PC is at the next word and the shuttle is free one slot later. A shift
uses the low five bits of rb. Register w0 stays 0. Every register, flag and byte of memory that this does not name is as it
was, up to what counting notes. (R153)
-/
def Obligations.AluGroupWritesItsResult : Prop :=
  ∀ (sh : Fin 4) (rd ra rb : Fin 16) (s : State), s.issues sh = true →
    let a := s.reg sh ra
    let b := s.reg sh rb
    let gives (i : Instr) (v : Word) : Prop := Issued (exec i s) s sh fun now x => x.wrote rd v 1 now
    gives (.add sh rd ra rb) (BitVec.ofNat 32 (a.toNat + b.toNat)) ∧
    gives (.sub sh rd ra rb) (BitVec.ofInt 32 (a.toInt - b.toInt)) ∧
    gives (.and sh rd ra rb) (BitVec.ofNat 32 (a.toNat &&& b.toNat)) ∧
    gives (.or sh rd ra rb) (BitVec.ofNat 32 (a.toNat ||| b.toNat)) ∧
    gives (.xor sh rd ra rb) (BitVec.ofNat 32 (a.toNat ^^^ b.toNat)) ∧
    gives (.shl sh rd ra rb) (BitVec.ofNat 32 (a.toNat * 2 ^ (b &&& 31).toNat)) ∧
    gives (.shr sh rd ra rb) (BitVec.ofNat 32 (a.toNat / 2 ^ (b &&& 31).toNat)) ∧
    gives (.sra sh rd ra rb) (BitVec.ofInt 32 (a.toInt / 2 ^ (b &&& 31).toNat)) ∧
    gives (.slt sh rd ra rb) (if a.toInt < b.toInt then 1 else 0) ∧
    gives (.sltu sh rd ra rb) (if a.toNat < b.toNat then 1 else 0) ∧
    gives (.min sh rd ra rb) (BitVec.ofInt 32 (min a.toInt b.toInt)) ∧
    gives (.max sh rd ra rb) (BitVec.ofInt 32 (max a.toInt b.toInt)) ∧
    gives (.minu sh rd ra rb) (BitVec.ofNat 32 (min a.toNat b.toNat)) ∧
    gives (.maxu sh rd ra rb) (BitVec.ofNat 32 (max a.toNat b.toNat)) ∧
    (∃ n : Nat, gives (.clz sh rd ra) (BitVec.ofNat 32 n) ∧ n ≤ 32 ∧ (∀ k : Nat, k < 32 → 32 - n ≤ k → a.getLsbD k = false) ∧
      (n < 32 → a.getLsbD (31 - n) = true)) ∧
    gives (.popc sh rd ra) (BitVec.ofNat 32 ((List.range 32).countP fun k => a.getLsbD k)) ∧
    gives (.adds sh rd ra rb) (BitVec.ofInt 32 (max (-(2 ^ 31)) (min (2 ^ 31 - 1) (a.toInt + b.toInt)))) ∧
    gives (.subs sh rd ra rb) (BitVec.ofInt 32 (max (-(2 ^ 31)) (min (2 ^ 31 - 1) (a.toInt - b.toInt))))

/--
When shuttle sh issues MUL, MULH or MULHU, rd gets the low or the high half of the 64-bit product. DIV, DIVU, REM and REMU
give the truncated quotient and its remainder, 0xFFFFFFFF and ra on division by zero, and cost 18 slots. MACS and MACU add
the signed or unsigned product to the 64-bit accumulator modulo 2^64 and write its high half to rd; ACCCLR clears it. All
other members cost one slot. Every register, flag and byte of memory that this does not name is as it was, up to what
counting notes. (R154, R155)
-/
def Obligations.MultiplyDivideAndAccumulate : Prop :=
  (∀ (sh : Fin 4) (rd ra rb : Fin 16) (s : State), s.issues sh = true →
    let a := s.reg sh ra
    let b := s.reg sh rb
    let gives (i : Instr) (v : Word) (cost : Nat) : Prop := Issued (exec i s) s sh fun now x => x.wrote rd v cost now
    gives (.mul sh rd ra rb) ((a.signExtend 64 * b.signExtend 64).extractLsb' 0 32) 1 ∧
    gives (.mulh sh rd ra rb) ((a.signExtend 64 * b.signExtend 64).extractLsb' 32 32) 1 ∧
    gives (.mulhu sh rd ra rb) ((a.setWidth 64 * b.setWidth 64).extractLsb' 32 32) 1 ∧
    gives (.div sh rd ra rb) (if b = 0 then 0xFFFFFFFF else BitVec.ofInt 32 (a.toInt.tdiv b.toInt)) 18 ∧
    gives (.divu sh rd ra rb) (if b = 0 then 0xFFFFFFFF else BitVec.ofNat 32 (a.toNat / b.toNat)) 18 ∧
    gives (.rem sh rd ra rb) (if b = 0 then a else BitVec.ofInt 32 (a.toInt.tmod b.toInt)) 18 ∧
    gives (.remu sh rd ra rb) (if b = 0 then a else BitVec.ofNat 32 (a.toNat % b.toNat)) 18) ∧
  (∀ (sh : Fin 4) (rd ra rb : Fin 16) (s : State), s.issues sh = true →
    let a := s.reg sh ra
    let b := s.reg sh rb
    let leaves (i : Instr) (acc : DWord) : Prop :=
      Issued (exec i s) s sh fun now x => ({ x with acc := acc } : Shuttle).wrote rd (acc.extractLsb' 32 32) 1 now
    leaves (.macs sh rd ra rb) ((s.sh sh).acc + a.signExtend 64 * b.signExtend 64) ∧
    leaves (.macu sh rd ra rb) ((s.sh sh).acc + a.setWidth 64 * b.setWidth 64) ∧
    Issued (exec (.accclr sh) s) s sh fun now x => ({ x with acc := 0 } : Shuttle).stepped 1 now)

/--
When shuttle sh issues ADDI, ANDI, ORI, XORI or SLTI, imm18 is sign-extended and rd gets the sum, the bitwise result or the
signed comparison. SHLI, SHRI and SRAI shift by the count, and LUI gives imm22 times 2^10. Each costs one slot. Every
register, flag and byte of memory that this does not name is as it was, up to what counting notes. (R157, R159)
-/
def Obligations.ImmediateFormsWriteTheirResult : Prop :=
  ∀ (sh : Fin 4) (rd ra : Fin 16) (imm : BitVec 18) (cnt : BitVec 5) (up : BitVec 22) (s : State), s.issues sh = true →
    let a := s.reg sh ra
    let m : Word := imm.signExtend 32
    let gives (i : Instr) (v : Word) : Prop := Issued (exec i s) s sh fun now x => x.wrote rd v 1 now
    gives (.addi sh rd ra imm) (a + m) ∧
    gives (.andi sh rd ra imm) (a &&& m) ∧
    gives (.ori sh rd ra imm) (a ||| m) ∧
    gives (.xori sh rd ra imm) (a ^^^ m) ∧
    gives (.slti sh rd ra imm) (if a.toInt < m.toInt then 1 else 0) ∧
    gives (.shli sh rd ra cnt) (BitVec.ofNat 32 (a.toNat * 2 ^ cnt.toNat)) ∧
    gives (.shri sh rd ra cnt) (BitVec.ofNat 32 (a.toNat / 2 ^ cnt.toNat)) ∧
    gives (.srai sh rd ra cnt) (BitVec.ofInt 32 (a.toInt / 2 ^ cnt.toNat)) ∧
    gives (.lui sh rd up) (BitVec.ofNat 32 (up.toNat * 2 ^ 10))

/--
When shuttle sh issues BEQ, BNE, BLT, BGE, BLTU or BGEU, the PC becomes pc + 4 x sext(off18) if the condition on ra and rb
holds, at a cost of 1 slot and 2 more into MRAM, and pc + 4 at a cost of 1 slot otherwise. Signed and unsigned comparison
are as the mnemonic says. Every register, flag and byte of memory that this does not name is as it was, up to what counting
notes. (R164)
-/
def Obligations.BranchesFollowTheirCondition : Prop :=
  ∀ (sh : Fin 4) (ra rb : Fin 16) (off : BitVec 18) (s : State), s.issues sh = true →
    let a := s.reg sh ra
    let b := s.reg sh rb
    let dest (x : Shuttle) : Word := x.pc + BitVec.ofInt 32 (4 * off.toInt)
    let branches (i : Instr) (c : Prop) : Prop :=
      (c → Issued (exec i s) s sh fun now x => { x with pc := dest x, flow := true, freeAt := now + flowCost (dest x) }) ∧
      (¬ c → Issued (exec i s) s sh fun now x => x.stepped 1 now)
    branches (.beq sh ra rb off) (a = b) ∧
    branches (.bne sh ra rb off) (a ≠ b) ∧
    branches (.blt sh ra rb off) (a.toInt < b.toInt) ∧
    branches (.bge sh ra rb off) (b.toInt ≤ a.toInt) ∧
    branches (.bltu sh ra rb off) (a.toNat < b.toNat) ∧
    branches (.bgeu sh ra rb off) (b.toNat ≤ a.toNat)

/--
When shuttle sh issues JAL, rd gets pc + 4 and the PC becomes pc + 4 x sext(off22). JALR takes its target from ra as it was
before: an aligned target links and jumps, and a misaligned one raises exception 0x06 with c.addr the target and rd
unchanged (from INEXC 0). The cost is 1 slot and 2 more into MRAM. Every register, flag and byte of memory that this does
not name is as it was, up to what counting notes. (R165, R166)
-/
def Obligations.JumpsLinkAndChangeFlow : Prop :=
  ∀ (sh : Fin 4) (rd ra : Fin 16) (off : BitVec 22) (imm : BitVec 18) (s : State), s.issues sh = true →
    let links (i : Instr) (t : Word) : Prop := Issued (exec i s) s sh fun now x =>
      { x.wr rd (x.pc + 4) with pc := t, flow := true, freeAt := now + flowCost t }
    let t := s.reg sh ra + imm.signExtend 32
    links (.jal sh rd off) ((s.sh sh).pc + BitVec.ofInt 32 (4 * off.toInt)) ∧
    (t.toNat % 4 = 0 → links (.jalr sh rd ra imm) t) ∧
    (t.toNat % 4 ≠ 0 → (s.sh sh).inexc = false → Traps (exec (.jalr sh rd ra imm) s) s sh 6 t)

/--
From INEXC 0 the reserved forms (odd pairs of LDD, STD, SNAP and STAMP, control registers that do not exist, a SNAP select
above 4, a COMMIT with a reserved bit, CRC select 3) raise exception 0x01 with c.addr the instruction word. At U privilege
ERET, HALT and accesses to control registers 0 to 4 raise exception 0x02 with the word, and DRV without UDEV raises it with
the address of DRV_CMD. The whole of exception entry is stated: c.epc, c.cause, c.addr, the status bits, and the PC at
ENG_VECBASE + 0x100 x s. Where the word at the PC outside the ROM is none of the instruction set, the commands named raise
exception 0x01 with that word; no instruction are the words 0 and 0xFFFFFFFF, an immediate shift with a non-zero zero field
or kind 3, an ALU word with fn 0 or above 0x12, and a SYS word with dfn above 7. That such a word is met by whichever
instruction command comes is DEDUCED, log entry 12. Every register, flag and byte of memory that this does not name is as it
was, up to what counting notes. (R151, R152, R158, R174, R137, R130)
-/
def Obligations.ReservedAndPrivilegedFormsTrap : Prop :=
  (∀ (sh : Fin 4) (rd ra rs : Fin 16) (imm : BitVec 18) (m : BitVec 12) (n : BitVec 4) (plant : Bool) (ph : Ring) (s : State) (w : Word),
    s.hasSlot sh = true → (s.sh sh).inexc = false →
    let illegal (i : Instr) : Prop := wordOf i = some w → Traps (exec i s) s sh 1 w
    let op := s.reg sh ra ||| m.setWidth 32
    (rd.val % 2 = 1 → illegal (.ldd sh rd ra imm)) ∧
    (rs.val % 2 = 1 → illegal (.std sh rs ra imm)) ∧
    (7 < m.toNat → illegal (.csrr sh rd m)) ∧
    (6 < m.toNat → illegal (.csrw sh ra m)) ∧
    (rd.val % 2 = 1 ∨ 4 < m.toNat → illegal (.snap sh rd m)) ∧
    (rd.val % 2 = 1 → illegal (.stamp sh rd plant ph)) ∧
    (op &&& 0xFFFFF600 ≠ 0 → illegal (.commit sh rd ra m)) ∧
    (12 ≤ n.toNat → illegal (.crc sh rd ra n))) ∧
  (∀ (sh : Fin 4) (rd ra : Fin 16) (csr imm : BitVec 12) (s : State) (w : Word),
    s.hasSlot sh = true → (s.sh sh).inexc = false → (s.sh sh).prv = true →
    let barred (i : Instr) : Prop := wordOf i = some w → Traps (exec i s) s sh 2 w
    barred (.eret sh) ∧ barred (.halt sh) ∧
    (csr.toNat ≤ 4 → barred (.csrr sh rd csr) ∧ barred (.csrw sh ra csr)) ∧
    ((s.sh sh).udev = false → s.issues sh = true → Traps (exec (.drv sh rd ra) s) s sh 2 0x40005008)) ∧
  ((∀ (sh : Fin 4) (s : State), s.coreRuns = true → (s.nextSlot sh).isSome = true → s.fetchable sh = true →
    (s.sh sh).inexc = false → inRom (s.sh sh).pc.toNat = false → isInstr (s.fetchWord sh) = false →
    ∀ (rd ra rb : Fin 16) (imm : BitVec 18) (m : BitVec 12) (set : BitVec 4),
      let traps (c : Instr) : Prop := Traps (exec c s) s sh 1 (s.fetchWord sh)
      traps (.add sh rd ra rb) ∧ traps (.addi sh rd ra imm) ∧ traps (.mul sh rd ra rb) ∧ traps (.ldw sh rd ra imm) ∧
      traps (.stw sh rd ra imm) ∧ traps (.jalr sh rd ra imm) ∧ traps (.wait sh rd ra m) ∧ traps (.post sh ra set) ∧
      traps (.fence sh) ∧ traps (.eret sh) ∧ traps (.trap sh m)) ∧
  (isInstr 0 = false ∧ isInstr 0xFFFFFFFF = false) ∧
  (∀ w : Word, w.extractLsb' 26 6 = 7 → w.extractLsb' 7 11 ≠ 0 ∨ w.extractLsb' 5 2 = 3 → isInstr w = false) ∧
  (∀ w : Word, w.extractLsb' 26 6 = 0 → w.extractLsb' 0 14 = 0 ∨ 0x12 < (w.extractLsb' 0 14).toNat → isInstr w = false) ∧
  (∀ w : Word, w.extractLsb' 26 6 = 0x30 → 7 < (w.extractLsb' 12 6).toNat → isInstr w = false))

/--
TRAP from INEXC 0 enters exception 0x09 with c.addr its zero-extended immediate: c.epc is the PC of the TRAP, PIE and PPRV
take IE and PRV, IE becomes 0, PRV becomes S, INEXC becomes 1 and the PC goes to ENG_VECBASE + 0x100 x s. ERET at S
privilege sets IE = PIE, PRV = PPRV, INEXC = 0 and the PC to c.epc. Every register, flag and byte of memory that this does
not name is as it was, up to what counting notes. (R137, R139)
-/
def Obligations.TrapEntersAndEretReturns : Prop :=
  (∀ (sh : Fin 4) (imm : BitVec 12) (s : State), s.hasSlot sh = true → (s.sh sh).inexc = false →
    Traps (exec (.trap sh imm) s) s sh 9 (imm.setWidth 32)) ∧
  (∀ (sh : Fin 4) (s : State), s.issues sh = true → (s.sh sh).prv = false →
    Issued (exec (.eret sh) s) s sh fun now x =>
      { x with ie := x.pie, prv := x.pprv, inexc := false, pc := x.epc, flow := true, freeAt := now + flowCost x.epc })

/--
At S privilege CSRR of register 0 to 7 gives c.status with its fields at their bits, c.epc, c.cause, c.addr, c.scratch, the
accumulator's halves and the shuttle number. CSRW of 0 to 6 writes them: PRV keeps its value, c.epc drops its two low bits,
and each half of the accumulator is written alone. Every register, flag and byte of memory that this does not name is as it
was, up to what counting notes. (R174, R111)
-/
def Obligations.ControlRegistersReadAndWrite : Prop :=
  ∀ (sh : Fin 4) (rd ra : Fin 16) (csr : BitVec 12) (s : State), s.issues sh = true → (s.sh sh).prv = false →
    let x := s.sh sh
    let bit (b : Bool) (k : Nat) : Nat := if b then 2 ^ k else 0
    let v := s.reg sh ra
    let gives (n : Nat) (r : Word) : Prop := csr.toNat = n →
      Issued (exec (.csrr sh rd csr) s) s sh fun now x => x.wrote rd r 1 now
    let leaves (n : Nat) (f : Shuttle → Shuttle) : Prop := csr.toNat = n →
      Issued (exec (.csrw sh ra csr) s) s sh fun now x => (f x).stepped 1 now
    gives 0 (BitVec.ofNat 32 (bit x.inexc 4 + bit x.pprv 3 + bit x.prv 2 + bit x.pie 1 + bit x.ie 0)) ∧
    gives 1 x.epc ∧ gives 2 x.cause ∧ gives 3 x.addr ∧ gives 4 x.scratch ∧
    gives 5 (x.acc.extractLsb' 0 32) ∧ gives 6 (x.acc.extractLsb' 32 32) ∧ gives 7 (BitVec.ofNat 32 sh.val) ∧
    leaves 0 (fun x => { x with inexc := v.getLsbD 4, pprv := v.getLsbD 3, pie := v.getLsbD 1, ie := v.getLsbD 0 }) ∧
    leaves 1 (fun x => { x with epc := v &&& 0xFFFFFFFC }) ∧ leaves 2 (fun x => { x with cause := v }) ∧
    leaves 3 (fun x => { x with addr := v }) ∧ leaves 4 (fun x => { x with scratch := v }) ∧
    leaves 5 (fun x => { x with acc := x.acc.extractLsb' 32 32 ++ v }) ∧
    leaves 6 (fun x => { x with acc := v ++ x.acc.extractLsb' 0 32 })

/--
An exception raised while INEXC is 1 (here by TRAP) leaves the shuttle FAULTED with c.epc, c.cause and c.addr of the second
exception, and a FAULTED shuttle takes no interrupt. HALT at S privilege leaves the shuttle HALTED past the instruction, and
drops the failures of posted writes not yet reported to it. In both cases the core clock stops if every enabled shuttle now
waits, is halted or faulted. Every register, flag and byte of memory that this does not name is as it was, up to what
counting notes. (R140, R116, R173, R123)
-/
def Obligations.FaultedAndHaltedShuttlesStop : Prop :=
  (∀ (s : State) (sh : Fin 4) (imm : BitVec 12), s.hasSlot sh = true → (s.sh sh).inexc = true →
    IssuedOn (exec (.trap sh imm) s) s sh
      (fun u => u.rested sh)
      (fun _ x => { x with
        epc := x.pc, cause := 9, addr := imm.setWidth 32, run := .faulted, busyOn := none, flow := false }) ∧
    ∀ t : State, (t.sh sh).run = .faulted → t.irq sh = none) ∧
  (∀ (s : State) (sh : Fin 4), s.issues sh = true → (s.sh sh).prv = false →
    IssuedOn (exec (.halt sh) s) s sh
      (fun u => ({ u with sys := { u.sys with failed := u.sys.failed.filter fun f => f.init != .shuttle sh } } : State).rested sh)
      (fun _ x => { x with run := .halted, pc := x.pc + 4, flow := false }))

/--
WAIT with mask m completes at once, with latch AND m in rd and those bits cleared, if m is 0 or shares a bit with the wait
latch; else its shuttle enters WAIT. WAIT_COMPLETE of a waiting shuttle with a masked event set restarts the core clock
where it had stopped and, with no interrupt due, returns it, clears its bits and moves the PC on; with an interrupt due it
enters that interrupt first and the WAIT stays to be executed again; without a masked event nothing changes. POST sets event
SOFT and the SOFT latch of exactly the shuttles in its set, and nothing for an empty set. PERF may pend from counting and is
left out of these equations. (R144, R167, R168, R169, R143, R123)
-/
def Obligations.EventsAreWaitedForAndPosted : Prop :=
  (∀ (sh : Fin 4) (rd ra : Fin 16) (imm : BitVec 12) (s : State), s.issues sh = true →
    let m : BitVec 16 := (s.reg sh ra ||| imm.setWidth 32).setWidth 16
    ∃ latch kept : BitVec 16,
      (∀ e : Nat, e ≠ 13 → latch.getLsbD e = (s.sh sh).wpend.getLsbD e ∧
        kept.getLsbD e = (latch &&& ~~~m).getLsbD e) ∧
      (s.prf.en = 0 → s.prf.cycen = false → latch = (s.sh sh).wpend ∧ kept = latch &&& ~~~m) ∧
      (m = 0 ∨ latch &&& m ≠ 0 → Issued (exec (.wait sh rd ra imm) s) s sh fun now x =>
        { x.wrote rd ((latch &&& m).setWidth 32) 1 now with wpend := kept }) ∧
      (m ≠ 0 ∧ latch &&& m = 0 → IssuedOn (exec (.wait sh rd ra imm) s) s sh
        (fun u => u.rested sh)
        (fun _ x => { x with run := .wait, waitMask := m, waitRd := rd, flow := false }))) ∧
  (∀ (sh : Fin 4) (s : State), s.powered = true → s.sys.coreStopped = false → (s.sh sh).en = true → (s.sh sh).run = .wait →
    let got := (s.sh sh).wpend &&& (s.sh sh).waitMask
    let src := if s.eng.stopped = true ∧ s.srcReady s.sys.curSrc = false then (if s.xt32Runs then 1 else 0) else s.sys.curSrc
    let u : State := { s with
      eng := { s.eng with stopped := false, same := { ev := 0, ovf := 0, ecc := 0 } }, sys := { s.sys with curSrc := src } }
    (got ≠ 0 → s.irq sh = none → exec (.waitComplete sh) s = .next (u.modSh sh fun x =>
      { x.wr x.waitRd (got.setWidth 32) with
        wpend := x.wpend &&& ~~~got, run := .ready, pc := x.pc + 4, freeAt := s.eng.cyc })) ∧
    (∀ e : Nat, got ≠ 0 → s.irq sh = some e → ∃ n : Noted, n.cyc = s.eng.cyc ∧ n.Counts s ∧
      exec (.waitComplete sh) s = .next ((u.modSh sh fun x =>
        x.interrupted (s.eng.vecbase + BitVec.ofNat 32 (0x100 * sh.val + 0x80)) e (max s.eng.cyc x.freeAt)).noted n)) ∧
    (got = 0 → exec (.waitComplete sh) s = .next s)) ∧
  (∀ (sh : Fin 4) (ra : Fin 16) (imm : BitVec 4) (s : State), s.issues sh = true →
    let set : BitVec 4 := (s.reg sh ra ||| imm.setWidth 32).setWidth 4
    ∃ (c : Nat) (n : Noted), s.nextSlot sh = some c ∧ n.cyc = c + 1 ∧
      exec (.post sh ra imm) s = .next ((s.modSh sh fun x => (x.fetched s.mem.oldNum).stepped 1 (c + 1)).noted n) ∧
      (∀ e : Nat, e ≠ 13 → n.evpend.getLsbD e = (s.eng.evpend.getLsbD e || (e == 15 && set != 0))) ∧
      (∀ (k : Fin 4) (e : Nat), e ≠ 13 → (n.wpend k).getLsbD e = ((s.sh k).wpend.getLsbD e || (e == 15 && set.getLsbD k))) ∧
      (s.prf.en = 0 → s.prf.cycen = false → n.prf = s.prf))

/--
FENCE completes at once when no posted write and no write-buffer entry of its shuttle is left, makes its shuttle BUSY
otherwise, and raises exception 0x07 with the address of the oldest failed write of its shuttle; FENCE_COMPLETE ends the
wait, or starts at its entry a shuttle that was started again meanwhile. A crossing that times out answers with cause 0xB: a
shuttle takes exception 0x07, the debug port's cause reads 0xB, a chain member answers its head with RDATA or WACK of that
cause, and the fault record takes the access. DRV, STAMP and COMMIT time out alike, at DRV_CMD, at TMP_NOW_LO and at the
base of the lowest domain that is late. POSTED_WRITE_COMPLETE takes the oldest posted write: acknowledged it acts,
unacknowledged it fails with cause 0xB, which is kept for its initiator unless that is halted. Which accesses can time out
is DEDUCED, log entry 35. Every register, flag and byte of memory that this does not name is as it was, up to what counting
notes. (R172, R30, R28, R14, R173, R181, R176, R513)
-/
def Obligations.FenceAndPostedWritesComplete : Prop :=
  (∀ (sh : Fin 4) (s : State),
    let done : Prop := (∀ p ∈ s.sys.posted, p.init ≠ .shuttle sh) ∧ ∀ e ∈ s.mem.wbuf, e.owners.getLsbD sh = false
    let clean : Prop := ∀ f ∈ s.sys.failed, f.init ≠ .shuttle sh
    let waits : Prop := (s.sh sh).run = .busy ∧ (s.sh sh).busyOn = some .fence ∧ (s.sh sh).en = true
    (s.issues sh = true → clean → done → Issued (exec (.fence sh) s) s sh fun now x => x.stepped 1 now) ∧
    (s.issues sh = true → clean → ¬ done →
      Issued (exec (.fence sh) s) s sh fun _ x => { x with run := .busy, busyOn := some .fence, flow := false }) ∧
    (s.issues sh = true → (s.sh sh).inexc = false →
      ∀ f, s.sys.failed.find? (fun f => f.init == .shuttle sh) = some f →
        IssuedOn (exec (.fence sh) s) s sh (fun u => { u with sys := { u.sys with failed := u.sys.failed.erase f } })
          fun now x => x.trapped (s.eng.vecbase + BitVec.ofNat 32 (0x100 * sh.val)) 7 f.addr now) ∧
    (s.powered = true → waits → clean → done →
      let entry := s.eng.vecbase + BitVec.ofNat 32 (0x100 * sh.val + 0xC0)
      exec (.fenceComplete sh) s = .next (s.modSh sh fun x =>
        if x.restart then { x with
          run := .ready, busyOn := none, restart := false, pc := entry, flow := true, prv := x.priv, ie := false, pie := false,
          inexc := false, freeAt := s.eng.cyc + flowCost entry }
        else { x with run := .ready, busyOn := none, pc := x.pc + 4, freeAt := s.eng.cyc })) ∧
    (waits → ¬ done → exec (.fenceComplete sh) s = .next s)) ∧
  (∀ (write : Bool) (addr : Word) (s : State), s.powered = true → s.crosses write addr.toNat = true →
    let late (i : Initiator) : Sys := s.sys.recorded (initCode i) write 0xB addr
    (∀ k : Fin 4, s.issues k = true → (s.sh k).inexc = false → s.dataGate k addr.toNat 4 write = none →
      IssuedOn (exec (.crossingTimeout (.access (.shuttle k) write addr)) s) s k
        (fun u => { u with sys := u.sys.recorded k.val write 0xB addr })
        fun now x => x.trapped (s.eng.vecbase + BitVec.ofNat 32 (0x100 * k.val)) 7 addr now) ∧
    (s.dbgMay addr.toNat write = true → Yields (exec (.crossingTimeout (.access .debug write addr)) s)
      { s with sys := { late .debug with dbgData := 0, dbgCause := 0xB } }) ∧
    (s.isMember = true → inMember addr.toNat = true → Yields (exec (.crossingTimeout (.access .chain write addr)) s)
      { s with
        sys := late .chain,
        lnk := if write then s.lnk.send .up 7 s.lnk.pos [0xB] else s.lnk.send .up 6 s.lnk.pos [0xB, 0] })) ∧
  (∀ (k : Fin 4) (s : State), s.powered = true → s.issues k = true → (s.sh k).inexc = false →
    let fails (o : Out) (write : Bool) (addr : Word) : Prop :=
      IssuedOn o s k (fun u => { u with sys := u.sys.recorded k.val write 0xB addr })
        fun now x => x.trapped (s.eng.vecbase + BitVec.ofNat 32 (0x100 * k.val)) 7 addr now
    ((s.sh k).prv = false ∨ (s.sh k).udev = true → s.sys.runDmi = true →
      fails (exec (.crossingTimeout (.drv k)) s) true 0x40005008) ∧
    ((∀ f ∈ s.sys.failed, f.init ≠ .shuttle k) → fails (exec (.crossingTimeout (.stamp k)) s) false 0x40004000) ∧
    ∀ mask late : BitVec 9, (s.sh k).prv = false ∨ (s.sh k).udev = true →
      (∀ d ∈ setBits mask.toNat 9, s.domainOff d = false) → ∀ d : Nat,
        (setBits (mask &&& late &&& 0x0FF).toNat 9).head? = some d →
        fails (exec (.crossingTimeout (.commit k mask late)) s) true (domainBase d)) ∧
  (∀ (ack : Bool) (p : Posted) (r : List Posted) (s : State), s.powered = true → s.sys.posted = p :: r →
    let u : State := { s with sys := { s.sys with posted := r } }
    let fails (t : State) (cause : Nat) : State :=
      { t with sys := { t.sys.recorded (initCode p.init) true cause p.addr with
        failed := if s.initHalted p.init then t.sys.failed
          else t.sys.failed ++ [{ init := p.init, addr := p.addr, cause := BitVec.ofNat 4 cause }] } }
    Yields (exec (.postedWriteComplete false) s) (fails u 0xB) ∧
    ((u.aonApply p.addr p.val).2 = 0 → exec (.postedWriteComplete true) s = .next (u.aonApply p.addr p.val).1))

/--
For an enabled shuttle with IE set that is READY or in WAIT, if e is the lowest event that is pending, routed to it and
enabled, INTERRUPT_ENTRY saves the PC in c.epc, sets c.cause to 0x40 + e and c.addr to 0, saves and clears IE, saves PRV and
enters S, keeps INEXC, and goes to ENG_VECBASE + 0x100 x s + 0x80; a READY shuttle enters at its next issue slot, stated
where its word raises no exception of its own. A stopped core clock restarts. While e is so due, an instruction command of a
READY shuttle whose fetch raises no exception takes that entry in place of the instruction, stated for one form of each
shape. PERF and the events above it are stated where nothing counts. That the entry also has a command of its own is DESIGN
CHOICE, log entry 14. Every register, flag and byte of memory that this does not name is as it was, up to what counting
notes. (R138, R141, R145, R123, R168, R171, R174)
-/
def Obligations.InterruptEntryTakesTheLowestEvent : Prop :=
  (∀ (sh : Fin 4) (e : Fin 16) (s : State), s.powered = true → s.sys.coreStopped = false →
    let x := s.sh sh
    let meets (e : Nat) : Prop := s.eng.evpend.getLsbD e = true ∧ fld s.eng.evroute (2 * e) 2 = sh.val ∧ x.ien.getLsbD e = true
    let src := if s.eng.stopped = true ∧ s.srcReady s.sys.curSrc = false then (if s.xt32Runs then 1 else 0) else s.sys.curSrc
    let u : State := { s with eng := { s.eng with stopped := false }, sys := { s.sys with curSrc := src } }
    x.en = true → x.ie = true → meets e → (∀ k : Nat, k < e → ¬ meets k) →
    (x.run = .wait → ∃ n : Noted, n.cyc = s.eng.cyc ∧ n.Counts s ∧
      exec (.interruptEntry sh) s = .next ((u.modSh sh fun x =>
        x.interrupted (s.eng.vecbase + BitVec.ofNat 32 (0x100 * sh.val + 0x80)) e (max s.eng.cyc x.freeAt)).noted n)) ∧
    (x.run = .ready → u.hasSlot sh = true → u.wordCause sh = none → e.val < 13 ∨ s.prf.en = 0 ∧ s.prf.cycen = false →
      Interrupts (exec (.interruptEntry sh) s) u sh e)) ∧
  (∀ (sh : Fin 4) (e : Fin 16) (s : State),
    let x := s.sh sh
    let meets (e : Nat) : Prop := s.eng.evpend.getLsbD e = true ∧ fld s.eng.evroute (2 * e) 2 = sh.val ∧ x.ien.getLsbD e = true
    x.en = true → x.ie = true → x.run = .ready → s.hasSlot sh = true →
    meets e → (∀ k : Nat, k < e → ¬ meets k) → e.val < 13 ∨ s.prf.en = 0 ∧ s.prf.cycen = false →
    ∀ (rd ra rb : Fin 16) (imm : BitVec 18) (m : BitVec 12) (set : BitVec 4),
      let first (c : Instr) : Prop := Interrupts (exec c s) s sh e
      first (.add sh rd ra rb) ∧ first (.addi sh rd ra imm) ∧ first (.mul sh rd ra rb) ∧ first (.ldw sh rd ra imm) ∧
      first (.stw sh rd ra imm) ∧ first (.beq sh ra rb imm) ∧ first (.jalr sh rd ra imm) ∧ first (.wait sh rd ra m) ∧
      first (.post sh ra set) ∧ first (.fence sh) ∧
      (x.prv = false → first (.eret sh) ∧ (m.toNat ≤ 6 → first (.csrw sh ra m))))

/--
A load by shuttle sh from an aligned address that the MPU grants, in ROM, SRAM or MRAM outside the key store, whose 64-bit
word has no error and no buffered store, returns the bytes at ra + sext(imm18), little-endian, sign- or zero-extended. LDD
fills the pair. MRAM loads cost 3 slots and the others 1; LDD costs one more. No byte of memory changes. Every register,
flag and byte of memory that this does not name is as it was, up to what counting notes. (R160, R119, R199)
-/
def Obligations.LoadsReadMemoryBytes : Prop :=
  ∀ (sh : Fin 4) (rd ra : Fin 16) (imm : BitVec 18) (s : State), s.issues sh = true →
    let a := (s.reg sh ra + imm.signExtend 32).toNat
    let b (k : Nat) : Byte := s.byte (a + k)
    let mram := inMram a = true ∧ inKeyStore a = false
    let ready (n : Nat) : Prop := a % n = 0 ∧ s.mpuOk sh a .r = true ∧ (inRom a = true ∨ inSram a = true ∨ mram) ∧
      (inRom a = true ∨ s.mem.eccOf (a / 8 * 8) = 0 ∧ s.mem.entryOf (a / 8 * 8) = none)
    let gives (i : Instr) (n : Nat) (v : Word) : Prop := ready n →
      Issued (exec i s) s sh fun now x => x.wrote rd v (if inMram a then 3 else 1) now
    gives (.ldw sh rd ra imm) 4 (b 3 ++ b 2 ++ b 1 ++ b 0) ∧
    gives (.ldh sh rd ra imm) 2 ((b 1 ++ b 0).signExtend 32) ∧
    gives (.ldhu sh rd ra imm) 2 ((b 1 ++ b 0).setWidth 32) ∧
    gives (.ldb sh rd ra imm) 1 ((b 0).signExtend 32) ∧
    gives (.ldbu sh rd ra imm) 1 ((b 0).setWidth 32) ∧
    (rd.val % 2 = 0 → ready 8 → Issued (exec (.ldd sh rd ra imm) s) s sh fun now x =>
      (x.wr rd (b 3 ++ b 2 ++ b 1 ++ b 0)).wrote (rd + 1) (b 7 ++ b 6 ++ b 5 ++ b 4) (if inMram a then 4 else 2) now)

/--
A store by shuttle sh to an aligned SRAM address that the MPU grants, into a word with no error and with no injection
requested, writes the low bytes of rs (of the pair for STD) little-endian at ra + sext(imm18). Every other byte of memory
reads as before, and the rest of the memory system is as it was. STD costs 2 slots and the others 1. Every register, flag
and byte of memory that this does not name is as it was, up to what counting notes. (R160, R119)
-/
def Obligations.StoresWriteSramBytes : Prop :=
  ∀ (sh : Fin 4) (rs ra : Fin 16) (imm : BitVec 18) (s : State), s.issues sh = true → Memory.wf s.mem = true →
    let a := (s.reg sh ra + imm.signExtend 32).toNat
    let ready (n : Nat) : Prop := a % n = 0 ∧ s.mpuOk sh a .w = true ∧ inSram a = true ∧
      s.mem.eccOf (a / 8 * 8) = 0 ∧ s.mem.inj = 0
    let stores (i : Instr) (n cost : Nat) (v : Nat → Byte) : Prop := ready n →
      ∃ m : Mem, IssuedOn (exec i s) s sh (fun u => { u with mem := m }) (fun now x => x.stepped cost now) ∧
        (∀ x : Nat, cellAt m.cells x = if a ≤ x ∧ x < a + n then v (x - a) else cellAt s.mem.cells x) ∧
        (∀ w : Nat, m.eccOf w = s.mem.eccOf w) ∧ { m with cells := s.mem.cells, ecc := s.mem.ecc } = s.mem
    let b (w : Word) (k : Nat) : Byte := w.extractLsb' (8 * k) 8
    stores (.stw sh rs ra imm) 4 1 (b (s.reg sh rs)) ∧
    stores (.sth sh rs ra imm) 2 1 (b (s.reg sh rs)) ∧
    stores (.stb sh rs ra imm) 1 1 (b (s.reg sh rs)) ∧
    (rs.val % 2 = 0 →
      stores (.std sh rs ra imm) 8 2 fun k => if k < 4 then b (s.reg sh rs) k else b (s.reg sh (rs + 1)) (k - 4))

/--
A store by shuttle sh to an aligned, unprotected MRAM address whose word has no entry in the write buffer appends an entry
with the word's address, the shifted data, the byte mask and the shuttle as its owner when fewer than four entries stand and
no store waits before it, and makes its shuttle BUSY with its cycle otherwise. Nothing else changes; in particular no byte
of MRAM. Every register, flag and byte of memory that this does not name is as it was, up to what counting notes. (R163,
R194, R189)
-/
def Obligations.MramStoresEnterTheWriteBuffer : Prop :=
  ∀ (sh : Fin 4) (rs ra : Fin 16) (imm : BitVec 18) (s : State), s.issues sh = true →
    let addr := s.reg sh ra + imm.signExtend 32
    let a := addr.toNat
    let ready (n : Nat) : Prop := a % n = 0 ∧ s.mpuOk sh a .w = true ∧ inMram a = true ∧ s.mramGate a = 0 ∧
      s.mem.entryOf (a / 8 * 8) = none ∧ s.mem.inj = 0
    let room : Prop := s.mem.wbuf.length < 4 ∧ ∀ k : Fin 4, (s.sh k).stalled = false
    let buffers (i : Instr) (n cost : Nat) (v : DWord) : Prop := ready n →
      (room → IssuedOn (exec i s) s sh
        (fun u => { u with mem := { u.mem with wbuf := u.mem.wbuf ++ [{
          word := a / 8 * 8, data := v <<< (8 * (a % 8)), mask := BitVec.ofNat 8 ((2 ^ n - 1) * 2 ^ (a % 8)),
          owners := BitVec.ofNat 4 (2 ^ sh.val), inj := 0 }] } })
        (fun now x => x.stepped cost now)) ∧
      (¬ room → Issued (exec i s) s sh fun now x =>
        { x with run := .busy, busyOn := some (.mramStore addr n v 0 now), flow := false })
    let w := s.reg sh rs
    buffers (.stw sh rs ra imm) 4 1 (w.setWidth 64) ∧
    buffers (.sth sh rs ra imm) 2 1 ((w.setWidth 16).setWidth 64) ∧
    buffers (.stb sh rs ra imm) 1 1 ((w.setWidth 8).setWidth 64) ∧
    (rs.val % 2 = 0 → buffers (.std sh rs ra imm) 8 2 (s.reg sh (rs + 1) ++ w))

/--
From INEXC 0 a load or store of width n raises exception 0x06 at a misaligned address, then 0x02 at an address that R130
bars U code from, then 0x04 or 0x05 where the MPU does not grant it, each with c.addr the address, in that order of
priority. Nothing is accessed and nothing is logged in SYS_FAULT_ADDR. Every register, flag and byte of memory that this
does not name is as it was, up to what counting notes. (R130, R132, R136, R160)
-/
def Obligations.RefusedDataAccessesTrap : Prop :=
  ∀ (sh : Fin 4) (r ra : Fin 16) (imm : BitVec 18) (s : State), s.issues sh = true → (s.sh sh).inexc = false →
    let addr := s.reg sh ra + imm.signExtend 32
    let a := addr.toNat
    let block (k : Nat) : Prop := 0x40000000 + 0x1000 * k ≤ a ∧ a < 0x40000000 + 0x1000 * (k + 1)
    let window : Prop := 0x60000000 ≤ a ∧ a < 0x62000000
    let barred (wr : Bool) : Prop := (s.sh sh).prv = true ∧
      (window ∨ wr = true ∧ (block 0 ∨ block 1 ∨ block 2 ∨ block 11 ∨ block 12) ∨
        wr = false ∧ block 12 ∧ s.prf.uread = false)
    let refused (i : Instr) (n : Nat) (wr : Bool) : Prop :=
      (a % n ≠ 0 → Traps (exec i s) s sh 6 addr) ∧
      (a % n = 0 → barred wr → Traps (exec i s) s sh 2 addr) ∧
      (a % n = 0 → ¬ barred wr → s.mpuOk sh a (if wr then .w else .r) = false →
        Traps (exec i s) s sh (if wr then 5 else 4) addr)
    refused (.ldw sh r ra imm) 4 false ∧ refused (.ldh sh r ra imm) 2 false ∧ refused (.ldhu sh r ra imm) 2 false ∧
    refused (.ldb sh r ra imm) 1 false ∧ refused (.ldbu sh r ra imm) 1 false ∧
    refused (.stw sh r ra imm) 4 true ∧ refused (.sth sh r ra imm) 2 true ∧ refused (.stb sh r ra imm) 1 true ∧
    (r.val % 2 = 0 → refused (.ldd sh r ra imm) 8 false ∧ refused (.std sh r ra imm) 8 true)

/--
When shuttle sh issues CRC with a select below 3, rd gets the bit-reflected update of rd by the low n bytes of ra, lowest
byte and lowest bit first, with polynomial 0xEDB88320, 0x82F63B78 or 0x8408 (over the low 16 bits of rd), without initial
value or final inversion, at a cost of one slot. Every register, flag and byte of memory that this does not name is as it
was, up to what counting notes. (R186)
-/
def Obligations.CrcUpdatesBitByBit : Prop :=
  ∀ (sh : Fin 4) (rd ra : Fin 16) (imm : BitVec 4) (s : State), s.issues sh = true → imm.toNat < 12 →
    let sel := imm.toNat / 4
    let poly : Word := if sel = 0 then 0xEDB88320 else if sel = 1 then 0x82F63B78 else 0x8408
    let start : Word := if sel = 2 then s.reg sh rd &&& 0xFFFF else s.reg sh rd
    let data := s.reg sh ra
    let crc := (List.range (8 * (imm.toNat % 4 + 1))).foldl (fun (c : Word) k =>
      if (c.getLsbD 0 ^^ data.getLsbD k) = true then c >>> 1 ^^^ poly else c >>> 1) start
    Issued (exec (.crc sh rd ra imm) s) s sh fun now x => x.wrote rd crc 1 now

/--
SNAP by S code, or by U code with UREAD set, copies PRF_CYC or a pair of counters as they stand before its cycle into (rd,
rd+1); U code without UREAD takes exception 0x02 with the register's address. STAMP copies local time, or plant time as
local time plus the offset, at the instant of its ring reading into the pair, at the cost of a crossing to AON that waits
for the one before it, and takes exception 0x07 for an earlier failed posted write of its shuttle. That the ring reading
gives the instant inside an XT32 period is DESIGN CHOICE, log entry 11. Every register, flag and byte of memory that this
does not name is as it was, up to what counting notes. (R177, R178, R184, R30, R125, R350)
-/
def Obligations.CountsAndTimeAreReadWhole : Prop :=
  (∀ (sh : Fin 4) (rd : Fin 16) (sel : BitVec 12) (s : State), s.issues sh = true → rd.val % 2 = 0 → sel.toNat ≤ 4 →
    ((s.sh sh).prv = false ∨ s.prf.uread = true →
      ∃ (c : Nat) (n : Noted), s.nextSlot sh = some c ∧ s.idleTick (c - s.eng.cyc) = s.noted n ∧
        let v : DWord := if h : sel.toNat = 0 then n.prf.cyc else
          n.prf.cnt[2 * sel.toNat - 1]! ++ n.prf.cnt[2 * sel.toNat - 2]!
        Issued (exec (.snap sh rd sel) s) s sh fun now x =>
          (x.wr rd (v.extractLsb' 0 32)).wrote (rd + 1) (v.extractLsb' 32 32) 2 now) ∧
    ((s.sh sh).prv = true → s.prf.uread = false → (s.sh sh).inexc = false →
      Traps (exec (.snap sh rd sel) s) s sh 2
        (if sel.toNat = 0 then 0x4000C004 else BitVec.ofNat 32 (0x4000C008 + 8 * sel.toNat)))) ∧
  (∀ (sh : Fin 4) (rd : Fin 16) (plant : Bool) (ph : Ring) (s : State), s.issues sh = true → rd.val % 2 = 0 →
    let phase := max s.tmp.phase (if s.tmp.counting then s.tmp.captured 1 ph else 0)
    let local' : DWord := if s.tmp.counting then s.tmp.now + BitVec.ofNat 64 phase else 0
    let v := if plant then local' + s.tmp.offs else local'
    let base := s.eng.vecbase + BitVec.ofNat 32 (0x100 * sh.val)
    ((∀ f ∈ s.sys.failed, f.init ≠ .shuttle sh) →
      Crosses (exec (.stamp sh rd plant ph) s) s sh [(.aon, s.crossCost 250)]
        (fun u => { u with tmp := { u.tmp with phase := phase } })
        fun cost now x => (x.wr rd (v.extractLsb' 0 32)).wrote (rd + 1) (v.extractLsb' 32 32) cost now) ∧
    ((s.sh sh).inexc = false → ∀ f, s.sys.failed.find? (fun f => f.init == .shuttle sh) = some f →
      IssuedOn (exec (.stamp sh rd plant ph) s) s sh
        (fun u => { u with tmp := { u.tmp with phase := phase }, sys := { u.sys with failed := u.sys.failed.erase f } })
        fun now x => x.trapped base 7 f.addr now))

/--
COMMIT at S privilege, or by U code with UDEV, with no reserved bit and with the islands of all named domains running,
clears the named domains with CANCEL set and arms them otherwise, and returns the domains armed afterwards in the low bits
and those of the mask that had been armed from bit 16. Naming domain NRG it first completes the posted writes, and takes
exception 0x07 with the address of its shuttle's oldest failed write if one is left. Arming is stated twice: while no domain
it leaves armed is idle, with the whole next state; and in general, where the idle domains swap at once. The cost in slots
is that of the slowest crossing, three XT32 periods for NRG: DEDUCED, log entry 34. Every register, flag and byte of memory
that this does not name is as it was, up to what counting notes. (R179, R180, R181, R182, R183, R214, R125)
-/
def Obligations.CommitArmsAndCancels : Prop :=
  (∀ (sh : Fin 4) (rd ra : Fin 16) (imm : BitVec 12) (s : State), s.issues sh = true →
    ((s.sh sh).prv = false ∨ (s.sh sh).udev = true) →
    let op := s.reg sh ra ||| imm.setWidth 32
    let mask : BitVec 9 := op.setWidth 9
    let off (d : Nat) : Prop := d = 0 ∧ s.sys.runRad = false ∨ 1 ≤ d ∧ d ≤ 6 ∧ s.sys.runDmi = false
    let isls : List (GatherIsland × Nat) :=
      (if mask.getLsbD 0 then [(.radio, s.crossCost 125)] else []) ++
        (if mask &&& 0x7E#9 = 0 then [] else [(.dmi, s.crossCost 125)]) ++
        (if mask.getLsbD 7 then [(.aon, s.crossCost 91553)] else [])
    let rest : Prop := (s.armed ||| mask).getLsbD 0 = true → s.macRuns = true
    let flows : Prop := ∀ n : Fin 3, (s.armed ||| mask).getLsbD (1 + n) = true → (s.flow n).meas = true
    let lines : Prop := ∀ n : Fin 3, (s.armed ||| mask).getLsbD (4 + n) = true →
      (s.prsLine n).state ≠ .off ∧ (s.prsLine n).state ≠ .hold
    op &&& 0xFFFFF600 = 0 → (∀ d : Nat, mask.getLsbD d = true → ¬ off d) →
    (mask.getLsbD 7 = true → s.sys.posted = [] ∧ ∀ f ∈ s.sys.failed, f.init ≠ .shuttle sh) →
    (op.getLsbD 11 = true → Crosses (exec (.commit sh rd ra imm) s) s sh isls
      (fun u => { u with armed := u.armed &&& ~~~mask })
      fun cost now x => x.wrote rd ((s.armed &&& mask).setWidth 32 <<< 16 ||| (s.armed &&& ~~~mask).setWidth 32) cost now) ∧
    (op.getLsbD 11 = false → rest → flows → lines → Crosses (exec (.commit sh rd ra imm) s) s sh isls
      (fun u => { u with armed := u.armed ||| mask })
      fun cost now x => x.wrote rd ((s.armed &&& mask).setWidth 32 <<< 16 ||| (s.armed ||| mask).setWidth 32) cost now)) ∧
  (∀ (sh : Fin 4) (rd ra : Fin 16) (imm : BitVec 12) (s : State), s.issues sh = true →
    ((s.sh sh).prv = false ∨ (s.sh sh).udev = true) →
    let op := s.reg sh ra ||| imm.setWidth 32
    let mask : BitVec 9 := op.setWidth 9
    op &&& 0xFFFFF600 = 0 → (∀ d ∈ setBits mask.toNat 9, s.domainOff d = false) →
    ∃ u : State, s.AtBus (.shuttle sh) u ∧
      let w := if mask.getLsbD 7 then u.drainPosted else u
      ((mask.getLsbD 7 = true → ∀ f ∈ w.sys.failed, f.init ≠ .shuttle sh) →
        let t := if op.getLsbD 11 then { w with armed := w.armed &&& ~~~mask }
          else ({ w with armed := w.armed ||| mask } : State).swapIdle
        let r := t.setReg sh rd ((w.armed &&& mask).setWidth 32 <<< 16 ||| t.armed.setWidth 32)
        exec (.commit sh rd ra imm) s = .next
          (if mask &&& 0x0FF = 0 then r.advance sh 1 else r.crossed sh (r.commitCrossings mask))) ∧
      (mask.getLsbD 7 = true → ∀ f, w.sys.failed.find? (fun f => f.init == .shuttle sh) = some f →
        exec (.commit sh rd ra imm) s =
          .next (({ w with sys := { w.sys with failed := w.sys.failed.erase f } } : State).raise sh 7 f.addr)))

/--
CORE_CLOCK_SWITCH takes a ready requested source and lets XO32M stop if nothing uses it, CORE_CLOCK_RESTART ends a stop, and
a stop of XO32M ends both islands, turns the radio off and moves a core that runs on XO to its fallback with FALLBACK set. A
write that sets EN of a shuttle starts it at ENG_VECBASE + 0x100 x s + 0xC0 with PRV from PRIV, IE, PIE and INEXC 0 and its
wait latches clear, and keeps its registers; one that is still BUSY starts when its instruction has completed. A write that
clears EN disables it, at once or when it is no longer BUSY. Each such write also brings the FIXED and RECEIVE bits of
earlier rounds into force. Every register, flag and byte of memory that this does not name is as it was, up to what counting
notes. (R121, R122, R123, R114, R115, R117)
-/
def Obligations.CoreClockAndShuttlesStartAndStop : Prop :=
  (∀ s : State, s.powered = true →
    (s.eng.stopped = false → s.sys.coreStopped = false → s.sys.curSrc ≠ s.sys.src → s.srcReady s.sys.src = true →
      exec .coreClockSwitch s = .next { s with sys := { s.sys with
        curSrc := s.sys.src, xoRun := s.sys.xoRun && (s.sys.runDmi || s.sys.runRad || s.sys.src == 2) } }) ∧
    (s.eng.stopped = true → s.sys.coreStopped = false → s.canWake = true →
      exec .coreClockRestart s = .next { s with
        eng := { s.eng with stopped := false },
        sys := { s.sys with curSrc := if s.srcReady s.sys.curSrc then s.sys.curSrc else s.fallSrc } }) ∧
    (s.sys.xoRun = true → ∃ t : State, exec .xo32mStop s = .next t ∧
      t.sys = { s.sys with
        xoRun := false, runDmi := false, runRad := false,
        curSrc := if s.sys.curSrc = 2 && !s.eng.stopped then s.fallSrc else s.sys.curSrc,
        fallback := s.sys.fallback || (s.sys.curSrc = 2 && !s.eng.stopped) } ∧
      (s.sys.runRad = true → t.rad.state = .off) ∧ t.mem = s.mem ∧ t.tmp = s.tmp ∧ t.mac = s.mac ∧
      ∀ k : Fin 4, { t.sh k with wpend := (s.sh k).wpend } = s.sh k)) ∧
  (∀ (i : Initiator) (k : Fin 4) (s : State), s.powered = true → s.reaches i 0x40001004 true = true →
    let settled (u : State) : State :=
      let now := inForce u.eng.flagAt u.eng.cyc
      ({ u with eng := { u.eng with flagAt := u.eng.cyc } } : State).allSh fun x => { x with
        fixedAct := if now then x.fixedReq else x.fixedAct, recvAct := if now then x.recvReq else x.recvAct }
    ((s.sh k).en = false →
      Written (exec (.shuttleStart i k) s) s i 0x40001004 fun u =>
        let entry := u.eng.vecbase + BitVec.ofNat 32 (0x100 * k.val + 0xC0)
        ((settled u).coreStart.modSh k fun x =>
          if x.run = .busy then { x with en := true, wpend := 0, restart := true }
          else { x with
            en := true, pc := entry, flow := true, run := .ready, busyOn := none, restart := false, prv := x.priv, ie := false,
            pie := false, inexc := false, wpend := 0, freeAt := max u.eng.cyc x.freeAt + flowCost entry }).afterWrite) ∧
    ((s.sh k).en = true →
      Written (exec (.shuttleDisable i k) s) s i 0x40001004 fun u =>
        (((settled u).modSh k fun x =>
          if x.run = .busy then { x with en := false, restart := false }
          else { x with en := false, run := .disabled }).checkStop).afterWrite))

/--
XO32M_STABLE starts XO32M, the islands that have a reason to run, and a core whose source is XO, and lands what waits for
the DMI. An island that may stop stops, with XO32M if nothing else needs it, and the radio goes OFF with its island; a core
still on XO moves to its requested source, or to its fallback with FALLBACK set where that source is not ready.
ISSUE_TABLE_APPLY brings the written issue table and the FIXED and RECEIVE bits into force at a cycle that is a multiple of
16, within 16 cycles. That both islands start in one step is DEDUCED, log entry 32, and the time of the apply DEDUCED, log
entry 33. (R127, R117, R121, R122)
-/
def Obligations.IslandsAndIssueTableTakeEffect : Prop :=
  (∀ s : State, s.powered = true →
    let ready := s.sys.src == 0 || (s.sys.src == 1 && s.xt32Runs)
    (s.sys.xoRun = false → s.xoWanted = true → ∃ u : State, exec .xo32mStable s = .next u.drvLandAll ∧
      u.sys = { s.sys with
        xoRun := true, runDmi := s.sys.runDmi || s.dmiWanted, runRad := s.sys.runRad || s.radWanted,
        curSrc := if s.sys.src = 2 && !s.eng.stopped then 2 else s.sys.curSrc }) ∧
    (s.mayStop .dmi = true → ∃ t : State, exec (.islandStop .dmi) s = .next t ∧
      t.drv.stopAt = s.local.toNat ∧
      let leaves := s.sys.xoRun && !(s.sys.runRad || s.coreWantsXo) && s.sys.curSrc == 2 && !s.eng.stopped
      t.sys = { s.sys with
        runDmi := false, xoRun := s.sys.xoRun && (s.sys.runRad || s.coreWantsXo),
        curSrc := if leaves then (if ready then s.sys.src else s.fallSrc) else s.sys.curSrc,
        fallback := s.sys.fallback || leaves && !ready }) ∧
    (s.mayStop .radio = true → ∃ t : State, exec (.islandStop .radio) s = .next t ∧
      t.rad.state = .off ∧
      let leaves := s.sys.xoRun && !(s.sys.runDmi || s.coreWantsXo) && s.sys.curSrc == 2 && !s.eng.stopped
      t.sys = { s.sys with
        runRad := false, xoRun := s.sys.xoRun && (s.sys.runDmi || s.coreWantsXo),
        curSrc := if leaves then (if ready then s.sys.src else s.fallSrc) else s.sys.curSrc,
        fallback := s.sys.fallback || leaves && !ready })) ∧
  (∀ s : State, s.coreRuns = true → ∃ n : Noted,
    let t := { s with eng := { s.eng with issueAct := s.eng.issueReq } }.allSh fun x =>
      { x with fixedAct := x.fixedReq, recvAct := x.recvReq }
    n.Counts t ∧ n.cyc % 16 = 0 ∧ s.eng.cyc ≤ n.cyc ∧ n.cyc < s.eng.cyc + 16 ∧ exec .issueTableApply s = .next (t.noted n))

/--
A write that reaches its register and has no reserved bit set stores its fields: SRC, DIV and a cleared FALLBACK in
SYS_CORECLK, ENG_VECBASE, EN, PERIOD and KMASK of SYS_WDOG while EN is 0 (and nothing once EN is 1), a kick of the writing
shuttle, MEM_CTL with its injection request, which takes earlier requests from stores not yet written, ENG_ISSUE as
requested from the next round on, ENG_EVPEND and the wait latches by writing ones but for occurrences of the same cycle, the
enables of ENG_EVMASK, ENG_EVROUTE and ENG_MPUCTL. For a shuttle the write is its store instruction, for the debug port its
access. Every register, flag and byte of memory that this does not name is as it was, up to what counting notes. (R121,
R147, R107, R205, R117, R142, R145, R146, R15)
-/
def Obligations.ControlRegistersTakeTheirFields : Prop :=
  (∀ (i : Initiator) (v : Word) (low : BitVec 16) (s : State), s.powered = true →
    (s.reaches i 0x40000018 true = true → fld v 12 20 = 0 → fld v 6 2 = 0 → fld v 2 2 = 0 → fld v 0 2 ≠ 3 →
      Written (exec (.coreClockRequest i v) s) s i 0x40000018 fun u => ({ u with
        sys := { u.sys with
          fallback := u.sys.fallback && !v.getLsbD 11, div := v.extractLsb' 4 2, src := v.extractLsb' 0 2 } } :
            State).afterWrite) ∧
    (s.reaches i 0x40001024 true = true → vecbaseOk v = true →
      Written (exec (.engVecbaseWrite i v) s) s i 0x40001024 fun u =>
        ({ u with eng := { u.eng with vecbase := v } } : State).afterWrite) ∧
    (s.reaches i 0x40000020 true = true → low.extractLsb' 12 3 = 0 → low.extractLsb' 4 4 ≠ 0 →
      Written (exec (.wdogConfig i low) s) s i 0x40000020 fun u =>
        ((if u.sys.wdogEn then u else { u with
          sys := { u.sys with
            wdogEn := low.getLsbD 15, wdogPeriod := low.extractLsb' 8 4, wdogKmask := low.extractLsb' 4 4 } } :
              State)).afterWrite) ∧
    (∀ k : Fin 4, s.reaches (.shuttle k) 0x40000020 true = true →
      Written (exec (.wdogKick (.shuttle k) low) s) s (.shuttle k) 0x40000020 fun u =>
        let kicked := u.sys.wdogKicked ||| BitVec.ofNat 4 (2 ^ k.val)
        ({ u with
          sys := { u.sys with wdogKicked := if u.sys.wdogKmask &&& ~~~kicked = 0 then 0 else kicked } } : State).afterWrite) ∧
    (s.reaches i 0x40002000 true = true → fld v 24 8 = 0 → fld v 4 12 = 0 → v.getLsbD 1 = false → fld v 2 2 ≠ 3 →
      Written (exec (.eccInjectRequest i v) s) s i 0x40002000 fun u => (({ u with
        mem := { u.mem with
          cthresh := v.extractLsb' 16 8, inj := v.extractLsb' 2 2, cwb := v.getLsbD 0,
          wbuf := u.mem.wbuf.map fun e => { e with inj := 0 } } } : State).allSh fun x => { x with
            busyOn := match x.busyOn with
              | some (.mramStore a n d _ t) => some (.mramStore a n d 0 t)
              | b => b }).afterWrite)) ∧
  (∀ (i : Initiator) (v : Word) (s : State), s.powered = true →
    (s.reaches i 0x40001000 true = true → Written (exec (.registerWrite i 0x40001000 v) s) s i 0x40001000 fun u =>
      ({ u with eng := { u.eng with
        issueAct := if u.eng.issueAt ≤ u.eng.cyc / 16 * 16 then u.eng.issueReq else u.eng.issueAct, issueReq := v,
        issueAt := u.eng.cyc } } : State).afterWrite) ∧
    (s.reaches i 0x40001008 true = true → fld v 16 16 = 0 →
      Written (exec (.registerWrite i 0x40001008 v) s) s i 0x40001008 fun u =>
        ({ u with eng := { u.eng with evpend := u.eng.evpend &&& ~~~(v.extractLsb' 0 16 &&& ~~~u.eng.same.ev) } } : State).afterWrite) ∧
    (∀ k : Fin 4, s.reaches i (0x40001010 + 4 * k.val) true = true →
      Written (exec (.registerWrite i (BitVec.ofNat 32 (0x40001010 + 4 * k.val)) v) s) s i (0x40001010 + 4 * k.val) fun u =>
        (u.modSh k fun x => { x with
          wpend := x.wpend &&& ~~~(v.extractLsb' 16 16 &&& ~~~u.eng.same.ev), ien := v.extractLsb' 0 16 }).afterWrite) ∧
    (s.reaches i 0x40001020 true = true → Written (exec (.registerWrite i 0x40001020 v) s) s i 0x40001020 fun u =>
      ({ u with eng := { u.eng with evroute := v } } : State).afterWrite) ∧
    (s.reaches i 0x40001060 true = true → v &&& 0xFFFFFF0C = 0 →
      Written (exec (.registerWrite i 0x40001060 v) s) s i 0x40001060 fun u =>
        ({ u with eng := { u.eng with mpuctl := v } } : State).afterWrite))

/--
PIN, BROWNOUT, WDOG, DEBUG and SOFT resets record their cause (an earlier cause of the same XT32 period stands if it ranks
first), return to boot, clear ENG_VECBASE, every armed domain and every shuttle, and keep tempo, its offset and the queue of
commands; BROWNOUT also loses SRAM, and the others keep memory where no store waits. A cold start records COLD, the ship
exit and the straps, resets the TMP and DRV blocks and loses SRAM. The end of the reset hold cold-starts or powers off.
BOOT_HANDOVER fails to BOOTFAIL on a failed self-test, with the DMI running, or on no image that verifies, and otherwise
sets ENG_VECBASE from the chosen image and sends S0 to its start entry at S privilege with IE 0; REQDMI and REQRAD read 0
after it. What the boot ROM does is one step, DEDUCED, log entries 7 and 38. (R97, R104, R105, R106, R17, R44, R56, R94,
R113, R480, R390)
-/
def Obligations.ResetsAndBootFollowTheirRules : Prop :=
  (∀ s : State, s.powered = true →
    let after (cause : BitVec 4) (lose : Bool) (t : State) : Prop :=
      t.sys.rstCause = (if s.sys.rstRecent && decide (resetRank s.sys.rstCause < resetRank cause) then s.sys.rstCause else cause) ∧
      t.sys.power = .boot ∧ t.sys.wdogEn = false ∧ t.eng.vecbase = 0 ∧ t.armed = 0 ∧
      t.sec.dbgOpen = false ∧ t.tmp.now = s.tmp.now ∧ t.tmp.offs = s.tmp.offs ∧ t.pending = s.pending ∧
      (∀ k : Fin 4, { t.sh k with wpend := 0 } = Shuttle.reset (k == 0)) ∧
      (lose = true ∨ s.mem.wbuf = [] ∧ (∀ k : Fin 4, (s.sh k).stalled = false) →
        t.mem.cells = if lose then s.mem.cells.filter fun c => !inSram c.1 else s.mem.cells)
    (∃ t : State, exec .pinReset s = .next t ∧ after 1 false t) ∧
    (∃ t : State, exec .brownoutReset s = .next t ∧ after 5 true t) ∧
    (s.sys.wdogEn = true → s.sys.wdogStopped = false → (∃ k : Fin 4, (s.sh k).run ≠ .debug) →
      ∃ t : State, exec .wdogTimeout s = .next t ∧ after 3 false t) ∧
    (s.lifecycle ≠ 2 ∨ s.dbgLock = false ∨ s.sec.dbgOpen = true ∧ s.sec.scope.getLsbD 3 = true →
      ∃ t : State, exec .debugReset s = .next t ∧ after 4 false t) ∧
    (∀ i : Initiator, s.reaches i 0x40000008 true = true → s.sys.posted = [] →
      ∃ t : State, exec (.softwareReset i 0x0C5E0001) s = .next t ∧ after 2 false t)) ∧
  (∀ (p : PowerUp) (s : State),
    let started (t : State) : Prop :=
      t.sys.power = .boot ∧ t.sys.rstCause = 0 ∧ t.sys.shipExit = (p.source == .shipPanel || p.source == .shipWake) ∧
      t.sys.tcxo = p.tcxo ∧ t.nrg.dcMode = (mpsetOf p.mpsetPv).2.1 ∧ t.nrgx.vMpset = (mpsetOf p.mpsetPv).1 ∧
      t.nrgx.tegFrac = tegFracOf p.mpsetTeg ∧ t.mem.cells = s.mem.cells.filter (fun c => !inSram c.1) ∧ t.tmp = Tmp.reset ∧
      t.drv = Drv.reset ∧ t.pending = s.pending ∧ ∀ k : Fin 4, { t.sh k with wpend := 0 } = Shuttle.reset (k == 0)
    (coldFrom s.sys.power p = true → ∃ t : State, exec (.coldStart p) s = .next t ∧ started t) ∧
    (s.sys.power = .hold → coldFrom .off p = true → ∃ t : State, exec (.resetHoldEnd (some p)) s = .next t ∧ started t) ∧
    (s.sys.power = .hold →
      exec (.resetHoldEnd none) s = .next { s with sys := { s.sys with power := .off } })) ∧
  (∀ (entropyOk : Bool) (s : State), s.sys.power = .boot → s.sys.coreStopped = false →
    (∃ t : State, exec (.bootHandover false entropyOk) s = .next t ∧ t.sys.power = .bootFail ∧ t.sys.xoRun = true ∧
      t.sys.runDmi = true ∧ t.sys.reqRad = false ∧ t.sys.reqDmi = false) ∧
    (let u := ({ s with sec := { s.sec with stok := true, entok := entropyOk } } : State).restoreKeys
     match u.chooseImage.2 with
     | none => ∃ t : State, exec (.bootHandover true entropyOk) s = .next t ∧ t.sys.power = .bootFail
     | some b => ∃ t : State, exec (.bootHandover true entropyOk) s = .next t ∧ t.sys.power = .run ∧
        t.eng.vecbase = t.word (imageBase b + 0x14) ∧ (t.sh 0).pc = t.eng.vecbase + 0xC0 ∧ (t.sh 0).run = .ready ∧
        (t.sh 0).prv = false ∧ (t.sh 0).ie = false ∧ t.sec.bootImg = (if b then 2 else 1) ∧ t.sys.reqRad = false ∧ t.sys.reqDmi = false))

/--
WRITE_BUFFER_ENTRY_WRITE with no store waiting removes the oldest entry and writes exactly its masked bytes to MRAM, with
the errors that an injection asked for, or an uncorrectable word where a merge met one. A scrub read of a running scrubber
moves to the next word and counts a pass at the end of memory; a word with two or more bits in error sets its flag, is
recorded with UNCOR and pends MEMERR. No other byte of memory changes. One entry in one step is DEDUCED, log entry 20.
(R194, R195, R201, R205, R206)
-/
def Obligations.WriteBufferAndScrubbersWork : Prop :=
  ∀ s : State, s.powered = true →
    (∀ (e : WbEntry) (r : List WbEntry), s.mem.wbuf = e :: r → Memory.wf s.mem = true →
      (∀ k : Fin 4, (s.sh k).stalled = false) →
      Touches (exec .writeBufferEntryWrite s) (fun t => { s with mem := t.mem }) fun t =>
        t.mem.wbuf = r ∧
        (∀ x : Nat, cellAt t.mem.cells x =
          if e.word ≤ x ∧ x < e.word + 8 ∧ e.mask.getLsbD (x - e.word) = true then
            e.data.extractLsb' (8 * (x - e.word)) 8 else cellAt s.mem.cells x) ∧
        t.mem.eccOf e.word = (if e.mask ≠ 0xFF ∧ 2 ≤ s.mem.eccOf e.word then 3 else e.inj)) ∧
    (∀ (mram : Bool), s.tmp.counting = true → s.sys.coreStopped = false →
      (if mram then s.mem.men else s.mem.sen) = true →
      let k := if mram then s.mem.scrubM else s.mem.scrubS
      let w := (if mram then 0x08000000 else 0x20000000) + 8 * k
      let wraps := decide ((if mram then 262144 else 24576) ≤ k + 1)
      let next := if wraps then 0 else k + 1
      s.mem.entryOf w = none →
      (s.mem.eccOf w = 0 → exec (.scrubRead mram) s = .next { s with mem :=
        if mram then { s.mem with scrubM := next, mpass := if wraps then s.mem.mpass + 1 else s.mem.mpass }
        else { s.mem with scrubS := next, spass := if wraps then s.mem.spass + 1 else s.mem.spass } }) ∧
      (2 ≤ s.mem.eccOf w → Touches (exec (.scrubRead mram) s) (fun t => { s with mem := t.mem }) fun t =>
        t.mem.eccstat.getLsbD 5 = true ∧ t.mem.eccAddr = BitVec.ofNat 32 w ∧ t.mem.uncor = true ∧
        t.eng.evpend.getLsbD 14 = true ∧ t.mem.cells = s.mem.cells ∧
        (if mram then t.mem.scrubM else t.mem.scrubS) = next))

/--
An accepted MEM_PCOMMIT starts a commit at once with the buffer drained, or holds its SEQ for the boundary. The boundary
tick with PERSIST armed, where the local tick of R221 and R520 rules, clears the arming, starts the held SEQ, waits while a
commit runs, or sets NOSEQ without one. When a commit completes on a bank whose payload has no uncorrectable word, the
header word of that bank holds SEQ and the inverted CRC-32 over the payload, DONE sets and the banks exchange roles; every
other byte reads as before. With an uncorrectable payload word FAIL sets, MEMERR pends, the active bank stands and no byte
changes. (R219, R220, R221, R222, R520)
-/
def Obligations.PersistCommitsRunTheirSteps : Prop :=
  (∀ (i : Initiator) (seq : BitVec 31) (s : State), s.powered = true →
    let started (u : State) (q : BitVec 31) : State :=
      let t := u.wbDrain
      { t with mem := { t.mem with busy := some q, pendDue := false }, eng := { t.eng with stopped := false } }
    let free := s.armed.getLsbD 8 = false ∧ s.mem.busy = none ∧ 1 ≤ seq.toNat ∧ seq.toNat ≤ 0x7FFFFFFE ∧
      (s.mem.act = .none ∨ s.activeSeq < seq.toNat)
    (s.reaches i 0x40002018 true = true → free →
      Written (exec (.pcommitImmediate i seq) s) s i 0x40002018 (fun u =>
        (started { u with mem := { u.mem with pendSeq := none } } seq).afterWrite) ∧
      Written (exec (.pcommitArm i seq) s) s i 0x40002018 fun u =>
        ({ u with mem := { u.mem with pendSeq := some seq, pendDue := false } } : State).afterWrite) ∧
    (s.tmp.counting = true → s.sys.coreStopped = false → s.localTickRules = true → s.armed.getLsbD 8 = true →
      let u : State := { s with armed := s.armed &&& ~~~0x100#9 }
      (s.mem.pendSeq = none →
        exec .persistBoundaryTick s = .next { u with mem := { u.mem with noseq := true } }) ∧
      (∀ q : BitVec 31, s.mem.pendSeq = some q →
        (s.mem.busy ≠ none → exec .persistBoundaryTick s = .next { u with mem := { u.mem with pendDue := true } }) ∧
        (s.mem.busy = none →
          exec .persistBoundaryTick s = .next (started { u with mem := { u.mem with pendSeq := none } } q))))) ∧
  (∀ (q : BitVec 31) (s : State), s.powered = true → s.mem.busy = some q → s.mem.pendSeq = none → Memory.wf s.mem = true →
    let base := if s.mem.act = .a then 0x081F8000 else 0x081F0000
    (s.badWord base 0x7FF8 = true → ∃ t : State, exec .persistCommitComplete s = .next t ∧ t.mem.fail = true ∧
      t.mem.busy = none ∧ t.mem.act = s.mem.act ∧ t.mem.cells = s.mem.cells ∧ t.eng.evpend.getLsbD 14 = true) ∧
    (s.badWord base 0x7FF8 = false →
      let crc := s.crcOver base 0x7FF8 0xFFFFFFFF ^^^ 0xFFFFFFFF
      ∃ t : State, exec .persistCommitComplete s = .next t ∧ t.mem.done = true ∧ t.mem.busy = none ∧
        t.mem.act = (if s.mem.act = .a then .b else .a) ∧
        ∀ x : Nat, cellAt t.mem.cells x =
          if base + 0x7FF8 ≤ x ∧ x < base + 0x8000 then BitVec.ofNat 8 ((q.toNat + crc * 2 ^ 32) >>> (8 * (x - (base + 0x7FF8))))
          else cellAt s.mem.cells x))

/--
The cell switch opens below the under-voltage cut-off, 3.00 V or 2.60 V by the chemistry, recloses above the reconnect
threshold or after an over-current retry, and latches at the third trip within 10 s. The reference refresh sets REF_OK and
closes a switch at or above the reconnect threshold. At the boundary of domain NRG an armed domain swaps, the panel and the
controlled TEG start their samples, the target is V_MPSET where no panel sample follows, and an idle TEG that has reached 20
mV since the last boundary runs again. The end of a sample stores V_OC and the target k x V_OC, or the TEG's fraction of its
V_OC, and its idle bit; over-voltage, the TEG takeover and the DC supply's loss and return set and clear their bits, and a
change of source sets EVSRC and, where enabled, ENERGY. Every register, flag and byte of memory that this does not name is
as it was, up to what counting notes. (R46, R48, R49, R51, R54, R55, R57, R58, R59, R62, R63, R98)
-/
def Obligations.CellAndSourcesSwitch : Prop :=
  (∀ s : State, s.powered = true →
    let sw (c : CellSwitch) : State := { s with nrgx := { s.nrgx with cellSw := c } }
    (∀ v : Nat, s.nrgx.cellSw = .closed →
      let cut := if s.nrg.chem = 1 ∨ s.nrg.chem = 3 then 2600 else 3000
      exec (.cellUvCutoff v) s = .next (if v < cut then sw .uvOpen else s)) ∧
    (∀ v : Nat, s.nrgx.cellSw = .uvOpen →
      exec (.cellReconnect v) s = .next (if s.nrg.reconnectMv < v then sw .closed else s)) ∧
    (∀ v : Nat, s.nrgx.cellSw = .opened →
      exec (.cellReconnect v) s = .next (if s.nrg.refOk = true ∧ s.nrg.reconnectMv ≤ v then sw .closed else s)) ∧
    (s.nrgx.cellSw = .ocRetry → exec .cellSwitchReclose s = .next (sw .closed)) ∧
    (s.nrgx.cellSw = .closed →
      let recent := s.local.toNat :: s.nrgx.ocTrips.filter fun t => decide (s.local.toNat ≤ t + 160000000)
      exec .cellOvercurrentTrip s = .next { s with nrgx := { s.nrgx with
        ocTrips := recent.take 3, cellSw := if 3 ≤ recent.length then .ocLatched else .ocRetry } }) ∧
    (s.nrg.refOk = true → exec .referenceRefresh s = .next s) ∧
    (s.nrg.refOk = false →
      Touches (exec .referenceRefresh s) (fun t => { s with nrg := t.nrg, nrgx := t.nrgx }) fun t =>
        t.nrg.refOk = true ∧ t.nrg.pvAct = t.pvRuns ∧
        t.nrgx = { s.nrgx with cellSw :=
          if s.nrgx.cellSw = .opened ∧ s.nrg.reconnectMv ≤ s.nrg.vcell.toNat then .closed else s.nrgx.cellSw })) ∧
  (∀ s : State, s.powered = true →
    let boundary (teg20 : Bool) (o : Out) : Prop :=
      Touches o (fun t => { s with nrg := t.nrg, nrgx := t.nrgx, armed := t.armed }) fun t =>
        let swaps := s.armed.getLsbD 7
        let panel := !s.nrg.dcMode && t.nrg.focvAct.extractLsb' 0 8 != 0
        t.armed.getLsbD 7 = false ∧ t.nrg.focvAct = (if swaps then s.nrg.focvSh else s.nrg.focvAct) ∧
        t.nrgx.pvSampling = panel ∧ t.nrgx.tegSampling = (s.nrgx.tegRun && s.nrg.ctl.getLsbD 1) ∧
        t.nrgx.pvTarget = (if panel then s.nrgx.pvTarget else s.nrgx.vMpset * 256) ∧ t.nrg.pvAct = t.pvRuns ∧
        t.nrg.focvReg = (panel && s.nrg.focvReg) ∧
        t.nrg.tegIdle = (s.nrg.tegIdle && !(teg20 || s.nrgx.tegWatch)) ∧
        t.nrg.tegAct = (if s.nrg.tegIdle && (teg20 || s.nrgx.tegWatch) then s.nrg.ctl.getLsbD 1 && s.nrgx.tegRun else s.nrg.tegAct)
    let updates (o : Out) (n : Nrg) (x : NrgAux) : Prop :=
      Touches o (fun t => { s with nrg := t.nrg, nrgx := x }) fun t =>
        t.nrg = { n with pvAct := t.pvRuns, evsrc := n.evsrc || t.pvRuns != n.pvAct } ∧
        (t.pvRuns ≠ n.pvAct → n.ctl.getLsbD 4 = true → t.eng.evpend.getLsbD 9 = true)
    (∀ b : Bool, s.nrg.dcMode = false → s.nrg.period ≠ 0 → boundary b (exec (.focvSampleStart b) s)) ∧
    (∀ b : Bool, s.tmp.counting = true → s.nrg.period = 0 ∨ s.nrg.dcMode = true → boundary b (exec (.nrgBoundaryTick b) s)) ∧
    (∀ vpv : Nat, s.nrgx.pvSampling = true →
      let v := min 65535 vpv
      let target := fld s.nrg.focvAct 8 8 * v * 10
      updates (exec (.focvSample vpv) s) { s.nrg with pvVoc := BitVec.ofNat 16 v, focvReg := true }
        { s.nrgx with pvSampling := false, pvTarget := target, pvLowOff := decide (target < 2000 * 2560) }) ∧
    (s.nrg.dcMode = false → s.nrg.pvov = false → updates (exec .pvOvervoltage s) { s.nrg with pvov := true } s.nrgx) ∧
    (s.nrg.pvov = true → updates (exec .pvOvervoltageClear s) { s.nrg with pvov := false } s.nrgx) ∧
    (s.nrg.ctl.getLsbD 1 = true → s.nrgx.tegRun = false →
      exec .tegTakeover s = .next { s with nrgx := { s.nrgx with tegRun := true, tegSampling := true } }) ∧
    (∀ vteg : Nat, s.nrgx.tegSampling = true →
      let v := min 65535 vteg
      let idle := decide (v < 1000) || s.nrg.tegIdle
      Touches (exec (.tegSampleEnd vteg) s)
        (fun t => { s with nrg := t.nrg, nrgx := { s.nrgx with
          tegSampling := false, tegTarget := s.nrgx.tegFrac * v, tegWatch := idle && (s.nrgx.tegWatch || decide (2000 ≤ v)) } }) fun t =>
        t.nrg.tegVoc = BitVec.ofNat 16 v ∧ t.nrg.tegIdle = idle ∧
        t.nrg.tegAct = (s.nrg.ctl.getLsbD 1 && s.nrgx.tegRun && !idle)) ∧
    (s.nrg.dcMode = true → s.nrg.dcPres = true →
      Touches (exec .dcSupplyLoss s) (fun t => { s with nrg := t.nrg, nrgx := { s.nrgx with dcRun := false } }) fun t =>
        t.nrg.dcPres = false ∧ t.nrg.pvAct = false ∧ t.nrg.evsrc = true) ∧
    (s.nrg.dcMode = true → s.nrg.dcPres = false →
      Touches (exec .dcSupplyRestore s) (fun t => { s with nrg := t.nrg, nrgx := { s.nrgx with dcRun := true } }) fun t =>
        t.nrg.dcPres = true ∧ t.nrg.pvAct = s.nrg.ctl.getLsbD 0 ∧ t.nrg.evsrc = true))

/--
CELL_MEASUREMENT stores VCELL limited to 16 bits and the temperature, sets NTCFLT for an open or shorted NTC, and moves the
charger by R60: FAULT stays, a disabled charger is OFF, a fault of the NTC holds for temperature, loss of harvest suspends,
PRECHARGE goes to CC at its voltage and CC to CV at VCHG. The charge current is none while the cell is blocked by over-
voltage, a tenth of ICHG and at least 1 mA in PRECHARGE, 1 mA below 2.0 V, and the current in use in CC and CV, halved where
R64 halves it. A change sets EVCHG and, where enabled, ENERGY. Four readings below the threshold in a row make the last act
due, and the arming follows R89. When rows are evaluated is DEDUCED, log entry 28; the band in which over-voltage keeps its
state is DESIGN CHOICE, log entry 66. (R58, R60, R61, R65, R89, R90)
-/
def Obligations.MeasurementsDriveTheCharger : Prop :=
  ∀ (m : CellSample) (s : State), s.powered = true →
    let v := min 65535 m.vcell
    let n := s.nrg
    let off := n.ctl.getLsbD 2 = false ∨ n.chem = 3
    let fault := match m.ntc with
      | .temp q => q < -160 ∨ 400 < q
      | _ => True
    let low := v < s.laThresh
    Touches (exec (.cellMeasurement m) s) (fun t => { s with nrg := t.nrg, nrgx := t.nrgx, tmp := t.tmp }) fun t =>
      t.nrg.vcell = BitVec.ofNat 16 v ∧ (t.nrg.ntcflt = true ↔ fault) ∧
      (∀ q : Int, m.ntc = .temp q → -512 ≤ q → q ≤ 511 → t.nrg.tcell.toInt = q) ∧
      (n.chg = .fault → t.nrg.chg = .fault) ∧
      (n.chg ≠ .fault → off → t.nrg.chg = .off) ∧
      (n.chg = .precharge ∨ n.chg = .cc ∨ n.chg = .cv ∨ n.chg = .tempHold ∨ n.chg = .suspended → ¬ off → fault →
        t.nrg.chg = .tempHold) ∧
      (n.chg = .precharge ∨ n.chg = .cc ∨ n.chg = .cv → ¬ off → ¬ fault → t.nrg.tempOk = true → m.harvest = false →
        t.nrg.chg = .suspended) ∧
      (n.chg = .precharge → ¬ off → ¬ fault → t.nrg.tempOk = true → m.harvest = true →
        t.nrg.chg = if n.preMv + 100 ≤ v then .cc else .precharge) ∧
      (n.chg = .cc → ¬ off → ¬ fault → t.nrg.tempOk = true → m.harvest = true →
        t.nrg.chg = if n.vchg ≤ v then .cv else .cc) ∧
      (t.nrg.chg ≠ n.chg → t.nrg.evchg = true ∧ (n.ctl.getLsbD 5 = true → t.eng.evpend.getLsbD 9 = true)) ∧
      t.nrgx.ovBlock = (if n.chem = 3 then false else if n.ovMv ≤ v then true else if v < n.vchg then false else s.nrgx.ovBlock) ∧
      t.nrgx.chgUa = (if t.nrgx.ovBlock then 0
        else if t.nrg.chg = .precharge then if v < 2000 then 1000 else max 1000 (fld n.chgReg 0 9 * 100)
        else if t.nrg.chg = .cc ∨ t.nrg.chg = .cv then n.iUsed * (if t.nrg.half then 500 else 1000)
        else 0) ∧
      t.nrgx.laCount = (if s.nrgx.laCount = 4 then 4 else if s.nrgx.laArmed ∧ low then s.nrgx.laCount + 1 else 0) ∧
      (t.nrgx.laArmed = true ↔ s.nrgx.laArmed = true ∨
        s.nrgx.laState = .idle ∧ n.chem ≠ 3 ∧ s.laThresh + 100 ≤ v)

/--
The charge timer ends a precharge, and a CC or CV with a timer set, in FAULT, and does nothing to a CC or CV without one;
the boost starts when allowed and stops; EUSE and VRES follow the measurement, RESLOW compares them with the reserve and its
rise sets EVRES; RESDISCH and SHIP take effect only with every valve CLOSED and every queue empty and set SVCREF otherwise;
ship mode stops tempo, the radio and XO32M and loses SRAM. The write of NRG_CTL is posted. What each pulse has drawn is an
operand, DESIGN CHOICE, log entry 23. Every register, flag and byte of memory that this does not name is as it was, up to
what counting notes. (R60, R67, R69, R71, R73, R75, R87)
-/
def Obligations.ReservoirAndShipModeAct : Prop :=
  ∀ s : State, s.powered = true →
    (s.nrgx.chgTimer = true → s.nrg.chg = .precharge ∨ (s.nrg.chg = .cc ∨ s.nrg.chg = .cv) ∧ fld s.nrg.chgReg 20 4 ≠ 0 →
      Touches (exec .chargeTimerExpiry s)
        (fun _ => { s with
          nrg := { s.nrg with chg := .fault, evchg := true }, nrgx := { s.nrgx with chgTimer := false, chgUa := 0 } })
        fun t => s.nrg.ctl.getLsbD 5 = true → t.eng.evpend.getLsbD 9 = true) ∧
    (s.nrg.chg = .cc ∨ s.nrg.chg = .cv → fld s.nrg.chgReg 20 4 = 0 → exec .chargeTimerExpiry s = .next s) ∧
    (s.boostAllowed = true → s.nrgx.boostOn = false →
      Touches (exec .boostStart s) (fun _ => { s with nrgx := { s.nrgx with boostOn := true } }) fun _ => True) ∧
    (s.nrgx.boostOn = true →
      Touches (exec .boostStop s) (fun _ => { s with nrgx := { s.nrgx with boostOn := false } }) fun _ => True) ∧
    (s.nrgx.sink = true → exec .vresDischarged s = .next { s with nrgx := { s.nrgx with sink := false } }) ∧
    (∀ (vres : Nat) (drawn : List (Option Int)),
      Touches (exec (.euseUpdate vres drawn) s) (fun t => { s with nrg := t.nrg, drv := t.drv, flw := t.flw }) fun t =>
        let f := (s.nrg.resctl.extractLsb' 9 9).toNat * 100
        let c := (s.nrg.resctl.extractLsb' 18 8).toNat
        t.nrg.euse = BitVec.ofNat 16 (min 65535 (c * (vres * vres - f * f) / 20000000)) ∧
        t.nrg.vres = BitVec.ofNat 16 (min 65535 vres) ∧
        (t.nrg.resLow = true ↔ 4000 * t.nrg.euse.toNat < t.eReserve none + t.eCommitted) ∧
        (t.nrg.evres = true ↔ s.nrg.evres = true ∨ t.nrg.resLow = true ∧ s.nrg.resLow = false)) ∧
    (∀ (i : Initiator) (v : Word), s.reaches i 0x40003004 true = true → s.sys.posted = [] →
      (∀ f ∈ s.sys.failed, f.init ≠ i) → v.extractLsb' 9 23 = 0 →
      Posts (exec (.shipModeEnter i v) s) s i 0x40003004 (fun u => u.nrgCtlWrite (v ||| 0x80)) ∧
      Posts (exec (.reservoirDischarge i v) s) s i 0x40003004 (fun u => u.nrgCtlWrite (v ||| 0x100))) ∧
    (∀ v : Word, v.getLsbD 7 = true →
      let t := s.nrgCtlWrite v
      (s.drv.quiet = true → t.sys.power = .ship ∧ t.sys.xoRun = false ∧ t.tmp.counting = false ∧ t.rad.state = .off ∧
        t.mem.cells = s.mem.cells.filter fun c => !inSram c.1) ∧
      (s.drv.quiet = false → t.nrg.svcref = true ∧ t.sys = s.sys ∧ t.mem = s.mem)) ∧
    (∀ v : Word, v.getLsbD 7 = false → v.getLsbD 8 = true → s.nrg.ctl.getLsbD 8 = false →
      let t := s.nrgCtlWrite v
      t.nrg.ctl.getLsbD 8 = s.drv.quiet ∧ t.nrg.svcref = (s.nrg.svcref || !s.drv.quiet) ∧
      (s.drv.quiet = true → t.nrgx.sink = true))

/--
LASTACT of an armed, due last act enters the closing or the commit wait, stops the watchdog, ends flow and pressure work,
ends the discharge and, on a chain member, tells the head in its turn. The sequencer starts the next close or skips it with
its state unchanged, and finishes after the last. At the deadline the core island stops, an armed PERSIST is cancelled, a
key-store commit completes, and a commit of MRAM is lost unless its header write has begun, when it completes; the write
buffer is empty. The cut-off opens the cell switch, stops every converter and island and loses SRAM. A new threshold
restarts the count and may arm. The order within the act is DEDUCED, log entry 24. (R89, R90, R91, R92, R93, R94, R95, R96)
-/
def Obligations.LastActRunsInItsOrder : Prop :=
  ∀ s : State, s.powered = true →
    (s.nrgx.laArmed = true → s.nrgx.laCount = 4 → s.nrgx.laState = .idle →
      Touches (exec .lastact s)
        (fun t => { s with
          sys := t.sys, mem := t.mem, armed := t.armed, nrg := t.nrg, nrgx := t.nrgx, drv := t.drv, flw := t.flw, prs := t.prs,
          rad := t.rad, lnk := t.lnk, fresh := t.fresh }) fun t =>
        (t.nrgx.laState = .closing ∨ t.nrgx.laState = .commitWait) ∧ t.nrgx.laArmed = false ∧ t.nrgx.sink = false ∧
        t.nrg.ctl.getLsbD 8 = false ∧ t.sys.wdogStopped = true ∧ t.flw.dead = true ∧ t.prs.dead = true ∧
        t.lnk = if s.lnk.valid = true ∧ s.lnk.head = false then
          ({ s.lnk with hwWait := s.lnk.hwWait ++ [hwWord 2 0] } : Lnk).serve .up else s.lnk) ∧
    (∀ v : Fin 24, s.sys.runDmi = true → s.seqReady = some v → s.drv.held (treadleOf v) = false →
      Touches (exec .lastactNextClose s) (fun t => { s with drv := t.drv, flw := t.flw, prs := t.prs, nrgx := t.nrgx }) fun t =>
        t.drv.seqRun = some v ∧ t.drv.seqRetry = none ∧ t.nrgx = s.nrgx) ∧
    (∀ v : Fin 24, s.sys.runDmi = true → s.seqWaits = true → s.drv.seqValve = some v →
      Touches (exec .lastactCloseSkip s) (fun t => { s with drv := t.drv, flw := t.flw, nrgx := t.nrgx }) fun t =>
        t.drv.vstate = s.drv.vstate ∧ t.drv.seqRun = none ∧ t.drv.seqRetry = none ∧
        (t.drv.seqNext = (if s.drv.seqOver then s.drv.seqNext else max s.drv.seqNext (v.val + 1)) ∨
          t.drv.seqMode = .idle ∧ t.drv.seqNext = 0)) ∧
    (∀ begun : Bool, s.nrgx.laState = .closing ∨ s.nrgx.laState = .commitWait → s.nrgx.deadline = false →
      let u : State := (if s.sec.commit then s.keyCommitDone true else s).wbDrain
      Touches (exec (.lastactDeadline begun) s) (fun t => { s with
        sys := t.sys, eng := t.eng, mem := t.mem, armed := s.armed &&& ~~~0x100#9,
        nrgx := { s.nrgx with deadline := true }, sec := t.sec }) fun t =>
        t.sys.coreStopped = true ∧ t.mem.busy = none ∧ t.mem.pendSeq = none ∧ t.mem.pendDue = false ∧
        (s.sec.commit = false → t.sec = s.sec) ∧
        (begun = false ∨ s.mem.busy = none → t.mem.act = s.mem.act ∧ t.mem.cells = u.mem.cells ∧
          (s.mem.wbuf.length ≤ 8 → (∀ k : Fin 4, (s.sh k).stalled = false) → t.mem.wbuf = [])) ∧
        (begun = true → s.mem.busy ≠ none → ∀ e : State, exec .persistCommitComplete u = .next e →
          t.mem = { e.mem with busy := none, pendSeq := none, pendDue := false })) ∧
    (s.nrgx.laState = .commitWait → s.nrgx.deadline = true →
      Touches (exec .lastactCutoff s)
        (fun t => { s with sys := t.sys, mem := t.mem, nrg := t.nrg, nrgx := t.nrgx, tmp := { s.tmp with counting := false } })
        fun t =>
        t.sys.power = .hold ∧ t.sys.xoRun = false ∧ t.sys.runDmi = false ∧ t.sys.runRad = false ∧ t.nrgx.laState = .cutoff ∧
        t.nrgx.cellSw = .opened ∧ t.nrgx.boostOn = false ∧ t.nrg.pvAct = false ∧ t.nrg.tegAct = false ∧ t.nrg.chg = .off ∧
        t.mem.cells = s.mem.cells.filter fun c => !inSram c.1) ∧
    (∀ (i : Initiator) (v : Word), s.reaches i 0x40003028 true = true → s.sys.posted = [] →
      (∀ f ∈ s.sys.failed, f.init ≠ i) → s.nrgCheck 0x28 v = 0 →
      Posts (exec (.lastactThresholdWrite i v) s) s i 0x40003028 fun u =>
        let t : State := { u with nrgx := { u.nrgx with thresh := v.extractLsb' 0 16, laCount := 0 } }
        let arms := u.nrgx.laArmed ∨ u.nrgx.laState = .idle ∧ u.nrg.chem ≠ 3 ∧ t.laThresh + 100 ≤ u.nrg.vcell.toNat
        { t with nrgx := { t.nrgx with laArmed := decide arms } })

/--
A well-formed command word through DRV_CMD gives, by the first check that applies: a CANCEL ends and unqueues the valve with
status 0; status 5 for an open in RETIRED; 4 for an invalid profile; a record NOTFIT with status 0; a record with status 1
during the last act; and otherwise the acceptance's own status. CANCEL and the release of a HELD valve act alike. DRV
returns that status in rd after its crossing to the DMI, which waits for the crossing before it, and a word with a reserved
bit or a valve above 23 raises exception 0x07 with the fault record at DRV_CMD and cause 3. That such a record counts as a
write is DESIGN CHOICE, log entry 66. Every register, flag and byte of memory that this does not name is as it was, up to
what counting notes. (R236, R237, R238, R239, R175, R176)
-/
def Obligations.DriveCommandsAreChecked : Prop :=
  (∀ (i : Initiator) (w : Word) (x : Fin 24) (s : State), s.powered = true → s.sys.runDmi = true →
    s.reaches i 0x40005008 true = true →
    let v := s.drv.even x
    let does (c : Instr) (f : State → State) (k : Nat) : Prop := Written (exec c s) s i 0x40005008 fun u =>
      ((f u).modDrv fun d => { d with cmdstat := BitVec.ofNat 3 k }).afterWrite
    (∀ prof : BitVec 4, w.extractLsb' 0 5 = BitVec.ofNat 5 x.val → w.extractLsb' 5 3 = 0 → w.extractLsb' 8 4 = prof →
      w.extractLsb' 15 17 = 0 →
      let p := s.drv.profileAt prof.toNat
      let valid := if s.drv.held (treadleOf v) = true ∧ p.closes = true then p.valid = true else s.drv.profOk p v = true
      let does := does (.driveCommand i w)
      if w.getLsbD 14 then does (fun u => u.cancelValve v) 0
      else if s.lifecycle = 3 ∧ p.closes = false then does id 5
      else if ¬ valid then does id 4
      else if (s.drv.valves.get v).notfit then does (fun u => u.post p.closes v prof.toNat 13 0 0) 0
      else if s.nrgx.laState ≠ .idle then does (fun u => u.post p.closes v prof.toNat 4 0 0) 1
      else ∀ k : Nat, k ≠ 2 → (s.accept v prof (w.getLsbD 13) (w.getLsbD 12)).2 = k →
        does (fun u => (u.accept v prof (w.getLsbD 13) (w.getLsbD 12)).1) k) ∧
    does (.cancel i (BitVec.ofNat 5 x.val)) (fun u => u.cancelValve v) 0 ∧
    (∀ prof : BitVec 4, s.drv.held (treadleOf v) = true → (s.drv.profileAt prof.toNat).closes = true →
      (s.drv.profileAt prof.toNat).valid = true → (s.drv.valves.get v).notfit = false → s.nrgx.laState = .idle →
      s.drv.seqMode = .idle → ((s.drv.trd.get (treadleOf v)).queue.any fun e => e.valve = v) = false →
      does (.release i (BitVec.ofNat 5 x.val) prof) (fun u => u.release v prof) 0)) ∧
  (∀ (sh : Fin 4) (rd ra : Fin 16) (s : State), s.issues sh = true → s.noDevice sh = false → s.sys.runDmi = true →
    let w := s.reg sh ra
    (∀ k : Nat, (s.command w).2 = (0, k) → ∃ u : State, s.AtBus (.shuttle sh) u ∧
      exec (.drv sh rd ra) s =
        .next (((u.command w).1.setReg sh rd (BitVec.ofNat 32 k)).crossed sh [(.dmi, s.crossCost 125)])) ∧
    ((s.sh sh).inexc = false →
      24 ≤ (w.extractLsb' 0 5).toNat ∨ w.extractLsb' 5 3 ≠ 0 ∨ w.extractLsb' 15 17 ≠ 0 →
      IssuedOn (exec (.drv sh rd ra) s) s sh (fun u => { u with sys := u.sys.recorded sh.val true 3 0x40005008 })
        fun now x => x.trapped (s.eng.vecbase + BitVec.ofNat 32 (0x100 * sh.val)) 7 0x40005008 now))

/--
A waiting open that is not admitted ends with NO_ENERGY, and a deferred one, or one under thermal shutdown, with its own
result; it leaves the queue and posts a record with its direction, valve and result, or sets the overflow flag if the FIFO
is full. A scan with one close at the head that is valid, not blocked, does not overlap and is admitted starts its pulse in
BOOST with the required energy latched and leaves the other queues empty. Every register, flag and byte of memory that this
does not name is as it was, up to what counting notes. (R79, R80, R81, R242, R254, R255, R289)
-/
def Obligations.StartPointsAdmitAndExpire : Prop :=
  ∀ (t : Fin 3) (e : QEntry) (s : State), s.powered = true → s.sys.runDmi = true →
    let p := s.entryProfile e
    let posts (u : State) (res : Nat) : Prop :=
      if s.drv.fifo.length < 16 then
        ∃ w : Word, u.drv.fifo = s.drv.fifo ++ [(w, s.local.setWidth 32)] ∧ w.getLsbD 31 = true ∧
          w.getLsbD 30 = p.closes ∧ (w.extractLsb' 25 5).toNat = e.valve.val ∧ (w.extractLsb' 17 4).toNat = res
      else u.drv.rovf = true ∧ u.drv.fifo = s.drv.fifo
    let ends (o : Out) (res : Nat) : Prop :=
      Touches o (fun u => { s with drv := u.drv, flw := u.flw }) fun u =>
        (u.drv.trd.get t).queue = (s.drv.trd.get t).queue.erase e ∧ (u.drv.trd.get t).runs = (s.drv.trd.get t).runs ∧
        posts u res
    (∀ (k : Nat), (s.drv.trd.get t).queue[k]? = some e → p.closes = false →
      (e.waiting = true → s.admits p e.valve = false → ends (exec (.admitWaitExpiry t k) s) 2) ∧
      (e.deferred = true ∨ s.drv.tsdact = true → ends (exec (.thermalWaitExpiry t k) s) 3)) ∧
    (∀ vbsOk : BitVec 3, (s.drv.trd.get t).queue = [e] → (∀ k : Fin 3, k ≠ t → (s.drv.trd.get k).queue = []) →
      treadleOf e.valve = t → p.closes = true → s.drv.held t = false → e.deferred = false → e.prediag = false →
      e.origin ≠ .program ∨ s.drv.profOk p e.valve = true → s.drv.startBlocked t = false → s.drv.overlapOk e.valve p = true →
      s.drv.pulseOf e.valve = none → s.drv.tall = false → s.admits p e.valve = true →
      Touches (exec (.startPointScan vbsOk []) s) (fun u => { s with drv := u.drv, flw := u.flw, prs := u.prs }) fun u =>
        (u.drv.trd.get t).queue = [] ∧ ∃ r : Pulse, (u.drv.trd.get t).runs = (s.drv.trd.get t).runs ++ [r] ∧
          r.valve = e.valve ∧ r.prof = p ∧ r.phase = .boost ∧ r.ereq = s.eReq p e.valve)

/--
From BOOST a pulse goes to PEAK, HOLD or END by its profile with the measured peak time and window flags, or to END with its
fault on a timeout; a timeout in the cycle of another end still sets its fault bit; a coil sample advances the notch search;
PEAK and HOLD end in order; an END that is slow changes its decay and sets the fault. A chop period turns the coil on below
its target and off otherwise, and the gate step follows the edge time against the target; a HOLD leg that is off stays off
while a flow window is quiet. VRES at 32 V demotes FAST to CLAMP; below the floor the pulse ends at once with VRES_FLOOR;
and the end of a pulse removes it, gives its blanking windows their end and starts T_TURN once its treadle is empty. Order
of samples and edges is DEDUCED, log entries 44 to 46. Every register, flag and byte of memory that this does not name is as
it was, up to what counting notes. (R228, R232, R249, R270, R271, R272, R274, R277, R86, R244, R300, R332)
-/
def Obligations.PulsesRunTheirPhases : Prop :=
  ∀ (x : Fin 24) (p : Pulse) (s : State), s.powered = true → s.sys.runDmi = true → s.drv.pulseOf (s.drv.even x) = some p →
    let v := s.drv.even x
    let after (o : Out) (f : State → Pulse → Prop) : Prop :=
      Touches o (fun t => { s with drv := t.drv, flw := t.flw }) fun t => ∃ q, t.drv.pulseOf v = some q ∧ f t q
    let many := decide (1 < (s.drv.trd.get (treadleOf v)).runs.length)
    (p.phase = .boost → p.off = false →
      (∀ tpeak : Nat, after (exec (.boostEnd x tpeak) s) fun _ q =>
        q.phase = (if p.prof.tPeak ≠ 0 then .peak else if p.prof.tHold ≠ 0 then .hold else .ending) ∧
        q.tpeak = BitVec.ofNat 16 tpeak ∧
        q.peakEarly = (p.prof.window && decide (tpeak < p.prof.winLo)) ∧
        q.peakLate = (p.prof.window && decide (p.prof.winHi < tpeak))) ∧
      (∀ same : Bool, after (exec (.boostTimeout x same) s) fun t q => q.phase = .ending ∧ q.early = some 9 ∧ q.peakLate = p.prof.window ∧
        t.drv.fault.getLsbD 6 = true ∧ t.drv.faultv.getLsbD v.val = true) ∧
      (∀ ma : Nat, after (exec (.coilCurrentSample x ma) s) fun _ q =>
        q.samples = p.samples + 1 ∧ q.notchMax = max p.notchMax ma ∧ q.phase = .boost ∧
        (p.notchSeen = true → q.notchSeen = true ∧ q.tnotch = p.tnotch))) ∧
    (p.phase = .ending → p.off = false → p.early.isSome = true →
      after (exec (.boostTimeout x true) s) fun t q => q = p ∧
        t.drv.fault.getLsbD 6 = true ∧ t.drv.faultv.getLsbD v.val = true) ∧
    (∀ rm : Option Nat, p.phase = .peak → p.off = false → after (exec (.peakEnd x rm) s) fun _ q =>
      q.phase = (if p.prof.tHold ≠ 0 then .hold else .ending) ∧ q.early = p.early) ∧
    (∀ rm : Option Nat, p.phase = .hold → p.off = false → p.prof.tHold ≠ 0xFFFF → after (exec (.holdEnd x rm) s) fun _ q =>
      q.phase = .ending ∧ q.early = p.early) ∧
    (p.phase = .ending → p.off = false → p.endSlow = false → after (exec (.endTimeout x) s) fun t q =>
      q.endSlow = true ∧ q.decay = (if many then .slow else .clamp) ∧ t.drv.fault.getLsbD 7 = true ∧
      t.drv.faultv.getLsbD v.val = true) ∧
    (∀ (chop : Chop) (legEdge : Option Nat) (trdEdges : List Nat), p.phase ≠ .precharge → p.off = false →
      after (exec (.chopPeriod x chop legEdge trdEdges) s) fun t q => q.phase = p.phase ∧
        (p.phase ≠ .peak → p.phase ≠ .hold → q = p) ∧
        (p.phase = .hold → p.on = false → s.holdQuiet = true → q = p) ∧
        (p.phase = .peak ∨ p.phase = .hold ∧ (p.on = true ∨ s.holdQuiet = false) →
          q.on = decide (chop = .below) ∧ (chop = .below → q = { p with on := true })) ∧
        ∀ e : Nat, legEdge = some e → s.drv.gate.getLsbD 20 = true →
          let target := if p.prof.tsw = 0 then s.drv.tswDef else 10 * p.prof.tsw
          (t.drv.valves.get v).gstep = BitVec.ofNat 4 (
            if 5 * target < 4 * e then min 15 ((s.drv.valves.get v).gstep.toNat + 1)
            else if 4 * e < 3 * target then (s.drv.valves.get v).gstep.toNat - 1
            else (s.drv.valves.get v).gstep.toNat)) ∧
    (p.phase = .ending ∨ p.phase = .peak ∨ p.phase = .hold → p.off = false → p.decay = .fast →
      after (exec (.vresFastLimit x) s) fun _ q => q = { p with decay := .clamp }) ∧
    (∀ (mv : Nat) (same : List (Fin 24)), p.phase = .boost ∨ p.phase = .peak ∨ p.phase = .hold → mv < p.floorMv →
      after (exec (.vresFloor mv same) s) fun t q => q.phase = .ending ∧ q.early = some 8 ∧ t.drv.fault.getLsbD 5 = true ∧
        t.drv.faultv.getLsbD v.val = true) ∧
    (∀ (drawn : Int) (ph : Ring), p.phase = .ending →
      let phase := max s.tmp.phase (if s.tmp.counting then s.tmp.captured 1 ph else 0)
      Touches (exec (.pulseEnd x drawn ph) s) (fun t => { s with
        drv := t.drv, flw := t.flw, nrgx := t.nrgx, prs := { s.prs with wins := t.prs.wins },
        tmp := { s.tmp with phase := phase } }) fun t =>
        (∀ w ∈ t.prs.wins, w.src = .drv → w.valve = BitVec.ofNat 8 v.val → w.due ≠ none) ∧
        let rest := (s.drv.trd.get (treadleOf v)).runs.filter fun r => r.valve != v
        (t.drv.trd.get (treadleOf v)).runs = rest ∧
        (rest = [] → (t.drv.trd.get (treadleOf v)).turn = some p.prof.closes))

/--
VRES over-voltage sets its flag and pends FAULT. A turn-off timeout trips its half-bridge, ends the pulses that use it with
FAULT in CLAMP, turns a manual switch off and is recorded, for the sequencer with the first pulse's profile and under switch
control for the writer of DRV_DIAG; its release clears the trip once nothing drives the half-bridge. Over-current on an
output with a switch on ends the pulses of its half-bridge and marks their valves. Thermal shutdown ends every pulse and a
test, turns switches off and sets TSDACT; its end clears only that. The switch auto-off and the end of T_TURN change only
their own field. Which profile and which initiator the record names is DEDUCED, log entry 43. Every register, flag and byte
of memory that this does not name is as it was, up to what counting notes. (R257, R258, R259, R260, R261, R273, R276)
-/
def Obligations.ProtectionsActOnTheDrive : Prop :=
  ∀ s : State, s.powered = true → s.sys.runDmi = true →
    let drives (o : Out) (f : State → Prop) : Prop :=
      Touches o (fun t => { s with drv := t.drv, flw := t.flw }) f
    let faulted (t : State) (ps : List Pulse) : Prop := ∀ p ∈ ps, s.drv.pulseOf p.valve = some p →
      ∃ q, t.drv.pulseOf p.valve = some q ∧ q.phase = .ending ∧ q.early = some 11 ∧ q.off = true ∧ q.decay = .clamp
    drives (exec .vresov s) (fun t => t.drv = { s.drv with fault := s.drv.fault ||| 2 } ∧ t.eng.evpend.getLsbD 5 = true) ∧
    (∀ hb : Fin 27, s.drv.users hb ≠ [] ∨ s.drv.manualReq hb.val = true →
      Touches (exec (.turnoffTimeout hb) s) (fun t => { s with
        drv := t.drv, flw := t.flw,
        sys := match s.drv.users hb with
          | [] => s.sys.recorded s.drv.diagInit true 8 0x40005030
          | p :: _ => s.sys.recorded 6 true 8 (BitVec.ofNat 32 (0x40005400 + 0x20 * p.profile.toNat)) }) fun t =>
        t.drv.trips.getLsbD hb.val = true ∧ t.drv.fault.getLsbD 0 = true ∧ faulted t (s.drv.users hb) ∧
        (s.drv.manualReq hb.val = true → t.drv.sw = 0)) ∧
    (∀ hb : Fin 27, s.drv.trips.getLsbD hb.val = true → s.drv.users hb = [] → s.drv.manualReq hb.val = false →
      drives (exec (.interlockRelease hb) s) fun t =>
        t.drv = { s.drv with trips := s.drv.trips &&& ~~~BitVec.ofNat 27 (2 ^ hb.val) }) ∧
    (∀ o : OcOutput, s.drv.bridgeOn (bridgeOf o) = true →
      drives (exec (.overcurrentTrip o) s) fun t => t.drv.fault.getLsbD 3 = true ∧ faulted t (s.drv.users (bridgeOf o)) ∧
        (∀ v ∈ s.drv.ocValves o, t.drv.faultv.getLsbD v.val = true) ∧
        (s.drv.manualReq (bridgeOf o).val = true → t.drv.sw = 0)) ∧
    (s.drv.tsdact = false → drives (exec .thermalShutdown s) fun t =>
      t.drv.tsdact = true ∧ t.drv.sw = 0 ∧ t.drv.test = none ∧ t.drv.fault.getLsbD 2 = true ∧ faulted t s.drv.allRuns) ∧
    (s.drv.tsdact = true → drives (exec .thermalShutdownClear s) fun t => t.drv = { s.drv with tsdact := false }) ∧
    (s.drv.sw ≠ 0 → drives (exec .switchAutoOff s) fun t => t.drv = { s.drv with sw := 0 }) ∧
    (∀ k : Fin 3, (s.drv.trd.get k).turn.isSome = true → s.drv.tall = false → drives (exec (.tTurnEnd k) s) fun t =>
      t.drv = { s.drv with trd := s.drv.trd.set k { s.drv.trd.get k with turn := none } })

/--
A precharge that reaches its voltage starts BOOST, and one that does not, a lock-out, or the third failing refresh in a row
ends the treadle's opens with BOOT_UV; a refresh is counted and its edges adapt the gate. The tick stores the die
temperature and, where no resistance is measured in it and the temperature limit ends no HOLD, moves each fitted valve's
coil temperature by the heat of its current and its cooling. A test writes the code of the mean voltage to DIAG and TRES and
ends. The fixed-point form of the coil model is DESIGN CHOICE, log entry 26. Every register, flag and byte of memory that
this does not name is as it was, up to what counting notes. (R263, R264, R265, R266, R287, R280, R281)
-/
def Obligations.BootstrapCoilAndTestFollowTheirRules : Prop :=
  ∀ s : State, s.powered = true → s.sys.runDmi = true →
    let drives (o : Out) (f : State → Prop) : Prop :=
      Touches o (fun t => { s with drv := t.drv, flw := t.flw }) f
    let cut (k : Fin 3) (t : State) : Prop := ∀ p ∈ (s.drv.trd.get k).runs, s.drv.pulseOf p.valve = some p →
      treadleOf p.valve = k → p.prof.closes = false → p.off = false →
      t.drv.fault.getLsbD 4 = true ∧ t.drv.faultv.getLsbD p.valve.val = true ∧
      ∃ q, t.drv.pulseOf p.valve = some q ∧ q.phase = .ending ∧ q.early = if p.early = some 8 then some 8 else some 10
    (∀ k : Fin 3, ((s.drv.trd.get k).runs.any fun p => p.phase == .precharge) = true →
      drives (exec (.bootstrapPrechargeEnd k true) s) (fun t => t.drv = { s.drv with
        trd := s.drv.trd.set k { s.drv.trd.get k with
          runs := (s.drv.trd.get k).runs.map fun p => if p.phase = .precharge then { p with phase := .boost } else p, uvlo := false } }) ∧
      drives (exec (.bootstrapPrechargeEnd k false) s) (cut k)) ∧
    (∀ k : Fin 3, s.drv.highOn k = true → drives (exec (.bootstrapUvlo k) s) (cut k)) ∧
    (∀ (k : Fin 3) (ok : Bool) (edges : List Nat), s.drv.refreshes k = true →
      if ok = true ∨ (s.drv.trd.get k).refFail < 2 then
        drives (exec (.bootstrapRefresh k ok edges) s) fun t => t.drv = { s.drv with
          gate := (s.drv.adaptTrdAll k edges).gate,
          bootCnt := s.drv.bootCnt.set k (s.drv.bootCnt.get k + 1),
          trd := s.drv.trd.set k { s.drv.trd.get k with
            runs := (s.drv.trd.get k).runs.map fun p => { p with bootRefresh := true },
            refFail := if ok then 0 else (s.drv.trd.get k).refFail + 1 } }
      else drives (exec (.bootstrapRefresh k ok edges) s) (cut k)) ∧
    (∀ (tdie : Int) (ma : List Nat) (rm : List (Option Nat)), drives (exec (.coilThermalTick tdie ma rm) s) fun t =>
      t.drv.tdie = BitVec.ofInt 9 tdie ∧
      ∀ v : Fin 24,
        let e := s.drv.valves.get v
        let i := if (s.drv.pulseOf v).isSome then ma.getD v.val 0 else 0
        let r : Int := e.rcoil.toNat * (100000 * 2 ^ 30 + 393 * (e.tcoil - 20 * 2 ^ 30))
        let heat : Int := i ^ 2 * r * 4 / (s.drv.cth * 10 ^ 16)
        let cool : Int := (e.tcoil - (BitVec.ofInt 9 tdie).toInt * 2 ^ 30) / (20000 * s.drv.tau)
        let e' : ValveEntry := if e.notfit then e else { e with tcoil := e.tcoil + heat - cool }
        (s.drv.holdMeasured v = false ∨ rm.getD v.val none = none) →
        (s.drv.held (treadleOf v) = false ∨ ((s.drv.pulseOf v).any fun p => p.phase == .hold && p.measures) = false ∨
          e'.tcoil < (s.drv.tcmax : Int) * 2 ^ 30) →
        t.drv.valves.get v = e') ∧
    (∀ (v : Fin 24) (k : TestFor) (mv : Nat), s.drv.test = some (v, k) → k ≠ .tall →
      drives (exec (.offstateTestDone mv) s) fun t =>
        let c : BitVec 4 := if mv < 1200 then 3 else if mv < 2200 then 1 else if mv < 3600 then 2 else 4
        (t.drv.valves.get v).diag = c ∧ t.drv.tres = c ∧ t.drv.test = none ∧
        t.drv.tgo = if k = .tgo then false else s.drv.tgo)

/--
DRV_DIAG sets MANUAL and a switch only where R261 allows it, moves a switch, starts the off-state test of a valve or of
every fitted valve in index order; a write of a valve-table word stores its fields, and one that clears NOTFIT makes the
valve UNKNOWN and one that sets it may end the sequencer's work; DRV_RESULT returns the summary word and then the stamp of
the oldest record and removes it, and 0 when empty. How SW and MANUAL combine is DEDUCED, log entry 42. Every register, flag
and byte of memory that this does not name is as it was, up to what counting notes. (R261, R278, R283, R251, R255, R94)
-/
def Obligations.DriveRegistersActAsWritten : Prop :=
  ∀ (i : Initiator) (s : State), s.powered = true → s.sys.runDmi = true →
    let sets (c : Instr) (a : Nat) (f : Drv → Drv) : Prop := Written (exec c s) s i a fun u => (u.modDrv f).afterWrite
    let quiet := s.drv.test = none ∧ s.drv.tall = false ∧ s.drv.tsdact = false
    (s.reaches i 0x40005030 true = true → s.drv.leg.toNat < 27 → s.drv.tvalve.toNat < 24 →
      (∀ v : Word, s.lifecycle = 0 → v.extractLsb' 0 8 = 0 → v.extractLsb' 13 3 = 0 → v.extractLsb' 20 4 = 0 →
        (v.extractLsb' 24 5).toNat < 27 → (v.extractLsb' 8 5).toNat < 24 → v.extractLsb' 29 2 ≠ 3 →
        (s.drv.manual = true ∨
          s.drv.allRuns = [] ∧ s.drv.allQueued = [] ∧ s.drv.seqMode = .idle ∧ quiet ∧ v.extractLsb' 29 2 = 0) →
        (v.extractLsb' 24 5 = s.drv.leg ∨ s.drv.sw = 0 ∨ v.extractLsb' 29 2 = 0) →
        sets (.manualMode i v) 0x40005030 fun d => { d with
          manual := true, sw := v.extractLsb' 29 2, leg := v.extractLsb' 24 5, tvalve := v.extractLsb' 8 5, diagInit := initCode i }) ∧
      (∀ (leg : BitVec 5) (sw : BitVec 2), leg.toNat < 27 → sw ≠ 3 → (s.drv.manual = true → s.lifecycle = 0) →
        (sw = 0 ∨ s.drv.manual = true) → (leg = s.drv.leg ∨ s.drv.sw = 0 ∨ sw = 0) →
        sets (.switchControl i leg sw) 0x40005030 fun d => { d with leg := leg, sw := sw, diagInit := initCode i }) ∧
      (s.drv.manual = false → s.drv.sw = 0 → quiet →
        (∀ v : Fin 24, (s.drv.trd.get (treadleOf (s.drv.even v))).runs = [] →
          (s.drv.trd.get (treadleOf (s.drv.even v))).turn = none →
          sets (.offstateTest i (BitVec.ofNat 5 v.val)) 0x40005030 fun d => { d with
            tvalve := BitVec.ofNat 5 v.val, test := some (s.drv.even v, .tgo), tgo := true, diagInit := initCode i }) ∧
        (∀ v : Fin 24, (s.drv.valves.get v).notfit = false → (s.drv.even v = v) →
          (∀ x : Fin 24, x < v → (s.drv.valves.get x).notfit = true ∨ s.drv.even x ≠ x) →
          sets (.testAll i) 0x40005030 fun d => { d with
            tall := true, tallNext := v.val, diagInit := initCode i,
            test := if (s.drv.trd.get (treadleOf v)).runs = [] ∧ (s.drv.trd.get (treadleOf v)).turn = none then
              some (v, .tall) else none }))) ∧
    (∀ (v : Fin 24) (k : Fin 4) (w : Word), s.reaches i (0x40005600 + 16 * v.val + 4 * k.val) true = true →
      let sets := sets (.valveTableWrite i v k w) (0x40005600 + 16 * v.val + 4 * k.val)
      let entry (f : ValveEntry → ValveEntry) (d : Drv) : Drv := { d with valves := d.valves.set v (f (d.valves.get v)) }
      (k = 0 → sets (entry fun e => { e with lenergy := w })) ∧
      (k = 1 → sets (entry fun e => { e with
        tcoil := (w.extractLsb' 16 16).toInt * 2 ^ 28, rcoil := w.extractLsb' 0 16 })) ∧
      (k = 2 → sets (entry fun e => { e with tnotch := w.extractLsb' 16 16, tpeak := w.extractLsb' 0 16 })) ∧
      (k = 3 → w.extractLsb' 13 19 = 0 → w.extractLsb' 4 4 = 0 → (w.extractLsb' 0 4).toNat ≤ 4 →
        (w.getLsbD 12 = true → (s.drv.vs v = .closed ∨ s.drv.vs v = .unknown) ∧ s.drv.engaged v = false) →
        Written (exec (.valveTableWrite i v k w) s) s i (0x40005600 + 16 * v.val + 4 * k.val) fun u =>
          let t := u.modDrv (entry fun e => { e with
            notfit := w.getLsbD 12, gstep := w.extractLsb' 8 4, diag := w.extractLsb' 0 4 })
          (if (s.drv.valves.get v).notfit = true ∧ w.getLsbD 12 = false ∧ s.drv.even v = v then t.modDrv fun d => d.setVs v .unknown
            else t).seqFinish.afterWrite)) ∧
    (∀ rd : Fin 16, s.reaches i 0x40005040 false = true → Got (exec (.drvResultRead i rd) s) s i 0x40005040 rd fun u =>
      match s.drv.fifo with
      | [] => (u, 0)
      | (w, stamp) :: rest =>
        if s.drv.rphase then (u.modDrv fun d => { d with fifo := rest, rphase := false }, stamp)
        else (u.modDrv fun d => { d with rphase := true }, w))

/--
A due line is marked with its grid time, or SKIP sets if it is already due or measuring; its prewake marks the line and
starts the DMI where XO32M runs; START makes lines due at once. The first due line starts, at the low excitation when VRES
is below 11 V, and posts QUAL 7 at once if its windows are bad. Shots are taken in order, each with its receive window and
with HQUIET in force for it; after the last the result posts with NVALID, NREJ, DTSUM, DTRAW, the quality, and DT less the
zero, which updates while the zero condition held, and the DMI is kept for 5 ms. A write of ZERO sets it as PROGRAM, and the
zero condition starts when every masked valve is CLOSED. The nearest grid time and the pair that passes the slip test are
DEDUCED, log entry 48. Every register, flag and byte of memory that this does not name is as it was, up to what counting
notes. (R293, R294, R295, R297, R300, R301, R303, R304, R305, R309, R310, R312)
-/
def Obligations.FlowMeasurementsRunTheirRules : Prop :=
  ∀ s : State, s.powered = true →
    let only (o : Out) (f : State → Prop) : Prop :=
      Touches o (fun t => { s with armed := t.armed, flw := t.flw, prs := t.prs, fresh := t.fresh }) f
    let put (n : Fin 3) (w : Flw) (f : FlowLine → FlowLine) : Flw := { w with line := w.line.set n (f (w.line.get n)) }
    let isFirst (n : Fin 3) : Prop := (s.flow n).due = true ∧ ∀ m : Fin 3, (s.flow m).due = true →
      (s.flow n).dueAt < (s.flow m).dueAt ∨ (s.flow n).dueAt = (s.flow m).dueAt ∧ n ≤ m
    (∀ n : Fin 3, (s.flow n).en = true → (s.flow n).period ≠ 0 → s.tmp.counting = true →
      (s.sys.runDmi = true → only (exec (.flowDue n) s) fun t =>
        t.flw = put n s.flw fun l =>
          if l.meas = true ∨ l.due = true then { l with skip := true, prewake := false }
          else
            let p := l.period * 2000000
            { l with due := true, prewake := false, dueAt := l.ts + (2 * (s.local.toNat - l.ts) + p) / (2 * p) * p }) ∧
      (s.flw.dead = false → Touches (exec (.flowPrewake n) s) (fun t => { s with sys := t.sys, drv := t.drv, flw := t.flw, rad := t.rad }) fun t =>
        (t.flow n).prewake = true ∧ (s.sys.xoRun = true → t.sys.runDmi = true))) ∧
    (∀ (i : Initiator) (mask : BitVec 3), s.sys.runDmi = true → s.reaches i 0x40006100 true = true →
      (∀ n : Fin 3, mask.getLsbD n.val = true → (s.flow n).en = true) →
      ∃ u t : State, s.AtBus i u ∧ exec (.flowStartRequest i mask) s = .next (t.afterWrite.wroteBy u i 0x40006100) ∧
        t = { u with flw := t.flw } ∧ t.flw.hquiet = s.flw.hquiet ∧
        ∀ n : Fin 3, t.flow n =
          let l := s.flow n
          if mask.getLsbD n.val = false ∨ l.meas = true then l
          else if l.due then { l with start := true }
          else { l with due := true, start := true, dueAt := s.local.toNat }) ∧
    (s.sys.runDmi = true →
      (∀ n : Fin 3, s.flw.meas = none → s.flw.dead = false → isFirst n →
        let l := s.flow n
        let low := l.vexc = true ∧ s.nrg.vres.toNat < 11000
        let bad := ¬ (l.wopen < l.wclose ∧ l.wclose + 50 ≤ l.sint ∧ l.npulse * l.fdiv ≤ 64 * l.wopen)
        (¬ bad → only (exec .flowMeasurementStart s) fun t =>
          t.flw = { put n s.flw (fun l => { l with meas := true, due := false, start := false }) with
            meas := some { line := n, shots := [], vexc := l.vexc && !decide low, exclow := decide low, zfirst := false,
                           stamp := none } }) ∧
        (bad → only (exec .flowMeasurementStart s) fun t =>
          t.flw.meas = none ∧ (t.flow n).qual = 7 ∧ (t.flow n).new = true ∧ (t.flow n).dt = 0x80000000 ∧
          (t.flow n).res.seq = l.res.seq + 1 ∧ t.eng.evpend.getLsbD 6 = true)) ∧
      (∀ (m : FlowMeas) (o : Shot) (ph : Ring), s.flw.meas = some m → m.shots.length < 2 * (s.flow m.line).pairs →
        Touches (exec (.flowShot o ph) s) (fun t => { s with tmp := t.tmp, flw := t.flw, prs := t.prs }) fun t =>
          t.tmp = { s.tmp with phase := max s.tmp.phase (if s.tmp.counting then s.tmp.captured 1 ph else 0) } ∧
          let l := s.flow m.line
          t.flw = { s.flw with
            winFrom := t.local.toNat + 16 * l.wopen, winTo := t.local.toNat + 16 * l.wclose, quiet := s.flw.hquiet,
            meas := some { m with
              shots := m.shots ++ [o],
              stamp := if m.shots = [] then some (t.local.extractLsb' 0 32) else m.stamp,
              zfirst := if m.shots = [] then (s.flow m.line).zcond else m.zfirst } }) ∧
      (∀ m : FlowMeas, s.flw.meas = some m → m.shots.length = 2 * (s.flow m.line).pairs →
        let l := s.flow m.line
        let ps := pairsOf 0 m.shots
        let va := noSlip l.fdiv (ps.filter fun p => pairReason p == 4)
        let raw := roundDiv (va.map dtOf).sum va.length
        let full := 2 * va.length ≥ l.pairs
        only (exec .flowResultPost s) fun t =>
          let k := t.flow m.line
          t.flw.meas = none ∧ t.flw.keep = s.local.toNat + 80000 ∧ k.meas = false ∧ k.new = true ∧ k.exclow = m.exclow ∧ t.eng.evpend.getLsbD 6 = true ∧
          k.res.seq = l.res.seq + 1 ∧ k.res.nvalid = BitVec.ofNat 8 va.length ∧
          k.res.nrej = BitVec.ofNat 8 (ps.length - va.length) ∧ k.res.dtsum = BitVec.ofInt 32 (va.map dtOf).sum ∧
          (va = [] → 2 ≤ k.qual.toNat ∧ k.dt = 0x80000000 ∧ k.res.dtraw = 0x80000000) ∧
          (va ≠ [] → k.qual = (if full then 0 else 1) ∧ k.res.dtraw = BitVec.ofInt 32 raw) ∧
          (va ≠ [] → full → m.zfirst = true → l.zcond = true →
            let z := l.zero.toInt + roundDiv (raw - l.zero.toInt) (min (l.zk + 1) 16)
            k.zero = BitVec.ofInt 32 z ∧ k.zk = l.zk + 1 ∧ k.zstate = .auto ∧
            k.dt = BitVec.ofInt 32 (max (-2147483648) (min 2147483647 (raw - z)))) ∧
          (va ≠ [] → ¬ full ∨ m.zfirst = false ∨ l.zcond = false →
            k.zero = l.zero ∧ k.zk = l.zk ∧ k.zstate = l.zstate ∧
            k.dt = BitVec.ofInt 32 (max (-2147483648) (min 2147483647 (raw - l.zero.toInt)))))) ∧
    (∀ (i : Initiator) (n : Fin 3) (v : Word), s.sys.runDmi = true → s.reaches i (0x4000600C + 0x40 * n.val) true = true →
      Written (exec (.flowZeroWrite i n v) s) s i (0x4000600C + 0x40 * n.val) fun u =>
        ({ u with flw := put n u.flw fun l => { l with
            zero := v, zstate := .program, zk := if l.zcond then 16 else l.zk } } : State).afterWrite) ∧
    (∀ n : Fin 3, s.tmp.counting = true → (s.flow n).zsettle ≠ 0 → (s.flow n).mask ≠ 0 → (s.flow n).zcond = false →
      (∀ v : Fin 24, (s.flow n).mask.testBit v.val = true → s.drv.vs v = .closed) →
      only (exec (.zeroCondition n) s) fun t => t.flw = put n s.flw fun l => { l with zcond := true, zk := 0 })

/--
A sample with a level extends or restarts the run; a run of DEB samples settles the input or changes its definite level, and
one more sample of a new level counts it, if it is of the counted kind, with wrap and POVF. A sample without a level changes
nothing. In contact mode the pin's state gives the level. A write of PCNT sets it, and a sample in the same cycle acts on
the written value, so that an increment gives W + 1. That a level is definite at DEB samples and counts at the next is
DEDUCED, log entry 49. Every register, flag and byte of memory that this does not name is as it was, up to what counting
notes. (R313, R314, R315, R317)
-/
def Obligations.PulseInputsCountTransitions : Prop :=
  ∀ (n : Fin 3) (s : State), s.powered = true →
    let l := s.flow n
    let counts (x : Bool) : Bool := l.pedge == 2 || (l.pedge == 0 && x) || (l.pedge == 1 && !x)
    let up (k : FlowLine) : FlowLine := { k with pcnt := k.pcnt + 1, povf := k.povf || k.pcnt == 0xFFFFFFFF }
    let flow (t : State) (k : FlowLine) : Prop := t.flw = { s.flw with line := s.flw.line.set n k }
    let sampled (k : FlowLine) (v : Bool) : FlowLine :=
      let run := if k.pin.runLen ≠ 0 ∧ k.pin.level = v then min 16 (k.pin.runLen + 1) else 1
      let pin := { k.pin with level := v, runLen := run }
      if run < k.deb then { k with pin := pin }
      else if k.pin.settled = false then { k with pin := { pin with settled := true, definite := v, counted := v } }
      else if run = k.deb ∨ k.pin.counted = v then { k with pin := { pin with definite := v } }
      else if counts v then up { k with pin := { pin with definite := v, counted := v } }
      else { k with pin := { pin with definite := v, counted := v } }
    (∀ (p : PinSample) (v : Bool), l.pmode ≠ 0 → s.pulseLevel n p = some v →
      Touches (exec (.pulseInputSample n p) s) (fun t => { s with flw := t.flw }) fun t => flow t (sampled l v)) ∧
    (∀ p : PinSample, l.pmode ≠ 0 → s.pulseLevel n p = none → exec (.pulseInputSample n p) s = .next s) ∧
    (l.pmode = 1 → s.pulseLevel n .active = some true ∧ s.pulseLevel n .inactive = some false) ∧
    (∀ (i : Initiator) (v : Word), s.sys.runDmi = true → s.reaches i (0x40006010 + 0x40 * n.val) true = true →
      Written (exec (.pulseCountWrite i n v none) s) s i (0x40006010 + 0x40 * n.val) (fun u =>
        ({ u with flw := { u.flw with line := u.flw.line.set n { u.flow n with pcnt := v } } } : State).afterWrite) ∧
      (∀ (p : PinSample) (x : Bool), s.pulseLevel n p = some x →
        ∃ t : State, exec (.pulseCountWrite i n v (some p)) s = .next t ∧ t.flow n = sampled { l with pcnt := v } x) ∧
      ∀ p : PinSample, s.pulseLevel n p = none →
        exec (.pulseCountWrite i n v (some p)) s = exec (.pulseCountWrite i n v none) s)

/--
A sample of an armed line takes the pin difference through the line's gain, or as it is with SENS set, gives its code and,
while RECORDING or in POST, stores four samples at a time to the ring and moves the PRE, POST and TOFF counts; in HOLD
memory is unchanged. SPOT starts a reading on a line that is not enabled, whose end stores the mean code and sets SDONE with
the PRS event and restarts the comparator of a line not armed meanwhile. CAPTURE_FORCE takes a trigger in RECORDING with its
stamp, its samples before it and its counts; CAPTURE_RELEASE returns from HOLD to RECORDING with the settings that waited;
the completion writes the 32-byte header, sets HOLD and DONE and advances the sequence. MIN, MAX and TOFF of a record
without samples are open values of the header, log entry 51. Every register, flag and byte of memory that this does not name
is as it was, up to what counting notes. (R319, R320, R323, R324, R326, R337, R338, R339, R340, R341, R342)
-/
def Obligations.PressureLinesSampleAndCapture : Prop :=
  ∀ (n : Fin 3) (s : State), s.powered = true → s.sys.runDmi = true →
    let l := s.prsLine n
    let a := 0x40007008 + 0x40 * n.val
    let cmp : Fin 8 := ⟨n.val, by omega⟩
    let vp (d : Int) : Nat :=
      (if l.ctlAct.getLsbD 28 then d else 900000 + 2 ^ (l.ctlAct.extractLsb' 23 2).toNat * d).toNat
    let code (d : Int) : Nat := min 65535 ((2 * vp d * 65536 + 1800000) / 3600000)
    let anew : Cmp := { s.prs.cmp.get cmp with begun := false, settled := false }
    let only (o : Out) (f : State → Prop) : Prop := Touches o (fun t => { s with
      mem := t.mem, armed := t.armed, prs := t.prs, tmp := t.tmp, fresh := t.fresh }) f
    let commanded (s : State) (i : Initiator) (o : Out) (f : State → State → Prop) : Prop :=
      ∃ (u t : State) (k : Noted), s.AtBus i u ∧ t = ({ u with prs := t.prs } : State).noted k ∧
        o = .next (t.afterWrite.wroteBy u i a) ∧ f u t
    (∀ (uv : Int) (ph : Ring), l.armed = true → s.cmpByLine cmp = false → s.isArmed (4 + n.val) = false → Memory.wf s.mem = true →
      only (exec (.pressureSample n uv ph) s) fun t =>
        let v : BitVec 16 := BitVec.ofNat 16 (code uv)
        let now := t.local.toNat
        let k := t.prsLine n
        let at_ := l.base + 32 + 2 * (l.stored % l.len / 4 * 4)
        let stored := ∀ x : Nat, cellAt t.mem.cells x =
          if l.acc.length = 3 ∧ at_ ≤ x ∧ x < at_ + 8 then
            ((l.acc ++ [v]).getD ((x - at_) / 2) 0).extractLsb' (8 * ((x - at_) % 2)) 8
          else cellAt s.mem.cells x
        k.val = v ∧ k.valid = true ∧ t.tmp = { s.tmp with phase := max s.tmp.phase (if s.tmp.counting then s.tmp.captured 1 ph else 0) } ∧
        (l.state = .recording → k.state = .recording ∧ k.stored = l.stored + 1 ∧ k.lastAt = now ∧
          (l.acc.length ≤ 3 → stored ∧ k.acc = if l.acc.length = 3 then [] else l.acc ++ [v])) ∧
        (∀ r : Record, l.state = .post → l.rec_ = some r → ¬ (r.toff.isSome ∧ l.len - l.pre ≤ r.npost) →
          k.state = .post ∧ k.stored = l.stored + 1 ∧ k.lastAt = now ∧
          (l.acc.length ≤ 3 → stored ∧ k.acc = if l.acc.length = 3 then [] else l.acc ++ [v]) ∧
          k.rec_ = some (
            if r.toff = none ∧ now < r.at_ then { r with npre := min l.pre (l.stored + 1) }
            else if r.toff = none then
              { r with npre := min l.pre l.stored, toff := some (now - r.at_), npost := r.npost + 1 }
            else { r with npost := r.npost + 1 })) ∧
        (l.state = .hold → t.mem = s.mem ∧ k = { l with val := v, valid := true })) ∧
    (∀ i : Initiator, s.reaches i a true = true →
      commanded s i (exec (.spotReading i n) s) fun u t =>
        if l.ctlAct.getLsbD 31 = true ∨ l.spot = true then t.prs = u.prs
        else t.prsLine n = { l with spot := true } ∧
          t.prs.cmp.get cmp = anew) ∧
    (∀ i : Initiator, s.reaches i a true = true →
      commanded s i (exec (.captureRelease i n) s) fun u t =>
        if l.state = .hold ∧ s.prs.dead = false then
          let k : PrsLine := { l with
            state := .recording, ctlAct := l.ctlHeld.getD l.ctlAct, ctlHeld := none, stored := 0, acc := [], rec_ := none, lastAt := 0 }
          t.prsLine n = k ∧ t.prs.cmp.get cmp =
            if (k.armed || k.spot) ≠ (l.armed || l.spot) ∨ k.armed = true ∧ l.armed = true ∧ k.pulsed ≠ l.pulsed then anew
            else s.prs.cmp.get cmp
        else t.prs = u.prs) ∧
    (∀ uv : List Int, l.spot = true →
      let codes := uv.map code
      Touches (exec (.spotReadingDone n uv) s) (fun t => { s with prs := t.prs }) fun t =>
        t.prsLine n = { l with
          val := BitVec.ofNat 16 (if codes = [] then 0 else (2 * codes.sum + codes.length) / (2 * codes.length)),
          valid := true, sdone := true, spot := false } ∧
        t.prs.cmp.get cmp = (if l.armed then s.prs.cmp.get cmp else anew) ∧
        t.eng.evpend.getLsbD 7 = true) ∧
    (∀ (i : Initiator) (ph : Ring), (s.atPhase ph).reaches i a true = true →
      commanded (s.atPhase ph) i (exec (.captureForce i n ph) s) fun u t =>
        let at_ := (s.atPhase ph).local
        let k := t.prsLine n
        let w := ((if s.tmp.sync then at_ + s.tmp.offs else at_).extractLsb' 0 32)
        if l.state = .recording then
          k.state = .post ∧ k.trg = true ∧ k.stamp = w ∧ t.eng.evpend.getLsbD 7 = true ∧
          ∃ r, k.rec_ = some r ∧ r.own = false ∧ r.soft = true ∧ r.sampled = false ∧ r.plant = s.tmp.sync ∧ r.stampW = w ∧
            r.valve = 0xFF ∧ r.qual = s.tmp.qual ∧ r.at_ = at_.toNat ∧
            if 0 < l.stored ∧ at_.toNat ≤ l.lastAt then
              r.npre = min l.pre (l.stored - 1) ∧ r.npost = 1 ∧ r.toff = some (l.lastAt - at_.toNat)
            else r.npre = min l.pre l.stored ∧ r.npost = 0 ∧ r.toff = none
        else t.prs = u.prs) ∧
    (∀ r : Record, l.state = .post → l.rec_ = some r → r.toff.isSome = true → l.len - l.pre ≤ r.npost →
      s.isArmed (4 + n.val) = false → Memory.wf s.mem = true →
      only (exec (.captureComplete n) s) fun t =>
        (∃ first lo hi : Nat,
          let h := headerOf n l r false (r.toff.getD 0) first lo hi
          ∀ x : Nat, cellAt t.mem.cells x =
            if l.base ≤ x ∧ x < l.base + 32 then BitVec.ofNat 8 (h >>> (8 * (x - l.base)))
            else cellAt (s.ringFlush n).mem.cells x) ∧
        t.prsLine n = { l with state := .hold, done := true, seq := l.seq + 1, rec_ := none, acc := [] } ∧
        t.eng.evpend.getLsbD 7 = true)

/--
A sample or a transition gives each threshold state by its hysteresis band on the input, of comparators 0 to 2 the amplified
pin difference of their line, inverted or replaced by the test mode, and the output by the mode; an unblanked change of a
settled output is seen, latches when it rises and, where enabled, pends its event; a blanked one is not. The end of the
window that ends first takes it from the list and, where no other window of the source blanks a comparator, takes over the
output that has changed meanwhile. Configuration and test writes store their fields and restart a comparator whose input
they change. The hysteresis step is DEDUCED, log entry 50, and which window an end ends DESIGN CHOICE, log entry 69. Every
register, flag and byte of memory that this does not name is as it was, up to what counting notes. (R319, R328, R329, R330,
R331, R332, R333, R335)
-/
def Obligations.ComparatorsFollowTheirInputs : Prop :=
  ∀ s : State, s.powered = true →
    let evaluates (o : Out) (c : Fin 8) (uv : Int) (tmp : Tmp) : Prop :=
      let x := s.prs.cmp.get c
      let pin : Nat :=
        if h : c.val < 3 then
          let l := s.prsLine ⟨c.val, h⟩
          (if l.ctlAct.getLsbD 28 then uv else 900000 + 2 ^ (l.ctlAct.extractLsb' 23 2).toNat * uv).toNat
        else uv.toNat
      let volts := if x.test = 2 then 300000 else if x.test = 3 then 1200000 else pin
      let inside (th : Nat) : Prop :=
        ¬ ((2 * th + x.hys) * 1800000 < volts * 1024) ∧ ¬ (volts * 1024 + x.hys * 1800000 < 2 * th * 1800000)
      let over_ (th : Nat) (old : Bool) : Bool :=
        if inside th ∧ x.begun = true then old else decide (2 * th * 1800000 < volts * 1024) != (x.test == 1)
      let a := over_ x.ta x.sa
      let b := over_ x.tb x.sb
      let out := if x.mode = 0 then b else if x.mode = 1 then !a else if x.mode = 2 then !a || b else a && !b
      let outside := (x.mode = 0 ∨ ¬ inside x.ta) ∧ (x.mode = 1 ∨ ¬ inside x.tb)
      let change := x.test = 0 ∧ x.settled = true ∧ x.out ≠ out
      Touches o (fun t => { s with prs := t.prs, tmp := tmp }) fun t =>
        let y := t.prs.cmp.get c
        y.sa = a ∧ y.sb = b ∧ y.out = out ∧ y.begun = true ∧ (y.settled = true ↔ x.settled = true ∨ outside) ∧
        (change → x.blanked = false → y.seen = out ∧ (out = false → y.latch = x.latch) ∧
          (out = true → y.latch = true ∧ (x.cfg.getLsbD 30 = true → t.eng.evpend.getLsbD 8 = true))) ∧
        (¬ change ∨ x.blanked = true → y.latch = x.latch) ∧ (change → x.blanked = true → y.seen = x.seen)
    (∀ (c : Fin 8) (uv : Int), s.cmpActive c = true → s.cmpByLine c = false →
      ((s.prs.cmp.get c).srate ≠ 7 → evaluates (exec (.comparatorSample c uv) s) c uv s.tmp) ∧
      (∀ ph : Ring, (s.prs.cmp.get c).srate = 7 →
        evaluates (exec (.comparatorTransition c uv ph) s) c uv { s.tmp with phase := max s.tmp.phase (if s.tmp.counting then s.tmp.captured 1 ph else 0) })) ∧
    (∀ (src : BlankSource) (w : BlankWin), s.prs.nextWin src = some w →
      (w ∈ s.prs.wins ∧ w.src = src ∧ w.due.isSome = true ∧
        ∀ o ∈ s.prs.wins, o.src = src → o.due.isSome = true → w.due.getD 0 ≤ o.due.getD 0) ∧
      Touches (exec (.blankWindowEnd src) s) (fun t => { s with prs := t.prs }) fun t =>
        let rest := s.prs.wins.erase w
        t.prs.wins = rest ∧ ∀ c : Fin 8,
        let x := s.prs.cmp.get c
        let on := rest.any fun o => o.src == src && o.mask.getLsbD c.val
        let y := match src with
          | .drv => { x with blDrv := on }
          | .shot => { x with blShot := on }
          | .tmpMatch => { x with blMatch := on }
        t.prs.cmp.get c =
          if x.blanked = true ∧ y.blanked = false ∧ x.settled = true ∧ x.test = 0 ∧ x.seen ≠ x.out then
            { y with seen := x.out, latch := x.latch || x.out, recent := x.recent || x.out }
          else y) ∧
    (∀ (i : Initiator) (v : Word) (c : Fin 8), s.sys.posted = [] → (∀ f ∈ s.sys.failed, f.init ≠ i) →
      s.reaches i (0x40008000 + 4 * c.val) true = true → v.getLsbD 18 = false → v.extractLsb' 25 3 ≠ 6 →
      ((v.extractLsb' 23 2).toNat < 2 ∨ (v.extractLsb' 0 9).toNat + (v.extractLsb' 19 4).toNat + 1 ≤ (v.extractLsb' 9 9).toNat) →
      (c.val < 6 ∨ v.extractLsb' 28 2 ≠ 2) →
      Posts (exec (.comparatorConfigWrite i c v) s) s i (0x40008000 + 4 * c.val) fun u => { u with
        prs := { u.prs with
          cmp := u.prs.cmp.set c (
            let x := u.prs.cmp.get c
            if (x.cfg ^^^ v) &&& 0x8FFBFFFF = 0 then { x with cfg := v }
            else { x with cfg := v, begun := false, settled := false }) } }) ∧
    (∀ (i : Initiator) (v : Word), s.sys.posted = [] → (∀ f ∈ s.sys.failed, f.init ≠ i) →
      s.reaches i 0x4000802C true = true → v.extractLsb' 16 16 = 0 →
      Posts (exec (.comparatorTestWrite i v) s) s i 0x4000802C fun u => { u with
        prs := { u.prs with
          cmp := Vector.ofFn fun c : Fin 8 =>
            let x := u.prs.cmp.get c
            let k : BitVec 2 := v.extractLsb' (2 * c.val) 2
            if x.test ≠ 0 ∧ k = 0 then { x with test := k, begun := false, settled := false }
            else { x with test := k } } })

/--
TEMPO_START makes tempo count from 0 and serves a waiting clock request while the core runs; the start timeout makes it
count with XTFAIL set. A failed crystal clears SYNC, sets DEPTH 0xF, ERR 0xFFF and XTFAIL, ends discipline and moves a core
on FLL to FREE with FALLBACK, stopped or not. Recovery clears XTFAIL and returns the core by R538. A PPS trace that is lost
clears TRACE. Every register, flag and byte of memory that this does not name is as it was, up to what counting notes.
(R345, R364, R369, R370, R538)
-/
def Obligations.TempoStartsAndFallsBack : Prop :=
  ∀ s : State, s.powered = true →
    let start (t : Tmp) : Tmp := { t with counting := true, now := 0, frac := 0, phase := 0 }
    let free (t : Tmp) : Tmp := { t with disc := .freeRun, ppsEdges := 0, rejected := none }
    (s.tmp.counting = false →
      (∃ y : Sys, exec .tempoStart s = .next { s with tmp := start s.tmp, sys := y } ∧
        (s.sys.coreStopped = false ∨ s.sys.src ≠ 2 → y =
          if s.eng.stopped = false ∧ (s.sys.src = 0 ∨ (s.sys.src = 1 ∧ s.tmp.xtfail = false) ∨ (s.sys.src = 2 ∧ s.sys.xoRun = true)) then
            { s.sys with curSrc := s.sys.src, xoRun := s.sys.xoRun && (s.sys.runDmi || s.sys.runRad || s.sys.src == 2) }
          else s.sys)) ∧
      exec .xt32StartTimeout s = .next { s with tmp := { start s.tmp with xtfail := true } }) ∧
    (s.tmp.counting = true → s.tmp.xtfail = false →
      exec .xt32Fail s = .next { s with
        tmp := { free s.tmp with sync := false, depth := 0xF, err := 0xFFF, xtfail := true },
        sys := if s.sys.curSrc = 1 then { s.sys with curSrc := 0, fallback := true } else s.sys }) ∧
    (s.tmp.xtfail = true →
      exec .xt32Recover s = .next { s with
        tmp := { free s.tmp with xtfail := false },
        sys :=
          if s.sys.src ≠ 0 ∧ s.tmp.counting = true then
            { s.sys with curSrc := if s.sys.src = 2 ∧ s.sys.xoRun = true then 2 else 1 }
          else s.sys }) ∧
    (s.tmp.src = 2 → s.tmp.trace = true → exec .traceLoss s = .next { s with tmp := { s.tmp with trace := false } })

/--
A read of TMP_NOW_LO returns the low word of interpolated local time and latches the high word for its initiator;
TMP_OFFS_LO likewise. The offset's low word is staged and taken with the high word while SYNC is 0 or SRC is FREE, when FREE
sets SYNC. A change of SRC clears SYNC and TRACE, sets DEPTH and ERR and restarts the discipline, while the same SRC changes
nothing; a write of TMP_MATCH arms the match and MARM can be cleared. Writes are posted. A capture n XT32 edges ahead is the
count at the next edge less the advance times n_a / n_b, to the nearest unit; a capture less a delay subtracts the delay in
nanoseconds to the nearest unit, and a received frame's stamp subtracts RXDLY of its rate. Every register, flag and byte of
memory that this does not name is as it was, up to what counting notes. (R347, R348, R350, R355, R357, R366, R367, R381,
R536)
-/
def Obligations.TempoRegistersReadAndWrite : Prop :=
  (∀ (i : Initiator) (s : State), s.powered = true → s.sys.posted = [] → (∀ f ∈ s.sys.failed, f.init ≠ i) →
    let mayWrite := s.tmp.sync = false ∨ s.tmp.src = 3
    let src (t : Tmp) (c : BitVec 2) : Tmp :=
      if t.src = c then t
      else { t with src := c, sync := false, trace := false, depth := 0xF, err := 0xFFF, disc := .freeRun, ppsEdges := 0, rejected := none }
    (∀ (rd : Fin 16) (ph : Ring), s.tmp.counting = true →
      let v : State := { s with tmp := { s.tmp with phase := max s.tmp.phase (s.tmp.captured 1 ph) } }
      v.reaches i 0x40004000 false = true →
      Got (exec (.tmpNowRead i rd ph) s) v i 0x40004000 rd fun u =>
        let n := v.tmp.now + BitVec.ofNat 64 v.tmp.phase
        ({ u with tmp := { v.tmp with hiLatch := v.tmp.hiLatch.set (initIdx i) (n.extractLsb' 32 32) } }, n.extractLsb' 0 32)) ∧
    (∀ rd : Fin 16, s.reaches i 0x4000400C false = true →
      Got (exec (.tmpOffsRead i rd) s) s i 0x4000400C rd fun u =>
        ({ u with tmp := { s.tmp with offsLatch := s.tmp.offsLatch.set (initIdx i) (s.tmp.offs.extractLsb' 32 32) } },
          s.tmp.offs.extractLsb' 0 32)) ∧
    (∀ v : Word, mayWrite → s.reaches i 0x4000400C true = true →
      Posts (exec (.tmpOffsStage i v) s) s i 0x4000400C fun u => { u with tmp := { s.tmp with staged := v } }) ∧
    (∀ v : Word, mayWrite → s.reaches i 0x40004010 true = true →
      Posts (exec (.tmpOffsSet i v) s) s i 0x40004010 fun u => { u with tmp :=
        let t := { s.tmp with offs := v ++ s.tmp.staged }
        if s.tmp.src = 3 then { t with sync := true, depth := 0, trace := false, err := 0 } else t }) ∧
    (∀ c : BitVec 2, s.reaches i 0x40004014 true = true →
      Posts (exec (.timeSourceChange i c) s) s i 0x40004014 fun u => { u with tmp := src s.tmp c }) ∧
    (∀ v : Word, s.reaches i 0x40004018 true = true →
      Posts (exec (.matchArm i v) s) s i 0x40004018 fun u => { u with tmp := { s.tmp with tmatch := v, marm := true } }) ∧
    (s.reaches i 0x40004014 true = true →
      Posts (exec (.matchDisarm i) s) s i 0x40004014 fun u => { u with tmp := { s.tmp with marm := false } })) ∧
  (∀ (s : State) (n : Nat) (r : Ring), s.tmp.counting = true → 0 < r.nb →
    let a := s.tmp.inc
    let edge := (s.tmp.frac.toNat + n * a) / 2 ^ 37
    let k := s.tmp.captured n r
    let unit := 2 ^ 37 * r.nb
    a = (15625 * ((2 ^ 32 : Int) + s.tmp.x)).toNat ∧
    (a * r.na ≤ edge * unit →
      2 * (k * unit) ≤ 2 * (edge * unit - a * r.na) + unit ∧ 2 * (edge * unit - a * r.na) ≤ 2 * (k * unit) + unit) ∧
    (∀ d : Word, s.captureLess n r d =
      s.tmp.now + BitVec.ofNat 64 k - BitVec.ofNat 64 ((16 * d.toNat + 500) / 1000)) ∧
    (∀ f : RxFrame, f.sfd = r → n = 1 → s.rxStamp f = s.captureLess n r (s.otp (0x20 + 4 * f.rate))))

/--
The match fires, disarms and pends its event, clears comparator latches and opens a MATCH window with its end. A PPS edge
within 1 ms of the last is ignored; an accepted one steps the offset to the whole second, sets TRACE and AGE 0, starts
LOCKED at the second edge of a plausible rate, and later limits the rate update by four; an edge too far off changes nothing
but its capture. The quality tick advances AGE and recomputes ERR from the parent's error, clearing SYNC when it exceeds 50
us; the MAC stays as it is while the tick is not its boundary. (R363, R364, R365, R367, R331, R332, R351)
-/
def Obligations.TempoFollowsItsEdges : Prop :=
  ∀ s : State, s.powered = true → s.tmp.counting = true →
    (s.tmp.marm = true → (s.tmp.now.toNat + 2 ^ 32 - s.tmp.tmatch.toNat) % 2 ^ 32 < 2 ^ 31 →
      Touches (exec .tmpMatch s) (fun t => { s with
        tmp := { s.tmp with marm := false }, prs := { s.prs with cmp := t.prs.cmp, wins := t.prs.wins } }) fun t =>
          (let tail := 16000 * 2 ^ (s.prs.blank.extractLsb' 28 4).toNat
           t.prs.wins = s.prs.wins ++ [{ src := .tmpMatch, mask := s.prs.blank.extractLsb' 16 8, valve := 0, tail := tail, due := some (s.local.toNat + tail) }]) ∧
          t.eng.evpend.getLsbD 11 = true ∧ ∀ c : Fin 8, t.prs.cmp.get c =
            let x := s.prs.cmp.get c
            let b := x.blMatch || s.prs.blank.getLsbD (16 + c.val)
            if x.cfg.extractLsb' 28 2 = 3 ∧ x.recent = false then { x with latch := false, blMatch := b }
            else { x with blMatch := b }) ∧
    (∀ ph : Ring, s.tmp.src = 2 → s.tmp.xtfail = false →
      let phase := max s.tmp.phase (s.tmp.captured 1 ph)
      let l := s.tmp.now + BitVec.ofNat 64 phase
      let p := (l + s.tmp.offs).toNat
      let w := (p + 8000000) / 16000000 * 16000000
      let e : Int := (w : Int) - p
      let dl := (l - s.tmp.refL).toInt
      let dp := (BitVec.ofNat 64 w - s.tmp.refP).toInt
      let rate (g : Nat) : Int :=
        if dl ≤ 0 then s.tmp.rate.toInt
        else s.tmp.rate.toInt + roundDiv ((2 ^ 32 + s.tmp.x) * (dp - dl)) (g * dl.toNat)
      let soon := ∃ a : BitVec 64, s.tmp.gp0At = some a ∧ (l - a).toInt < 16000
      ∃ t : Tmp, exec (.ppsEdge ph) s = .next { s with tmp := t } ∧
        (soon → t = { s.tmp with phase := phase }) ∧
        (¬ soon → t.gp0At = some l ∧
          (s.tmp.ppsEdges ≠ 0 → ¬ (-8000 ≤ e ∧ e ≤ 8000) → t = { s.tmp with phase := phase, gp0At := some l }) ∧
          (s.tmp.ppsEdges = 0 ∨ (-8000 ≤ e ∧ e ≤ 8000) →
            t.offs = s.tmp.offs + BitVec.ofInt 64 e ∧ t.refP = BitVec.ofNat 64 w ∧ t.refL = l ∧ t.age = 0 ∧ t.trace = true ∧
            (s.tmp.ppsEdges = 0 ∨ (s.tmp.ppsEdges = 1 ∧ ¬ (-858993 ≤ rate 1 ∧ rate 1 ≤ 858993)) →
              t.ppsEdges = 1 ∧ t.sync = s.tmp.sync ∧ t.rate = s.tmp.rate) ∧
            (s.tmp.ppsEdges = 1 → -858993 ≤ rate 1 → rate 1 ≤ 858993 →
              t.ppsEdges = 2 ∧ t.sync = true ∧ t.depth = 0 ∧ t.err = 0 ∧ t.rate = BitVec.ofInt 32 (rate 1)) ∧
            (2 ≤ s.tmp.ppsEdges → t.ppsEdges = s.tmp.ppsEdges ∧ t.sync = s.tmp.sync ∧
              t.rate = BitVec.ofInt 32 (max (-858993) (min 858993 (rate 4))))))) ∧
    (∀ r : Nat, s.tmp.sync = true → s.tmp.parentErr ≤ 65520 →
      let age := min 1023 (s.tmp.age.toNat + 1)
      let q := s.tmp.parentErr ^ 2 + if s.tmp.src = 0 then 9 * (66 ^ 2 + (30 * age) ^ 2) else (90 * age) ^ 2
      let ns := r + if s.tmp.src = 0 then 7 else 50
      let n := (ns + 15) / 16
      q ≤ r * r → (∀ r' : Nat, q ≤ r' * r' → r ≤ r') →
      Touches (exec .timeQualityTick s) (fun t => { s with
        sys := t.sys, drv := t.drv, flw := t.flw,
        tmp := t.tmp, mem := t.mem, rad := t.rad, mac := t.mac, macx := t.macx, sec := t.sec, fresh := t.fresh }) fun t =>
          (s.macRuns = true → t.tmp.disc = s.tmp.disc → t.mac = s.mac ∧ t.macx = s.macx) ∧ t.tmp = { s.tmp with
            age := BitVec.ofNat 10 age,
            sync := (s.tmp.src = 2 ∨ s.tmp.src = 3 ∨ 16 * n ≤ 50000 : Bool),
            depth := if s.tmp.src = 2 ∨ s.tmp.src = 3 ∨ 16 * n ≤ 50000 then s.tmp.depth else 0xF,
            disc := if s.tmp.src = 2 ∨ s.tmp.src = 3 ∨ 16 * n ≤ 50000 then s.tmp.disc else .freeRun,
            err := if s.tmp.src = 2 ∨ s.tmp.src = 3 then 0 else if 16 * n ≤ 50000 then BitVec.ofNat 12 n else 0xFFF }) ∧
    (s.tmp.sync = false →
      Touches (exec .timeQualityTick s) (fun t => { s with
        sys := t.sys, drv := t.drv, flw := t.flw,
        tmp := t.tmp, mem := t.mem, rad := t.rad, mac := t.mac, macx := t.macx, sec := t.sec, fresh := t.fresh }) fun t =>
          (s.macRuns = true → t.mac = s.mac ∧ t.macx = s.macx) ∧
          t.tmp = { s.tmp with age := BitVec.ofNat 10 (min 1023 (s.tmp.age.toNat + 1)), err := 0xFFF })

/--
A frame is heard at the node's rate inside the window of its slot. One with a bad PHR (MS, reserved FCS, or a length outside
5 to 255) counts in PHRERR, one with a bad FCS in FCSERR, one that is not of this node's kind changes only RSSI, limited to
-125 to -10 dBm, and an acknowledgement of the waiting attempt ends it and the service. The dwell sub-window shifts every
channel's charge, also after a reset, and recomputes MAXCH and MAXUSE; the first RAD_DWELL write sets the plan and its
limit, keeps the charges of the same plan and, after a cold start that asks for it, charges every channel, and later writes
set nothing; TEST enters the test state. A service with LBT begins its listen with the threshold of that time, or ends when
a busy listen has just been and LT is above 1,900 us; a quiet listen frees the key-up, and a busy one counts and ends the
service; PREWAKE starts the islands. A frame put on the air is preamble, SFD, PHR and PSDU, whitened where asked and doubled
by the code, and a receiver of its form reads its PSDU. The octet forms of the code and the SFD are PRESUMED, log entry 68.
(R371, R372, R373, R380, R381, R383, R385, R386, R387, R389, R403, R436)
-/
def Obligations.RadioKeepsItsLimits : Prop :=
  (∀ s : State, s.powered = true →
    (∀ f : RxFrame, s.receiving = true → s.hears f = true →
      let phase := max s.tmp.phase (if s.tmp.counting = true then s.tmp.captured 1 f.sfd else 0)
      let n := f.phr.toNat % 2048
      let p := ((if f.phr.getLsbD 11 = true then whiten (f.octets.take n) else f.octets.take n)).map BitVec.toNat
      let rssi := max (-125) (min (-10) f.rssi)
      let heard (r : Rad) : Rad := { r with rssif := BitVec.ofInt 8 rssi }
      let bad := f.phr.getLsbD 15 = true ∨ f.phr.getLsbD 12 = true ∨ n < 5 ∨ 255 < n
      let whole := p.length = n ∧ crc32 (p.take (n - 4)) = ofLE (p.drop (n - 4))
      (bad → exec (.frameReceive f) s = .next { s with
        tmp := { s.tmp with phase := phase },
        rad := { s.rad with phrerr := BitVec.ofNat 4 (min 15 (s.rad.phrerr.toNat + 1)) } }) ∧
      (¬ bad → ¬ whole → exec (.frameReceive f) s = .next { s with
        tmp := { s.tmp with phase := phase },
        rad := { heard s.rad with fcserr := BitVec.ofNat 8 (min 255 (s.rad.fcserr.toNat + 1)) } }) ∧
      (¬ bad → whole →
        (frameOk p = false → Touches (exec (.frameReceive f) s) (fun _ => { s with
          tmp := { s.tmp with phase := phase }, rad := heard s.rad }) fun _ => True) ∧
        (∀ a : Attempt, frameOk p = true → fcType p = 1 → s.macx.attempt = some a → a.type ≠ 5 →
          (∀ q ∈ s.macx.queue, q.down = false) →
          let x := s.neigh (s.link a.link).neigh
          oct p 2 = a.lseq.toNat → oct16 p 3 = s.mac.saddr.toNat → oct16 p 5 = x.saddr.toNat →
          Touches (exec (.frameReceive f) s) (fun t => { s with
            tmp := t.tmp, rad := t.rad, mem := t.mem, mac := t.mac, macx := t.macx, fresh := t.fresh }) fun t =>
              t.macx.attempt = none ∧ t.macx.serving = .nothing ∧ t.rad.state = .idle ∧
              t.rad.rssif = BitVec.ofInt 8 rssi ∧ t.eng.evpend.getLsbD 2 = true))) ∧
    (s.rad.unset = false ∨ s.rad.oldPlan ≠ none → s.tmp.counting = true →
      ∃ r : Rad, exec .dwellSubwindow s = .next { s with rad := r } ∧
        (∀ k : Fin 64, r.charge.get k = (0 :: s.rad.charge.get k).take 17) ∧
        (s.rad.unset = false → (∀ k : Nat, k < r.chans → r.charged k ≤ r.charged r.maxch.toNat) ∧
          r.maxuse = (if r.limitUs = 0 then 0 else BitVec.ofNat 8 (min 100 (r.charged r.maxch.toNat * 100 / r.limitUs))))) ∧
    (∀ (i : Initiator) (v : Word), s.sys.runRad = true → s.reaches i 0x4000900C true = true →
      1 ≤ (v.extractLsb' 15 15).toNat → (v.extractLsb' 15 15).toNat ≤ 22500 → v.extractLsb' 0 14 ≠ 0 →
      let plan : BitVec 16 := v.extractLsb' 31 1 ++ v.extractLsb' 15 15
      Written (exec (.dwellConfig i v) s) s i 0x4000900C fun u => ({ u with
        rad :=
          if u.rad.unset = false then u.rad
          else
            let c := if u.rad.oldPlan = none ∨ u.rad.oldPlan = some plan then u.rad.charge else Vector.replicate 64 []
            let d := if u.rad.coldHold = true ∧ v.getLsbD 14 = true then
                Vector.replicate 64 [(v.extractLsb' 0 14).toNat * 10000]
              else c
            { u.rad with dwell := v, unset := false, charge := d, coldHold := false, oldPlan := some plan } } :
              State).afterWrite) ∧
    (∀ (i : Initiator) (v : Word), s.sys.runRad = true → s.reaches i 0x40009000 true = true →
      v &&& 0xFFFF80CC = 0 → (v.extractLsb' 8 7).toNat < s.rad.chans → s.lifecycle = 0 →
      v.extractLsb' 4 2 = 1 ∨ v.extractLsb' 4 2 = 2 →
      Written (exec (.radioTest i v) s) s i 0x40009000 fun u =>
        (({ u with rad := { u.rad with ctl := v } } : State).setRad .test).afterWrite) ∧
    (∀ (v : Serving) (k : Nat), s.sys.runRad = true → s.rad.lbt = true → s.dwellCheck k (s.rad.onTime (s.servingLen v)) = none →
      let free := s.macx.before = false ∨ s.rad.lbtLt.toNat ≤ 1900
      let t := s.serveTx v k
      t.macx.chan = k ∧
      (free → t.rad.state = .listen ∧ t.rad.lisThr = s.rad.lbtThr ∧ t.macx.serving = v ∧ t.macx.listens = true ∧
        t.macx.lbtOk = false) ∧
      (¬ free → t.rad.state = .idle ∧ t.macx.serving = .nothing ∧ t.rad.refcnt = s.rad.refcnt)) ∧
    (∀ (rssi : Int) (sfd : Bool), s.listening = true →
      let busy := sfd = true ∨ s.rad.lisThr.toInt < max (-125) (min (-10) rssi)
      (¬ busy → exec (.lbtListenEnd rssi sfd) s = .next { s with macx := { s.macx with lbtOk := true } }) ∧
      (busy → Touches (exec (.lbtListenEnd rssi sfd) s) (fun t => { s with
        rad := t.rad, mem := t.mem, mac := t.mac, macx := t.macx, fresh := t.fresh }) fun t =>
          t.macx.serving = .nothing ∧ t.macx.lbtOk = false ∧ t.rad.state = .idle ∧ t.rad.refcnt = s.rad.refcnt ∧
          t.rad.busycnt = BitVec.ofNat 8 (min 255 (s.rad.busycnt.toNat + 1)))) ∧
    (s.macRuns = true → (s.pickCell (s.asnNow + 1)).isSome = true →
      exec .radioPrewake s = .next ({ s with macx := { s.macx with prewake := true } } : State).startIslands ∧
      (s.sys.xoRun = true → ∀ t : State, exec .radioPrewake s = .next t → t.sys.runRad = true))) ∧
  (∀ f : AirFrame, f.psdu.length < 2048 →
    let n := f.psdu.length
    let phr : BitVec 16 := BitVec.ofNat 16 (2048 * f.dw.toNat + n)
    (∀ (rssi : Int) (sfd : Ring),
      let g : RxFrame := { rate := f.rate, coded := f.coded, phr := phr, octets := f.octets, rssi := rssi, sfd := sfd }
      g.psdu = f.psdu ∧ g.len = n ∧ g.ms = false ∧ g.fcs2 = false ∧ g.dw = f.dw) ∧
    (f.dw = false → f.octets = f.psdu) ∧
    f.bits.length = 8 * (f.pre + 2 + if f.coded = true then 2 * (2 + n + 1) else 2 + n) ∧
    (∀ k : Nat, k < 8 * f.pre → f.bits[k]? = some (k % 2 == 1)) ∧
    (f.coded = false → ∀ k : Nat, k < 16 → f.bits[8 * f.pre + 16 + k]? = some (phr.getLsbD (15 - k))))

/--
The slot event pends when the next slot holds a cell that asks for it, and the slot start takes the slot's ASN and ends the
prewake. A key-up with the transmitter off, or by a chain member, sends nothing and returns to IDLE; a beacon key-up with a
valid key below its ceiling and its dwell allowed sends a 48-octet beacon with the rate, preamble, form, channel frequency
and power in force and the stamp of its SFD, advances the frame counter, charges its channel and pends RADIO. An
acknowledgement due sends its 12 octets or nothing on the same conditions. A missed acknowledgement pends RADIO, ends the
attempt, backs off a JOIN, counts a miss and begins RESYNC at the limit; a receive window that ends without a frame counts a
missed beacon. That the stamp subtracts TXDLY is DEDUCED, log entry 67. (R375, R378, R381, R384, R395, R403, R404, R407,
R415, R435, R436, R437)
-/
def Obligations.SlotsServeTheirCells : Prop :=
  ∀ s : State, s.powered = true →
    let radio (x : RadState) : RadState := if s.sys.runRad = true then x else .off
    let onAir (k : Nat) (psdu : List Byte) (stamp : BitVec 64) : AirFrame := {
      rate := (s.rad.phy.extractLsb' 0 2).toNat, pre := (s.rad.phy.extractLsb' 8 6).toNat, coded := s.rad.phy.getLsbD 3,
      dw := s.rad.phy.getLsbD 4, psdu := psdu, chan := k,
      freq := if s.rad.dwell.getLsbD 31 = true then 902400 + 400 * k else 863100 + 200 * k,
      power := s.rad.pwr, high := decide (14 < s.rad.pwr.toInt), stamp := stamp }
    (s.macRuns = true → s.pickEv (s.asnNow + 1) = true →
      Touches (exec .slotEvent s) (fun _ => s) fun t => t.eng.evpend.getLsbD 1 = true) ∧
    (s.macRuns = true → 0 < (s.asn + 2 ^ 40 - s.macx.slotAsn) % 2 ^ 40 → (s.asn + 2 ^ 40 - s.macx.slotAsn) % 2 ^ 40 < 2 ^ 39 →
      Touches (exec .slotStart s) (fun t => { s with
        mem := t.mem, rad := t.rad, mac := t.mac, macx := t.macx, sec := t.sec, fresh := t.fresh }) fun t =>
          t.macx.slotAsn = s.asn ∧ t.macx.prewake = false) ∧
    (s.keyupDue = true → ∀ (sfd : Ring) (edges : Nat),
      (s.rad.ctl.getLsbD 0 = false ∨ s.lnk.valid = false ∨ s.lnk.head = false →
        Touches (exec (.keyup sfd edges) s) (fun t => { s with
          rad := t.rad, mem := t.mem, mac := t.mac, macx := t.macx, fresh := t.fresh }) fun t =>
            t.macx.serving = .nothing ∧ t.macx.lbtOk = false ∧ t.rad.state = .idle ∧ t.macx.sent = s.macx.sent) ∧
      (s.rad.ctl.getLsbD 0 = true → s.lnk.valid = true → s.lnk.head = true →
        s.macx.listens = true ∨ s.dwellCheck s.macx.chan (s.rad.onTime 48) = none →
        let k : Fin 16 := if s.sec.nettx then 2 else 1
        let x := s.slot k
        s.macx.serving = .beacon → x.valid = true → x.fcnt ≠ 0xFFFFFFFF → x.fcnt.toNat < (s.sec.store.get k).ceiling.toNat →
        Touches (exec (.keyup sfd edges) s) (fun t => { s with rad := t.rad, macx := t.macx, sec := t.sec }) fun t =>
            ∃ psdu : List Byte, t.macx.sent = onAir s.macx.chan psdu (s.captureLess (edges + 1) sfd (s.otp 0x2C)) :: s.macx.sent ∧
              psdu.length = 48 ∧ (t.slot k).fcnt = x.fcnt + 1 ∧
              t.rad.charged (s.macx.chan % 64) = s.rad.charged (s.macx.chan % 64) + s.rad.onTime 48 ∧
              t.macx.serving = .nothing ∧ t.macx.lbtOk = false ∧ t.rad.state = .idle ∧ t.eng.evpend.getLsbD 2 = true)) ∧
    (∀ (a : AckDue) (sfd : Ring) (edges : Nat), s.macx.ack = some a → s.sys.runRad = true →
      let at_ := s.captureLess (edges + 1) sfd (s.otp 0x2C)
      (s.rad.ctl.getLsbD 0 = false ∨ s.lnk.valid = false ∨ s.lnk.head = false →
        Touches (exec (.ackTransmit sfd edges) s) (fun t => { s with
          rad := t.rad, macx := { s.macx with ack := none, sfdAt := at_ } }) fun t => t.rad.state = .idle) ∧
      (s.rad.ctl.getLsbD 0 = true → s.lnk.valid = true → s.lnk.head = true →
        s.dwellCheck a.chan (s.rad.onTime 12) = none →
        Touches (exec (.ackTransmit sfd edges) s) (fun t => { s with rad := t.rad, macx := { s.macx with
          ack := none, sfdAt := at_,
          sent := onAir a.chan ((withFcs (fcOf 1 a.cnt.toNat false (if a.again then 0x200 else 0) ++ [a.lseq.toNat] ++
            le16 a.ldst.toNat ++ le16 s.mac.saddr.toNat ++ [a.rssi.toNat])).map (BitVec.ofNat 8)) at_ :: s.macx.sent } }) fun t =>
              t.rad.state = .idle ∧ t.eng.evpend.getLsbD 2 = true ∧
              t.rad.charged (a.chan % 64) = s.rad.charged (a.chan % 64) + s.rad.onTime 12)) ∧
    (∀ a : Attempt, s.macx.attempt = some a →
      Touches (exec .ackTimeout s) (fun t => { s with
        rad := t.rad, mem := t.mem, mac := t.mac, macx := t.macx, fresh := t.fresh }) fun t =>
          t.macx.attempt = none ∧ t.macx.serving = .nothing ∧ t.rad.state = radio .idle ∧ t.eng.evpend.getLsbD 2 = true ∧
          t.macx.be = (if a.type = 5 then min 5 (s.macx.be + 1) else s.macx.be) ∧
          ((s.link a.link).parent = true → (s.link a.link).state = .active →
            (t.link a.link).miss = BitVec.ofNat 3 (min 7 ((s.link a.link).miss.toNat + 1)) ∧
            (s.mac.missLim ≤ min 7 ((s.link a.link).miss.toNat + 1) →
              (t.link a.link).state = .resync ∧ t.mac.resyncev = true))) ∧
    (s.macx.serving.receives = true → s.rad.state = .receive →
      Touches (exec .rxWindowTimeout s) (fun t => { s with
        rad := t.rad, mac := t.mac, macx := { s.macx with serving := .nothing } }) fun t =>
          t.rad.state = radio .idle ∧
          (s.macx.serving ≠ .rxBeacon → t.mac = s.mac) ∧
          (∀ l : Fin 16, s.macx.serving = .rxBeacon → s.mac.parentLink = some l → (s.link l).state = .active →
            (t.link l).miss = BitVec.ofNat 3 (min 7 ((s.link l).miss.toNat + 1))))

/--
A boundary while the MAC runs always answers, pends its event, takes the active MAC_CTL, clears the route error and swaps an
armed domain's cell and channel pages; where no supervision expires it ages every link that is not OFF and every neighbour,
clears the superframe latches and changes nothing else, stated for a node that is no root and has no SYNC. The end of a scan
cycle moves to the next of three channels and pauses or goes on by the gap; the resume starts the islands it needs and
listens again. MAC_ASN_LO gives the low word of the slot clock's ASN, or 0 without superframes, and latches the high one.
(R394, R395, R402, R417, R331, R420, R127)
-/
def Obligations.SuperframesAndScansRun : Prop :=
  ∀ s : State, s.powered = true →
    let radio (x : RadState) : RadState := if s.sys.runRad = true then x else .off
    (s.macRuns = true → ∃ t : State, exec .superframeBoundary s = .next t ∧
      t.eng.evpend.getLsbD 0 = true ∧ t.mac.ctlAct = s.mac.ctl ∧ t.macx.routeErr = false ∧
      (s.armed.getLsbD 0 = true → t.mac.cellAct = s.mac.cellSh ∧ t.mac.mapAct = s.mac.mapSh ∧ t.armed.getLsbD 0 = false) ∧
      (s.armed.getLsbD 0 = false → t.mac.cellAct = s.mac.cellAct ∧ t.mac.mapAct = s.mac.mapAct)) ∧
    (s.macRuns = true → s.mac.mode ≠ 2 → s.tmp.sync = false →
      (∀ l : Fin 16, (s.link l).state ≠ .off → (s.link l).supage.toNat + 1 < s.mac.supv.toNat) →
      Touches (exec .superframeBoundary s) (fun t => { s with
        sys := t.sys, drv := t.drv, flw := t.flw, rad := t.rad, armed := t.armed, mac := t.mac,
        macx := { s.macx with routeErr := false }, prs := t.prs }) fun t =>
          t.eng.evpend.getLsbD 0 = true ∧ t.mac.ctlAct = s.mac.ctl ∧
          (s.armed.getLsbD 0 = true → t.mac.cellAct = s.mac.cellSh ∧ t.mac.mapAct = s.mac.mapSh ∧
            t.armed = s.armed &&& ~~~1#9) ∧
          (s.armed.getLsbD 0 = false → t.mac.cellAct = s.mac.cellAct ∧ t.mac.mapAct = s.mac.mapAct ∧ t.armed = s.armed) ∧
          (∀ l : Fin 16, t.link l = if (s.link l).state = .off then s.link l else { s.link l with
            supage := BitVec.ofNat 8 (min 255 ((s.link l).supage.toNat + 1)), quiet := (s.link l).quiet + 1 }) ∧
          (∀ n : BitVec 5, t.neigh n = { s.neigh n with age := BitVec.ofNat 8 (min 255 ((s.neigh n).age.toNat + 1)) }) ∧
          (∀ c : Fin 8, t.prs.cmp.get c =
            let x := s.prs.cmp.get c
            if x.cfg.extractLsb' 28 2 = 1 ∧ x.recent = false then { x with latch := false } else x)) ∧
    (s.scanning = true →
      let c := (s.macx.scanChan + 1) % 3
      (s.macx.scanPause = false →
        Touches (exec .scanCycleEnd s) (fun _ => { s with
          rad := { s.rad with state := radio (if s.mac.scanGap = 0 then .receive else .idle) },
          mac := { s.mac with scandone := true },
          macx := { s.macx with scanChan := c, scanPause := decide (s.mac.scanGap ≠ 0) } }) fun _ => True) ∧
      (s.macx.scanPause = true →
        Touches (exec .scanResume s) (fun t => { s with
          sys := t.sys, drv := t.drv, flw := t.flw, rad := { s.rad with state := if t.sys.runRad = true then .receive else .off },
          macx := { s.macx with scanPause := false } }) fun t =>
            (s.sys.runRad = true ∨ s.sys.xoRun = true → t.sys.runRad = true) ∧
            t.sys = { s.sys with runDmi := t.sys.runDmi, runRad := t.sys.runRad })) ∧
    (∀ (i : Initiator) (rd : Fin 16), s.sys.runRad = true → s.reaches i 0x4000A008 false = true →
      let a := if s.macRuns then s.asnNow else 0
      Got (exec (.asnRead i rd) s) s i 0x4000A008 rd fun u => ({ u with
        tmp := { u.tmp with asnLatch := u.tmp.asnLatch.set (initIdx i) (BitVec.ofNat 8 (a / 2 ^ 32)) } }, BitVec.ofNat 32 a))

/--
MODE OFF from OFF writes nothing else; from a running mode it ends the MAC and swaps an armed domain; NODE and ROOT start
with the slot clock at the current ASN and no cell under way where their conditions hold. LINK_LISTEN, LINK_ACTIVATE,
LINK_OFF and LINK_MAP_PEND act on the link that MAC_TABSEL names, and a write of the shadow cell page or of a route word
stores its entry. That the rows act only when MAC_TABSEL names them is DEDUCED, log entry 55. (R412, R420, R424, R425, R426,
R427, R442)
-/
def Obligations.MacModesAndLinksChange : Prop :=
  ∀ (i : Initiator) (s : State), s.powered = true → s.sys.runRad = true →
    let at_ (c : Instr) (a : Nat) (f : State → State) : Prop := Written (exec c s) s i a fun u => (f u).afterWrite
    let ctl (m : Nat) : Word := putFld s.mac.ctl 0 2 m
    (s.reaches i 0x4000A000 true = true → s.mac.ctl &&& 0xFF0008FC = 0 → s.mac.ctl.extractLsb' 16 4 ≠ 0 →
      s.mac.ctl.extractLsb' 12 4 ≠ 0 → s.mac.ctl.extractLsb' 12 4 &&& 8 = 0 →
      (s.mac.mode = 0 →
        at_ (.macModeOff i) 0x4000A000 fun u => u) ∧
      (s.mac.mode ≠ 0 →
        at_ (.macModeOff i) 0x4000A000 fun u =>
          let v := u.macOff.macSwap
          { v with mac := { v.mac with ctl := ctl 0 } }) ∧
      (s.mac.mode = 0 → s.lnk.valid = true → s.lnk.head = true →
        (s.tmp.src = 0 → at_ (.macModeNode i) 0x4000A000 fun u =>
          ({ u with
            mac := { u.mac with ctl := ctl 1 },
            macx := { u.macx with
              slotAsn := u.asn, routeErr := false, cell := none, active := false, before := false, scanChan := 0,
              scanPause := false } } : State).setRad .receive) ∧
        (s.tmp.src = 2 ∨ s.tmp.src = 3 → s.tmp.sync = true → at_ (.macModeRoot i) 0x4000A000 fun u =>
          ({ u with
            mac := { u.mac with ctl := ctl 2 },
            macx := { u.macx with
              slotAsn := u.asn, routeErr := false, cell := none, active := false, before := false } } :
                State).setRad .idle))) ∧
    (∀ l : Fin 16, s.reaches i 0x4000A030 true = true → s.mac.tabsel = BitVec.ofNat 32 (0x20000000 + 6 * l.val) →
      (s.link l).inc ≠ 0 →
      let x := s.link l
      (x.state = .off → s.mac.mode = 1 → s.mac.parentLink = none → (s.neigh x.neigh).depth ≠ 8 →
        at_ (.linkListen i l) 0x4000A030 fun u =>
          let v := u.modLink l fun _ => { x with parent := true, state := .listen, supage := 0 }
          if s.tmp.disc = .freeRun then v.setRad .receive
          else
            let w := v.setRad .idle
            { w with macx := { w.macx with slotAsn := s.asn } }) ∧
      (x.state = .off ∨ x.state = .listen → s.macRuns = true →
        at_ (.linkActivate i l) 0x4000A030 fun u => u.modLink l fun _ => { x with
          state := .active, miss := 0, quiet := 0, supage := if x.state = .off then 0 else x.supage }) ∧
      (x.state = .off → at_ (.linkOff i l) 0x4000A030 fun u => u) ∧
      (x.state ≠ .off → at_ (.linkOff i l) 0x4000A030 fun u =>
        let v := u.linkOff l
        if v.scanning = true then v.scanFrom v.macx.scanChan else v) ∧
      at_ (.linkMapPend i l) 0x4000A030 fun u => u.modLink l fun _ => { x with pend := true }) ∧
    (∀ v : Word, s.reaches i 0x4000A030 true = true →
      (∀ k : Fin 64, s.mac.tabsel = BitVec.ofNat 32 (0x10000000 + k.val) → s.armed.getLsbD 0 = false → cellOk v = true →
        at_ (.macTableWrite i v) 0x4000A030 fun u => { u with mac := { u.mac with cellSh := u.mac.cellSh.set k v } }) ∧
      (∀ e : Fin 64, s.mac.tabsel = BitVec.ofNat 32 (0x40000000 + 2 * e.val) → v &&& 0x7E00FC00 = 0 →
        (v.extractLsb' 16 4).toNat ≤ 10 → (v.extractLsb' 0 10).toNat % 2 ^ (10 - (v.extractLsb' 16 4).toNat) = 0 →
        at_ (.macTableWrite i v) 0x4000A030 fun u =>
          let r : Route := { u.mac.routes.get e with
            valid := v.getLsbD 31, neigh := v.extractLsb' 20 5, plen := v.extractLsb' 16 4, base := v.extractLsb' 0 10,
            age := if v.getLsbD 31 = true then 0 else (u.mac.routes.get e).age }
          { u with mac := { u.mac with routes := u.mac.routes.set e r } }))

/--
UNWRAP answers 5 in RETIRED, 1 during a commit, 4 for slot 0, 2 for a valid slot, 3 on a failed unwrap, and otherwise
installs the unwrapped key with its generation and a fresh counter, the last two stated where no word of the buffer has an
error; ERASE and BIND answer likewise and change the slot, and BIND clears the neighbour's link window. Each success starts
a commit; its end writes the image or sets KSFAIL with its event, and continues with a commit that waits. An entropy failure
clears ENTOK, and SEC_TRNG answers an open value, log entry 4. Every register, flag and byte of memory that this does not
name is as it was, up to what counting notes. (R465, R467, R469, R470, R482, R483)
-/
def Obligations.KeySlotsAndStoreFollowTheirRules : Prop :=
  (∀ (i : Initiator) (s : State), s.powered = true → s.sec.stok = true → (i = .debug → s.lifecycle ≠ 2) →
    let asks (c : Instr) (f : Sec → Sec) (g : State → State) : Prop :=
      s.reaches i 0x4000B008 true = true →
        Written (exec c s) s i 0x4000B008 fun u => (g { u with sec := f u.sec }).afterWrite
    let commits (x : Sec) : Sec :=
      if x.commit then { x with kstat := 0, commitNext := true }
      else { x with kstat := 0, commit := true, image := x.slots }
    let fails (k : Fin 16) (n : BitVec 5) (b : BitVec 15) (e : BitVec 3) (x : Sec) : Sec :=
      { x with selSlot := k, selNeigh := n, selBuf := b, kstat := e }
    let clean (a n : Nat) : Prop := ∀ e ∈ s.mem.ecc, e.1 + 8 ≤ a ∨ a + n ≤ e.1
    let freed := s.lifecycle ≠ 3 ∧ s.sec.commit = false ∧ s.sec.commitNext = false
    (∀ (k : Fin 16) (b : BitVec 15), b.toNat ≤ 24572 →
      (s.lifecycle = 3 → asks (.unwrap i k b) (fails k s.sec.selNeigh b 5) id) ∧
      (s.lifecycle ≠ 3 → s.sec.commit = true ∨ s.sec.commitNext = true →
        asks (.unwrap i k b) (fails k s.sec.selNeigh b 1) id) ∧
      (freed → k = 0 → asks (.unwrap i k b) (fails k s.sec.selNeigh b 4) id) ∧
      (freed → k ≠ 0 → (s.slot k).valid = true → asks (.unwrap i k b) (fails k s.sec.selNeigh b 2) id) ∧
      (freed → 3 ≤ k.val → (s.slot k).valid = false → (s.slot 0).valid = true → clean (0x20000000 + 8 * b.toNat) 32 →
        let l := (s.byteList (0x20000000 + 8 * b.toNat) 32).map BitVec.toNat
        (kwUnwrap (bytesBE (s.slot 0).key.toNat 16) (l.take 24) = none →
          asks (.unwrap i k b) (fails k s.sec.selNeigh b 3) id) ∧
        (∀ key : List Nat, kwUnwrap (bytesBE (s.slot 0).key.toNat 16) (l.take 24) = some key →
          asks (.unwrap i k b) (fun x => commits { x with
            selSlot := k, selBuf := b,
            slots := x.slots.set k {
              valid := true, key := BitVec.ofNat 128 (ofBE key), gen := BitVec.ofNat 16 (ofLE ((l.drop 24).take 2)),
              bound := none, fcnt := 0, ceiling := 4096 } }) id))) ∧
    (∀ k : Fin 16, freed → s.sec.selBuf.toNat ≤ 24572 →
      (k = 0 ∨ k = (if s.sec.nettx then 2 else 1) →
        asks (.erase i k) (fails k s.sec.selNeigh s.sec.selBuf 4) id) ∧
      (k ≠ 0 → k ≠ (if s.sec.nettx then 2 else 1) →
        ((s.slot k).valid = false → asks (.erase i k) (fails k s.sec.selNeigh s.sec.selBuf 6) id) ∧
        ((s.slot k).valid = true →
          asks (.erase i k) (fun x => commits { x with selSlot := k, slots := x.slots.set k KeySlot.empty }) id))) ∧
    (∀ (k : Fin 16) (n : BitVec 5), freed → s.sec.selBuf.toNat ≤ 24572 →
      (k.val < 3 → asks (.bind i k n) (fails k n s.sec.selBuf 4) id) ∧
      (3 ≤ k.val → (s.slot k).valid = false → asks (.bind i k n) (fails k n s.sec.selBuf 6) id) ∧
      (3 ≤ k.val → (s.slot k).valid = true →
        asks (.bind i k n)
          (fun x => commits { x with
            selSlot := k, selNeigh := n, slots := x.slots.set k { x.slots.get k with bound := some n } })
          fun u => { u with
            mac := { u.mac with neighs := u.mac.neighs.set n.toFin { u.mac.neighs.get n.toFin with lhigh := 0, lwin := 0 } } }))) ∧
  (∀ s : State, s.powered = true →
    let after (x : Sec) : Sec :=
      if x.commitNext then { x with commitNext := false, image := x.slots } else { x with commit := false }
    (s.sec.commit = true →
      exec (.keystoreCommitDone true) s = .next { s with sec := after { s.sec with store := s.sec.image } } ∧
      Touches (exec (.keystoreCommitDone false) s) (fun _ => { s with sec := after { s.sec with ksfail := true } }) fun t =>
        t.eng.evpend.getLsbD 14 = true) ∧
    (s.sec.entok = true → exec .entropyFailure s = .next { s with sec := { s.sec with entok := false } }) ∧
    (∀ (i : Initiator) (rd : Fin 16), s.sec.entok = true → s.reaches i 0x4000B01C false = true →
      Got (exec (.trngRead i rd) s) s i 0x4000B01C rd fun u => ({ u with fresh := u.fresh + 1 }, Config.entropy u.fresh)))

/--
At the service's address, at S privilege with STOK set, with no interrupt due, an aligned w14 and operands without memory
errors, SHA256 writes the digest of the bytes to SRAM; ECDSA_VERIFY answers 0, 1 or 2 by the signature and the point;
ECDH_GEN draws an ephemeral private key below the order or answers 3 without entropy; ECDH_SLOT answers 5, 1, 4 or 2 for a
lifecycle, a commit or a slot that does not allow it, and otherwise derives and installs the key and starts a commit. Each
returns to w14 with w8 to w15 and the other shuttles unchanged. The standards are PRESUMED, log entries 21 and 22. (R482,
R487, R488, R470)
-/
def Obligations.RomServicesAnswer : Prop :=
  ∀ (k : Fin 4) (s : State), s.powered = true → s.coreRuns = true → (s.sh k).en = true → (s.sh k).run = .ready →
    s.user k = false → s.sec.stok = true → s.irq k = none → (s.reg k 14).toNat % 4 = 0 →
    let clean (a n : Nat) : Prop := ∀ e ∈ s.mem.ecc, e.1 + 8 ≤ a ∨ a + n ≤ e.1
    let at_ (a : Word) : Prop := (s.sh k).pc = a
    let w (n : Fin 16) : Nat := (s.reg k n).toNat
    let bytes (a n : Nat) : List Nat := (s.byteList a n).map BitVec.toNat
    let num (a : Nat) : Nat := ofBE (bytes a 32)
    let point (a : Nat) : Nat × Nat := (num a, num (a + 32))
    let ends (c : Instr) (r : Word) (sec : State → Prop) : Prop :=
      ∃ t : State, exec c s = .next t ∧ t.reg k 1 = r ∧ (t.sh k).pc = s.reg k 14 ∧ (t.sh k).run = .ready ∧
        (∀ n : Fin 16, 8 ≤ n.val → t.reg k n = s.reg k n) ∧ (∀ j : Fin 4, j ≠ k → t.sh j = s.sh j) ∧ sec t
    (at_ 0x100 → inSram (w 3) = true → inSram (w 3 + 31) = true → Memory.wf s.mem = true → clean (w 1) (w 2) →
      ends (.sha256 k) 0 fun t => (t.byteList (w 3) 32).map BitVec.toNat = sha256 (bytes (w 1) (w 2)) ∧ t.sec = s.sec) ∧
    (at_ 0x108 → clean (w 1) 32 → clean (w 2) 64 → clean (w 3) 64 →
      let q := point (w 2)
      ends (.ecdsaVerify k)
        (if onCurve q = false then 2
         else if ecdsaOk (num (w 1)) q (num (w 3)) (num (w 3 + 32)) = true then 0 else 1) fun t => t.mem = s.mem ∧ t.sec = s.sec) ∧
    (at_ 0x110 →
      (s.sec.entok = false → ends (.ecdhGen k) 3 fun t => t.secx.ephemeral = none ∧ t.mem = s.mem) ∧
      (s.sec.entok = true → ends (.ecdhGen k) 0 fun t => ∃ d : Nat, 1 ≤ d ∧ d < n256 ∧ t.secx.ephemeral = some d)) ∧
    (at_ 0x118 →
      let n : BitVec 5 := BitVec.ofNat 5 (w 3)
      let gone (t : State) : Prop := t.secx.ephemeral = none ∧ t.mem = s.mem
      (s.lifecycle = 3 → ends (.ecdhSlot k) 5 fun t => gone t ∧ t.sec = s.sec) ∧
      (s.lifecycle ≠ 3 → s.sec.commit = true ∨ s.sec.commitNext = true → ends (.ecdhSlot k) 1 fun t => gone t ∧ t.sec = s.sec) ∧
      (s.lifecycle ≠ 3 → s.sec.commit = false → s.sec.commitNext = false →
        (w 2 < 3 ∨ 16 ≤ w 2 → ends (.ecdhSlot k) 4 fun t => gone t ∧ t.sec = s.sec) ∧
        (∀ m : Fin 16, m.val = w 2 → 3 ≤ m.val →
          ((s.slot m).valid = true → ends (.ecdhSlot k) 2 fun t => gone t ∧ t.sec = s.sec) ∧
          (∀ (d : Nat) (z : Nat × Nat), (s.slot m).valid = false → s.secx.ephemeral = some d → onCurve (point (w 1)) = true →
            clean (w 1) 64 → ecMul 256 d (some (point (w 1))) none = some z →
            let pe := (s.mac.neighs.get n.toFin).eui.toNat
            let key := (sha256 (bytesBE z.1 32 ++ bytesLE (min s.eui pe) 8 ++ bytesLE (max s.eui pe) 8)).take 16
            ends (.ecdhSlot k) 0 fun t => gone t ∧ t.sec.commit = true ∧ t.slot m =
              { valid := true, key := BitVec.ofNat 128 (ofBE key), gen := 0, bound := some n, fcnt := 0, ceiling := 4096 }))))

/--
A lifecycle transition by the rules, DBGLOCK, or a rollback level in range starts its burn and leaves the writer BUSY; the
burn's end ORs its bits into the fuse word, and a retirement clears every key slot and stores them. OTP_PROGRAM of a listed
word that reads 0, in MANUFACTURE or for test words in PROVISIONED, writes it, and one that reads otherwise changes nothing.
Every register, flag and byte of memory that this does not name is as it was, up to what counting notes. (R461, R464, R481,
R484, R485)
-/
def Obligations.LifecycleAndRollbackBurn : Prop :=
  ∀ s : State, s.powered = true →
    let provisioned := s.eui ≠ 0 ∧ s.bytes 0x40100100 16 ≠ 0 ∧ s.bytes 0x40100040 32 ≠ 0 ∧ (s.otp 0x08).getLsbD 31 = true
    let burns (c : Instr) (i : Initiator) (b : Burn) : Prop :=
      ∃ (t : State) (n : Noted), exec c s = .next t ∧ t.secx = { s.secx with burn := some b } ∧
        t.mem = s.mem ∧ t.sec = s.sec ∧
        match i with
        | .shuttle k => (t.sh k).run = .busy ∧ (t.sh k).busyOn = some (.burn false) ∧ (t.sh k).pc = (s.sh k).pc
        | _ => t = ({ s with
            secx := t.secx, sys := t.sys, drv := t.drv, flw := t.flw, rad := t.rad } : State).noted n
    (∀ i : Initiator, s.reaches i 0x4000000C true = true → s.secx.burn = none →
      (s.lifecycle = 0 → provisioned → burns (.lifecycleTransition i 1) i { init := i, bits := 1, retire := false }) ∧
      (s.lifecycle = 1 → burns (.lifecycleTransition i 2) i { init := i, bits := 2, retire := false }) ∧
      (s.lifecycle = 1 ∨ s.lifecycle = 2 → burns (.lifecycleTransition i 3) i { init := i, bits := 4, retire := true }) ∧
      (s.lifecycle = 1 ∨ s.lifecycle = 2 → s.dbgLock = false →
        burns (.dbglock i) i { init := i, bits := 0x100, retire := false })) ∧
    (∀ (i : Initiator) (n : BitVec 6), s.reaches i 0x4000B014 true = true → s.secx.rollback = none → s.lifecycle ≠ 3 →
      n.toNat ≤ 32 → s.levels < n.toNat → n.toNat ≤ s.sec.bootLevel.toNat →
      ∃ t : State, exec (.rollbackBurn i n) s = .next t ∧ t.secx = { s.secx with rollback := some (n.toNat, i) } ∧
        t.mem = s.mem ∧ t.sec = s.sec ∧
        ∀ k : Fin 4, i = .shuttle k → (t.sh k).run = .busy ∧ (t.sh k).busyOn = some (.burn true) ∧ (t.sh k).pc = (s.sh k).pc) ∧
    (∀ b : Burn, s.secx.burn = some b → Memory.wf s.mem = true → (∀ k : Fin 4, (s.sh k).busyOn ≠ some (.burn false)) →
      ∃ t : State, exec .fuseBurnDone s = .next t ∧ t = { s with mem := t.mem, sec := t.sec, secx := { s.secx with burn := none } } ∧
        t.lcfuse = s.lcfuse ||| b.bits.toNat ∧
        (b.retire = false → t.sec = s.sec) ∧
        (b.retire = true → (∀ k : Fin 16, t.slot k = KeySlot.empty) ∧ t.sec.commit = false ∧ t.sec.store = t.sec.slots)) ∧
    (∀ (n : Nat) (i : Initiator), s.secx.rollback = some (n, i) → n ≤ 32 → Memory.wf s.mem = true →
      (∀ k : Fin 4, (s.sh k).busyOn ≠ some (.burn true)) →
      ∃ t : State, exec .rollbackBurnDone s = .next t ∧ t = { s with mem := t.mem, secx := { s.secx with rollback := none } } ∧
        t.otp 0x80 = s.otp 0x80 ||| BitVec.ofNat 32 (2 ^ n - 1)) ∧
    (∀ (off : Nat) (v : Word), off % 4 = 0 →
      let listed := off < 0x1C ∨ (0x20 ≤ off ∧ off < 0x80) ∨ (0x100 ≤ off ∧ off < 0x110)
      let test := (0x14 ≤ off ∧ off < 0x1C) ∨ (0x60 ≤ off ∧ off < 0x80)
      listed → (s.lifecycle = 0 ∨ (s.lifecycle = 1 ∧ test)) →
      (s.otp off ≠ 0 → exec (.otpProgram off v) s = .next s) ∧
      (s.otp off = 0 → Memory.wf s.mem = true → ∃ t : State, exec (.otpProgram off v) s = .next t ∧
        t = { s with mem := t.mem } ∧ t.otp off = v))

/--
A debug challenge draws eight words (open values, log entry 4), which are read in turn; the response is collected word by
word after the reading, and a word too early counts a failure and ends the exchange; verification opens the port with its
scope when the hash and the signature of the challenge, the EUI and the scope match, and counts a failure otherwise, the
fourth refusing. The port halts a READY or waiting shuttle and resumes one where the lock and the scope allow it, and
restarts a stopped core clock. (R487, R116, R482)
-/
def Obligations.DebugAuthenticates : Prop :=
  ∀ s : State, s.powered = true →
    let port (t : State) : State := { t with sys := { t.sys with dbgCause := 0 } }
    let idle (u : State) (n : Nat) : State := { u with
      sec := { u.sec with dbgst := if 4 ≤ n then .refused else .idle },
      secx := { u.secx with failures := n, challenge := [], chalPos := 0, response := [] } }
    let runs (u : State) : State := u.newCycle.afterWrite
    (∀ v : BitVec 16, s.sec.dbgst = .idle → v.toNat < 16 → s.sec.entok = true →
      exec (.debugChallenge v) s = .next (port (runs { s with
        fresh := s.fresh + 8,
        sec := { s.sec with dbgst := .chal },
        secx := { s.secx with
          challenge := (List.range 8).map fun k => Config.entropy (s.fresh + k), chalPos := 0, response := [],
          scopeReq := v } }))) ∧
    (s.sec.dbgst = .chal → s.secx.chalPos < 8 →
      exec .debugChallengeRead s = .next { s.newCycle with
        secx := { s.secx with chalPos := s.secx.chalPos + 1 },
        sys := { s.sys with dbgData := nth 0 s.secx.challenge s.secx.chalPos, dbgCause := 0 } }) ∧
    (∀ v : Word,
      (s.sec.dbgst = .chal → s.secx.chalPos = 8 →
        exec (.debugResponseWord v) s = .next (port (runs { s with
          sec := { s.sec with dbgst := if s.secx.response.length = 31 then .verify else .chal },
          secx := { s.secx with response := s.secx.response ++ [v] } }))) ∧
      (s.sec.dbgst = .chal → s.secx.chalPos ≠ 8 →
        exec (.debugResponseWord v) s = .next (port (runs (idle s (s.secx.failures + 1)))))) ∧
    (s.sec.dbgst = .verify → s.sec.stok = true →
      let r := s.secx.response.flatMap fun w => bytesBE w.toNat 4
      let n (i : Nat) : Nat := ofBE ((r.drop (32 * i)).take 32)
      let hash := sha256 ((s.secx.challenge.flatMap fun w => bytesLE w.toNat 4) ++
        (s.byteList 0x40100000 8).map BitVec.toNat ++ bytesLE (0xD0C00000 + s.secx.scopeReq.toNat) 4)
      let ok := sha256 (r.take 64) = (s.byteList 0x40100060 32).map BitVec.toNat ∧
        ecdsaOk (ofBE hash) (n 0, n 1) (n 2) (n 3) = true
      (ok → exec .debugVerify s = .next { s with
        sec := { s.sec with dbgst := .idle, dbgOpen := true, scope := BitVec.ofNat 4 s.secx.scopeReq.toNat },
        secx := { s.secx with challenge := [], chalPos := 0, response := [] } }) ∧
      (¬ ok → exec .debugVerify s = .next (idle s (s.secx.failures + 1)))) ∧
    (∀ k : Fin 4,
      s.lifecycle ≠ 2 ∨ s.dbgLock = false ∨ (s.sec.dbgOpen = true ∧ s.sec.scope.getLsbD 0 = true) →
      let src := if s.eng.stopped = true ∧ s.srcReady s.sys.curSrc = false then s.fallSrc else s.sys.curSrc
      let u : State := { s with eng := { s.eng with stopped := false }, sys := { s.sys with curSrc := src } }
      ((s.sh k).run = .ready ∨ (s.sh k).run = .wait →
        exec (.debugHalt k) s = .next (u.modSh k fun x => { x with run := .debug })) ∧
      ((s.sh k).run = .debug ∨ (s.sh k).run = .halted →
        exec (.debugResume k) s = .next (u.modSh k fun x => { x with run := .ready })))

/--
GATHER_TRANSFER adds each gather register of an island to its counter and clears it (stated where no counter wraps),
PRF_FREEZE sets FROZEN, and a write of PRF_SEL with two codes of the catalogue stores them after transferring a changed
gathered counter. The gather of an island is DEDUCED, log entry 30. Every register, flag and byte of memory that this does
not name is as it was, up to what counting notes. (R493, R495, R496, R497, R499)
-/
def Obligations.CountersGatherAndFreeze : Prop :=
  ∀ s : State, s.powered = true →
    (∀ isl : GatherIsland,
      let from_ (n : Fin 8) : Prop := gatherOf (s.prf.selOf n % 256) = some isl
      ((∀ n : Fin 8, from_ n → (s.prf.cnt.get n).toNat + s.prf.gather.get n < 2 ^ 32) →
        exec (.gatherTransfer isl) s = .next { s with prf := { s.prf with
          cnt := Vector.ofFn fun n =>
            if from_ n then BitVec.ofNat 32 ((s.prf.cnt.get n).toNat + s.prf.gather.get n) else s.prf.cnt.get n,
          gather := Vector.ofFn fun n => if from_ n then 0 else s.prf.gather.get n } })) ∧
    (∀ (i : Initiator) (b : Bool), s.reaches i 0x4000C000 true = true →
      Written (exec (.prfFreeze i b) s) s i 0x4000C000 fun u =>
        ({ u with prf := { u.prf with frozen := b } } : State).afterWrite) ∧
    (∀ (i : Initiator) (m : Fin 4) (v : Word), s.reaches i (0x4000C030 + 4 * m.val) true = true →
      let ok (h : BitVec 16) : Prop :=
        let e := (h.extractLsb' 0 8).toNat
        (e ≤ 0x0C ∨ (0x10 ≤ e ∧ e ≤ 0x13) ∨ (0x20 ≤ e ∧ e ≤ 0x25) ∨ (0x30 ≤ e ∧ e ≤ 0x34) ∨ (0x38 ≤ e ∧ e ≤ 0x3B) ∨
          (0x40 ≤ e ∧ e ≤ 0x43)) ∧ h.getLsbD 8 = false ∧ h.extractLsb' 10 2 ≠ 3
      ok (v.extractLsb' 0 16) → ok (v.extractLsb' 16 16) →
      Written (exec (.prfSelectWrite i m v) s) s i (0x4000C030 + 4 * m.val) fun u =>
        let lo : Fin 8 := ⟨2 * m.val, by omega⟩
        let hi : Fin 8 := ⟨2 * m.val + 1, by omega⟩
        let a := if (v.extractLsb' 0 16).toNat = u.prf.selOf lo then u else u.transfer lo
        let b := if (v.extractLsb' 16 16).toNat = a.prf.selOf hi then a else a.transfer hi
        ({ b with prf := { b.prf with sel := b.prf.sel.set m v } } : State).afterWrite)

/--
The strap sample makes a chip the head or a member; a chip with a position answers an enumeration request and one without
forwards it; an answer gives the position and tells the reset cause or sets REFUSED; a hardware message is taken by a head
with an empty mailbox, forwarded by others, and the front of the waiting messages goes on when it is its own; the probe sets
COUNT. Every frame with a bad CRC adds one to CRCERR and passes the turn on. An end sends only in its turn, one frame in
each: the waiting frame of the lowest rank, TIME before remote accesses and answers, these before enumeration and hardware
messages, these before messages; a frame that comes ends the other end's turn, and an end with nothing to send keeps its
turn for what comes. The order within one rank is the order of waiting, DEDUCED, log entry 60. (R504, R507, R508, R509,
R511, R516)
-/
def Obligations.ChainEnumeratesItsMembers : Prop :=
  (∀ s : State, s.powered = true →
    let leaves (c : Instr) (l : Lnk) : Prop := exec c s = .next { s with lnk := l }
    let got (d : LinkDir) (f : Lnk → Lnk) : Lnk := (f (s.lnk.setTurn d false)).answers d
    let drops (c : Instr) (d : LinkDir) : Prop :=
      leaves c (got d fun l => { l with crcerr := BitVec.ofNat 8 (min 255 (s.lnk.crcerr.toNat + 1)) })
    (s.lnk.sampled = false →
      leaves (.chainStrapSample true)
        { s.lnk with sampled := true, valid := true, head := true, pos := 0, count := 1, linkup := true } ∧
      leaves (.chainStrapSample false) { s.lnk with sampled := true }) ∧
    (s.lnk.valid = true →
      leaves (.enumReq true) (got .down fun l => l.send .down 2 (s.lnk.pos + 1) [if s.lnk.pos.toNat < 31 then 1 else 0])) ∧
    (s.lnk.valid = false → s.lnk.sampled = true → s.lnk.refused = false →
      leaves (.enumReq true) (got .down fun l => l.send .up 1 0 []) ∧
      (∀ pos : BitVec 5,
        leaves (.enumAns true true pos) (got .up fun l =>
          Lnk.serve { l with
            valid := true, pos := pos,
            hwWait := l.hwWait ++ [0x10210000 ||| (s.sys.rstCause.setWidth 32 <<< 24)] } .up) ∧
        leaves (.enumAns true false pos) (got .up fun l => { l with refused := true }))) ∧
    (∀ (pos : BitVec 5) (w : Word), s.lnk.valid = true →
      (s.lnk.head = true → s.lnk.rxbox = [] →
        Touches (exec (.hwmsg true pos w) s)
          (fun _ => { s with lnk := got .down fun l => { l with rxbox := [w], rxsrc := pos, rxhw := true } }) fun t =>
            s.lnk.ctl.getLsbD 0 = true → t.eng.evpend.getLsbD 12 = true) ∧
      (s.lnk.head = true → s.lnk.rxbox ≠ [] → leaves (.hwmsg true pos w) (got .down id)) ∧
      (s.lnk.head = false → pos ≠ s.lnk.pos → leaves (.hwmsg true pos w) (got .down fun l => l.send .up 3 pos [w])) ∧
      (s.lnk.head = false → pos = s.lnk.pos → ∀ r : List Word, s.lnk.hwWait = w :: r →
        leaves (.hwmsg true pos w) (got .down fun l => { l with hwWait := r }))) ∧
    (∀ n : Nat, s.lnk.valid = true → s.lnk.head = true →
      leaves (.chainProbe n) { s.lnk with
        count := BitVec.ofNat 6 (min 32 (n + 1)),
        sent := ((List.range (min 31 (n + 1))).map fun k =>
          { dir := .down, type := 4, pos := BitVec.ofNat 5 (k + 1), payload := [0] }).reverse ++ s.lnk.sent }) ∧
    (∀ (b : Bool) (pos : BitVec 5) (off : BitVec 18) (k : BitVec 4) (w : Word) (ws : List Word) (p : BitVec 64),
      drops (.enumReq false) .down ∧ drops (.enumAns false b pos) .up ∧ drops (.hwmsg false pos w) .down ∧
      drops (.read false pos off) .up ∧ drops (.write false pos off w) .up ∧ drops (.rdata false pos k w) .down ∧
      drops (.wack false pos k) .down ∧ drops (.msg false true pos ws) .down ∧ drops (.msg false false pos ws) .up ∧
      drops (.mack false true pos k) .down ∧ drops (.mack false false pos k) .up ∧ drops (.time false p w) .up)) ∧
  (∀ (l : Lnk) (d : LinkDir),
    let rank (f : LinkFrame) : Nat :=
      if f.type.toNat = 0xA then 0 else if 4 ≤ f.type.toNat ∧ f.type.toNat ≤ 7 then 1 else if f.type.toNat ≤ 3 then 2 else 3
    let waits (l : Lnk) : List LinkFrame :=
      match d with
      | .up => l.upq ++ (l.hwWait.take 1).map fun w => { dir := .up, type := 3, pos := l.pos, payload := [w] }
      | .down => l.downq
    let turn (l : Lnk) : Bool := match d with | .up => l.upTurn | .down => l.downTurn
    let queue (l : Lnk) : List LinkFrame := match d with | .up => l.upq | .down => l.downq
    let keeps (k : Lnk) : Prop := k = { l with
      sent := k.sent, upq := k.upq, downq := k.downq, upTurn := k.upTurn, downTurn := k.downTurn }
    (∀ f : LinkFrame, l.next d = some f → f ∈ waits l ∧ ∀ g ∈ waits l, rank f ≤ rank g) ∧
    (l.next d = none ↔ waits l = []) ∧
    (turn l = false → l.serve d = l) ∧
    (turn l = true → l.next d = none → l.serve d = l) ∧
    (∀ f : LinkFrame, turn l = true → l.next d = some f →
      (l.serve d).sent = f :: l.sent ∧ turn (l.serve d) = false ∧ queue (l.serve d) = (queue l).erase f ∧ keeps (l.serve d)) ∧
    (∀ (ty : Nat) (pos : BitVec 5) (ws : List Word),
      let f : LinkFrame := { dir := d, type := BitVec.ofNat 4 ty, pos := pos, payload := ws }
      (turn l = false → (l.send d ty pos ws).sent = l.sent ∧ queue (l.send d ty pos ws) = queue l ++ [f]) ∧
      (turn l = true → waits l = [] → (l.send d ty pos ws).sent = f :: l.sent ∧ queue (l.send d ty pos ws) = queue l ∧
        turn (l.send d ty pos ws) = false) ∧
      keeps (l.send d ty pos ws)) ∧
    (∀ f : LinkFrame, l.next d = some f →
      (l.answers d).sent = f :: l.sent ∧ turn (l.answers d) = false ∧ queue (l.answers d) = (queue l).erase f ∧
      keeps (l.answers d)) ∧
    (l.next d = none → turn (l.answers d) = true ∧ (l.answers d).sent = l.sent ∧ queue (l.answers d) = queue l ∧
      keeps (l.answers d)))

/--
A member forwards accesses for other positions and performs its own by initiator 5, answering with RDATA or WACK; it
forwards answers up. At the head an answer of the front access completes it for its initiator, the debug port or a shuttle
that takes the data and goes on, and sends the next one waiting; the timeout ends it with cause 0xA, the fault record and
its flag, and in a shuttle exception 0x07. Every register, flag and byte of memory that this does not name is as it was, up
to what counting notes. (R508, R513, R514)
-/
def Obligations.RemoteAccessesRunOneAtATime : Prop :=
  ∀ (pos : BitVec 5) (off : BitVec 18) (w : Word) (k : BitVec 4) (s : State), s.powered = true → s.lnk.valid = true →
    let a := 0x40000000 + 4 * off.toNat
    let turns (d : LinkDir) : Lnk := s.lnk.setTurn d false
    (s.lnk.head = false →
      (pos ≠ s.lnk.pos →
        exec (.read true pos off) s =
          .next { s with lnk := ((turns .up).send .down 4 pos [off.setWidth 32]).answers .up } ∧
        exec (.write true pos off w) s =
          .next { s with lnk := ((turns .up).send .down 5 pos [off.setWidth 32, w]).answers .up }) ∧
      (pos = s.lnk.pos → ∀ (u : State) (r : Resp),
        let v : State := ({ s with lnk := turns .up } : State).newCycle
        (v.busRead .chain a 4 = (u, r) →
          let t := if r.cause = 0 ∨ r.logged then u else u.record 5 false r.cause r.addr
          exec (.read true pos off) s =
            .next { t with lnk := (t.lnk.send .up 6 t.lnk.pos [BitVec.ofNat 32 r.cause, r.val.setWidth 32]).answers .up }) ∧
        (off ≠ 2 ∨ r.cause ≠ 0 → v.busWrite .chain a 4 (w.setWidth 64) = (u, r) →
          let t := if r.cause = 0 ∨ r.logged then u else u.record 5 true r.cause r.addr
          exec (.write true pos off w) s =
            .next { t with lnk := (t.lnk.send .up 7 t.lnk.pos [BitVec.ofNat 32 r.cause]).answers .up })) ∧
      exec (.rdata true pos k w) s =
        .next { s with lnk := ((turns .down).send .up 6 pos [k.setWidth 32, w]).answers .down } ∧
      exec (.wack true pos k) s = .next { s with lnk := ((turns .down).send .up 7 pos [k.setWidth 32]).answers .down }) ∧
    (s.lnk.head = true → ∀ (r : Remote) (rs : List Remote), s.lnk.remotes = r :: rs →
      let onward (l : Lnk) : Lnk :=
        match rs with
        | [] => l
        | x :: _ =>
          let o : Word := (x.addr.extractLsb' 2 18).setWidth 32
          if x.write then l.send .down 5 x.pos [o, x.data] else l.send .down 4 x.pos [o]
      (r.pos = pos → r.init = .debug →
        (r.write = false → exec (.rdata true pos 0 w) s = .next { s with
          lnk := (onward { turns .down with remotes := rs }).answers .down,
          sys := { s.sys with dbgData := w, dbgCause := 0 } }) ∧
        (r.write = true → exec (.wack true pos 0) s = .next { s with
          lnk := (onward { turns .down with remotes := rs }).answers .down,
          sys := { s.sys with dbgData := 0, dbgCause := 0 } })) ∧
      (∀ i : Fin 4, r.init = .shuttle i → (s.sh i).en = true → (s.sh i).restart = false →
        let u : State := { s with lnk := (onward { turns .down with remotes := rs }).answers .down }
        (r.pos = pos →
          (∀ rd : Fin 16, r.write = false → (s.sh i).busyOn = some (.remoteLoad rd) →
            exec (.rdata true pos 0 w) s = .next (u.modSh i fun x => { x.wr rd w with
              run := .ready, busyOn := none, pc := x.pc + 4, freeAt := s.eng.cyc })) ∧
          (r.write = true → (s.sh i).busyOn = some .remoteStore →
            exec (.wack true pos 0) s = .next (u.modSh i fun x => { x with
              run := .ready, busyOn := none, pc := x.pc + 4, freeAt := s.eng.cyc }))) ∧
        ((s.sh i).inexc = false → ∃ t : State, exec .remoteAccessTimeout s = .next t ∧
          t.lnk = { onward { s.lnk with remotes := rs } with tout := true } ∧ t.sys = s.sys.recorded i.val r.write 0xA r.addr ∧
          (t.sh i).cause = 7 ∧ (t.sh i).addr = r.addr ∧ (t.sh i).epc = (s.sh i).pc ∧ (t.sh i).run = .ready ∧
          (s.lnk.ctl.getLsbD 2 = true → t.eng.evpend.getLsbD 12 = true))) ∧
      (r.init = .debug →
        Touches (exec .remoteAccessTimeout s) (fun _ => { s with
          lnk := { onward { s.lnk with remotes := rs } with tout := true },
          sys := { s.sys.recorded 4 r.write 0xA r.addr with dbgData := 0, dbgCause := 0xA } }) fun t =>
            s.lnk.ctl.getLsbD 2 = true → t.eng.evpend.getLsbD 12 = true))

/--
A write of LNK_TXBOX stages one word unless SENDING or the buffer is full, when STFULL sets; SEND sends the staged words to
the destination or reports a bad one; FLUSH empties the buffer unless SENDING. A message for this chip is stored,
acknowledged and signalled, one for another is forwarded, and a full mailbox answers so. An acknowledgement of the
outstanding message, by its destination, sets DONE or REJECTED, and one of another changes nothing; the loss sets LOST.
RXBOX gives the words in turn. Every register, flag and byte of memory that this does not name is as it was, up to what
counting notes. (R515, R516)
-/
def Obligations.MailboxesCarryMessages : Prop :=
  ∀ s : State, s.powered = true →
    let got (d : LinkDir) (f : Lnk → Lnk) : Lnk := (f (s.lnk.setTurn d false)).answers d
    let signals (c : Instr) (l : Lnk) (b : Nat) : Prop :=
      Touches (exec c s) (fun _ => { s with lnk := l }) fun t => s.lnk.ctl.getLsbD b = true → t.eng.evpend.getLsbD 12 = true
    (∀ (i : Initiator) (v : Word), s.reaches i 0x4000D00C true = true →
      Written (exec (.txboxWrite i v) s) s i 0x4000D00C fun u => ({ u with
        lnk :=
          if u.lnk.txst = 1 ∨ 8 ≤ u.lnk.staged.length then { u.lnk with stfull := true }
          else { u.lnk with staged := u.lnk.staged ++ [v] } } : State).afterWrite) ∧
    (∀ i : Initiator, s.reaches i 0x4000D000 true = true → s.lnk.ctl &&& 0xFFFF07F0 = 0 →
      Written (exec (.flush i) s) s i 0x4000D000 (fun u => ({ u with
        lnk := { u.lnk with staged := if u.lnk.txst = 1 then u.lnk.staged else [] } } : State).afterWrite) ∧
      (s.lnk.staged ≠ [] → s.lnk.txst ≠ 1 →
        Written (exec (.send i) s) s i 0x4000D000 fun u => ({ u with
          lnk :=
            let d := u.lnk.ctl.extractLsb' 11 5
            if u.lnk.valid = true ∧ u.lnk.head = true then
              if d = 0 ∨ u.lnk.count.toNat ≤ d.toNat then { u.lnk with txst := 4 }
              else { u.lnk.send .down 8 d u.lnk.staged with txst := 1, txDest := d }
            else if u.lnk.valid = true then { u.lnk.send .up 8 u.lnk.pos u.lnk.staged with txst := 1 }
            else { u.lnk with txst := 1 } } : State).afterWrite)) ∧
    (∀ (up : Bool) (pos : BitVec 5) (ws : List Word), s.lnk.valid = true → ws ≠ [] → ws.length ≤ 8 →
      let d : LinkDir := if up then .down else .up
      let on : LinkDir := if up then .up else .down
      let mine := if s.lnk.head then up = true else up = false ∧ pos = s.lnk.pos
      (mine →
        (s.lnk.rxbox = [] → signals (.msg true up pos ws) (got d fun l => { l.send d 9 pos [0] with
          rxbox := ws, rxsrc := if s.lnk.head then pos else 0, rxhw := false }) 0) ∧
        (s.lnk.rxbox ≠ [] → exec (.msg true up pos ws) s = .next { s with lnk := got d fun l => l.send d 9 pos [1] })) ∧
      (¬ mine → exec (.msg true up pos ws) s =
        .next { s with lnk := got d fun l => if s.lnk.head then l else l.send on 8 pos ws })) ∧
    (∀ (up : Bool) (pos : BitVec 5) (k : BitVec 4), s.lnk.valid = true →
      let d : LinkDir := if up then .down else .up
      let on : LinkDir := if up then .up else .down
      let mine := if s.lnk.head then up = true else up = false ∧ pos = s.lnk.pos
      (mine →
        (s.lnk.txst = 1 → (s.lnk.head = true → pos = s.lnk.txDest) →
          signals (.mack true up pos 0) (got d fun l => { l with txst := 2, staged := [] }) 1 ∧
          signals (.mack true up pos 1) (got d fun l => { l with txst := 3 }) 1) ∧
        (s.lnk.txst ≠ 1 ∨ s.lnk.head = true ∧ pos ≠ s.lnk.txDest →
          exec (.mack true up pos k) s = .next { s with lnk := got d id })) ∧
      (¬ mine → exec (.mack true up pos k) s =
        .next { s with lnk := got d fun l => if s.lnk.head then l else l.send on 9 pos [k.setWidth 32] })) ∧
    (s.lnk.txst = 1 → signals .mailboxLost { s.lnk with txst := 5 } 1) ∧
    (∀ (i : Initiator) (rd : Fin 16), s.reaches i 0x4000D010 false = true →
      Got (exec (.rxboxRead i rd) s) s i 0x4000D010 rd fun u =>
        match u.lnk.rxbox with
        | [] => (u, 0)
        | w :: r => ({ u with lnk := { u.lnk with rxbox := r, rxhw := if r.isEmpty then false else u.lnk.rxhw } }, w))

/--
At a SYNC pulse the head with SYNCEN sends its plant time and quality. A member captures the edge less the delay of its
segment and sets SYNCERR when one still waits, an edge within 1 ms is ignored, and a TIME frame with an edge is a candidate
for the discipline when SRC is CHAIN, while one without sets SYNCERR; the frame goes on down the chain. The pairing timeout
and the link timeout clear their state and set their flags. The delay is an open constant, log entry 4. (R518, R519, R520,
R521, R351, R350)
-/
def Obligations.SharedTimeFollowsTheHead : Prop :=
  ∀ s : State, s.powered = true →
    let signals (c : Instr) (u : State) : Prop :=
      Touches (exec c s) (fun _ => u) fun t => s.lnk.ctl.getLsbD 2 = true → t.eng.evpend.getLsbD 12 = true
    (∀ ph : Ring, s.tmp.counting = true →
      let phase := max s.tmp.phase (s.tmp.captured 1 ph)
      let l := s.tmp.now + BitVec.ofNat 64 phase
      let p := l + s.tmp.offs
      let edge := l - BitVec.ofNat 64 Config.syncDelay
      let soon := ∃ a : BitVec 64, s.tmp.syncAt = some a ∧ (edge - a).toInt < 16000
      (s.lnk.valid = true → s.lnk.head = true → s.lnk.ctl.getLsbD 3 = true →
        exec (.syncPulse ph) s = .next { s with
          tmp := { s.tmp with phase := phase },
          lnk := s.lnk.send .down 0xA 0 [p.extractLsb' 32 32, p.extractLsb' 0 32, s.tmp.qual] }) ∧
      (s.lnk.head = false →
        (soon → exec (.syncEdge ph) s = .next { s with tmp := { s.tmp with phase := phase } }) ∧
        (¬ soon → s.lnk.edge = none → exec (.syncEdge ph) s = .next { s with
          tmp := { s.tmp with phase := phase, syncAt := some edge }, lnk := { s.lnk with edge := some edge } }) ∧
        (¬ soon → s.lnk.edge ≠ none → signals (.syncEdge ph) { s with
          tmp := { s.tmp with phase := phase, syncAt := some edge }, lnk := { s.lnk with edge := some edge, syncerr := true } }))) ∧
    (∀ (plant : BitVec 64) (q : Word), s.lnk.valid = true → s.lnk.head = false →
      let got (f : Lnk → Lnk) : Lnk := Lnk.answers (f { (s.lnk.setTurn .up false).send .down 0xA 0
        [plant.extractLsb' 32 32, plant.extractLsb' 0 32, q] with linkup := true }) .up
      (s.lnk.edge = none → signals (.time true plant q) { s with lnk := got fun l => { l with syncerr := true } }) ∧
      (∀ e : BitVec 64, s.lnk.edge = some e → s.armed.getLsbD 8 = false →
        exec (.time true plant q) s = .next { s with
          lnk := got fun l => { l with edge := none, refAt := e.toNat },
          tmp :=
            if s.tmp.src = 1 ∧ q.getLsbD 31 = true then
              (s.tmp.candidate plant e (q.extractLsb' 24 4).toNat (q.getLsbD 30) (16 * (q.extractLsb' 0 12).toNat)).1
            else s.tmp })) ∧
    (s.lnk.edge ≠ none → signals .syncPairTimeout { s with lnk := { s.lnk with edge := none, syncerr := true } }) ∧
    (s.lnk.linkup = true → s.lnk.head = false →
      signals .linkTimeout { s with lnk := { s.lnk with linkup := false, linkdn := true } })
end

