-- ==== Sys2Proof/Laws/Noted.lean ====
section
/-!
SUPPORT. Counting and events change only the counters, the event latches and the cycle count: each such operation answers
`s.noted n` for some `n`, and every other field reads through `noted`.
-/

namespace Sys2Proof.Machine

variable (s : State) (n m : Noted)

@[simp] theorem noted_sys : (s.noted n).sys = s.sys := rfl
@[simp] theorem noted_mem : (s.noted n).mem = s.mem := rfl
@[simp] theorem noted_armed : (s.noted n).armed = s.armed := rfl
@[simp] theorem noted_nrg : (s.noted n).nrg = s.nrg := rfl
@[simp] theorem noted_nrgx : (s.noted n).nrgx = s.nrgx := rfl
@[simp] theorem noted_drv : (s.noted n).drv = s.drv := rfl
@[simp] theorem noted_flw : (s.noted n).flw = s.flw := rfl
@[simp] theorem noted_prs : (s.noted n).prs = s.prs := rfl
@[simp] theorem noted_tmp : (s.noted n).tmp = s.tmp := rfl
@[simp] theorem noted_rad : (s.noted n).rad = s.rad := rfl
@[simp] theorem noted_mac : (s.noted n).mac = s.mac := rfl
@[simp] theorem noted_macx : (s.noted n).macx = s.macx := rfl
@[simp] theorem noted_sec : (s.noted n).sec = s.sec := rfl
@[simp] theorem noted_secx : (s.noted n).secx = s.secx := rfl
@[simp] theorem noted_lnk : (s.noted n).lnk = s.lnk := rfl
@[simp] theorem noted_fresh : (s.noted n).fresh = s.fresh := rfl
@[simp] theorem noted_pending : (s.noted n).pending = s.pending := rfl
@[simp] theorem noted_prf : (s.noted n).prf = n.prf := rfl
@[simp] theorem noted_evpend : (s.noted n).eng.evpend = n.evpend := rfl
@[simp] theorem noted_cyc : (s.noted n).eng.cyc = n.cyc := rfl
@[simp] theorem noted_same : (s.noted n).eng.same = n.same := rfl
@[simp] theorem noted_issueReq : (s.noted n).eng.issueReq = s.eng.issueReq := rfl
@[simp] theorem noted_issueAct : (s.noted n).eng.issueAct = s.eng.issueAct := rfl
@[simp] theorem noted_issueAt : (s.noted n).eng.issueAt = s.eng.issueAt := rfl
@[simp] theorem noted_flagAt : (s.noted n).eng.flagAt = s.eng.flagAt := rfl
@[simp] theorem noted_crossFree : (s.noted n).eng.crossFree = s.eng.crossFree := rfl
@[simp] theorem noted_evroute : (s.noted n).eng.evroute = s.eng.evroute := rfl
@[simp] theorem noted_vecbase : (s.noted n).eng.vecbase = s.eng.vecbase := rfl
@[simp] theorem noted_mpu : (s.noted n).eng.mpu = s.eng.mpu := rfl
@[simp] theorem noted_mpuctl : (s.noted n).eng.mpuctl = s.eng.mpuctl := rfl
@[simp] theorem noted_stopped : (s.noted n).eng.stopped = s.eng.stopped := rfl

@[simp] theorem noted_sh (i : Fin 4) : (s.noted n).sh i = { s.sh i with wpend := n.wpend i } := by
  simp [State.sh, State.noted]

@[simp] theorem noted_noted : (s.noted n).noted m = s.noted m := by
  simp [State.noted]

/-- The counters, latches and cycle count as they stand. -/
def State.note : Noted :=
  { prf := s.prf, evpend := s.eng.evpend, cyc := s.eng.cyc, same := s.eng.same, wpend := fun k => (s.sh k).wpend }

theorem noted_note : s.noted s.note = s := by
  cases s with
  | _ sys eng =>
    cases eng
    simp only [State.noted, State.note, State.sh]
    congr
    ext k hk
    simp
    rfl

/-- `t` is `s` up to counters and event latches, at the same cycle count. -/
def Quiet (s t : State) : Prop := ∃ n : Noted, n.cyc = s.eng.cyc ∧ t = s.noted n

theorem Quiet.refl (s : State) : Quiet s s := ⟨s.note, rfl, (noted_note s).symm⟩

theorem Quiet.trans {s t u : State} (h : Quiet s t) (k : Quiet t u) : Quiet s u := by
  obtain ⟨n, hn, rfl⟩ := h
  obtain ⟨m, hm, rfl⟩ := k
  exact ⟨m, hm.trans hn, noted_noted s n m⟩

theorem Quiet.cyc {s t : State} (h : Quiet s t) : t.eng.cyc = s.eng.cyc := by
  obtain ⟨n, hn, rfl⟩ := h
  exact hn

theorem quiet_prf (s : State) (p : Prf) : Quiet s { s with prf := p } :=
  ⟨{ s.note with prf := p }, rfl, by
    conv_lhs => rw [← noted_note s]
    rfl⟩

theorem quiet_evpend (s : State) (p : BitVec 16) : Quiet s { s with eng := { s.eng with evpend := p } } :=
  ⟨{ s.note with evpend := p }, rfl, by
    conv_lhs => rw [← noted_note s]
    rfl⟩

theorem quiet_same (s : State) (p : Same) : Quiet s { s with eng := { s.eng with same := p } } :=
  ⟨{ s.note with same := p }, rfl, by
    conv_lhs => rw [← noted_note s]
    rfl⟩

theorem quiet_event (s : State) (p : BitVec 16) (m : Same) : Quiet s { s with eng := { s.eng with evpend := p, same := m } } :=
  ⟨{ s.note with evpend := p, same := m }, rfl, by
    conv_lhs => rw [← noted_note s]
    rfl⟩

/-- Other counters, another cycle count and other occurrences of the cycle, and everything else as it was. -/
theorem noted_counters (s : State) (p : Prf) (c : Nat) (m : Same) :
    ({ s with prf := p, eng := { s.eng with cyc := c, same := m } } : State) = s.noted { s.note with prf := p, cyc := c, same := m } := by
  conv_lhs => rw [← noted_note s]
  rfl

theorem quiet_wpend (s : State) (f : Shuttle → BitVec 16) : Quiet s (s.allSh fun x => { x with wpend := f x }) :=
  ⟨{ s.note with wpend := fun k => f (s.sh k) }, rfl, by
    simp only [State.allSh, State.noted, State.note, State.sh]
    congr⟩

theorem quiet_foldl {α : Type} (f : State → α → State) (h : ∀ s a, Quiet s (f s a)) (l : List α) (s : State) :
    Quiet s (l.foldl f s) := by
  induction l generalizing s with
  | nil => exact Quiet.refl s
  | cons a l ih => exact (h s a).trans (ih _)

theorem quiet_ite {c : Prop} [Decidable c] {s t u : State} (ht : Quiet s t) (hu : Quiet s u) :
    Quiet s (if c then t else u) := by
  split <;> assumption

theorem pendEvent_quiet (s : State) (e : Nat) : Quiet s (s.pendEvent e) :=
  (quiet_wpend s _).trans (quiet_event _ _ _)

theorem sameOvf_quiet (s : State) (b : BitVec 9) : Quiet s (s.sameOvf b) := quiet_same s _

theorem newCycle_quiet (s : State) : Quiet s s.newCycle := quiet_same s _

theorem freeze_quiet (s : State) : Quiet s s.freeze := quiet_prf s _

theorem overflow_quiet (s : State) (n : Fin 8) : Quiet s (s.overflow n) := by
  unfold State.overflow
  refine quiet_ite ?_ ?_
  · refine Quiet.trans ?_ (freeze_quiet _)
    exact ((quiet_prf s _).trans (sameOvf_quiet _ _)).trans (quiet_ite (pendEvent_quiet _ _) (Quiet.refl _))
  · exact ((quiet_prf s _).trans (sameOvf_quiet _ _)).trans (quiet_ite (pendEvent_quiet _ _) (Quiet.refl _))

theorem addCount_quiet (s : State) (n : Fin 8) (k : Nat) : Quiet s (s.addCount n k) := by
  unfold State.addCount
  dsimp only
  split
  · exact quiet_prf s _
  · split
    · refine quiet_ite ?_ ?_
      · exact (quiet_prf s _).trans (quiet_prf _ _)
      · exact ((quiet_prf s _).trans (quiet_prf _ _)).trans (overflow_quiet _ _)
    · exact (quiet_prf s _).trans (overflow_quiet _ _)

theorem transfer_quiet (s : State) (n : Fin 8) : Quiet s (s.transfer n) := by
  unfold State.transfer
  exact quiet_ite (quiet_prf s _) ((quiet_prf s _).trans (addCount_quiet _ _ _))

theorem countIn_quiet (s : State) (ev k : Nat) (n : Fin 8) : Quiet s (s.countIn ev k n) := by
  unfold State.countIn
  split
  · exact addCount_quiet _ _ _
  · exact quiet_ite (quiet_prf s _) ((quiet_prf s _).trans (transfer_quiet _ _))

theorem count_quiet (s : State) (ev : Nat) (sh : Option (Fin 4)) (m : Counted) (k : Nat) :
    Quiet s (s.count ev sh m k) :=
  quiet_foldl _ (fun _ _ => quiet_ite (countIn_quiet _ _ _ _) (Quiet.refl _)) _ _

theorem occur_quiet (s : State) (ev : Nat) : Quiet s (s.occur ev) := count_quiet s ev _ _ _

theorem entered_quiet (s : State) (ev : Nat) (sh : Option (Fin 4)) (a b : Bool) : Quiet s (s.entered ev sh a b) :=
  quiet_ite (count_quiet _ _ _ _ _) (Quiet.refl _)

theorem event_quiet (s : State) (e : Nat) : Quiet s (s.event e) := by
  unfold State.event
  exact quiet_ite ((pendEvent_quiet s e).trans (freeze_quiet _)) (pendEvent_quiet s e)

/-- Cycles that pass: the cycle count advances, and only counters and latches change besides. -/
theorem coreTick_noted (s : State) (k : Nat) : ∃ n : Noted, n.cyc = s.eng.cyc + k ∧ s.coreTick k = s.noted n := by
  have h0 : ∃ n : Noted, n.cyc = s.eng.cyc + k ∧ ({ s with eng := { s.eng with cyc := s.eng.cyc + k } } : State) = s.noted n :=
    ⟨{ s.note with cyc := s.eng.cyc + k }, rfl, by
      conv_lhs => rw [← noted_note s]
      rfl⟩
  obtain ⟨n0, hn0, e0⟩ := h0
  have h1 : Quiet ({ s with eng := { s.eng with cyc := s.eng.cyc + k } } : State) (s.coreTick k) := by
    unfold State.coreTick
    refine Quiet.trans ?_ (quiet_foldl _ (fun s i => ?_) _ _)
    · refine (newCycle_quiet _).trans (quiet_ite ?_ (Quiet.refl _))
      exact quiet_ite (quiet_prf _ _) ((quiet_prf _ _).trans ((quiet_prf _ _).trans (sameOvf_quiet _ _)))
    · have step : ∀ (t : State) (c : Prop) [Decidable c] (ev : Nat),
          Quiet t (if c then t.count ev (some i) .cycles k else t) :=
        fun t c _ ev => quiet_ite (count_quiet _ _ _ _ _) (Quiet.refl _)
      exact (((step s _ _).trans (step _ _ _)).trans (step _ _ _)).trans (step _ _ _)
  obtain ⟨m, hm, e1⟩ := h1
  exact ⟨m, hm, by rw [e1, e0, noted_noted]⟩

theorem idleTick_noted (s : State) (k : Nat) : ∃ n : Noted, n.cyc = s.eng.cyc + k ∧ s.idleTick k = s.noted n := by
  unfold State.idleTick
  split
  · rename_i h
    exact ⟨s.note, by simp [State.note, h], (noted_note s).symm⟩
  · obtain ⟨n, hn, e⟩ := coreTick_noted s k
    obtain ⟨m, hm, e1⟩ := count_quiet (s.coreTick k) 0x02 none .occ k
    refine ⟨m, ?_, by rw [e1, e, noted_noted]⟩
    rw [hm, e, noted_cyc, hn]

/-! ## What counting notes -/

theorem Noted.Counts.note (s : State) : s.note.Counts s :=
  ⟨fun _ _ => rfl, fun _ _ _ => rfl, fun _ _ h => h, fun _ h => h, rfl, fun _ _ => ⟨rfl, rfl, fun _ => rfl, fun _ h => h⟩⟩

theorem get_noted (s : State) (n : Noted) (k : Fin 4) : ((s.noted n).eng.sh.get k).wpend = n.wpend k := by
  have := noted_sh s n k
  unfold State.sh at this
  rw [this]

theorem Noted.Counts.trans {s : State} {n m : Noted} (h : n.Counts s) (k : m.Counts (s.noted n)) : m.Counts s := by
  refine ⟨fun e he => (k.pend e he).trans (h.pend e he), fun i e he => ?_, fun e he x => h.fresh e he (k.fresh e he x),
    fun e x => h.ecc e (k.ecc e x), ?_, fun he hc => ?_⟩
  · rw [k.wait i e he, get_noted, h.wait i e he]
  · have h1 := h.setup
    have h2 := k.setup
    simp only [noted_prf] at h2
    rw [← h1]
    rw [← h2]
  · obtain ⟨h1, h2, h3, h4⟩ := h.still he hc
    obtain ⟨k1, k2, k3, k4⟩ := k.still (by simp [h1, he]) (by simp [h1, hc])
    refine ⟨k1.trans h1, k2.trans h2, fun i => ?_, fun e x => h4 e (k4 e x)⟩
    rw [k3 i, get_noted, h3 i]

/-- What `Counts` says of `s` rests on its latches and counters alone. -/
theorem Noted.Counts.congr {s t : State} {n : Noted} (h : n.Counts s) (hp : t.prf = s.prf) (he : t.eng.evpend = s.eng.evpend)
    (hw : ∀ k, (t.eng.sh.get k).wpend = (s.eng.sh.get k).wpend) (hs : t.eng.same = s.eng.same) : n.Counts t := by
  refine ⟨fun e h1 => by rw [h.pend e h1, he], fun k e h1 => by rw [h.wait k e h1, hw], by rw [hs]; exact h.fresh,
    by rw [hs]; exact h.ecc, by rw [hp]; exact h.setup, ?_⟩
  rw [hp, hs]
  intro h1 h2
  obtain ⟨a, b, c, d⟩ := h.still h1 h2
  exact ⟨a, by rw [b, he], fun k => by rw [c, hw], d⟩

/-- Nothing has occurred in a new cycle. -/
theorem newCycle_ev (s : State) (e : Nat) : s.newCycle.eng.same.ev.getLsbD e = false := BitVec.getLsbD_zero
theorem newCycle_ecc (s : State) (e : Nat) : s.newCycle.eng.same.ecc.getLsbD e = false := BitVec.getLsbD_zero

/-- What is noted of a new cycle is noted of the cycle before. -/
theorem Noted.Counts.ofNew {s : State} {n : Noted} (h : n.Counts s.newCycle) : n.Counts s := by
  refine ⟨h.pend, h.wait, fun e he x => ?_, fun e x => ?_, h.setup, fun a b => ?_⟩
  · exact absurd (h.fresh e he x) (by simp [newCycle_ev])
  · exact absurd (h.ecc e x) (by simp [newCycle_ecc])
  · obtain ⟨p, q, r, t⟩ := h.still a b
    exact ⟨p, q, r, fun e x => absurd (t e x) (by simp [newCycle_ev])⟩

/-- `t` is `s` but for the counters' own state and the latches of PERF. -/
structure Loose (s t : State) : Prop where
  pend  : ∀ e : Nat, e ≠ 13 → t.eng.evpend.getLsbD e = s.eng.evpend.getLsbD e
  wait  : ∀ (k : Fin 4) (e : Nat), e ≠ 13 → (t.eng.sh.get k).wpend.getLsbD e = (s.eng.sh.get k).wpend.getLsbD e
  fresh : ∀ e : Nat, e ≠ 13 → t.eng.same.ev.getLsbD e = true → s.eng.same.ev.getLsbD e = true
  ecc   : ∀ e : Nat, t.eng.same.ecc.getLsbD e = true → s.eng.same.ecc.getLsbD e = true
  setup : { t.prf with
    frozen := s.prf.frozen, cyc := s.prf.cyc, cnt := s.prf.cnt, ovf := s.prf.ovf, gather := s.prf.gather } = s.prf

theorem Loose.refl (s : State) : Loose s s := ⟨fun _ _ => rfl, fun _ _ _ => rfl, fun _ _ h => h, fun _ h => h, rfl⟩

theorem Loose.trans {s t u : State} (h : Loose s t) (k : Loose t u) : Loose s u :=
  ⟨fun e he => (k.pend e he).trans (h.pend e he), fun i e he => (k.wait i e he).trans (h.wait i e he),
    fun e he x => h.fresh e he (k.fresh e he x), fun e x => h.ecc e (k.ecc e x), by
    have h1 := h.setup
    have h2 := k.setup
    rw [← h1, ← h2]⟩

theorem loose_ite {c : Prop} [Decidable c] {s t u : State} (ht : Loose s t) (hu : Loose s u) :
    Loose s (if c then t else u) := by
  split <;> assumption

theorem loose_foldl {α : Type} (f : State → α → State) (h : ∀ s a, Loose s (f s a)) (l : List α) (s : State) :
    Loose s (l.foldl f s) := by
  induction l generalizing s with
  | nil => exact Loose.refl s
  | cons a l ih => exact (h s a).trans (ih _)

theorem perf_loose (s : State) : Loose s (s.pendEvent 13) := by
  have hb : ∀ (w : BitVec 16) (e : Nat), e ≠ 13 → (w ||| BitVec.ofNat 16 (1 <<< 13)).getLsbD e = w.getLsbD e := by
    intro w e he
    rw [BitVec.getLsbD_or]
    have : (BitVec.ofNat 16 (1 <<< 13)).getLsbD e = false := by
      rw [BitVec.getLsbD_ofNat, Nat.one_shiftLeft, Nat.testBit_two_pow]
      simp
      omega
    rw [this, Bool.or_false]
  have hg : ∀ k : Fin 4, ((s.pendEvent 13).eng.sh.get k).wpend = (s.eng.sh.get k).wpend ||| BitVec.ofNat 16 (1 <<< 13) := by
    intro k
    match k with
    | 0 | 1 | 2 | 3 => rfl
  exact ⟨fun e he => hb _ e he, fun k e he => by rw [hg k, hb _ e he],
    fun e he x => by rw [← hb s.eng.same.ev e he]; exact x, fun _ x => x, rfl⟩

theorem overflow_loose (s : State) (n : Fin 8) : Loose s (s.overflow n) := by
  have h1 : ∀ v, Loose s { s with prf := { s.prf with ovf := v } } := fun v => ⟨fun _ _ => rfl, fun _ _ _ => rfl, fun _ _ x => x, fun _ x => x, rfl⟩
  have h2 : ∀ t : State, Loose t t.freeze := fun t => ⟨fun _ _ => rfl, fun _ _ _ => rfl, fun _ _ x => x, fun _ x => x, rfl⟩
  have h3 : ∀ (t : State) b, Loose t (t.sameOvf b) := fun t _ => ⟨fun _ _ => rfl, fun _ _ _ => rfl, fun _ _ x => x, fun _ x => x, rfl⟩
  unfold State.overflow
  refine loose_ite (Loose.trans ?_ (h2 _)) ?_
  · exact ((h1 _).trans (h3 _ _)).trans (loose_ite (perf_loose _) (Loose.refl _))
  · exact ((h1 _).trans (h3 _ _)).trans (loose_ite (perf_loose _) (Loose.refl _))

theorem addCount_loose (s : State) (n : Fin 8) (k : Nat) : Loose s (s.addCount n k) := by
  have h1 : ∀ (t : State) v, Loose t { t with prf := { t.prf with cnt := v } } := fun t v => ⟨fun _ _ => rfl, fun _ _ _ => rfl, fun _ _ x => x, fun _ x => x, rfl⟩
  unfold State.addCount
  dsimp only
  split
  · exact h1 s _
  · split
    · refine loose_ite ((h1 s _).trans (h1 _ _)) (((h1 s _).trans (h1 _ _)).trans (overflow_loose _ _))
    · exact (h1 s _).trans (overflow_loose _ _)

theorem transfer_loose (s : State) (n : Fin 8) : Loose s (s.transfer n) := by
  have h1 : ∀ (t : State) v, Loose t { t with prf := { t.prf with gather := v } } :=
    fun t v => ⟨fun _ _ => rfl, fun _ _ _ => rfl, fun _ _ x => x, fun _ x => x, rfl⟩
  unfold State.transfer
  exact loose_ite (h1 s _) ((h1 s _).trans (addCount_loose _ _ _))

theorem countIn_loose (s : State) (ev k : Nat) (n : Fin 8) : Loose s (s.countIn ev k n) := by
  have h1 : ∀ (t : State) v, Loose t { t with prf := { t.prf with gather := v } } :=
    fun t v => ⟨fun _ _ => rfl, fun _ _ _ => rfl, fun _ _ x => x, fun _ x => x, rfl⟩
  unfold State.countIn
  split
  · exact addCount_loose _ _ _
  · exact loose_ite (h1 s _) ((h1 s _).trans (transfer_loose _ _))

theorem count_loose (s : State) (ev : Nat) (sh : Option (Fin 4)) (m : Counted) (k : Nat) : Loose s (s.count ev sh m k) :=
  loose_foldl _ (fun _ _ => loose_ite (countIn_loose _ _ _ _) (Loose.refl _)) _ _

/-- With no counter enabled, an occurrence counts nothing (R491). -/
theorem count_disabled (s : State) (ev : Nat) (sh : Option (Fin 4)) (m : Counted) (k : Nat) (h : s.prf.en = 0) :
    s.count ev sh m k = s := by
  have : ∀ n : Fin 8, s.hits ev sh m n = false := by
    intro n
    simp [State.hits, Prf.counting, h]
  unfold State.count
  generalize upTo 8 = l
  induction l with
  | nil => rfl
  | cons a l ih => simp only [List.foldl_cons, this a]; exact ih

/-- `t` is `s` up to what counting notes. -/
def Tally (s t : State) : Prop := ∃ n : Noted, n.cyc = s.eng.cyc ∧ n.Counts s ∧ t = s.noted n

theorem Tally.refl (s : State) : Tally s s := ⟨s.note, rfl, .note s, (noted_note s).symm⟩

theorem Tally.trans {s t u : State} (h : Tally s t) (k : Tally t u) : Tally s u := by
  obtain ⟨n, hn, cn, rfl⟩ := h
  obtain ⟨m, hm, cm, rfl⟩ := k
  exact ⟨m, hm.trans hn, cn.trans cm, noted_noted s n m⟩

theorem tally_ite {c : Prop} [Decidable c] {s t u : State} (ht : Tally s t) (hu : Tally s u) :
    Tally s (if c then t else u) := by
  split <;> assumption

theorem tally_foldl {α : Type} (f : State → α → State) (h : ∀ s a, Tally s (f s a)) (l : List α) (s : State) :
    Tally s (l.foldl f s) := by
  induction l generalizing s with
  | nil => exact Tally.refl s
  | cons a l ih => exact (h s a).trans (ih _)

theorem count_tally (s : State) (ev : Nat) (sh : Option (Fin 4)) (m : Counted) (k : Nat) : Tally s (s.count ev sh m k) := by
  by_cases h : s.prf.en = 0
  · rw [count_disabled s ev sh m k h]
    exact Tally.refl s
  · obtain ⟨n, hn, e⟩ := count_quiet s ev sh m k
    have l := count_loose s ev sh m k
    rw [e] at l ⊢
    exact ⟨n, hn, ⟨l.pend, fun i e he => by rw [← l.wait i e he, get_noted], l.fresh, l.ecc, l.setup, fun h1 => absurd h1 h⟩, rfl⟩

/-- What a new cycle has noted so far. -/
def Noted.renew (n : Noted) : Noted := { n with same := { ev := 0, ovf := 0, ecc := 0 } }

theorem noted_newCycle (s : State) (n : Noted) : (s.noted n).newCycle = s.newCycle.noted n.renew := rfl

theorem newCycle_noted (s : State) (n : Noted) : s.newCycle.noted n = s.noted n := rfl

theorem Noted.Counts.renew {s : State} {n : Noted} (h : n.Counts s) : n.renew.Counts s.newCycle := by
  refine ⟨h.pend, h.wait, fun _ _ x => x, fun _ x => x, h.setup, fun a b => ?_⟩
  obtain ⟨p, q, r, _⟩ := h.still a b
  exact ⟨p, q, r, fun _ x => x⟩

/-- Cycles that pass: the last of them is a new cycle. -/
theorem coreTick_counts (s : State) (k : Nat) :
    ∃ n : Noted, n.cyc = s.eng.cyc + k ∧ n.Counts s.newCycle ∧ s.coreTick k = s.noted n := by
  let s0 : State := ({ s with eng := { s.eng with cyc := s.eng.cyc + k } } : State).newCycle
  let s1 : State :=
    if s0.prf.cycen && !s0.prf.frozen then
      let v := s0.prf.cyc.toNat + k
      let s := { s0 with prf := { s0.prf with cyc := BitVec.ofNat 64 v } }
      if v < 2 ^ 64 then s else ({ s with prf := { s.prf with ovf := s.prf.ovf ||| 0x100#9 } } : State).sameOvf 0x100#9
    else s0
  have h1 : ∃ n : Noted, n.cyc = s.eng.cyc + k ∧ n.Counts s.newCycle ∧ s1 = s.noted n := by
    have still : ∀ n : Noted, (s.prf.cycen = true → False) → n = { s.note.renew with cyc := s.eng.cyc + k } → n.Counts s.newCycle :=
      fun n _ h => h ▸ ⟨fun _ _ => rfl, fun _ _ _ => rfl, fun _ _ x => x, fun _ x => x, rfl, fun _ _ => ⟨rfl, rfl, fun _ => rfl, fun _ x => x⟩⟩
    by_cases hc : s.prf.cycen = true
    · by_cases hf : s.prf.frozen = true
      · refine ⟨{ s.note.renew with cyc := s.eng.cyc + k }, rfl,
          ⟨fun _ _ => rfl, fun _ _ _ => rfl, fun _ _ x => x, fun _ x => x, rfl, fun _ h => absurd h (by simp [State.newCycle, hc])⟩, ?_⟩
        have e : s1 = s0 := by simp [s1, s0, State.newCycle, hc, hf]
        rw [e]
        exact noted_counters s s.prf _ _
      · have hf' : s.prf.frozen = false := by simpa using hf
        by_cases hv : s.prf.cyc.toNat + k < 2 ^ 64
        · refine ⟨{ s.note.renew with cyc := s.eng.cyc + k, prf := { s.prf with cyc := BitVec.ofNat 64 (s.prf.cyc.toNat + k) } }, rfl,
            ⟨fun _ _ => rfl, fun _ _ _ => rfl, fun _ _ x => x, fun _ x => x, rfl, fun _ h => absurd h (by simp [State.newCycle, hc])⟩, ?_⟩
          have e : s1 = { s0 with prf := { s0.prf with cyc := BitVec.ofNat 64 (s.prf.cyc.toNat + k) } } := by
            simp only [s1, s0, State.newCycle, hc, hf', hv, Bool.not_false, Bool.and_self, if_true]
          rw [e]
          exact noted_counters s _ _ _
        · refine ⟨{ s.note.renew with cyc := s.eng.cyc + k, same := { ev := 0, ovf := 0 ||| 0x100#9, ecc := 0 }, prf := { s.prf with
              cyc := BitVec.ofNat 64 (s.prf.cyc.toNat + k), ovf := s.prf.ovf ||| 0x100#9 } }, rfl,
            ⟨fun _ _ => rfl, fun _ _ _ => rfl, fun _ _ x => x, fun _ x => x, rfl, fun _ h => absurd h (by simp [State.newCycle, hc])⟩, ?_⟩
          have e : s1 = ({ s0 with prf := { s0.prf with
              cyc := BitVec.ofNat 64 (s.prf.cyc.toNat + k), ovf := s0.prf.ovf ||| 0x100#9 } } : State).sameOvf 0x100#9 := by
            simp only [s1, s0, State.newCycle, hc, hf', hv, Bool.not_false, Bool.and_self, if_true, if_false]
          rw [e]
          exact noted_counters s _ _ _
    · have hc' : s.prf.cycen = false := by simpa using hc
      refine ⟨{ s.note.renew with cyc := s.eng.cyc + k }, rfl, still _ hc rfl, ?_⟩
      have e : s1 = s0 := by simp [s1, s0, State.newCycle, hc']
      rw [e]
      exact noted_counters s s.prf _ _
  have h2 : Tally s1 (s.coreTick k) := by
    have step : ∀ (t : State) (c : Prop) [Decidable c] (ev : Nat) (i : Fin 4),
        Tally t (if c then t.count ev (some i) .cycles k else t) :=
      fun t c _ ev i => tally_ite (count_tally _ _ _ _ _) (Tally.refl _)
    exact tally_foldl _ (fun t i => (((step t _ _ i).trans (step _ _ _ i)).trans (step _ _ _ i)).trans (step _ _ _ i)) _ _
  obtain ⟨n, hn, cn, e1⟩ := h1
  obtain ⟨m, hm, cm, e2⟩ := h2
  rw [e1] at hm cm e2
  refine ⟨m, hm.trans hn, cn.trans ?_, by rw [e2, noted_noted]⟩
  rw [newCycle_noted]
  exact cm

theorem idleTick_counts (s : State) (k : Nat) :
    ∃ n : Noted, n.cyc = s.eng.cyc + k ∧ n.Counts s ∧ s.idleTick k = s.noted n := by
  unfold State.idleTick
  split
  · rename_i h
    exact ⟨s.note, by simp [State.note, h], .note s, (noted_note s).symm⟩
  · obtain ⟨n, hn, cn, e⟩ := coreTick_counts s k
    obtain ⟨m, hm, cm, e1⟩ := count_tally (s.coreTick k) 0x02 none .occ k
    rw [e] at hm cm e1
    exact ⟨m, hm.trans hn, cn.ofNew.trans cm, by rw [e, e1, noted_noted]⟩

end Sys2Proof.Machine
end

