-- ==== Sys2Proof/Laws/Issue.lean ====
section
/-!
SUPPORT. Issue and fetch of an instruction that executes normally: one lemma says all they do (R117, R118, R132, R149, R150).
-/

namespace Sys2Proof.Machine

/-! ## A shuttle's own state through updates -/

@[simp] theorem sh_setSh (s : State) (i k : Fin 4) (x : Shuttle) :
    (s.setSh i x).sh k = if k = i then x else s.sh k := by
  simp only [State.setSh, State.sh, Vector.get_eq_getElem]
  rcases i with ⟨i, hi⟩
  rcases k with ⟨k, hk⟩
  simp only [Vector.getElem_set, Fin.mk.injEq, eq_comm]

@[simp] theorem sh_modSh (s : State) (i k : Fin 4) (f : Shuttle → Shuttle) :
    (s.modSh i f).sh k = if k = i then f (s.sh i) else s.sh k := by
  simp [State.modSh]

theorem setSh_setSh (s : State) (i : Fin 4) (x y : Shuttle) : (s.setSh i x).setSh i y = s.setSh i y := by
  simp [State.setSh]

theorem modSh_modSh (s : State) (i : Fin 4) (f g : Shuttle → Shuttle) :
    (s.modSh i f).modSh i g = s.modSh i fun x => g (f x) := by
  simp only [State.modSh, sh_setSh, if_true, setSh_setSh]

/-- Changes that leave the wait latch alone commute with counting. -/
theorem noted_modSh (s : State) (n : Noted) (i : Fin 4) (f : Shuttle → Shuttle)
    (hf : ∀ x w, f { x with wpend := w } = { f x with wpend := w }) :
    (s.noted n).modSh i f = (s.modSh i f).noted n := by
  have key : ∀ k, ((s.noted n).modSh i f).sh k = ((s.modSh i f).noted n).sh k := by
    intro k
    simp only [sh_modSh, noted_sh]
    split
    · rename_i h
      rw [h, hf]
    · rfl
  have e : ((s.noted n).modSh i f).eng.sh = ((s.modSh i f).noted n).eng.sh := by
    apply Vector.ext
    intro k hk
    exact key ⟨k, hk⟩
  have e2 : ((s.noted n).modSh i f).eng = ((s.modSh i f).noted n).eng := by
    have : ((s.noted n).modSh i f).eng = { ((s.modSh i f).noted n).eng with sh := ((s.noted n).modSh i f).eng.sh } := rfl
    rw [this, e]
  have : (s.noted n).modSh i f = { ((s.modSh i f).noted n) with eng := ((s.noted n).modSh i f).eng } := rfl
  rw [this, e2]

/-! ## Issue and fetch -/

theorem nextSlot_ge (s : State) (i : Fin 4) (c : Nat) (h : s.nextSlot i = some c) : s.eng.cyc ≤ c := by
  simp only [State.nextSlot, Option.map_eq_some_iff] at h
  obtain ⟨k, _, rfl⟩ := h
  omega

theorem nextSlot_free (s : State) (i : Fin 4) (c : Nat) (h : s.nextSlot i = some c) : (s.sh i).freeAt ≤ c := by
  simp only [State.nextSlot, Option.map_eq_some_iff] at h
  obtain ⟨k, _, rfl⟩ := h
  omega

/-- What counting notes of a state, it notes of the state with a shuttle changed that keeps its latch. -/
theorem Noted.Counts.modSh {s : State} {n : Noted} (h : n.Counts s) (i : Fin 4) (f : Shuttle → Shuttle)
    (hf : (f (s.sh i)).wpend = (s.sh i).wpend) : n.Counts (s.modSh i f) := by
  refine h.congr rfl rfl (fun k => ?_) rfl
  have := sh_modSh s i k f
  unfold State.sh at this hf
  rw [this]
  split
  · rename_i e
    rw [e, hf]
  · rfl

/-- The issue of an instruction whose slot comes (R117, R118). -/
theorem issue_noted (s : State) (i : Fin 4) (c : Nat) (hr : s.coreRuns = true) (h : s.nextSlot i = some c) :
    ∃ n : Noted, n.cyc = c + 1 ∧ n.Counts s.newCycle ∧ s.issue i = some (s.noted n) := by
  obtain ⟨n0, h0, c0, e0⟩ := idleTick_counts s (c - s.eng.cyc)
  obtain ⟨n1, h1, c1, e1⟩ := coreTick_counts (s.idleTick (c - s.eng.cyc)) 1
  obtain ⟨n2, h2, c2, e2⟩ := count_tally ((s.idleTick (c - s.eng.cyc)).coreTick 1) 0x01 (some i) .occ 1
  have hc : n2.cyc = c + 1 := by
    rw [h2, e1, noted_cyc, h1, e0, noted_cyc, h0]
    have := nextSlot_ge s i c h
    omega
  have hn : n2.Counts s.newCycle := by
    rw [e1] at c2
    rw [e0] at c1 c2
    rw [noted_newCycle] at c1
    refine (c0.renew.trans c1).trans ?_
    rw [newCycle_noted]
    rw [noted_noted] at c2
    exact c2
  have e2' : ((s.idleTick (c - s.eng.cyc)).coreTick 1).count 0x01 (some i) .occ 1 = s.noted n2 := by
    rw [e2, e1, e0, noted_noted, noted_noted]
  unfold State.issue
  simp only [hr, h, if_true]
  split
  · exact ⟨n2, hc, hn, by rw [e2']⟩
  · obtain ⟨n3, h3, c3, e3⟩ := (count_tally (s.noted n2) 0x03 (some (s.owner c)) .occ 1).trans
      (count_tally _ 0x04 (some i) .occ 1)
    refine ⟨n3, by rw [h3, noted_cyc, hc], hn.trans ?_, ?_⟩
    · rw [newCycle_noted]
      exact c3
    · rw [e2', e3, noted_noted]

/-- The state at the issue point: only time has passed. -/
theorem preSlot_noted (s : State) (i : Fin 4) : ∃ n : Noted, n.Counts s ∧ s.preSlot i = s.noted n := by
  unfold State.preSlot
  split
  · exact ⟨s.note, .note s, (noted_note s).symm⟩
  · obtain ⟨n, _, cn, e⟩ := idleTick_counts s (_ - s.eng.cyc)
    exact ⟨n, cn, e⟩

theorem oldWord_noted (s : State) (n : Noted) (i : Fin 4) (w : Nat) : (s.noted n).oldWord i w = s.oldWord i w := by
  simp [State.oldWord]

theorem fetchWord_noted (s : State) (n : Noted) (i : Fin 4) : (s.noted n).fetchWord i = s.fetchWord i := by
  simp only [State.fetchWord, noted_sh, oldWord_noted]
  rfl

theorem illegalWord_noted (s : State) (n : Noted) (i : Fin 4) : (s.noted n).illegalWord i = s.illegalWord i := by
  simp [State.illegalWord, fetchWord_noted]

theorem fetchable_noted (s : State) (n : Noted) (i : Fin 4) : (s.noted n).fetchable i = s.fetchable i := by
  simp only [State.fetchable, State.fetchClass, State.mpuOk, noted_sh, oldWord_noted, noted_mem, noted_mpu, noted_mpuctl]

/-- What the fetch of a fetchable instruction does: the shuttle's buffer holds its word. -/
theorem fetch_ok (s : State) (i : Fin 4) (h : s.fetchable i = true) :
    ∃ n : Noted, n.cyc = s.eng.cyc ∧ n.Counts s ∧
      s.fetch i = ((s.modSh i fun x => x.fetched s.mem.oldNum).noted n, true) := by
  simp only [State.fetchable, Bool.and_eq_true, beq_iff_eq] at h
  obtain ⟨⟨hm, hr⟩, he⟩ := h
  have hk : (inRom (s.sh i).pc.toNat || inMram (s.sh i).pc.toNat || inSram (s.sh i).pc.toNat) = true := by
    revert hr
    cases inRom (s.sh i).pc.toNat <;> cases inMram (s.sh i).pc.toNat <;> simp
  have hks : inKeyStore (s.sh i).pc.toNat = false := by
    revert hr
    simp only [inKeyStore, inRom, inMram, inSram]
    simp
    omega
  have hrd : s.fetchRead i = (s, true) := by
    unfold State.fetchClass at he
    unfold State.fetchRead
    simp only at he ⊢
    split
    · rfl
    · split <;> rename_i ho <;> rw [ho] at he <;> simp only at he
      · unfold State.eccRead
        rw [he]
        rfl
      · rw [if_pos he]
  unfold State.fetch
  simp only [hm, hk, hks, hrd]
  simp only [Bool.not_true, Bool.false_eq_true, if_false]
  obtain ⟨n, hn, cn, e⟩ : Tally s (if (inMram (s.sh i).pc.toNat && (s.sh i).flow) = true then s.count 8 (some i) .occ 1 else s) :=
    tally_ite (count_tally _ _ _ _ _) (Tally.refl _)
  refine ⟨n, hn, cn, ?_⟩
  rw [e, noted_mem, noted_modSh]
  · rfl
  · intros; rfl

/-- An instruction that has its slot: it issues in cycle `c`, and its fetch leaves the state with nothing changed but the fetch
buffer, counters and latches. What follows is its own cause, an interrupt, or what it does (R141, R145). -/
theorem instrWith_slot (s : State) (i : Fin 4) (h : s.hasSlot i = true) :
    ∃ (c : Nat) (n : Noted), s.nextSlot i = some c ∧ n.cyc = c + 1 ∧ n.Counts s.newCycle ∧
      ∀ (pre : State → PreCause) (f : State → State), s.instrWith i pre f =
        match pre ((s.modSh i fun x => x.fetched s.mem.oldNum).noted n) with
        | some (c, a) => ((s.modSh i fun x => x.fetched s.mem.oldNum).noted n).raise i c a
        | none => match (s.preSlot i).irq i with
          | some e => (s.preSlot i).interrupt i e
          | none => f ((s.modSh i fun x => x.fetched s.mem.oldNum).noted n) := by
  simp only [State.hasSlot, Bool.and_eq_true, Bool.not_eq_true'] at h
  obtain ⟨⟨⟨hr, hs⟩, hf⟩, hi⟩ := h
  obtain ⟨c, hc⟩ := Option.isSome_iff_exists.mp hs
  obtain ⟨n, hn, cn, e⟩ := issue_noted s i c hr hc
  obtain ⟨m, hm, cm, em⟩ := fetch_ok (s.noted n) i (by rw [fetchable_noted, hf])
  have eq : ((s.noted n).modSh i fun x => x.fetched (s.noted n).mem.oldNum).noted m =
      (s.modSh i fun x => x.fetched s.mem.oldNum).noted m := by
    rw [noted_mem, noted_modSh, noted_noted]
    intros; rfl
  refine ⟨c, m, hc, by rw [hm, noted_cyc, hn], cn.trans (by rw [newCycle_noted]; exact cm), fun pre f => ?_⟩
  unfold State.instrWith
  simp only [e, em, illegalWord_noted, hi, Bool.false_eq_true, if_false, eq]
  all_goals rfl

/-- An instruction without a cause of its own that executes normally: its slot comes in cycle `c`, and `f` acts on the state with
nothing changed but the fetch buffer, counters and latches. -/
theorem instrWith_ok (s : State) (i : Fin 4) (h : s.issues i = true) :
    ∃ (c : Nat) (n : Noted), s.nextSlot i = some c ∧ n.cyc = c + 1 ∧ n.Counts s.newCycle ∧
      ∀ (pre : State → PreCause) (f : State → State),
        pre ((s.modSh i fun x => x.fetched s.mem.oldNum).noted n) = none →
        s.instrWith i pre f = f ((s.modSh i fun x => x.fetched s.mem.oldNum).noted n) := by
  simp only [State.issues, Bool.and_eq_true, Option.isNone_iff_eq_none] at h
  obtain ⟨c, n, hc, hn, cn, e⟩ := instrWith_slot s i h.1
  exact ⟨c, n, hc, hn, cn, fun pre f hp => by rw [e, hp]; simp only [h.2]⟩

/-- The same for an instruction that has no cause of its own at all. -/
theorem instr_ok (s : State) (i : Fin 4) (h : s.issues i = true) :
    ∃ (c : Nat) (n : Noted), s.nextSlot i = some c ∧ n.cyc = c + 1 ∧ n.Counts s.newCycle ∧
      ∀ f : State → State, s.instr i f = f ((s.modSh i fun x => x.fetched s.mem.oldNum).noted n) := by
  obtain ⟨c, n, hc, hn, cn, e⟩ := instrWith_ok s i h
  exact ⟨c, n, hc, hn, cn, fun f => e _ f rfl⟩

/-! ## Results -/

theorem wr_wpend (x : Shuttle) (r : Fin 16) (v : Word) (w : BitVec 16) :
    Shuttle.wr { x with wpend := w } r v = { Shuttle.wr x r v with wpend := w } := by
  unfold Shuttle.wr
  split <;> rfl

/-- The end of an instruction of `cost` slots. -/
theorem advance_noted (s : State) (n : Noted) (i : Fin 4) (cost : Nat) :
    ∃ m : Noted, m.cyc = n.cyc ∧ (∀ u : State, n.Counts u → m.Counts u) ∧ (s.noted n).advance i cost =
      (s.modSh i fun x => { x with pc := x.pc + 4, freeAt := n.cyc + (cost - 1) }).noted m := by
  unfold State.advance
  simp only [noted_cyc]
  rw [noted_modSh _ _ _ _ (by intros; rfl)]
  split
  · exact ⟨n, rfl, fun _ h => h, rfl⟩
  · obtain ⟨m, hm, cm, e⟩ := (count_tally ((s.modSh i fun x => { x with pc := x.pc + 4, freeAt := n.cyc + (cost - 1) }).noted n)
      0x05 (some i) .entry 1).trans (count_tally _ 0x05 (some i) .cycles (cost - 1))
    refine ⟨m, hm, fun u h => h.trans (cm.congr rfl rfl (fun k => ?_) rfl), by rw [e, noted_noted]⟩
    rw [get_noted, get_noted]

/-- A register result. -/
theorem result_noted (s : State) (n : Noted) (i : Fin 4) (rd : Fin 16) (v : Word) (cost : Nat) :
    ∃ m : Noted, m.cyc = n.cyc ∧ (∀ u : State, n.Counts u → m.Counts u) ∧ (s.noted n).result i rd v cost =
      (s.modSh i fun x => { x.wr rd v with pc := (x.wr rd v).pc + 4, freeAt := n.cyc + (cost - 1) }).noted m := by
  unfold State.result State.setReg
  rw [noted_modSh _ _ _ _ (fun x w => wr_wpend x rd v w)]
  obtain ⟨m, hm, cm, e⟩ := advance_noted (s.modSh i fun x => x.wr rd v) n i cost
  exact ⟨m, hm, cm, by rw [e, modSh_modSh]⟩

theorem reg_noted (s : State) (n : Noted) (k : Fin 4) (r : Fin 16) : (s.noted n).reg k r = s.reg k r := by
  simp [State.reg, Shuttle.rd]

theorem reg_fetched (s : State) (i k : Fin 4) (r : Fin 16) (o : Nat) :
    (s.modSh i fun x => x.fetched o).reg k r = s.reg k r := by
  simp only [State.reg, sh_modSh]
  split
  · rename_i e; rw [e]; rfl
  · rfl

theorem wr_wrote (x : Shuttle) (rd : Fin 16) (v : Word) (cost now o : Nat) :
    ({ (x.fetched o).wr rd v with
        pc := ((x.fetched o).wr rd v).pc + 4, freeAt := now + (cost - 1) } : Shuttle) =
      (x.fetched o).wrote rd v cost now := by
  unfold Shuttle.wrote Shuttle.wr Shuttle.fetched
  split <;> rfl

theorem wrote_wpend (x : Shuttle) (rd : Fin 16) (v : Word) (cost now : Nat) : (x.wrote rd v cost now).wpend = x.wpend := by
  unfold Shuttle.wrote Shuttle.wr
  split <;> rfl

/-- An instruction that answers a register result. -/
theorem issued_result_with (s : State) (i : Fin 4) (rd : Fin 16) (v : Word) (cost : Nat) (pre : State → PreCause)
    (f : State → State) (h : s.issues i = true)
    (hp : ∀ n : Noted, pre ((s.modSh i fun x => x.fetched s.mem.oldNum).noted n) = none)
    (hf : ∀ n : Noted, f ((s.modSh i fun x => x.fetched s.mem.oldNum).noted n) =
      ((s.modSh i fun x => x.fetched s.mem.oldNum).noted n).result i rd v cost) :
    Issued (.next (s.instrWith i pre f)) s i fun now x => x.wrote rd v cost now := by
  obtain ⟨c, n, hc, hn, cn, e⟩ := instrWith_ok s i h
  rw [e _ _ (hp n), hf]
  obtain ⟨m, hm, cm, em⟩ := result_noted (s.modSh i fun x => x.fetched s.mem.oldNum) n i rd v cost
  refine ⟨c, m, hc, by rw [hm, hn], (cm s cn.ofNew).modSh i _ (wrote_wpend _ _ _ _ _), ?_⟩
  rw [em, modSh_modSh, hn]
  simp only [wr_wrote]

theorem issued_result (s : State) (i : Fin 4) (rd : Fin 16) (v : Word) (cost : Nat) (f : State → State)
    (h : s.issues i = true)
    (hf : ∀ n : Noted, f ((s.modSh i fun x => x.fetched s.mem.oldNum).noted n) =
      ((s.modSh i fun x => x.fetched s.mem.oldNum).noted n).result i rd v cost) :
    Issued (.next (s.instr i f)) s i fun now x => x.wrote rd v cost now :=
  issued_result_with s i rd v cost _ f h (fun _ => rfl) hf

/-- rd = f(ra, rb), executed normally: one equation says all it does. -/
theorem op2_issued (s : State) (i : Fin 4) (rd ra rb : Fin 16) (cost : Nat) (f : Word → Word → Word)
    (h : s.issues i = true) :
    Issued (.next (s.op2 i rd ra rb cost f)) s i fun now x => x.wrote rd (f (s.reg i ra) (s.reg i rb)) cost now :=
  issued_result s i rd _ cost _ h fun n => by simp only [reg_noted, reg_fetched]

/-- rd = f(ra), executed normally. -/
theorem op1_issued (s : State) (i : Fin 4) (rd ra : Fin 16) (f : Word → Word) (h : s.issues i = true) :
    Issued (.next (s.op1 i rd ra f)) s i fun now x => x.wrote rd (f (s.reg i ra)) 1 now :=
  issued_result s i rd _ 1 _ h fun n => by simp only [reg_noted, reg_fetched]

end Sys2Proof.Machine
end

