-- ==== Sys2Proof/Laws/State.lean ====
section
/-!
SUPPORT. One lemma per field of the state and per update: what the update leaves and what it puts there. `modEng`, `modSys`
and the like change their own block, and counting and events change the counters and latches alone.
-/

namespace Sys2Proof.Machine

variable (s : State)


@[simp] theorem modSys_sys (f : Sys → Sys) : (s.modSys f).sys = f s.sys := rfl
@[simp] theorem modSys_eng (f : Sys → Sys) : (s.modSys f).eng = s.eng := rfl
@[simp] theorem modSys_mem (f : Sys → Sys) : (s.modSys f).mem = s.mem := rfl
@[simp] theorem modSys_armed (f : Sys → Sys) : (s.modSys f).armed = s.armed := rfl
@[simp] theorem modSys_nrg (f : Sys → Sys) : (s.modSys f).nrg = s.nrg := rfl
@[simp] theorem modSys_nrgx (f : Sys → Sys) : (s.modSys f).nrgx = s.nrgx := rfl
@[simp] theorem modSys_drv (f : Sys → Sys) : (s.modSys f).drv = s.drv := rfl
@[simp] theorem modSys_flw (f : Sys → Sys) : (s.modSys f).flw = s.flw := rfl
@[simp] theorem modSys_prs (f : Sys → Sys) : (s.modSys f).prs = s.prs := rfl
@[simp] theorem modSys_tmp (f : Sys → Sys) : (s.modSys f).tmp = s.tmp := rfl
@[simp] theorem modSys_rad (f : Sys → Sys) : (s.modSys f).rad = s.rad := rfl
@[simp] theorem modSys_mac (f : Sys → Sys) : (s.modSys f).mac = s.mac := rfl
@[simp] theorem modSys_macx (f : Sys → Sys) : (s.modSys f).macx = s.macx := rfl
@[simp] theorem modSys_sec (f : Sys → Sys) : (s.modSys f).sec = s.sec := rfl
@[simp] theorem modSys_secx (f : Sys → Sys) : (s.modSys f).secx = s.secx := rfl
@[simp] theorem modSys_prf (f : Sys → Sys) : (s.modSys f).prf = s.prf := rfl
@[simp] theorem modSys_lnk (f : Sys → Sys) : (s.modSys f).lnk = s.lnk := rfl
@[simp] theorem modSys_fresh (f : Sys → Sys) : (s.modSys f).fresh = s.fresh := rfl
@[simp] theorem modSys_pending (f : Sys → Sys) : (s.modSys f).pending = s.pending := rfl

@[simp] theorem modEng_sys (f : Eng → Eng) : (s.modEng f).sys = s.sys := rfl
@[simp] theorem modEng_eng (f : Eng → Eng) : (s.modEng f).eng = f s.eng := rfl
@[simp] theorem modEng_mem (f : Eng → Eng) : (s.modEng f).mem = s.mem := rfl
@[simp] theorem modEng_armed (f : Eng → Eng) : (s.modEng f).armed = s.armed := rfl
@[simp] theorem modEng_nrg (f : Eng → Eng) : (s.modEng f).nrg = s.nrg := rfl
@[simp] theorem modEng_nrgx (f : Eng → Eng) : (s.modEng f).nrgx = s.nrgx := rfl
@[simp] theorem modEng_drv (f : Eng → Eng) : (s.modEng f).drv = s.drv := rfl
@[simp] theorem modEng_flw (f : Eng → Eng) : (s.modEng f).flw = s.flw := rfl
@[simp] theorem modEng_prs (f : Eng → Eng) : (s.modEng f).prs = s.prs := rfl
@[simp] theorem modEng_tmp (f : Eng → Eng) : (s.modEng f).tmp = s.tmp := rfl
@[simp] theorem modEng_rad (f : Eng → Eng) : (s.modEng f).rad = s.rad := rfl
@[simp] theorem modEng_mac (f : Eng → Eng) : (s.modEng f).mac = s.mac := rfl
@[simp] theorem modEng_macx (f : Eng → Eng) : (s.modEng f).macx = s.macx := rfl
@[simp] theorem modEng_sec (f : Eng → Eng) : (s.modEng f).sec = s.sec := rfl
@[simp] theorem modEng_secx (f : Eng → Eng) : (s.modEng f).secx = s.secx := rfl
@[simp] theorem modEng_prf (f : Eng → Eng) : (s.modEng f).prf = s.prf := rfl
@[simp] theorem modEng_lnk (f : Eng → Eng) : (s.modEng f).lnk = s.lnk := rfl
@[simp] theorem modEng_fresh (f : Eng → Eng) : (s.modEng f).fresh = s.fresh := rfl
@[simp] theorem modEng_pending (f : Eng → Eng) : (s.modEng f).pending = s.pending := rfl

@[simp] theorem setMem_sys (m : Mem) : (s.setMem m).sys = s.sys := rfl
@[simp] theorem setMem_eng (m : Mem) : (s.setMem m).eng = s.eng := rfl
@[simp] theorem setMem_mem (m : Mem) : (s.setMem m).mem = m := rfl
@[simp] theorem setMem_armed (m : Mem) : (s.setMem m).armed = s.armed := rfl
@[simp] theorem setMem_nrg (m : Mem) : (s.setMem m).nrg = s.nrg := rfl
@[simp] theorem setMem_nrgx (m : Mem) : (s.setMem m).nrgx = s.nrgx := rfl
@[simp] theorem setMem_drv (m : Mem) : (s.setMem m).drv = s.drv := rfl
@[simp] theorem setMem_flw (m : Mem) : (s.setMem m).flw = s.flw := rfl
@[simp] theorem setMem_prs (m : Mem) : (s.setMem m).prs = s.prs := rfl
@[simp] theorem setMem_tmp (m : Mem) : (s.setMem m).tmp = s.tmp := rfl
@[simp] theorem setMem_rad (m : Mem) : (s.setMem m).rad = s.rad := rfl
@[simp] theorem setMem_mac (m : Mem) : (s.setMem m).mac = s.mac := rfl
@[simp] theorem setMem_macx (m : Mem) : (s.setMem m).macx = s.macx := rfl
@[simp] theorem setMem_sec (m : Mem) : (s.setMem m).sec = s.sec := rfl
@[simp] theorem setMem_secx (m : Mem) : (s.setMem m).secx = s.secx := rfl
@[simp] theorem setMem_prf (m : Mem) : (s.setMem m).prf = s.prf := rfl
@[simp] theorem setMem_lnk (m : Mem) : (s.setMem m).lnk = s.lnk := rfl
@[simp] theorem setMem_fresh (m : Mem) : (s.setMem m).fresh = s.fresh := rfl
@[simp] theorem setMem_pending (m : Mem) : (s.setMem m).pending = s.pending := rfl

@[simp] theorem setCells_sys (c : List Host.Cell) : (s.setCells c).sys = s.sys := rfl
@[simp] theorem setCells_eng (c : List Host.Cell) : (s.setCells c).eng = s.eng := rfl
@[simp] theorem setCells_mem (c : List Host.Cell) : (s.setCells c).mem = { s.mem with cells := c } := rfl
@[simp] theorem setCells_armed (c : List Host.Cell) : (s.setCells c).armed = s.armed := rfl
@[simp] theorem setCells_nrg (c : List Host.Cell) : (s.setCells c).nrg = s.nrg := rfl
@[simp] theorem setCells_nrgx (c : List Host.Cell) : (s.setCells c).nrgx = s.nrgx := rfl
@[simp] theorem setCells_drv (c : List Host.Cell) : (s.setCells c).drv = s.drv := rfl
@[simp] theorem setCells_flw (c : List Host.Cell) : (s.setCells c).flw = s.flw := rfl
@[simp] theorem setCells_prs (c : List Host.Cell) : (s.setCells c).prs = s.prs := rfl
@[simp] theorem setCells_tmp (c : List Host.Cell) : (s.setCells c).tmp = s.tmp := rfl
@[simp] theorem setCells_rad (c : List Host.Cell) : (s.setCells c).rad = s.rad := rfl
@[simp] theorem setCells_mac (c : List Host.Cell) : (s.setCells c).mac = s.mac := rfl
@[simp] theorem setCells_macx (c : List Host.Cell) : (s.setCells c).macx = s.macx := rfl
@[simp] theorem setCells_sec (c : List Host.Cell) : (s.setCells c).sec = s.sec := rfl
@[simp] theorem setCells_secx (c : List Host.Cell) : (s.setCells c).secx = s.secx := rfl
@[simp] theorem setCells_prf (c : List Host.Cell) : (s.setCells c).prf = s.prf := rfl
@[simp] theorem setCells_lnk (c : List Host.Cell) : (s.setCells c).lnk = s.lnk := rfl
@[simp] theorem setCells_fresh (c : List Host.Cell) : (s.setCells c).fresh = s.fresh := rfl
@[simp] theorem setCells_pending (c : List Host.Cell) : (s.setCells c).pending = s.pending := rfl

@[simp] theorem disarm_sys (d : Nat) : (s.disarm d).sys = s.sys := rfl
@[simp] theorem disarm_eng (d : Nat) : (s.disarm d).eng = s.eng := rfl
@[simp] theorem disarm_mem (d : Nat) : (s.disarm d).mem = s.mem := rfl
@[simp] theorem disarm_armed (d : Nat) : (s.disarm d).armed = s.armed &&& ~~~(BitVec.ofNat 9 (1 <<< d)) := rfl
@[simp] theorem disarm_nrg (d : Nat) : (s.disarm d).nrg = s.nrg := rfl
@[simp] theorem disarm_nrgx (d : Nat) : (s.disarm d).nrgx = s.nrgx := rfl
@[simp] theorem disarm_drv (d : Nat) : (s.disarm d).drv = s.drv := rfl
@[simp] theorem disarm_flw (d : Nat) : (s.disarm d).flw = s.flw := rfl
@[simp] theorem disarm_prs (d : Nat) : (s.disarm d).prs = s.prs := rfl
@[simp] theorem disarm_tmp (d : Nat) : (s.disarm d).tmp = s.tmp := rfl
@[simp] theorem disarm_rad (d : Nat) : (s.disarm d).rad = s.rad := rfl
@[simp] theorem disarm_mac (d : Nat) : (s.disarm d).mac = s.mac := rfl
@[simp] theorem disarm_macx (d : Nat) : (s.disarm d).macx = s.macx := rfl
@[simp] theorem disarm_sec (d : Nat) : (s.disarm d).sec = s.sec := rfl
@[simp] theorem disarm_secx (d : Nat) : (s.disarm d).secx = s.secx := rfl
@[simp] theorem disarm_prf (d : Nat) : (s.disarm d).prf = s.prf := rfl
@[simp] theorem disarm_lnk (d : Nat) : (s.disarm d).lnk = s.lnk := rfl
@[simp] theorem disarm_fresh (d : Nat) : (s.disarm d).fresh = s.fresh := rfl
@[simp] theorem disarm_pending (d : Nat) : (s.disarm d).pending = s.pending := rfl

@[simp] theorem modNrg_sys (f : Nrg → Nrg) : (s.modNrg f).sys = s.sys := rfl
@[simp] theorem modNrg_eng (f : Nrg → Nrg) : (s.modNrg f).eng = s.eng := rfl
@[simp] theorem modNrg_mem (f : Nrg → Nrg) : (s.modNrg f).mem = s.mem := rfl
@[simp] theorem modNrg_armed (f : Nrg → Nrg) : (s.modNrg f).armed = s.armed := rfl
@[simp] theorem modNrg_nrg (f : Nrg → Nrg) : (s.modNrg f).nrg = f s.nrg := rfl
@[simp] theorem modNrg_nrgx (f : Nrg → Nrg) : (s.modNrg f).nrgx = s.nrgx := rfl
@[simp] theorem modNrg_drv (f : Nrg → Nrg) : (s.modNrg f).drv = s.drv := rfl
@[simp] theorem modNrg_flw (f : Nrg → Nrg) : (s.modNrg f).flw = s.flw := rfl
@[simp] theorem modNrg_prs (f : Nrg → Nrg) : (s.modNrg f).prs = s.prs := rfl
@[simp] theorem modNrg_tmp (f : Nrg → Nrg) : (s.modNrg f).tmp = s.tmp := rfl
@[simp] theorem modNrg_rad (f : Nrg → Nrg) : (s.modNrg f).rad = s.rad := rfl
@[simp] theorem modNrg_mac (f : Nrg → Nrg) : (s.modNrg f).mac = s.mac := rfl
@[simp] theorem modNrg_macx (f : Nrg → Nrg) : (s.modNrg f).macx = s.macx := rfl
@[simp] theorem modNrg_sec (f : Nrg → Nrg) : (s.modNrg f).sec = s.sec := rfl
@[simp] theorem modNrg_secx (f : Nrg → Nrg) : (s.modNrg f).secx = s.secx := rfl
@[simp] theorem modNrg_prf (f : Nrg → Nrg) : (s.modNrg f).prf = s.prf := rfl
@[simp] theorem modNrg_lnk (f : Nrg → Nrg) : (s.modNrg f).lnk = s.lnk := rfl
@[simp] theorem modNrg_fresh (f : Nrg → Nrg) : (s.modNrg f).fresh = s.fresh := rfl
@[simp] theorem modNrg_pending (f : Nrg → Nrg) : (s.modNrg f).pending = s.pending := rfl

@[simp] theorem modNrgx_sys (f : NrgAux → NrgAux) : (s.modNrgx f).sys = s.sys := rfl
@[simp] theorem modNrgx_eng (f : NrgAux → NrgAux) : (s.modNrgx f).eng = s.eng := rfl
@[simp] theorem modNrgx_mem (f : NrgAux → NrgAux) : (s.modNrgx f).mem = s.mem := rfl
@[simp] theorem modNrgx_armed (f : NrgAux → NrgAux) : (s.modNrgx f).armed = s.armed := rfl
@[simp] theorem modNrgx_nrg (f : NrgAux → NrgAux) : (s.modNrgx f).nrg = s.nrg := rfl
@[simp] theorem modNrgx_nrgx (f : NrgAux → NrgAux) : (s.modNrgx f).nrgx = f s.nrgx := rfl
@[simp] theorem modNrgx_drv (f : NrgAux → NrgAux) : (s.modNrgx f).drv = s.drv := rfl
@[simp] theorem modNrgx_flw (f : NrgAux → NrgAux) : (s.modNrgx f).flw = s.flw := rfl
@[simp] theorem modNrgx_prs (f : NrgAux → NrgAux) : (s.modNrgx f).prs = s.prs := rfl
@[simp] theorem modNrgx_tmp (f : NrgAux → NrgAux) : (s.modNrgx f).tmp = s.tmp := rfl
@[simp] theorem modNrgx_rad (f : NrgAux → NrgAux) : (s.modNrgx f).rad = s.rad := rfl
@[simp] theorem modNrgx_mac (f : NrgAux → NrgAux) : (s.modNrgx f).mac = s.mac := rfl
@[simp] theorem modNrgx_macx (f : NrgAux → NrgAux) : (s.modNrgx f).macx = s.macx := rfl
@[simp] theorem modNrgx_sec (f : NrgAux → NrgAux) : (s.modNrgx f).sec = s.sec := rfl
@[simp] theorem modNrgx_secx (f : NrgAux → NrgAux) : (s.modNrgx f).secx = s.secx := rfl
@[simp] theorem modNrgx_prf (f : NrgAux → NrgAux) : (s.modNrgx f).prf = s.prf := rfl
@[simp] theorem modNrgx_lnk (f : NrgAux → NrgAux) : (s.modNrgx f).lnk = s.lnk := rfl
@[simp] theorem modNrgx_fresh (f : NrgAux → NrgAux) : (s.modNrgx f).fresh = s.fresh := rfl
@[simp] theorem modNrgx_pending (f : NrgAux → NrgAux) : (s.modNrgx f).pending = s.pending := rfl

@[simp] theorem modDrv_sys (f : Drv → Drv) : (s.modDrv f).sys = s.sys := rfl
@[simp] theorem modDrv_eng (f : Drv → Drv) : (s.modDrv f).eng = s.eng := rfl
@[simp] theorem modDrv_mem (f : Drv → Drv) : (s.modDrv f).mem = s.mem := rfl
@[simp] theorem modDrv_armed (f : Drv → Drv) : (s.modDrv f).armed = s.armed := rfl
@[simp] theorem modDrv_nrg (f : Drv → Drv) : (s.modDrv f).nrg = s.nrg := rfl
@[simp] theorem modDrv_nrgx (f : Drv → Drv) : (s.modDrv f).nrgx = s.nrgx := rfl
@[simp] theorem modDrv_drv (f : Drv → Drv) : (s.modDrv f).drv = f s.drv := rfl
@[simp] theorem modDrv_flw (f : Drv → Drv) : (s.modDrv f).flw = { s.flw with line := s.flw.line.map fun l => l.watch (f s.drv) } := rfl
@[simp] theorem modDrv_prs (f : Drv → Drv) : (s.modDrv f).prs = s.prs := rfl
@[simp] theorem modDrv_tmp (f : Drv → Drv) : (s.modDrv f).tmp = s.tmp := rfl
@[simp] theorem modDrv_rad (f : Drv → Drv) : (s.modDrv f).rad = s.rad := rfl
@[simp] theorem modDrv_mac (f : Drv → Drv) : (s.modDrv f).mac = s.mac := rfl
@[simp] theorem modDrv_macx (f : Drv → Drv) : (s.modDrv f).macx = s.macx := rfl
@[simp] theorem modDrv_sec (f : Drv → Drv) : (s.modDrv f).sec = s.sec := rfl
@[simp] theorem modDrv_secx (f : Drv → Drv) : (s.modDrv f).secx = s.secx := rfl
@[simp] theorem modDrv_prf (f : Drv → Drv) : (s.modDrv f).prf = s.prf := rfl
@[simp] theorem modDrv_lnk (f : Drv → Drv) : (s.modDrv f).lnk = s.lnk := rfl
@[simp] theorem modDrv_fresh (f : Drv → Drv) : (s.modDrv f).fresh = s.fresh := rfl
@[simp] theorem modDrv_pending (f : Drv → Drv) : (s.modDrv f).pending = s.pending := rfl

@[simp] theorem modFlw_sys (f : Flw → Flw) : (s.modFlw f).sys = s.sys := rfl
@[simp] theorem modFlw_eng (f : Flw → Flw) : (s.modFlw f).eng = s.eng := rfl
@[simp] theorem modFlw_mem (f : Flw → Flw) : (s.modFlw f).mem = s.mem := rfl
@[simp] theorem modFlw_armed (f : Flw → Flw) : (s.modFlw f).armed = s.armed := rfl
@[simp] theorem modFlw_nrg (f : Flw → Flw) : (s.modFlw f).nrg = s.nrg := rfl
@[simp] theorem modFlw_nrgx (f : Flw → Flw) : (s.modFlw f).nrgx = s.nrgx := rfl
@[simp] theorem modFlw_drv (f : Flw → Flw) : (s.modFlw f).drv = s.drv := rfl
@[simp] theorem modFlw_flw (f : Flw → Flw) : (s.modFlw f).flw = f s.flw := rfl
@[simp] theorem modFlw_prs (f : Flw → Flw) : (s.modFlw f).prs = s.prs := rfl
@[simp] theorem modFlw_tmp (f : Flw → Flw) : (s.modFlw f).tmp = s.tmp := rfl
@[simp] theorem modFlw_rad (f : Flw → Flw) : (s.modFlw f).rad = s.rad := rfl
@[simp] theorem modFlw_mac (f : Flw → Flw) : (s.modFlw f).mac = s.mac := rfl
@[simp] theorem modFlw_macx (f : Flw → Flw) : (s.modFlw f).macx = s.macx := rfl
@[simp] theorem modFlw_sec (f : Flw → Flw) : (s.modFlw f).sec = s.sec := rfl
@[simp] theorem modFlw_secx (f : Flw → Flw) : (s.modFlw f).secx = s.secx := rfl
@[simp] theorem modFlw_prf (f : Flw → Flw) : (s.modFlw f).prf = s.prf := rfl
@[simp] theorem modFlw_lnk (f : Flw → Flw) : (s.modFlw f).lnk = s.lnk := rfl
@[simp] theorem modFlw_fresh (f : Flw → Flw) : (s.modFlw f).fresh = s.fresh := rfl
@[simp] theorem modFlw_pending (f : Flw → Flw) : (s.modFlw f).pending = s.pending := rfl

@[simp] theorem modFlow_sys (n : Fin 3) (f : FlowLine → FlowLine) : (s.modFlow n f).sys = s.sys := rfl
@[simp] theorem modFlow_eng (n : Fin 3) (f : FlowLine → FlowLine) : (s.modFlow n f).eng = s.eng := rfl
@[simp] theorem modFlow_mem (n : Fin 3) (f : FlowLine → FlowLine) : (s.modFlow n f).mem = s.mem := rfl
@[simp] theorem modFlow_armed (n : Fin 3) (f : FlowLine → FlowLine) : (s.modFlow n f).armed = s.armed := rfl
@[simp] theorem modFlow_nrg (n : Fin 3) (f : FlowLine → FlowLine) : (s.modFlow n f).nrg = s.nrg := rfl
@[simp] theorem modFlow_nrgx (n : Fin 3) (f : FlowLine → FlowLine) : (s.modFlow n f).nrgx = s.nrgx := rfl
@[simp] theorem modFlow_drv (n : Fin 3) (f : FlowLine → FlowLine) : (s.modFlow n f).drv = s.drv := rfl
@[simp] theorem modFlow_flw (n : Fin 3) (f : FlowLine → FlowLine) : (s.modFlow n f).flw = { s.flw with line := s.flw.line.set n (f (s.flw.line.get n)) } := rfl
@[simp] theorem modFlow_prs (n : Fin 3) (f : FlowLine → FlowLine) : (s.modFlow n f).prs = s.prs := rfl
@[simp] theorem modFlow_tmp (n : Fin 3) (f : FlowLine → FlowLine) : (s.modFlow n f).tmp = s.tmp := rfl
@[simp] theorem modFlow_rad (n : Fin 3) (f : FlowLine → FlowLine) : (s.modFlow n f).rad = s.rad := rfl
@[simp] theorem modFlow_mac (n : Fin 3) (f : FlowLine → FlowLine) : (s.modFlow n f).mac = s.mac := rfl
@[simp] theorem modFlow_macx (n : Fin 3) (f : FlowLine → FlowLine) : (s.modFlow n f).macx = s.macx := rfl
@[simp] theorem modFlow_sec (n : Fin 3) (f : FlowLine → FlowLine) : (s.modFlow n f).sec = s.sec := rfl
@[simp] theorem modFlow_secx (n : Fin 3) (f : FlowLine → FlowLine) : (s.modFlow n f).secx = s.secx := rfl
@[simp] theorem modFlow_prf (n : Fin 3) (f : FlowLine → FlowLine) : (s.modFlow n f).prf = s.prf := rfl
@[simp] theorem modFlow_lnk (n : Fin 3) (f : FlowLine → FlowLine) : (s.modFlow n f).lnk = s.lnk := rfl
@[simp] theorem modFlow_fresh (n : Fin 3) (f : FlowLine → FlowLine) : (s.modFlow n f).fresh = s.fresh := rfl
@[simp] theorem modFlow_pending (n : Fin 3) (f : FlowLine → FlowLine) : (s.modFlow n f).pending = s.pending := rfl

@[simp] theorem modPrs_sys (f : Prs → Prs) : (s.modPrs f).sys = s.sys := rfl
@[simp] theorem modPrs_eng (f : Prs → Prs) : (s.modPrs f).eng = s.eng := rfl
@[simp] theorem modPrs_mem (f : Prs → Prs) : (s.modPrs f).mem = s.mem := rfl
@[simp] theorem modPrs_armed (f : Prs → Prs) : (s.modPrs f).armed = s.armed := rfl
@[simp] theorem modPrs_nrg (f : Prs → Prs) : (s.modPrs f).nrg = s.nrg := rfl
@[simp] theorem modPrs_nrgx (f : Prs → Prs) : (s.modPrs f).nrgx = s.nrgx := rfl
@[simp] theorem modPrs_drv (f : Prs → Prs) : (s.modPrs f).drv = s.drv := rfl
@[simp] theorem modPrs_flw (f : Prs → Prs) : (s.modPrs f).flw = s.flw := rfl
@[simp] theorem modPrs_prs (f : Prs → Prs) : (s.modPrs f).prs = f s.prs := rfl
@[simp] theorem modPrs_tmp (f : Prs → Prs) : (s.modPrs f).tmp = s.tmp := rfl
@[simp] theorem modPrs_rad (f : Prs → Prs) : (s.modPrs f).rad = s.rad := rfl
@[simp] theorem modPrs_mac (f : Prs → Prs) : (s.modPrs f).mac = s.mac := rfl
@[simp] theorem modPrs_macx (f : Prs → Prs) : (s.modPrs f).macx = s.macx := rfl
@[simp] theorem modPrs_sec (f : Prs → Prs) : (s.modPrs f).sec = s.sec := rfl
@[simp] theorem modPrs_secx (f : Prs → Prs) : (s.modPrs f).secx = s.secx := rfl
@[simp] theorem modPrs_prf (f : Prs → Prs) : (s.modPrs f).prf = s.prf := rfl
@[simp] theorem modPrs_lnk (f : Prs → Prs) : (s.modPrs f).lnk = s.lnk := rfl
@[simp] theorem modPrs_fresh (f : Prs → Prs) : (s.modPrs f).fresh = s.fresh := rfl
@[simp] theorem modPrs_pending (f : Prs → Prs) : (s.modPrs f).pending = s.pending := rfl

@[simp] theorem modLine_sys (n : Fin 3) (f : PrsLine → PrsLine) : (s.modLine n f).sys = s.sys := rfl
@[simp] theorem modLine_eng (n : Fin 3) (f : PrsLine → PrsLine) : (s.modLine n f).eng = s.eng := rfl
@[simp] theorem modLine_mem (n : Fin 3) (f : PrsLine → PrsLine) : (s.modLine n f).mem = s.mem := rfl
@[simp] theorem modLine_armed (n : Fin 3) (f : PrsLine → PrsLine) : (s.modLine n f).armed = s.armed := rfl
@[simp] theorem modLine_nrg (n : Fin 3) (f : PrsLine → PrsLine) : (s.modLine n f).nrg = s.nrg := rfl
@[simp] theorem modLine_nrgx (n : Fin 3) (f : PrsLine → PrsLine) : (s.modLine n f).nrgx = s.nrgx := rfl
@[simp] theorem modLine_drv (n : Fin 3) (f : PrsLine → PrsLine) : (s.modLine n f).drv = s.drv := rfl
@[simp] theorem modLine_flw (n : Fin 3) (f : PrsLine → PrsLine) : (s.modLine n f).flw = s.flw := rfl
@[simp] theorem modLine_prs (n : Fin 3) (f : PrsLine → PrsLine) : (s.modLine n f).prs = { s.prs with line := s.prs.line.set n (f (s.prs.line.get n)) } := rfl
@[simp] theorem modLine_tmp (n : Fin 3) (f : PrsLine → PrsLine) : (s.modLine n f).tmp = s.tmp := rfl
@[simp] theorem modLine_rad (n : Fin 3) (f : PrsLine → PrsLine) : (s.modLine n f).rad = s.rad := rfl
@[simp] theorem modLine_mac (n : Fin 3) (f : PrsLine → PrsLine) : (s.modLine n f).mac = s.mac := rfl
@[simp] theorem modLine_macx (n : Fin 3) (f : PrsLine → PrsLine) : (s.modLine n f).macx = s.macx := rfl
@[simp] theorem modLine_sec (n : Fin 3) (f : PrsLine → PrsLine) : (s.modLine n f).sec = s.sec := rfl
@[simp] theorem modLine_secx (n : Fin 3) (f : PrsLine → PrsLine) : (s.modLine n f).secx = s.secx := rfl
@[simp] theorem modLine_prf (n : Fin 3) (f : PrsLine → PrsLine) : (s.modLine n f).prf = s.prf := rfl
@[simp] theorem modLine_lnk (n : Fin 3) (f : PrsLine → PrsLine) : (s.modLine n f).lnk = s.lnk := rfl
@[simp] theorem modLine_fresh (n : Fin 3) (f : PrsLine → PrsLine) : (s.modLine n f).fresh = s.fresh := rfl
@[simp] theorem modLine_pending (n : Fin 3) (f : PrsLine → PrsLine) : (s.modLine n f).pending = s.pending := rfl

@[simp] theorem modCmp_sys (c : Fin 8) (f : Cmp → Cmp) : (s.modCmp c f).sys = s.sys := rfl
@[simp] theorem modCmp_eng (c : Fin 8) (f : Cmp → Cmp) : (s.modCmp c f).eng = s.eng := rfl
@[simp] theorem modCmp_mem (c : Fin 8) (f : Cmp → Cmp) : (s.modCmp c f).mem = s.mem := rfl
@[simp] theorem modCmp_armed (c : Fin 8) (f : Cmp → Cmp) : (s.modCmp c f).armed = s.armed := rfl
@[simp] theorem modCmp_nrg (c : Fin 8) (f : Cmp → Cmp) : (s.modCmp c f).nrg = s.nrg := rfl
@[simp] theorem modCmp_nrgx (c : Fin 8) (f : Cmp → Cmp) : (s.modCmp c f).nrgx = s.nrgx := rfl
@[simp] theorem modCmp_drv (c : Fin 8) (f : Cmp → Cmp) : (s.modCmp c f).drv = s.drv := rfl
@[simp] theorem modCmp_flw (c : Fin 8) (f : Cmp → Cmp) : (s.modCmp c f).flw = s.flw := rfl
@[simp] theorem modCmp_prs (c : Fin 8) (f : Cmp → Cmp) : (s.modCmp c f).prs = { s.prs with cmp := s.prs.cmp.set c (f (s.prs.cmp.get c)) } := rfl
@[simp] theorem modCmp_tmp (c : Fin 8) (f : Cmp → Cmp) : (s.modCmp c f).tmp = s.tmp := rfl
@[simp] theorem modCmp_rad (c : Fin 8) (f : Cmp → Cmp) : (s.modCmp c f).rad = s.rad := rfl
@[simp] theorem modCmp_mac (c : Fin 8) (f : Cmp → Cmp) : (s.modCmp c f).mac = s.mac := rfl
@[simp] theorem modCmp_macx (c : Fin 8) (f : Cmp → Cmp) : (s.modCmp c f).macx = s.macx := rfl
@[simp] theorem modCmp_sec (c : Fin 8) (f : Cmp → Cmp) : (s.modCmp c f).sec = s.sec := rfl
@[simp] theorem modCmp_secx (c : Fin 8) (f : Cmp → Cmp) : (s.modCmp c f).secx = s.secx := rfl
@[simp] theorem modCmp_prf (c : Fin 8) (f : Cmp → Cmp) : (s.modCmp c f).prf = s.prf := rfl
@[simp] theorem modCmp_lnk (c : Fin 8) (f : Cmp → Cmp) : (s.modCmp c f).lnk = s.lnk := rfl
@[simp] theorem modCmp_fresh (c : Fin 8) (f : Cmp → Cmp) : (s.modCmp c f).fresh = s.fresh := rfl
@[simp] theorem modCmp_pending (c : Fin 8) (f : Cmp → Cmp) : (s.modCmp c f).pending = s.pending := rfl

@[simp] theorem modTmp_sys (f : Tmp → Tmp) : (s.modTmp f).sys = s.sys := rfl
@[simp] theorem modTmp_eng (f : Tmp → Tmp) : (s.modTmp f).eng = s.eng := rfl
@[simp] theorem modTmp_mem (f : Tmp → Tmp) : (s.modTmp f).mem = s.mem := rfl
@[simp] theorem modTmp_armed (f : Tmp → Tmp) : (s.modTmp f).armed = s.armed := rfl
@[simp] theorem modTmp_nrg (f : Tmp → Tmp) : (s.modTmp f).nrg = s.nrg := rfl
@[simp] theorem modTmp_nrgx (f : Tmp → Tmp) : (s.modTmp f).nrgx = s.nrgx := rfl
@[simp] theorem modTmp_drv (f : Tmp → Tmp) : (s.modTmp f).drv = s.drv := rfl
@[simp] theorem modTmp_flw (f : Tmp → Tmp) : (s.modTmp f).flw = s.flw := rfl
@[simp] theorem modTmp_prs (f : Tmp → Tmp) : (s.modTmp f).prs = s.prs := rfl
@[simp] theorem modTmp_tmp (f : Tmp → Tmp) : (s.modTmp f).tmp = f s.tmp := rfl
@[simp] theorem modTmp_rad (f : Tmp → Tmp) : (s.modTmp f).rad = s.rad := rfl
@[simp] theorem modTmp_mac (f : Tmp → Tmp) : (s.modTmp f).mac = s.mac := rfl
@[simp] theorem modTmp_macx (f : Tmp → Tmp) : (s.modTmp f).macx = s.macx := rfl
@[simp] theorem modTmp_sec (f : Tmp → Tmp) : (s.modTmp f).sec = s.sec := rfl
@[simp] theorem modTmp_secx (f : Tmp → Tmp) : (s.modTmp f).secx = s.secx := rfl
@[simp] theorem modTmp_prf (f : Tmp → Tmp) : (s.modTmp f).prf = s.prf := rfl
@[simp] theorem modTmp_lnk (f : Tmp → Tmp) : (s.modTmp f).lnk = s.lnk := rfl
@[simp] theorem modTmp_fresh (f : Tmp → Tmp) : (s.modTmp f).fresh = s.fresh := rfl
@[simp] theorem modTmp_pending (f : Tmp → Tmp) : (s.modTmp f).pending = s.pending := rfl

@[simp] theorem modRad_sys (f : Rad → Rad) : (s.modRad f).sys = s.sys := rfl
@[simp] theorem modRad_eng (f : Rad → Rad) : (s.modRad f).eng = s.eng := rfl
@[simp] theorem modRad_mem (f : Rad → Rad) : (s.modRad f).mem = s.mem := rfl
@[simp] theorem modRad_armed (f : Rad → Rad) : (s.modRad f).armed = s.armed := rfl
@[simp] theorem modRad_nrg (f : Rad → Rad) : (s.modRad f).nrg = s.nrg := rfl
@[simp] theorem modRad_nrgx (f : Rad → Rad) : (s.modRad f).nrgx = s.nrgx := rfl
@[simp] theorem modRad_drv (f : Rad → Rad) : (s.modRad f).drv = s.drv := rfl
@[simp] theorem modRad_flw (f : Rad → Rad) : (s.modRad f).flw = s.flw := rfl
@[simp] theorem modRad_prs (f : Rad → Rad) : (s.modRad f).prs = s.prs := rfl
@[simp] theorem modRad_tmp (f : Rad → Rad) : (s.modRad f).tmp = s.tmp := rfl
@[simp] theorem modRad_rad (f : Rad → Rad) : (s.modRad f).rad = f s.rad := rfl
@[simp] theorem modRad_mac (f : Rad → Rad) : (s.modRad f).mac = s.mac := rfl
@[simp] theorem modRad_macx (f : Rad → Rad) : (s.modRad f).macx = s.macx := rfl
@[simp] theorem modRad_sec (f : Rad → Rad) : (s.modRad f).sec = s.sec := rfl
@[simp] theorem modRad_secx (f : Rad → Rad) : (s.modRad f).secx = s.secx := rfl
@[simp] theorem modRad_prf (f : Rad → Rad) : (s.modRad f).prf = s.prf := rfl
@[simp] theorem modRad_lnk (f : Rad → Rad) : (s.modRad f).lnk = s.lnk := rfl
@[simp] theorem modRad_fresh (f : Rad → Rad) : (s.modRad f).fresh = s.fresh := rfl
@[simp] theorem modRad_pending (f : Rad → Rad) : (s.modRad f).pending = s.pending := rfl

@[simp] theorem modMac_sys (f : Mac → Mac) : (s.modMac f).sys = s.sys := rfl
@[simp] theorem modMac_eng (f : Mac → Mac) : (s.modMac f).eng = s.eng := rfl
@[simp] theorem modMac_mem (f : Mac → Mac) : (s.modMac f).mem = s.mem := rfl
@[simp] theorem modMac_armed (f : Mac → Mac) : (s.modMac f).armed = s.armed := rfl
@[simp] theorem modMac_nrg (f : Mac → Mac) : (s.modMac f).nrg = s.nrg := rfl
@[simp] theorem modMac_nrgx (f : Mac → Mac) : (s.modMac f).nrgx = s.nrgx := rfl
@[simp] theorem modMac_drv (f : Mac → Mac) : (s.modMac f).drv = s.drv := rfl
@[simp] theorem modMac_flw (f : Mac → Mac) : (s.modMac f).flw = s.flw := rfl
@[simp] theorem modMac_prs (f : Mac → Mac) : (s.modMac f).prs = s.prs := rfl
@[simp] theorem modMac_tmp (f : Mac → Mac) : (s.modMac f).tmp = s.tmp := rfl
@[simp] theorem modMac_rad (f : Mac → Mac) : (s.modMac f).rad = s.rad := rfl
@[simp] theorem modMac_mac (f : Mac → Mac) : (s.modMac f).mac = f s.mac := rfl
@[simp] theorem modMac_macx (f : Mac → Mac) : (s.modMac f).macx = s.macx := rfl
@[simp] theorem modMac_sec (f : Mac → Mac) : (s.modMac f).sec = s.sec := rfl
@[simp] theorem modMac_secx (f : Mac → Mac) : (s.modMac f).secx = s.secx := rfl
@[simp] theorem modMac_prf (f : Mac → Mac) : (s.modMac f).prf = s.prf := rfl
@[simp] theorem modMac_lnk (f : Mac → Mac) : (s.modMac f).lnk = s.lnk := rfl
@[simp] theorem modMac_fresh (f : Mac → Mac) : (s.modMac f).fresh = s.fresh := rfl
@[simp] theorem modMac_pending (f : Mac → Mac) : (s.modMac f).pending = s.pending := rfl

@[simp] theorem modMacx_sys (f : MacAux → MacAux) : (s.modMacx f).sys = s.sys := rfl
@[simp] theorem modMacx_eng (f : MacAux → MacAux) : (s.modMacx f).eng = s.eng := rfl
@[simp] theorem modMacx_mem (f : MacAux → MacAux) : (s.modMacx f).mem = s.mem := rfl
@[simp] theorem modMacx_armed (f : MacAux → MacAux) : (s.modMacx f).armed = s.armed := rfl
@[simp] theorem modMacx_nrg (f : MacAux → MacAux) : (s.modMacx f).nrg = s.nrg := rfl
@[simp] theorem modMacx_nrgx (f : MacAux → MacAux) : (s.modMacx f).nrgx = s.nrgx := rfl
@[simp] theorem modMacx_drv (f : MacAux → MacAux) : (s.modMacx f).drv = s.drv := rfl
@[simp] theorem modMacx_flw (f : MacAux → MacAux) : (s.modMacx f).flw = s.flw := rfl
@[simp] theorem modMacx_prs (f : MacAux → MacAux) : (s.modMacx f).prs = s.prs := rfl
@[simp] theorem modMacx_tmp (f : MacAux → MacAux) : (s.modMacx f).tmp = s.tmp := rfl
@[simp] theorem modMacx_rad (f : MacAux → MacAux) : (s.modMacx f).rad = s.rad := rfl
@[simp] theorem modMacx_mac (f : MacAux → MacAux) : (s.modMacx f).mac = s.mac := rfl
@[simp] theorem modMacx_macx (f : MacAux → MacAux) : (s.modMacx f).macx = f s.macx := rfl
@[simp] theorem modMacx_sec (f : MacAux → MacAux) : (s.modMacx f).sec = s.sec := rfl
@[simp] theorem modMacx_secx (f : MacAux → MacAux) : (s.modMacx f).secx = s.secx := rfl
@[simp] theorem modMacx_prf (f : MacAux → MacAux) : (s.modMacx f).prf = s.prf := rfl
@[simp] theorem modMacx_lnk (f : MacAux → MacAux) : (s.modMacx f).lnk = s.lnk := rfl
@[simp] theorem modMacx_fresh (f : MacAux → MacAux) : (s.modMacx f).fresh = s.fresh := rfl
@[simp] theorem modMacx_pending (f : MacAux → MacAux) : (s.modMacx f).pending = s.pending := rfl

@[simp] theorem modLink_sys (l : Fin 16) (f : Link → Link) : (s.modLink l f).sys = s.sys := rfl
@[simp] theorem modLink_eng (l : Fin 16) (f : Link → Link) : (s.modLink l f).eng = s.eng := rfl
@[simp] theorem modLink_mem (l : Fin 16) (f : Link → Link) : (s.modLink l f).mem = s.mem := rfl
@[simp] theorem modLink_armed (l : Fin 16) (f : Link → Link) : (s.modLink l f).armed = s.armed := rfl
@[simp] theorem modLink_nrg (l : Fin 16) (f : Link → Link) : (s.modLink l f).nrg = s.nrg := rfl
@[simp] theorem modLink_nrgx (l : Fin 16) (f : Link → Link) : (s.modLink l f).nrgx = s.nrgx := rfl
@[simp] theorem modLink_drv (l : Fin 16) (f : Link → Link) : (s.modLink l f).drv = s.drv := rfl
@[simp] theorem modLink_flw (l : Fin 16) (f : Link → Link) : (s.modLink l f).flw = s.flw := rfl
@[simp] theorem modLink_prs (l : Fin 16) (f : Link → Link) : (s.modLink l f).prs = s.prs := rfl
@[simp] theorem modLink_tmp (l : Fin 16) (f : Link → Link) : (s.modLink l f).tmp = s.tmp := rfl
@[simp] theorem modLink_rad (l : Fin 16) (f : Link → Link) : (s.modLink l f).rad = s.rad := rfl
@[simp] theorem modLink_mac (l : Fin 16) (f : Link → Link) : (s.modLink l f).mac = { s.mac with links := s.mac.links.set l (f (s.mac.links.get l)) } := rfl
@[simp] theorem modLink_macx (l : Fin 16) (f : Link → Link) : (s.modLink l f).macx = s.macx := rfl
@[simp] theorem modLink_sec (l : Fin 16) (f : Link → Link) : (s.modLink l f).sec = s.sec := rfl
@[simp] theorem modLink_secx (l : Fin 16) (f : Link → Link) : (s.modLink l f).secx = s.secx := rfl
@[simp] theorem modLink_prf (l : Fin 16) (f : Link → Link) : (s.modLink l f).prf = s.prf := rfl
@[simp] theorem modLink_lnk (l : Fin 16) (f : Link → Link) : (s.modLink l f).lnk = s.lnk := rfl
@[simp] theorem modLink_fresh (l : Fin 16) (f : Link → Link) : (s.modLink l f).fresh = s.fresh := rfl
@[simp] theorem modLink_pending (l : Fin 16) (f : Link → Link) : (s.modLink l f).pending = s.pending := rfl

@[simp] theorem modNeigh_sys (n : BitVec 5) (f : Neigh → Neigh) : (s.modNeigh n f).sys = s.sys := rfl
@[simp] theorem modNeigh_eng (n : BitVec 5) (f : Neigh → Neigh) : (s.modNeigh n f).eng = s.eng := rfl
@[simp] theorem modNeigh_mem (n : BitVec 5) (f : Neigh → Neigh) : (s.modNeigh n f).mem = s.mem := rfl
@[simp] theorem modNeigh_armed (n : BitVec 5) (f : Neigh → Neigh) : (s.modNeigh n f).armed = s.armed := rfl
@[simp] theorem modNeigh_nrg (n : BitVec 5) (f : Neigh → Neigh) : (s.modNeigh n f).nrg = s.nrg := rfl
@[simp] theorem modNeigh_nrgx (n : BitVec 5) (f : Neigh → Neigh) : (s.modNeigh n f).nrgx = s.nrgx := rfl
@[simp] theorem modNeigh_drv (n : BitVec 5) (f : Neigh → Neigh) : (s.modNeigh n f).drv = s.drv := rfl
@[simp] theorem modNeigh_flw (n : BitVec 5) (f : Neigh → Neigh) : (s.modNeigh n f).flw = s.flw := rfl
@[simp] theorem modNeigh_prs (n : BitVec 5) (f : Neigh → Neigh) : (s.modNeigh n f).prs = s.prs := rfl
@[simp] theorem modNeigh_tmp (n : BitVec 5) (f : Neigh → Neigh) : (s.modNeigh n f).tmp = s.tmp := rfl
@[simp] theorem modNeigh_rad (n : BitVec 5) (f : Neigh → Neigh) : (s.modNeigh n f).rad = s.rad := rfl
@[simp] theorem modNeigh_mac (n : BitVec 5) (f : Neigh → Neigh) : (s.modNeigh n f).mac = { s.mac with neighs := s.mac.neighs.set n.toFin (f (s.mac.neighs.get n.toFin)) } := rfl
@[simp] theorem modNeigh_macx (n : BitVec 5) (f : Neigh → Neigh) : (s.modNeigh n f).macx = s.macx := rfl
@[simp] theorem modNeigh_sec (n : BitVec 5) (f : Neigh → Neigh) : (s.modNeigh n f).sec = s.sec := rfl
@[simp] theorem modNeigh_secx (n : BitVec 5) (f : Neigh → Neigh) : (s.modNeigh n f).secx = s.secx := rfl
@[simp] theorem modNeigh_prf (n : BitVec 5) (f : Neigh → Neigh) : (s.modNeigh n f).prf = s.prf := rfl
@[simp] theorem modNeigh_lnk (n : BitVec 5) (f : Neigh → Neigh) : (s.modNeigh n f).lnk = s.lnk := rfl
@[simp] theorem modNeigh_fresh (n : BitVec 5) (f : Neigh → Neigh) : (s.modNeigh n f).fresh = s.fresh := rfl
@[simp] theorem modNeigh_pending (n : BitVec 5) (f : Neigh → Neigh) : (s.modNeigh n f).pending = s.pending := rfl

@[simp] theorem modSec_sys (f : Sec → Sec) : (s.modSec f).sys = s.sys := rfl
@[simp] theorem modSec_eng (f : Sec → Sec) : (s.modSec f).eng = s.eng := rfl
@[simp] theorem modSec_mem (f : Sec → Sec) : (s.modSec f).mem = s.mem := rfl
@[simp] theorem modSec_armed (f : Sec → Sec) : (s.modSec f).armed = s.armed := rfl
@[simp] theorem modSec_nrg (f : Sec → Sec) : (s.modSec f).nrg = s.nrg := rfl
@[simp] theorem modSec_nrgx (f : Sec → Sec) : (s.modSec f).nrgx = s.nrgx := rfl
@[simp] theorem modSec_drv (f : Sec → Sec) : (s.modSec f).drv = s.drv := rfl
@[simp] theorem modSec_flw (f : Sec → Sec) : (s.modSec f).flw = s.flw := rfl
@[simp] theorem modSec_prs (f : Sec → Sec) : (s.modSec f).prs = s.prs := rfl
@[simp] theorem modSec_tmp (f : Sec → Sec) : (s.modSec f).tmp = s.tmp := rfl
@[simp] theorem modSec_rad (f : Sec → Sec) : (s.modSec f).rad = s.rad := rfl
@[simp] theorem modSec_mac (f : Sec → Sec) : (s.modSec f).mac = s.mac := rfl
@[simp] theorem modSec_macx (f : Sec → Sec) : (s.modSec f).macx = s.macx := rfl
@[simp] theorem modSec_sec (f : Sec → Sec) : (s.modSec f).sec = f s.sec := rfl
@[simp] theorem modSec_secx (f : Sec → Sec) : (s.modSec f).secx = s.secx := rfl
@[simp] theorem modSec_prf (f : Sec → Sec) : (s.modSec f).prf = s.prf := rfl
@[simp] theorem modSec_lnk (f : Sec → Sec) : (s.modSec f).lnk = s.lnk := rfl
@[simp] theorem modSec_fresh (f : Sec → Sec) : (s.modSec f).fresh = s.fresh := rfl
@[simp] theorem modSec_pending (f : Sec → Sec) : (s.modSec f).pending = s.pending := rfl

@[simp] theorem modSlot_sys (k : Fin 16) (f : KeySlot → KeySlot) : (s.modSlot k f).sys = s.sys := rfl
@[simp] theorem modSlot_eng (k : Fin 16) (f : KeySlot → KeySlot) : (s.modSlot k f).eng = s.eng := rfl
@[simp] theorem modSlot_mem (k : Fin 16) (f : KeySlot → KeySlot) : (s.modSlot k f).mem = s.mem := rfl
@[simp] theorem modSlot_armed (k : Fin 16) (f : KeySlot → KeySlot) : (s.modSlot k f).armed = s.armed := rfl
@[simp] theorem modSlot_nrg (k : Fin 16) (f : KeySlot → KeySlot) : (s.modSlot k f).nrg = s.nrg := rfl
@[simp] theorem modSlot_nrgx (k : Fin 16) (f : KeySlot → KeySlot) : (s.modSlot k f).nrgx = s.nrgx := rfl
@[simp] theorem modSlot_drv (k : Fin 16) (f : KeySlot → KeySlot) : (s.modSlot k f).drv = s.drv := rfl
@[simp] theorem modSlot_flw (k : Fin 16) (f : KeySlot → KeySlot) : (s.modSlot k f).flw = s.flw := rfl
@[simp] theorem modSlot_prs (k : Fin 16) (f : KeySlot → KeySlot) : (s.modSlot k f).prs = s.prs := rfl
@[simp] theorem modSlot_tmp (k : Fin 16) (f : KeySlot → KeySlot) : (s.modSlot k f).tmp = s.tmp := rfl
@[simp] theorem modSlot_rad (k : Fin 16) (f : KeySlot → KeySlot) : (s.modSlot k f).rad = s.rad := rfl
@[simp] theorem modSlot_mac (k : Fin 16) (f : KeySlot → KeySlot) : (s.modSlot k f).mac = s.mac := rfl
@[simp] theorem modSlot_macx (k : Fin 16) (f : KeySlot → KeySlot) : (s.modSlot k f).macx = s.macx := rfl
@[simp] theorem modSlot_sec (k : Fin 16) (f : KeySlot → KeySlot) : (s.modSlot k f).sec = { s.sec with slots := s.sec.slots.set k (f (s.sec.slots.get k)) } := rfl
@[simp] theorem modSlot_secx (k : Fin 16) (f : KeySlot → KeySlot) : (s.modSlot k f).secx = s.secx := rfl
@[simp] theorem modSlot_prf (k : Fin 16) (f : KeySlot → KeySlot) : (s.modSlot k f).prf = s.prf := rfl
@[simp] theorem modSlot_lnk (k : Fin 16) (f : KeySlot → KeySlot) : (s.modSlot k f).lnk = s.lnk := rfl
@[simp] theorem modSlot_fresh (k : Fin 16) (f : KeySlot → KeySlot) : (s.modSlot k f).fresh = s.fresh := rfl
@[simp] theorem modSlot_pending (k : Fin 16) (f : KeySlot → KeySlot) : (s.modSlot k f).pending = s.pending := rfl

@[simp] theorem modSecx_sys (f : SecAux → SecAux) : (s.modSecx f).sys = s.sys := rfl
@[simp] theorem modSecx_eng (f : SecAux → SecAux) : (s.modSecx f).eng = s.eng := rfl
@[simp] theorem modSecx_mem (f : SecAux → SecAux) : (s.modSecx f).mem = s.mem := rfl
@[simp] theorem modSecx_armed (f : SecAux → SecAux) : (s.modSecx f).armed = s.armed := rfl
@[simp] theorem modSecx_nrg (f : SecAux → SecAux) : (s.modSecx f).nrg = s.nrg := rfl
@[simp] theorem modSecx_nrgx (f : SecAux → SecAux) : (s.modSecx f).nrgx = s.nrgx := rfl
@[simp] theorem modSecx_drv (f : SecAux → SecAux) : (s.modSecx f).drv = s.drv := rfl
@[simp] theorem modSecx_flw (f : SecAux → SecAux) : (s.modSecx f).flw = s.flw := rfl
@[simp] theorem modSecx_prs (f : SecAux → SecAux) : (s.modSecx f).prs = s.prs := rfl
@[simp] theorem modSecx_tmp (f : SecAux → SecAux) : (s.modSecx f).tmp = s.tmp := rfl
@[simp] theorem modSecx_rad (f : SecAux → SecAux) : (s.modSecx f).rad = s.rad := rfl
@[simp] theorem modSecx_mac (f : SecAux → SecAux) : (s.modSecx f).mac = s.mac := rfl
@[simp] theorem modSecx_macx (f : SecAux → SecAux) : (s.modSecx f).macx = s.macx := rfl
@[simp] theorem modSecx_sec (f : SecAux → SecAux) : (s.modSecx f).sec = s.sec := rfl
@[simp] theorem modSecx_secx (f : SecAux → SecAux) : (s.modSecx f).secx = f s.secx := rfl
@[simp] theorem modSecx_prf (f : SecAux → SecAux) : (s.modSecx f).prf = s.prf := rfl
@[simp] theorem modSecx_lnk (f : SecAux → SecAux) : (s.modSecx f).lnk = s.lnk := rfl
@[simp] theorem modSecx_fresh (f : SecAux → SecAux) : (s.modSecx f).fresh = s.fresh := rfl
@[simp] theorem modSecx_pending (f : SecAux → SecAux) : (s.modSecx f).pending = s.pending := rfl

@[simp] theorem modPrf_sys (f : Prf → Prf) : (s.modPrf f).sys = s.sys := rfl
@[simp] theorem modPrf_eng (f : Prf → Prf) : (s.modPrf f).eng = s.eng := rfl
@[simp] theorem modPrf_mem (f : Prf → Prf) : (s.modPrf f).mem = s.mem := rfl
@[simp] theorem modPrf_armed (f : Prf → Prf) : (s.modPrf f).armed = s.armed := rfl
@[simp] theorem modPrf_nrg (f : Prf → Prf) : (s.modPrf f).nrg = s.nrg := rfl
@[simp] theorem modPrf_nrgx (f : Prf → Prf) : (s.modPrf f).nrgx = s.nrgx := rfl
@[simp] theorem modPrf_drv (f : Prf → Prf) : (s.modPrf f).drv = s.drv := rfl
@[simp] theorem modPrf_flw (f : Prf → Prf) : (s.modPrf f).flw = s.flw := rfl
@[simp] theorem modPrf_prs (f : Prf → Prf) : (s.modPrf f).prs = s.prs := rfl
@[simp] theorem modPrf_tmp (f : Prf → Prf) : (s.modPrf f).tmp = s.tmp := rfl
@[simp] theorem modPrf_rad (f : Prf → Prf) : (s.modPrf f).rad = s.rad := rfl
@[simp] theorem modPrf_mac (f : Prf → Prf) : (s.modPrf f).mac = s.mac := rfl
@[simp] theorem modPrf_macx (f : Prf → Prf) : (s.modPrf f).macx = s.macx := rfl
@[simp] theorem modPrf_sec (f : Prf → Prf) : (s.modPrf f).sec = s.sec := rfl
@[simp] theorem modPrf_secx (f : Prf → Prf) : (s.modPrf f).secx = s.secx := rfl
@[simp] theorem modPrf_prf (f : Prf → Prf) : (s.modPrf f).prf = f s.prf := rfl
@[simp] theorem modPrf_lnk (f : Prf → Prf) : (s.modPrf f).lnk = s.lnk := rfl
@[simp] theorem modPrf_fresh (f : Prf → Prf) : (s.modPrf f).fresh = s.fresh := rfl
@[simp] theorem modPrf_pending (f : Prf → Prf) : (s.modPrf f).pending = s.pending := rfl

@[simp] theorem modLnk_sys (f : Lnk → Lnk) : (s.modLnk f).sys = s.sys := rfl
@[simp] theorem modLnk_eng (f : Lnk → Lnk) : (s.modLnk f).eng = s.eng := rfl
@[simp] theorem modLnk_mem (f : Lnk → Lnk) : (s.modLnk f).mem = s.mem := rfl
@[simp] theorem modLnk_armed (f : Lnk → Lnk) : (s.modLnk f).armed = s.armed := rfl
@[simp] theorem modLnk_nrg (f : Lnk → Lnk) : (s.modLnk f).nrg = s.nrg := rfl
@[simp] theorem modLnk_nrgx (f : Lnk → Lnk) : (s.modLnk f).nrgx = s.nrgx := rfl
@[simp] theorem modLnk_drv (f : Lnk → Lnk) : (s.modLnk f).drv = s.drv := rfl
@[simp] theorem modLnk_flw (f : Lnk → Lnk) : (s.modLnk f).flw = s.flw := rfl
@[simp] theorem modLnk_prs (f : Lnk → Lnk) : (s.modLnk f).prs = s.prs := rfl
@[simp] theorem modLnk_tmp (f : Lnk → Lnk) : (s.modLnk f).tmp = s.tmp := rfl
@[simp] theorem modLnk_rad (f : Lnk → Lnk) : (s.modLnk f).rad = s.rad := rfl
@[simp] theorem modLnk_mac (f : Lnk → Lnk) : (s.modLnk f).mac = s.mac := rfl
@[simp] theorem modLnk_macx (f : Lnk → Lnk) : (s.modLnk f).macx = s.macx := rfl
@[simp] theorem modLnk_sec (f : Lnk → Lnk) : (s.modLnk f).sec = s.sec := rfl
@[simp] theorem modLnk_secx (f : Lnk → Lnk) : (s.modLnk f).secx = s.secx := rfl
@[simp] theorem modLnk_prf (f : Lnk → Lnk) : (s.modLnk f).prf = s.prf := rfl
@[simp] theorem modLnk_lnk (f : Lnk → Lnk) : (s.modLnk f).lnk = f s.lnk := rfl
@[simp] theorem modLnk_fresh (f : Lnk → Lnk) : (s.modLnk f).fresh = s.fresh := rfl
@[simp] theorem modLnk_pending (f : Lnk → Lnk) : (s.modLnk f).pending = s.pending := rfl

@[simp] theorem setSh_sys (i : Fin 4) (x : Shuttle) : (s.setSh i x).sys = s.sys := rfl
@[simp] theorem setSh_eng (i : Fin 4) (x : Shuttle) : (s.setSh i x).eng = { s.eng with sh := s.eng.sh.set i x } := rfl
@[simp] theorem setSh_mem (i : Fin 4) (x : Shuttle) : (s.setSh i x).mem = s.mem := rfl
@[simp] theorem setSh_armed (i : Fin 4) (x : Shuttle) : (s.setSh i x).armed = s.armed := rfl
@[simp] theorem setSh_nrg (i : Fin 4) (x : Shuttle) : (s.setSh i x).nrg = s.nrg := rfl
@[simp] theorem setSh_nrgx (i : Fin 4) (x : Shuttle) : (s.setSh i x).nrgx = s.nrgx := rfl
@[simp] theorem setSh_drv (i : Fin 4) (x : Shuttle) : (s.setSh i x).drv = s.drv := rfl
@[simp] theorem setSh_flw (i : Fin 4) (x : Shuttle) : (s.setSh i x).flw = s.flw := rfl
@[simp] theorem setSh_prs (i : Fin 4) (x : Shuttle) : (s.setSh i x).prs = s.prs := rfl
@[simp] theorem setSh_tmp (i : Fin 4) (x : Shuttle) : (s.setSh i x).tmp = s.tmp := rfl
@[simp] theorem setSh_rad (i : Fin 4) (x : Shuttle) : (s.setSh i x).rad = s.rad := rfl
@[simp] theorem setSh_mac (i : Fin 4) (x : Shuttle) : (s.setSh i x).mac = s.mac := rfl
@[simp] theorem setSh_macx (i : Fin 4) (x : Shuttle) : (s.setSh i x).macx = s.macx := rfl
@[simp] theorem setSh_sec (i : Fin 4) (x : Shuttle) : (s.setSh i x).sec = s.sec := rfl
@[simp] theorem setSh_secx (i : Fin 4) (x : Shuttle) : (s.setSh i x).secx = s.secx := rfl
@[simp] theorem setSh_prf (i : Fin 4) (x : Shuttle) : (s.setSh i x).prf = s.prf := rfl
@[simp] theorem setSh_lnk (i : Fin 4) (x : Shuttle) : (s.setSh i x).lnk = s.lnk := rfl
@[simp] theorem setSh_fresh (i : Fin 4) (x : Shuttle) : (s.setSh i x).fresh = s.fresh := rfl
@[simp] theorem setSh_pending (i : Fin 4) (x : Shuttle) : (s.setSh i x).pending = s.pending := rfl

@[simp] theorem modSh_sys (i : Fin 4) (f : Shuttle → Shuttle) : (s.modSh i f).sys = s.sys := rfl
@[simp] theorem modSh_mem (i : Fin 4) (f : Shuttle → Shuttle) : (s.modSh i f).mem = s.mem := rfl
@[simp] theorem modSh_armed (i : Fin 4) (f : Shuttle → Shuttle) : (s.modSh i f).armed = s.armed := rfl
@[simp] theorem modSh_nrg (i : Fin 4) (f : Shuttle → Shuttle) : (s.modSh i f).nrg = s.nrg := rfl
@[simp] theorem modSh_nrgx (i : Fin 4) (f : Shuttle → Shuttle) : (s.modSh i f).nrgx = s.nrgx := rfl
@[simp] theorem modSh_drv (i : Fin 4) (f : Shuttle → Shuttle) : (s.modSh i f).drv = s.drv := rfl
@[simp] theorem modSh_flw (i : Fin 4) (f : Shuttle → Shuttle) : (s.modSh i f).flw = s.flw := rfl
@[simp] theorem modSh_prs (i : Fin 4) (f : Shuttle → Shuttle) : (s.modSh i f).prs = s.prs := rfl
@[simp] theorem modSh_tmp (i : Fin 4) (f : Shuttle → Shuttle) : (s.modSh i f).tmp = s.tmp := rfl
@[simp] theorem modSh_rad (i : Fin 4) (f : Shuttle → Shuttle) : (s.modSh i f).rad = s.rad := rfl
@[simp] theorem modSh_mac (i : Fin 4) (f : Shuttle → Shuttle) : (s.modSh i f).mac = s.mac := rfl
@[simp] theorem modSh_macx (i : Fin 4) (f : Shuttle → Shuttle) : (s.modSh i f).macx = s.macx := rfl
@[simp] theorem modSh_sec (i : Fin 4) (f : Shuttle → Shuttle) : (s.modSh i f).sec = s.sec := rfl
@[simp] theorem modSh_secx (i : Fin 4) (f : Shuttle → Shuttle) : (s.modSh i f).secx = s.secx := rfl
@[simp] theorem modSh_prf (i : Fin 4) (f : Shuttle → Shuttle) : (s.modSh i f).prf = s.prf := rfl
@[simp] theorem modSh_lnk (i : Fin 4) (f : Shuttle → Shuttle) : (s.modSh i f).lnk = s.lnk := rfl
@[simp] theorem modSh_fresh (i : Fin 4) (f : Shuttle → Shuttle) : (s.modSh i f).fresh = s.fresh := rfl
@[simp] theorem modSh_pending (i : Fin 4) (f : Shuttle → Shuttle) : (s.modSh i f).pending = s.pending := rfl

@[simp] theorem allSh_sys (f : Shuttle → Shuttle) : (s.allSh f).sys = s.sys := rfl
@[simp] theorem allSh_mem (f : Shuttle → Shuttle) : (s.allSh f).mem = s.mem := rfl
@[simp] theorem allSh_armed (f : Shuttle → Shuttle) : (s.allSh f).armed = s.armed := rfl
@[simp] theorem allSh_nrg (f : Shuttle → Shuttle) : (s.allSh f).nrg = s.nrg := rfl
@[simp] theorem allSh_nrgx (f : Shuttle → Shuttle) : (s.allSh f).nrgx = s.nrgx := rfl
@[simp] theorem allSh_drv (f : Shuttle → Shuttle) : (s.allSh f).drv = s.drv := rfl
@[simp] theorem allSh_flw (f : Shuttle → Shuttle) : (s.allSh f).flw = s.flw := rfl
@[simp] theorem allSh_prs (f : Shuttle → Shuttle) : (s.allSh f).prs = s.prs := rfl
@[simp] theorem allSh_tmp (f : Shuttle → Shuttle) : (s.allSh f).tmp = s.tmp := rfl
@[simp] theorem allSh_rad (f : Shuttle → Shuttle) : (s.allSh f).rad = s.rad := rfl
@[simp] theorem allSh_mac (f : Shuttle → Shuttle) : (s.allSh f).mac = s.mac := rfl
@[simp] theorem allSh_macx (f : Shuttle → Shuttle) : (s.allSh f).macx = s.macx := rfl
@[simp] theorem allSh_sec (f : Shuttle → Shuttle) : (s.allSh f).sec = s.sec := rfl
@[simp] theorem allSh_secx (f : Shuttle → Shuttle) : (s.allSh f).secx = s.secx := rfl
@[simp] theorem allSh_prf (f : Shuttle → Shuttle) : (s.allSh f).prf = s.prf := rfl
@[simp] theorem allSh_lnk (f : Shuttle → Shuttle) : (s.allSh f).lnk = s.lnk := rfl
@[simp] theorem allSh_fresh (f : Shuttle → Shuttle) : (s.allSh f).fresh = s.fresh := rfl
@[simp] theorem allSh_pending (f : Shuttle → Shuttle) : (s.allSh f).pending = s.pending := rfl

@[simp] theorem setReg_sys (i : Fin 4) (r : Fin 16) (v : Word) : (s.setReg i r v).sys = s.sys := rfl
@[simp] theorem setReg_mem (i : Fin 4) (r : Fin 16) (v : Word) : (s.setReg i r v).mem = s.mem := rfl
@[simp] theorem setReg_armed (i : Fin 4) (r : Fin 16) (v : Word) : (s.setReg i r v).armed = s.armed := rfl
@[simp] theorem setReg_nrg (i : Fin 4) (r : Fin 16) (v : Word) : (s.setReg i r v).nrg = s.nrg := rfl
@[simp] theorem setReg_nrgx (i : Fin 4) (r : Fin 16) (v : Word) : (s.setReg i r v).nrgx = s.nrgx := rfl
@[simp] theorem setReg_drv (i : Fin 4) (r : Fin 16) (v : Word) : (s.setReg i r v).drv = s.drv := rfl
@[simp] theorem setReg_flw (i : Fin 4) (r : Fin 16) (v : Word) : (s.setReg i r v).flw = s.flw := rfl
@[simp] theorem setReg_prs (i : Fin 4) (r : Fin 16) (v : Word) : (s.setReg i r v).prs = s.prs := rfl
@[simp] theorem setReg_tmp (i : Fin 4) (r : Fin 16) (v : Word) : (s.setReg i r v).tmp = s.tmp := rfl
@[simp] theorem setReg_rad (i : Fin 4) (r : Fin 16) (v : Word) : (s.setReg i r v).rad = s.rad := rfl
@[simp] theorem setReg_mac (i : Fin 4) (r : Fin 16) (v : Word) : (s.setReg i r v).mac = s.mac := rfl
@[simp] theorem setReg_macx (i : Fin 4) (r : Fin 16) (v : Word) : (s.setReg i r v).macx = s.macx := rfl
@[simp] theorem setReg_sec (i : Fin 4) (r : Fin 16) (v : Word) : (s.setReg i r v).sec = s.sec := rfl
@[simp] theorem setReg_secx (i : Fin 4) (r : Fin 16) (v : Word) : (s.setReg i r v).secx = s.secx := rfl
@[simp] theorem setReg_prf (i : Fin 4) (r : Fin 16) (v : Word) : (s.setReg i r v).prf = s.prf := rfl
@[simp] theorem setReg_lnk (i : Fin 4) (r : Fin 16) (v : Word) : (s.setReg i r v).lnk = s.lnk := rfl
@[simp] theorem setReg_fresh (i : Fin 4) (r : Fin 16) (v : Word) : (s.setReg i r v).fresh = s.fresh := rfl
@[simp] theorem setReg_pending (i : Fin 4) (r : Fin 16) (v : Word) : (s.setReg i r v).pending = s.pending := rfl

@[simp] theorem freeze_sys : (s.freeze).sys = s.sys := rfl
@[simp] theorem freeze_eng : (s.freeze).eng = s.eng := rfl
@[simp] theorem freeze_mem : (s.freeze).mem = s.mem := rfl
@[simp] theorem freeze_armed : (s.freeze).armed = s.armed := rfl
@[simp] theorem freeze_nrg : (s.freeze).nrg = s.nrg := rfl
@[simp] theorem freeze_nrgx : (s.freeze).nrgx = s.nrgx := rfl
@[simp] theorem freeze_drv : (s.freeze).drv = s.drv := rfl
@[simp] theorem freeze_flw : (s.freeze).flw = s.flw := rfl
@[simp] theorem freeze_prs : (s.freeze).prs = s.prs := rfl
@[simp] theorem freeze_tmp : (s.freeze).tmp = s.tmp := rfl
@[simp] theorem freeze_rad : (s.freeze).rad = s.rad := rfl
@[simp] theorem freeze_mac : (s.freeze).mac = s.mac := rfl
@[simp] theorem freeze_macx : (s.freeze).macx = s.macx := rfl
@[simp] theorem freeze_sec : (s.freeze).sec = s.sec := rfl
@[simp] theorem freeze_secx : (s.freeze).secx = s.secx := rfl
@[simp] theorem freeze_prf : (s.freeze).prf = { s.prf with frozen := true } := rfl
@[simp] theorem freeze_lnk : (s.freeze).lnk = s.lnk := rfl
@[simp] theorem freeze_fresh : (s.freeze).fresh = s.fresh := rfl
@[simp] theorem freeze_pending : (s.freeze).pending = s.pending := rfl

@[simp] theorem pendEvent_sys (e : Nat) : (s.pendEvent e).sys = s.sys := rfl
@[simp] theorem pendEvent_mem (e : Nat) : (s.pendEvent e).mem = s.mem := rfl
@[simp] theorem pendEvent_armed (e : Nat) : (s.pendEvent e).armed = s.armed := rfl
@[simp] theorem pendEvent_nrg (e : Nat) : (s.pendEvent e).nrg = s.nrg := rfl
@[simp] theorem pendEvent_nrgx (e : Nat) : (s.pendEvent e).nrgx = s.nrgx := rfl
@[simp] theorem pendEvent_drv (e : Nat) : (s.pendEvent e).drv = s.drv := rfl
@[simp] theorem pendEvent_flw (e : Nat) : (s.pendEvent e).flw = s.flw := rfl
@[simp] theorem pendEvent_prs (e : Nat) : (s.pendEvent e).prs = s.prs := rfl
@[simp] theorem pendEvent_tmp (e : Nat) : (s.pendEvent e).tmp = s.tmp := rfl
@[simp] theorem pendEvent_rad (e : Nat) : (s.pendEvent e).rad = s.rad := rfl
@[simp] theorem pendEvent_mac (e : Nat) : (s.pendEvent e).mac = s.mac := rfl
@[simp] theorem pendEvent_macx (e : Nat) : (s.pendEvent e).macx = s.macx := rfl
@[simp] theorem pendEvent_sec (e : Nat) : (s.pendEvent e).sec = s.sec := rfl
@[simp] theorem pendEvent_secx (e : Nat) : (s.pendEvent e).secx = s.secx := rfl
@[simp] theorem pendEvent_prf (e : Nat) : (s.pendEvent e).prf = s.prf := rfl
@[simp] theorem pendEvent_lnk (e : Nat) : (s.pendEvent e).lnk = s.lnk := rfl
@[simp] theorem pendEvent_fresh (e : Nat) : (s.pendEvent e).fresh = s.fresh := rfl
@[simp] theorem pendEvent_pending (e : Nat) : (s.pendEvent e).pending = s.pending := rfl

@[simp] theorem modSh_cyc (i : Fin 4) (f : Shuttle → Shuttle) : (s.modSh i f).eng.cyc = s.eng.cyc := rfl
@[simp] theorem modSh_vecbase (i : Fin 4) (f : Shuttle → Shuttle) : (s.modSh i f).eng.vecbase = s.eng.vecbase := rfl
@[simp] theorem modSh_stopped (i : Fin 4) (f : Shuttle → Shuttle) : (s.modSh i f).eng.stopped = s.eng.stopped := rfl
@[simp] theorem modSh_mpu (i : Fin 4) (f : Shuttle → Shuttle) : (s.modSh i f).eng.mpu = s.eng.mpu := rfl
@[simp] theorem modSh_mpuctl (i : Fin 4) (f : Shuttle → Shuttle) : (s.modSh i f).eng.mpuctl = s.eng.mpuctl := rfl

/-! ## Counting and events -/

theorem gather_quiet (isl : GatherIsland) : Quiet s (s.gather isl) :=
  quiet_foldl _ (fun _ _ => quiet_ite (transfer_quiet _ _) (Quiet.refl _)) _ _


@[simp] theorem count_sys (ev : Nat) (sh : Option (Fin 4)) (m : Counted) (k : Nat) : (s.count ev sh m k).sys = s.sys := by
  obtain ⟨n, -, e⟩ := count_quiet s ev sh m k
  rw [e]; rfl
@[simp] theorem count_mem (ev : Nat) (sh : Option (Fin 4)) (m : Counted) (k : Nat) : (s.count ev sh m k).mem = s.mem := by
  obtain ⟨n, -, e⟩ := count_quiet s ev sh m k
  rw [e]; rfl
@[simp] theorem count_armed (ev : Nat) (sh : Option (Fin 4)) (m : Counted) (k : Nat) : (s.count ev sh m k).armed = s.armed := by
  obtain ⟨n, -, e⟩ := count_quiet s ev sh m k
  rw [e]; rfl
@[simp] theorem count_nrg (ev : Nat) (sh : Option (Fin 4)) (m : Counted) (k : Nat) : (s.count ev sh m k).nrg = s.nrg := by
  obtain ⟨n, -, e⟩ := count_quiet s ev sh m k
  rw [e]; rfl
@[simp] theorem count_nrgx (ev : Nat) (sh : Option (Fin 4)) (m : Counted) (k : Nat) : (s.count ev sh m k).nrgx = s.nrgx := by
  obtain ⟨n, -, e⟩ := count_quiet s ev sh m k
  rw [e]; rfl
@[simp] theorem count_drv (ev : Nat) (sh : Option (Fin 4)) (m : Counted) (k : Nat) : (s.count ev sh m k).drv = s.drv := by
  obtain ⟨n, -, e⟩ := count_quiet s ev sh m k
  rw [e]; rfl
@[simp] theorem count_flw (ev : Nat) (sh : Option (Fin 4)) (m : Counted) (k : Nat) : (s.count ev sh m k).flw = s.flw := by
  obtain ⟨n, -, e⟩ := count_quiet s ev sh m k
  rw [e]; rfl
@[simp] theorem count_prs (ev : Nat) (sh : Option (Fin 4)) (m : Counted) (k : Nat) : (s.count ev sh m k).prs = s.prs := by
  obtain ⟨n, -, e⟩ := count_quiet s ev sh m k
  rw [e]; rfl
@[simp] theorem count_tmp (ev : Nat) (sh : Option (Fin 4)) (m : Counted) (k : Nat) : (s.count ev sh m k).tmp = s.tmp := by
  obtain ⟨n, -, e⟩ := count_quiet s ev sh m k
  rw [e]; rfl
@[simp] theorem count_rad (ev : Nat) (sh : Option (Fin 4)) (m : Counted) (k : Nat) : (s.count ev sh m k).rad = s.rad := by
  obtain ⟨n, -, e⟩ := count_quiet s ev sh m k
  rw [e]; rfl
@[simp] theorem count_mac (ev : Nat) (sh : Option (Fin 4)) (m : Counted) (k : Nat) : (s.count ev sh m k).mac = s.mac := by
  obtain ⟨n, -, e⟩ := count_quiet s ev sh m k
  rw [e]; rfl
@[simp] theorem count_macx (ev : Nat) (sh : Option (Fin 4)) (m : Counted) (k : Nat) : (s.count ev sh m k).macx = s.macx := by
  obtain ⟨n, -, e⟩ := count_quiet s ev sh m k
  rw [e]; rfl
@[simp] theorem count_sec (ev : Nat) (sh : Option (Fin 4)) (m : Counted) (k : Nat) : (s.count ev sh m k).sec = s.sec := by
  obtain ⟨n, -, e⟩ := count_quiet s ev sh m k
  rw [e]; rfl
@[simp] theorem count_secx (ev : Nat) (sh : Option (Fin 4)) (m : Counted) (k : Nat) : (s.count ev sh m k).secx = s.secx := by
  obtain ⟨n, -, e⟩ := count_quiet s ev sh m k
  rw [e]; rfl
@[simp] theorem count_lnk (ev : Nat) (sh : Option (Fin 4)) (m : Counted) (k : Nat) : (s.count ev sh m k).lnk = s.lnk := by
  obtain ⟨n, -, e⟩ := count_quiet s ev sh m k
  rw [e]; rfl
@[simp] theorem count_fresh (ev : Nat) (sh : Option (Fin 4)) (m : Counted) (k : Nat) : (s.count ev sh m k).fresh = s.fresh := by
  obtain ⟨n, -, e⟩ := count_quiet s ev sh m k
  rw [e]; rfl
@[simp] theorem count_pending (ev : Nat) (sh : Option (Fin 4)) (m : Counted) (k : Nat) : (s.count ev sh m k).pending = s.pending := by
  obtain ⟨n, -, e⟩ := count_quiet s ev sh m k
  rw [e]; rfl

@[simp] theorem occur_sys (ev : Nat) : (s.occur ev).sys = s.sys := by
  obtain ⟨n, -, e⟩ := occur_quiet s ev
  rw [e]; rfl
@[simp] theorem occur_mem (ev : Nat) : (s.occur ev).mem = s.mem := by
  obtain ⟨n, -, e⟩ := occur_quiet s ev
  rw [e]; rfl
@[simp] theorem occur_armed (ev : Nat) : (s.occur ev).armed = s.armed := by
  obtain ⟨n, -, e⟩ := occur_quiet s ev
  rw [e]; rfl
@[simp] theorem occur_nrg (ev : Nat) : (s.occur ev).nrg = s.nrg := by
  obtain ⟨n, -, e⟩ := occur_quiet s ev
  rw [e]; rfl
@[simp] theorem occur_nrgx (ev : Nat) : (s.occur ev).nrgx = s.nrgx := by
  obtain ⟨n, -, e⟩ := occur_quiet s ev
  rw [e]; rfl
@[simp] theorem occur_drv (ev : Nat) : (s.occur ev).drv = s.drv := by
  obtain ⟨n, -, e⟩ := occur_quiet s ev
  rw [e]; rfl
@[simp] theorem occur_flw (ev : Nat) : (s.occur ev).flw = s.flw := by
  obtain ⟨n, -, e⟩ := occur_quiet s ev
  rw [e]; rfl
@[simp] theorem occur_prs (ev : Nat) : (s.occur ev).prs = s.prs := by
  obtain ⟨n, -, e⟩ := occur_quiet s ev
  rw [e]; rfl
@[simp] theorem occur_tmp (ev : Nat) : (s.occur ev).tmp = s.tmp := by
  obtain ⟨n, -, e⟩ := occur_quiet s ev
  rw [e]; rfl
@[simp] theorem occur_rad (ev : Nat) : (s.occur ev).rad = s.rad := by
  obtain ⟨n, -, e⟩ := occur_quiet s ev
  rw [e]; rfl
@[simp] theorem occur_mac (ev : Nat) : (s.occur ev).mac = s.mac := by
  obtain ⟨n, -, e⟩ := occur_quiet s ev
  rw [e]; rfl
@[simp] theorem occur_macx (ev : Nat) : (s.occur ev).macx = s.macx := by
  obtain ⟨n, -, e⟩ := occur_quiet s ev
  rw [e]; rfl
@[simp] theorem occur_sec (ev : Nat) : (s.occur ev).sec = s.sec := by
  obtain ⟨n, -, e⟩ := occur_quiet s ev
  rw [e]; rfl
@[simp] theorem occur_secx (ev : Nat) : (s.occur ev).secx = s.secx := by
  obtain ⟨n, -, e⟩ := occur_quiet s ev
  rw [e]; rfl
@[simp] theorem occur_lnk (ev : Nat) : (s.occur ev).lnk = s.lnk := by
  obtain ⟨n, -, e⟩ := occur_quiet s ev
  rw [e]; rfl
@[simp] theorem occur_fresh (ev : Nat) : (s.occur ev).fresh = s.fresh := by
  obtain ⟨n, -, e⟩ := occur_quiet s ev
  rw [e]; rfl
@[simp] theorem occur_pending (ev : Nat) : (s.occur ev).pending = s.pending := by
  obtain ⟨n, -, e⟩ := occur_quiet s ev
  rw [e]; rfl

@[simp] theorem entered_sys (ev : Nat) (sh : Option (Fin 4)) (a b : Bool) : (s.entered ev sh a b).sys = s.sys := by
  obtain ⟨n, -, e⟩ := entered_quiet s ev sh a b
  rw [e]; rfl
@[simp] theorem entered_mem (ev : Nat) (sh : Option (Fin 4)) (a b : Bool) : (s.entered ev sh a b).mem = s.mem := by
  obtain ⟨n, -, e⟩ := entered_quiet s ev sh a b
  rw [e]; rfl
@[simp] theorem entered_armed (ev : Nat) (sh : Option (Fin 4)) (a b : Bool) : (s.entered ev sh a b).armed = s.armed := by
  obtain ⟨n, -, e⟩ := entered_quiet s ev sh a b
  rw [e]; rfl
@[simp] theorem entered_nrg (ev : Nat) (sh : Option (Fin 4)) (a b : Bool) : (s.entered ev sh a b).nrg = s.nrg := by
  obtain ⟨n, -, e⟩ := entered_quiet s ev sh a b
  rw [e]; rfl
@[simp] theorem entered_nrgx (ev : Nat) (sh : Option (Fin 4)) (a b : Bool) : (s.entered ev sh a b).nrgx = s.nrgx := by
  obtain ⟨n, -, e⟩ := entered_quiet s ev sh a b
  rw [e]; rfl
@[simp] theorem entered_drv (ev : Nat) (sh : Option (Fin 4)) (a b : Bool) : (s.entered ev sh a b).drv = s.drv := by
  obtain ⟨n, -, e⟩ := entered_quiet s ev sh a b
  rw [e]; rfl
@[simp] theorem entered_flw (ev : Nat) (sh : Option (Fin 4)) (a b : Bool) : (s.entered ev sh a b).flw = s.flw := by
  obtain ⟨n, -, e⟩ := entered_quiet s ev sh a b
  rw [e]; rfl
@[simp] theorem entered_prs (ev : Nat) (sh : Option (Fin 4)) (a b : Bool) : (s.entered ev sh a b).prs = s.prs := by
  obtain ⟨n, -, e⟩ := entered_quiet s ev sh a b
  rw [e]; rfl
@[simp] theorem entered_tmp (ev : Nat) (sh : Option (Fin 4)) (a b : Bool) : (s.entered ev sh a b).tmp = s.tmp := by
  obtain ⟨n, -, e⟩ := entered_quiet s ev sh a b
  rw [e]; rfl
@[simp] theorem entered_rad (ev : Nat) (sh : Option (Fin 4)) (a b : Bool) : (s.entered ev sh a b).rad = s.rad := by
  obtain ⟨n, -, e⟩ := entered_quiet s ev sh a b
  rw [e]; rfl
@[simp] theorem entered_mac (ev : Nat) (sh : Option (Fin 4)) (a b : Bool) : (s.entered ev sh a b).mac = s.mac := by
  obtain ⟨n, -, e⟩ := entered_quiet s ev sh a b
  rw [e]; rfl
@[simp] theorem entered_macx (ev : Nat) (sh : Option (Fin 4)) (a b : Bool) : (s.entered ev sh a b).macx = s.macx := by
  obtain ⟨n, -, e⟩ := entered_quiet s ev sh a b
  rw [e]; rfl
@[simp] theorem entered_sec (ev : Nat) (sh : Option (Fin 4)) (a b : Bool) : (s.entered ev sh a b).sec = s.sec := by
  obtain ⟨n, -, e⟩ := entered_quiet s ev sh a b
  rw [e]; rfl
@[simp] theorem entered_secx (ev : Nat) (sh : Option (Fin 4)) (a b : Bool) : (s.entered ev sh a b).secx = s.secx := by
  obtain ⟨n, -, e⟩ := entered_quiet s ev sh a b
  rw [e]; rfl
@[simp] theorem entered_lnk (ev : Nat) (sh : Option (Fin 4)) (a b : Bool) : (s.entered ev sh a b).lnk = s.lnk := by
  obtain ⟨n, -, e⟩ := entered_quiet s ev sh a b
  rw [e]; rfl
@[simp] theorem entered_fresh (ev : Nat) (sh : Option (Fin 4)) (a b : Bool) : (s.entered ev sh a b).fresh = s.fresh := by
  obtain ⟨n, -, e⟩ := entered_quiet s ev sh a b
  rw [e]; rfl
@[simp] theorem entered_pending (ev : Nat) (sh : Option (Fin 4)) (a b : Bool) : (s.entered ev sh a b).pending = s.pending := by
  obtain ⟨n, -, e⟩ := entered_quiet s ev sh a b
  rw [e]; rfl

@[simp] theorem event_sys (e : Nat) : (s.event e).sys = s.sys := by
  obtain ⟨n, -, e⟩ := event_quiet s e
  rw [e]; rfl
@[simp] theorem event_mem (e : Nat) : (s.event e).mem = s.mem := by
  obtain ⟨n, -, e⟩ := event_quiet s e
  rw [e]; rfl
@[simp] theorem event_armed (e : Nat) : (s.event e).armed = s.armed := by
  obtain ⟨n, -, e⟩ := event_quiet s e
  rw [e]; rfl
@[simp] theorem event_nrg (e : Nat) : (s.event e).nrg = s.nrg := by
  obtain ⟨n, -, e⟩ := event_quiet s e
  rw [e]; rfl
@[simp] theorem event_nrgx (e : Nat) : (s.event e).nrgx = s.nrgx := by
  obtain ⟨n, -, e⟩ := event_quiet s e
  rw [e]; rfl
@[simp] theorem event_drv (e : Nat) : (s.event e).drv = s.drv := by
  obtain ⟨n, -, e⟩ := event_quiet s e
  rw [e]; rfl
@[simp] theorem event_flw (e : Nat) : (s.event e).flw = s.flw := by
  obtain ⟨n, -, e⟩ := event_quiet s e
  rw [e]; rfl
@[simp] theorem event_prs (e : Nat) : (s.event e).prs = s.prs := by
  obtain ⟨n, -, e⟩ := event_quiet s e
  rw [e]; rfl
@[simp] theorem event_tmp (e : Nat) : (s.event e).tmp = s.tmp := by
  obtain ⟨n, -, e⟩ := event_quiet s e
  rw [e]; rfl
@[simp] theorem event_rad (e : Nat) : (s.event e).rad = s.rad := by
  obtain ⟨n, -, e⟩ := event_quiet s e
  rw [e]; rfl
@[simp] theorem event_mac (e : Nat) : (s.event e).mac = s.mac := by
  obtain ⟨n, -, e⟩ := event_quiet s e
  rw [e]; rfl
@[simp] theorem event_macx (e : Nat) : (s.event e).macx = s.macx := by
  obtain ⟨n, -, e⟩ := event_quiet s e
  rw [e]; rfl
@[simp] theorem event_sec (e : Nat) : (s.event e).sec = s.sec := by
  obtain ⟨n, -, e⟩ := event_quiet s e
  rw [e]; rfl
@[simp] theorem event_secx (e : Nat) : (s.event e).secx = s.secx := by
  obtain ⟨n, -, e⟩ := event_quiet s e
  rw [e]; rfl
@[simp] theorem event_lnk (e : Nat) : (s.event e).lnk = s.lnk := by
  obtain ⟨n, -, e⟩ := event_quiet s e
  rw [e]; rfl
@[simp] theorem event_fresh (e : Nat) : (s.event e).fresh = s.fresh := by
  obtain ⟨n, -, e⟩ := event_quiet s e
  rw [e]; rfl
@[simp] theorem event_pending (e : Nat) : (s.event e).pending = s.pending := by
  obtain ⟨n, -, e⟩ := event_quiet s e
  rw [e]; rfl

@[simp] theorem transfer_sys (n : Fin 8) : (s.transfer n).sys = s.sys := by
  obtain ⟨n, -, e⟩ := transfer_quiet s n
  rw [e]; rfl
@[simp] theorem transfer_mem (n : Fin 8) : (s.transfer n).mem = s.mem := by
  obtain ⟨n, -, e⟩ := transfer_quiet s n
  rw [e]; rfl
@[simp] theorem transfer_armed (n : Fin 8) : (s.transfer n).armed = s.armed := by
  obtain ⟨n, -, e⟩ := transfer_quiet s n
  rw [e]; rfl
@[simp] theorem transfer_nrg (n : Fin 8) : (s.transfer n).nrg = s.nrg := by
  obtain ⟨n, -, e⟩ := transfer_quiet s n
  rw [e]; rfl
@[simp] theorem transfer_nrgx (n : Fin 8) : (s.transfer n).nrgx = s.nrgx := by
  obtain ⟨n, -, e⟩ := transfer_quiet s n
  rw [e]; rfl
@[simp] theorem transfer_drv (n : Fin 8) : (s.transfer n).drv = s.drv := by
  obtain ⟨n, -, e⟩ := transfer_quiet s n
  rw [e]; rfl
@[simp] theorem transfer_flw (n : Fin 8) : (s.transfer n).flw = s.flw := by
  obtain ⟨n, -, e⟩ := transfer_quiet s n
  rw [e]; rfl
@[simp] theorem transfer_prs (n : Fin 8) : (s.transfer n).prs = s.prs := by
  obtain ⟨n, -, e⟩ := transfer_quiet s n
  rw [e]; rfl
@[simp] theorem transfer_tmp (n : Fin 8) : (s.transfer n).tmp = s.tmp := by
  obtain ⟨n, -, e⟩ := transfer_quiet s n
  rw [e]; rfl
@[simp] theorem transfer_rad (n : Fin 8) : (s.transfer n).rad = s.rad := by
  obtain ⟨n, -, e⟩ := transfer_quiet s n
  rw [e]; rfl
@[simp] theorem transfer_mac (n : Fin 8) : (s.transfer n).mac = s.mac := by
  obtain ⟨n, -, e⟩ := transfer_quiet s n
  rw [e]; rfl
@[simp] theorem transfer_macx (n : Fin 8) : (s.transfer n).macx = s.macx := by
  obtain ⟨n, -, e⟩ := transfer_quiet s n
  rw [e]; rfl
@[simp] theorem transfer_sec (n : Fin 8) : (s.transfer n).sec = s.sec := by
  obtain ⟨n, -, e⟩ := transfer_quiet s n
  rw [e]; rfl
@[simp] theorem transfer_secx (n : Fin 8) : (s.transfer n).secx = s.secx := by
  obtain ⟨n, -, e⟩ := transfer_quiet s n
  rw [e]; rfl
@[simp] theorem transfer_lnk (n : Fin 8) : (s.transfer n).lnk = s.lnk := by
  obtain ⟨n, -, e⟩ := transfer_quiet s n
  rw [e]; rfl
@[simp] theorem transfer_fresh (n : Fin 8) : (s.transfer n).fresh = s.fresh := by
  obtain ⟨n, -, e⟩ := transfer_quiet s n
  rw [e]; rfl
@[simp] theorem transfer_pending (n : Fin 8) : (s.transfer n).pending = s.pending := by
  obtain ⟨n, -, e⟩ := transfer_quiet s n
  rw [e]; rfl

@[simp] theorem gather_sys (isl : GatherIsland) : (s.gather isl).sys = s.sys := by
  obtain ⟨n, -, e⟩ := gather_quiet s isl
  rw [e]; rfl
@[simp] theorem gather_mem (isl : GatherIsland) : (s.gather isl).mem = s.mem := by
  obtain ⟨n, -, e⟩ := gather_quiet s isl
  rw [e]; rfl
@[simp] theorem gather_armed (isl : GatherIsland) : (s.gather isl).armed = s.armed := by
  obtain ⟨n, -, e⟩ := gather_quiet s isl
  rw [e]; rfl
@[simp] theorem gather_nrg (isl : GatherIsland) : (s.gather isl).nrg = s.nrg := by
  obtain ⟨n, -, e⟩ := gather_quiet s isl
  rw [e]; rfl
@[simp] theorem gather_nrgx (isl : GatherIsland) : (s.gather isl).nrgx = s.nrgx := by
  obtain ⟨n, -, e⟩ := gather_quiet s isl
  rw [e]; rfl
@[simp] theorem gather_drv (isl : GatherIsland) : (s.gather isl).drv = s.drv := by
  obtain ⟨n, -, e⟩ := gather_quiet s isl
  rw [e]; rfl
@[simp] theorem gather_flw (isl : GatherIsland) : (s.gather isl).flw = s.flw := by
  obtain ⟨n, -, e⟩ := gather_quiet s isl
  rw [e]; rfl
@[simp] theorem gather_prs (isl : GatherIsland) : (s.gather isl).prs = s.prs := by
  obtain ⟨n, -, e⟩ := gather_quiet s isl
  rw [e]; rfl
@[simp] theorem gather_tmp (isl : GatherIsland) : (s.gather isl).tmp = s.tmp := by
  obtain ⟨n, -, e⟩ := gather_quiet s isl
  rw [e]; rfl
@[simp] theorem gather_rad (isl : GatherIsland) : (s.gather isl).rad = s.rad := by
  obtain ⟨n, -, e⟩ := gather_quiet s isl
  rw [e]; rfl
@[simp] theorem gather_mac (isl : GatherIsland) : (s.gather isl).mac = s.mac := by
  obtain ⟨n, -, e⟩ := gather_quiet s isl
  rw [e]; rfl
@[simp] theorem gather_macx (isl : GatherIsland) : (s.gather isl).macx = s.macx := by
  obtain ⟨n, -, e⟩ := gather_quiet s isl
  rw [e]; rfl
@[simp] theorem gather_sec (isl : GatherIsland) : (s.gather isl).sec = s.sec := by
  obtain ⟨n, -, e⟩ := gather_quiet s isl
  rw [e]; rfl
@[simp] theorem gather_secx (isl : GatherIsland) : (s.gather isl).secx = s.secx := by
  obtain ⟨n, -, e⟩ := gather_quiet s isl
  rw [e]; rfl
@[simp] theorem gather_lnk (isl : GatherIsland) : (s.gather isl).lnk = s.lnk := by
  obtain ⟨n, -, e⟩ := gather_quiet s isl
  rw [e]; rfl
@[simp] theorem gather_fresh (isl : GatherIsland) : (s.gather isl).fresh = s.fresh := by
  obtain ⟨n, -, e⟩ := gather_quiet s isl
  rw [e]; rfl
@[simp] theorem gather_pending (isl : GatherIsland) : (s.gather isl).pending = s.pending := by
  obtain ⟨n, -, e⟩ := gather_quiet s isl
  rw [e]; rfl
@[simp] theorem count_vecbase (ev : Nat) (sh : Option (Fin 4)) (m : Counted) (k : Nat) : (s.count ev sh m k).eng.vecbase = s.eng.vecbase := by
  obtain ⟨n, -, e⟩ := count_quiet s ev sh m k
  rw [e]; rfl
@[simp] theorem count_mpu (ev : Nat) (sh : Option (Fin 4)) (m : Counted) (k : Nat) : (s.count ev sh m k).eng.mpu = s.eng.mpu := by
  obtain ⟨n, -, e⟩ := count_quiet s ev sh m k
  rw [e]; rfl
@[simp] theorem count_mpuctl (ev : Nat) (sh : Option (Fin 4)) (m : Counted) (k : Nat) : (s.count ev sh m k).eng.mpuctl = s.eng.mpuctl := by
  obtain ⟨n, -, e⟩ := count_quiet s ev sh m k
  rw [e]; rfl
@[simp] theorem count_stopped (ev : Nat) (sh : Option (Fin 4)) (m : Counted) (k : Nat) : (s.count ev sh m k).eng.stopped = s.eng.stopped := by
  obtain ⟨n, -, e⟩ := count_quiet s ev sh m k
  rw [e]; rfl
@[simp] theorem count_issueReq (ev : Nat) (sh : Option (Fin 4)) (m : Counted) (k : Nat) : (s.count ev sh m k).eng.issueReq = s.eng.issueReq := by
  obtain ⟨n, -, e⟩ := count_quiet s ev sh m k
  rw [e]; rfl
@[simp] theorem count_issueAct (ev : Nat) (sh : Option (Fin 4)) (m : Counted) (k : Nat) : (s.count ev sh m k).eng.issueAct = s.eng.issueAct := by
  obtain ⟨n, -, e⟩ := count_quiet s ev sh m k
  rw [e]; rfl
@[simp] theorem count_evroute (ev : Nat) (sh : Option (Fin 4)) (m : Counted) (k : Nat) : (s.count ev sh m k).eng.evroute = s.eng.evroute := by
  obtain ⟨n, -, e⟩ := count_quiet s ev sh m k
  rw [e]; rfl
@[simp] theorem count_cyc (ev : Nat) (sh : Option (Fin 4)) (m : Counted) (k : Nat) : (s.count ev sh m k).eng.cyc = s.eng.cyc := by
  obtain ⟨n, h, e⟩ := count_quiet s ev sh m k
  rw [e]; exact h
@[simp] theorem occur_vecbase (ev : Nat) : (s.occur ev).eng.vecbase = s.eng.vecbase := by
  obtain ⟨n, -, e⟩ := occur_quiet s ev
  rw [e]; rfl
@[simp] theorem occur_mpu (ev : Nat) : (s.occur ev).eng.mpu = s.eng.mpu := by
  obtain ⟨n, -, e⟩ := occur_quiet s ev
  rw [e]; rfl
@[simp] theorem occur_mpuctl (ev : Nat) : (s.occur ev).eng.mpuctl = s.eng.mpuctl := by
  obtain ⟨n, -, e⟩ := occur_quiet s ev
  rw [e]; rfl
@[simp] theorem occur_stopped (ev : Nat) : (s.occur ev).eng.stopped = s.eng.stopped := by
  obtain ⟨n, -, e⟩ := occur_quiet s ev
  rw [e]; rfl
@[simp] theorem occur_issueReq (ev : Nat) : (s.occur ev).eng.issueReq = s.eng.issueReq := by
  obtain ⟨n, -, e⟩ := occur_quiet s ev
  rw [e]; rfl
@[simp] theorem occur_issueAct (ev : Nat) : (s.occur ev).eng.issueAct = s.eng.issueAct := by
  obtain ⟨n, -, e⟩ := occur_quiet s ev
  rw [e]; rfl
@[simp] theorem occur_evroute (ev : Nat) : (s.occur ev).eng.evroute = s.eng.evroute := by
  obtain ⟨n, -, e⟩ := occur_quiet s ev
  rw [e]; rfl
@[simp] theorem occur_cyc (ev : Nat) : (s.occur ev).eng.cyc = s.eng.cyc := by
  obtain ⟨n, h, e⟩ := occur_quiet s ev
  rw [e]; exact h
@[simp] theorem entered_vecbase (ev : Nat) (sh : Option (Fin 4)) (a b : Bool) : (s.entered ev sh a b).eng.vecbase = s.eng.vecbase := by
  obtain ⟨n, -, e⟩ := entered_quiet s ev sh a b
  rw [e]; rfl
@[simp] theorem entered_mpu (ev : Nat) (sh : Option (Fin 4)) (a b : Bool) : (s.entered ev sh a b).eng.mpu = s.eng.mpu := by
  obtain ⟨n, -, e⟩ := entered_quiet s ev sh a b
  rw [e]; rfl
@[simp] theorem entered_mpuctl (ev : Nat) (sh : Option (Fin 4)) (a b : Bool) : (s.entered ev sh a b).eng.mpuctl = s.eng.mpuctl := by
  obtain ⟨n, -, e⟩ := entered_quiet s ev sh a b
  rw [e]; rfl
@[simp] theorem entered_stopped (ev : Nat) (sh : Option (Fin 4)) (a b : Bool) : (s.entered ev sh a b).eng.stopped = s.eng.stopped := by
  obtain ⟨n, -, e⟩ := entered_quiet s ev sh a b
  rw [e]; rfl
@[simp] theorem entered_issueReq (ev : Nat) (sh : Option (Fin 4)) (a b : Bool) : (s.entered ev sh a b).eng.issueReq = s.eng.issueReq := by
  obtain ⟨n, -, e⟩ := entered_quiet s ev sh a b
  rw [e]; rfl
@[simp] theorem entered_issueAct (ev : Nat) (sh : Option (Fin 4)) (a b : Bool) : (s.entered ev sh a b).eng.issueAct = s.eng.issueAct := by
  obtain ⟨n, -, e⟩ := entered_quiet s ev sh a b
  rw [e]; rfl
@[simp] theorem entered_evroute (ev : Nat) (sh : Option (Fin 4)) (a b : Bool) : (s.entered ev sh a b).eng.evroute = s.eng.evroute := by
  obtain ⟨n, -, e⟩ := entered_quiet s ev sh a b
  rw [e]; rfl
@[simp] theorem entered_cyc (ev : Nat) (sh : Option (Fin 4)) (a b : Bool) : (s.entered ev sh a b).eng.cyc = s.eng.cyc := by
  obtain ⟨n, h, e⟩ := entered_quiet s ev sh a b
  rw [e]; exact h
@[simp] theorem event_vecbase (e : Nat) : (s.event e).eng.vecbase = s.eng.vecbase := by
  obtain ⟨n, -, e⟩ := event_quiet s e
  rw [e]; rfl
@[simp] theorem event_mpu (e : Nat) : (s.event e).eng.mpu = s.eng.mpu := by
  obtain ⟨n, -, e⟩ := event_quiet s e
  rw [e]; rfl
@[simp] theorem event_mpuctl (e : Nat) : (s.event e).eng.mpuctl = s.eng.mpuctl := by
  obtain ⟨n, -, e⟩ := event_quiet s e
  rw [e]; rfl
@[simp] theorem event_stopped (e : Nat) : (s.event e).eng.stopped = s.eng.stopped := by
  obtain ⟨n, -, e⟩ := event_quiet s e
  rw [e]; rfl
@[simp] theorem event_issueReq (e : Nat) : (s.event e).eng.issueReq = s.eng.issueReq := by
  obtain ⟨n, -, e⟩ := event_quiet s e
  rw [e]; rfl
@[simp] theorem event_issueAct (e : Nat) : (s.event e).eng.issueAct = s.eng.issueAct := by
  obtain ⟨n, -, e⟩ := event_quiet s e
  rw [e]; rfl
@[simp] theorem event_evroute (e : Nat) : (s.event e).eng.evroute = s.eng.evroute := by
  obtain ⟨n, -, e⟩ := event_quiet s e
  rw [e]; rfl
@[simp] theorem event_cyc (e : Nat) : (s.event e).eng.cyc = s.eng.cyc := by
  obtain ⟨n, h, e⟩ := event_quiet s e
  rw [e]; exact h
@[simp] theorem transfer_vecbase (n : Fin 8) : (s.transfer n).eng.vecbase = s.eng.vecbase := by
  obtain ⟨n, -, e⟩ := transfer_quiet s n
  rw [e]; rfl
@[simp] theorem transfer_mpu (n : Fin 8) : (s.transfer n).eng.mpu = s.eng.mpu := by
  obtain ⟨n, -, e⟩ := transfer_quiet s n
  rw [e]; rfl
@[simp] theorem transfer_mpuctl (n : Fin 8) : (s.transfer n).eng.mpuctl = s.eng.mpuctl := by
  obtain ⟨n, -, e⟩ := transfer_quiet s n
  rw [e]; rfl
@[simp] theorem transfer_stopped (n : Fin 8) : (s.transfer n).eng.stopped = s.eng.stopped := by
  obtain ⟨n, -, e⟩ := transfer_quiet s n
  rw [e]; rfl
@[simp] theorem transfer_issueReq (n : Fin 8) : (s.transfer n).eng.issueReq = s.eng.issueReq := by
  obtain ⟨n, -, e⟩ := transfer_quiet s n
  rw [e]; rfl
@[simp] theorem transfer_issueAct (n : Fin 8) : (s.transfer n).eng.issueAct = s.eng.issueAct := by
  obtain ⟨n, -, e⟩ := transfer_quiet s n
  rw [e]; rfl
@[simp] theorem transfer_evroute (n : Fin 8) : (s.transfer n).eng.evroute = s.eng.evroute := by
  obtain ⟨n, -, e⟩ := transfer_quiet s n
  rw [e]; rfl
@[simp] theorem transfer_cyc (n : Fin 8) : (s.transfer n).eng.cyc = s.eng.cyc := by
  obtain ⟨n, h, e⟩ := transfer_quiet s n
  rw [e]; exact h
@[simp] theorem gather_vecbase (isl : GatherIsland) : (s.gather isl).eng.vecbase = s.eng.vecbase := by
  obtain ⟨n, -, e⟩ := gather_quiet s isl
  rw [e]; rfl
@[simp] theorem gather_mpu (isl : GatherIsland) : (s.gather isl).eng.mpu = s.eng.mpu := by
  obtain ⟨n, -, e⟩ := gather_quiet s isl
  rw [e]; rfl
@[simp] theorem gather_mpuctl (isl : GatherIsland) : (s.gather isl).eng.mpuctl = s.eng.mpuctl := by
  obtain ⟨n, -, e⟩ := gather_quiet s isl
  rw [e]; rfl
@[simp] theorem gather_stopped (isl : GatherIsland) : (s.gather isl).eng.stopped = s.eng.stopped := by
  obtain ⟨n, -, e⟩ := gather_quiet s isl
  rw [e]; rfl
@[simp] theorem gather_issueReq (isl : GatherIsland) : (s.gather isl).eng.issueReq = s.eng.issueReq := by
  obtain ⟨n, -, e⟩ := gather_quiet s isl
  rw [e]; rfl
@[simp] theorem gather_issueAct (isl : GatherIsland) : (s.gather isl).eng.issueAct = s.eng.issueAct := by
  obtain ⟨n, -, e⟩ := gather_quiet s isl
  rw [e]; rfl
@[simp] theorem gather_evroute (isl : GatherIsland) : (s.gather isl).eng.evroute = s.eng.evroute := by
  obtain ⟨n, -, e⟩ := gather_quiet s isl
  rw [e]; rfl
@[simp] theorem gather_cyc (isl : GatherIsland) : (s.gather isl).eng.cyc = s.eng.cyc := by
  obtain ⟨n, h, e⟩ := gather_quiet s isl
  rw [e]; exact h

@[simp] theorem coreTick_sys (k : Nat) : (s.coreTick k).sys = s.sys := by
  obtain ⟨n, -, e⟩ := coreTick_noted s k
  rw [e]; rfl
@[simp] theorem coreTick_mem (k : Nat) : (s.coreTick k).mem = s.mem := by
  obtain ⟨n, -, e⟩ := coreTick_noted s k
  rw [e]; rfl
@[simp] theorem coreTick_armed (k : Nat) : (s.coreTick k).armed = s.armed := by
  obtain ⟨n, -, e⟩ := coreTick_noted s k
  rw [e]; rfl
@[simp] theorem coreTick_nrg (k : Nat) : (s.coreTick k).nrg = s.nrg := by
  obtain ⟨n, -, e⟩ := coreTick_noted s k
  rw [e]; rfl
@[simp] theorem coreTick_nrgx (k : Nat) : (s.coreTick k).nrgx = s.nrgx := by
  obtain ⟨n, -, e⟩ := coreTick_noted s k
  rw [e]; rfl
@[simp] theorem coreTick_drv (k : Nat) : (s.coreTick k).drv = s.drv := by
  obtain ⟨n, -, e⟩ := coreTick_noted s k
  rw [e]; rfl
@[simp] theorem coreTick_flw (k : Nat) : (s.coreTick k).flw = s.flw := by
  obtain ⟨n, -, e⟩ := coreTick_noted s k
  rw [e]; rfl
@[simp] theorem coreTick_prs (k : Nat) : (s.coreTick k).prs = s.prs := by
  obtain ⟨n, -, e⟩ := coreTick_noted s k
  rw [e]; rfl
@[simp] theorem coreTick_tmp (k : Nat) : (s.coreTick k).tmp = s.tmp := by
  obtain ⟨n, -, e⟩ := coreTick_noted s k
  rw [e]; rfl
@[simp] theorem coreTick_rad (k : Nat) : (s.coreTick k).rad = s.rad := by
  obtain ⟨n, -, e⟩ := coreTick_noted s k
  rw [e]; rfl
@[simp] theorem coreTick_mac (k : Nat) : (s.coreTick k).mac = s.mac := by
  obtain ⟨n, -, e⟩ := coreTick_noted s k
  rw [e]; rfl
@[simp] theorem coreTick_macx (k : Nat) : (s.coreTick k).macx = s.macx := by
  obtain ⟨n, -, e⟩ := coreTick_noted s k
  rw [e]; rfl
@[simp] theorem coreTick_sec (k : Nat) : (s.coreTick k).sec = s.sec := by
  obtain ⟨n, -, e⟩ := coreTick_noted s k
  rw [e]; rfl
@[simp] theorem coreTick_secx (k : Nat) : (s.coreTick k).secx = s.secx := by
  obtain ⟨n, -, e⟩ := coreTick_noted s k
  rw [e]; rfl
@[simp] theorem coreTick_lnk (k : Nat) : (s.coreTick k).lnk = s.lnk := by
  obtain ⟨n, -, e⟩ := coreTick_noted s k
  rw [e]; rfl
@[simp] theorem coreTick_fresh (k : Nat) : (s.coreTick k).fresh = s.fresh := by
  obtain ⟨n, -, e⟩ := coreTick_noted s k
  rw [e]; rfl
@[simp] theorem coreTick_pending (k : Nat) : (s.coreTick k).pending = s.pending := by
  obtain ⟨n, -, e⟩ := coreTick_noted s k
  rw [e]; rfl

@[simp] theorem idleTick_sys (k : Nat) : (s.idleTick k).sys = s.sys := by
  obtain ⟨n, -, e⟩ := idleTick_noted s k
  rw [e]; rfl
@[simp] theorem idleTick_mem (k : Nat) : (s.idleTick k).mem = s.mem := by
  obtain ⟨n, -, e⟩ := idleTick_noted s k
  rw [e]; rfl
@[simp] theorem idleTick_armed (k : Nat) : (s.idleTick k).armed = s.armed := by
  obtain ⟨n, -, e⟩ := idleTick_noted s k
  rw [e]; rfl
@[simp] theorem idleTick_nrg (k : Nat) : (s.idleTick k).nrg = s.nrg := by
  obtain ⟨n, -, e⟩ := idleTick_noted s k
  rw [e]; rfl
@[simp] theorem idleTick_nrgx (k : Nat) : (s.idleTick k).nrgx = s.nrgx := by
  obtain ⟨n, -, e⟩ := idleTick_noted s k
  rw [e]; rfl
@[simp] theorem idleTick_drv (k : Nat) : (s.idleTick k).drv = s.drv := by
  obtain ⟨n, -, e⟩ := idleTick_noted s k
  rw [e]; rfl
@[simp] theorem idleTick_flw (k : Nat) : (s.idleTick k).flw = s.flw := by
  obtain ⟨n, -, e⟩ := idleTick_noted s k
  rw [e]; rfl
@[simp] theorem idleTick_prs (k : Nat) : (s.idleTick k).prs = s.prs := by
  obtain ⟨n, -, e⟩ := idleTick_noted s k
  rw [e]; rfl
@[simp] theorem idleTick_tmp (k : Nat) : (s.idleTick k).tmp = s.tmp := by
  obtain ⟨n, -, e⟩ := idleTick_noted s k
  rw [e]; rfl
@[simp] theorem idleTick_rad (k : Nat) : (s.idleTick k).rad = s.rad := by
  obtain ⟨n, -, e⟩ := idleTick_noted s k
  rw [e]; rfl
@[simp] theorem idleTick_mac (k : Nat) : (s.idleTick k).mac = s.mac := by
  obtain ⟨n, -, e⟩ := idleTick_noted s k
  rw [e]; rfl
@[simp] theorem idleTick_macx (k : Nat) : (s.idleTick k).macx = s.macx := by
  obtain ⟨n, -, e⟩ := idleTick_noted s k
  rw [e]; rfl
@[simp] theorem idleTick_sec (k : Nat) : (s.idleTick k).sec = s.sec := by
  obtain ⟨n, -, e⟩ := idleTick_noted s k
  rw [e]; rfl
@[simp] theorem idleTick_secx (k : Nat) : (s.idleTick k).secx = s.secx := by
  obtain ⟨n, -, e⟩ := idleTick_noted s k
  rw [e]; rfl
@[simp] theorem idleTick_lnk (k : Nat) : (s.idleTick k).lnk = s.lnk := by
  obtain ⟨n, -, e⟩ := idleTick_noted s k
  rw [e]; rfl
@[simp] theorem idleTick_fresh (k : Nat) : (s.idleTick k).fresh = s.fresh := by
  obtain ⟨n, -, e⟩ := idleTick_noted s k
  rw [e]; rfl
@[simp] theorem idleTick_pending (k : Nat) : (s.idleTick k).pending = s.pending := by
  obtain ⟨n, -, e⟩ := idleTick_noted s k
  rw [e]; rfl

/-! ## The fetch of an instruction -/

@[simp] theorem fetched_w (x : Shuttle) (o : Nat) : (x.fetched o).w = x.w := rfl
@[simp] theorem fetched_pc (x : Shuttle) (o : Nat) : (x.fetched o).pc = x.pc := rfl
@[simp] theorem fetched_acc (x : Shuttle) (o : Nat) : (x.fetched o).acc = x.acc := rfl
@[simp] theorem fetched_ie (x : Shuttle) (o : Nat) : (x.fetched o).ie = x.ie := rfl
@[simp] theorem fetched_pie (x : Shuttle) (o : Nat) : (x.fetched o).pie = x.pie := rfl
@[simp] theorem fetched_prv (x : Shuttle) (o : Nat) : (x.fetched o).prv = x.prv := rfl
@[simp] theorem fetched_pprv (x : Shuttle) (o : Nat) : (x.fetched o).pprv = x.pprv := rfl
@[simp] theorem fetched_inexc (x : Shuttle) (o : Nat) : (x.fetched o).inexc = x.inexc := rfl
@[simp] theorem fetched_epc (x : Shuttle) (o : Nat) : (x.fetched o).epc = x.epc := rfl
@[simp] theorem fetched_cause (x : Shuttle) (o : Nat) : (x.fetched o).cause = x.cause := rfl
@[simp] theorem fetched_addr (x : Shuttle) (o : Nat) : (x.fetched o).addr = x.addr := rfl
@[simp] theorem fetched_scratch (x : Shuttle) (o : Nat) : (x.fetched o).scratch = x.scratch := rfl
@[simp] theorem fetched_run (x : Shuttle) (o : Nat) : (x.fetched o).run = x.run := rfl
@[simp] theorem fetched_busyOn (x : Shuttle) (o : Nat) : (x.fetched o).busyOn = x.busyOn := rfl
@[simp] theorem fetched_waitMask (x : Shuttle) (o : Nat) : (x.fetched o).waitMask = x.waitMask := rfl
@[simp] theorem fetched_waitRd (x : Shuttle) (o : Nat) : (x.fetched o).waitRd = x.waitRd := rfl
@[simp] theorem fetched_freeAt (x : Shuttle) (o : Nat) : (x.fetched o).freeAt = x.freeAt := rfl
@[simp] theorem fetched_restart (x : Shuttle) (o : Nat) : (x.fetched o).restart = x.restart := rfl
@[simp] theorem fetched_wpend (x : Shuttle) (o : Nat) : (x.fetched o).wpend = x.wpend := rfl
@[simp] theorem fetched_ien (x : Shuttle) (o : Nat) : (x.fetched o).ien = x.ien := rfl
@[simp] theorem fetched_en (x : Shuttle) (o : Nat) : (x.fetched o).en = x.en := rfl
@[simp] theorem fetched_priv (x : Shuttle) (o : Nat) : (x.fetched o).priv = x.priv := rfl
@[simp] theorem fetched_udev (x : Shuttle) (o : Nat) : (x.fetched o).udev = x.udev := rfl
@[simp] theorem fetched_fixedReq (x : Shuttle) (o : Nat) : (x.fetched o).fixedReq = x.fixedReq := rfl
@[simp] theorem fetched_recvReq (x : Shuttle) (o : Nat) : (x.fetched o).recvReq = x.recvReq := rfl
@[simp] theorem fetched_fixedAct (x : Shuttle) (o : Nat) : (x.fetched o).fixedAct = x.fixedAct := rfl
@[simp] theorem fetched_recvAct (x : Shuttle) (o : Nat) : (x.fetched o).recvAct = x.recvAct := rfl
@[simp] theorem fetched_flow (x : Shuttle) (o : Nat) : (x.fetched o).flow = false := rfl
@[simp] theorem fetched_bufAt (x : Shuttle) (o : Nat) : (x.fetched o).bufAt = if x.flow then o else x.bufAt := rfl

end Sys2Proof.Machine
end

