-- ==== Sys2Proof/Laws/Access.lean ====
section
/-!
SUPPORT. An access of a register by any initiator: one lemma for a write, one for a write that AON takes, and one for a read say
all that an accepted access does (R8, R14, R124, R126, R190, R209).
-/

namespace Sys2Proof.Machine

/-! ## Where an address lies -/

theorem inRegs_iff (a : Nat) : inRegs a = true ↔ 0x40000000 ≤ a ∧ a < 0x4000E000 := by
  simp [inRegs]

theorem inRegs_rom {a : Nat} (h : inRegs a = true) : inRom a = false := by
  rw [inRegs_iff] at h; simp [inRom]; omega

theorem inRegs_mram {a : Nat} (h : inRegs a = true) : inMram a = false := by
  rw [inRegs_iff] at h; simp [inMram]; omega

theorem inRegs_sram {a : Nat} (h : inRegs a = true) : inSram a = false := by
  rw [inRegs_iff] at h; simp [inSram]; omega

theorem inRegs_chain {a : Nat} (h : inRegs a = true) : inChain a = false := by
  rw [inRegs_iff] at h; simp [inChain]; omega

theorem inRegs_lt {a : Nat} (h : inRegs a = true) : a < 2 ^ 32 := by
  rw [inRegs_iff] at h; omega

theorem inRegs_toNat {a : Nat} (h : inRegs a = true) : (BitVec.ofNat 32 a).toNat = a := by
  have := inRegs_lt h
  simp only [BitVec.toNat_ofNat]
  omega

theorem remote_regs {a : Nat} (s : State) (n : Nat) (h : inRegs a = true) : s.remoteTarget a n = none := by
  simp [State.remoteTarget, inRegs_chain h]

theorem setWidth_back (v : Word) : (v.setWidth 64).setWidth 32 = v := by
  ext i hi
  simp

/-! ## The bus -/

/-- A write that the register takes. -/
theorem busWrite_reg (s t : State) (i : Initiator) (a : Nat) (v : Word) (ha : inRegs a = true) (h4 : a % 4 = 0)
    (hi : s.islandOff (blockOf a) = false) (hn : isAon (blockOf a) = false) (hw : s.regWrite i a v = (t, 0)) :
    s.busWrite i a 4 (v.setWidth 64) = (t.afterWrite, good 0) := by
  unfold State.busWrite
  simp only [h4, inRegs_rom ha, inRegs_mram ha, inRegs_sram ha, ha, setWidth_back]
  simp [State.regStore, State.regGate, hi, h4, hn, hw]

/-- A write that AON posts. -/
theorem busWrite_aon (s : State) (i : Initiator) (a : Nat) (v : Word) (ha : inRegs a = true) (h4 : a % 4 = 0)
    (hn : isAon (blockOf a) = true) (hf : s.sys.failed.find? (fun f => f.init == i) = none) (hc : s.aonCheck a v = 0) :
    s.busWrite i a 4 (v.setWidth 64) =
      (s.modSys fun x => { x with posted := x.posted ++ [{ init := i, addr := BitVec.ofNat 32 a, val := v }] }, good 0) := by
  have hi : s.islandOff (blockOf a) = false := by
    revert hn
    simp only [State.islandOff, isAon, isDmi, isRad, Bool.or_eq_true, beq_iff_eq]
    rintro ((h | h) | h) <;> simp [h]
  unfold State.busWrite
  simp only [h4, inRegs_rom ha, inRegs_mram ha, inRegs_sram ha, ha, setWidth_back]
  simp [State.regStore, State.regGate, hi, h4, hn, State.aonPost, State.takeFailed, hf, hc]

/-- A read that the register answers. -/
theorem busRead_reg (s t : State) (i : Initiator) (a : Nat) (v : Word) (ha : inRegs a = true) (h4 : a % 4 = 0)
    (hi : s.islandOff (blockOf a) = false) (hn : isAon (blockOf a) = false)
    (hr : s.regRead i a = (t, good (v.setWidth 64))) : s.busRead i a 4 = (t, good (v.setWidth 64)) := by
  unfold State.busRead
  simp only [h4, inRegs_rom ha, inRegs_mram ha, inRegs_sram ha, ha]
  simp [State.regAccess, State.regGate, hi, h4, hn, hr]

/-- A read of an AON register for which no write waits. -/
theorem busRead_aon (s t : State) (i : Initiator) (a : Nat) (v : Word) (ha : inRegs a = true) (h4 : a % 4 = 0)
    (hn : isAon (blockOf a) = true) (hp : s.sys.posted = []) (hf : s.sys.failed.find? (fun f => f.init == i) = none)
    (hr : s.regRead i a = (t, good (v.setWidth 64))) : s.busRead i a 4 = (t, good (v.setWidth 64)) := by
  have hi : s.islandOff (blockOf a) = false := by
    revert hn
    simp only [State.islandOff, isAon, isDmi, isRad, Bool.or_eq_true, beq_iff_eq]
    rintro ((h | h) | h) <;> simp [h]
  unfold State.busRead
  simp only [h4, inRegs_rom ha, inRegs_mram ha, inRegs_sram ha, ha]
  simp [State.regAccess, State.regGate, hi, h4, hn, State.aonRead, hp, State.takeFailed, hf, hr]

/-! ## The initiators -/

theorem dataGate_noted (s : State) (n : Noted) (k : Fin 4) (o : Nat) (a : Nat) (wr : Bool)
    (h : wr = true ∨ blockOf a ≠ 12) :
    ((s.modSh k fun x => x.fetched o).noted n).dataGate k a 4 wr = s.dataGate k a 4 wr := by
  have hp : ∀ j, (((s.modSh k fun x => x.fetched o).noted n).sh j).prv = (s.sh j).prv := by
    intro j
    simp only [noted_sh, sh_modSh]
    split
    · rename_i h; subst h; rfl
    · rfl
  have hm : ∀ p, ((s.modSh k fun x => x.fetched o).noted n).mpuOk k a p = s.mpuOk k a p := by
    intro p
    unfold State.mpuOk
    rw [hp]
    rfl
  have hb : ((s.modSh k fun x => x.fetched o).noted n).barred a wr = s.barred a wr := by
    unfold State.barred
    rcases h with h | h
    · subst h; rfl
    · have h12 : (blockOf a == 12) = false := by simpa using h
      simp only [h12, Bool.false_and]
  unfold State.dataGate State.user
  rw [hp, hm, hb]

/-- What the state in which an access reaches the bus has of the state before it. -/
theorem atBus_same {s u : State} {i : Initiator} (h : s.AtBus i u) :
    u.sys = s.sys ∧ u.mem = s.mem ∧ u.armed = s.armed ∧ u.nrg = s.nrg ∧ u.nrgx = s.nrgx ∧ u.drv = s.drv ∧ u.flw = s.flw ∧
      u.prs = s.prs ∧ u.tmp = s.tmp ∧ u.rad = s.rad ∧ u.mac = s.mac ∧ u.macx = s.macx ∧ u.sec = s.sec ∧ u.secx = s.secx ∧
      u.lnk = s.lnk ∧ u.fresh = s.fresh ∧ u.pending = s.pending := by
  cases i with
  | shuttle k =>
    obtain ⟨c, n, -, -, -, rfl⟩ := h
    simp
  | debug => cases h; simp [State.newCycle]
  | chain => cases h; simp [State.newCycle]

theorem afterStore_other (s : State) (a : Nat) (v : DWord) (h : inRegs a = true) (ha : a ≠ 0x40000008) :
    s.afterStore a v = s := by
  unfold State.afterStore localOf
  simp [inRegs_chain h, ha]

/-- A register write that the register takes, by any initiator: `g` is what the register makes of the state, and the islands
that are then wanted start. -/
theorem writeBy_written (s : State) (i : Initiator) (a : Nat) (v : Word) (g : State → State) (ha : inRegs a = true)
    (h4 : a % 4 = 0) (hs : a ≠ 0x40000008) (hi : s.islandOff (blockOf a) = false) (hn : isAon (blockOf a) = false)
    (hr : s.reaches i a true = true)
    (hw : ∀ u, s.AtBus i u → u.regWrite i a v = (g u, 0) ∧ burnBegun u (g u).afterWrite = none) :
    Written (.next (s.writeBy i a v)) s i a fun u => (g u).afterWrite := by
  cases i with
  | shuttle k =>
    simp only [State.reaches, Bool.and_eq_true, Option.isNone_iff_eq_none] at hr
    obtain ⟨c, n, hc, hn', cn, e⟩ := instr_ok s k hr.1
    have hu : s.AtBus (.shuttle k) ((s.modSh k fun x => x.fetched s.mem.oldNum).noted n) := ⟨c, n, hc, hn', cn, rfl⟩
    refine ⟨_, hu, ?_⟩
    obtain ⟨h1, h2⟩ := hw _ hu
    have hi' : ((s.modSh k fun x => x.fetched s.mem.oldNum).noted n).islandOff (blockOf a) = false := hi
    simp only [State.writeBy, State.storeReg, e, State.store, inRegs_toNat ha, dataGate_noted _ _ _ _ _ _ (.inl rfl), hr.2,
      remote_regs _ _ ha, inRegs_mram ha, busWrite_reg _ _ _ _ _ ha h4 hi' hn h1]
    simp only [Bool.false_and, Bool.false_eq_true, if_false, good, ne_eq, not_true_eq_false, h2, State.storeEnd,
      afterStore_other _ _ _ ha hs]
    rfl
  | debug =>
    refine ⟨s.newCycle, rfl, ?_⟩
    obtain ⟨h1, -⟩ := hw s.newCycle rfl
    simp only [State.reaches] at hr
    simp only [State.writeBy, State.debugWrite, hr, remote_regs _ _ ha, busWrite_reg s.newCycle _ _ _ _ ha h4 hi hn h1]
    simp only [Bool.not_true, Bool.false_eq_true, if_false, good, State.respond, true_or, if_true,
      afterStore_other _ _ _ ha hs]
    rfl
  | chain =>
    refine ⟨s.newCycle, rfl, ?_⟩
    obtain ⟨h1, -⟩ := hw s.newCycle rfl
    simp only [State.reaches] at hr
    simp only [State.writeBy, State.chainWrite, hr, busWrite_reg s.newCycle _ _ _ _ ha h4 hi hn h1]
    simp only [Bool.not_true, Bool.false_eq_true, if_false, good, State.respond, true_or, if_true,
      afterStore_other _ _ _ ha hs]
    rfl

/-- A register read that the register answers, by any initiator. -/
theorem readBy_got (s : State) (i : Initiator) (rd : Fin 16) (a : Nat) (f : State → State × Word) (ha : inRegs a = true)
    (hb : blockOf a ≠ 12) (hr : s.reaches i a false = true)
    (hw : ∀ u, s.AtBus i u → u.busRead i a 4 = ((f u).1, good ((f u).2.setWidth 64))) :
    Got (.next (s.readBy i rd a)) s i a rd f := by
  cases i with
  | shuttle k =>
    simp only [State.reaches, Bool.and_eq_true, Option.isNone_iff_eq_none] at hr
    obtain ⟨c, n, hc, hn', cn, e⟩ := instr_ok s k hr.1
    have hu : s.AtBus (.shuttle k) ((s.modSh k fun x => x.fetched s.mem.oldNum).noted n) := ⟨c, n, hc, hn', cn, rfl⟩
    refine ⟨_, hu, ?_⟩
    have h1 := hw _ hu
    simp only [State.readBy, e, State.loadTo, State.load, inRegs_toNat ha, dataGate_noted _ _ _ _ _ _ (.inr hb), hr.2,
      remote_regs _ _ ha, inRegs_mram ha, h1]
    simp only [Bool.false_eq_true, if_false, good, ne_eq, not_true_eq_false, setWidth_back]
    rfl
  | debug =>
    refine ⟨s.newCycle, rfl, ?_⟩
    have h1 := hw s.newCycle rfl
    simp only [State.reaches] at hr
    simp only [State.readBy, State.debugRead, hr, remote_regs _ _ ha, h1]
    simp only [Bool.not_true, Bool.false_eq_true, if_false, good, State.respond, true_or, if_true, setWidth_back]
    rfl
  | chain =>
    refine ⟨s.newCycle, rfl, ?_⟩
    have h1 := hw s.newCycle rfl
    simp only [State.reaches] at hr
    simp only [State.readBy, State.chainRead, hr, h1]
    simp only [Bool.not_true, Bool.false_eq_true, if_false, good, State.respond, true_or, if_true]
    rfl

/-! ## Posted writes -/

/-- The state with another SYS block. -/
def State.withSys (s : State) (x : Sys) : State := { s with sys := x }

theorem withSys_foldl {α : Type} (f : State → α → State) (x : Sys)
    (h : ∀ s a, f (s.withSys x) a = (f s a).withSys x) (l : List α) (s : State) :
    l.foldl f (s.withSys x) = (l.foldl f s).withSys x := by
  induction l generalizing s with
  | nil => rfl
  | cons a l ih => simp only [List.foldl_cons, h, ih]

theorem withSys_ite {c : Prop} [Decidable c] (s t : State) (x : Sys) :
    (if c then s.withSys x else t.withSys x) = (if c then s else t).withSys x := by
  split <;> rfl

theorem ite_withSys {c : Prop} [Decidable c] {s t u v : State} {x : Sys} (h : s = u.withSys x) (k : t = v.withSys x) :
    (if c then s else t) = (if c then u else v).withSys x := by
  subst h k
  exact withSys_ite u v x

theorem dite_withSys {c : Prop} [Decidable c] {s u : c → State} {t v : State} {x : Sys} (h : ∀ p, s p = (u p).withSys x)
    (k : t = v.withSys x) : (if p : c then s p else t) = (if p : c then u p else v).withSys x := by
  split
  · exact h _
  · exact k

theorem pendEvent_withSys (s : State) (x : Sys) (e : Nat) : (s.withSys x).pendEvent e = (s.pendEvent e).withSys x := rfl

theorem overflow_withSys (s : State) (x : Sys) (n : Fin 8) : (s.withSys x).overflow n = (s.overflow n).withSys x := by
  have key : ∀ (t u : State) (b : Bool), u = t.withSys x →
      (if u.prf.frzsrc = 3 ∧ b then u.freeze else u) = (if t.prf.frzsrc = 3 ∧ b then t.freeze else t).withSys x := by
    intro t u b h
    subst h
    exact ite_withSys rfl rfl
  exact key _ _ _ (ite_withSys rfl rfl)

theorem overflow_of {t u : State} {x : Sys} {n : Fin 8} (h : u = t.withSys x) :
    u.overflow n = (t.overflow n).withSys x := by
  subst h
  exact overflow_withSys t x n

theorem addCount_withSys (s : State) (x : Sys) (n : Fin 8) (k : Nat) :
    (s.withSys x).addCount n k = (s.addCount n k).withSys x :=
  ite_withSys rfl (dite_withSys (fun _ => ite_withSys rfl (overflow_of rfl)) (overflow_of rfl))

theorem addCount_of {t u : State} {x : Sys} {n : Fin 8} {k : Nat} (h : u = t.withSys x) :
    u.addCount n k = (t.addCount n k).withSys x := by
  subst h
  exact addCount_withSys t x n k

theorem transfer_of {t u : State} {x : Sys} {n : Fin 8} (h : u = t.withSys x) :
    u.transfer n = (t.transfer n).withSys x := by
  subst h
  exact ite_withSys rfl (addCount_of rfl)

theorem countIn_withSys (s : State) (x : Sys) (ev k : Nat) (n : Fin 8) :
    (s.withSys x).countIn ev k n = (s.countIn ev k n).withSys x := by
  unfold State.countIn
  split
  · exact addCount_withSys s x n k
  · exact ite_withSys rfl (transfer_of rfl)

theorem count_withSys (s : State) (x : Sys) (ev : Nat) (i : Option (Fin 4)) (m : Counted) (k : Nat) :
    (s.withSys x).count ev i m k = (s.count ev i m k).withSys x := by
  unfold State.count
  refine withSys_foldl _ x (fun s n => ?_) _ _
  exact ite_withSys (countIn_withSys s x ev k n) rfl

theorem adv_withSys (s : State) (x : Sys) (k : Fin 4) (n : Nat) :
    (s.withSys x).advance k n = (s.advance k n).withSys x := by
  have h0 : ((s.withSys x).modSh k fun y => { y with pc := y.pc + 4, freeAt := (s.withSys x).eng.cyc + (n - 1) }) =
      (s.modSh k fun y => { y with pc := y.pc + 4, freeAt := s.eng.cyc + (n - 1) }).withSys x := rfl
  unfold State.advance
  rw [h0]
  dsimp only
  rw [count_withSys, count_withSys, withSys_ite]

theorem accessEnd_withSys (s : State) (x : Sys) (k : Fin 4) (c : Nat × Option GatherIsland) :
    (s.withSys x).accessEnd k c = (s.accessEnd k c).withSys x := by
  have hc : ∀ l, (s.withSys x).crossed k l = (s.crossed k l).withSys x := by
    intro l
    unfold State.crossed
    dsimp only
    rw [← count_withSys, ← count_withSys]
    congr 2
    exact adv_withSys { s with eng := _ } x k _
  unfold State.accessEnd
  split
  · exact hc _
  · exact adv_withSys s x k _

theorem wroteBy_withSys (s u : State) (i : Initiator) (a : Nat) (p : List Posted) :
    ((s.modSys fun x => { x with posted := p }).wroteBy u i a).modSys (fun x => { x with posted := s.sys.posted }) =
      s.wroteBy u i a := by
  cases i with
  | shuttle k =>
    have e : (s.modSys fun x => { x with posted := p }) = s.withSys { s.sys with posted := p } := rfl
    simp only [State.wroteBy, e, accessEnd_withSys]
    have hs : (s.accessEnd k (u.accessCost a 4 true)).sys = s.sys := by
      unfold State.accessEnd State.crossed State.advance
      dsimp only
      split <;> split <;> simp
    generalize hw : s.accessEnd k (u.accessCost a 4 true) = w at *
    simp only [State.modSys, State.withSys]
    rw [← hs]
  | debug => rfl
  | chain => rfl

theorem wroteBy_posted (s u : State) (i : Initiator) (a : Nat) : (s.wroteBy u i a).sys.posted = s.sys.posted := by
  cases i with
  | shuttle k =>
    simp only [State.wroteBy]
    unfold State.accessEnd State.crossed State.advance
    dsimp only
    split <;> split <;> simp
  | debug => rfl
  | chain => rfl

/-- A write of an AON register with nothing else posted: it is posted, and takes effect as `f`. -/
theorem writeThrough_posts (s : State) (i : Initiator) (a : Nat) (v : Word) (f : State → State) (ha : inRegs a = true)
    (h4 : a % 4 = 0) (hn : isAon (blockOf a) = true) (hr : s.reaches i a true = true) (hp : s.sys.posted = [])
    (hf : s.sys.failed.find? (fun f => f.init == i) = none) (hc : s.aonCheck a v = 0)
    (hck : ∀ u, s.AtBus i u → u.aonCheck a v = s.aonCheck a v)
    (hw : ∀ u, s.AtBus i u → (u.wroteBy u i a).aonApply (BitVec.ofNat 32 a) v = (f (u.wroteBy u i a), 0)) :
    Posts (.next (s.writeThrough i a v)) s i a f := by
  have h8 : a ≠ 0x40000008 := by rintro rfl; simp [blockOf, isAon] at hn
  have drain : ∀ u : State, s.AtBus i u → ∀ t : State,
      t = (u.modSys fun x => { x with posted := x.posted ++ [{ init := i, addr := BitVec.ofNat 32 a, val := v }] }).wroteBy u i a →
      t.drainPosted = f (u.wroteBy u i a) := by
    intro u hu t ht
    have hup : u.sys.posted = [] := by rw [(atBus_same hu).1]; exact hp
    have e : (u.modSys fun x => { x with posted := x.posted ++ [{ init := i, addr := BitVec.ofNat 32 a, val := v }] }) =
        u.modSys fun x => { x with posted := [{ init := i, addr := BitVec.ofNat 32 a, val := v }] } := by
      simp only [State.modSys, hup, List.nil_append]
    rw [e] at ht
    have htp : t.sys.posted = [{ init := i, addr := BitVec.ofNat 32 a, val := v }] := by
      rw [ht, wroteBy_posted]; rfl
    have hback := wroteBy_withSys u u i a [{ init := i, addr := BitVec.ofNat 32 a, val := v }]
    rw [hup, ← ht] at hback
    unfold State.drainPosted
    rw [htp]
    simp only [List.foldl_cons, List.foldl_nil, State.postedOne, htp, if_true]
    rw [hback, hw u hu]
    rfl
  cases i with
  | shuttle k =>
    simp only [State.reaches, Bool.and_eq_true, Option.isNone_iff_eq_none] at hr
    obtain ⟨c, n, hc', hn', cn, e⟩ := instr_ok s k hr.1
    have hu : s.AtBus (.shuttle k) ((s.modSh k fun x => x.fetched s.mem.oldNum).noted n) := ⟨c, n, hc', hn', cn, rfl⟩
    refine ⟨_, hu, ?_⟩
    unfold State.writeThrough
    congr 1
    apply drain _ hu
    have hb := busWrite_aon ((s.modSh k fun x => x.fetched s.mem.oldNum).noted n) (.shuttle k) a v ha h4 hn hf
      ((hck _ hu).trans hc)
    simp only [State.writeBy, State.storeReg, e, State.store, inRegs_toNat ha, dataGate_noted _ _ _ _ _ _ (.inl rfl), hr.2,
      remote_regs _ _ ha, inRegs_mram ha, hb]
    simp only [Bool.false_and, Bool.false_eq_true, if_false, good, ne_eq, not_true_eq_false,
      afterStore_other _ _ _ ha h8]
    simp [burnBegun, State.storeEnd, State.wroteBy]
  | debug =>
    refine ⟨s.newCycle, rfl, ?_⟩
    unfold State.writeThrough
    congr 1
    apply drain s.newCycle rfl
    simp only [State.reaches] at hr
    simp only [State.writeBy, State.debugWrite, hr, remote_regs _ _ ha, busWrite_aon s.newCycle _ _ _ ha h4 hn hf ((hck _ rfl).trans hc)]
    simp only [Bool.not_true, Bool.false_eq_true, if_false, good, State.respond, true_or, if_true,
      afterStore_other _ _ _ ha h8]
    rfl
  | chain =>
    refine ⟨s.newCycle, rfl, ?_⟩
    unfold State.writeThrough
    congr 1
    apply drain s.newCycle rfl
    simp only [State.reaches] at hr
    simp only [State.writeBy, State.chainWrite, hr, busWrite_aon s.newCycle _ _ _ ha h4 hn hf ((hck _ rfl).trans hc)]
    simp only [Bool.not_true, Bool.false_eq_true, if_false, good, State.respond, true_or, if_true,
      afterStore_other _ _ _ ha h8]
    rfl

end Sys2Proof.Machine
end

