-- ==== Sys2Proof/Laws/Memory.lean ====
section
/-!
SUPPORT. The canonical form of memory, and reads after writes: every operation on the list of cells keeps the form, a write puts
its byte at its address and leaves every other byte.
-/

namespace Sys2Proof.Machine

/-! ## One cell -/

theorem cellsFrom_mono {lo lo' : Nat} {l : List Host.Cell} (h : cellsFrom lo l = true) (hl : lo' ≤ lo) :
    cellsFrom lo' l = true := by
  cases l with
  | nil => rfl
  | cons p r =>
    obtain ⟨x, b⟩ := p
    simp only [cellsFrom, Bool.and_eq_true, decide_eq_true_eq] at h ⊢
    exact ⟨⟨by omega, h.1.2⟩, h.2⟩

/-- Below the first entry nothing is listed. -/
theorem cellAt_below {lo a : Nat} {l : List Host.Cell} (h : cellsFrom lo l = true) (ha : a < lo) :
    cellAt l a = unlisted := by
  cases l with
  | nil => rfl
  | cons p r =>
    obtain ⟨x, b⟩ := p
    simp only [cellsFrom, Bool.and_eq_true, decide_eq_true_eq] at h
    have : lo ≤ x := h.1.1
    simp only [cellAt]
    rw [if_neg (by omega), if_pos (by omega)]

/-- A write keeps the canonical form. -/
theorem putCell_cells {lo : Nat} {l : List Host.Cell} (a : Nat) (b : Byte) (h : cellsFrom lo l = true) (ha : lo ≤ a) :
    cellsFrom lo (putCell l a b) = true := by
  induction l generalizing lo with
  | nil =>
    simp only [putCell]
    split
    · rfl
    · simp_all [cellsFrom]
  | cons p r ih =>
    obtain ⟨x, c⟩ := p
    simp only [cellsFrom, Bool.and_eq_true, decide_eq_true_eq] at h
    obtain ⟨⟨h1, h2⟩, h3⟩ := h
    simp only [putCell]
    split
    · split
      · simp [cellsFrom, h1, h2, h3]
      · rename_i h4 h5
        simp only [cellsFrom, Bool.and_eq_true, decide_eq_true_eq, bne_iff_ne, ne_eq]
        exact ⟨⟨ha, h5⟩, ⟨by omega, by simpa using h2⟩, h3⟩
    · split
      · split
        · exact cellsFrom_mono h3 (by omega)
        · rename_i h4 h5 h6
          simp only [cellsFrom, Bool.and_eq_true, decide_eq_true_eq, bne_iff_ne, ne_eq]
          subst h5
          exact ⟨⟨ha, h6⟩, h3⟩
      · simp only [cellsFrom, Bool.and_eq_true, decide_eq_true_eq]
        exact ⟨⟨h1, h2⟩, ih h3 (by omega)⟩

/-- A write puts its byte at its address and leaves every other byte. -/
theorem cellAt_putCell {lo : Nat} {l : List Host.Cell} (a : Nat) (b : Byte) (x : Nat) (h : cellsFrom lo l = true) :
    cellAt (putCell l a b) x = if x = a then b else cellAt l x := by
  induction l generalizing lo with
  | nil =>
    simp only [putCell, cellAt]
    split
    · split <;> simp_all [cellAt]
    · simp only [cellAt]
      by_cases hx : x = a
      · simp [hx]
      · rw [if_neg (by omega), if_neg hx]
        simp
  | cons p r ih =>
    obtain ⟨y, c⟩ := p
    simp only [cellsFrom, Bool.and_eq_true, decide_eq_true_eq] at h
    obtain ⟨⟨h1, h2⟩, h3⟩ := h
    simp only [putCell]
    split
    · rename_i hay
      split
      · rename_i hb
        split
        · subst hb
          rename_i hx
          subst hx
          simp only [cellAt]
          rw [if_neg (by omega), if_pos hay]
        · rfl
      · simp only [cellAt]
        by_cases hx : x = a
        · simp [hx]
        · rw [if_neg (by omega), if_neg hx]
          by_cases hxa : x < a
          · rw [if_pos hxa, if_neg (by omega), if_pos (by omega)]
          · rw [if_neg hxa]
    · split
      · rename_i hay
        subst hay
        split
        · rename_i hb
          by_cases hx : x = a
          · subst hx
            rw [if_pos rfl, cellAt_below h3 (by omega), hb]
          · rw [if_neg hx]
            simp only [cellAt]
            rw [if_neg (by omega)]
            by_cases hxa : x < a
            · rw [if_pos hxa, cellAt_below h3 (by omega)]
            · rw [if_neg hxa]
        · simp only [cellAt]
          by_cases hx : x = a
          · simp [hx]
          · simp only [if_neg hx, if_neg (show ¬a = x by omega)]
      · rename_i h4 h5
        simp only [cellAt, ih h3]
        by_cases hx : x = a
        · subst hx
          simp only [if_true, if_neg (show ¬y = x by omega), if_neg (show ¬x < y by omega)]
        · simp only [if_neg hx]

/-- Two lists in canonical form that read alike are equal. -/
theorem cells_ext {lo : Nat} {l m : List Host.Cell} (hl : cellsFrom lo l = true) (hm : cellsFrom lo m = true)
    (h : ∀ a, cellAt l a = cellAt m a) : l = m := by
  induction l generalizing lo m with
  | nil =>
    cases m with
    | nil => rfl
    | cons p r =>
      obtain ⟨x, b⟩ := p
      have h1 := h x
      simp only [cellsFrom, Bool.and_eq_true, bne_iff_ne, ne_eq] at hm
      simp [cellAt] at h1
      exact absurd h1.symm hm.1.2
  | cons p r ih =>
    obtain ⟨x, b⟩ := p
    have hl0 := hl
    simp only [cellsFrom, Bool.and_eq_true, bne_iff_ne, ne_eq, decide_eq_true_eq] at hl
    cases m with
    | nil =>
      have h1 := h x
      simp [cellAt] at h1
      exact absurd h1 hl.1.2
    | cons q t =>
      obtain ⟨y, c⟩ := q
      have hm0 := hm
      simp only [cellsFrom, Bool.and_eq_true, bne_iff_ne, ne_eq, decide_eq_true_eq] at hm
      have hx := h x
      have hy := h y
      simp only [cellAt] at hx hy
      rcases Nat.lt_trichotomy x y with hxy | hxy | hxy
      · simp only [if_true, if_neg (show ¬y = x by omega), if_pos hxy] at hx
        exact absurd hx hl.1.2
      · subst hxy
        simp only [if_true] at hx
        subst hx
        have : r = t := ih hl.2 hm.2 fun a => by
          have ha := h a
          simp only [cellAt] at ha
          rcases Nat.lt_or_ge a (x + 1) with h1 | h1
          · rw [cellAt_below hl.2 h1, cellAt_below hm.2 h1]
          · rw [if_neg (by omega), if_neg (by omega), if_neg (by omega), if_neg (by omega)] at ha
            exact ha
        rw [this]
      · simp only [if_true, if_neg (show ¬x = y by omega), if_pos hxy] at hy
        exact absurd hy.symm hm.1.2

/-- Dropping entries keeps the canonical form. -/
theorem filter_cells {lo : Nat} {l : List Host.Cell} (p : Host.Cell → Bool) (h : cellsFrom lo l = true) :
    cellsFrom lo (l.filter p) = true := by
  induction l generalizing lo with
  | nil => rfl
  | cons c r ih =>
    obtain ⟨x, b⟩ := c
    simp only [cellsFrom, Bool.and_eq_true, decide_eq_true_eq] at h
    simp only [List.filter_cons]
    split
    · simp only [cellsFrom, Bool.and_eq_true, decide_eq_true_eq]
      exact ⟨h.1, ih h.2⟩
    · exact cellsFrom_mono (ih h.2) (by omega)

/-! ## Several cells -/

/-- Writes at `a + k` for each `k` of a list keep the canonical form. -/
theorem foldl_putCell_cells {α : Type} (f : α → Nat) (g : α → Byte) (p : α → Bool) (a : Nat) (ks : List α)
    (l : List Host.Cell) (h : cellsFrom 0 l = true) :
    cellsFrom 0 (ks.foldl (fun c k => if p k then putCell c (a + f k) (g k) else c) l) = true := by
  induction ks generalizing l with
  | nil => exact h
  | cons k ks ih =>
    simp only [List.foldl_cons]
    apply ih
    split
    · exact putCell_cells _ _ h (Nat.zero_le _)
    · exact h

/-- What a byte reads after writes at `a`, `a + 1` ..: the mask's bytes change, and nothing else. -/
theorem cellAt_foldl_put (g : Nat → Byte) (p : Nat → Bool) (a x n : Nat) (l : List Host.Cell)
    (h : cellsFrom 0 l = true) :
    cellAt ((List.range n).foldl (fun c k => if p k then putCell c (a + k) (g k) else c) l) x =
      if a ≤ x ∧ x < a + n ∧ p (x - a) = true then g (x - a) else cellAt l x := by
  induction n with
  | zero =>
    simp only [List.range_zero, List.foldl_nil]
    rw [if_neg (by omega)]
  | succ n ih =>
    have hc := foldl_putCell_cells id g p a (List.range n) l h
    simp only [id] at hc
    simp only [List.range_succ, List.foldl_append, List.foldl_cons, List.foldl_nil]
    by_cases hx : x = a + n
    · subst hx
      have e : a + n - a = n := by omega
      split
      · rename_i hp
        rw [cellAt_putCell _ _ _ hc, if_pos rfl, if_pos ⟨by omega, by omega, by rw [e]; exact hp⟩, e]
      · rename_i hp
        rw [ih, if_neg (by omega), if_neg]
        rintro ⟨_, _, hq⟩
        rw [e] at hq
        exact hp hq
    · have hi : (a ≤ x ∧ x < a + (n + 1) ∧ p (x - a) = true) ↔ (a ≤ x ∧ x < a + n ∧ p (x - a) = true) := by
        constructor <;> rintro ⟨h1, h2, h3⟩ <;> exact ⟨h1, by omega, h3⟩
      simp only [hi]
      split
      · rw [cellAt_putCell _ _ _ hc, if_neg hx, ih]
      · exact ih

theorem putMasked_cells (l : List Host.Cell) (a : Nat) (d : DWord) (m : BitVec 8) (h : cellsFrom 0 l = true) :
    cellsFrom 0 (putMasked l a d m) = true :=
  foldl_putCell_cells id (fun k => BitVec.ofNat 8 (d.toNat >>> (8 * k))) (fun k => m.getLsbD k) a (List.range 8) l h

theorem cellAt_putMasked (l : List Host.Cell) (a : Nat) (d : DWord) (m : BitVec 8) (x : Nat) (h : cellsFrom 0 l = true) :
    cellAt (putMasked l a d m) x =
      if a ≤ x ∧ x < a + 8 ∧ m.getLsbD (x - a) = true then BitVec.ofNat 8 (d.toNat >>> (8 * (x - a))) else cellAt l x :=
  cellAt_foldl_put (fun k => BitVec.ofNat 8 (d.toNat >>> (8 * k))) (fun k => m.getLsbD k) a x 8 l h

/-- The cells of a write of `n` bytes. -/
theorem poke_cells (s : State) (a n v : Nat) (h : Memory.wf s.mem = true) : Memory.wf (s.poke a n v).mem = true := by
  have := foldl_putCell_cells id (fun k => BitVec.ofNat 8 (v >>> (8 * k))) (fun _ => true) a (List.range n) s.mem.cells h
  simpa [Memory.wf, State.poke] using this

theorem pokeList_cells (s : State) (a : Nat) (l : List Byte) (h : Memory.wf s.mem = true) :
    Memory.wf (s.pokeList a l).mem = true := by
  have := foldl_putCell_cells (fun p : Byte × Nat => p.2) (fun p => p.1) (fun _ => true) a l.zipIdx s.mem.cells h
  simpa [Memory.wf, State.pokeList] using this

/-- Every byte after a write of `n` bytes at `a`. -/
theorem cellAt_poke (s : State) (a n v x : Nat) (h : Memory.wf s.mem = true) :
    cellAt (s.poke a n v).mem.cells x =
      if a ≤ x ∧ x < a + n then BitVec.ofNat 8 (v >>> (8 * (x - a))) else cellAt s.mem.cells x := by
  have := cellAt_foldl_put (fun k => BitVec.ofNat 8 (v >>> (8 * k))) (fun _ => true) a x n s.mem.cells h
  simpa [State.poke] using this

end Sys2Proof.Machine
end

