-- ==== Sys2Proof/Laws/Engine.lean ====
section
/-!
SUPPORT. The engine's shared operations on an instruction that issues: changes of flow, exception entry, results that end at the
next word, loads and stores. One lemma for each says all it does (R135, R137, R139, R150, R160).
-/

namespace Sys2Proof.Machine

/-- The state in which an instruction of shuttle `i` acts once it has issued. -/
theorem sh_fetched (s : State) (n : Noted) (i : Fin 4) (o : Nat) :
    ((s.modSh i fun x => x.fetched o).noted n).sh i = { (s.sh i).fetched o with wpend := n.wpend i } := by
  simp

theorem user_fetched (s : State) (n : Noted) (i : Fin 4) (o : Nat) :
    ((s.modSh i fun x => x.fetched o).noted n).user i = s.user i := by
  simp [State.user, Shuttle.fetched]

theorem ea_fetched (s : State) (n : Noted) (i : Fin 4) (o : Nat) (ra : Fin 16) (imm : BitVec 18) :
    ((s.modSh i fun x => x.fetched o).noted n).ea i ra imm = s.ea i ra imm := by
  simp only [State.ea, reg_noted, reg_fetched]

/-- A shuttle to which a slot comes is enabled and READY (R118). -/
theorem nextSlot_ready {s : State} {i : Fin 4} {c : Nat} (h : s.nextSlot i = some c) :
    (s.sh i).en = true ∧ (s.sh i).run = .ready := by
  have hs : s.slotOf c = some i := by
    simp only [State.nextSlot, Option.map_eq_some_iff] at h
    obtain ⟨k, hk, rfl⟩ := h
    simpa using List.find?_some hk
  have hc : s.canIssue i c = true := by
    unfold State.slotOf at hs
    dsimp only at hs
    split at hs
    · rename_i h1
      rw [← Option.some.inj hs]; exact h1
    · split at hs
      · cases hs
      · have := List.find?_some hs
        simp only [Bool.and_eq_true] at this
        exact this.2
  simp only [State.canIssue, Bool.and_eq_true, beq_iff_eq] at hc
  exact hc.1

theorem hasSlot_ready {s : State} {i : Fin 4} (h : s.hasSlot i = true) : (s.sh i).run = .ready := by
  simp only [State.hasSlot, Bool.and_eq_true] at h
  obtain ⟨c, hc⟩ := Option.isSome_iff_exists.mp h.1.1.2
  exact (nextSlot_ready hc).2

theorem issues_ready {s : State} {i : Fin 4} (h : s.issues i = true) : (s.sh i).run = .ready := by
  simp only [State.issues, Bool.and_eq_true] at h
  exact hasSlot_ready h.1

/-- Two descriptions of what an instruction makes of its shuttle, equal on that shuttle's state. -/
theorem Issued.congr {o : Out} {s : State} {i : Fin 4} {f g : Nat → Shuttle → Shuttle}
    (h : Issued o s i f) (e : ∀ now, f now ((s.sh i).fetched s.mem.oldNum) = g now ((s.sh i).fetched s.mem.oldNum)) :
    Issued o s i g := by
  obtain ⟨c, n, hc, hn, cn, ho⟩ := h
  have : (s.modSh i fun x => f (c + 1) (x.fetched s.mem.oldNum)) = s.modSh i fun x => g (c + 1) (x.fetched s.mem.oldNum) := by
    exact congrArg (s.setSh i) (e (c + 1))
  exact ⟨c, n, hc, hn, this ▸ cn, this ▸ ho⟩

/-! ## Changes of flow -/

/-- A jump or a taken branch. -/
theorem goto_noted (s : State) (n : Noted) (i : Fin 4) (t : Word) :
    ∃ m : Noted, m.cyc = n.cyc ∧ (∀ u : State, n.Counts u → m.Counts u) ∧ (s.noted n).goto i t =
      (s.modSh i fun x => { x with pc := t, flow := true, freeAt := n.cyc + flowCost t }).noted m := by
  unfold State.goto
  obtain ⟨m, hm, cm, e⟩ := count_tally (s.noted n) 0x09 (some i) .occ 1
  refine ⟨m, hm, fun u h => h.trans (cm.congr rfl rfl (fun k => by rw [get_noted, get_noted]) rfl), ?_⟩
  rw [e, noted_noted]
  unfold State.jump
  rw [noted_modSh _ _ _ _ (by intros; rfl)]
  simp [hm]

/-! ## Exceptions -/

/-- Exception entry (R137). -/
theorem raise_noted (s : State) (n : Noted) (i : Fin 4) (cause addr : Word) (h : (s.sh i).inexc = false)
    (hr : (s.sh i).run = .ready) :
    ∃ m : Noted, m.cyc = n.cyc ∧ (∀ u : State, n.Counts u → m.Counts u) ∧ (s.noted n).raise i cause addr =
      (s.modSh i fun x => x.trapped (s.eng.vecbase + BitVec.ofNat 32 (0x100 * i.val)) cause addr n.cyc).noted m := by
  unfold State.raise State.ended
  simp only [noted_sh, h, hr]
  have key := noted_modSh s n i
    (fun x => x.trapped (s.eng.vecbase + BitVec.ofNat 32 (0x100 * i.val)) cause addr n.cyc) (by intros; rfl)
  obtain ⟨m, hm, cm, e⟩ := count_tally ((s.noted n).modSh i fun x =>
    x.trapped (s.eng.vecbase + BitVec.ofNat 32 (0x100 * i.val)) cause addr n.cyc) 0x0A (some i) .occ 1
  rw [key] at cm
  refine ⟨m, hm, fun u h => h.trans (cm.congr rfl rfl (fun k => by rw [get_noted, get_noted]) rfl), ?_⟩
  rw [key, noted_noted, ← key] at e
  rw [← e]
  simp only [Bool.false_eq_true, if_false]
  unfold State.modSh Shuttle.trapped
  simp only [noted_sh]
  simp only [show (RunState.ready == RunState.busy) = false from rfl, Bool.false_eq_true, if_false]
  rfl

/-- An interrupt that is due at the issue point is taken (R138, R145). -/
theorem interrupt_slot {s : State} {i : Fin 4} {e : Nat} (h : (s.nextSlot i).isSome = true) :
    Interrupts (.next ((s.preSlot i).interrupt i e)) s i e := by
  obtain ⟨c, hc⟩ := Option.isSome_iff_exists.mp h
  obtain ⟨n, hn, cn, en⟩ := idleTick_counts s (c - s.eng.cyc)
  have hcyc : n.cyc = c := by have := nextSlot_ge s i c hc; omega
  have hfree : (s.sh i).freeAt ≤ c := by have := nextSlot_free s i c hc; omega
  have hp : s.preSlot i = s.noted n := by unfold State.preSlot; rw [hc]; exact en
  have key := noted_modSh s n i (fun x => x.interrupted (s.eng.vecbase + BitVec.ofNat 32 (0x100 * i.val + 0x80)) e c)
    (by intros; rfl)
  obtain ⟨m, hm, cm, em⟩ := count_tally ((s.noted n).modSh i fun x =>
    x.interrupted (s.eng.vecbase + BitVec.ofNat 32 (0x100 * i.val + 0x80)) e c) 0x0B (some i) .occ 1
  rw [key] at cm em hm
  refine ⟨c, m, hc, by rw [hm]; exact hcyc, ?_, ?_⟩
  · exact (cn.modSh i _ rfl).trans cm
  · rw [noted_noted] at em
    rw [← em, ← key, hp]
    unfold State.interrupt State.modSh Shuttle.interrupted State.entry
    simp only [noted_sh, noted_cyc, hcyc, max_eq_left hfree]
    rfl

/-- An instruction whose shuttle is due an interrupt, and which has no cause of its own before it issues (R141, R145). -/
theorem interrupts_with {s : State} {sh : Fin 4} {pre : State → PreCause} {f : State → State} {e : Nat}
    (h : s.hasSlot sh = true) (hi : (s.preSlot sh).irq sh = some e)
    (hp : ∀ n : Noted, pre ((s.modSh sh fun x => x.fetched s.mem.oldNum).noted n) = none) :
    Interrupts (.next (s.instrWith sh pre f)) s sh e := by
  obtain ⟨c, n, hc, _, _, ex⟩ := instrWith_slot s sh h
  rw [ex, hp]
  simp only [hi]
  exact interrupt_slot (by simp [hc])

/-- An instruction that raises an exception of its own before it issues (R141). -/
theorem traps_pre {s : State} {sh : Fin 4} {pre : State → PreCause} {f : State → State} {cause : Nat} {addr : Word}
    (h : s.hasSlot sh = true) (hx : (s.sh sh).inexc = false)
    (hp : ∀ n : Noted, pre ((s.modSh sh fun x => x.fetched s.mem.oldNum).noted n) = some (BitVec.ofNat 32 cause, addr)) :
    Traps (.next (s.instrWith sh pre f)) s sh cause addr := by
  obtain ⟨c, n, hc, hn, cn, e⟩ := instrWith_slot s sh h
  rw [e, hp]
  obtain ⟨m, hm, cm, em⟩ := raise_noted (s.modSh sh fun x => x.fetched s.mem.oldNum) n sh (BitVec.ofNat 32 cause) addr
    (by simp [hx, Shuttle.fetched]) (by simp [(nextSlot_ready hc).2, Shuttle.fetched])
  refine ⟨c, m, hc, by rw [hm, hn], (cm s cn.ofNew).modSh sh _ rfl, ?_⟩
  dsimp only
  rw [em, modSh_modSh, hn]
  rfl

/-- An instruction that raises an exception once it has issued. -/
theorem traps_with {s : State} {sh : Fin 4} {pre : State → PreCause} {f : State → State} {cause : Nat} {addr : Word}
    (h : s.issues sh = true) (hx : (s.sh sh).inexc = false)
    (hp : ∀ n : Noted, pre ((s.modSh sh fun x => x.fetched s.mem.oldNum).noted n) = none)
    (hf : ∀ n : Noted, f ((s.modSh sh fun x => x.fetched s.mem.oldNum).noted n) =
      ((s.modSh sh fun x => x.fetched s.mem.oldNum).noted n).raise sh (BitVec.ofNat 32 cause) addr) :
    Traps (.next (s.instrWith sh pre f)) s sh cause addr := by
  obtain ⟨c, n, hc, hn, cn, e⟩ := instrWith_ok s sh h
  rw [e _ _ (hp n), hf]
  obtain ⟨m, hm, cm, em⟩ := raise_noted (s.modSh sh fun x => x.fetched s.mem.oldNum) n sh (BitVec.ofNat 32 cause) addr
    (by simp [hx, Shuttle.fetched]) (by simp [(nextSlot_ready hc).2, Shuttle.fetched])
  refine ⟨c, m, hc, by rw [hm, hn], (cm s cn.ofNew).modSh sh _ rfl, ?_⟩
  rw [em, modSh_modSh, hn]
  rfl

theorem traps_of {s : State} {sh : Fin 4} {f : State → State} {cause : Nat} {addr : Word} (h : s.issues sh = true)
    (hx : (s.sh sh).inexc = false)
    (hf : ∀ n : Noted, f ((s.modSh sh fun x => x.fetched s.mem.oldNum).noted n) =
      ((s.modSh sh fun x => x.fetched s.mem.oldNum).noted n).raise sh (BitVec.ofNat 32 cause) addr) :
    Traps (.next (s.instr sh f)) s sh cause addr := traps_with h hx (fun _ => rfl) hf

/-! ## Instructions that end at the next word -/

/-- An instruction without a cause of its own that changes its own shuttle as `g`, leaves its latch alone, and ends at the next
word. -/
theorem step_with {s : State} {sh : Fin 4} {pre : State → PreCause} {f : State → State} {g : Shuttle → Shuttle} {cost : Nat}
    (h : s.issues sh = true) (hg : ∀ x w, g { x with wpend := w } = { g x with wpend := w }) (hb : ∀ x, (g x).flow = x.flow)
    (hp : ∀ n : Noted, pre ((s.modSh sh fun x => x.fetched s.mem.oldNum).noted n) = none)
    (hf : ∀ n : Noted, f ((s.modSh sh fun x => x.fetched s.mem.oldNum).noted n) =
      (((s.modSh sh fun x => x.fetched s.mem.oldNum).noted n).modSh sh g).advance sh cost) :
    Issued (.next (s.instrWith sh pre f)) s sh fun now x => (g x).stepped cost now := by
  obtain ⟨c, n, hc, hn, cn, e⟩ := instrWith_ok s sh h
  rw [e _ _ (hp n), hf, noted_modSh _ _ _ _ hg, modSh_modSh]
  obtain ⟨m, hm, cm, em⟩ := advance_noted (s.modSh sh fun x => g (x.fetched s.mem.oldNum)) n sh cost
  have hw : ∀ x : Shuttle, (g x).wpend = x.wpend := fun x => by
    have := hg x x.wpend
    simpa using congrArg Shuttle.wpend this
  refine ⟨c, m, hc, by rw [hm, hn], (cm s cn.ofNew).modSh sh _ (hw _), ?_⟩
  rw [em, modSh_modSh, hn]
  congr 3
  funext x
  have hx : (g (x.fetched s.mem.oldNum)).flow = false := hb _
  simp only [Shuttle.stepped, hx, hn]

theorem step_of {s : State} {sh : Fin 4} {f : State → State} {g : Shuttle → Shuttle} {cost : Nat} (h : s.issues sh = true)
    (hg : ∀ x w, g { x with wpend := w } = { g x with wpend := w }) (hb : ∀ x, (g x).flow = x.flow)
    (hf : ∀ n : Noted, f ((s.modSh sh fun x => x.fetched s.mem.oldNum).noted n) =
      (((s.modSh sh fun x => x.fetched s.mem.oldNum).noted n).modSh sh g).advance sh cost) :
    Issued (.next (s.instr sh f)) s sh fun now x => (g x).stepped cost now := step_with h hg hb (fun _ => rfl) hf

/-! ## Crossings -/

theorem takes_fold (e : Eng) (f : GatherIsland × Nat → Nat) (l : List (GatherIsland × Nat)) :
    l.foldl (fun e p => e.takes p.1 (f p)) e =
      { e with crossFree := l.foldl (fun v p => v.set (islIdx p.1) (e.cyc - 1 + f p)) e.crossFree } := by
  induction l generalizing e with
  | nil => rfl
  | cons p l ih =>
    rw [List.foldl_cons, ih]
    rfl

/-- Crossings of an instruction that issued in cycle `c` (R125, R180). -/
theorem crossed_noted (s : State) (n : Noted) (i : Fin 4) (l : List (GatherIsland × Nat)) (c : Nat) (hn : n.cyc = c + 1) :
    ∃ m : Noted, m.cyc = n.cyc ∧ (∀ u : State, n.Counts u → m.Counts u) ∧ (s.noted n).crossed i l =
      ((s.served c l).modSh i fun x =>
        { x with pc := x.pc + 4, freeAt := n.cyc + (s.crossTime c l - 1) }).noted m := by
  have ht : (l.map fun p => (s.noted n).eng.crossEnd p.1 p.2).foldl max 1 = s.crossTime c l := by
    unfold State.crossTime
    congr 2
    funext p
    unfold Eng.crossEnd
    simp only [noted_cyc, noted_crossFree, hn]
    omega
  have he : ({ s.noted n with eng := l.foldl (fun e p => e.takes p.1 ((s.noted n).eng.crossEnd p.1 p.2)) (s.noted n).eng } : State) =
      (s.served c l).noted n := by
    rw [takes_fold]
    have : (fun (v : Vector Nat 3) (p : GatherIsland × Nat) =>
          v.set (islIdx p.1) ((s.noted n).eng.cyc - 1 + (s.noted n).eng.crossEnd p.1 p.2)) =
        fun v p => v.set (islIdx p.1) (max (s.eng.crossFree.get (islIdx p.1)) c + p.2) := by
      funext v p
      congr 1
      unfold Eng.crossEnd
      simp only [noted_cyc, noted_crossFree, hn]
      omega
    simp only [this]
    rfl
  unfold State.crossed
  simp only [ht, he]
  obtain ⟨m, hm, cm, em⟩ := advance_noted (s.served c l) n i (s.crossTime c l)
  rw [em]
  obtain ⟨p, hp, cp, ep⟩ := (count_tally (((s.served c l).modSh i fun x =>
    { x with pc := x.pc + 4, freeAt := n.cyc + (s.crossTime c l - 1) }).noted m) 0x0C (some i) .entry 1).trans
    (count_tally _ 0x0C (some i) .cycles (s.crossTime c l - 1))
  exact ⟨p, by rw [hp, noted_cyc, hm], fun u h => (cm u h).trans (cp.congr rfl rfl (fun k => by rw [get_noted, get_noted]) rfl),
    by rw [ep, noted_noted]⟩

end Sys2Proof.Machine
end

