-- ==== Sys2Proof/Laws/Sound.lean ====
section
/-!
SUPPORT. Soundness of memory and the queue through the shared updates: one lemma per update, and the operations on memory, the
write buffer and the persistent banks.
-/

namespace Sys2Proof.Machine

variable {q : List Instr} {s t : State}

/-! ## How soundness passes on -/

/-- A change that leaves memory and the queue alone. -/
theorem Sound.of (h : Sound q s) (hm : t.mem = s.mem) (hp : t.pending = s.pending) : Sound q t := by
  refine ⟨?_, by rw [hp]; exact h.2⟩
  rw [hm]; exact h.1

theorem Mem.Sound.of {m n : Mem} (h : m.Sound) (hc : n.cells = m.cells) (hw : n.wbuf = m.wbuf) : n.Sound := by
  refine ⟨?_, ?_, ?_⟩
  · have := h.cells
    unfold Memory.wf at *
    rw [hc]; exact this
  · rw [hw]; exact h.room
  · rw [hw]; exact h.once

/-- A change of memory's registers. -/
theorem setMem_sound {m : Mem} (h : Sound q s) (hc : m.cells = s.mem.cells) (hw : m.wbuf = s.mem.wbuf) :
    Sound q (s.setMem m) := ⟨h.1.of hc hw, h.2⟩

/-- A change of the cells that keeps the canonical form. -/
theorem setCells_sound {c : List Host.Cell} (h : Sound q s) (hc : cellsFrom 0 c = true) : Sound q (s.setCells c) :=
  ⟨⟨hc, h.1.room, h.1.once⟩, h.2⟩

theorem ite_sound {c : Prop} [Decidable c] (ht : c → Sound q t) (hs : ¬c → Sound q s) : Sound q (if c then t else s) := by
  split
  · exact ht ‹_›
  · exact hs ‹_›

theorem foldl_sound {α : Type} {f : State → α → State} {l : List α} (h : Sound q s)
    (hf : ∀ t x, Sound q t → Sound q (f t x)) : Sound q (l.foldl f s) := by
  induction l generalizing s with
  | nil => exact h
  | cons a l ih => exact ih (hf s a h)

theorem Quiet.sound (hq : Quiet s t) (h : Sound q s) : Sound q t := by
  obtain ⟨n, -, rfl⟩ := hq
  exact h

theorem noted_sound {n : Noted} (h : Sound q s) : Sound q (s.noted n) := h

/-! ## Memory and the write buffer -/

theorem putMasked_sound {w : Nat} {d : DWord} {m : BitVec 8} (h : Sound q s) :
    Sound q (s.setCells (putMasked s.mem.cells w d m)) := setCells_sound h (putMasked_cells _ _ _ _ h.1.cells)

theorem poke_sound {a n v} (h : Sound q s) : Sound q (s.poke a n v) :=
  setCells_sound h (poke_cells s a n v h.1.cells)

theorem pokeList_sound {a l} (h : Sound q s) : Sound q (s.pokeList a l) :=
  setCells_sound h (pokeList_cells s a l h.1.cells)

theorem eccFlag_sound {b m} (h : Sound q s) : Sound q (s.eccFlag b m) := by
  have k : Sound q (s.setMem { s.mem with eccstat := s.mem.eccstat ||| b }) := setMem_sound h rfl rfl
  unfold State.eccFlag
  exact ite_sound (fun _ => (event_quiet _ _).sound k) fun _ => k

theorem eccRecord_sound {w u} (h : Sound q s) : Sound q (s.eccRecord w u) := by
  unfold State.eccRecord
  exact ite_sound (fun _ => h) fun _ => setMem_sound h rfl rfl

theorem eccCount_sound {w} (h : Sound q s) : Sound q (s.eccCount w) := by
  have key : ∀ {t : State} {a b}, Sound q t → Sound q (t.setMem (if inMram w then { t.mem with mcnt := a } else { t.mem with scnt := b })) := by
    intro t a b h
    split <;> exact setMem_sound h rfl rfl
  unfold State.eccCount
  refine ite_sound (fun _ => ?_) fun _ => ?_
  · exact eccFlag_sound ((occur_quiet _ _).sound (eccFlag_sound (key (eccRecord_sound h))))
  · exact (occur_quiet _ _).sound (eccFlag_sound (key (eccRecord_sound h)))

theorem eccUncor_sound {w b} (h : Sound q s) : Sound q (s.eccUncor w b) := eccFlag_sound (eccRecord_sound h)

theorem entryOf_none {m : Mem} {w : Nat} (h : m.entryOf w = none) : w ∉ m.wbuf.map WbEntry.word := by
  simp only [Mem.entryOf, List.find?_eq_none, List.mem_map, not_exists, not_and] at *
  intro e he hw
  simpa [hw] using h e he

theorem entryOf_some {m : Mem} {w : Nat} {e : WbEntry} (h : m.entryOf w = some e) : w ∈ m.wbuf.map WbEntry.word := by
  simp only [Mem.entryOf] at h
  have h1 := List.mem_of_find?_eq_some h
  have h2 := List.find?_some h
  simp only [List.mem_map]
  exact ⟨e, h1, by simpa using h2⟩

/-- The bytes of memory and the write buffer are as they were. -/
def Kept (s t : State) : Prop := t.mem.wbuf = s.mem.wbuf ∧ t.mem.cells = s.mem.cells

theorem Kept.trans {u : State} (h : Kept s t) (k : Kept t u) : Kept s u := ⟨k.1.trans h.1, k.2.trans h.2⟩

theorem kept_ite {c : Prop} [Decidable c] {u : State} (ht : Kept s t) (hu : Kept s u) : Kept s (if c then t else u) := by
  split <;> assumption

theorem occur_kept (s : State) (e : Nat) : Kept s (s.occur e) := by simp [Kept]

theorem eccFlag_kept (s : State) (b : BitVec 7) (m : Bool) : Kept s (s.eccFlag b m) := by
  unfold State.eccFlag
  exact kept_ite (by simp [Kept]) ⟨rfl, rfl⟩

theorem eccRecord_kept (s : State) (w : Nat) (u : Bool) : Kept s (s.eccRecord w u) := by
  unfold State.eccRecord
  exact kept_ite ⟨rfl, rfl⟩ ⟨rfl, rfl⟩

/-- Counting errors leaves the write buffer and the cells. -/
theorem eccCount_kept (s : State) (w : Nat) : Kept s (s.eccCount w) := by
  have hset : ∀ (t : State) a b,
      Kept t (t.setMem (if inMram w then { t.mem with mcnt := a } else { t.mem with scnt := b })) := by
    intro t a b
    split <;> exact ⟨rfl, rfl⟩
  unfold State.eccCount
  refine kept_ite (Kept.trans ?_ (eccFlag_kept _ _ _)) ?_ <;>
    exact (((eccRecord_kept s w false).trans (hset _ _ _)).trans (eccFlag_kept _ _ _)).trans (occur_kept _ _)

theorem eccUncor_kept (s : State) (w : Nat) (b : BitVec 7) : Kept s (s.eccUncor w b) :=
  (eccRecord_kept s w true).trans (eccFlag_kept _ _ _)

theorem eccRead_sound {w b} (h : Sound q s) : Sound q (s.eccRead w b).1 := by
  unfold State.eccRead
  split
  · exact h
  · have hc := eccCount_sound (w := w) h
    dsimp only
    split
    · exact setMem_sound hc rfl rfl
    · split
      · rename_i h1
        simp only [Bool.and_eq_true, decide_eq_true_eq, Option.isNone_iff_eq_none] at h1
        refine ⟨⟨hc.1.cells, ?_, ?_⟩, hc.2⟩
        · simp only [State.setMem, List.length_append, List.length_cons, List.length_nil]
          omega
        · simp only [State.setMem, List.map_append, List.map_cons, List.map_nil]
          rw [List.nodup_append]
          refine ⟨hc.1.once, by simp, ?_⟩
          intro a ha b hb
          simp only [List.mem_singleton] at hb
          subst hb
          rintro rfl
          exact entryOf_none h1.2 ha
      · exact hc
  · exact eccUncor_sound h

theorem eccRead_sound' {w b t r} (h : Sound q s) (e : s.eccRead w b = (t, r)) : Sound q t := by
  have k := eccRead_sound (w := w) (b := b) h
  rw [e] at k; exact k

theorem supersede_kept (s : State) (w : Nat) : Kept s (s.supersede w) := by
  unfold State.supersede
  exact kept_ite ⟨rfl, rfl⟩ ⟨rfl, rfl⟩

theorem supersede_sound {w} (h : Sound q s) : Sound q (s.supersede w) := by
  unfold State.supersede
  exact ite_sound (fun _ => setMem_sound h rfl rfl) fun _ => h

theorem writeWord_sound {w d m i} (h : Sound q s) : Sound q (s.writeWord w d m i) := by
  unfold State.writeWord
  dsimp only
  have h1 : Sound q (if (!m == 0xFF) && decide ((s.supersede w).mem.eccOf w = 1) then (s.supersede w).eccCount w
      else s.supersede w) := ite_sound (fun _ => eccCount_sound (supersede_sound h)) fun _ => supersede_sound h
  refine ite_sound (fun _ => ?_) fun _ => ?_
  · exact eccUncor_sound (setMem_sound (putMasked_sound h1) rfl rfl)
  · exact setMem_sound (putMasked_sound h1) rfl rfl

/-- A masked write puts its bytes into the cells and leaves the write buffer. -/
theorem writeWord_mem (s : State) (w : Nat) (d : DWord) (m : BitVec 8) (i : Nat) :
    (s.writeWord w d m i).mem.wbuf = s.mem.wbuf ∧
      (s.writeWord w d m i).mem.cells = putMasked s.mem.cells w d m := by
  have h1 : Kept s (if (!m == 0xFF) && decide ((s.supersede w).mem.eccOf w = 1) then (s.supersede w).eccCount w
      else s.supersede w) :=
    (supersede_kept s w).trans (kept_ite (eccCount_kept _ w) ⟨rfl, rfl⟩)
  have h2 : ∀ t u : State, Kept s t → Kept (t.setCells (putMasked t.mem.cells w d m)) u →
      u.mem.wbuf = s.mem.wbuf ∧ u.mem.cells = putMasked s.mem.cells w d m := by
    intro t u ht hu
    refine ⟨hu.1.trans ht.1, hu.2.trans ?_⟩
    simp [ht.2]
  unfold State.writeWord
  dsimp only
  split
  · refine h2 _ _ h1 (Kept.trans ?_ (eccUncor_kept _ _ _))
    exact ⟨rfl, rfl⟩
  · exact h2 _ _ h1 ⟨rfl, rfl⟩

theorem writeWord_wbuf (s : State) (w : Nat) (d : DWord) (m : BitVec 8) (i : Nat) :
    (s.writeWord w d m i).mem.wbuf = s.mem.wbuf := (writeWord_mem s w d m i).1

theorem wbWriteOne_sound (h : Sound q s) : Sound q s.wbWriteOne := by
  unfold State.wbWriteOne
  split
  · exact h
  · rename_i e r hw
    have hr := h.1.room
    have ho := h.1.once
    rw [hw] at hr ho
    have h1 : Sound q (s.setMem { s.mem with wbuf := r }) :=
      ⟨⟨h.1.cells, by simp at hr; simp [State.setMem]; omega, by
        simp only [List.map_cons, List.nodup_cons] at ho
        exact ho.2⟩, h.2⟩
    refine (occur_quiet _ _).sound (ite_sound (fun _ => setMem_sound (writeWord_sound h1) rfl rfl) fun _ => writeWord_sound h1)

/-- Writing the oldest entry drops it. -/
theorem wbWriteOne_wbuf (s : State) : s.wbWriteOne.mem.wbuf = s.mem.wbuf.drop 1 := by
  unfold State.wbWriteOne
  split
  · rename_i h
    simp [h]
  · rename_i e r hw
    dsimp only
    split <;> simp [writeWord_wbuf, hw]

/-- A store's entry: the words of the buffer, with the store's own at the end if it is new. -/
theorem wbPut_words (l : List WbEntry) (e : WbEntry) :
    (wbPut l e).map WbEntry.word =
      if e.word ∈ l.map WbEntry.word then l.map WbEntry.word else l.map WbEntry.word ++ [e.word] := by
  induction l with
  | nil => rfl
  | cons x r ih =>
    simp only [wbPut]
    split
    · rename_i h
      simp [h]
    · rename_i h
      simp only [List.map_cons, ih, List.mem_cons]
      have : ¬ e.word = x.word := fun hh => h hh.symm
      simp only [this, false_or]
      split <;> rfl

theorem storeBytes_sound {a n v o j} (h : Sound q s) (hr : inMram a = true → s.mem.wbRoom (a / 8 * 8) = true) :
    Sound q (s.storeBytes a n v o j) := by
  unfold State.storeBytes
  dsimp only
  split
  · rename_i hm
    have hr := hr hm
    refine ⟨⟨h.1.cells, ?_, ?_⟩, h.2⟩
    · simp only [State.setMem]
      rw [← List.length_map (f := WbEntry.word), wbPut_words]
      split
      · simpa using h.1.room
      · rename_i hn
        simp only [Mem.wbRoom, Bool.or_eq_true, decide_eq_true_eq, Option.isSome_iff_exists] at hr
        rcases hr with hr | ⟨e, he⟩
        · simp; omega
        · exact absurd (entryOf_some he) hn
    · simp only [State.setMem]
      rw [wbPut_words]
      split
      · exact h.1.once
      · rename_i hn
        rw [List.nodup_append]
        refine ⟨h.1.once, by simp, ?_⟩
        intro x hx y hy
        simp only [List.mem_singleton] at hy
        subst hy
        rintro rfl
        exact hn hx
  · refine ite_sound (fun _ => setMem_sound (writeWord_sound h) rfl rfl) fun _ => writeWord_sound h

theorem loadBytes_sound {a n} (h : Sound q s) : Sound q (s.loadBytes a n).1 := by
  unfold State.loadBytes
  dsimp only
  split
  · split
    · exact h
    · exact eccRead_sound h
  · exact eccRead_sound h

theorem loadBytes_sound' {a n t r} (h : Sound q s) (e : s.loadBytes a n = (t, r)) : Sound q t := by
  have k := loadBytes_sound (a := a) (n := n) h
  rw [e] at k; exact k

/-- A word that the buffer has no room for leaves it full. -/
theorem wbRoom_after (s : State) (w : Nat) (h : s.mem.wbuf.length ≤ 4) : s.wbWriteOne.mem.wbRoom w = true := by
  simp only [Mem.wbRoom, wbWriteOne_wbuf, List.length_drop, Bool.or_eq_true, decide_eq_true_eq]
  exact .inl (by omega)

/-! ## Resets of memory -/

theorem afterReset_sound {m : Mem} {b : Bool} (h : m.Sound) : (m.afterReset b).Sound := by
  refine ⟨?_, by simp [Mem.afterReset, Mem.reset], by simp [Mem.afterReset, Mem.reset]⟩
  simp only [Memory.wf, Mem.afterReset]
  split
  · exact filter_cells _ h.cells
  · exact h.cells

theorem enterShip_sound (h : Sound q s) : Sound q s.enterShip := by
  refine ⟨⟨?_, by simp [State.enterShip], by simp [State.enterShip]⟩, h.2⟩
  exact filter_cells _ h.1.cells

end Sys2Proof.Machine
end

