-- ==== Sys2Proof/Laws/SoundOps.lean ====
section
/-!
SUPPORT. Soundness through the updates of each block, and through the ways a command ends.
-/

namespace Sys2Proof.Machine

variable {q : List Instr} {s : State}

theorem modSys_sound {f} (h : Sound q s) : Sound q (s.modSys f) := h
theorem modEng_sound {f} (h : Sound q s) : Sound q (s.modEng f) := h
theorem modNrg_sound {f} (h : Sound q s) : Sound q (s.modNrg f) := h
theorem modNrgx_sound {f} (h : Sound q s) : Sound q (s.modNrgx f) := h
theorem modDrv_sound {f} (h : Sound q s) : Sound q (s.modDrv f) := h
theorem modFlw_sound {f} (h : Sound q s) : Sound q (s.modFlw f) := h
theorem modFlow_sound {n f} (h : Sound q s) : Sound q (s.modFlow n f) := h
theorem modPrs_sound {f} (h : Sound q s) : Sound q (s.modPrs f) := h
theorem modLine_sound {n f} (h : Sound q s) : Sound q (s.modLine n f) := h
theorem modCmp_sound {n f} (h : Sound q s) : Sound q (s.modCmp n f) := h
theorem modTmp_sound {f} (h : Sound q s) : Sound q (s.modTmp f) := h
theorem modRad_sound {f} (h : Sound q s) : Sound q (s.modRad f) := h
theorem modMac_sound {f} (h : Sound q s) : Sound q (s.modMac f) := h
theorem modMacx_sound {f} (h : Sound q s) : Sound q (s.modMacx f) := h
theorem modLink_sound {n f} (h : Sound q s) : Sound q (s.modLink n f) := h
theorem modNeigh_sound {n f} (h : Sound q s) : Sound q (s.modNeigh n f) := h
theorem modSec_sound {f} (h : Sound q s) : Sound q (s.modSec f) := h
theorem modSlot_sound {n f} (h : Sound q s) : Sound q (s.modSlot n f) := h
theorem modSecx_sound {f} (h : Sound q s) : Sound q (s.modSecx f) := h
theorem modPrf_sound {f} (h : Sound q s) : Sound q (s.modPrf f) := h
theorem modLnk_sound {f} (h : Sound q s) : Sound q (s.modLnk f) := h
theorem setSh_sound {n f} (h : Sound q s) : Sound q (s.setSh n f) := h
theorem modSh_sound {n f} (h : Sound q s) : Sound q (s.modSh n f) := h
theorem allSh_sound {f} (h : Sound q s) : Sound q (s.allSh f) := h
theorem setReg_sound {i r v} (h : Sound q s) : Sound q (s.setReg i r v) := h
theorem freeze_sound (h : Sound q s) : Sound q (s.freeze) := h
theorem pendEvent_sound {e} (h : Sound q s) : Sound q (s.pendEvent e) := h
theorem sameOvf_sound {b} (h : Sound q s) : Sound q (s.sameOvf b) := h
theorem newCycle_sound (h : Sound q s) : Sound q (s.newCycle) := h
theorem disarm_sound {e} (h : Sound q s) : Sound q (s.disarm e) := h
theorem count_sound {e i m k} (h : Sound q s) : Sound q (s.count e i m k) := (count_quiet _ _ _ _ _ ).sound h
theorem occur_sound {e} (h : Sound q s) : Sound q (s.occur e) := (occur_quiet _ _ ).sound h
theorem entered_sound {e i a b} (h : Sound q s) : Sound q (s.entered e i a b) := (entered_quiet _ _ _ _ _ ).sound h
theorem event_sound {e} (h : Sound q s) : Sound q (s.event e) := (event_quiet _ _ ).sound h
theorem transfer_sound {n} (h : Sound q s) : Sound q (s.transfer n) := (transfer_quiet _ _ ).sound h
theorem gather_sound {n} (h : Sound q s) : Sound q (s.gather n) := (gather_quiet _ _ ).sound h
theorem overflow_sound {n} (h : Sound q s) : Sound q (s.overflow n) := (overflow_quiet _ _ ).sound h
theorem addCount_sound {n k} (h : Sound q s) : Sound q (s.addCount n k) := (addCount_quiet _ _ _ ).sound h
theorem countIn_sound {e k n} (h : Sound q s) : Sound q (s.countIn e k n) := (countIn_quiet _ _ _ _ ).sound h
theorem coreTick_sound {k} (h : Sound q s) : Sound q (s.coreTick k) := by
  obtain ⟨n, -, e⟩ := coreTick_noted s k
  rw [e]; exact h
theorem idleTick_sound {k} (h : Sound q s) : Sound q (s.idleTick k) := by
  obtain ⟨n, -, e⟩ := idleTick_noted s k
  rw [e]; exact h

/-- A state written out field by field. -/
theorem mk_sound {x0 x1 x2 x3 x4 x5 x6 x7 x8 x9 x10 x11 x12 x13 x14 x15 x16 x17 x18} (hm : Mem.Sound x2) (hp : x18 = q) : Sound q (State.mk x0 x1 x2 x3 x4 x5 x6 x7 x8 x9 x10 x11 x12 x13 x14 x15 x16 x17 x18) := ⟨hm, hp⟩

theorem Sound.memory (h : Sound q s) : s.mem.Sound := h.1

theorem Sound.queue (h : Sound q s) : s.pending = q := h.2

theorem ite_mem_sound {c : Prop} [Decidable c] {m n : Mem} (hm : c → m.Sound) (hn : ¬c → n.Sound) :
    (if c then m else n).Sound := by
  split
  · exact hm ‹_›
  · exact hn ‹_›


/-- Every next state of a command with power is sound. -/
theorem whenPowered_sound {f : State → State} {t : State} (h : Sound q s) (hf : ∀ s, Sound q s → Sound q (f s))
    (e : whenPowered s f = .next t) : Sound q t := by
  unfold whenPowered at e
  split at e <;> cases e
  · exact hf s h
  · exact h

theorem whenever_sound {c : Bool} {f : State → State} {t : State} (h : Sound q s) (hf : ∀ s, Sound q s → Sound q (f s))
    (e : whenever s c f = .next t) : Sound q t := by
  unfold whenever at e
  split at e <;> cases e
  · exact hf s h
  · exact h

theorem next_sound {t u : State} (h : Sound q t) (e : (Host.Outcome.next t : Out) = .next u) : Sound q u := by
  cases e; exact h

/-- A condition of the command's own guard is at hand for its effect. -/
theorem whenever_sound' {c : Bool} {f : State → State} {t : State} (h : Sound q s)
    (hf : c = true → Sound q s → Sound q (f s)) (e : whenever s c f = .next t) : Sound q t := by
  unfold whenever at e
  split at e <;> cases e
  · rename_i hc
    simp only [Bool.and_eq_true] at hc
    exact hf hc.2 h
  · exact h

end Sys2Proof.Machine
end

