-- ==== Sys2Proof/Laws/SoundMem.lean ====
section
/-!
SUPPORT. Soundness of memory and the queue through the shared operations, memory and the persistent banks: one lemma per operation.
-/

namespace Sys2Proof.Machine

variable {q : List Instr} {s : State}

theorem record_sound {a1 a2 a3 a4} (h : Sound q s) : Sound q (State.record s a1 a2 a3 a4) := by
  unfold State.record
  repeat' with_reducible first
    | assumption | apply occur_sound | dsimp only | apply Sound.memory | apply Sound.queue | refine mk_sound ?_ ?_

theorem coreFall_sound (h : Sound q s) : Sound q (State.coreFall s) := by
  unfold State.coreFall
  repeat' with_reducible first
    | assumption | dsimp only | apply Sound.memory | apply Sound.queue | refine mk_sound ?_ ?_

theorem leaveXo_sound (h : Sound q s) : Sound q (State.leaveXo s) := by
  unfold State.leaveXo
  repeat' with_reducible first
    | assumption | apply coreFall_sound | refine ite_sound (fun _ => ?_) fun _ => ?_ | dsimp only | split
    | apply Sound.memory | apply Sound.queue | refine mk_sound ?_ ?_

theorem xoRest_sound (h : Sound q s) : Sound q (State.xoRest s) := by
  unfold State.xoRest
  repeat' with_reducible first
    | assumption | apply leaveXo_sound | refine ite_sound (fun _ => ?_) fun _ => ?_ | dsimp only | split
    | apply Sound.memory | apply Sound.queue | refine mk_sound ?_ ?_

theorem checkStop_sound (h : Sound q s) : Sound q (State.checkStop s) := by
  unfold State.checkStop
  repeat' with_reducible first
    | assumption | apply xoRest_sound | refine ite_sound (fun _ => ?_) fun _ => ?_ | dsimp only | split
    | apply Sound.memory | apply Sound.queue | refine mk_sound ?_ ?_

theorem begin_sound {a1} (h : Sound q s) : Sound q (State.begin s a1) := by
  unfold State.begin
  repeat' with_reducible first | assumption | apply modSh_sound | dsimp only

theorem restarted_sound {a1} (h : Sound q s) : Sound q (State.restarted s a1) := by
  unfold State.restarted
  repeat' with_reducible first
    | assumption | apply begin_sound | apply checkStop_sound | apply modSh_sound
    | refine ite_sound (fun _ => ?_) fun _ => ?_ | dsimp only | split

theorem ended_sound {a1 a2} (h : Sound q s) : Sound q (State.ended s a1 a2) := by
  unfold State.ended
  repeat' with_reducible first | assumption | apply restarted_sound | refine ite_sound (fun _ => ?_) fun _ => ?_ | split

theorem raise_sound {a1 a2 a3} (h : Sound q s) : Sound q (State.raise s a1 a2 a3) := by
  unfold State.raise
  repeat' with_reducible first
    | assumption | apply checkStop_sound | apply ended_sound | apply setSh_sound | apply count_sound
    | refine ite_sound (fun _ => ?_) fun _ => ?_ | dsimp only | split

theorem land_sound {a1} (h : Sound q s) : Sound q (State.land s a1) := by
  unfold State.land
  repeat' with_reducible first | assumption | apply restarted_sound | apply modSh_sound | dsimp only

theorem interrupt_sound {a1 a2} (h : Sound q s) : Sound q (State.interrupt s a1 a2) := by
  unfold State.interrupt
  repeat' with_reducible first | assumption | apply count_sound | apply setSh_sound | dsimp only

theorem advance_sound {a1 a2} (h : Sound q s) : Sound q (State.advance s a1 a2) := by
  unfold State.advance
  repeat' with_reducible first
    | assumption | apply modSh_sound | apply count_sound | refine ite_sound (fun _ => ?_) fun _ => ?_ | dsimp only
    | split

theorem jump_sound {a1 a2 a3} (h : Sound q s) : Sound q (State.jump s a1 a2 a3) := by
  unfold State.jump
  repeat' with_reducible first | assumption | apply modSh_sound | dsimp only

theorem eret_sound {a1} (h : Sound q s) : Sound q (State.eret s a1) := by
  unfold State.eret
  repeat' with_reducible first | assumption | apply modSh_sound | apply jump_sound | dsimp only

theorem readWords_sound {l} (h : Sound q s) : Sound q (s.readWords l).1 := by
  induction l generalizing s with
  | nil => exact h
  | cons w r ih =>
    unfold State.readWords
    split
    · exact ih (eccRead_sound' h ‹_›)
    · exact eccRead_sound' h ‹_›
theorem readWords_sound' {l} {t} {r} (h : Sound q s) (e : s.readWords l = (t, r)) : Sound q t := by
  have k := readWords_sound (l := l) h
  rw [e] at k; exact k

theorem stallOne_sound (h : Sound q s) : Sound q s.stallOne := by
  unfold State.stallOne
  split
  · exact h
  · split
    · split
      · rename_i hr
        exact land_sound (storeBytes_sound h fun _ => hr)
      · exact h
    · exact h

theorem stallLand_sound (h : Sound q s) : Sound q (State.stallLand s) := by
  unfold State.stallLand
  repeat' with_reducible first | assumption | apply stallOne_sound

theorem wbDrain_sound (h : Sound q s) : Sound q (State.wbDrain s) := by
  unfold State.wbDrain
  repeat' with_reducible first
    | assumption | apply stallLand_sound | apply wbWriteOne_sound | refine foldl_sound ?_ fun t x ht => ?_
    | dsimp only

theorem readBank_sound {a1} (h : Sound q s) : Sound q (State.readBank s a1) := by
  unfold State.readBank
  repeat' with_reducible first
    | assumption | apply eccRead_sound | refine eccRead_sound' ?_ ‹_› | refine foldl_sound ?_ fun t x ht => ?_
    | dsimp only

theorem selectBank_sound (h : Sound q s) : Sound q (State.selectBank s) := by
  unfold State.selectBank
  repeat' with_reducible first
    | assumption | apply readBank_sound | refine setMem_sound ?_ rfl rfl | refine ite_sound (fun _ => ?_) fun _ => ?_
    | dsimp only | split

theorem commitStart_sound {v} (h : Sound q s) : Sound q (s.commitStart v) := by
  have k := wbDrain_sound h
  unfold State.commitStart
  generalize s.wbDrain = u at *
  exact ⟨⟨k.1.cells, k.1.room, k.1.once⟩, k.2⟩

theorem pcommit_sound {a1 a2} (h : Sound q s) : Sound q (State.pcommit s a1 a2) := by
  unfold State.pcommit
  repeat' with_reducible first
    | assumption | apply commitStart_sound | refine setMem_sound ?_ rfl rfl
    | refine ite_sound (fun _ => ?_) fun _ => ?_ | dsimp only | split

theorem persistBoundary_sound (h : Sound q s) : Sound q (State.persistBoundary s) := by
  unfold State.persistBoundary
  repeat' with_reducible first
    | assumption | apply disarm_sound | apply commitStart_sound | refine setMem_sound ?_ rfl rfl
    | refine ite_sound (fun _ => ?_) fun _ => ?_ | dsimp only | split

theorem commitHeader_sound {bk bad seq} (h : Sound q s) : Sound q (s.commitHeader bk bad seq) := by
  unfold State.commitHeader
  refine ite_sound (fun _ => ?_) fun _ => ?_
  · exact event_sound (setMem_sound h rfl rfl)
  · dsimp only
    have k := poke_sound (s := s) h (a := bankBase bk + 0x7FF8) (n := 8)
      (v := seq.toNat + (s.crcOver (bankBase bk) 0x7FF8 0xFFFFFFFF ^^^ 0xFFFFFFFF) <<< 32)
    generalize s.poke _ _ _ = u at k ⊢
    exact setMem_sound (setMem_sound k rfl rfl) rfl rfl

theorem commitNext_sound (h : Sound q s) : Sound q s.commitNext := by
  unfold State.commitNext
  split
  · exact ite_sound (fun _ => commitStart_sound (setMem_sound h rfl rfl)) fun _ => checkStop_sound h
  · exact checkStop_sound h

theorem commitEnd_sound {seq} (h : Sound q s) : Sound q (s.commitEnd seq) :=
  commitNext_sound (commitHeader_sound (readBank_sound h))

end Sys2Proof.Machine
end

