-- ==== Sys2Proof/Laws/SoundDrive.lean ====
section
/-!
SUPPORT. Soundness of memory and the queue through the drive, energy, tempo, pressure, flow and security blocks: one lemma per operation.
-/

namespace Sys2Proof.Machine

variable {q : List Instr} {s : State}

theorem drvFault_sound {a1 a2} (h : Sound q s) : Sound q (State.drvFault s a1 a2) := by
  unfold State.drvFault
  repeat' with_reducible first
    | assumption | apply event_sound | apply modDrv_sound | refine foldl_sound ?_ fun t x ht => ?_ | dsimp only

theorem post_sound {a1 a2 a3 a4 a5 a6} (h : Sound q s) : Sound q (State.post s a1 a2 a3 a4 a5 a6) := by
  unfold State.post
  repeat' with_reducible first
    | assumption | apply modDrv_sound | apply event_sound | refine ite_sound (fun _ => ?_) fun _ => ?_ | dsimp only
    | split

theorem endEntry_sound {a1 a2 a3} (h : Sound q s) : Sound q (State.endEntry s a1 a2 a3) := by
  unfold State.endEntry
  repeat' with_reducible first
    | assumption | apply modDrv_sound | apply post_sound | refine ite_sound (fun _ => ?_) fun _ => ?_ | dsimp only
    | split

theorem coilMeasured_sound {a1 a2 a3} (h : Sound q s) : Sound q (State.coilMeasured s a1 a2 a3) := by
  unfold State.coilMeasured
  repeat' with_reducible first | assumption | apply modDrv_sound | dsimp only | split

theorem phaseMeasured_sound {a1} (h : Sound q s) : Sound q (State.phaseMeasured s a1) := by
  unfold State.phaseMeasured
  repeat' with_reducible first | assumption | apply coilMeasured_sound

theorem toEnd_sound {a1 a2 a3} (h : Sound q s) : Sound q (State.toEnd s a1 a2 a3) := by
  unfold State.toEnd
  repeat' with_reducible first
    | assumption | apply modDrv_sound | apply phaseMeasured_sound | refine ite_sound (fun _ => ?_) fun _ => ?_
    | dsimp only | split

theorem endEarly_sound {a1 a2} (h : Sound q s) : Sound q (State.endEarly s a1 a2) := by
  unfold State.endEarly
  repeat' with_reducible first | assumption | apply toEnd_sound | dsimp only

theorem faultPulse_sound {a1} (h : Sound q s) : Sound q (State.faultPulse s a1) := by
  unfold State.faultPulse
  repeat' with_reducible first | assumption | apply phaseMeasured_sound | apply modDrv_sound | dsimp only | split

theorem blankTail_sound {a1} (h : Sound q s) : Sound q (State.blankTail s a1) := by
  unfold State.blankTail
  repeat' with_reducible first
    | assumption | refine ite_sound (fun _ => ?_) fun _ => ?_ | dsimp only | split | apply Sound.memory
    | apply Sound.queue | refine mk_sound ?_ ?_

theorem joinQueue_sound {a1 a2} (h : Sound q s) : Sound q (State.joinQueue s a1 a2) := by
  unfold State.joinQueue
  repeat' with_reducible first | assumption | apply modDrv_sound | dsimp only | simp only [id_eq]

theorem learn_sound {a1 a2} (h : Sound q s) : Sound q (State.learn s a1 a2) := by
  unfold State.learn
  repeat' with_reducible first
    | assumption | apply modDrv_sound | refine ite_sound (fun _ => ?_) fun _ => ?_ | dsimp only | split

theorem heatByEnergy_sound {a1 a2} (h : Sound q s) : Sound q (State.heatByEnergy s a1 a2) := by
  unfold State.heatByEnergy
  repeat' with_reducible first
    | assumption | apply modDrv_sound | refine ite_sound (fun _ => ?_) fun _ => ?_ | dsimp only | split

theorem setBoost_sound {a1} (h : Sound q s) : Sound q (State.setBoost s a1) := by
  unfold State.setBoost
  repeat' with_reducible first | assumption | apply entered_sound | apply modNrgx_sound | dsimp only

theorem boostCheck_sound (h : Sound q s) : Sound q (State.boostCheck s) := by
  unfold State.boostCheck
  repeat' with_reducible first | assumption | apply setBoost_sound | refine ite_sound (fun _ => ?_) fun _ => ?_ | split

theorem seqStep_sound {a1} (h : Sound q s) : Sound q (State.seqStep s a1) := by
  unfold State.seqStep
  repeat' with_reducible first
    | assumption | apply modDrv_sound | refine ite_sound (fun _ => ?_) fun _ => ?_ | dsimp only | split

theorem dropRetry_sound (h : Sound q s) : Sound q (State.dropRetry s) := by
  unfold State.dropRetry
  repeat' with_reducible first | assumption | apply post_sound | apply modDrv_sound | dsimp only | split

theorem seqFinish_sound (h : Sound q s) : Sound q (State.seqFinish s) := by
  unfold State.seqFinish
  repeat' with_reducible first
    | assumption | apply dropRetry_sound | apply modDrv_sound | apply modNrgx_sound | apply boostCheck_sound
    | refine ite_sound (fun _ => ?_) fun _ => ?_ | dsimp only | split

theorem pulseEnd_sound {a1 a2} (h : Sound q s) : Sound q (State.pulseEnd s a1 a2) := by
  unfold State.pulseEnd
  repeat' with_reducible first
    | assumption | apply blankTail_sound | apply modDrv_sound | apply heatByEnergy_sound | apply learn_sound
    | apply joinQueue_sound | apply post_sound | apply seqStep_sound | apply seqFinish_sound
    | refine foldl_sound ?_ fun t x ht => ?_ | refine ite_sound (fun _ => ?_) fun _ => ?_ | dsimp only | split

theorem blankDrive_sound {a1} (h : Sound q s) : Sound q (State.blankDrive s a1) := by
  unfold State.blankDrive
  repeat' with_reducible first
    | assumption | refine foldl_sound ?_ fun t x ht => ?_ | refine ite_sound (fun _ => ?_) fun _ => ?_ | dsimp only
    | split | apply Sound.memory | apply Sound.queue | refine mk_sound ?_ ?_

theorem startPulse_sound {a1 a2 a3} (h : Sound q s) : Sound q (State.startPulse s a1 a2 a3) := by
  unfold State.startPulse
  repeat' with_reducible first
    | assumption | apply modDrv_sound | apply phaseMeasured_sound | apply heatByEnergy_sound | apply post_sound
    | apply entered_sound | apply occur_sound | apply blankDrive_sound | refine ite_sound (fun _ => ?_) fun _ => ?_
    | dsimp only | split

theorem release_sound {a1 a2} (h : Sound q s) : Sound q (State.release s a1 a2) := by
  unfold State.release
  repeat' with_reducible first
    | assumption | apply post_sound | apply modDrv_sound | apply toEnd_sound | dsimp only | split

theorem cancelValve_sound {a1} (h : Sound q s) : Sound q (State.cancelValve s a1) := by
  unfold State.cancelValve
  repeat' with_reducible first
    | assumption | apply endEarly_sound | apply endEntry_sound | refine foldl_sound ?_ fun t x ht => ?_
    | refine ite_sound (fun _ => ?_) fun _ => ?_ | dsimp only | split

theorem accept_sound {a1 a2 a3 a4} (h : Sound q s) : Sound q (State.accept s a1 a2 a3 a4).1 := by
  unfold State.accept
  repeat' with_reducible first
    | assumption | apply release_sound | apply endEarly_sound | apply post_sound | apply joinQueue_sound
    | refine ite_sound (fun _ => ?_) fun _ => ?_ | dsimp only | split
theorem accept_sound' {a1 a2 a3 a4} {t} {r} (h : Sound q s) (e : (State.accept s a1 a2 a3 a4) = (t, r)) :
    Sound q t := by
  have k := accept_sound (a1 := a1) (a2 := a2) (a3 := a3) (a4 := a4) h
  rw [e] at k; exact k

theorem command_sound {a1} (h : Sound q s) : Sound q (State.command s a1).1 := by
  unfold State.command
  repeat' with_reducible first
    | assumption | apply cancelValve_sound | apply post_sound | apply accept_sound | refine accept_sound' ?_ ‹_›
    | refine ite_sound (fun _ => ?_) fun _ => ?_ | dsimp only | split
theorem command_sound' {a1} {t} {r} (h : Sound q s) (e : (State.command s a1) = (t, r)) : Sound q t := by
  have k := command_sound (a1 := a1) h
  rw [e] at k; exact k

theorem modEntry_sound {a1 a2 a3} (h : Sound q s) : Sound q (State.modEntry s a1 a2 a3) := by
  unfold State.modEntry
  repeat' with_reducible first
    | assumption | apply modDrv_sound | refine ite_sound (fun _ => ?_) fun _ => ?_ | dsimp only | split

theorem thermOne_sound {a1 a2} (h : Sound q s) : Sound q (State.thermOne s a1 a2) := by
  unfold State.thermOne
  repeat' with_reducible first
    | assumption | apply modEntry_sound | apply endEntry_sound | refine ite_sound (fun _ => ?_) fun _ => ?_
    | dsimp only | split

theorem turnAway_sound {a1 a2 a3} (h : Sound q s) : Sound q (State.turnAway s a1 a2 a3).1 := by
  unfold State.turnAway
  repeat' with_reducible first
    | assumption | apply entered_sound | apply modEntry_sound | apply endEntry_sound
    | refine ite_sound (fun _ => ?_) fun _ => ?_ | dsimp only | split
theorem turnAway_sound' {a1 a2 a3} {t} {r} (h : Sound q s) (e : (State.turnAway s a1 a2 a3) = (t, r)) : Sound q t := by
  have k := turnAway_sound (a1 := a1) (a2 := a2) (a3 := a3) h
  rw [e] at k; exact k

theorem scanOne_sound {a1 a2 a3 a4} (h : Sound q s) : Sound q (State.scanOne s a1 a2 a3 a4).1 := by
  unfold State.scanOne
  repeat' with_reducible first
    | assumption | apply thermOne_sound | apply modDrv_sound | apply release_sound | apply endEntry_sound
    | apply startPulse_sound | apply turnAway_sound | refine turnAway_sound' ?_ ‹_›
    | refine ite_sound (fun _ => ?_) fun _ => ?_ | dsimp only | split | simp only [id_eq]
theorem scanOne_sound' {a1 a2 a3 a4} {t} {r} (h : Sound q s) (e : (State.scanOne s a1 a2 a3 a4) = (t, r)) :
    Sound q t := by
  have k := scanOne_sound (a1 := a1) (a2 := a2) (a3 := a3) (a4 := a4) h
  rw [e] at k; exact k

theorem thermScan_sound (h : Sound q s) : Sound q (State.thermScan s) := by
  unfold State.thermScan
  repeat' with_reducible first
    | assumption | apply endEntry_sound | refine foldl_sound ?_ fun t x ht => ?_
    | refine ite_sound (fun _ => ?_) fun _ => ?_ | dsimp only | split

theorem scanLoop_sound {b n ms} (h : Sound q s) : Sound q (State.scanLoop b n s ms) := by
  induction n generalizing s ms with
  | zero => exact h
  | succ n ih =>
    unfold State.scanLoop
    split
    · exact h
    · split
      exact ih (scanOne_sound' h ‹_›)

theorem takeDrawn_sound {a1} (h : Sound q s) : Sound q (State.takeDrawn s a1) := by
  unfold State.takeDrawn
  repeat' with_reducible first
    | assumption | apply modDrv_sound | refine foldl_sound ?_ fun t x ht => ?_ | dsimp only | split

theorem scan_sound {a1} (h : Sound q s) : Sound q (State.scan s a1) := by
  unfold State.scan
  repeat' with_reducible first
    | assumption | apply thermScan_sound | apply modDrv_sound | apply scanLoop_sound | dsimp only

theorem priorityClose_sound {a1} (h : Sound q s) : Sound q (State.priorityClose s a1) := by
  unfold State.priorityClose
  repeat' with_reducible first
    | assumption | apply endEntry_sound | apply joinQueue_sound | refine ite_sound (fun _ => ?_) fun _ => ?_
    | dsimp only | split

theorem bootUv_sound {a1} (h : Sound q s) : Sound q (State.bootUv s a1) := by
  unfold State.bootUv
  repeat' with_reducible first
    | assumption | apply modDrv_sound | apply phaseMeasured_sound | apply priorityClose_sound | apply drvFault_sound
    | refine foldl_sound ?_ fun t x ht => ?_ | refine ite_sound (fun _ => ?_) fun _ => ?_ | dsimp only | split

theorem seqClose_sound {a1} (h : Sound q s) : Sound q (State.seqClose s a1) := by
  unfold State.seqClose
  repeat' with_reducible first
    | assumption | apply seqFinish_sound | apply seqStep_sound | apply release_sound | apply modDrv_sound
    | apply startPulse_sound | refine ite_sound (fun _ => ?_) fun _ => ?_ | dsimp only | split

theorem coldClose_sound (h : Sound q s) : Sound q (State.coldClose s) := by
  unfold State.coldClose
  repeat' with_reducible first
    | assumption | apply seqFinish_sound | apply modDrv_sound | refine ite_sound (fun _ => ?_) fun _ => ?_
    | dsimp only | split

theorem stopCold_sound (h : Sound q s) : Sound q (State.stopCold s) := by
  unfold State.stopCold
  repeat' with_reducible first
    | assumption | apply seqFinish_sound | apply modDrv_sound | refine ite_sound (fun _ => ?_) fun _ => ?_
    | dsimp only | split

theorem drvLastAct_sound (h : Sound q s) : Sound q (State.drvLastAct s) := by
  unfold State.drvLastAct
  repeat' with_reducible first
    | assumption | apply modDrv_sound | apply endEarly_sound | apply endEntry_sound | apply dropRetry_sound
    | apply seqFinish_sound | refine foldl_sound ?_ fun t x ht => ?_ | dsimp only

theorem srcChange_sound (h : Sound q s) : Sound q (State.srcChange s) := by
  unfold State.srcChange
  repeat' with_reducible first
    | assumption | apply modNrg_sound | apply event_sound | refine ite_sound (fun _ => ?_) fun _ => ?_ | dsimp only
    | split

theorem setPv_sound {a1} (h : Sound q s) : Sound q (State.setPv s a1) := by
  unfold State.setPv
  repeat' with_reducible first
    | assumption | apply srcChange_sound | apply modNrg_sound | refine ite_sound (fun _ => ?_) fun _ => ?_
    | dsimp only | split

theorem setTeg_sound {a1} (h : Sound q s) : Sound q (State.setTeg s a1) := by
  unfold State.setTeg
  repeat' with_reducible first
    | assumption | apply srcChange_sound | apply modNrg_sound | refine ite_sound (fun _ => ?_) fun _ => ?_
    | dsimp only | split

theorem setDc_sound {a1} (h : Sound q s) : Sound q (State.setDc s a1) := by
  unfold State.setDc
  repeat' with_reducible first
    | assumption | apply srcChange_sound | apply modNrg_sound | refine ite_sound (fun _ => ?_) fun _ => ?_
    | dsimp only | split

theorem setChg_sound {a1} (h : Sound q s) : Sound q (State.setChg s a1) := by
  unfold State.setChg
  repeat' with_reducible first
    | assumption | apply modNrg_sound | apply event_sound | apply entered_sound
    | refine ite_sound (fun _ => ?_) fun _ => ?_ | dsimp only | split

theorem pvUpdate_sound (h : Sound q s) : Sound q (State.pvUpdate s) := by
  unfold State.pvUpdate
  repeat' with_reducible first | assumption | apply setPv_sound

theorem tegUpdate_sound (h : Sound q s) : Sound q (State.tegUpdate s) := by
  unfold State.tegUpdate
  repeat' with_reducible first | assumption | apply setTeg_sound

theorem tegRestart_sound {a1} (h : Sound q s) : Sound q (State.tegRestart s a1) := by
  unfold State.tegRestart
  repeat' with_reducible first
    | assumption | apply tegUpdate_sound | apply modNrgx_sound | apply modNrg_sound
    | refine ite_sound (fun _ => ?_) fun _ => ?_ | dsimp only | split

theorem nrgBoundary_sound {a1} (h : Sound q s) : Sound q (State.nrgBoundary s a1) := by
  unfold State.nrgBoundary
  repeat' with_reducible first
    | assumption | apply modNrg_sound | apply disarm_sound | apply modNrgx_sound | apply pvUpdate_sound
    | apply tegRestart_sound | refine ite_sound (fun _ => ?_) fun _ => ?_ | dsimp only | split

theorem laArm_sound (h : Sound q s) : Sound q (State.laArm s) := by
  unfold State.laArm
  repeat' with_reducible first
    | assumption | apply modNrgx_sound | refine ite_sound (fun _ => ?_) fun _ => ?_ | dsimp only | split

theorem laCountOne_sound (h : Sound q s) : Sound q (State.laCountOne s) := by
  unfold State.laCountOne
  repeat' with_reducible first
    | assumption | apply modNrgx_sound | refine ite_sound (fun _ => ?_) fun _ => ?_ | dsimp only | split

theorem cellMeasure_sound {a1} (h : Sound q s) : Sound q (State.cellMeasure s a1) := by
  unfold State.cellMeasure
  repeat' with_reducible first
    | assumption | apply modNrg_sound | apply modNrgx_sound | apply setChg_sound | apply boostCheck_sound
    | apply laArm_sound | apply laCountOne_sound | refine ite_sound (fun _ => ?_) fun _ => ?_ | dsimp only | split

theorem euseTick_sound {a1} (h : Sound q s) : Sound q (State.euseTick s a1) := by
  unfold State.euseTick
  repeat' with_reducible first
    | assumption | apply modNrg_sound | apply event_sound | refine ite_sound (fun _ => ?_) fun _ => ?_ | dsimp only
    | split

theorem nrgCtlWrite_sound {a1} (h : Sound q s) : Sound q (State.nrgCtlWrite s a1) := by
  unfold State.nrgCtlWrite
  repeat' with_reducible first
    | assumption | apply modNrg_sound | apply modNrgx_sound | apply setChg_sound | apply boostCheck_sound
    | apply tegUpdate_sound | apply pvUpdate_sound | apply enterShip_sound
    | refine ite_sound (fun _ => ?_) fun _ => ?_ | dsimp only | split

theorem nrgWrite_sound {a1 a2} (h : Sound q s) : Sound q (State.nrgWrite s a1 a2).1 := by
  unfold State.nrgWrite
  repeat' with_reducible first
    | assumption | apply modNrg_sound | apply nrgCtlWrite_sound | apply modNrgx_sound | apply laArm_sound
    | refine ite_sound (fun _ => ?_) fun _ => ?_ | dsimp only | split
theorem nrgWrite_sound' {a1 a2} {t} {r} (h : Sound q s) (e : (State.nrgWrite s a1 a2) = (t, r)) : Sound q t := by
  have k := nrgWrite_sound (a1 := a1) (a2 := a2) h
  rw [e] at k; exact k

theorem atPhase_sound {a1} (h : Sound q s) : Sound q (State.atPhase s a1) := by
  unfold State.atPhase
  repeat' with_reducible first
    | assumption | apply modTmp_sound | refine ite_sound (fun _ => ?_) fun _ => ?_ | dsimp only | split

theorem tmpRead_sound {a1 a2} {t} {v} (h : Sound q s) (e : (State.tmpRead s a1 a2) = some (t, v)) : Sound q t := by
  unfold State.tmpRead at e
  revert e
  repeat' with_reducible first | assumption | apply modTmp_sound | dsimp only | split | (intro e; cases e)

theorem cmpStart_sound {a1} (h : Sound q s) : Sound q (State.cmpStart s a1) := by
  unfold State.cmpStart
  repeat' with_reducible first | assumption | apply modCmp_sound

theorem cmpFollow_sound {a1 a2} (h : Sound q s) : Sound q (State.cmpFollow s a1 a2) := by
  unfold State.cmpFollow
  repeat' with_reducible first
    | assumption | apply cmpStart_sound | refine ite_sound (fun _ => ?_) fun _ => ?_ | dsimp only | split

theorem latch_sound {a1} (h : Sound q s) : Sound q (State.latch s a1) := by
  unfold State.latch
  repeat' with_reducible first
    | assumption | apply modCmp_sound | apply occur_sound | apply event_sound
    | refine ite_sound (fun _ => ?_) fun _ => ?_ | dsimp only | split

theorem latchPeriod_sound {a1 a2} (h : Sound q s) : Sound q (State.latchPeriod s a1 a2) := by
  unfold State.latchPeriod
  repeat' with_reducible first
    | assumption | apply modPrs_sound | refine ite_sound (fun _ => ?_) fun _ => ?_ | dsimp only | split

theorem ringPut_sound {a1 a2} (h : Sound q s) : Sound q (State.ringPut s a1 a2) := by
  unfold State.ringPut
  repeat' with_reducible first
    | assumption | apply modLine_sound | apply writeWord_sound | refine foldl_sound ?_ fun t x ht => ?_
    | refine ite_sound (fun _ => ?_) fun _ => ?_ | dsimp only | split

theorem ringFlush_sound {a1} (h : Sound q s) : Sound q (State.ringFlush s a1) := by
  unfold State.ringFlush
  repeat' with_reducible first
    | assumption | apply writeWord_sound | apply modLine_sound | refine foldl_sound ?_ fun t x ht => ?_
    | refine ite_sound (fun _ => ?_) fun _ => ?_ | dsimp only | split

theorem trigger_sound {a1 a2 a3 a4 a5} (h : Sound q s) : Sound q (State.trigger s a1 a2 a3 a4 a5) := by
  unfold State.trigger
  repeat' with_reducible first
    | assumption | apply event_sound | apply modLine_sound | refine ite_sound (fun _ => ?_) fun _ => ?_ | dsimp only
    | split

theorem capEnd_sound {a1 a2} (h : Sound q s) : Sound q (State.capEnd s a1 a2) := by
  unfold State.capEnd
  repeat' with_reducible first
    | assumption | apply ringFlush_sound | apply writeWord_sound | apply event_sound | apply modLine_sound
    | refine foldl_sound ?_ fun t x ht => ?_ | refine ite_sound (fun _ => ?_) fun _ => ?_ | dsimp only | split
    | apply Sound.memory | apply Sound.queue | refine mk_sound ?_ ?_

theorem prsSwapAct_sound {a1 a2} (h : Sound q s) : Sound q (State.prsSwapAct s a1 a2) := by
  unfold State.prsSwapAct
  repeat' with_reducible first
    | assumption | apply modLine_sound | refine ite_sound (fun _ => ?_) fun _ => ?_ | dsimp only | split

theorem prsSwap_sound {a1} (h : Sound q s) : Sound q (State.prsSwap s a1) := by
  unfold State.prsSwap
  repeat' with_reducible first
    | assumption | apply disarm_sound | apply modLine_sound | apply cmpFollow_sound | apply prsSwapAct_sound
    | refine ite_sound (fun _ => ?_) fun _ => ?_ | dsimp only | split

theorem prsRelease_sound {a1} (h : Sound q s) : Sound q (State.prsRelease s a1) := by
  unfold State.prsRelease
  repeat' with_reducible first
    | assumption | apply cmpFollow_sound | apply modLine_sound | refine ite_sound (fun _ => ?_) fun _ => ?_
    | dsimp only | split

theorem prsComplete_sound {a1} (h : Sound q s) : Sound q (State.prsComplete s a1) := by
  unfold State.prsComplete
  repeat' with_reducible first | assumption | apply prsSwap_sound | apply capEnd_sound

theorem lineLastAct_sound {a1} (h : Sound q s) : Sound q (State.lineLastAct s a1) := by
  unfold State.lineLastAct
  repeat' with_reducible first
    | assumption | apply prsSwap_sound | apply cmpFollow_sound | apply modLine_sound | apply capEnd_sound | dsimp only
    | split

theorem prsLastAct_sound (h : Sound q s) : Sound q (State.prsLastAct s) := by
  unfold State.prsLastAct
  repeat' with_reducible first
    | assumption | apply lineLastAct_sound | apply modPrs_sound | refine foldl_sound ?_ fun t x ht => ?_ | dsimp only

theorem cmpChange_sound {a1 a2 a3} (h : Sound q s) : Sound q (State.cmpChange s a1 a2 a3) := by
  unfold State.cmpChange
  repeat' with_reducible first
    | assumption | apply modCmp_sound | apply latch_sound | apply trigger_sound
    | refine ite_sound (fun _ => ?_) fun _ => ?_ | dsimp only | split

theorem cmpEval_sound {a1 a2 a3} (h : Sound q s) : Sound q (State.cmpEval s a1 a2 a3) := by
  unfold State.cmpEval
  repeat' with_reducible first
    | assumption | apply modCmp_sound | apply cmpChange_sound | refine ite_sound (fun _ => ?_) fun _ => ?_
    | dsimp only | split

theorem unblank_sound {a1 a2} (h : Sound q s) : Sound q (State.unblank s a1 a2) := by
  unfold State.unblank
  repeat' with_reducible first
    | assumption | apply modCmp_sound | apply latch_sound | refine ite_sound (fun _ => ?_) fun _ => ?_ | dsimp only
    | split

theorem blankEnd_sound {a1} (h : Sound q s) : Sound q (State.blankEnd s a1) := by
  unfold State.blankEnd
  repeat' with_reducible first
    | assumption | apply unblank_sound | apply modPrs_sound | refine foldl_sound ?_ fun t x ht => ?_ | dsimp only
    | split

theorem blankStart_sound {a1 a2} (h : Sound q s) : Sound q (State.blankStart s a1 a2) := by
  unfold State.blankStart
  repeat' with_reducible first
    | assumption | apply modPrs_sound | refine ite_sound (fun _ => ?_) fun _ => ?_ | dsimp only | split

theorem prsSample_sound {a1 a2} (h : Sound q s) : Sound q (State.prsSample s a1 a2) := by
  unfold State.prsSample
  repeat' with_reducible first
    | assumption | apply occur_sound | apply modLine_sound | apply cmpEval_sound | apply ringPut_sound
    | apply prsSwap_sound | refine ite_sound (fun _ => ?_) fun _ => ?_ | dsimp only | split

theorem spotStart_sound {a1} (h : Sound q s) : Sound q (State.spotStart s a1) := by
  unfold State.spotStart
  repeat' with_reducible first
    | assumption | apply cmpFollow_sound | apply modLine_sound | refine ite_sound (fun _ => ?_) fun _ => ?_
    | dsimp only | split

theorem force_sound {a1} (h : Sound q s) : Sound q (State.force s a1) := by
  unfold State.force
  repeat' with_reducible first | assumption | apply trigger_sound | refine ite_sound (fun _ => ?_) fun _ => ?_ | split

theorem prsWrite_sound {a1 a2} (h : Sound q s) : Sound q (State.prsWrite s a1 a2).1 := by
  unfold State.prsWrite
  repeat' with_reducible first
    | assumption | apply modLine_sound | apply spotStart_sound | apply prsRelease_sound | apply force_sound
    | refine ite_sound (fun _ => ?_) fun _ => ?_ | dsimp only | split
theorem prsWrite_sound' {a1 a2} {t} {r} (h : Sound q s) (e : (State.prsWrite s a1 a2) = (t, r)) : Sound q t := by
  have k := prsWrite_sound (a1 := a1) (a2 := a2) h
  rw [e] at k; exact k

theorem cmpOut_sound (h : Sound q s) : Sound q (State.cmpOut s).1 := by
  unfold State.cmpOut
  repeat' with_reducible first
    | assumption | refine foldl_sound ?_ fun t x ht => ?_ | refine ite_sound (fun _ => ?_) fun _ => ?_ | dsimp only
    | split | apply Sound.memory | apply Sound.queue | refine mk_sound ?_ ?_
theorem cmpOut_sound' {t} {r} (h : Sound q s) (e : (State.cmpOut s) = (t, r)) : Sound q t := by
  have k := cmpOut_sound h
  rw [e] at k; exact k

theorem cmpRead_sound {a t v} (h : Sound q s) (e : s.cmpRead a = some (t, v)) : Sound q t := by
  unfold State.cmpRead at e
  split at e
  · simp only [Option.map_eq_some_iff] at e
    obtain ⟨c, -, e⟩ := e
    cases e; exact h
  · split at e <;> first | exact cmpOut_sound' h (Option.some.inj e) | (cases e; exact h) | cases e

theorem cmpWrite_sound {a1 a2} (h : Sound q s) : Sound q (State.cmpWrite s a1 a2) := by
  unfold State.cmpWrite
  repeat' with_reducible first
    | assumption | apply modCmp_sound | apply modPrs_sound | refine ite_sound (fun _ => ?_) fun _ => ?_ | dsimp only
    | split

theorem flowDue_sound {a1} (h : Sound q s) : Sound q (State.flowDue s a1) := by
  unfold State.flowDue
  repeat' with_reducible first
    | assumption | apply modFlow_sound | refine ite_sound (fun _ => ?_) fun _ => ?_ | dsimp only | split

theorem flowRequest_sound {a1} (h : Sound q s) : Sound q (State.flowRequest s a1) := by
  unfold State.flowRequest
  repeat' with_reducible first
    | assumption | apply modFlow_sound | refine ite_sound (fun _ => ?_) fun _ => ?_ | dsimp only | split

theorem flowSwap_sound {a1} (h : Sound q s) : Sound q (State.flowSwap s a1) := by
  unfold State.flowSwap
  repeat' with_reducible first
    | assumption | apply modFlow_sound | apply disarm_sound | refine ite_sound (fun _ => ?_) fun _ => ?_ | dsimp only
    | split

theorem flowPost_sound {a1 a2 a3} (h : Sound q s) : Sound q (State.flowPost s a1 a2 a3) := by
  unfold State.flowPost
  repeat' with_reducible first
    | assumption | apply count_sound | apply modFlow_sound | apply modFlw_sound | apply event_sound
    | apply latchPeriod_sound | apply flowSwap_sound | refine ite_sound (fun _ => ?_) fun _ => ?_ | dsimp only | split
    | apply Sound.memory | apply Sound.queue | refine mk_sound ?_ ?_

theorem flowStart_sound {a1} (h : Sound q s) : Sound q (State.flowStart s a1) := by
  unfold State.flowStart
  repeat' with_reducible first
    | assumption | apply modFlow_sound | apply modFlw_sound | apply entered_sound | apply flowPost_sound
    | refine ite_sound (fun _ => ?_) fun _ => ?_ | dsimp only | split

theorem flowShot_sound {a1 a2} (h : Sound q s) : Sound q (State.flowShot s a1 a2) := by
  unfold State.flowShot
  repeat' with_reducible first
    | assumption | apply modFlw_sound | apply blankStart_sound | apply occur_sound
    | refine ite_sound (fun _ => ?_) fun _ => ?_ | dsimp only | split

theorem flowLastAct_sound (h : Sound q s) : Sound q (State.flowLastAct s) := by
  unfold State.flowLastAct
  repeat' with_reducible first | assumption | apply flowPost_sound | apply modFlw_sound | dsimp only | split

theorem pulseCount_sound {a1} (h : Sound q s) : Sound q (State.pulseCount s a1) := by
  unfold State.pulseCount
  repeat' with_reducible first | assumption | apply occur_sound | apply modFlow_sound | dsimp only

theorem pulseSample_sound {a1 a2} (h : Sound q s) : Sound q (State.pulseSample s a1 a2) := by
  unfold State.pulseSample
  repeat' with_reducible first
    | assumption | apply modFlow_sound | apply pulseCount_sound | refine ite_sound (fun _ => ?_) fun _ => ?_
    | dsimp only | split

theorem pulseWrite_sound {a1 a2} (h : Sound q s) : Sound q (State.pulseWrite s a1 a2) := by
  unfold State.pulseWrite
  repeat' with_reducible first | assumption | apply modFlow_sound | dsimp only

theorem zeroWrite_sound {a1 a2} (h : Sound q s) : Sound q (State.zeroWrite s a1 a2) := by
  unfold State.zeroWrite
  repeat' with_reducible first
    | assumption | apply modFlow_sound | refine ite_sound (fun _ => ?_) fun _ => ?_ | dsimp only | split

theorem gctlWrite_sound {a1} (h : Sound q s) : Sound q (State.gctlWrite s a1).1 := by
  unfold State.gctlWrite
  repeat' with_reducible first
    | assumption | apply flowRequest_sound | apply modFlw_sound | refine foldl_sound ?_ fun t x ht => ?_
    | refine ite_sound (fun _ => ?_) fun _ => ?_ | dsimp only | split
theorem gctlWrite_sound' {a1} {t} {r} (h : Sound q s) (e : (State.gctlWrite s a1) = (t, r)) : Sound q t := by
  have k := gctlWrite_sound (a1 := a1) h
  rw [e] at k; exact k

theorem tableWrite_sound {a1 a2 a3} (h : Sound q s) : Sound q (State.tableWrite s a1 a2 a3).1 := by
  unfold State.tableWrite
  repeat' with_reducible first
    | assumption | apply modFlow_sound | refine ite_sound (fun _ => ?_) fun _ => ?_ | dsimp only | split
theorem tableWrite_sound' {a1 a2 a3} {t} {r} (h : Sound q s) (e : (State.tableWrite s a1 a2 a3) = (t, r)) :
    Sound q t := by
  have k := tableWrite_sound (a1 := a1) (a2 := a2) (a3 := a3) h
  rw [e] at k; exact k

theorem flwWrite_sound {a1 a2} (h : Sound q s) : Sound q (State.flwWrite s a1 a2).1 := by
  unfold State.flwWrite
  repeat' with_reducible first
    | assumption | apply gctlWrite_sound | refine gctlWrite_sound' ?_ ‹_› | apply tableWrite_sound
    | refine tableWrite_sound' ?_ ‹_› | apply modFlow_sound | apply zeroWrite_sound | apply pulseWrite_sound
    | refine ite_sound (fun _ => ?_) fun _ => ?_ | dsimp only | split
theorem flwWrite_sound' {a1 a2} {t} {r} (h : Sound q s) (e : (State.flwWrite s a1 a2) = (t, r)) : Sound q t := by
  have k := flwWrite_sound (a1 := a1) (a2 := a2) h
  rw [e] at k; exact k

theorem otpProgram_sound {a1 a2} (h : Sound q s) : Sound q (State.otpProgram s a1 a2) := by
  unfold State.otpProgram
  repeat' with_reducible first | assumption | apply poke_sound | refine ite_sound (fun _ => ?_) fun _ => ?_ | split

theorem keyCommit_sound (h : Sound q s) : Sound q (State.keyCommit s) := by
  unfold State.keyCommit
  repeat' with_reducible first
    | assumption | apply modSec_sound | refine ite_sound (fun _ => ?_) fun _ => ?_ | dsimp only | split

theorem keyCommitDone_sound {a1} (h : Sound q s) : Sound q (State.keyCommitDone s a1) := by
  unfold State.keyCommitDone
  repeat' with_reducible first
    | assumption | apply modSec_sound | apply event_sound | refine ite_sound (fun _ => ?_) fun _ => ?_ | dsimp only
    | split

theorem kstat_sound {a1} (h : Sound q s) : Sound q (State.kstat s a1) := by
  unfold State.kstat
  repeat' with_reducible first | assumption | apply modSec_sound | dsimp only

theorem unwrapAt_sound {a1 a2} (h : Sound q s) : Sound q (State.unwrapAt s a1 a2) := by
  unfold State.unwrapAt
  repeat' with_reducible first
    | assumption | apply kstat_sound | apply keyCommit_sound | apply modSlot_sound
    | refine ite_sound (fun _ => ?_) fun _ => ?_ | dsimp only | split

theorem unwrap_sound {a1 a2} (h : Sound q s) : Sound q (State.unwrap s a1 a2) := by
  unfold State.unwrap
  repeat' with_reducible first
    | assumption | apply kstat_sound | apply readWords_sound | refine readWords_sound' ?_ ‹_› | apply unwrapAt_sound
    | refine ite_sound (fun _ => ?_) fun _ => ?_ | dsimp only | split

theorem erase_sound {a1} (h : Sound q s) : Sound q (State.erase s a1) := by
  unfold State.erase
  repeat' with_reducible first
    | assumption | apply kstat_sound | apply keyCommit_sound | apply modSlot_sound
    | refine ite_sound (fun _ => ?_) fun _ => ?_ | dsimp only | split

theorem clearLinkWin_sound {a1} (h : Sound q s) : Sound q (State.clearLinkWin s a1) := by
  unfold State.clearLinkWin
  repeat' with_reducible first
    | assumption | dsimp only | apply Sound.memory | apply Sound.queue | refine mk_sound ?_ ?_

theorem bindKey_sound {a1 a2} (h : Sound q s) : Sound q (State.bindKey s a1 a2) := by
  unfold State.bindKey
  repeat' with_reducible first
    | assumption | apply kstat_sound | apply keyCommit_sound | apply clearLinkWin_sound | apply modSlot_sound
    | refine ite_sound (fun _ => ?_) fun _ => ?_ | dsimp only | split

theorem takeCounter_sound {a1} (h : Sound q s) : Sound q (State.takeCounter s a1).1 := by
  unfold State.takeCounter
  repeat' with_reducible first
    | assumption | apply event_sound | apply modSec_sound | apply modSlot_sound | apply keyCommit_sound
    | refine ite_sound (fun _ => ?_) fun _ => ?_ | dsimp only | split
theorem takeCounter_sound' {a1} {t} {r} (h : Sound q s) (e : (State.takeCounter s a1) = (t, r)) : Sound q t := by
  have k := takeCounter_sound (a1 := a1) h
  rw [e] at k; exact k

theorem lifeWrite_sound {a1 a2} (h : Sound q s) : Sound q (State.lifeWrite s a1 a2).1 := by
  unfold State.lifeWrite
  repeat' with_reducible first
    | assumption | apply modSecx_sound | refine ite_sound (fun _ => ?_) fun _ => ?_ | dsimp only | split
theorem lifeWrite_sound' {a1 a2} {t} {r} (h : Sound q s) (e : (State.lifeWrite s a1 a2) = (t, r)) : Sound q t := by
  have k := lifeWrite_sound (a1 := a1) (a2 := a2) h
  rw [e] at k; exact k

theorem burnDone_sound {a1} (h : Sound q s) : Sound q (State.burnDone s a1) := by
  unfold State.burnDone
  repeat' with_reducible first
    | assumption | apply poke_sound | apply modSecx_sound | apply modSec_sound
    | refine ite_sound (fun _ => ?_) fun _ => ?_ | dsimp only | split

theorem rollbackWrite_sound {a1 a2} (h : Sound q s) : Sound q (State.rollbackWrite s a1 a2).1 := by
  unfold State.rollbackWrite
  repeat' with_reducible first
    | assumption | apply modSecx_sound | refine ite_sound (fun _ => ?_) fun _ => ?_ | dsimp only | split
theorem rollbackWrite_sound' {a1 a2} {t} {r} (h : Sound q s) (e : (State.rollbackWrite s a1 a2) = (t, r)) :
    Sound q t := by
  have k := rollbackWrite_sound (a1 := a1) (a2 := a2) h
  rw [e] at k; exact k

theorem rollbackDone_sound {a1} (h : Sound q s) : Sound q (State.rollbackDone s a1) := by
  unfold State.rollbackDone
  repeat' with_reducible first | assumption | apply modSecx_sound | apply poke_sound | dsimp only

theorem dbgFail_sound (h : Sound q s) : Sound q (State.dbgFail s) := by
  unfold State.dbgFail
  repeat' with_reducible first
    | assumption | apply modSecx_sound | apply modSec_sound | refine ite_sound (fun _ => ?_) fun _ => ?_ | dsimp only
    | split

theorem dbgChallenge_sound {a1} (h : Sound q s) : Sound q (State.dbgChallenge s a1).1 := by
  unfold State.dbgChallenge
  repeat' with_reducible first
    | assumption | apply dbgFail_sound | apply modSecx_sound | apply modSec_sound
    | refine ite_sound (fun _ => ?_) fun _ => ?_ | dsimp only | split | apply Sound.memory | apply Sound.queue
    | refine mk_sound ?_ ?_
theorem dbgChallenge_sound' {a1} {t} {r} (h : Sound q s) (e : (State.dbgChallenge s a1) = (t, r)) : Sound q t := by
  have k := dbgChallenge_sound (a1 := a1) h
  rw [e] at k; exact k

theorem dbgRead_sound (h : Sound q s) : Sound q (State.dbgRead s).1 := by
  unfold State.dbgRead
  repeat' with_reducible first
    | assumption | apply modSecx_sound | apply dbgFail_sound | refine ite_sound (fun _ => ?_) fun _ => ?_ | dsimp only
    | split
theorem dbgRead_sound' {t} {r} (h : Sound q s) (e : (State.dbgRead s) = (t, r)) : Sound q t := by
  have k := dbgRead_sound h
  rw [e] at k; exact k

theorem dbgWord_sound {a1} (h : Sound q s) : Sound q (State.dbgWord s a1) := by
  unfold State.dbgWord
  repeat' with_reducible first
    | assumption | apply modSecx_sound | apply modSec_sound | apply dbgFail_sound
    | refine ite_sound (fun _ => ?_) fun _ => ?_ | dsimp only | split

theorem dbgWrite_sound {a1} (h : Sound q s) : Sound q (State.dbgWrite s a1).1 := by
  unfold State.dbgWrite
  repeat' with_reducible first
    | assumption | apply dbgChallenge_sound | refine dbgChallenge_sound' ?_ ‹_› | apply dbgFail_sound
    | apply dbgWord_sound | refine ite_sound (fun _ => ?_) fun _ => ?_ | split
theorem dbgWrite_sound' {a1} {t} {r} (h : Sound q s) (e : (State.dbgWrite s a1) = (t, r)) : Sound q t := by
  have k := dbgWrite_sound (a1 := a1) h
  rw [e] at k; exact k

theorem dbgVerify_sound (h : Sound q s) : Sound q (State.dbgVerify s) := by
  unfold State.dbgVerify
  repeat' with_reducible first
    | assumption | apply modSecx_sound | apply modSec_sound | apply dbgFail_sound
    | refine ite_sound (fun _ => ?_) fun _ => ?_ | dsimp only | split

theorem trng_sound (h : Sound q s) : Sound q (State.trng s).1 := by
  unfold State.trng
  repeat' with_reducible first
    | assumption | dsimp only | apply Sound.memory | apply Sound.queue | refine mk_sound ?_ ?_
theorem trng_sound' {t} {r} (h : Sound q s) (e : (State.trng s) = (t, r)) : Sound q t := by
  have k := trng_sound h
  rw [e] at k; exact k

theorem secRead_sound {a1 a2} (h : Sound q s) : Sound q (State.secRead s a1 a2).1 := by
  unfold State.secRead
  repeat' with_reducible first
    | assumption | apply dbgRead_sound | refine dbgRead_sound' ?_ ‹_› | apply trng_sound | refine trng_sound' ?_ ‹_›
    | refine ite_sound (fun _ => ?_) fun _ => ?_ | dsimp only | split
theorem secRead_sound' {a1 a2} {t} {r} (h : Sound q s) (e : (State.secRead s a1 a2) = (t, r)) : Sound q t := by
  have k := secRead_sound (a1 := a1) (a2 := a2) h
  rw [e] at k; exact k

theorem secCtl_sound {a1} (h : Sound q s) : Sound q (State.secCtl s a1).1 := by
  unfold State.secCtl
  repeat' with_reducible first
    | assumption | apply modSec_sound | refine ite_sound (fun _ => ?_) fun _ => ?_ | dsimp only | split
theorem secCtl_sound' {a1} {t} {r} (h : Sound q s) (e : (State.secCtl s a1) = (t, r)) : Sound q t := by
  have k := secCtl_sound (a1 := a1) h
  rw [e] at k; exact k

theorem keysel_sound {a1 a2} (h : Sound q s) : Sound q (State.keysel s a1 a2).1 := by
  unfold State.keysel
  repeat' with_reducible first
    | assumption | apply modSec_sound | apply unwrap_sound | apply erase_sound | apply bindKey_sound
    | refine ite_sound (fun _ => ?_) fun _ => ?_ | dsimp only | split
theorem keysel_sound' {a1 a2} {t} {r} (h : Sound q s) (e : (State.keysel s a1 a2) = (t, r)) : Sound q t := by
  have k := keysel_sound (a1 := a1) (a2 := a2) h
  rw [e] at k; exact k

theorem secWrite_sound {a1 a2 a3} (h : Sound q s) : Sound q (State.secWrite s a1 a2 a3).1 := by
  unfold State.secWrite
  repeat' with_reducible first
    | assumption | apply secCtl_sound | refine secCtl_sound' ?_ ‹_› | apply modSec_sound | apply keysel_sound
    | refine keysel_sound' ?_ ‹_› | apply rollbackWrite_sound | refine rollbackWrite_sound' ?_ ‹_›
    | apply dbgWrite_sound | refine dbgWrite_sound' ?_ ‹_› | refine ite_sound (fun _ => ?_) fun _ => ?_ | dsimp only
    | split
theorem secWrite_sound' {a1 a2 a3} {t} {r} (h : Sound q s) (e : (State.secWrite s a1 a2 a3) = (t, r)) : Sound q t := by
  have k := secWrite_sound (a1 := a1) (a2 := a2) (a3 := a3) h
  rw [e] at k; exact k

theorem scramble_sound {a1 a2 a3} (h : Sound q s) : Sound q (State.scramble s a1 a2 a3) := by
  unfold State.scramble
  repeat' with_reducible first
    | assumption | apply modSh_sound | refine foldl_sound ?_ fun t x ht => ?_ | dsimp only | apply Sound.memory
    | apply Sound.queue | refine mk_sound ?_ ?_

theorem serviceFault_sound {a1 a2 a3} (h : Sound q s) : Sound q (State.serviceFault s a1 a2 a3) := by
  unfold State.serviceFault
  repeat' with_reducible first
    | assumption | apply scramble_sound | apply raise_sound | apply modSh_sound | dsimp only | apply Sound.memory
    | apply Sound.queue | refine mk_sound ?_ ?_

theorem serviceEnd_sound {a1 a2} (h : Sound q s) : Sound q (State.serviceEnd s a1 a2) := by
  unfold State.serviceEnd
  repeat' with_reducible first
    | assumption | apply serviceFault_sound | apply jump_sound | apply setReg_sound | apply scramble_sound
    | refine ite_sound (fun _ => ?_) fun _ => ?_ | dsimp only | split

theorem serviceOpen_sound {a1} (h : Sound q s) : Sound q (State.serviceOpen s a1) := by
  unfold State.serviceOpen
  repeat' with_reducible first
    | assumption | apply serviceEnd_sound | dsimp only | apply Sound.memory | apply Sound.queue
    | refine mk_sound ?_ ?_

theorem serviceOut_sound {a l} (h : Sound q s) : Sound q (s.serviceOut a l) := by
  unfold State.serviceOut
  split
  · rename_i hc
    simp only [inSram, Bool.and_eq_true, decide_eq_true_eq] at hc
    refine foldl_sound h fun t x ht => ite_sound (fun _ => ht) fun _ => storeBytes_sound ht fun hm => ?_
    simp only [inMram, Bool.and_eq_true, decide_eq_true_eq] at hm
    omega
  · exact h

theorem serviceRead_sound {a1 a2} {a3 : State → State} (ha3 : ∀ t, Sound q t → Sound q (a3 t))(h : Sound q s) :
    Sound q (State.serviceRead s a1 a2 a3) := by
  unfold State.serviceRead
  repeat' with_reducible first
    | assumption | apply ha3 | apply readWords_sound | refine readWords_sound' ?_ ‹_› | apply serviceFault_sound
    | apply record_sound | dsimp only | split

theorem svcSha_sound {a1} (h : Sound q s) : Sound q (State.svcSha s a1) := by
  unfold State.svcSha
  repeat' with_reducible first
    | assumption | refine serviceRead_sound (fun t ht => ?_) ?_ | apply serviceOut_sound | apply serviceEnd_sound
    | dsimp only

theorem svcVerify_sound {a1} (h : Sound q s) : Sound q (State.svcVerify s a1) := by
  unfold State.svcVerify
  repeat' with_reducible first
    | assumption | refine serviceRead_sound (fun t ht => ?_) ?_ | apply serviceEnd_sound
    | refine ite_sound (fun _ => ?_) fun _ => ?_ | dsimp only | split

theorem drawKey_sound (h : Sound q s) : Sound q (State.drawKey s).1 := by
  unfold State.drawKey
  repeat' with_reducible first
    | assumption | refine foldl_sound ?_ fun t x ht => ?_ | dsimp only | apply Sound.memory | apply Sound.queue
    | refine mk_sound ?_ ?_
theorem drawKey_sound' {t} {r} (h : Sound q s) (e : (State.drawKey s) = (t, r)) : Sound q t := by
  have k := drawKey_sound h
  rw [e] at k; exact k

theorem svcGen_sound {a1} (h : Sound q s) : Sound q (State.svcGen s a1) := by
  unfold State.svcGen
  repeat' with_reducible first
    | assumption | apply serviceEnd_sound | apply modSecx_sound | apply drawKey_sound | refine drawKey_sound' ?_ ‹_›
    | apply serviceOut_sound | refine ite_sound (fun _ => ?_) fun _ => ?_ | dsimp only | split

theorem svcSlot_sound {a1} (h : Sound q s) : Sound q (State.svcSlot s a1) := by
  unfold State.svcSlot
  repeat' with_reducible first
    | assumption | apply modSecx_sound | apply serviceEnd_sound | refine serviceRead_sound (fun t ht => ?_) ?_
    | apply serviceOpen_sound | apply modSlot_sound | apply keyCommit_sound | apply clearLinkWin_sound
    | refine ite_sound (fun _ => ?_) fun _ => ?_ | dsimp only | split

end Sys2Proof.Machine
end

