-- ==== Sys2Proof/Laws/SoundRadio.lean ====
section
/-!
SUPPORT. Soundness of memory and the queue through the radio, the MAC, the counters and the chain: one lemma per operation.
-/

namespace Sys2Proof.Machine

variable {q : List Instr} {s : State}

theorem refuse_sound {a1} (h : Sound q s) : Sound q (State.refuse s a1) := by
  unfold State.refuse
  repeat' with_reducible first
    | assumption | apply occur_sound | apply event_sound | apply modRad_sound
    | refine ite_sound (fun _ => ?_) fun _ => ?_ | dsimp only | split

theorem setRad_sound {a1} (h : Sound q s) : Sound q (State.setRad s a1) := by
  unfold State.setRad
  repeat' with_reducible first
    | assumption | apply modRad_sound | apply entered_sound | refine ite_sound (fun _ => ?_) fun _ => ?_ | dsimp only
    | split

theorem sfdCapture_sound {a1 a2} (h : Sound q s) : Sound q (State.sfdCapture s a1 a2) := by
  unfold State.sfdCapture
  repeat' with_reducible first
    | assumption | dsimp only | apply Sound.memory | apply Sound.queue | refine mk_sound ?_ ?_

theorem onAir_sound {a1 a2} (h : Sound q s) : Sound q (State.onAir s a1 a2) := by
  unfold State.onAir
  repeat' with_reducible first
    | assumption | apply modRad_sound | apply count_sound | apply setRad_sound | apply occur_sound | dsimp only
    | apply Sound.memory | apply Sound.queue | refine mk_sound ?_ ?_

theorem dwellWrite_sound {a1} (h : Sound q s) : Sound q (State.dwellWrite s a1).1 := by
  unfold State.dwellWrite
  repeat' with_reducible first
    | assumption | apply modRad_sound | refine ite_sound (fun _ => ?_) fun _ => ?_ | dsimp only | split
theorem dwellWrite_sound' {a1} {t} {r} (h : Sound q s) (e : (State.dwellWrite s a1) = (t, r)) : Sound q t := by
  have k := dwellWrite_sound (a1 := a1) h
  rw [e] at k; exact k

theorem rssiNow_sound (h : Sound q s) : Sound q (State.rssiNow s).1 := by
  unfold State.rssiNow
  repeat' with_reducible first
    | assumption | refine ite_sound (fun _ => ?_) fun _ => ?_ | dsimp only | split | apply Sound.memory
    | apply Sound.queue | refine mk_sound ?_ ?_
theorem rssiNow_sound' {t} {r} (h : Sound q s) (e : (State.rssiNow s) = (t, r)) : Sound q t := by
  have k := rssiNow_sound h
  rw [e] at k; exact k

theorem radRead_sound {a t v} (h : Sound q s) (e : s.radRead a = some (t, v)) : Sound q t := by
  unfold State.radRead at e
  dsimp only at e
  split at e <;> cases e <;> first | exact h | exact rssiNow_sound h

theorem radCtl_sound {a1} (h : Sound q s) : Sound q (State.radCtl s a1).1 := by
  unfold State.radCtl
  repeat' with_reducible first
    | assumption | apply modRad_sound | apply setRad_sound | refine ite_sound (fun _ => ?_) fun _ => ?_ | dsimp only
    | split
theorem radCtl_sound' {a1} {t} {r} (h : Sound q s) (e : (State.radCtl s a1) = (t, r)) : Sound q t := by
  have k := radCtl_sound (a1 := a1) h
  rw [e] at k; exact k

theorem radPwr_sound {a1} (h : Sound q s) : Sound q (State.radPwr s a1).1 := by
  unfold State.radPwr
  repeat' with_reducible first
    | assumption | apply modRad_sound | refine ite_sound (fun _ => ?_) fun _ => ?_ | dsimp only | split
theorem radPwr_sound' {a1} {t} {r} (h : Sound q s) (e : (State.radPwr s a1) = (t, r)) : Sound q t := by
  have k := radPwr_sound (a1 := a1) h
  rw [e] at k; exact k

theorem radWrite_sound {a1 a2} (h : Sound q s) : Sound q (State.radWrite s a1 a2).1 := by
  unfold State.radWrite
  repeat' with_reducible first
    | assumption | apply radCtl_sound | refine radCtl_sound' ?_ ‹_› | apply modRad_sound | apply radPwr_sound
    | refine radPwr_sound' ?_ ‹_› | apply dwellWrite_sound | refine dwellWrite_sound' ?_ ‹_›
    | refine ite_sound (fun _ => ?_) fun _ => ?_ | dsimp only | split
theorem radWrite_sound' {a1 a2} {t} {r} (h : Sound q s) (e : (State.radWrite s a1 a2) = (t, r)) : Sound q t := by
  have k := radWrite_sound (a1 := a1) (a2 := a2) h
  rw [e] at k; exact k

theorem dmaRead_sound {a1 a2} (h : Sound q s) : Sound q (State.dmaRead s a1 a2).1 := by
  unfold State.dmaRead
  repeat' with_reducible first
    | assumption | apply eccRead_sound | refine eccRead_sound' ?_ ‹_› | refine foldl_sound ?_ fun t x ht => ?_
    | dsimp only
theorem dmaRead_sound' {a1 a2} {t} {r} (h : Sound q s) (e : (State.dmaRead s a1 a2) = (t, r)) : Sound q t := by
  have k := dmaRead_sound (a1 := a1) (a2 := a2) h
  rw [e] at k; exact k

/-- The radio's and the crypto engine's buffers lie above MRAM. -/
theorem dmaStore_sound {a n v o j} (h : Sound q s) (ha : 0x08200000 ≤ a) : Sound q (s.storeBytes a n v o j) := by
  refine storeBytes_sound h fun hm => ?_
  simp only [inMram, Bool.and_eq_true, decide_eq_true_eq] at hm
  omega

theorem dmaWrite_sound {a l} (h : Sound q s) (ha : 0x08200000 ≤ a) : Sound q (s.dmaWrite a l) :=
  foldl_sound h fun _ _ h => dmaStore_sound h (by omega)

theorem rxDma_sound {k l} (h : Sound q s) : Sound q (s.dmaWrite (rxSlotAt k + 16) l) :=
  dmaWrite_sound h (by unfold rxSlotAt; omega)

theorem descWrite_sound {a w} (h : Sound q s) (ha : 0x08200000 ≤ a) : Sound q (s.descWrite a w) := dmaStore_sound h ha

theorem endDesc_sound {k a b c d} (h : Sound q s) : Sound q (s.endDesc k a b c d) := by
  unfold State.endDesc
  dsimp only
  have ha : 0x08200000 ≤ txSlotAt k := by unfold txSlotAt; omega
  exact event_sound (descWrite_sound (descWrite_sound (descWrite_sound (dmaRead_sound h) ha) (by omega)) (by omega))

theorem endFrame_sound {a1 a2} (h : Sound q s) : Sound q (State.endFrame s a1 a2) := by
  unfold State.endFrame
  repeat' with_reducible first
    | assumption | apply modMacx_sound | apply endDesc_sound | refine ite_sound (fun _ => ?_) fun _ => ?_ | dsimp only
    | split | apply Sound.memory | apply Sound.queue | refine mk_sound ?_ ?_

theorem enqueue_sound {a1} (h : Sound q s) : Sound q (State.enqueue s a1) := by
  unfold State.enqueue
  repeat' with_reducible first
    | assumption | apply modMacx_sound | apply modMac_sound | refine ite_sound (fun _ => ?_) fun _ => ?_ | dsimp only
    | split | simp only [id_eq]

theorem countQref_sound (h : Sound q s) : Sound q (State.countQref s) := by
  unfold State.countQref
  repeat' with_reducible first | assumption | apply modMac_sound | dsimp only

theorem flushLink_sound {a1} (h : Sound q s) : Sound q (State.flushLink s a1) := by
  unfold State.flushLink
  repeat' with_reducible first | assumption | apply endFrame_sound | refine foldl_sound ?_ fun t x ht => ?_ | dsimp only

theorem flushAll_sound (h : Sound q s) : Sound q (State.flushAll s) := by
  unfold State.flushAll
  repeat' with_reducible first | assumption | apply endFrame_sound | refine foldl_sound ?_ fun t x ht => ?_ | dsimp only

theorem dropAttempt_sound {a1} (h : Sound q s) : Sound q (State.dropAttempt s a1) := by
  unfold State.dropAttempt
  repeat' with_reducible first
    | assumption | apply event_sound | apply modMacx_sound | refine ite_sound (fun _ => ?_) fun _ => ?_ | dsimp only
    | split

theorem linkOff_sound {a1} (h : Sound q s) : Sound q (State.linkOff s a1) := by
  unfold State.linkOff
  repeat' with_reducible first
    | assumption | apply modLink_sound | apply dropAttempt_sound | apply flushLink_sound | apply modMacx_sound
    | refine ite_sound (fun _ => ?_) fun _ => ?_ | dsimp only | split

theorem allLinksOff_sound (h : Sound q s) : Sound q (State.allLinksOff s) := by
  unfold State.allLinksOff
  repeat' with_reducible first | assumption | apply linkOff_sound | refine foldl_sound ?_ fun t x ht => ?_ | dsimp only

theorem scanFrom_sound {a1} (h : Sound q s) : Sound q (State.scanFrom s a1) := by
  unfold State.scanFrom
  repeat' with_reducible first | assumption | apply setRad_sound | apply modMacx_sound | dsimp only

theorem dropLink_sound {a1} (h : Sound q s) : Sound q (State.dropLink s a1) := by
  unfold State.dropLink
  repeat' with_reducible first
    | assumption | apply modMac_sound | apply scanFrom_sound | apply allLinksOff_sound | apply linkOff_sound
    | refine ite_sound (fun _ => ?_) fun _ => ?_ | dsimp only | split

theorem missed_sound {a1} (h : Sound q s) : Sound q (State.missed s a1) := by
  unfold State.missed
  repeat' with_reducible first
    | assumption | apply modLink_sound | apply modMac_sound | refine ite_sound (fun _ => ?_) fun _ => ?_ | dsimp only
    | split

theorem ageTick_sound (h : Sound q s) : Sound q (State.ageTick s) := by
  unfold State.ageTick
  repeat' with_reducible first
    | assumption | apply modMac_sound | apply dropLink_sound | refine foldl_sound ?_ fun t x ht => ?_
    | refine ite_sound (fun _ => ?_) fun _ => ?_ | dsimp only | split

theorem dropRoutes_sound {a1} (h : Sound q s) : Sound q (State.dropRoutes s a1) := by
  unfold State.dropRoutes
  repeat' with_reducible first
    | assumption | apply modMac_sound | refine ite_sound (fun _ => ?_) fun _ => ?_ | dsimp only | split

theorem newNeigh_sound {a1} (h : Sound q s) : Sound q (State.newNeigh s a1).1 := by
  unfold State.newNeigh
  repeat' with_reducible first
    | assumption | apply modMac_sound | apply dropRoutes_sound | apply modNeigh_sound
    | refine ite_sound (fun _ => ?_) fun _ => ?_ | dsimp only | split
theorem newNeigh_sound' {a1} {t} {r} (h : Sound q s) (e : (State.newNeigh s a1) = (t, r)) : Sound q t := by
  have k := newNeigh_sound (a1 := a1) h
  rw [e] at k; exact k

theorem heard_sound {a1 a2} (h : Sound q s) : Sound q (State.heard s a1 a2) := by
  unfold State.heard
  repeat' with_reducible first
    | assumption | apply modNeigh_sound | apply modLink_sound | refine foldl_sound ?_ fun t x ht => ?_
    | refine ite_sound (fun _ => ?_) fun _ => ?_ | dsimp only | split

theorem macOff_sound (h : Sound q s) : Sound q (State.macOff s) := by
  unfold State.macOff
  repeat' with_reducible first
    | assumption | apply flushAll_sound | apply allLinksOff_sound | apply modMacx_sound | apply setRad_sound
    | apply modMac_sound | dsimp only

theorem macSwap_sound (h : Sound q s) : Sound q (State.macSwap s) := by
  unfold State.macSwap
  repeat' with_reducible first
    | assumption | apply modMac_sound | apply disarm_sound | refine ite_sound (fun _ => ?_) fun _ => ?_ | dsimp only
    | split

theorem setMode_sound {a1} (h : Sound q s) : Sound q (State.setMode s a1) := by
  unfold State.setMode
  repeat' with_reducible first
    | assumption | apply macSwap_sound | apply macOff_sound | apply modMac_sound | apply modMacx_sound
    | apply scanFrom_sound | apply setRad_sound | refine ite_sound (fun _ => ?_) fun _ => ?_ | dsimp only | split

theorem macCtl_sound {a1} (h : Sound q s) : Sound q (State.macCtl s a1).1 := by
  unfold State.macCtl
  repeat' with_reducible first
    | assumption | apply setMode_sound | apply modMac_sound | refine ite_sound (fun _ => ?_) fun _ => ?_ | dsimp only
    | split
theorem macCtl_sound' {a1} {t} {r} (h : Sound q s) (e : (State.macCtl s a1) = (t, r)) : Sound q t := by
  have k := macCtl_sound (a1 := a1) h
  rw [e] at k; exact k

theorem linkWrite0_sound {l w} (h : Sound q s) : Sound q (s.linkWrite0 l w).1 := by
  unfold State.linkWrite0
  extract_lets x fixed rq runs scan s1 s2 s3 s4 s5
  have h1 : Sound q s1 := modLink_sound h
  clear_value s1
  have h2 : Sound q s2 := modLink_sound h1
  clear_value s2
  have h3 : Sound q s3 := by
    have k := @linkOff_sound
    simp only [s3]
    repeat' first
      | with_reducible assumption | with_reducible apply linkOff_sound | with_reducible apply modLink_sound
      | with_reducible apply setRad_sound | split
  clear_value s3
  have h4 : Sound q s4 := ite_sound (fun _ => modMacx_sound h3) fun _ => h3
  clear_value s4
  have h5 : Sound q s5 := ite_sound (fun _ => scanFrom_sound h4) fun _ => h4
  split
  · exact h
  · exact h5
theorem linkWrite0_sound' {l w} {t} {r} (h : Sound q s) (e : s.linkWrite0 l w = (t, r)) : Sound q t := by
  have k := linkWrite0_sound (l := l) (w := w) h
  rw [e] at k; exact k

theorem neighWrite_sound {a1 a2 a3} (h : Sound q s) : Sound q (State.neighWrite s a1 a2 a3).1 := by
  unfold State.neighWrite
  repeat' with_reducible first
    | assumption | apply modNeigh_sound | apply dropRoutes_sound | refine ite_sound (fun _ => ?_) fun _ => ?_
    | dsimp only | split
theorem neighWrite_sound' {a1 a2 a3} {t} {r} (h : Sound q s) (e : (State.neighWrite s a1 a2 a3) = (t, r)) :
    Sound q t := by
  have k := neighWrite_sound (a1 := a1) (a2 := a2) (a3 := a3) h
  rw [e] at k; exact k

theorem linkWrite_sound {a1 a2 a3} (h : Sound q s) : Sound q (State.linkWrite s a1 a2 a3).1 := by
  unfold State.linkWrite
  repeat' with_reducible first
    | assumption | apply linkWrite0_sound | refine linkWrite0_sound' ?_ ‹_› | apply modLink_sound
    | refine ite_sound (fun _ => ?_) fun _ => ?_ | dsimp only | split
theorem linkWrite_sound' {a1 a2 a3} {t} {r} (h : Sound q s) (e : (State.linkWrite s a1 a2 a3) = (t, r)) :
    Sound q t := by
  have k := linkWrite_sound (a1 := a1) (a2 := a2) (a3 := a3) h
  rw [e] at k; exact k

theorem routeWrite_sound {a1 a2 a3} (h : Sound q s) : Sound q (State.routeWrite s a1 a2 a3).1 := by
  unfold State.routeWrite
  repeat' with_reducible first
    | assumption | apply modMac_sound | refine ite_sound (fun _ => ?_) fun _ => ?_ | dsimp only | split
theorem routeWrite_sound' {a1 a2 a3} {t} {r} (h : Sound q s) (e : (State.routeWrite s a1 a2 a3) = (t, r)) :
    Sound q t := by
  have k := routeWrite_sound (a1 := a1) (a2 := a2) (a3 := a3) h
  rw [e] at k; exact k

theorem filterWrite_sound {a1 a2} (h : Sound q s) : Sound q (State.filterWrite s a1 a2).1 := by
  unfold State.filterWrite
  repeat' with_reducible first
    | assumption | apply modMac_sound | apply modNeigh_sound | refine ite_sound (fun _ => ?_) fun _ => ?_ | dsimp only
    | split
theorem filterWrite_sound' {a1 a2} {t} {r} (h : Sound q s) (e : (State.filterWrite s a1 a2) = (t, r)) : Sound q t := by
  have k := filterWrite_sound (a1 := a1) (a2 := a2) h
  rw [e] at k; exact k

theorem tabWrite_sound {a1} (h : Sound q s) : Sound q (State.tabWrite s a1).1 := by
  unfold State.tabWrite
  repeat' with_reducible first
    | assumption | apply modMac_sound | apply linkWrite_sound | refine linkWrite_sound' ?_ ‹_›
    | apply neighWrite_sound | refine neighWrite_sound' ?_ ‹_› | apply routeWrite_sound
    | refine routeWrite_sound' ?_ ‹_› | apply filterWrite_sound | refine filterWrite_sound' ?_ ‹_›
    | refine ite_sound (fun _ => ?_) fun _ => ?_ | dsimp only | split
theorem tabWrite_sound' {a1} {t} {r} (h : Sound q s) (e : (State.tabWrite s a1) = (t, r)) : Sound q t := by
  have k := tabWrite_sound (a1 := a1) h
  rw [e] at k; exact k

theorem macRead_sound {a1 a2} {t} {v} (h : Sound q s) (e : (State.macRead s a1 a2) = some (t, v)) : Sound q t := by
  unfold State.macRead at e
  revert e
  repeat' with_reducible first
    | assumption | apply modTmp_sound | apply modMac_sound | refine ite_sound (fun _ => ?_) fun _ => ?_ | dsimp only
    | split | (intro e; cases e)

theorem macWrite_sound {a1 a2} (h : Sound q s) : Sound q (State.macWrite s a1 a2).1 := by
  unfold State.macWrite
  repeat' with_reducible first
    | assumption | apply macCtl_sound | refine macCtl_sound' ?_ ‹_› | apply modMac_sound | apply tabWrite_sound
    | refine tabWrite_sound' ?_ ‹_› | refine ite_sound (fun _ => ?_) fun _ => ?_ | dsimp only | split
theorem macWrite_sound' {a1 a2} {t} {r} (h : Sound q s) (e : (State.macWrite s a1 a2) = (t, r)) : Sound q t := by
  have k := macWrite_sound (a1 := a1) (a2 := a2) h
  rw [e] at k; exact k

theorem skipSlots_sound {a1 a2} (h : Sound q s) : Sound q (State.skipSlots s a1 a2) := by
  unfold State.skipSlots
  repeat' with_reducible first
    | assumption | apply modLink_sound | refine foldl_sound ?_ fun t x ht => ?_
    | refine ite_sound (fun _ => ?_) fun _ => ?_ | dsimp only | split

theorem routeUsed_sound {a1} (h : Sound q s) : Sound q (State.routeUsed s a1) := by
  unfold State.routeUsed
  repeat' with_reducible first
    | assumption | apply modMac_sound | refine foldl_sound ?_ fun t x ht => ?_
    | refine ite_sound (fun _ => ?_) fun _ => ?_ | dsimp only | split

theorem noKey_sound (h : Sound q s) : Sound q (State.noKey s) := by
  unfold State.noKey
  repeat' with_reducible first | assumption | apply event_sound | apply modSec_sound | dsimp only

theorem takeEnd_sound {a1 a2 a3} (h : Sound q s) : Sound q (State.takeEnd s a1 a2 a3) := by
  unfold State.takeEnd
  repeat' with_reducible first
    | assumption | apply endDesc_sound | dsimp only | split | apply Sound.memory | apply Sound.queue
    | refine mk_sound ?_ ?_

theorem takeOne_sound {a1 a2 a3} (h : Sound q s) : Sound q (State.takeOne s a1 a2 a3) := by
  unfold State.takeOne
  repeat' with_reducible first
    | assumption | apply takeEnd_sound | apply dmaRead_sound | refine dmaRead_sound' ?_ ‹_› | apply routeUsed_sound
    | apply noKey_sound | apply countQref_sound | apply enqueue_sound | refine ite_sound (fun _ => ?_) fun _ => ?_
    | dsimp only | split | apply Sound.memory | apply Sound.queue | refine mk_sound ?_ ?_

theorem takeDescs_sound {n} (h : Sound q s) : Sound q (s.takeDescs n) := by
  induction n generalizing s with
  | zero => exact h
  | succ n ih =>
    unfold State.takeDescs
    dsimp only
    split
    · exact h
    · split
      · exact dmaRead_sound h
      · exact ih (takeOne_sound (modMacx_sound (dmaRead_sound h)))

theorem txRefused_sound (h : Sound q s) : Sound q (State.txRefused s) := by
  unfold State.txRefused
  repeat' with_reducible first
    | assumption | apply setRad_sound | apply modMacx_sound | apply endFrame_sound
    | refine ite_sound (fun _ => ?_) fun _ => ?_ | dsimp only | split

theorem serveTx_sound {a1 a2} (h : Sound q s) : Sound q (State.serveTx s a1 a2) := by
  unfold State.serveTx
  repeat' with_reducible first
    | assumption | apply modMacx_sound | apply txRefused_sound | apply refuse_sound | apply setRad_sound
    | apply modRad_sound | refine ite_sound (fun _ => ?_) fun _ => ?_ | dsimp only | split

theorem serveRx_sound {a1 a2} (h : Sound q s) : Sound q (State.serveRx s a1 a2) := by
  unfold State.serveRx
  repeat' with_reducible first | assumption | apply setRad_sound | apply modMacx_sound | dsimp only

theorem serveNone_sound (h : Sound q s) : Sound q (State.serveNone s) := by
  unfold State.serveNone
  repeat' with_reducible first | assumption | apply setRad_sound | apply modMacx_sound | dsimp only

theorem serveData_sound {a1 a2 a3 a4} (h : Sound q s) : Sound q (State.serveData s a1 a2 a3 a4) := by
  unfold State.serveData
  repeat' with_reducible first
    | assumption | apply serveRx_sound | apply serveNone_sound | apply serveTx_sound
    | refine ite_sound (fun _ => ?_) fun _ => ?_ | dsimp only | split

theorem serveJoiner_sound {a1 a2} (h : Sound q s) : Sound q (State.serveJoiner s a1 a2) := by
  unfold State.serveJoiner
  repeat' with_reducible first
    | assumption | apply serveRx_sound | apply serveNone_sound | apply modMacx_sound | apply serveTx_sound
    | refine ite_sound (fun _ => ?_) fun _ => ?_ | dsimp only | split | apply Sound.memory | apply Sound.queue
    | refine mk_sound ?_ ?_

theorem goesOn_sound (h : Sound q s) : Sound q (State.goesOn s) := by
  unfold State.goesOn
  repeat' with_reducible first | assumption | apply modMacx_sound | dsimp only

theorem serve_sound {a1 a2} (h : Sound q s) : Sound q (State.serve s a1 a2) := by
  unfold State.serve
  repeat' with_reducible first
    | assumption | apply serveNone_sound | apply serveTx_sound | apply serveRx_sound | apply serveJoiner_sound
    | apply goesOn_sound | apply serveData_sound | refine ite_sound (fun _ => ?_) fun _ => ?_ | dsimp only | split

theorem occurrences_sound {a1 a2} (h : Sound q s) : Sound q (State.occurrences s a1 a2) := by
  unfold State.occurrences
  repeat' with_reducible first
    | assumption | apply modLink_sound | apply modMacx_sound | refine foldl_sound ?_ fun t x ht => ?_
    | refine ite_sound (fun _ => ?_) fun _ => ?_ | dsimp only | split

theorem slotBegin_sound {a1} (h : Sound q s) : Sound q (State.slotBegin s a1) := by
  unfold State.slotBegin
  repeat' with_reducible first
    | assumption | apply skipSlots_sound | apply modMacx_sound | apply takeDescs_sound | apply modMac_sound
    | apply occurrences_sound | apply serve_sound | apply serveNone_sound | refine ite_sound (fun _ => ?_) fun _ => ?_
    | dsimp only | split

theorem txIdle_sound (h : Sound q s) : Sound q (State.txIdle s) := by
  unfold State.txIdle
  repeat' with_reducible first | assumption | apply setRad_sound | apply modMacx_sound | dsimp only

theorem awaitAck_sound {a1} (h : Sound q s) : Sound q (State.awaitAck s a1) := by
  unfold State.awaitAck
  repeat' with_reducible first | assumption | apply setRad_sound | apply modMacx_sound | dsimp only

theorem spoke_sound {a1} (h : Sound q s) : Sound q (State.spoke s a1) := by
  unfold State.spoke
  repeat' with_reducible first | assumption | apply modLink_sound | dsimp only

theorem frameCounter_sound {a1} (h : Sound q s) : Sound q (State.frameCounter s a1).1 := by
  unfold State.frameCounter
  repeat' with_reducible first
    | assumption | apply noKey_sound | apply takeCounter_sound | refine takeCounter_sound' ?_ ‹_›
    | refine ite_sound (fun _ => ?_) fun _ => ?_ | dsimp only | split
theorem frameCounter_sound' {a1} {t} {r} (h : Sound q s) (e : (State.frameCounter s a1) = (t, r)) : Sound q t := by
  have k := frameCounter_sound (a1 := a1) h
  rw [e] at k; exact k

theorem keyData_sound {a1} (h : Sound q s) : Sound q (State.keyData s a1) := by
  unfold State.keyData
  repeat' with_reducible first
    | assumption | apply frameCounter_sound | refine frameCounter_sound' ?_ ‹_› | apply txIdle_sound
    | apply endFrame_sound | apply modLink_sound | apply modMacx_sound | apply awaitAck_sound | apply spoke_sound
    | apply onAir_sound | refine ite_sound (fun _ => ?_) fun _ => ?_ | dsimp only | split

theorem keyJoin_sound {a1} (h : Sound q s) : Sound q (State.keyJoin s a1) := by
  unfold State.keyJoin
  repeat' with_reducible first
    | assumption | apply modMacx_sound | apply onAir_sound | apply spoke_sound | apply awaitAck_sound
    | refine ite_sound (fun _ => ?_) fun _ => ?_ | dsimp only | split

theorem keyAlive_sound {a1} (h : Sound q s) : Sound q (State.keyAlive s a1) := by
  unfold State.keyAlive
  repeat' with_reducible first
    | assumption | apply txIdle_sound | apply noKey_sound | apply takeCounter_sound | refine takeCounter_sound' ?_ ‹_›
    | apply modLink_sound | apply awaitAck_sound | apply spoke_sound | apply onAir_sound | dsimp only | split

theorem keyBeacon_sound (h : Sound q s) : Sound q (State.keyBeacon s) := by
  unfold State.keyBeacon
  repeat' with_reducible first
    | assumption | apply txIdle_sound | apply noKey_sound | apply takeCounter_sound | refine takeCounter_sound' ?_ ‹_›
    | apply event_sound | apply onAir_sound | refine ite_sound (fun _ => ?_) fun _ => ?_ | dsimp only | split

theorem keyFrame_sound (h : Sound q s) : Sound q (State.keyFrame s) := by
  unfold State.keyFrame
  repeat' with_reducible first
    | assumption | apply keyBeacon_sound | apply keyAlive_sound | apply keyData_sound | apply txIdle_sound
    | apply keyJoin_sound | dsimp only | split

theorem keyUp_sound (h : Sound q s) : Sound q (State.keyUp s) := by
  unfold State.keyUp
  repeat' with_reducible first
    | assumption | apply txRefused_sound | apply keyFrame_sound | apply refuse_sound
    | refine ite_sound (fun _ => ?_) fun _ => ?_ | dsimp only | split

theorem listenEnd_sound {a1 a2} (h : Sound q s) : Sound q (State.listenEnd s a1 a2) := by
  unfold State.listenEnd
  repeat' with_reducible first
    | assumption | apply txRefused_sound | apply refuse_sound | apply modRad_sound | apply modMacx_sound
    | refine ite_sound (fun _ => ?_) fun _ => ?_ | dsimp only | split

theorem micFail_sound (h : Sound q s) : Sound q (State.micFail s) := by
  unfold State.micFail
  repeat' with_reducible first | assumption | apply event_sound | apply modSec_sound | dsimp only

theorem staleFrame_sound (h : Sound q s) : Sound q (State.staleFrame s) := by
  unfold State.staleFrame
  repeat' with_reducible first | assumption | apply event_sound | apply modSec_sound | dsimp only

theorem rxOffered_sound (h : Sound q s) : Sound q (State.rxOffered s).1 := by
  unfold State.rxOffered
  repeat' with_reducible first | assumption | apply dmaRead_sound | refine dmaRead_sound' ?_ ‹_› | dsimp only | split
theorem rxOffered_sound' {t} {r} (h : Sound q s) (e : (State.rxOffered s) = (t, r)) : Sound q t := by
  have k := rxOffered_sound h
  rw [e] at k; exact k

theorem deliver_sound {a1 a2 a3 a4 a5 a6 a7 a8 a9} (h : Sound q s) : Sound q
    (s.deliver a1 a2 a3 a4 a5 a6 a7 a8 a9) := by
  unfold State.deliver
  have ha : 0x08200000 ≤ rxSlotAt s.macx.rxPtr := by unfold rxSlotAt; omega
  exact event_sound (modMacx_sound (descWrite_sound (descWrite_sound (descWrite_sound (descWrite_sound
    (rxDma_sound h) (by omega)) (by omega)) (by omega)) ha))

theorem dupCheck_sound {a1 a2 a3} (h : Sound q s) : Sound q (State.dupCheck s a1 a2 a3).1 := by
  unfold State.dupCheck
  repeat' with_reducible first
    | assumption | apply modMac_sound | apply modMacx_sound | refine ite_sound (fun _ => ?_) fun _ => ?_ | dsimp only
    | split
theorem dupCheck_sound' {a1 a2 a3} {t} {r} (h : Sound q s) (e : (State.dupCheck s a1 a2 a3) = (t, r)) : Sound q t := by
  have k := dupCheck_sound (a1 := a1) (a2 := a2) (a3 := a3) h
  rw [e] at k; exact k

theorem routeError_sound {a1 a2 a3 a4 a5} (h : Sound q s) : Sound q (State.routeError s a1 a2 a3 a4 a5) := by
  unfold State.routeError
  repeat' with_reducible first
    | assumption | apply modMacx_sound | apply rxOffered_sound | refine rxOffered_sound' ?_ ‹_› | apply deliver_sound
    | apply enqueue_sound | refine ite_sound (fun _ => ?_) fun _ => ?_ | dsimp only | split | simp only [id_eq]
    | apply Sound.memory | apply Sound.queue | refine mk_sound ?_ ?_

theorem ackFor_sound {a1 a2 a3 a4 a5} (h : Sound q s) : Sound q (State.ackFor s a1 a2 a3 a4 a5) := by
  unfold State.ackFor
  repeat' with_reducible first | assumption | apply modMacx_sound | dsimp only

theorem ackSend_sound {a1} (h : Sound q s) : Sound q (State.ackSend s a1) := by
  unfold State.ackSend
  repeat' with_reducible first
    | assumption | apply modMacx_sound | apply setRad_sound | apply refuse_sound | apply event_sound
    | apply onAir_sound | refine ite_sound (fun _ => ?_) fun _ => ?_ | dsimp only | split

theorem counterCheck_sound {a1 a2} (h : Sound q s) : Sound q (State.counterCheck s a1 a2) := by
  unfold State.counterCheck
  repeat' with_reducible first
    | assumption | apply modLink_sound | apply modMacx_sound | apply modMac_sound
    | refine ite_sound (fun _ => ?_) fun _ => ?_ | dsimp only | split

theorem rxOver_sound (h : Sound q s) : Sound q (State.rxOver s) := by
  unfold State.rxOver
  repeat' with_reducible first | assumption | apply setRad_sound | apply modMacx_sound | dsimp only

theorem runsFrom_sound {a1} (h : Sound q s) : Sound q (State.runsFrom s a1) := by
  unfold State.runsFrom
  repeat' with_reducible first
    | assumption | apply setRad_sound | apply modMacx_sound | refine ite_sound (fun _ => ?_) fun _ => ?_ | dsimp only
    | split

theorem beaconTime_sound {a1 a2 a3} (h : Sound q s) : Sound q (State.beaconTime s a1 a2 a3) := by
  unfold State.beaconTime
  repeat' with_reducible first
    | assumption | apply modTmp_sound | apply modMacx_sound | apply modLink_sound | apply runsFrom_sound
    | refine ite_sound (fun _ => ?_) fun _ => ?_ | dsimp only | split

theorem beaconNeigh_sound {a1 a2} (h : Sound q s) : Sound q (State.beaconNeigh s a1 a2) := by
  unfold State.beaconNeigh
  repeat' with_reducible first | assumption | apply modNeigh_sound | dsimp only

theorem senderEntry_sound {a1 a2} (h : Sound q s) : Sound q (State.senderEntry s a1 a2).1 := by
  unfold State.senderEntry
  repeat' with_reducible first | assumption | apply newNeigh_sound | refine newNeigh_sound' ?_ ‹_› | dsimp only | split
theorem senderEntry_sound' {a1 a2} {t} {r} (h : Sound q s) (e : (State.senderEntry s a1 a2) = (t, r)) : Sound q t := by
  have k := senderEntry_sound (a1 := a1) (a2 := a2) h
  rw [e] at k; exact k

theorem rxBeacon_sound {a1 a2 a3} (h : Sound q s) : Sound q (State.rxBeacon s a1 a2 a3) := by
  unfold State.rxBeacon
  repeat' with_reducible first
    | assumption | apply micFail_sound | apply senderEntry_sound | refine senderEntry_sound' ?_ ‹_›
    | apply staleFrame_sound | apply modNeigh_sound | apply event_sound | apply heard_sound | apply beaconNeigh_sound
    | apply beaconTime_sound | apply rxOver_sound | refine ite_sound (fun _ => ?_) fun _ => ?_ | dsimp only | split

theorem rxAck_sound {a1 a2} (h : Sound q s) : Sound q (State.rxAck s a1 a2) := by
  unfold State.rxAck
  repeat' with_reducible first
    | assumption | apply heard_sound | apply modMacx_sound | apply counterCheck_sound | apply event_sound
    | apply endFrame_sound | apply rxOver_sound | refine ite_sound (fun _ => ?_) fun _ => ?_ | dsimp only | split

theorem rxJoinFrame_sound {a1 a2 a3} (h : Sound q s) : Sound q (State.rxJoinFrame s a1 a2 a3) := by
  unfold State.rxJoinFrame
  repeat' with_reducible first
    | assumption | apply senderEntry_sound | refine senderEntry_sound' ?_ ‹_› | apply rxOver_sound | apply event_sound
    | apply ackFor_sound | apply heard_sound | apply rxOffered_sound | refine rxOffered_sound' ?_ ‹_›
    | apply modNeigh_sound | apply deliver_sound | refine ite_sound (fun _ => ?_) fun _ => ?_ | dsimp only | split
    | simp only [id_eq]

theorem acceptBody_sound {a1 a2 a3 a4 a5 a6 a7} (h : Sound q s) : Sound q
    (State.acceptBody s a1 a2 a3 a4 a5 a6 a7).1 := by
  unfold State.acceptBody
  repeat' with_reducible first
    | assumption | apply routeError_sound | apply event_sound | apply rxOffered_sound | refine rxOffered_sound' ?_ ‹_›
    | apply deliver_sound | apply dupCheck_sound | refine dupCheck_sound' ?_ ‹_› | apply countQref_sound
    | apply routeUsed_sound | apply enqueue_sound | refine ite_sound (fun _ => ?_) fun _ => ?_ | dsimp only | split
    | simp only [id_eq]
theorem acceptBody_sound' {a1 a2 a3 a4 a5 a6 a7} {t} {r} (h : Sound q s) (e :
    (State.acceptBody s a1 a2 a3 a4 a5 a6 a7) = (t, r)) : Sound q t := by
  have k := acceptBody_sound (a1 := a1) (a2 := a2) (a3 := a3) (a4 := a4) (a5 := a5) (a6 := a6) (a7 := a7) h
  rw [e] at k; exact k

/-- What an accepted frame does keeps memory sound. -/
theorem acceptBody_effect {a1 a2 a3 a4 a5 a6 a7 t u f} (e : State.acceptBody s a1 a2 a3 a4 a5 a6 a7 = (t, some f))
    (h : Sound q u) : Sound q (f u) := by
  have herr : ∀ {d r sq z c} {v : State}, Sound q v → Sound q (if a1 = 4 then v else v.routeError d r sq z c) := by
    intro d r sq z c v hv
    split
    · exact hv
    · exact routeError_sound hv
  unfold State.acceptBody at e
  extract_lets dst src seq hops pay err at e
  split at e
  · cases e; exact event_sound h
  · split at e
    · dsimp only at e
      split at e <;> cases e
      exact deliver_sound h
    · split at e
      · dsimp only at e
        split at e <;> cases e
        dsimp only
        split
        · exact deliver_sound (dupCheck_sound h)
        · exact deliver_sound h
      · split at e
        · cases e; exact event_sound (herr h)
        · split at e
          · cases e; exact event_sound (herr h)
          · cases e; exact event_sound (herr h)
          · split at e
            · cases e
            · cases e
              dsimp only
              split
              · exact enqueue_sound (event_sound (routeUsed_sound h))
              · exact event_sound (routeUsed_sound h)

theorem rxSecured_sound {p r z} (h : Sound q s) : Sound q (s.rxSecured p r z) := by
  unfold State.rxSecured
  extract_lets type lvlOct lvl cls lsrc fcnt
  split
  · exact h
  · split
    · exact event_sound (modSec_sound h)
    · split
      · exact micFail_sound h
      · extract_lets eui un opened
        clear_value opened
        split
        · exact micFail_sound h
        · rename_i k body _
          extract_lets gen verdict s1 a bits good s2 bits2
          have h1 : Sound q s1 := modNeigh_sound h
          have hg : ∀ t, Sound q t → Sound q (good t) := by
            intro t ht
            simp only [good]
            clear_value a
            cases a
            · exact heard_sound ht
            · exact counterCheck_sound (heard_sound ht)
          have h2 : Sound q s2 := hg _ h1
          clear_value s1 s2 verdict
          cases verdict with
          | stale => exact staleFrame_sound h1
          | repeated => exact rxOver_sound (event_sound (ackFor_sound (hg _ h1)))
          | new =>
            dsimp only
            split
            · exact h1
            · split
              · exact event_sound (acceptBody_sound' h2 ‹_›)
              · rename_i effect he
                exact rxOver_sound (acceptBody_effect he (ackFor_sound (modNeigh_sound (acceptBody_sound' h2 he))))

theorem macFrame_sound {a1 a2 a3} (h : Sound q s) : Sound q (State.macFrame s a1 a2 a3) := by
  unfold State.macFrame
  repeat' with_reducible first
    | assumption | apply rxAck_sound | apply rxBeacon_sound | apply rxJoinFrame_sound | apply rxSecured_sound
    | refine ite_sound (fun _ => ?_) fun _ => ?_ | dsimp only | split

theorem rxFrame_sound {a1} (h : Sound q s) : Sound q (State.rxFrame s a1) := by
  unfold State.rxFrame
  repeat' with_reducible first
    | assumption | apply atPhase_sound | apply modRad_sound | apply macFrame_sound | apply occur_sound
    | refine ite_sound (fun _ => ?_) fun _ => ?_ | dsimp only | split

theorem ackLost_sound {a1} (h : Sound q s) : Sound q (State.ackLost s a1) := by
  unfold State.ackLost
  repeat' with_reducible first
    | assumption | apply missed_sound | apply event_sound | apply occur_sound | apply modMacx_sound
    | apply endFrame_sound | apply rxOver_sound | refine ite_sound (fun _ => ?_) fun _ => ?_ | dsimp only | split

theorem rxLost_sound (h : Sound q s) : Sound q (State.rxLost s) := by
  unfold State.rxLost
  repeat' with_reducible first | assumption | apply missed_sound | apply rxOver_sound | dsimp only | split

theorem superframe_sound (h : Sound q s) : Sound q (State.superframe s) := by
  unfold State.superframe
  repeat' with_reducible first
    | assumption | apply ageTick_sound | apply macSwap_sound | apply event_sound | apply modMacx_sound
    | apply latchPeriod_sound | apply persistBoundary_sound | refine ite_sound (fun _ => ?_) fun _ => ?_ | dsimp only
    | split

theorem localTick_sound (h : Sound q s) : Sound q (State.localTick s) := by
  unfold State.localTick
  repeat' with_reducible first
    | assumption | apply modTmp_sound | apply ageTick_sound | refine ite_sound (fun _ => ?_) fun _ => ?_ | dsimp only
    | split

theorem selectWrite_sound {a1 a2} (h : Sound q s) : Sound q (State.selectWrite s a1 a2) := by
  unfold State.selectWrite
  repeat' with_reducible first
    | assumption | apply transfer_sound | apply modPrf_sound | refine ite_sound (fun _ => ?_) fun _ => ?_ | dsimp only
    | split

theorem prfCtl_sound {a1} (h : Sound q s) : Sound q (State.prfCtl s a1) := by
  unfold State.prfCtl
  repeat' with_reducible first | assumption | apply modPrf_sound | dsimp only

theorem prfWrite_sound {a1 a2} (h : Sound q s) : Sound q (State.prfWrite s a1 a2).1 := by
  unfold State.prfWrite
  repeat' with_reducible first
    | assumption | apply prfCtl_sound | apply modPrf_sound | apply selectWrite_sound
    | refine ite_sound (fun _ => ?_) fun _ => ?_ | dsimp only | split
theorem prfWrite_sound' {a1 a2} {t} {r} (h : Sound q s) (e : (State.prfWrite s a1 a2) = (t, r)) : Sound q t := by
  have k := prfWrite_sound (a1 := a1) (a2 := a2) h
  rw [e] at k; exact k

theorem linkSend_sound {a1 a2 a3 a4} (h : Sound q s) : Sound q (State.linkSend s a1 a2 a3 a4) := by
  unfold State.linkSend
  repeat' with_reducible first | assumption | apply modLnk_sound | dsimp only

theorem linkCrc_sound (h : Sound q s) : Sound q (State.linkCrc s) := by
  unfold State.linkCrc
  repeat' with_reducible first | assumption | apply modLnk_sound | dsimp only

theorem linkFrame_sound {a1 a2} {a3 : State → State} (ha3 : ∀ t, Sound q t → Sound q (a3 t))(h : Sound q s) :
    Sound q (State.linkFrame s a1 a2 a3) := by
  unfold State.linkFrame
  repeat' with_reducible first
    | assumption | apply ha3 | apply modLnk_sound | apply linkCrc_sound | refine ite_sound (fun _ => ?_) fun _ => ?_
    | dsimp only | split

theorem chainEvent_sound {a1} (h : Sound q s) : Sound q (State.chainEvent s a1) := by
  unfold State.chainEvent
  repeat' with_reducible first | assumption | apply event_sound | refine ite_sound (fun _ => ?_) fun _ => ?_ | split

theorem strapSample_sound {a1} (h : Sound q s) : Sound q (State.strapSample s a1) := by
  unfold State.strapSample
  repeat' with_reducible first
    | assumption | apply modLnk_sound | refine ite_sound (fun _ => ?_) fun _ => ?_ | dsimp only | split

theorem hwSend_sound {a1} (h : Sound q s) : Sound q (State.hwSend s a1) := by
  unfold State.hwSend
  repeat' with_reducible first | assumption | apply modLnk_sound | dsimp only

theorem enumRequest_sound (h : Sound q s) : Sound q (State.enumRequest s) := by
  unfold State.enumRequest
  repeat' with_reducible first
    | assumption | apply linkSend_sound | refine ite_sound (fun _ => ?_) fun _ => ?_ | dsimp only | split

theorem enumAnswer_sound {a1 a2} (h : Sound q s) : Sound q (State.enumAnswer s a1 a2) := by
  unfold State.enumAnswer
  repeat' with_reducible first
    | assumption | apply hwSend_sound | apply modLnk_sound | refine ite_sound (fun _ => ?_) fun _ => ?_ | dsimp only
    | split

theorem mailbox_sound {a1 a2 a3} (h : Sound q s) : Sound q (State.mailbox s a1 a2 a3) := by
  unfold State.mailbox
  repeat' with_reducible first | assumption | apply chainEvent_sound | apply modLnk_sound | dsimp only

theorem hwFrame_sound {a1 a2} (h : Sound q s) : Sound q (State.hwFrame s a1 a2) := by
  unfold State.hwFrame
  repeat' with_reducible first
    | assumption | apply mailbox_sound | apply modLnk_sound | apply linkSend_sound
    | refine ite_sound (fun _ => ?_) fun _ => ?_ | dsimp only | split

theorem stage_sound {a1} (h : Sound q s) : Sound q (State.stage s a1) := by
  unfold State.stage
  repeat' with_reducible first
    | assumption | apply modLnk_sound | refine ite_sound (fun _ => ?_) fun _ => ?_ | dsimp only | split

theorem sendStaged_sound (h : Sound q s) : Sound q (State.sendStaged s) := by
  unfold State.sendStaged
  repeat' with_reducible first
    | assumption | apply modLnk_sound | apply linkSend_sound | refine ite_sound (fun _ => ?_) fun _ => ?_ | dsimp only
    | split

theorem flushStaged_sound (h : Sound q s) : Sound q (State.flushStaged s) := by
  unfold State.flushStaged
  repeat' with_reducible first
    | assumption | apply modLnk_sound | refine ite_sound (fun _ => ?_) fun _ => ?_ | dsimp only | split

theorem sendEnds_sound {a1} (h : Sound q s) : Sound q (State.sendEnds s a1) := by
  unfold State.sendEnds
  repeat' with_reducible first
    | assumption | apply chainEvent_sound | apply modLnk_sound | refine ite_sound (fun _ => ?_) fun _ => ?_
    | dsimp only | split

theorem msgFrame_sound {a1 a2 a3} (h : Sound q s) : Sound q (State.msgFrame s a1 a2 a3) := by
  unfold State.msgFrame
  repeat' with_reducible first
    | assumption | apply mailbox_sound | apply linkSend_sound | refine ite_sound (fun _ => ?_) fun _ => ?_ | split

theorem mackFrame_sound {a1 a2 a3} (h : Sound q s) : Sound q (State.mackFrame s a1 a2 a3) := by
  unfold State.mackFrame
  repeat' with_reducible first
    | assumption | apply sendEnds_sound | apply linkSend_sound | refine ite_sound (fun _ => ?_) fun _ => ?_ | split

theorem rxboxRead_sound (h : Sound q s) : Sound q (State.rxboxRead s).1 := by
  unfold State.rxboxRead
  repeat' with_reducible first
    | assumption | apply modLnk_sound | refine ite_sound (fun _ => ?_) fun _ => ?_ | dsimp only | split
theorem rxboxRead_sound' {t} {r} (h : Sound q s) (e : (State.rxboxRead s) = (t, r)) : Sound q t := by
  have k := rxboxRead_sound h
  rw [e] at k; exact k

theorem syncPulse_sound (h : Sound q s) : Sound q (State.syncPulse s) := by
  unfold State.syncPulse
  repeat' with_reducible first | assumption | apply linkSend_sound | dsimp only

theorem syncError_sound (h : Sound q s) : Sound q (State.syncError s) := by
  unfold State.syncError
  repeat' with_reducible first | assumption | apply chainEvent_sound | apply modLnk_sound | dsimp only

theorem syncEdge_sound (h : Sound q s) : Sound q (State.syncEdge s) := by
  unfold State.syncEdge
  repeat' with_reducible first
    | assumption | apply modTmp_sound | apply syncError_sound | apply modLnk_sound
    | refine ite_sound (fun _ => ?_) fun _ => ?_ | dsimp only | split

theorem reference_sound {a1 a2 a3} (h : Sound q s) : Sound q (State.reference s a1 a2 a3) := by
  unfold State.reference
  repeat' with_reducible first
    | assumption | apply modTmp_sound | apply persistBoundary_sound | apply modLnk_sound
    | refine ite_sound (fun _ => ?_) fun _ => ?_ | dsimp only | split

theorem timeFrame_sound {a1 a2} (h : Sound q s) : Sound q (State.timeFrame s a1 a2) := by
  unfold State.timeFrame
  repeat' with_reducible first
    | assumption | apply linkSend_sound | apply modLnk_sound | apply syncError_sound | apply reference_sound
    | refine ite_sound (fun _ => ?_) fun _ => ?_ | dsimp only | split

theorem lnkRead_sound {a t v} (h : Sound q s) (e : s.lnkRead a = some (t, v)) : Sound q t := by
  unfold State.lnkRead at e
  dsimp only at e
  split at e <;> try (cases e; first | exact h | done)
  exact rxboxRead_sound' h (Option.some.inj e)

theorem lnkCtl_sound {a1} (h : Sound q s) : Sound q (State.lnkCtl s a1) := by
  unfold State.lnkCtl
  repeat' with_reducible first
    | assumption | apply modLnk_sound | apply flushStaged_sound | apply sendStaged_sound
    | refine ite_sound (fun _ => ?_) fun _ => ?_ | dsimp only | split

theorem lnkWrite_sound {a1 a2} (h : Sound q s) : Sound q (State.lnkWrite s a1 a2).1 := by
  unfold State.lnkWrite
  repeat' with_reducible first
    | assumption | apply lnkCtl_sound | apply modLnk_sound | apply stage_sound
    | refine ite_sound (fun _ => ?_) fun _ => ?_ | dsimp only | split
theorem lnkWrite_sound' {a1 a2} {t} {r} (h : Sound q s) (e : (State.lnkWrite s a1 a2) = (t, r)) : Sound q t := by
  have k := lnkWrite_sound (a1 := a1) (a2 := a2) h
  rw [e] at k; exact k

end Sys2Proof.Machine
end

