-- ==== Sys2Proof/Laws/SoundBus.lean ====
section
/-!
SUPPORT. Soundness of memory and the queue through clocks, resets, the boot, the registers and the bus: one lemma per operation.
-/

namespace Sys2Proof.Machine

variable {q : List Instr} {s : State}

theorem coreSwitch_sound (h : Sound q s) : Sound q (State.coreSwitch s) := by
  unfold State.coreSwitch
  repeat' with_reducible first
    | assumption | apply xoRest_sound | apply modSys_sound | refine ite_sound (fun _ => ?_) fun _ => ?_ | dsimp only
    | split

theorem coreStart_sound (h : Sound q s) : Sound q (State.coreStart s) := by
  unfold State.coreStart
  repeat' with_reducible first
    | assumption | apply modEng_sound | apply modSys_sound | refine ite_sound (fun _ => ?_) fun _ => ?_ | dsimp only
    | split

theorem startDmi_sound (h : Sound q s) : Sound q (State.startDmi s) := by
  unfold State.startDmi
  repeat' with_reducible first
    | assumption | apply modDrv_sound | apply modSys_sound | refine ite_sound (fun _ => ?_) fun _ => ?_ | dsimp only
    | split

theorem startRad_sound (h : Sound q s) : Sound q (State.startRad s) := by
  unfold State.startRad
  repeat' with_reducible first
    | assumption | apply modSys_sound | apply setRad_sound | refine ite_sound (fun _ => ?_) fun _ => ?_ | dsimp only
    | split

theorem startIslands_sound (h : Sound q s) : Sound q (State.startIslands s) := by
  unfold State.startIslands
  repeat' with_reducible first
    | assumption | apply startDmi_sound | apply startRad_sound | refine ite_sound (fun _ => ?_) fun _ => ?_
    | dsimp only | split

theorem dmiOff_sound (h : Sound q s) : Sound q (State.dmiOff s) := by
  unfold State.dmiOff
  repeat' with_reducible first
    | assumption | apply modDrv_sound | apply modSys_sound | refine ite_sound (fun _ => ?_) fun _ => ?_ | dsimp only
    | split

theorem radOff_sound (h : Sound q s) : Sound q (State.radOff s) := by
  unfold State.radOff
  repeat' with_reducible first
    | assumption | apply setRad_sound | apply modSys_sound | refine ite_sound (fun _ => ?_) fun _ => ?_ | dsimp only
    | split

theorem islandStop_sound {a1} (h : Sound q s) : Sound q (State.islandStop s a1) := by
  unfold State.islandStop
  repeat' with_reducible first
    | assumption | apply dmiOff_sound | apply gather_sound | apply radOff_sound | apply xoRest_sound | dsimp only
    | split

theorem xoStop_sound (h : Sound q s) : Sound q (State.xoStop s) := by
  unfold State.xoStop
  repeat' with_reducible first
    | assumption | apply modSys_sound | apply radOff_sound | apply dmiOff_sound | apply coreFall_sound
    | refine ite_sound (fun _ => ?_) fun _ => ?_ | dsimp only | split

theorem xoStable_sound (h : Sound q s) : Sound q (State.xoStable s) := by
  unfold State.xoStable
  repeat' with_reducible first
    | assumption | apply startIslands_sound | apply modSys_sound | apply coreSwitch_sound
    | refine ite_sound (fun _ => ?_) fun _ => ?_ | dsimp only | split

theorem aonApply_sound {a1 a2} (h : Sound q s) : Sound q (State.aonApply s a1 a2).1 := by
  unfold State.aonApply
  repeat' with_reducible first
    | assumption | apply nrgWrite_sound | refine nrgWrite_sound' ?_ ‹_› | apply modTmp_sound | apply cmpWrite_sound
    | refine ite_sound (fun _ => ?_) fun _ => ?_ | dsimp only | split
theorem aonApply_sound' {a1 a2} {t} {r} (h : Sound q s) (e : (State.aonApply s a1 a2) = (t, r)) : Sound q t := by
  have k := aonApply_sound (a1 := a1) (a2 := a2) h
  rw [e] at k; exact k

theorem postFails_sound {a1 a2} (h : Sound q s) : Sound q (State.postFails s a1 a2) := by
  unfold State.postFails
  repeat' with_reducible first
    | assumption | apply record_sound | apply modSys_sound | refine ite_sound (fun _ => ?_) fun _ => ?_ | dsimp only
    | split

theorem postedOne_sound {a1} (h : Sound q s) : Sound q (State.postedOne s a1) := by
  unfold State.postedOne
  repeat' with_reducible first
    | assumption | apply modSys_sound | apply aonApply_sound | refine aonApply_sound' ?_ ‹_› | apply postFails_sound
    | refine ite_sound (fun _ => ?_) fun _ => ?_ | dsimp only | split

theorem drainPosted_sound (h : Sound q s) : Sound q (State.drainPosted s) := by
  unfold State.drainPosted
  repeat' with_reducible first
    | assumption | apply postedOne_sound | refine foldl_sound ?_ fun t x ht => ?_ | dsimp only

theorem nrgReset_sound (h : Sound q s) : Sound q (State.nrgReset s) := by
  unfold State.nrgReset
  repeat' with_reducible first
    | assumption | apply modNrgx_sound | apply modNrg_sound | refine ite_sound (fun _ => ?_) fun _ => ?_ | dsimp only
    | split

theorem laResume_sound (h : Sound q s) : Sound q (State.laResume s) := by
  unfold State.laResume
  repeat' with_reducible first | assumption | apply modSys_sound | apply modDrv_sound | dsimp only | split

theorem resetAs_sound {c l} (h : Sound q s) : Sound q (s.resetAs c l) := by
  have h1 : Sound q (if l then s else s.wbDrain) := ite_sound (fun _ => h) fun _ => wbDrain_sound h
  have h2 := nrgReset_sound h1
  unfold State.resetAs
  refine boostCheck_sound (laResume_sound (selectBank_sound ?_))
  exact ⟨afterReset_sound h2.1, h2.2⟩

theorem softReset_sound (h : Sound q s) : Sound q (State.softReset s) := by
  unfold State.softReset
  repeat' with_reducible first | assumption | apply resetAs_sound | apply drainPosted_sound

theorem coldStart_sound {u} (h : Sound q s) : Sound q (s.coldStart u) := by
  unfold State.coldStart
  refine selectBank_sound ?_
  exact ⟨afterReset_sound h.1, h.2⟩

theorem resultRead_sound (h : Sound q s) : Sound q (State.resultRead s).1 := by
  unfold State.resultRead
  repeat' with_reducible first
    | assumption | apply modDrv_sound | refine ite_sound (fun _ => ?_) fun _ => ?_ | dsimp only | split
theorem resultRead_sound' {t} {r} (h : Sound q s) (e : (State.resultRead s) = (t, r)) : Sound q t := by
  have k := resultRead_sound h
  rw [e] at k; exact k

theorem drvRead_sound {a t v} (h : Sound q s) (e : s.drvRead a = some (t, v)) : Sound q t := by
  unfold State.drvRead at e
  dsimp only at e
  split at e
  · cases e; exact h
  · split at e
    · simp only [Option.map_eq_some_iff] at e
      obtain ⟨c, -, e⟩ := e
      cases e; exact h
    · split at e <;> first | exact resultRead_sound' h (Option.some.inj e) | (cases e; exact h) | cases e

theorem cmdWrite_sound {a1} (h : Sound q s) : Sound q (State.cmdWrite s a1).1 := by
  unfold State.cmdWrite
  repeat' with_reducible first
    | assumption | apply command_sound | refine command_sound' ?_ ‹_› | apply modDrv_sound
    | refine ite_sound (fun _ => ?_) fun _ => ?_ | dsimp only | split
theorem cmdWrite_sound' {a1} {t} {r} (h : Sound q s) (e : (State.cmdWrite s a1) = (t, r)) : Sound q t := by
  have k := cmdWrite_sound (a1 := a1) h
  rw [e] at k; exact k

theorem trdcfgWrite_sound {a1 a2} (h : Sound q s) : Sound q (State.trdcfgWrite s a1 a2).1 := by
  unfold State.trdcfgWrite
  repeat' with_reducible first
    | assumption | apply modDrv_sound | refine ite_sound (fun _ => ?_) fun _ => ?_ | dsimp only | split
theorem trdcfgWrite_sound' {a1 a2} {t} {r} (h : Sound q s) (e : (State.trdcfgWrite s a1 a2) = (t, r)) : Sound q t := by
  have k := trdcfgWrite_sound (a1 := a1) (a2 := a2) h
  rw [e] at k; exact k

theorem pairWrite_sound {a1} (h : Sound q s) : Sound q (State.pairWrite s a1).1 := by
  unfold State.pairWrite
  repeat' with_reducible first
    | assumption | apply modDrv_sound | refine foldl_sound ?_ fun t x ht => ?_
    | refine ite_sound (fun _ => ?_) fun _ => ?_ | dsimp only | split
theorem pairWrite_sound' {a1} {t} {r} (h : Sound q s) (e : (State.pairWrite s a1) = (t, r)) : Sound q t := by
  have k := pairWrite_sound (a1 := a1) h
  rw [e] at k; exact k

theorem diagWrite_sound {a1 a2} (h : Sound q s) : Sound q (State.diagWrite s a1 a2).1 := by
  unfold State.diagWrite
  repeat' with_reducible first
    | assumption | apply modDrv_sound | apply drvFault_sound | refine ite_sound (fun _ => ?_) fun _ => ?_ | dsimp only
    | split
theorem diagWrite_sound' {a1 a2} {t} {r} (h : Sound q s) (e : (State.diagWrite s a1 a2) = (t, r)) : Sound q t := by
  have k := diagWrite_sound (a1 := a1) (a2 := a2) h
  rw [e] at k; exact k

theorem thermWrite_sound {a1} (h : Sound q s) : Sound q (State.thermWrite s a1).1 := by
  unfold State.thermWrite
  repeat' with_reducible first
    | assumption | apply modDrv_sound | refine ite_sound (fun _ => ?_) fun _ => ?_ | dsimp only | split
theorem thermWrite_sound' {a1} {t} {r} (h : Sound q s) (e : (State.thermWrite s a1) = (t, r)) : Sound q t := by
  have k := thermWrite_sound (a1 := a1) h
  rw [e] at k; exact k

theorem profileWrite_sound {a1 a2 a3} (h : Sound q s) : Sound q (State.profileWrite s a1 a2 a3).1 := by
  unfold State.profileWrite
  repeat' with_reducible first
    | assumption | apply modDrv_sound | refine ite_sound (fun _ => ?_) fun _ => ?_ | dsimp only | split
theorem profileWrite_sound' {a1 a2 a3} {t} {r} (h : Sound q s) (e : (State.profileWrite s a1 a2 a3) = (t, r)) :
    Sound q t := by
  have k := profileWrite_sound (a1 := a1) (a2 := a2) (a3 := a3) h
  rw [e] at k; exact k

theorem valveWrite_sound {a1 a2 a3} (h : Sound q s) : Sound q (State.valveWrite s a1 a2 a3).1 := by
  unfold State.valveWrite
  repeat' with_reducible first
    | assumption | apply modDrv_sound | apply seqFinish_sound | refine ite_sound (fun _ => ?_) fun _ => ?_
    | dsimp only | split
theorem valveWrite_sound' {a1 a2 a3} {t} {r} (h : Sound q s) (e : (State.valveWrite s a1 a2 a3) = (t, r)) :
    Sound q t := by
  have k := valveWrite_sound (a1 := a1) (a2 := a2) (a3 := a3) h
  rw [e] at k; exact k

theorem drvWrite_sound {a1 a2 a3} (h : Sound q s) : Sound q (State.drvWrite s a1 a2 a3).1 := by
  unfold State.drvWrite
  repeat' with_reducible first
    | assumption | apply profileWrite_sound | refine profileWrite_sound' ?_ ‹_› | apply valveWrite_sound
    | refine valveWrite_sound' ?_ ‹_› | apply stopCold_sound | apply modDrv_sound | apply cmdWrite_sound
    | refine cmdWrite_sound' ?_ ‹_› | apply trdcfgWrite_sound | refine trdcfgWrite_sound' ?_ ‹_›
    | apply pairWrite_sound | refine pairWrite_sound' ?_ ‹_› | apply diagWrite_sound | refine diagWrite_sound' ?_ ‹_›
    | apply thermWrite_sound | refine thermWrite_sound' ?_ ‹_› | refine ite_sound (fun _ => ?_) fun _ => ?_
    | dsimp only | split
theorem drvWrite_sound' {a1 a2 a3} {t} {r} (h : Sound q s) (e : (State.drvWrite s a1 a2 a3) = (t, r)) : Sound q t := by
  have k := drvWrite_sound (a1 := a1) (a2 := a2) (a3 := a3) h
  rw [e] at k; exact k

theorem loadImage_sound (h : Sound q s) : Sound q (State.loadImage s) := by
  unfold State.loadImage
  repeat' with_reducible first | assumption | apply seqFinish_sound | apply modDrv_sound | dsimp only | split

theorem restoreKeys_sound (h : Sound q s) : Sound q (State.restoreKeys s) := by
  unfold State.restoreKeys
  repeat' with_reducible first
    | assumption | apply modSec_sound | apply event_sound | apply keyCommit_sound
    | refine ite_sound (fun _ => ?_) fun _ => ?_ | dsimp only | split

theorem readRange_sound {a1 a2} (h : Sound q s) : Sound q (State.readRange s a1 a2) := by
  unfold State.readRange
  repeat' with_reducible first
    | assumption | apply eccRead_sound | refine eccRead_sound' ?_ ‹_› | refine foldl_sound ?_ fun t x ht => ?_
    | dsimp only

theorem checkImage_sound {a1} (h : Sound q s) : Sound q (State.checkImage s a1).1 := by
  unfold State.checkImage
  repeat' with_reducible first
    | assumption | apply modSec_sound | apply readRange_sound | refine ite_sound (fun _ => ?_) fun _ => ?_
    | dsimp only | split
theorem checkImage_sound' {a1} {t} {r} (h : Sound q s) (e : (State.checkImage s a1) = (t, r)) : Sound q t := by
  have k := checkImage_sound (a1 := a1) h
  rw [e] at k; exact k

theorem chooseImage_sound (h : Sound q s) : Sound q (State.chooseImage s).1 := by
  unfold State.chooseImage
  repeat' with_reducible first
    | assumption | apply checkImage_sound | refine checkImage_sound' ?_ ‹_› | dsimp only | split
theorem chooseImage_sound' {t} {r} (h : Sound q s) (e : (State.chooseImage s) = (t, r)) : Sound q t := by
  have k := chooseImage_sound h
  rw [e] at k; exact k

theorem bootNrg_sound {a1 a2} (h : Sound q s) : Sound q (State.bootNrg s a1 a2) := by
  unfold State.bootNrg
  repeat' with_reducible first
    | assumption | apply nrgWrite_sound | refine nrgWrite_sound' ?_ ‹_› | refine ite_sound (fun _ => ?_) fun _ => ?_
    | split

theorem copyBoard_sound (h : Sound q s) : Sound q (State.copyBoard s) := by
  unfold State.copyBoard
  repeat' with_reducible first
    | assumption | apply modDrv_sound | apply bootNrg_sound | refine ite_sound (fun _ => ?_) fun _ => ?_ | dsimp only
    | split

theorem copyRegulatory_sound (h : Sound q s) : Sound q (State.copyRegulatory s) := by
  unfold State.copyRegulatory
  repeat' with_reducible first
    | assumption | apply dwellWrite_sound | refine dwellWrite_sound' ?_ ‹_› | apply radPwr_sound
    | refine radPwr_sound' ?_ ‹_› | refine ite_sound (fun _ => ?_) fun _ => ?_ | dsimp only | split

theorem bootIslands_sound {a1} (h : Sound q s) : Sound q (State.bootIslands s a1) := by
  unfold State.bootIslands
  repeat' with_reducible first
    | assumption | apply modSys_sound | apply startIslands_sound | apply startDmi_sound
    | refine ite_sound (fun _ => ?_) fun _ => ?_ | dsimp only | split

theorem startImage_sound {a1} (h : Sound q s) : Sound q (State.startImage s a1) := by
  unfold State.startImage
  repeat' with_reducible first
    | assumption | apply modSec_sound | apply modEng_sound | apply modSh_sound | apply modSys_sound
    | refine ite_sound (fun _ => ?_) fun _ => ?_ | dsimp only | split

theorem bootHandover_sound {a1 a2} (h : Sound q s) : Sound q (State.bootHandover s a1 a2) := by
  unfold State.bootHandover
  repeat' with_reducible first
    | assumption | apply modSec_sound | apply restoreKeys_sound | apply chooseImage_sound
    | refine chooseImage_sound' ?_ ‹_› | apply bootIslands_sound | apply copyBoard_sound | apply copyRegulatory_sound
    | apply modSys_sound | apply loadImage_sound | apply coldClose_sound | apply startImage_sound
    | refine ite_sound (fun _ => ?_) fun _ => ?_ | dsimp only | split

theorem startShuttle_sound {a1} (h : Sound q s) : Sound q (State.startShuttle s a1) := by
  unfold State.startShuttle
  repeat' with_reducible first
    | assumption | apply modSh_sound | apply coreStart_sound | apply begin_sound
    | refine ite_sound (fun _ => ?_) fun _ => ?_ | dsimp only | split

theorem stopShuttle_sound {a1} (h : Sound q s) : Sound q (State.stopShuttle s a1) := by
  unfold State.stopShuttle
  repeat' with_reducible first
    | assumption | apply checkStop_sound | apply modSh_sound | refine ite_sound (fun _ => ?_) fun _ => ?_ | dsimp only
    | split

theorem shctlOne_sound {a1 a2} (h : Sound q s) : Sound q (State.shctlOne s a1 a2) := by
  unfold State.shctlOne
  repeat' with_reducible first
    | assumption | apply modSh_sound | apply startShuttle_sound | apply stopShuttle_sound
    | refine ite_sound (fun _ => ?_) fun _ => ?_ | dsimp only | split

theorem shctlWrite_sound {a1} (h : Sound q s) : Sound q (State.shctlWrite s a1) := by
  unfold State.shctlWrite
  repeat' with_reducible first
    | assumption | apply modEng_sound | apply shctlOne_sound | refine foldl_sound ?_ fun t x ht => ?_ | dsimp only

theorem engWrite_sound {a1 a2} (h : Sound q s) : Sound q (State.engWrite s a1 a2).1 := by
  unfold State.engWrite
  repeat' with_reducible first
    | assumption | apply modSh_sound | apply modEng_sound | apply shctlWrite_sound
    | refine ite_sound (fun _ => ?_) fun _ => ?_ | dsimp only | split
theorem engWrite_sound' {a1 a2} {t} {r} (h : Sound q s) (e : (State.engWrite s a1 a2) = (t, r)) : Sound q t := by
  have k := engWrite_sound (a1 := a1) (a2 := a2) h
  rw [e] at k; exact k

theorem wdogConfig_sound {a1} (h : Sound q s) : Sound q (State.wdogConfig s a1).1 := by
  unfold State.wdogConfig
  repeat' with_reducible first
    | assumption | apply modSys_sound | refine ite_sound (fun _ => ?_) fun _ => ?_ | dsimp only | split
theorem wdogConfig_sound' {a1} {t} {r} (h : Sound q s) (e : (State.wdogConfig s a1) = (t, r)) : Sound q t := by
  have k := wdogConfig_sound (a1 := a1) h
  rw [e] at k; exact k

theorem wdogKick_sound {a1} (h : Sound q s) : Sound q (State.wdogKick s a1) := by
  unfold State.wdogKick
  repeat' with_reducible first
    | assumption | apply modSys_sound | refine ite_sound (fun _ => ?_) fun _ => ?_ | dsimp only | split

theorem wdogWrite_sound {a1 a2} (h : Sound q s) : Sound q (State.wdogWrite s a1 a2).1 := by
  unfold State.wdogWrite
  repeat' with_reducible first
    | assumption | apply wdogKick_sound | apply wdogConfig_sound | refine wdogConfig_sound' ?_ ‹_›
    | refine ite_sound (fun _ => ?_) fun _ => ?_ | split
theorem wdogWrite_sound' {a1 a2} {t} {r} (h : Sound q s) (e : (State.wdogWrite s a1 a2) = (t, r)) : Sound q t := by
  have k := wdogWrite_sound (a1 := a1) (a2 := a2) h
  rw [e] at k; exact k

theorem coreclkWrite_sound {a1} (h : Sound q s) : Sound q (State.coreclkWrite s a1).1 := by
  unfold State.coreclkWrite
  repeat' with_reducible first
    | assumption | apply modSys_sound | refine ite_sound (fun _ => ?_) fun _ => ?_ | dsimp only | split
theorem coreclkWrite_sound' {a1} {t} {r} (h : Sound q s) (e : (State.coreclkWrite s a1) = (t, r)) : Sound q t := by
  have k := coreclkWrite_sound (a1 := a1) h
  rw [e] at k; exact k

theorem islandsWrite_sound {a1} (h : Sound q s) : Sound q (State.islandsWrite s a1).1 := by
  unfold State.islandsWrite
  repeat' with_reducible first
    | assumption | apply startIslands_sound | apply modSys_sound | refine ite_sound (fun _ => ?_) fun _ => ?_
    | dsimp only | split
theorem islandsWrite_sound' {a1} {t} {r} (h : Sound q s) (e : (State.islandsWrite s a1) = (t, r)) : Sound q t := by
  have k := islandsWrite_sound (a1 := a1) h
  rw [e] at k; exact k

theorem sysWrite_sound {a1 a2 a3} (h : Sound q s) : Sound q (State.sysWrite s a1 a2 a3).1 := by
  unfold State.sysWrite
  repeat' with_reducible first
    | assumption | apply lifeWrite_sound | refine lifeWrite_sound' ?_ ‹_› | apply modSys_sound
    | apply coreclkWrite_sound | refine coreclkWrite_sound' ?_ ‹_› | apply islandsWrite_sound
    | refine islandsWrite_sound' ?_ ‹_› | apply wdogWrite_sound | refine wdogWrite_sound' ?_ ‹_›
    | refine ite_sound (fun _ => ?_) fun _ => ?_ | dsimp only | split
theorem sysWrite_sound' {a1 a2 a3} {t} {r} (h : Sound q s) (e : (State.sysWrite s a1 a2 a3) = (t, r)) : Sound q t := by
  have k := sysWrite_sound (a1 := a1) (a2 := a2) (a3 := a3) h
  rw [e] at k; exact k

theorem memCtl_sound {v} (h : Sound q s) : Sound q (s.memCtl v).1 := by
  unfold State.memCtl
  split
  · exact h
  · refine ⟨⟨h.1.cells, ?_, ?_⟩, h.2⟩
    · simpa [State.setMem] using h.1.room
    · simpa [State.setMem, Function.comp_def] using h.1.once
theorem memCtl_sound' {v} {t} {r} (h : Sound q s) (e : s.memCtl v = (t, r)) : Sound q t := by
  have k := memCtl_sound (v := v) h
  rw [e] at k; exact k

theorem memWrite_sound {a1 a2} (h : Sound q s) : Sound q (State.memWrite s a1 a2).1 := by
  unfold State.memWrite
  repeat' with_reducible first
    | assumption | apply memCtl_sound | refine memCtl_sound' ?_ ‹_› | apply pcommit_sound
    | refine setMem_sound ?_ rfl rfl | refine ite_sound (fun _ => ?_) fun _ => ?_ | dsimp only | split
theorem memWrite_sound' {a1 a2} {t} {r} (h : Sound q s) (e : (State.memWrite s a1 a2) = (t, r)) : Sound q t := by
  have k := memWrite_sound (a1 := a1) (a2 := a2) h
  rw [e] at k; exact k

theorem takeFailed_sound {a1} (h : Sound q s) : Sound q (State.takeFailed s a1).1 := by
  unfold State.takeFailed
  repeat' with_reducible first | assumption | apply modSys_sound | dsimp only | split
theorem takeFailed_sound' {a1} {t} {r} (h : Sound q s) (e : (State.takeFailed s a1) = (t, r)) : Sound q t := by
  have k := takeFailed_sound (a1 := a1) h
  rw [e] at k; exact k

theorem opt1_sound {a : Nat} {r : Option (State × Word)} (h : Sound q s) (hr : ∀ t v, r = some (t, v) → Sound q t) :
    Sound q (opt1 a r s).1 := by
  unfold opt1
  split
  · exact hr _ _ rfl
  · exact h

/-- A value that the read does not change the state for. -/
theorem opt1_pure_sound {a : Nat} {v : Option Word} (h : Sound q s) :
    Sound q (opt1 a (v.map fun w => (s, w)) s).1 := by
  refine opt1_sound h fun t w e => ?_
  simp only [Option.map_eq_some_iff] at e
  obtain ⟨x, -, e⟩ := e
  cases e; exact h

theorem regRead_sound {i a} (h : Sound q s) : Sound q (s.regRead i a).1 := by
  unfold State.regRead
  dsimp only
  split <;> try exact opt1_pure_sound h
  · exact h
  · exact opt1_sound h fun _ _ e => tmpRead_sound h e
  · split
    · exact h
    · exact opt1_sound h fun _ _ e => drvRead_sound h e
  · exact opt1_sound h fun _ _ e => cmpRead_sound h e
  · exact opt1_sound h fun _ _ e => radRead_sound h e
  · exact opt1_sound h fun _ _ e => macRead_sound h e
  · exact secRead_sound h
  · split
    · exact h
    · exact opt1_sound h fun _ _ e => lnkRead_sound h e
theorem regRead_sound' {i a} {t} {r} (h : Sound q s) (e : s.regRead i a = (t, r)) : Sound q t := by
  have k := regRead_sound (i := i) (a := a) h
  rw [e] at k; exact k

theorem regWrite_sound {i a v} (h : Sound q s) : Sound q (s.regWrite i a v).1 := by
  unfold State.regWrite
  dsimp only
  split
  · exact sysWrite_sound h
  · exact engWrite_sound h
  · exact memWrite_sound h
  · exact drvWrite_sound h
  · exact flwWrite_sound h
  · exact prsWrite_sound h
  · exact radWrite_sound h
  · exact macWrite_sound h
  · exact secWrite_sound h
  · exact prfWrite_sound h
  · exact lnkWrite_sound h
  · exact h
theorem regWrite_sound' {i a v} {t} {r} (h : Sound q s) (e : s.regWrite i a v = (t, r)) : Sound q t := by
  have k := regWrite_sound (i := i) (a := a) (v := v) h
  rw [e] at k; exact k

theorem aonPost_sound {a1 a2 a3} (h : Sound q s) : Sound q (State.aonPost s a1 a2 a3).1 := by
  unfold State.aonPost
  repeat' with_reducible first
    | assumption | apply takeFailed_sound | refine takeFailed_sound' ?_ ‹_› | apply modSys_sound
    | refine ite_sound (fun _ => ?_) fun _ => ?_ | dsimp only | split
theorem aonPost_sound' {a1 a2 a3} {t} {r} (h : Sound q s) (e : (State.aonPost s a1 a2 a3) = (t, r)) : Sound q t := by
  have k := aonPost_sound (a1 := a1) (a2 := a2) (a3 := a3) h
  rw [e] at k; exact k

theorem aonRead_sound {a1 a2} (h : Sound q s) : Sound q (State.aonRead s a1 a2).1 := by
  unfold State.aonRead
  repeat' with_reducible first
    | assumption | apply drainPosted_sound | apply takeFailed_sound | refine takeFailed_sound' ?_ ‹_›
    | apply regRead_sound | refine regRead_sound' ?_ ‹_› | refine ite_sound (fun _ => ?_) fun _ => ?_ | dsimp only
    | split
theorem aonRead_sound' {a1 a2} {t} {r} (h : Sound q s) (e : (State.aonRead s a1 a2) = (t, r)) : Sound q t := by
  have k := aonRead_sound (a1 := a1) (a2 := a2) h
  rw [e] at k; exact k

theorem afterWrite_sound (h : Sound q s) : Sound q (State.afterWrite s) := by
  unfold State.afterWrite
  repeat' with_reducible first | assumption | apply startIslands_sound

theorem regAccess_sound {i a n} (h : Sound q s) : Sound q (s.regAccess i a n).1 := by
  unfold State.regAccess
  generalize s.regGate a n = g
  split
  · exact h
  · generalize isAon (blockOf a) = b
    cases b
    · exact regRead_sound h
    · exact aonRead_sound h
theorem regAccess_sound' {i a n} {t} {r} (h : Sound q s) (e : s.regAccess i a n = (t, r)) : Sound q t := by
  have k := regAccess_sound (i := i) (a := a) (n := n) h
  rw [e] at k; exact k

theorem memLoad_sound {a1 a2} (h : Sound q s) : Sound q (State.memLoad s a1 a2).1 := by
  unfold State.memLoad
  repeat' with_reducible first
    | assumption | apply loadBytes_sound | refine loadBytes_sound' ?_ ‹_› | dsimp only | split
theorem memLoad_sound' {a1 a2} {t} {r} (h : Sound q s) (e : (State.memLoad s a1 a2) = (t, r)) : Sound q t := by
  have k := memLoad_sound (a1 := a1) (a2 := a2) h
  rw [e] at k; exact k

theorem busRead_sound {i a n} (h : Sound q s) : Sound q (s.busRead i a n).1 := by
  have hc := regAccess_sound (i := i) (a := chainLocal a) (n := n) h
  have hr := regAccess_sound (i := i) (a := a) (n := n) h
  have hm := memLoad_sound (a1 := a) (a2 := n) h
  unfold State.busRead
  dsimp only
  generalize s.memLoad a n = m at *
  generalize s.regAccess i (chainLocal a) n = c at *
  generalize s.regAccess i a n = r at *
  generalize s.chainGate a n = g
  repeat' split
  all_goals first | exact h | exact hm | exact hr | exact hc
theorem busRead_sound' {i a n} {t} {r} (h : Sound q s) (e : s.busRead i a n = (t, r)) : Sound q t := by
  have k := busRead_sound (i := i) (a := a) (n := n) h
  rw [e] at k; exact k

theorem regStore_sound {i a n v} (h : Sound q s) : Sound q (s.regStore i a n v).1 := by
  have hw := afterWrite_sound (regWrite_sound (i := i) (a := a) (v := v) h)
  have hp := aonPost_sound (a1 := i) (a2 := a) (a3 := v) h
  unfold State.regStore
  generalize s.regGate a n = g
  split
  · exact h
  · dsimp only
    generalize isAon (blockOf a) = b
    cases b
    · exact hw
    · exact hp
theorem regStore_sound' {i a n v} {t} {r} (h : Sound q s) (e : s.regStore i a n v = (t, r)) : Sound q t := by
  have k := regStore_sound (i := i) (a := a) (n := n) (v := v) h
  rw [e] at k; exact k

theorem mramStore_sound {i a n v} (h : Sound q s) : Sound q (s.mramStore i a n v) := by
  have k : Sound q (if s.firstStalled.isSome then s.wbDrain else s) := ite_sound (fun _ => wbDrain_sound h) fun _ => h
  unfold State.mramStore
  dsimp only
  generalize (if s.firstStalled.isSome then s.wbDrain else s) = u at *
  refine storeBytes_sound (ite_sound (fun _ => k) fun _ => wbWriteOne_sound k) fun _ => ?_
  split
  · assumption
  · exact wbRoom_after u _ k.1.room

theorem busWrite_sound {i a n v} (h : Sound q s) : Sound q (s.busWrite i a n v).1 := by
  have hc := fun j => regStore_sound (i := j) (a := chainLocal a) (n := n) (v := v.setWidth 32) h
  have hr := regStore_sound (i := i) (a := a) (n := n) (v := v.setWidth 32) h
  have hm := mramStore_sound (i := i) (a := a) (n := n) (v := v) h
  have hs : inSram a = true → Sound q (s.storeBytes a n v (ownerMask i) s.injFree) := fun ha => by
    refine dmaStore_sound h ?_
    simp only [inSram, Bool.and_eq_true, decide_eq_true_eq] at ha
    omega
  unfold State.busWrite
  dsimp only
  generalize s.mramStore i a n v = m at *
  generalize s.storeBytes a n v (ownerMask i) s.injFree = b at *
  generalize s.chainGate a n = g
  generalize s.mramGate a = k
  repeat' split
  all_goals first | exact h | exact hm | exact hr | exact hc _ | exact hs ‹_›
theorem busWrite_sound' {i a n v} {t} {r} (h : Sound q s) (e : s.busWrite i a n v = (t, r)) : Sound q t := by
  have k := busWrite_sound (i := i) (a := a) (n := n) (v := v) h
  rw [e] at k; exact k

theorem afterStore_sound {a1 a2} (h : Sound q s) : Sound q (State.afterStore s a1 a2) := by
  unfold State.afterStore
  repeat' with_reducible first | assumption | apply softReset_sound | refine ite_sound (fun _ => ?_) fun _ => ?_ | split

theorem respond_sound {a1 a2 a3} (h : Sound q s) : Sound q (State.respond s a1 a2 a3) := by
  unfold State.respond
  repeat' with_reducible first | assumption | apply record_sound | refine ite_sound (fun _ => ?_) fun _ => ?_ | split

end Sys2Proof.Machine
end

