-- ==== Sys2Proof/Laws/SoundEngine.lean ====
section
/-!
SUPPORT. Soundness of memory and the queue through accesses, remote accesses and the engine: one lemma per operation.
-/

namespace Sys2Proof.Machine

variable {q : List Instr} {s : State}

theorem setPair_sound {a1 a2 a3} (h : Sound q s) : Sound q (State.setPair s a1 a2 a3) := by
  unfold State.setPair
  repeat' with_reducible first | assumption | apply setReg_sound

theorem setBusy_sound {a1 a2} (h : Sound q s) : Sound q (State.setBusy s a1 a2) := by
  unfold State.setBusy
  repeat' with_reducible first | assumption | apply modSh_sound | apply count_sound | apply entered_sound | dsimp only

theorem landReg_sound {a1 a2 a3} (h : Sound q s) : Sound q (State.landReg s a1 a2 a3) := by
  unfold State.landReg
  repeat' with_reducible first | assumption | apply land_sound | apply setReg_sound

theorem landBad_sound {a1 a2} (h : Sound q s) : Sound q (State.landBad s a1 a2) := by
  unfold State.landBad
  repeat' with_reducible first | assumption | apply raise_sound

theorem remoteSend_sound {a1} (h : Sound q s) : Sound q (State.remoteSend s a1) := by
  unfold State.remoteSend
  repeat' with_reducible first
    | assumption | apply linkSend_sound | refine ite_sound (fun _ => ?_) fun _ => ?_ | dsimp only | split

theorem remoteIssue_sound {a1} (h : Sound q s) : Sound q (State.remoteIssue s a1) := by
  unfold State.remoteIssue
  repeat' with_reducible first
    | assumption | apply modLnk_sound | apply remoteSend_sound | refine ite_sound (fun _ => ?_) fun _ => ?_
    | dsimp only | split

theorem remoteDeliver_sound {a1 a2 a3} (h : Sound q s) : Sound q (State.remoteDeliver s a1 a2 a3) := by
  unfold State.remoteDeliver
  repeat' with_reducible first
    | assumption | apply record_sound | apply landBad_sound | apply landReg_sound | apply land_sound
    | apply modSys_sound | refine ite_sound (fun _ => ?_) fun _ => ?_ | dsimp only | split

theorem remoteDone_sound {a1 a2} (h : Sound q s) : Sound q (State.remoteDone s a1 a2) := by
  unfold State.remoteDone
  repeat' with_reducible first
    | assumption | apply remoteDeliver_sound | apply modLnk_sound | apply remoteSend_sound | dsimp only | split

theorem memberRead_sound {a1 a2} (h : Sound q s) : Sound q (State.memberRead s a1 a2) := by
  unfold State.memberRead
  repeat' with_reducible first
    | assumption | apply linkSend_sound | apply busRead_sound | refine busRead_sound' ?_ ‹_› | apply newCycle_sound
    | apply respond_sound | refine ite_sound (fun _ => ?_) fun _ => ?_ | dsimp only | split

theorem memberWrite_sound {a1 a2 a3} (h : Sound q s) : Sound q (State.memberWrite s a1 a2 a3) := by
  unfold State.memberWrite
  repeat' with_reducible first
    | assumption | apply linkSend_sound | apply busWrite_sound | refine busWrite_sound' ?_ ‹_› | apply newCycle_sound
    | apply respond_sound | apply afterStore_sound | refine ite_sound (fun _ => ?_) fun _ => ?_ | dsimp only | split

theorem rdataFrame_sound {a1 a2 a3} (h : Sound q s) : Sound q (State.rdataFrame s a1 a2 a3) := by
  unfold State.rdataFrame
  repeat' with_reducible first
    | assumption | apply remoteDone_sound | apply linkSend_sound | refine ite_sound (fun _ => ?_) fun _ => ?_ | split

theorem wackFrame_sound {a1 a2} (h : Sound q s) : Sound q (State.wackFrame s a1 a2) := by
  unfold State.wackFrame
  repeat' with_reducible first
    | assumption | apply remoteDone_sound | apply linkSend_sound | refine ite_sound (fun _ => ?_) fun _ => ?_ | split

theorem remoteTimeout_sound (h : Sound q s) : Sound q (State.remoteTimeout s) := by
  unfold State.remoteTimeout
  repeat' with_reducible first
    | assumption | apply chainEvent_sound | apply modLnk_sound | apply remoteDone_sound | dsimp only

theorem debugFail_sound {a1} (h : Sound q s) : Sound q (State.debugFail s a1) := by
  unfold State.debugFail
  repeat' with_reducible first
    | assumption | apply modSys_sound | refine ite_sound (fun _ => ?_) fun _ => ?_ | dsimp only | split
    | apply Sound.memory | apply Sound.queue | refine mk_sound ?_ ?_

theorem debugRead_sound {a1 a2} (h : Sound q s) : Sound q (State.debugRead s a1 a2) := by
  unfold State.debugRead
  repeat' with_reducible first
    | assumption | apply debugFail_sound | apply respond_sound | apply remoteIssue_sound | apply busRead_sound
    | refine busRead_sound' ?_ ‹_› | apply newCycle_sound | apply modSys_sound
    | refine ite_sound (fun _ => ?_) fun _ => ?_ | dsimp only | split

theorem debugWrite_sound {a1 a2 a3} (h : Sound q s) : Sound q (State.debugWrite s a1 a2 a3) := by
  unfold State.debugWrite
  repeat' with_reducible first
    | assumption | apply modSys_sound | apply respond_sound | apply remoteIssue_sound | apply busWrite_sound
    | refine busWrite_sound' ?_ ‹_› | apply newCycle_sound | apply afterStore_sound
    | refine ite_sound (fun _ => ?_) fun _ => ?_ | dsimp only | split

theorem chainWrite_sound {a1 a2} (h : Sound q s) : Sound q (State.chainWrite s a1 a2) := by
  unfold State.chainWrite
  repeat' with_reducible first
    | assumption | apply busWrite_sound | refine busWrite_sound' ?_ ‹_› | apply newCycle_sound | apply respond_sound
    | apply afterStore_sound | refine ite_sound (fun _ => ?_) fun _ => ?_ | dsimp only | split

theorem chainRead_sound {a1} (h : Sound q s) : Sound q (State.chainRead s a1) := by
  unfold State.chainRead
  repeat' with_reducible first
    | assumption | apply busRead_sound | refine busRead_sound' ?_ ‹_› | apply newCycle_sound | apply respond_sound
    | refine ite_sound (fun _ => ?_) fun _ => ?_ | dsimp only | split

theorem busError_sound {a1 a2 a3 a4 a5} (h : Sound q s) : Sound q (State.busError s a1 a2 a3 a4 a5) := by
  unfold State.busError
  repeat' with_reducible first | assumption | apply raise_sound | apply record_sound

theorem fetchRead_sound {a1} (h : Sound q s) : Sound q (State.fetchRead s a1).1 := by
  unfold State.fetchRead
  repeat' with_reducible first
    | assumption | apply eccRead_sound | refine eccRead_sound' ?_ ‹_› | apply eccCount_sound | apply eccUncor_sound
    | refine ite_sound (fun _ => ?_) fun _ => ?_ | dsimp only | split
theorem fetchRead_sound' {a1} {t} {r} (h : Sound q s) (e : (State.fetchRead s a1) = (t, r)) : Sound q t := by
  have k := fetchRead_sound (a1 := a1) h
  rw [e] at k; exact k

theorem fetch_sound {a1} (h : Sound q s) : Sound q (State.fetch s a1).1 := by
  unfold State.fetch
  repeat' with_reducible first
    | assumption | apply raise_sound | apply busError_sound | apply fetchRead_sound | refine fetchRead_sound' ?_ ‹_›
    | apply count_sound | apply modSh_sound | refine ite_sound (fun _ => ?_) fun _ => ?_ | dsimp only | split
theorem fetch_sound' {a1} {t} {r} (h : Sound q s) (e : (State.fetch s a1) = (t, r)) : Sound q t := by
  have k := fetch_sound (a1 := a1) h
  rw [e] at k; exact k

theorem preSlot_sound {a1} (h : Sound q s) : Sound q (State.preSlot s a1) := by
  unfold State.preSlot
  repeat' with_reducible first | assumption | apply idleTick_sound | dsimp only | split

theorem issue_sound {i t} (h : Sound q s) (e : s.issue i = some t) : Sound q t := by
  unfold State.issue at e
  generalize s.nextSlot i = o at e
  split at e
  · cases o with
    | none => cases e
    | some c =>
      have k := count_sound (e := 1) (i := some i) (m := .occ) (k := 1) (coreTick_sound (k := 1) (idleTick_sound (k := c - s.eng.cyc) h))
      simp only at e
      split at e
      · rw [← Option.some.inj e]; exact k
      · rw [← Option.some.inj e]
        exact count_sound (count_sound k)
  · cases e

theorem instrWith_sound {i pre} {f : State → State} (hf : ∀ t, Sound q t → Sound q (f t)) (h : Sound q s) :
    Sound q (s.instrWith i pre f) := by
  have hp : Sound q (s.preSlot i) := preSlot_sound h
  unfold State.instrWith
  split
  · exact h
  · rename_i u hu
    have k := issue_sound h hu
    dsimp only
    split
    · exact fetch_sound' k ‹_›
    · have k' := fetch_sound' k ‹_›
      split
      · exact raise_sound k'
      · split
        · exact raise_sound k'
        · split
          · exact interrupt_sound hp
          · exact hf _ k'

theorem instr_sound {i} {f : State → State} (hf : ∀ t, Sound q t → Sound q (f t)) (h : Sound q s) : Sound q
    (s.instr i f) :=
  instrWith_sound hf h

theorem privFault_sound {a1 a2} (h : Sound q s) : Sound q (State.privFault s a1 a2) := by
  unfold State.privFault
  repeat' with_reducible first | assumption | apply raise_sound

theorem result_sound {a1 a2 a3 a4} (h : Sound q s) : Sound q (State.result s a1 a2 a3 a4) := by
  unfold State.result
  repeat' with_reducible first | assumption | apply advance_sound | apply setReg_sound

theorem op2_sound {a1 a2 a3 a4 a5 a6} (h : Sound q s) : Sound q (State.op2 s a1 a2 a3 a4 a5 a6) := by
  unfold State.op2
  repeat' with_reducible first | assumption | refine instr_sound (fun t ht => ?_) ?_ | apply result_sound | dsimp only

theorem op1_sound {a1 a2 a3 a4} (h : Sound q s) : Sound q (State.op1 s a1 a2 a3 a4) := by
  unfold State.op1
  repeat' with_reducible first | assumption | refine instr_sound (fun t ht => ?_) ?_ | apply result_sound | dsimp only

theorem macc_sound {a1 a2 a3} (h : Sound q s) : Sound q (State.macc s a1 a2 a3) := by
  unfold State.macc
  repeat' with_reducible first | assumption | apply modSh_sound | apply result_sound | dsimp only

theorem crossed_sound {a1 a2} (h : Sound q s) : Sound q (State.crossed s a1 a2) := by
  unfold State.crossed
  repeat' with_reducible first
    | assumption | apply advance_sound | apply count_sound | refine foldl_sound ?_ fun t x ht => ?_ | dsimp only
    | apply Sound.memory | apply Sound.queue | refine mk_sound ?_ ?_

theorem accessEnd_sound {a1 a2} (h : Sound q s) : Sound q (State.accessEnd s a1 a2) := by
  unfold State.accessEnd
  repeat' with_reducible first | assumption | apply crossed_sound | apply advance_sound | dsimp only | split

theorem accessBad_sound {a1 a2 a3 a4} (h : Sound q s) : Sound q (State.accessBad s a1 a2 a3 a4) := by
  unfold State.accessBad
  repeat' with_reducible first | assumption | apply raise_sound | apply respond_sound

theorem load_sound {a1 a2 a3 a4} {a5 : DWord → State → State} (ha5 : ∀ v t, Sound q t → Sound q (a5 v t))(h :
    Sound q s) : Sound q (State.load s a1 a2 a3 a4 a5) := by
  unfold State.load
  repeat' with_reducible first
    | assumption | apply ha5 | apply raise_sound | apply remoteIssue_sound | apply setBusy_sound | apply busRead_sound
    | refine busRead_sound' ?_ ‹_› | apply accessBad_sound | apply count_sound | apply accessEnd_sound
    | refine ite_sound (fun _ => ?_) fun _ => ?_ | dsimp only | split

theorem loadTo_sound {a1 a2 a3 a4 a5} (h : Sound q s) : Sound q (State.loadTo s a1 a2 a3 a4 a5) := by
  unfold State.loadTo
  repeat' with_reducible first | assumption | refine load_sound (fun v t ht => ?_) ?_ | apply setReg_sound | dsimp only

theorem storeEnd_sound {a1 a2 a3} (h : Sound q s) : Sound q (State.storeEnd s a1 a2 a3) := by
  unfold State.storeEnd
  repeat' with_reducible first | assumption | apply setBusy_sound | apply accessEnd_sound | dsimp only | split

theorem store_sound {a1 a2 a3 a4} (h : Sound q s) : Sound q (State.store s a1 a2 a3 a4) := by
  unfold State.store
  repeat' with_reducible first
    | assumption | apply raise_sound | apply remoteIssue_sound | apply setBusy_sound | apply busWrite_sound
    | refine busWrite_sound' ?_ ‹_› | apply accessBad_sound | apply afterStore_sound | apply storeEnd_sound
    | refine ite_sound (fun _ => ?_) fun _ => ?_ | dsimp only | split

theorem storeReg_sound {a1 a2 a3} (h : Sound q s) : Sound q (State.storeReg s a1 a2 a3) := by
  unfold State.storeReg
  repeat' with_reducible first | assumption | refine instr_sound (fun t ht => ?_) ?_ | apply store_sound | dsimp only

theorem writeBy_sound {a1 a2 a3} (h : Sound q s) : Sound q (State.writeBy s a1 a2 a3) := by
  unfold State.writeBy
  repeat' with_reducible first
    | assumption | apply storeReg_sound | apply debugWrite_sound | apply chainWrite_sound | dsimp only | split

theorem readBy_sound {a1 a2 a3} (h : Sound q s) : Sound q (State.readBy s a1 a2 a3) := by
  unfold State.readBy
  repeat' with_reducible first
    | assumption | refine instr_sound (fun t ht => ?_) ?_ | apply loadTo_sound | apply debugRead_sound
    | apply chainRead_sound | dsimp only | split

theorem goto_sound {a1 a2} (h : Sound q s) : Sound q (State.goto s a1 a2) := by
  unfold State.goto
  repeat' with_reducible first | assumption | apply jump_sound | apply count_sound

theorem branch_sound {a1 a2 a3 a4 a5} (h : Sound q s) : Sound q (State.branch s a1 a2 a3 a4 a5) := by
  unfold State.branch
  repeat' with_reducible first
    | assumption | refine instr_sound (fun t ht => ?_) ?_ | apply goto_sound | apply advance_sound
    | refine ite_sound (fun _ => ?_) fun _ => ?_ | dsimp only | split

theorem waitEnd_sound {a1 a2 a3} (h : Sound q s) : Sound q (State.waitEnd s a1 a2 a3) := by
  unfold State.waitEnd
  repeat' with_reducible first | assumption | apply setReg_sound | apply modSh_sound | dsimp only

theorem waitFor_sound {a1 a2 a3} (h : Sound q s) : Sound q (State.waitFor s a1 a2 a3) := by
  unfold State.waitFor
  repeat' with_reducible first
    | assumption | apply advance_sound | apply waitEnd_sound | apply checkStop_sound | apply count_sound
    | apply modSh_sound | refine ite_sound (fun _ => ?_) fun _ => ?_ | dsimp only | split

theorem postTo_sound {a1} (h : Sound q s) : Sound q (State.postTo s a1) := by
  unfold State.postTo
  repeat' with_reducible first
    | assumption | apply modEng_sound | apply modSh_sound | refine foldl_sound ?_ fun t x ht => ?_
    | refine ite_sound (fun _ => ?_) fun _ => ?_ | dsimp only | split

theorem fenceTry_sound {a1} (h : Sound q s) : Sound q (State.fenceTry s a1) := by
  unfold State.fenceTry
  repeat' with_reducible first
    | assumption | apply takeFailed_sound | refine takeFailed_sound' ?_ ‹_› | apply raise_sound | apply advance_sound
    | apply setBusy_sound | refine ite_sound (fun _ => ?_) fun _ => ?_ | dsimp only | split

theorem fenceEnd_sound {a1} (h : Sound q s) : Sound q (State.fenceEnd s a1) := by
  unfold State.fenceEnd
  repeat' with_reducible first
    | assumption | apply takeFailed_sound | refine takeFailed_sound' ?_ ‹_› | apply raise_sound | apply land_sound
    | dsimp only | split

theorem haltShuttle_sound {a1} (h : Sound q s) : Sound q (State.haltShuttle s a1) := by
  unfold State.haltShuttle
  repeat' with_reducible first
    | assumption | apply modSys_sound | apply checkStop_sound | apply modSh_sound | dsimp only

theorem drvAnswer_sound {a1 a2 a3} (h : Sound q s) : Sound q (State.drvAnswer s a1 a2 a3).1 := by
  unfold State.drvAnswer
  repeat' with_reducible first
    | assumption | apply command_sound | refine command_sound' ?_ ‹_› | apply setReg_sound | apply busError_sound
    | dsimp only | split
theorem drvAnswer_sound' {a1 a2 a3} {t} {r} (h : Sound q s) (e : (State.drvAnswer s a1 a2 a3) = (t, r)) :
    Sound q t := by
  have k := drvAnswer_sound (a1 := a1) (a2 := a2) (a3 := a3) h
  rw [e] at k; exact k

theorem drvLand_sound {a1} (h : Sound q s) : Sound q (State.drvLand s a1) := by
  unfold State.drvLand
  repeat' with_reducible first
    | assumption | apply drvAnswer_sound | refine drvAnswer_sound' ?_ ‹_› | apply land_sound | dsimp only | split

theorem drvExec_sound {a1 a2 a3} (h : Sound q s) : Sound q (State.drvExec s a1 a2 a3) := by
  unfold State.drvExec
  repeat' with_reducible first
    | assumption | apply drvAnswer_sound | refine drvAnswer_sound' ?_ ‹_› | apply crossed_sound
    | apply startIslands_sound | apply setBusy_sound | apply drvLand_sound
    | refine ite_sound (fun _ => ?_) fun _ => ?_ | dsimp only | split

theorem drvLandAll_sound (h : Sound q s) : Sound q (State.drvLandAll s) := by
  unfold State.drvLandAll
  repeat' with_reducible first
    | assumption | apply drvLand_sound | refine foldl_sound ?_ fun t x ht => ?_
    | refine ite_sound (fun _ => ?_) fun _ => ?_ | dsimp only | split

theorem swapIdle_sound (h : Sound q s) : Sound q (State.swapIdle s) := by
  unfold State.swapIdle
  repeat' with_reducible first
    | assumption | apply macSwap_sound | apply flowSwap_sound | apply prsSwap_sound
    | refine foldl_sound ?_ fun t x ht => ?_ | refine ite_sound (fun _ => ?_) fun _ => ?_ | dsimp only | split

theorem commitDo_sound {a1 a2} (h : Sound q s) : Sound q (State.commitDo s a1 a2).1 := by
  unfold State.commitDo
  repeat' with_reducible first
    | assumption | apply swapIdle_sound | refine ite_sound (fun _ => ?_) fun _ => ?_ | dsimp only | split
    | apply Sound.memory | apply Sound.queue | refine mk_sound ?_ ?_
theorem commitDo_sound' {a1 a2} {t} {r} (h : Sound q s) (e : (State.commitDo s a1 a2) = (t, r)) : Sound q t := by
  have k := commitDo_sound (a1 := a1) (a2 := a2) h
  rw [e] at k; exact k

theorem commitExec_sound {i rd m c} (h : Sound q s) : Sound q (s.commitExec i rd m c) := by
  unfold State.commitExec
  have ht : ∀ {t r}, (if m.getLsbD 7 then s.drainPosted.takeFailed (.shuttle i) else (s, none)) = (t, r) → Sound q t := by
    intro t r e
    split at e
    · exact takeFailed_sound' (drainPosted_sound h) e
    · cases e; exact h
  split
  · exact busError_sound h
  · split
    · exact raise_sound (ht ‹_›)
    · have k := fun v => setReg_sound (i := i) (r := rd) (v := v) (commitDo_sound (a1 := m) (a2 := c) (ht ‹_›))
      dsimp only
      split
      · exact advance_sound (k _)
      · exact crossed_sound (k _)

theorem stampExec_sound {a1 a2 a3} (h : Sound q s) : Sound q (State.stampExec s a1 a2 a3) := by
  unfold State.stampExec
  repeat' with_reducible first
    | assumption | apply takeFailed_sound | refine takeFailed_sound' ?_ ‹_› | apply raise_sound | apply crossed_sound
    | apply setPair_sound | refine ite_sound (fun _ => ?_) fun _ => ?_ | dsimp only | split

end Sys2Proof.Machine
end

