-- ==== Sys2Proof/Laws/SoundCore.lean ====
section
/-!
SUPPORT. Soundness of memory and the queue through the meanings of the engine, its events, the resets and memory: one lemma per operation.
-/

namespace Sys2Proof.Machine

variable {q : List Instr} {s : State}

theorem execAdd_sound {a0 a1 a2 a3} {t} (h : Sound q s) (e : (execAdd a0 a1 a2 a3 s) = .next t) : Sound q t := by
  revert e
  unfold execAdd
  repeat' with_reducible first | (intro e; cases e) | assumption | apply op2_sound | dsimp only

theorem execSub_sound {a0 a1 a2 a3} {t} (h : Sound q s) (e : (execSub a0 a1 a2 a3 s) = .next t) : Sound q t := by
  revert e
  unfold execSub
  repeat' with_reducible first | (intro e; cases e) | assumption | apply op2_sound | dsimp only

theorem execAnd_sound {a0 a1 a2 a3} {t} (h : Sound q s) (e : (execAnd a0 a1 a2 a3 s) = .next t) : Sound q t := by
  revert e
  unfold execAnd
  repeat' with_reducible first | (intro e; cases e) | assumption | apply op2_sound | dsimp only

theorem execOr_sound {a0 a1 a2 a3} {t} (h : Sound q s) (e : (execOr a0 a1 a2 a3 s) = .next t) : Sound q t := by
  revert e
  unfold execOr
  repeat' with_reducible first | (intro e; cases e) | assumption | apply op2_sound | dsimp only

theorem execXor_sound {a0 a1 a2 a3} {t} (h : Sound q s) (e : (execXor a0 a1 a2 a3 s) = .next t) : Sound q t := by
  revert e
  unfold execXor
  repeat' with_reducible first | (intro e; cases e) | assumption | apply op2_sound | dsimp only

theorem execShl_sound {a0 a1 a2 a3} {t} (h : Sound q s) (e : (execShl a0 a1 a2 a3 s) = .next t) : Sound q t := by
  revert e
  unfold execShl
  repeat' with_reducible first | (intro e; cases e) | assumption | apply op2_sound | dsimp only

theorem execShr_sound {a0 a1 a2 a3} {t} (h : Sound q s) (e : (execShr a0 a1 a2 a3 s) = .next t) : Sound q t := by
  revert e
  unfold execShr
  repeat' with_reducible first | (intro e; cases e) | assumption | apply op2_sound | dsimp only

theorem execSra_sound {a0 a1 a2 a3} {t} (h : Sound q s) (e : (execSra a0 a1 a2 a3 s) = .next t) : Sound q t := by
  revert e
  unfold execSra
  repeat' with_reducible first | (intro e; cases e) | assumption | apply op2_sound | dsimp only

theorem execSlt_sound {a0 a1 a2 a3} {t} (h : Sound q s) (e : (execSlt a0 a1 a2 a3 s) = .next t) : Sound q t := by
  revert e
  unfold execSlt
  repeat' with_reducible first | (intro e; cases e) | assumption | apply op2_sound | dsimp only

theorem execSltu_sound {a0 a1 a2 a3} {t} (h : Sound q s) (e : (execSltu a0 a1 a2 a3 s) = .next t) : Sound q t := by
  revert e
  unfold execSltu
  repeat' with_reducible first | (intro e; cases e) | assumption | apply op2_sound | dsimp only

theorem execMin_sound {a0 a1 a2 a3} {t} (h : Sound q s) (e : (execMin a0 a1 a2 a3 s) = .next t) : Sound q t := by
  revert e
  unfold execMin
  repeat' with_reducible first | (intro e; cases e) | assumption | apply op2_sound

theorem execMax_sound {a0 a1 a2 a3} {t} (h : Sound q s) (e : (execMax a0 a1 a2 a3 s) = .next t) : Sound q t := by
  revert e
  unfold execMax
  repeat' with_reducible first | (intro e; cases e) | assumption | apply op2_sound

theorem execMinu_sound {a0 a1 a2 a3} {t} (h : Sound q s) (e : (execMinu a0 a1 a2 a3 s) = .next t) : Sound q t := by
  revert e
  unfold execMinu
  repeat' with_reducible first | (intro e; cases e) | assumption | apply op2_sound

theorem execMaxu_sound {a0 a1 a2 a3} {t} (h : Sound q s) (e : (execMaxu a0 a1 a2 a3 s) = .next t) : Sound q t := by
  revert e
  unfold execMaxu
  repeat' with_reducible first | (intro e; cases e) | assumption | apply op2_sound

theorem execClz_sound {a0 a1 a2} {t} (h : Sound q s) (e : (execClz a0 a1 a2 s) = .next t) : Sound q t := by
  revert e
  unfold execClz
  repeat' with_reducible first | (intro e; cases e) | assumption | apply op1_sound | dsimp only

theorem execPopc_sound {a0 a1 a2} {t} (h : Sound q s) (e : (execPopc a0 a1 a2 s) = .next t) : Sound q t := by
  revert e
  unfold execPopc
  repeat' with_reducible first | (intro e; cases e) | assumption | apply op1_sound | dsimp only

theorem execAdds_sound {a0 a1 a2 a3} {t} (h : Sound q s) (e : (execAdds a0 a1 a2 a3 s) = .next t) : Sound q t := by
  revert e
  unfold execAdds
  repeat' with_reducible first | (intro e; cases e) | assumption | apply op2_sound | dsimp only

theorem execSubs_sound {a0 a1 a2 a3} {t} (h : Sound q s) (e : (execSubs a0 a1 a2 a3 s) = .next t) : Sound q t := by
  revert e
  unfold execSubs
  repeat' with_reducible first | (intro e; cases e) | assumption | apply op2_sound | dsimp only

theorem execMul_sound {a0 a1 a2 a3} {t} (h : Sound q s) (e : (execMul a0 a1 a2 a3 s) = .next t) : Sound q t := by
  revert e
  unfold execMul
  repeat' with_reducible first | (intro e; cases e) | assumption | apply op2_sound | dsimp only

theorem execMulh_sound {a0 a1 a2 a3} {t} (h : Sound q s) (e : (execMulh a0 a1 a2 a3 s) = .next t) : Sound q t := by
  revert e
  unfold execMulh
  repeat' with_reducible first | (intro e; cases e) | assumption | apply op2_sound

theorem execMulhu_sound {a0 a1 a2 a3} {t} (h : Sound q s) (e : (execMulhu a0 a1 a2 a3 s) = .next t) : Sound q t := by
  revert e
  unfold execMulhu
  repeat' with_reducible first | (intro e; cases e) | assumption | apply op2_sound

theorem execDiv_sound {a0 a1 a2 a3} {t} (h : Sound q s) (e : (execDiv a0 a1 a2 a3 s) = .next t) : Sound q t := by
  revert e
  unfold execDiv
  repeat' with_reducible first | (intro e; cases e) | assumption | apply op2_sound

theorem execDivu_sound {a0 a1 a2 a3} {t} (h : Sound q s) (e : (execDivu a0 a1 a2 a3 s) = .next t) : Sound q t := by
  revert e
  unfold execDivu
  repeat' with_reducible first | (intro e; cases e) | assumption | apply op2_sound

theorem execRem_sound {a0 a1 a2 a3} {t} (h : Sound q s) (e : (execRem a0 a1 a2 a3 s) = .next t) : Sound q t := by
  revert e
  unfold execRem
  repeat' with_reducible first | (intro e; cases e) | assumption | apply op2_sound

theorem execRemu_sound {a0 a1 a2 a3} {t} (h : Sound q s) (e : (execRemu a0 a1 a2 a3 s) = .next t) : Sound q t := by
  revert e
  unfold execRemu
  repeat' with_reducible first | (intro e; cases e) | assumption | apply op2_sound

theorem execMacs_sound {a0 a1 a2 a3} {t} (h : Sound q s) (e : (execMacs a0 a1 a2 a3 s) = .next t) : Sound q t := by
  revert e
  unfold execMacs
  repeat' with_reducible first
    | (intro e; cases e) | assumption | refine instr_sound (fun t ht => ?_) ?_ | apply macc_sound | dsimp only

theorem execMacu_sound {a0 a1 a2 a3} {t} (h : Sound q s) (e : (execMacu a0 a1 a2 a3 s) = .next t) : Sound q t := by
  revert e
  unfold execMacu
  repeat' with_reducible first
    | (intro e; cases e) | assumption | refine instr_sound (fun t ht => ?_) ?_ | apply macc_sound | dsimp only

theorem execAccclr_sound {a0} {t} (h : Sound q s) (e : (execAccclr a0 s) = .next t) : Sound q t := by
  revert e
  unfold execAccclr
  repeat' with_reducible first
    | (intro e; cases e) | assumption | refine instr_sound (fun t ht => ?_) ?_ | apply advance_sound
    | apply modSh_sound | dsimp only

theorem execAddi_sound {a0 a1 a2 a3} {t} (h : Sound q s) (e : (execAddi a0 a1 a2 a3 s) = .next t) : Sound q t := by
  revert e
  unfold execAddi
  repeat' with_reducible first | (intro e; cases e) | assumption | apply op1_sound | dsimp only

theorem execAndi_sound {a0 a1 a2 a3} {t} (h : Sound q s) (e : (execAndi a0 a1 a2 a3 s) = .next t) : Sound q t := by
  revert e
  unfold execAndi
  repeat' with_reducible first | (intro e; cases e) | assumption | apply op1_sound | dsimp only

theorem execOri_sound {a0 a1 a2 a3} {t} (h : Sound q s) (e : (execOri a0 a1 a2 a3 s) = .next t) : Sound q t := by
  revert e
  unfold execOri
  repeat' with_reducible first | (intro e; cases e) | assumption | apply op1_sound | dsimp only

theorem execXori_sound {a0 a1 a2 a3} {t} (h : Sound q s) (e : (execXori a0 a1 a2 a3 s) = .next t) : Sound q t := by
  revert e
  unfold execXori
  repeat' with_reducible first | (intro e; cases e) | assumption | apply op1_sound | dsimp only

theorem execSlti_sound {a0 a1 a2 a3} {t} (h : Sound q s) (e : (execSlti a0 a1 a2 a3 s) = .next t) : Sound q t := by
  revert e
  unfold execSlti
  repeat' with_reducible first | (intro e; cases e) | assumption | apply op1_sound | dsimp only

theorem execShli_sound {a0 a1 a2 a3} {t} (h : Sound q s) (e : (execShli a0 a1 a2 a3 s) = .next t) : Sound q t := by
  revert e
  unfold execShli
  repeat' with_reducible first | (intro e; cases e) | assumption | apply op1_sound | dsimp only

theorem execShri_sound {a0 a1 a2 a3} {t} (h : Sound q s) (e : (execShri a0 a1 a2 a3 s) = .next t) : Sound q t := by
  revert e
  unfold execShri
  repeat' with_reducible first | (intro e; cases e) | assumption | apply op1_sound | dsimp only

theorem execSrai_sound {a0 a1 a2 a3} {t} (h : Sound q s) (e : (execSrai a0 a1 a2 a3 s) = .next t) : Sound q t := by
  revert e
  unfold execSrai
  repeat' with_reducible first | (intro e; cases e) | assumption | apply op1_sound | dsimp only

theorem execLui_sound {a0 a1 a2} {t} (h : Sound q s) (e : (execLui a0 a1 a2 s) = .next t) : Sound q t := by
  revert e
  unfold execLui
  repeat' with_reducible first
    | (intro e; cases e) | assumption | refine instr_sound (fun t ht => ?_) ?_ | apply result_sound | dsimp only

theorem execLdw_sound {a0 a1 a2 a3} {t} (h : Sound q s) (e : (execLdw a0 a1 a2 a3 s) = .next t) : Sound q t := by
  revert e
  unfold execLdw
  repeat' with_reducible first
    | (intro e; cases e) | assumption | refine instr_sound (fun t ht => ?_) ?_ | apply loadTo_sound | dsimp only

theorem execLdh_sound {a0 a1 a2 a3} {t} (h : Sound q s) (e : (execLdh a0 a1 a2 a3 s) = .next t) : Sound q t := by
  revert e
  unfold execLdh
  repeat' with_reducible first
    | (intro e; cases e) | assumption | refine instr_sound (fun t ht => ?_) ?_ | apply loadTo_sound | dsimp only

theorem execLdhu_sound {a0 a1 a2 a3} {t} (h : Sound q s) (e : (execLdhu a0 a1 a2 a3 s) = .next t) : Sound q t := by
  revert e
  unfold execLdhu
  repeat' with_reducible first
    | (intro e; cases e) | assumption | refine instr_sound (fun t ht => ?_) ?_ | apply loadTo_sound | dsimp only

theorem execLdb_sound {a0 a1 a2 a3} {t} (h : Sound q s) (e : (execLdb a0 a1 a2 a3 s) = .next t) : Sound q t := by
  revert e
  unfold execLdb
  repeat' with_reducible first
    | (intro e; cases e) | assumption | refine instr_sound (fun t ht => ?_) ?_ | apply loadTo_sound | dsimp only

theorem execLdbu_sound {a0 a1 a2 a3} {t} (h : Sound q s) (e : (execLdbu a0 a1 a2 a3 s) = .next t) : Sound q t := by
  revert e
  unfold execLdbu
  repeat' with_reducible first
    | (intro e; cases e) | assumption | refine instr_sound (fun t ht => ?_) ?_ | apply loadTo_sound | dsimp only

theorem execLdd_sound {a0 a1 a2 a3} {t} (h : Sound q s) (e : (execLdd a0 a1 a2 a3 s) = .next t) : Sound q t := by
  revert e
  unfold execLdd
  repeat' with_reducible first
    | (intro e; cases e) | assumption | refine instrWith_sound (fun t ht => ?_) ?_
    | refine load_sound (fun v t ht => ?_) ?_ | apply setPair_sound | dsimp only

theorem execStw_sound {a0 a1 a2 a3} {t} (h : Sound q s) (e : (execStw a0 a1 a2 a3 s) = .next t) : Sound q t := by
  revert e
  unfold execStw
  repeat' with_reducible first
    | (intro e; cases e) | assumption | refine instr_sound (fun t ht => ?_) ?_ | apply store_sound | dsimp only

theorem execSth_sound {a0 a1 a2 a3} {t} (h : Sound q s) (e : (execSth a0 a1 a2 a3 s) = .next t) : Sound q t := by
  revert e
  unfold execSth
  repeat' with_reducible first
    | (intro e; cases e) | assumption | refine instr_sound (fun t ht => ?_) ?_ | apply store_sound | dsimp only

theorem execStb_sound {a0 a1 a2 a3} {t} (h : Sound q s) (e : (execStb a0 a1 a2 a3 s) = .next t) : Sound q t := by
  revert e
  unfold execStb
  repeat' with_reducible first
    | (intro e; cases e) | assumption | refine instr_sound (fun t ht => ?_) ?_ | apply store_sound | dsimp only

theorem execStd_sound {a0 a1 a2 a3} {t} (h : Sound q s) (e : (execStd a0 a1 a2 a3 s) = .next t) : Sound q t := by
  revert e
  unfold execStd
  repeat' with_reducible first
    | (intro e; cases e) | assumption | refine instrWith_sound (fun t ht => ?_) ?_ | apply store_sound | dsimp only

theorem execBeq_sound {a0 a1 a2 a3} {t} (h : Sound q s) (e : (execBeq a0 a1 a2 a3 s) = .next t) : Sound q t := by
  revert e
  unfold execBeq
  repeat' with_reducible first | (intro e; cases e) | assumption | apply branch_sound

theorem execBne_sound {a0 a1 a2 a3} {t} (h : Sound q s) (e : (execBne a0 a1 a2 a3 s) = .next t) : Sound q t := by
  revert e
  unfold execBne
  repeat' with_reducible first | (intro e; cases e) | assumption | apply branch_sound

theorem execBlt_sound {a0 a1 a2 a3} {t} (h : Sound q s) (e : (execBlt a0 a1 a2 a3 s) = .next t) : Sound q t := by
  revert e
  unfold execBlt
  repeat' with_reducible first | (intro e; cases e) | assumption | apply branch_sound

theorem execBge_sound {a0 a1 a2 a3} {t} (h : Sound q s) (e : (execBge a0 a1 a2 a3 s) = .next t) : Sound q t := by
  revert e
  unfold execBge
  repeat' with_reducible first | (intro e; cases e) | assumption | apply branch_sound

theorem execBltu_sound {a0 a1 a2 a3} {t} (h : Sound q s) (e : (execBltu a0 a1 a2 a3 s) = .next t) : Sound q t := by
  revert e
  unfold execBltu
  repeat' with_reducible first | (intro e; cases e) | assumption | apply branch_sound

theorem execBgeu_sound {a0 a1 a2 a3} {t} (h : Sound q s) (e : (execBgeu a0 a1 a2 a3 s) = .next t) : Sound q t := by
  revert e
  unfold execBgeu
  repeat' with_reducible first | (intro e; cases e) | assumption | apply branch_sound

theorem execJal_sound {a0 a1 a2} {t} (h : Sound q s) (e : (execJal a0 a1 a2 s) = .next t) : Sound q t := by
  revert e
  unfold execJal
  repeat' with_reducible first
    | (intro e; cases e) | assumption | refine instr_sound (fun t ht => ?_) ?_ | apply goto_sound | apply setReg_sound
    | dsimp only

theorem execJalr_sound {a0 a1 a2 a3} {t} (h : Sound q s) (e : (execJalr a0 a1 a2 a3 s) = .next t) : Sound q t := by
  revert e
  unfold execJalr
  repeat' with_reducible first
    | (intro e; cases e) | assumption | refine instr_sound (fun t ht => ?_) ?_ | apply raise_sound | apply goto_sound
    | apply setReg_sound | refine ite_sound (fun _ => ?_) fun _ => ?_ | dsimp only | split

theorem execWait_sound {a0 a1 a2 a3} {t} (h : Sound q s) (e : (execWait a0 a1 a2 a3 s) = .next t) : Sound q t := by
  revert e
  unfold execWait
  repeat' with_reducible first
    | (intro e; cases e) | assumption | refine instr_sound (fun t ht => ?_) ?_ | apply waitFor_sound | dsimp only

theorem execWaitComplete_sound {a0} {t} (h : Sound q s) (e : (execWaitComplete a0 s) = .next t) : Sound q t := by
  revert e
  unfold execWaitComplete
  repeat' with_reducible first
    | refine whenever_sound h fun s h => ?_ | assumption | apply coreStart_sound | apply newCycle_sound
    | apply interrupt_sound | apply modSh_sound | apply waitEnd_sound | dsimp only | split

theorem execPost_sound {a0 a1 a2} {t} (h : Sound q s) (e : (execPost a0 a1 a2 s) = .next t) : Sound q t := by
  revert e
  unfold execPost
  repeat' with_reducible first
    | (intro e; cases e) | assumption | refine instr_sound (fun t ht => ?_) ?_ | apply advance_sound
    | apply postTo_sound | dsimp only

theorem execTrap_sound {a0 a1} {t} (h : Sound q s) (e : (execTrap a0 a1 s) = .next t) : Sound q t := by
  revert e
  unfold execTrap
  repeat' with_reducible first
    | (intro e; cases e) | assumption | refine instrWith_sound (fun t ht => ?_) ?_ | dsimp only | simp only [id_eq]

theorem execEret_sound {a0} {t} (h : Sound q s) (e : (execEret a0 s) = .next t) : Sound q t := by
  revert e
  unfold execEret
  repeat' with_reducible first
    | (intro e; cases e) | assumption | refine instrWith_sound (fun t ht => ?_) ?_ | apply eret_sound | dsimp only

theorem execFence_sound {a0} {t} (h : Sound q s) (e : (execFence a0 s) = .next t) : Sound q t := by
  revert e
  unfold execFence
  repeat' with_reducible first
    | (intro e; cases e) | assumption | refine instr_sound (fun t ht => ?_) ?_ | apply fenceTry_sound | dsimp only

theorem execFenceComplete_sound {a0} {t} (h : Sound q s) (e : (execFenceComplete a0 s) = .next t) : Sound q t := by
  revert e
  unfold execFenceComplete
  repeat' with_reducible first | refine whenever_sound h fun s h => ?_ | assumption | apply fenceEnd_sound | dsimp only

theorem execCsrr_sound {a0 a1 a2} {t} (h : Sound q s) (e : (execCsrr a0 a1 a2 s) = .next t) : Sound q t := by
  revert e
  unfold execCsrr
  repeat' with_reducible first
    | (intro e; cases e) | assumption | refine instrWith_sound (fun t ht => ?_) ?_ | apply result_sound | dsimp only

theorem execCsrw_sound {a0 a1 a2} {t} (h : Sound q s) (e : (execCsrw a0 a1 a2 s) = .next t) : Sound q t := by
  revert e
  unfold execCsrw
  repeat' with_reducible first
    | (intro e; cases e) | assumption | refine instrWith_sound (fun t ht => ?_) ?_ | apply advance_sound
    | apply modSh_sound | dsimp only

theorem execHalt_sound {a0} {t} (h : Sound q s) (e : (execHalt a0 s) = .next t) : Sound q t := by
  revert e
  unfold execHalt
  repeat' with_reducible first
    | (intro e; cases e) | assumption | refine instrWith_sound (fun t ht => ?_) ?_ | apply haltShuttle_sound
    | dsimp only

theorem execDrv_sound {a0 a1 a2} {t} (h : Sound q s) (e : (execDrv a0 a1 a2 s) = .next t) : Sound q t := by
  revert e
  unfold execDrv
  repeat' with_reducible first
    | (intro e; cases e) | assumption | refine instr_sound (fun t ht => ?_) ?_ | apply privFault_sound
    | apply drvExec_sound | refine ite_sound (fun _ => ?_) fun _ => ?_ | dsimp only | split

theorem execSnap_sound {a0 a1 a2} {t} (h : Sound q s) (e : (execSnap a0 a1 a2 s) = .next t) : Sound q t := by
  revert e
  unfold execSnap
  repeat' with_reducible first
    | (intro e; cases e) | assumption | apply preSlot_sound | refine instrWith_sound (fun t ht => ?_) ?_
    | apply privFault_sound | apply advance_sound | apply setPair_sound | refine ite_sound (fun _ => ?_) fun _ => ?_
    | dsimp only | split

theorem execCommit_sound {a0 a1 a2 a3} {t} (h : Sound q s) (e : (execCommit a0 a1 a2 a3 s) = .next t) : Sound q t := by
  revert e
  unfold execCommit
  repeat' with_reducible first
    | (intro e; cases e) | assumption | refine instrWith_sound (fun t ht => ?_) ?_ | apply privFault_sound
    | apply commitExec_sound | refine ite_sound (fun _ => ?_) fun _ => ?_ | dsimp only | split

theorem execStamp_sound {a0 a1 a2 a3} {t} (h : Sound q s) (e : (execStamp a0 a1 a2 a3 s) = .next t) : Sound q t := by
  revert e
  unfold execStamp
  repeat' with_reducible first
    | (intro e; cases e) | assumption | refine instrWith_sound (fun t ht => ?_) ?_ | apply stampExec_sound
    | apply atPhase_sound | refine ite_sound (fun _ => ?_) fun _ => ?_ | dsimp only | split

theorem execCrc_sound {a0 a1 a2 a3} {t} (h : Sound q s) (e : (execCrc a0 a1 a2 a3 s) = .next t) : Sound q t := by
  revert e
  unfold execCrc
  repeat' with_reducible first
    | (intro e; cases e) | assumption | refine instrWith_sound (fun t ht => ?_) ?_ | apply result_sound | dsimp only

theorem enter_sound {i} (h : Sound q s) : Sound q (s.enter i) := by
  have hp : Sound q (s.preSlot i) := preSlot_sound h
  unfold State.enter
  split
  · exact h
  · rename_i u hu
    have k := issue_sound h hu
    dsimp only
    split
    · exact fetch_sound' k ‹_›
    · have k' := fetch_sound' k ‹_›
      split
      · exact raise_sound k'
      · split
        · exact interrupt_sound hp
        · exact hp

theorem execInterruptEntry_sound {a0} {t} (h : Sound q s) (e : (execInterruptEntry a0 s) = .next t) : Sound q t := by
  revert e
  unfold execInterruptEntry
  repeat' with_reducible first
    | refine whenever_sound h fun s h => ?_ | assumption | apply interrupt_sound | apply coreStart_sound
    | apply enter_sound | refine ite_sound (fun _ => ?_) fun _ => ?_ | dsimp only | split | simp only [id_eq]

theorem execShuttleStart_sound {a0 a1} {t} (h : Sound q s) (e : (execShuttleStart a0 a1 s) = .next t) : Sound q t := by
  revert e
  unfold execShuttleStart
  repeat' with_reducible first
    | refine whenPowered_sound h fun s h => ?_ | assumption | apply writeBy_sound | dsimp only

theorem execShuttleDisable_sound {a0 a1} {t} (h : Sound q s) (e : (execShuttleDisable a0 a1 s) = .next t) :
    Sound q t := by
  revert e
  unfold execShuttleDisable
  repeat' with_reducible first
    | refine whenPowered_sound h fun s h => ?_ | assumption | apply writeBy_sound | dsimp only

theorem execIssueTableApply_sound {t} (h : Sound q s) (e : (execIssueTableApply s) = .next t) : Sound q t := by
  revert e
  unfold execIssueTableApply
  repeat' with_reducible first
    | refine whenever_sound h fun s h => ?_ | assumption | apply idleTick_sound | apply modEng_sound
    | apply allSh_sound | dsimp only

theorem execCoreClockRequest_sound {a0 a1} {t} (h : Sound q s) (e : (execCoreClockRequest a0 a1 s) = .next t) :
    Sound q t := by
  revert e
  unfold execCoreClockRequest
  repeat' with_reducible first
    | refine whenPowered_sound h fun s h => ?_ | assumption | apply writeBy_sound | dsimp only

theorem execCoreClockSwitch_sound {t} (h : Sound q s) (e : (execCoreClockSwitch s) = .next t) : Sound q t := by
  revert e
  unfold execCoreClockSwitch
  repeat' with_reducible first | refine whenever_sound h fun s h => ?_ | assumption | apply coreSwitch_sound

theorem execXo32mStop_sound {t} (h : Sound q s) (e : (execXo32mStop s) = .next t) : Sound q t := by
  revert e
  unfold execXo32mStop
  repeat' with_reducible first | refine whenever_sound h fun s h => ?_ | assumption | apply xoStop_sound

theorem execCoreClockRestart_sound {t} (h : Sound q s) (e : (execCoreClockRestart s) = .next t) : Sound q t := by
  revert e
  unfold execCoreClockRestart
  repeat' with_reducible first | refine whenever_sound h fun s h => ?_ | assumption | apply coreStart_sound

theorem execXo32mStable_sound {t} (h : Sound q s) (e : (execXo32mStable s) = .next t) : Sound q t := by
  revert e
  unfold execXo32mStable
  repeat' with_reducible first
    | refine whenever_sound h fun s h => ?_ | assumption | apply drvLandAll_sound | apply xoStable_sound | dsimp only

theorem execIslandStop_sound {a0} {t} (h : Sound q s) (e : (execIslandStop a0 s) = .next t) : Sound q t := by
  revert e
  unfold execIslandStop
  repeat' with_reducible first
    | refine whenever_sound h fun s h => ?_ | assumption | apply islandStop_sound | dsimp only

theorem accessLate_sound {a1 a2 a3} (h : Sound q s) : Sound q (State.accessLate s a1 a2 a3) := by
  unfold State.accessLate
  repeat' with_reducible first
    | assumption | refine instr_sound (fun t ht => ?_) ?_ | apply raise_sound | apply busError_sound
    | apply debugFail_sound | apply respond_sound | apply linkSend_sound | refine ite_sound (fun _ => ?_) fun _ => ?_
    | dsimp only | split

theorem execCrossingTimeout_sound {a0} {t} (h : Sound q s) (e : (execCrossingTimeout a0 s) = .next t) : Sound q t := by
  revert e
  unfold execCrossingTimeout
  repeat' with_reducible first
    | refine whenPowered_sound h fun s h => ?_ | refine whenever_sound h fun s h => ?_ | assumption
    | apply accessLate_sound | refine instr_sound (fun t ht => ?_) ?_ | apply privFault_sound | apply busError_sound
    | apply takeFailed_sound | refine takeFailed_sound' ?_ ‹_› | apply raise_sound
    | refine ite_sound (fun _ => ?_) fun _ => ?_ | dsimp only | split

theorem execPostedWriteComplete_sound {a0} {t} (h : Sound q s) (e : (execPostedWriteComplete a0 s) = .next t) :
    Sound q t := by
  revert e
  unfold execPostedWriteComplete
  repeat' with_reducible first | refine whenever_sound h fun s h => ?_ | assumption | apply postedOne_sound | dsimp only

theorem execRegisterWrite_sound {a0 a1 a2} {t} (h : Sound q s) (e : (execRegisterWrite a0 a1 a2 s) = .next t) :
    Sound q t := by
  revert e
  unfold execRegisterWrite
  repeat' with_reducible first
    | refine whenPowered_sound h fun s h => ?_ | assumption | apply writeBy_sound | dsimp only

theorem execEngVecbaseWrite_sound {a0 a1} {t} (h : Sound q s) (e : (execEngVecbaseWrite a0 a1 s) = .next t) :
    Sound q t := by
  revert e
  unfold execEngVecbaseWrite
  repeat' with_reducible first
    | refine whenPowered_sound h fun s h => ?_ | assumption | apply writeBy_sound | dsimp only

theorem execSoftwareReset_sound {a0 a1} {t} (h : Sound q s) (e : (execSoftwareReset a0 a1 s) = .next t) :
    Sound q t := by
  revert e
  unfold execSoftwareReset
  repeat' with_reducible first
    | refine whenPowered_sound h fun s h => ?_ | assumption | apply writeBy_sound | dsimp only

theorem execWdogConfig_sound {a0 a1} {t} (h : Sound q s) (e : (execWdogConfig a0 a1 s) = .next t) : Sound q t := by
  revert e
  unfold execWdogConfig
  repeat' with_reducible first
    | refine whenPowered_sound h fun s h => ?_ | assumption | apply writeBy_sound | dsimp only

theorem execWdogKick_sound {a0 a1} {t} (h : Sound q s) (e : (execWdogKick a0 a1 s) = .next t) : Sound q t := by
  revert e
  unfold execWdogKick
  repeat' with_reducible first
    | refine whenPowered_sound h fun s h => ?_ | assumption | apply writeBy_sound | dsimp only

theorem execWdogTimeout_sound {t} (h : Sound q s) (e : (execWdogTimeout s) = .next t) : Sound q t := by
  revert e
  unfold execWdogTimeout
  repeat' with_reducible first | refine whenever_sound h fun s h => ?_ | assumption | apply resetAs_sound | dsimp only

theorem execColdStart_sound {a0} {t} (h : Sound q s) (e : (execColdStart a0 s) = .next t) : Sound q t := by
  revert e
  unfold execColdStart
  repeat' with_reducible first
    | (intro e; cases e) | assumption | apply coldStart_sound | refine ite_sound (fun _ => ?_) fun _ => ?_ | split

theorem execBrownoutReset_sound {t} (h : Sound q s) (e : (execBrownoutReset s) = .next t) : Sound q t := by
  revert e
  unfold execBrownoutReset
  repeat' with_reducible first
    | refine whenPowered_sound h fun s h => ?_ | assumption | apply resetAs_sound | dsimp only

theorem execPinReset_sound {t} (h : Sound q s) (e : (execPinReset s) = .next t) : Sound q t := by
  revert e
  unfold execPinReset
  repeat' with_reducible first
    | refine whenPowered_sound h fun s h => ?_ | assumption | apply resetAs_sound | dsimp only

theorem execDebugReset_sound {t} (h : Sound q s) (e : (execDebugReset s) = .next t) : Sound q t := by
  revert e
  unfold execDebugReset
  repeat' with_reducible first | refine whenever_sound h fun s h => ?_ | assumption | apply resetAs_sound | dsimp only

theorem execBootHandover_sound {a0 a1} {t} (h : Sound q s) (e : (execBootHandover a0 a1 s) = .next t) : Sound q t := by
  revert e
  unfold execBootHandover
  repeat' with_reducible first
    | refine whenever_sound h fun s h => ?_ | assumption | apply bootHandover_sound | dsimp only

theorem execWriteBufferEntryWrite_sound {t} (h : Sound q s) (e : (execWriteBufferEntryWrite s) = .next t) :
    Sound q t := by
  revert e
  unfold execWriteBufferEntryWrite
  repeat' with_reducible first
    | refine whenever_sound h fun s h => ?_ | assumption | apply stallLand_sound | apply wbWriteOne_sound | dsimp only

theorem execEccInjectRequest_sound {a0 a1} {t} (h : Sound q s) (e : (execEccInjectRequest a0 a1 s) = .next t) :
    Sound q t := by
  revert e
  unfold execEccInjectRequest
  repeat' with_reducible first
    | refine whenPowered_sound h fun s h => ?_ | assumption | apply writeBy_sound | dsimp only

theorem scrub_sound {a1} (h : Sound q s) : Sound q (State.scrub s a1) := by
  unfold State.scrub
  repeat' with_reducible first
    | assumption | apply eccRead_sound | refine eccRead_sound' ?_ ‹_› | refine setMem_sound ?_ rfl rfl
    | refine ite_sound (fun _ => ?_) fun _ => ?_ | dsimp only | split

theorem execScrubRead_sound {a0} {t} (h : Sound q s) (e : (execScrubRead a0 s) = .next t) : Sound q t := by
  revert e
  unfold execScrubRead
  repeat' with_reducible first
    | refine whenever_sound h fun s h => ?_ | assumption | apply scrub_sound
    | refine ite_sound (fun _ => ?_) fun _ => ?_ | dsimp only | split

theorem execPcommitImmediate_sound {a0 a1 t} (h : Sound q s) (e : execPcommitImmediate a0 a1 s = .next t) :
    Sound q t := by
  revert e
  unfold execPcommitImmediate
  exact whenPowered_sound h fun s h => writeBy_sound h

theorem execPcommitArm_sound {a0 a1} {t} (h : Sound q s) (e : (execPcommitArm a0 a1 s) = .next t) : Sound q t := by
  revert e
  unfold execPcommitArm
  repeat' with_reducible first
    | refine whenPowered_sound h fun s h => ?_ | assumption | apply writeBy_sound | dsimp only

theorem execPersistBoundaryTick_sound {t} (h : Sound q s) (e : (execPersistBoundaryTick s) = .next t) : Sound q t := by
  revert e
  unfold execPersistBoundaryTick
  repeat' with_reducible first | refine whenever_sound h fun s h => ?_ | assumption | apply persistBoundary_sound

theorem execPersistCommitComplete_sound {t} (h : Sound q s) (e : (execPersistCommitComplete s) = .next t) :
    Sound q t := by
  revert e
  unfold execPersistCommitComplete
  repeat' with_reducible first
    | refine whenever_sound h fun s h => ?_ | assumption | apply commitEnd_sound | dsimp only | split
    | simp only [id_eq]

end Sys2Proof.Machine
end

