-- ==== Sys2Proof/Laws/SoundNode.lean ====
section
/-!
SUPPORT. Soundness of memory and the queue through the meanings of the node's other blocks, and the period of an empty queue: one lemma per operation.
-/

namespace Sys2Proof.Machine

variable {q : List Instr} {s : State}

theorem writeThrough_sound {a1 a2 a3} (h : Sound q s) : Sound q (State.writeThrough s a1 a2 a3) := by
  unfold State.writeThrough
  repeat' with_reducible first | assumption | apply drainPosted_sound | apply writeBy_sound

theorem execCellMeasurement_sound {a0} {t} (h : Sound q s) (e : (execCellMeasurement a0 s) = .next t) : Sound q t := by
  revert e
  unfold execCellMeasurement
  repeat' with_reducible first
    | refine whenPowered_sound h fun s h => ?_ | assumption | apply modTmp_sound | apply cellMeasure_sound
    | dsimp only

theorem execChargeTimerExpiry_sound {t} (h : Sound q s) (e : (execChargeTimerExpiry s) = .next t) : Sound q t := by
  revert e
  unfold execChargeTimerExpiry
  repeat' with_reducible first
    | refine whenever_sound h fun s h => ?_ | assumption | apply setChg_sound | apply modNrgx_sound | dsimp only

theorem execFocvSampleStart_sound {a0} {t} (h : Sound q s) (e : (execFocvSampleStart a0 s) = .next t) : Sound q t := by
  revert e
  unfold execFocvSampleStart
  repeat' with_reducible first
    | refine whenever_sound h fun s h => ?_ | assumption | apply nrgBoundary_sound | dsimp only

theorem execFocvSample_sound {a0} {t} (h : Sound q s) (e : (execFocvSample a0 s) = .next t) : Sound q t := by
  revert e
  unfold execFocvSample
  repeat' with_reducible first
    | refine whenever_sound h fun s h => ?_ | assumption | apply modNrg_sound | apply pvUpdate_sound
    | apply modNrgx_sound | dsimp only

theorem execNrgBoundaryTick_sound {a0} {t} (h : Sound q s) (e : (execNrgBoundaryTick a0 s) = .next t) : Sound q t := by
  revert e
  unfold execNrgBoundaryTick
  repeat' with_reducible first
    | refine whenever_sound h fun s h => ?_ | assumption | apply nrgBoundary_sound | dsimp only

theorem execTegTakeover_sound {t} (h : Sound q s) (e : (execTegTakeover s) = .next t) : Sound q t := by
  revert e
  unfold execTegTakeover
  repeat' with_reducible first | refine whenever_sound h fun s h => ?_ | assumption | apply modNrgx_sound | dsimp only

theorem execTegSampleEnd_sound {a0} {t} (h : Sound q s) (e : (execTegSampleEnd a0 s) = .next t) : Sound q t := by
  revert e
  unfold execTegSampleEnd
  repeat' with_reducible first
    | refine whenever_sound h fun s h => ?_ | assumption | apply modNrg_sound | apply tegUpdate_sound
    | apply modNrgx_sound | dsimp only

theorem execPvOvervoltage_sound {t} (h : Sound q s) (e : (execPvOvervoltage s) = .next t) : Sound q t := by
  revert e
  unfold execPvOvervoltage
  repeat' with_reducible first
    | refine whenever_sound h fun s h => ?_ | assumption | apply pvUpdate_sound | apply modNrg_sound | dsimp only

theorem execPvOvervoltageClear_sound {t} (h : Sound q s) (e : (execPvOvervoltageClear s) = .next t) : Sound q t := by
  revert e
  unfold execPvOvervoltageClear
  repeat' with_reducible first
    | refine whenever_sound h fun s h => ?_ | assumption | apply pvUpdate_sound | apply modNrg_sound | dsimp only

theorem execDcSupplyLoss_sound {t} (h : Sound q s) (e : (execDcSupplyLoss s) = .next t) : Sound q t := by
  revert e
  unfold execDcSupplyLoss
  repeat' with_reducible first
    | refine whenever_sound h fun s h => ?_ | assumption | apply pvUpdate_sound | apply setDc_sound
    | apply modNrgx_sound | dsimp only

theorem execDcSupplyRestore_sound {t} (h : Sound q s) (e : (execDcSupplyRestore s) = .next t) : Sound q t := by
  revert e
  unfold execDcSupplyRestore
  repeat' with_reducible first
    | refine whenever_sound h fun s h => ?_ | assumption | apply pvUpdate_sound | apply setDc_sound
    | apply modNrgx_sound | dsimp only

theorem setCell_sound {a1} (h : Sound q s) : Sound q (State.setCell s a1) := by
  unfold State.setCell
  repeat' with_reducible first | assumption | apply modNrgx_sound | dsimp only

theorem execCellUvCutoff_sound {a0} {t} (h : Sound q s) (e : (execCellUvCutoff a0 s) = .next t) : Sound q t := by
  revert e
  unfold execCellUvCutoff
  repeat' with_reducible first | refine whenever_sound h fun s h => ?_ | assumption | apply setCell_sound | dsimp only

theorem execCellReconnect_sound {a0} {t} (h : Sound q s) (e : (execCellReconnect a0 s) = .next t) : Sound q t := by
  revert e
  unfold execCellReconnect
  repeat' with_reducible first | refine whenever_sound h fun s h => ?_ | assumption | apply setCell_sound | dsimp only

theorem execCellOvercurrentTrip_sound {t} (h : Sound q s) (e : (execCellOvercurrentTrip s) = .next t) : Sound q t := by
  revert e
  unfold execCellOvercurrentTrip
  repeat' with_reducible first
    | refine whenever_sound h fun s h => ?_ | assumption | apply setCell_sound | apply modNrgx_sound
    | refine ite_sound (fun _ => ?_) fun _ => ?_ | dsimp only | split

theorem execCellSwitchReclose_sound {t} (h : Sound q s) (e : (execCellSwitchReclose s) = .next t) : Sound q t := by
  revert e
  unfold execCellSwitchReclose
  repeat' with_reducible first | refine whenever_sound h fun s h => ?_ | assumption | apply setCell_sound | dsimp only

theorem execBoostStart_sound {t} (h : Sound q s) (e : (execBoostStart s) = .next t) : Sound q t := by
  revert e
  unfold execBoostStart
  repeat' with_reducible first | refine whenever_sound h fun s h => ?_ | assumption | apply setBoost_sound | dsimp only

theorem execBoostStop_sound {t} (h : Sound q s) (e : (execBoostStop s) = .next t) : Sound q t := by
  revert e
  unfold execBoostStop
  repeat' with_reducible first | refine whenever_sound h fun s h => ?_ | assumption | apply setBoost_sound | dsimp only

theorem execReferenceRefresh_sound {t} (h : Sound q s) (e : (execReferenceRefresh s) = .next t) : Sound q t := by
  revert e
  unfold execReferenceRefresh
  repeat' with_reducible first
    | refine whenPowered_sound h fun s h => ?_ | assumption | apply modNrg_sound | apply pvUpdate_sound
    | apply setCell_sound | refine ite_sound (fun _ => ?_) fun _ => ?_ | dsimp only | split

theorem execEuseUpdate_sound {a0 a1} {t} (h : Sound q s) (e : (execEuseUpdate a0 a1 s) = .next t) : Sound q t := by
  revert e
  unfold execEuseUpdate
  repeat' with_reducible first
    | refine whenPowered_sound h fun s h => ?_ | assumption | apply euseTick_sound | apply takeDrawn_sound
    | dsimp only

theorem execShipModeEnter_sound {a0 a1} {t} (h : Sound q s) (e : (execShipModeEnter a0 a1 s) = .next t) :
    Sound q t := by
  revert e
  unfold execShipModeEnter
  repeat' with_reducible first
    | refine whenPowered_sound h fun s h => ?_ | assumption | apply writeThrough_sound | dsimp only

theorem execReservoirDischarge_sound {a0 a1} {t} (h : Sound q s) (e : (execReservoirDischarge a0 a1 s) = .next t) :
    Sound q t := by
  revert e
  unfold execReservoirDischarge
  repeat' with_reducible first
    | refine whenPowered_sound h fun s h => ?_ | assumption | apply writeThrough_sound | dsimp only

theorem execVresDischarged_sound {t} (h : Sound q s) (e : (execVresDischarged s) = .next t) : Sound q t := by
  revert e
  unfold execVresDischarged
  repeat' with_reducible first | refine whenever_sound h fun s h => ?_ | assumption | apply modNrgx_sound | dsimp only

theorem fireLastAct_sound (h : Sound q s) : Sound q (State.fireLastAct s) := by
  unfold State.fireLastAct
  repeat' with_reducible first
    | assumption | apply event_sound | apply modNrgx_sound | apply modNrg_sound | apply modSys_sound
    | apply prsLastAct_sound | apply flowLastAct_sound | apply drvLastAct_sound | apply hwSend_sound
    | apply startIslands_sound | apply boostCheck_sound | refine ite_sound (fun _ => ?_) fun _ => ?_ | dsimp only
    | split

theorem execLastact_sound {t} (h : Sound q s) (e : (execLastact s) = .next t) : Sound q t := by
  revert e
  unfold execLastact
  repeat' with_reducible first | refine whenever_sound h fun s h => ?_ | assumption | apply fireLastAct_sound

theorem execLastactNextClose_sound {t} (h : Sound q s) (e : (execLastactNextClose s) = .next t) : Sound q t := by
  revert e
  unfold execLastactNextClose
  repeat' with_reducible first
    | refine whenever_sound h fun s h => ?_ | assumption | apply seqClose_sound | dsimp only | split
    | simp only [id_eq]

theorem execLastactCloseSkip_sound {t} (h : Sound q s) (e : (execLastactCloseSkip s) = .next t) : Sound q t := by
  revert e
  unfold execLastactCloseSkip
  repeat' with_reducible first
    | refine whenever_sound h fun s h => ?_ | assumption | apply seqFinish_sound | apply seqStep_sound
    | apply dropRetry_sound | dsimp only | split

theorem headerDone_sound {a1} (h : Sound q s) : Sound q (State.headerDone s a1) := by
  unfold State.headerDone
  repeat' with_reducible first
    | assumption | apply commitEnd_sound | refine ite_sound (fun _ => ?_) fun _ => ?_ | dsimp only | split

theorem deadline_sound {a1} (h : Sound q s) : Sound q (State.deadline s a1) := by
  unfold State.deadline
  repeat' with_reducible first
    | assumption | apply keyCommitDone_sound | apply disarm_sound | apply headerDone_sound | apply wbDrain_sound
    | apply modNrgx_sound | apply modSys_sound | refine setMem_sound ?_ rfl rfl
    | refine ite_sound (fun _ => ?_) fun _ => ?_ | dsimp only | split

theorem execLastactDeadline_sound {a0} {t} (h : Sound q s) (e : (execLastactDeadline a0 s) = .next t) : Sound q t := by
  revert e
  unfold execLastactDeadline
  repeat' with_reducible first | refine whenever_sound h fun s h => ?_ | assumption | apply deadline_sound | dsimp only

theorem cutOff_sound (h : Sound q s) : Sound q s.cutOff := by
  unfold State.cutOff
  exact ⟨afterReset_sound h.1, h.2⟩

theorem execLastactCutoff_sound {t} (h : Sound q s) (e : (execLastactCutoff s) = .next t) : Sound q t := by
  revert e
  unfold execLastactCutoff
  repeat' with_reducible first | refine whenever_sound h fun s h => ?_ | assumption | apply cutOff_sound

theorem execResetHoldEnd_sound {a0} {t} (h : Sound q s) (e : (execResetHoldEnd a0 s) = .next t) : Sound q t := by
  revert e
  unfold execResetHoldEnd
  repeat' with_reducible first
    | (intro e; cases e) | assumption | apply modSys_sound | apply coldStart_sound
    | refine ite_sound (fun _ => ?_) fun _ => ?_ | dsimp only | split

theorem execLastactThresholdWrite_sound {a0 a1} {t} (h : Sound q s) (e :
    (execLastactThresholdWrite a0 a1 s) = .next t) : Sound q t := by
  revert e
  unfold execLastactThresholdWrite
  repeat' with_reducible first
    | refine whenPowered_sound h fun s h => ?_ | assumption | apply writeThrough_sound | dsimp only

theorem execDriveCommand_sound {a0 a1} {t} (h : Sound q s) (e : (execDriveCommand a0 a1 s) = .next t) : Sound q t := by
  revert e
  unfold execDriveCommand
  repeat' with_reducible first
    | refine whenPowered_sound h fun s h => ?_ | assumption | apply writeBy_sound | dsimp only

theorem execCancel_sound {a0 a1} {t} (h : Sound q s) (e : (execCancel a0 a1 s) = .next t) : Sound q t := by
  revert e
  unfold execCancel
  repeat' with_reducible first
    | refine whenPowered_sound h fun s h => ?_ | assumption | apply writeBy_sound | dsimp only

theorem execRelease_sound {a0 a1 a2} {t} (h : Sound q s) (e : (execRelease a0 a1 a2 s) = .next t) : Sound q t := by
  revert e
  unfold execRelease
  repeat' with_reducible first
    | refine whenPowered_sound h fun s h => ?_ | assumption | apply writeBy_sound | dsimp only

theorem execDrvResultRead_sound {a0 a1} {t} (h : Sound q s) (e : (execDrvResultRead a0 a1 s) = .next t) :
    Sound q t := by
  revert e
  unfold execDrvResultRead
  repeat' with_reducible first | refine whenPowered_sound h fun s h => ?_ | assumption | apply readBy_sound | dsimp only

theorem execValveTableWrite_sound {a0 a1 a2 a3} {t} (h : Sound q s) (e :
    (execValveTableWrite a0 a1 a2 a3 s) = .next t) : Sound q t := by
  revert e
  unfold execValveTableWrite
  repeat' with_reducible first
    | refine whenPowered_sound h fun s h => ?_ | assumption | apply writeBy_sound | dsimp only

theorem execStartPointScan_sound {a0 a1} {t} (h : Sound q s) (e : (execStartPointScan a0 a1 s) = .next t) :
    Sound q t := by
  revert e
  unfold execStartPointScan
  repeat' with_reducible first
    | refine whenever_sound h fun s h => ?_ | assumption | apply scan_sound | apply takeDrawn_sound | dsimp only

theorem execAdmitWaitExpiry_sound {a0 a1} {t} (h : Sound q s) (e : (execAdmitWaitExpiry a0 a1 s) = .next t) :
    Sound q t := by
  revert e
  unfold execAdmitWaitExpiry
  repeat' with_reducible first
    | refine whenever_sound h fun s h => ?_ | assumption | apply endEntry_sound | dsimp only | split
    | simp only [id_eq]

theorem execThermalWaitExpiry_sound {a0 a1} {t} (h : Sound q s) (e : (execThermalWaitExpiry a0 a1 s) = .next t) :
    Sound q t := by
  revert e
  unfold execThermalWaitExpiry
  repeat' with_reducible first
    | refine whenever_sound h fun s h => ?_ | assumption | apply endEntry_sound | dsimp only | split
    | simp only [id_eq]

theorem toNormalEnd_sound {a1} (h : Sound q s) : Sound q (State.toNormalEnd s a1) := by
  unfold State.toNormalEnd
  repeat' with_reducible first | assumption | apply toEnd_sound | dsimp only | simp only [id_eq]

theorem afterPeak_sound {a1} (h : Sound q s) : Sound q (State.afterPeak s a1) := by
  unfold State.afterPeak
  repeat' with_reducible first
    | assumption | apply toNormalEnd_sound | apply modDrv_sound | refine ite_sound (fun _ => ?_) fun _ => ?_
    | dsimp only | split

theorem boostDone_sound {a1 a2} (h : Sound q s) : Sound q (State.boostDone s a1 a2) := by
  unfold State.boostDone
  repeat' with_reducible first
    | assumption | apply modDrv_sound | apply afterPeak_sound | refine ite_sound (fun _ => ?_) fun _ => ?_
    | dsimp only | split

theorem execBoostEnd_sound {a0 a1} {t} (h : Sound q s) (e : (execBoostEnd a0 a1 s) = .next t) : Sound q t := by
  revert e
  unfold execBoostEnd
  repeat' with_reducible first | refine whenever_sound h fun s h => ?_ | assumption | apply boostDone_sound | dsimp only

theorem boostLate_sound {a1} (h : Sound q s) : Sound q (State.boostLate s a1) := by
  unfold State.boostLate
  repeat' with_reducible first
    | assumption | apply modDrv_sound | apply drvFault_sound | apply endEarly_sound | dsimp only

theorem execBoostTimeout_sound {a0 a1} {t} (h : Sound q s) (e : (execBoostTimeout a0 a1 s) = .next t) : Sound q t := by
  revert e
  unfold execBoostTimeout
  repeat' with_reducible first
    | refine whenever_sound h fun s h => ?_ | assumption | apply drvFault_sound | apply boostLate_sound
    | refine ite_sound (fun _ => ?_) fun _ => ?_ | dsimp only | split

theorem execCoilCurrentSample_sound {a0 a1} {t} (h : Sound q s) (e : (execCoilCurrentSample a0 a1 s) = .next t) :
    Sound q t := by
  revert e
  unfold execCoilCurrentSample
  repeat' with_reducible first | refine whenever_sound h fun s h => ?_ | assumption | apply modDrv_sound | dsimp only

theorem phaseDone_sound {a1 a2 a3} (h : Sound q s) : Sound q (State.phaseDone s a1 a2 a3) := by
  unfold State.phaseDone
  repeat' with_reducible first | assumption | apply modDrv_sound | apply coilMeasured_sound | dsimp only

theorem execPeakEnd_sound {a0 a1} {t} (h : Sound q s) (e : (execPeakEnd a0 a1 s) = .next t) : Sound q t := by
  revert e
  unfold execPeakEnd
  repeat' with_reducible first
    | refine whenever_sound h fun s h => ?_ | assumption | apply afterPeak_sound | apply phaseDone_sound | dsimp only

theorem execHoldEnd_sound {a0 a1} {t} (h : Sound q s) (e : (execHoldEnd a0 a1 s) = .next t) : Sound q t := by
  revert e
  unfold execHoldEnd
  repeat' with_reducible first
    | refine whenever_sound h fun s h => ?_ | assumption | apply toNormalEnd_sound | apply phaseDone_sound
    | dsimp only

theorem slowEnd_sound {a1} (h : Sound q s) : Sound q (State.slowEnd s a1) := by
  unfold State.slowEnd
  repeat' with_reducible first
    | assumption | apply modDrv_sound | apply drvFault_sound | refine ite_sound (fun _ => ?_) fun _ => ?_ | dsimp only
    | split

theorem execEndTimeout_sound {a0} {t} (h : Sound q s) (e : (execEndTimeout a0 s) = .next t) : Sound q t := by
  revert e
  unfold execEndTimeout
  repeat' with_reducible first | refine whenever_sound h fun s h => ?_ | assumption | apply slowEnd_sound | dsimp only

theorem execPulseEnd_sound {a0 a1 a2} {t} (h : Sound q s) (e : (execPulseEnd a0 a1 a2 s) = .next t) : Sound q t := by
  revert e
  unfold execPulseEnd
  repeat' with_reducible first
    | refine whenever_sound h fun s h => ?_ | assumption | apply pulseEnd_sound | apply atPhase_sound | dsimp only
    | split | simp only [id_eq]

theorem execChopPeriod_sound {a0 a1 a2 a3} {t} (h : Sound q s) (e : (execChopPeriod a0 a1 a2 a3 s) = .next t) :
    Sound q t := by
  revert e
  unfold execChopPeriod
  repeat' with_reducible first
    | refine whenever_sound h fun s h => ?_ | assumption | apply modDrv_sound | apply occur_sound
    | refine ite_sound (fun _ => ?_) fun _ => ?_ | dsimp only | split | simp only [id_eq]

theorem execTTurnEnd_sound {a0} {t} (h : Sound q s) (e : (execTTurnEnd a0 s) = .next t) : Sound q t := by
  revert e
  unfold execTTurnEnd
  repeat' with_reducible first | refine whenever_sound h fun s h => ?_ | assumption | apply modDrv_sound | dsimp only

theorem floorTrd_sound {a1 a2 a3} (h : Sound q s) : Sound q (State.floorTrd s a1 a2 a3) := by
  unfold State.floorTrd
  repeat' with_reducible first
    | assumption | apply phaseMeasured_sound | apply modDrv_sound | refine foldl_sound ?_ fun t x ht => ?_
    | refine ite_sound (fun _ => ?_) fun _ => ?_ | dsimp only | split

theorem execVresFloor_sound {a0 a1} {t} (h : Sound q s) (e : (execVresFloor a0 a1 s) = .next t) : Sound q t := by
  revert e
  unfold execVresFloor
  repeat' with_reducible first
    | refine whenever_sound h fun s h => ?_ | assumption | apply drvFault_sound | apply floorTrd_sound
    | refine foldl_sound ?_ fun t x ht => ?_ | dsimp only

theorem execVresFastLimit_sound {a0} {t} (h : Sound q s) (e : (execVresFastLimit a0 s) = .next t) : Sound q t := by
  revert e
  unfold execVresFastLimit
  repeat' with_reducible first | refine whenever_sound h fun s h => ?_ | assumption | apply modDrv_sound | dsimp only

theorem execVresov_sound {t} (h : Sound q s) (e : (execVresov s) = .next t) : Sound q t := by
  revert e
  unfold execVresov
  repeat' with_reducible first | refine whenever_sound h fun s h => ?_ | assumption | apply drvFault_sound | dsimp only

theorem faultAll_sound {a1} (h : Sound q s) : Sound q (State.faultAll s a1) := by
  unfold State.faultAll
  repeat' with_reducible first
    | assumption | apply faultPulse_sound | refine foldl_sound ?_ fun t x ht => ?_ | dsimp only

theorem turnoffFail_sound {a1} (h : Sound q s) : Sound q (State.turnoffFail s a1) := by
  unfold State.turnoffFail
  repeat' with_reducible first
    | assumption | apply modDrv_sound | apply drvFault_sound | apply faultAll_sound | apply record_sound
    | refine ite_sound (fun _ => ?_) fun _ => ?_ | dsimp only | split

theorem execTurnoffTimeout_sound {a0} {t} (h : Sound q s) (e : (execTurnoffTimeout a0 s) = .next t) : Sound q t := by
  revert e
  unfold execTurnoffTimeout
  repeat' with_reducible first
    | refine whenever_sound h fun s h => ?_ | assumption | apply turnoffFail_sound | dsimp only

theorem execInterlockRelease_sound {a0} {t} (h : Sound q s) (e : (execInterlockRelease a0 s) = .next t) :
    Sound q t := by
  revert e
  unfold execInterlockRelease
  repeat' with_reducible first | refine whenever_sound h fun s h => ?_ | assumption | apply modDrv_sound | dsimp only

theorem execManualMode_sound {a0 a1} {t} (h : Sound q s) (e : (execManualMode a0 a1 s) = .next t) : Sound q t := by
  revert e
  unfold execManualMode
  repeat' with_reducible first
    | refine whenPowered_sound h fun s h => ?_ | assumption | apply writeBy_sound | dsimp only

theorem execSwitchControl_sound {a0 a1 a2} {t} (h : Sound q s) (e : (execSwitchControl a0 a1 a2 s) = .next t) :
    Sound q t := by
  revert e
  unfold execSwitchControl
  repeat' with_reducible first
    | refine whenPowered_sound h fun s h => ?_ | assumption | apply writeBy_sound | dsimp only

theorem execSwitchAutoOff_sound {t} (h : Sound q s) (e : (execSwitchAutoOff s) = .next t) : Sound q t := by
  revert e
  unfold execSwitchAutoOff
  repeat' with_reducible first | refine whenever_sound h fun s h => ?_ | assumption | apply modDrv_sound | dsimp only

theorem execOvercurrentTrip_sound {a0} {t} (h : Sound q s) (e : (execOvercurrentTrip a0 s) = .next t) : Sound q t := by
  revert e
  unfold execOvercurrentTrip
  repeat' with_reducible first
    | refine whenever_sound h fun s h => ?_ | assumption | apply faultAll_sound | apply drvFault_sound
    | apply modDrv_sound | refine ite_sound (fun _ => ?_) fun _ => ?_ | dsimp only | split

theorem execBootstrapPrechargeEnd_sound {a0 a1} {t} (h : Sound q s) (e :
    (execBootstrapPrechargeEnd a0 a1 s) = .next t) : Sound q t := by
  revert e
  unfold execBootstrapPrechargeEnd
  repeat' with_reducible first
    | refine whenever_sound h fun s h => ?_ | assumption | apply modDrv_sound | apply bootUv_sound
    | refine ite_sound (fun _ => ?_) fun _ => ?_ | dsimp only | split

theorem refresh_sound {a1 a2 a3} (h : Sound q s) : Sound q (State.refresh s a1 a2 a3) := by
  unfold State.refresh
  repeat' with_reducible first
    | assumption | apply modDrv_sound | apply occur_sound | apply bootUv_sound
    | refine ite_sound (fun _ => ?_) fun _ => ?_ | dsimp only | split

theorem execBootstrapRefresh_sound {a0 a1 a2} {t} (h : Sound q s) (e : (execBootstrapRefresh a0 a1 a2 s) = .next t) :
    Sound q t := by
  revert e
  unfold execBootstrapRefresh
  repeat' with_reducible first | refine whenever_sound h fun s h => ?_ | assumption | apply refresh_sound | dsimp only

theorem execBootstrapUvlo_sound {a0} {t} (h : Sound q s) (e : (execBootstrapUvlo a0 s) = .next t) : Sound q t := by
  revert e
  unfold execBootstrapUvlo
  repeat' with_reducible first
    | refine whenever_sound h fun s h => ?_ | assumption | apply bootUv_sound | apply modDrv_sound | dsimp only

theorem shutdown_sound (h : Sound q s) : Sound q (State.shutdown s) := by
  unfold State.shutdown
  repeat' with_reducible first
    | assumption | apply modDrv_sound | apply drvFault_sound | apply faultAll_sound | dsimp only

theorem execThermalShutdown_sound {t} (h : Sound q s) (e : (execThermalShutdown s) = .next t) : Sound q t := by
  revert e
  unfold execThermalShutdown
  repeat' with_reducible first | refine whenever_sound h fun s h => ?_ | assumption | apply shutdown_sound

theorem execThermalShutdownClear_sound {t} (h : Sound q s) (e : (execThermalShutdownClear s) = .next t) :
    Sound q t := by
  revert e
  unfold execThermalShutdownClear
  repeat' with_reducible first | refine whenever_sound h fun s h => ?_ | assumption | apply modDrv_sound | dsimp only

theorem holdLimit_sound {a1} (h : Sound q s) : Sound q (State.holdLimit s a1) := by
  unfold State.holdLimit
  repeat' with_reducible first
    | assumption | apply toEnd_sound | refine ite_sound (fun _ => ?_) fun _ => ?_ | dsimp only | split

theorem execCoilThermalTick_sound {a0 a1 a2} {t} (h : Sound q s) (e : (execCoilThermalTick a0 a1 a2 s) = .next t) :
    Sound q t := by
  revert e
  unfold execCoilThermalTick
  repeat' with_reducible first
    | refine whenever_sound h fun s h => ?_ | assumption | apply modDrv_sound | apply holdLimit_sound
    | refine foldl_sound ?_ fun t x ht => ?_ | dsimp only

theorem execOffstateTest_sound {a0 a1} {t} (h : Sound q s) (e : (execOffstateTest a0 a1 s) = .next t) : Sound q t := by
  revert e
  unfold execOffstateTest
  repeat' with_reducible first
    | refine whenPowered_sound h fun s h => ?_ | assumption | apply writeBy_sound | dsimp only

theorem execTestAll_sound {a0} {t} (h : Sound q s) (e : (execTestAll a0 s) = .next t) : Sound q t := by
  revert e
  unfold execTestAll
  repeat' with_reducible first
    | refine whenPowered_sound h fun s h => ?_ | assumption | apply writeBy_sound | dsimp only

theorem prediagDone_sound {a1 a2} (h : Sound q s) : Sound q (State.prediagDone s a1 a2) := by
  unfold State.prediagDone
  repeat' with_reducible first
    | assumption | apply modEntry_sound | apply endEntry_sound | refine ite_sound (fun _ => ?_) fun _ => ?_
    | dsimp only | split | simp only [id_eq]

theorem testDone_sound {a1 a2 a3} (h : Sound q s) : Sound q (State.testDone s a1 a2 a3) := by
  unfold State.testDone
  repeat' with_reducible first | assumption | apply modDrv_sound | apply prediagDone_sound | dsimp only | split

theorem execOffstateTestDone_sound {a0} {t} (h : Sound q s) (e : (execOffstateTestDone a0 s) = .next t) :
    Sound q t := by
  revert e
  unfold execOffstateTestDone
  repeat' with_reducible first
    | refine whenever_sound h fun s h => ?_ | assumption | apply testDone_sound | dsimp only | split
    | simp only [id_eq]

theorem execFlowDue_sound {a0} {t} (h : Sound q s) (e : (execFlowDue a0 s) = .next t) : Sound q t := by
  revert e
  unfold execFlowDue
  repeat' with_reducible first | refine whenever_sound h fun s h => ?_ | assumption | apply flowDue_sound | dsimp only

theorem execFlowPrewake_sound {a0} {t} (h : Sound q s) (e : (execFlowPrewake a0 s) = .next t) : Sound q t := by
  revert e
  unfold execFlowPrewake
  repeat' with_reducible first
    | refine whenever_sound h fun s h => ?_ | assumption | apply startIslands_sound | apply modFlow_sound | dsimp only

theorem execFlowStartRequest_sound {a0 a1} {t} (h : Sound q s) (e : (execFlowStartRequest a0 a1 s) = .next t) :
    Sound q t := by
  revert e
  unfold execFlowStartRequest
  repeat' with_reducible first
    | refine whenPowered_sound h fun s h => ?_ | assumption | apply writeBy_sound | dsimp only

theorem execFlowMeasurementStart_sound {t} (h : Sound q s) (e : (execFlowMeasurementStart s) = .next t) :
    Sound q t := by
  revert e
  unfold execFlowMeasurementStart
  repeat' with_reducible first
    | refine whenever_sound h fun s h => ?_ | assumption | apply flowStart_sound | dsimp only | split
    | simp only [id_eq]

theorem execFlowShot_sound {a0 a1} {t} (h : Sound q s) (e : (execFlowShot a0 a1 s) = .next t) : Sound q t := by
  revert e
  unfold execFlowShot
  repeat' with_reducible first
    | refine whenever_sound h fun s h => ?_ | assumption | apply flowShot_sound | apply atPhase_sound | dsimp only
    | split | simp only [id_eq]

theorem execFlowResultPost_sound {t} (h : Sound q s) (e : (execFlowResultPost s) = .next t) : Sound q t := by
  revert e
  unfold execFlowResultPost
  repeat' with_reducible first
    | refine whenever_sound h fun s h => ?_ | assumption | apply flowPost_sound | dsimp only | split
    | simp only [id_eq]

theorem execFlowZeroWrite_sound {a0 a1 a2} {t} (h : Sound q s) (e : (execFlowZeroWrite a0 a1 a2 s) = .next t) :
    Sound q t := by
  revert e
  unfold execFlowZeroWrite
  repeat' with_reducible first
    | refine whenPowered_sound h fun s h => ?_ | assumption | apply writeBy_sound | dsimp only

theorem execZeroCondition_sound {a0} {t} (h : Sound q s) (e : (execZeroCondition a0 s) = .next t) : Sound q t := by
  revert e
  unfold execZeroCondition
  repeat' with_reducible first | refine whenever_sound h fun s h => ?_ | assumption | apply modFlow_sound | dsimp only

theorem execPulseInputSample_sound {a0 a1} {t} (h : Sound q s) (e : (execPulseInputSample a0 a1 s) = .next t) :
    Sound q t := by
  revert e
  unfold execPulseInputSample
  repeat' with_reducible first
    | refine whenever_sound h fun s h => ?_ | assumption | apply pulseSample_sound | dsimp only

theorem execPulseCountWrite_sound {a0 a1 a2 a3} {t} (h : Sound q s) (e :
    (execPulseCountWrite a0 a1 a2 a3 s) = .next t) : Sound q t := by
  revert e
  unfold execPulseCountWrite
  repeat' with_reducible first
    | refine whenPowered_sound h fun s h => ?_ | assumption | apply writeBy_sound | apply pulseSample_sound
    | dsimp only | split

theorem execPressureSample_sound {a0 a1 a2} {t} (h : Sound q s) (e : (execPressureSample a0 a1 a2 s) = .next t) :
    Sound q t := by
  revert e
  unfold execPressureSample
  repeat' with_reducible first
    | refine whenever_sound h fun s h => ?_ | assumption | apply prsSample_sound | apply atPhase_sound | dsimp only

theorem trgWrite_sound {a1 a2 a3} (h : Sound q s) : Sound q (State.trgWrite s a1 a2 a3) := by
  unfold State.trgWrite
  repeat' with_reducible first | assumption | apply writeBy_sound

theorem execSpotReading_sound {a0 a1} {t} (h : Sound q s) (e : (execSpotReading a0 a1 s) = .next t) : Sound q t := by
  revert e
  unfold execSpotReading
  repeat' with_reducible first
    | refine whenPowered_sound h fun s h => ?_ | assumption | apply trgWrite_sound | dsimp only

theorem spotDone_sound {a1 a2} (h : Sound q s) : Sound q (State.spotDone s a1 a2) := by
  unfold State.spotDone
  repeat' with_reducible first
    | assumption | apply modLine_sound | apply event_sound | apply cmpFollow_sound | dsimp only

theorem execSpotReadingDone_sound {a0 a1} {t} (h : Sound q s) (e : (execSpotReadingDone a0 a1 s) = .next t) :
    Sound q t := by
  revert e
  unfold execSpotReadingDone
  repeat' with_reducible first | refine whenever_sound h fun s h => ?_ | assumption | apply spotDone_sound | dsimp only

theorem execComparatorSample_sound {a0 a1} {t} (h : Sound q s) (e : (execComparatorSample a0 a1 s) = .next t) :
    Sound q t := by
  revert e
  unfold execComparatorSample
  repeat' with_reducible first | refine whenever_sound h fun s h => ?_ | assumption | apply cmpEval_sound | dsimp only

theorem execComparatorTransition_sound {a0 a1 a2} {t} (h : Sound q s) (e :
    (execComparatorTransition a0 a1 a2 s) = .next t) : Sound q t := by
  revert e
  unfold execComparatorTransition
  repeat' with_reducible first
    | refine whenever_sound h fun s h => ?_ | assumption | apply cmpEval_sound | apply atPhase_sound | dsimp only

theorem execCaptureForce_sound {a0 a1 a2} {t} (h : Sound q s) (e : (execCaptureForce a0 a1 a2 s) = .next t) :
    Sound q t := by
  revert e
  unfold execCaptureForce
  repeat' with_reducible first
    | refine whenPowered_sound h fun s h => ?_ | assumption | apply trgWrite_sound | apply atPhase_sound | dsimp only

theorem execCaptureComplete_sound {a0} {t} (h : Sound q s) (e : (execCaptureComplete a0 s) = .next t) : Sound q t := by
  revert e
  unfold execCaptureComplete
  repeat' with_reducible first
    | refine whenever_sound h fun s h => ?_ | assumption | apply prsComplete_sound | dsimp only

theorem execCaptureRelease_sound {a0 a1} {t} (h : Sound q s) (e : (execCaptureRelease a0 a1 s) = .next t) :
    Sound q t := by
  revert e
  unfold execCaptureRelease
  repeat' with_reducible first
    | refine whenPowered_sound h fun s h => ?_ | assumption | apply trgWrite_sound | dsimp only

theorem execBlankWindowEnd_sound {a0} {t} (h : Sound q s) (e : (execBlankWindowEnd a0 s) = .next t) : Sound q t := by
  revert e
  unfold execBlankWindowEnd
  repeat' with_reducible first | refine whenever_sound h fun s h => ?_ | assumption | apply blankEnd_sound | dsimp only

theorem execComparatorConfigWrite_sound {a0 a1 a2} {t} (h : Sound q s) (e :
    (execComparatorConfigWrite a0 a1 a2 s) = .next t) : Sound q t := by
  revert e
  unfold execComparatorConfigWrite
  repeat' with_reducible first
    | refine whenPowered_sound h fun s h => ?_ | assumption | apply writeThrough_sound | dsimp only

theorem execComparatorTestWrite_sound {a0 a1} {t} (h : Sound q s) (e : (execComparatorTestWrite a0 a1 s) = .next t) :
    Sound q t := by
  revert e
  unfold execComparatorTestWrite
  repeat' with_reducible first
    | refine whenPowered_sound h fun s h => ?_ | assumption | apply writeThrough_sound | dsimp only

theorem coreReturn_sound (h : Sound q s) : Sound q (State.coreReturn s) := by
  unfold State.coreReturn
  repeat' with_reducible first
    | assumption | apply modSys_sound | refine ite_sound (fun _ => ?_) fun _ => ?_ | dsimp only | split

theorem execTempoStart_sound {t} (h : Sound q s) (e : (execTempoStart s) = .next t) : Sound q t := by
  revert e
  unfold execTempoStart
  repeat' with_reducible first
    | refine whenever_sound h fun s h => ?_ | assumption | apply modTmp_sound | apply coreSwitch_sound
    | refine ite_sound (fun _ => ?_) fun _ => ?_ | dsimp only | split

theorem execXt32StartTimeout_sound {t} (h : Sound q s) (e : (execXt32StartTimeout s) = .next t) : Sound q t := by
  revert e
  unfold execXt32StartTimeout
  repeat' with_reducible first | refine whenever_sound h fun s h => ?_ | assumption | apply modTmp_sound | dsimp only

theorem execXt32Fail_sound {t} (h : Sound q s) (e : (execXt32Fail s) = .next t) : Sound q t := by
  revert e
  unfold execXt32Fail
  repeat' with_reducible first
    | refine whenever_sound h fun s h => ?_ | assumption | apply modTmp_sound | apply coreFall_sound
    | refine ite_sound (fun _ => ?_) fun _ => ?_ | dsimp only | split

theorem execXt32Recover_sound {t} (h : Sound q s) (e : (execXt32Recover s) = .next t) : Sound q t := by
  revert e
  unfold execXt32Recover
  repeat' with_reducible first
    | refine whenever_sound h fun s h => ?_ | assumption | apply coreReturn_sound | apply modTmp_sound | dsimp only

theorem execTmpNowRead_sound {a0 a1 a2} {t} (h : Sound q s) (e : (execTmpNowRead a0 a1 a2 s) = .next t) :
    Sound q t := by
  revert e
  unfold execTmpNowRead
  repeat' with_reducible first
    | refine whenPowered_sound h fun s h => ?_ | assumption | apply readBy_sound | apply atPhase_sound | dsimp only

theorem execTmpOffsRead_sound {a0 a1} {t} (h : Sound q s) (e : (execTmpOffsRead a0 a1 s) = .next t) : Sound q t := by
  revert e
  unfold execTmpOffsRead
  repeat' with_reducible first | refine whenPowered_sound h fun s h => ?_ | assumption | apply readBy_sound | dsimp only

theorem execTmpOffsStage_sound {a0 a1} {t} (h : Sound q s) (e : (execTmpOffsStage a0 a1 s) = .next t) : Sound q t := by
  revert e
  unfold execTmpOffsStage
  repeat' with_reducible first
    | refine whenPowered_sound h fun s h => ?_ | assumption | apply writeThrough_sound | dsimp only

theorem execTmpOffsSet_sound {a0 a1} {t} (h : Sound q s) (e : (execTmpOffsSet a0 a1 s) = .next t) : Sound q t := by
  revert e
  unfold execTmpOffsSet
  repeat' with_reducible first
    | refine whenPowered_sound h fun s h => ?_ | assumption | apply writeThrough_sound | dsimp only

theorem execTimeSourceChange_sound {a0 a1} {t} (h : Sound q s) (e : (execTimeSourceChange a0 a1 s) = .next t) :
    Sound q t := by
  revert e
  unfold execTimeSourceChange
  repeat' with_reducible first
    | refine whenPowered_sound h fun s h => ?_ | assumption | apply writeThrough_sound | dsimp only

theorem execMatchArm_sound {a0 a1} {t} (h : Sound q s) (e : (execMatchArm a0 a1 s) = .next t) : Sound q t := by
  revert e
  unfold execMatchArm
  repeat' with_reducible first
    | refine whenPowered_sound h fun s h => ?_ | assumption | apply writeThrough_sound | dsimp only

theorem execMatchDisarm_sound {a0} {t} (h : Sound q s) (e : (execMatchDisarm a0 s) = .next t) : Sound q t := by
  revert e
  unfold execMatchDisarm
  repeat' with_reducible first
    | refine whenPowered_sound h fun s h => ?_ | assumption | apply writeThrough_sound | dsimp only

theorem fireMatch_sound (h : Sound q s) : Sound q (State.fireMatch s) := by
  unfold State.fireMatch
  repeat' with_reducible first
    | assumption | apply event_sound | apply modTmp_sound | apply blankStart_sound | apply latchPeriod_sound
    | dsimp only

theorem execTmpMatch_sound {t} (h : Sound q s) (e : (execTmpMatch s) = .next t) : Sound q t := by
  revert e
  unfold execTmpMatch
  repeat' with_reducible first | refine whenever_sound h fun s h => ?_ | assumption | apply fireMatch_sound

theorem ppsTake_sound (h : Sound q s) : Sound q (State.ppsTake s) := by
  unfold State.ppsTake
  repeat' with_reducible first
    | assumption | apply modTmp_sound | refine ite_sound (fun _ => ?_) fun _ => ?_ | dsimp only | split

theorem execPpsEdge_sound {a0} {t} (h : Sound q s) (e : (execPpsEdge a0 s) = .next t) : Sound q t := by
  revert e
  unfold execPpsEdge
  repeat' with_reducible first
    | refine whenever_sound h fun s h => ?_ | assumption | apply ppsTake_sound | apply atPhase_sound | dsimp only

theorem execTimeQualityTick_sound {t} (h : Sound q s) (e : (execTimeQualityTick s) = .next t) : Sound q t := by
  revert e
  unfold execTimeQualityTick
  repeat' with_reducible first
    | refine whenever_sound h fun s h => ?_ | assumption | apply startIslands_sound | apply localTick_sound
    | dsimp only

theorem execTraceLoss_sound {t} (h : Sound q s) (e : (execTraceLoss s) = .next t) : Sound q t := by
  revert e
  unfold execTraceLoss
  repeat' with_reducible first | refine whenever_sound h fun s h => ?_ | assumption | apply modTmp_sound | dsimp only

theorem execFrameReceive_sound {a0} {t} (h : Sound q s) (e : (execFrameReceive a0 s) = .next t) : Sound q t := by
  revert e
  unfold execFrameReceive
  repeat' with_reducible first | refine whenever_sound h fun s h => ?_ | assumption | apply rxFrame_sound | dsimp only

theorem execKeyup_sound {a0 a1} {t} (h : Sound q s) (e : (execKeyup a0 a1 s) = .next t) : Sound q t := by
  revert e
  unfold execKeyup
  repeat' with_reducible first
    | refine whenever_sound h fun s h => ?_ | assumption | apply keyUp_sound | apply sfdCapture_sound | dsimp only

theorem execLbtListenEnd_sound {a0 a1} {t} (h : Sound q s) (e : (execLbtListenEnd a0 a1 s) = .next t) : Sound q t := by
  revert e
  unfold execLbtListenEnd
  repeat' with_reducible first | refine whenever_sound h fun s h => ?_ | assumption | apply listenEnd_sound | dsimp only

theorem execDwellSubwindow_sound {t} (h : Sound q s) (e : (execDwellSubwindow s) = .next t) : Sound q t := by
  revert e
  unfold execDwellSubwindow
  repeat' with_reducible first | refine whenever_sound h fun s h => ?_ | assumption | apply modRad_sound | dsimp only

theorem execDwellConfig_sound {a0 a1} {t} (h : Sound q s) (e : (execDwellConfig a0 a1 s) = .next t) : Sound q t := by
  revert e
  unfold execDwellConfig
  repeat' with_reducible first
    | refine whenPowered_sound h fun s h => ?_ | assumption | apply writeBy_sound | dsimp only

theorem execRadioTest_sound {a0 a1} {t} (h : Sound q s) (e : (execRadioTest a0 a1 s) = .next t) : Sound q t := by
  revert e
  unfold execRadioTest
  repeat' with_reducible first
    | refine whenPowered_sound h fun s h => ?_ | assumption | apply writeBy_sound | dsimp only

theorem execSlotEvent_sound {t} (h : Sound q s) (e : (execSlotEvent s) = .next t) : Sound q t := by
  revert e
  unfold execSlotEvent
  repeat' with_reducible first | refine whenever_sound h fun s h => ?_ | assumption | apply event_sound | dsimp only

theorem execRadioPrewake_sound {t} (h : Sound q s) (e : (execRadioPrewake s) = .next t) : Sound q t := by
  revert e
  unfold execRadioPrewake
  repeat' with_reducible first
    | refine whenever_sound h fun s h => ?_ | assumption | apply startIslands_sound | apply modMacx_sound | dsimp only

theorem execSlotStart_sound {t} (h : Sound q s) (e : (execSlotStart s) = .next t) : Sound q t := by
  revert e
  unfold execSlotStart
  repeat' with_reducible first | refine whenever_sound h fun s h => ?_ | assumption | apply slotBegin_sound | dsimp only

theorem execSuperframeBoundary_sound {t} (h : Sound q s) (e : (execSuperframeBoundary s) = .next t) : Sound q t := by
  revert e
  unfold execSuperframeBoundary
  repeat' with_reducible first
    | refine whenever_sound h fun s h => ?_ | assumption | apply startIslands_sound | apply superframe_sound
    | dsimp only

theorem execAckTransmit_sound {a0 a1} {t} (h : Sound q s) (e : (execAckTransmit a0 a1 s) = .next t) : Sound q t := by
  revert e
  unfold execAckTransmit
  repeat' with_reducible first
    | refine whenever_sound h fun s h => ?_ | assumption | apply ackSend_sound | apply sfdCapture_sound | dsimp only
    | split | simp only [id_eq]

theorem execAckTimeout_sound {t} (h : Sound q s) (e : (execAckTimeout s) = .next t) : Sound q t := by
  revert e
  unfold execAckTimeout
  repeat' with_reducible first
    | refine whenever_sound h fun s h => ?_ | assumption | apply ackLost_sound | dsimp only | split
    | simp only [id_eq]

theorem execRxWindowTimeout_sound {t} (h : Sound q s) (e : (execRxWindowTimeout s) = .next t) : Sound q t := by
  revert e
  unfold execRxWindowTimeout
  repeat' with_reducible first | refine whenever_sound h fun s h => ?_ | assumption | apply rxLost_sound

theorem scanEnd_sound (h : Sound q s) : Sound q (State.scanEnd s) := by
  unfold State.scanEnd
  repeat' with_reducible first
    | assumption | apply modMac_sound | apply scanFrom_sound | apply setRad_sound | apply modMacx_sound
    | refine ite_sound (fun _ => ?_) fun _ => ?_ | dsimp only | split

theorem execScanCycleEnd_sound {t} (h : Sound q s) (e : (execScanCycleEnd s) = .next t) : Sound q t := by
  revert e
  unfold execScanCycleEnd
  repeat' with_reducible first | refine whenever_sound h fun s h => ?_ | assumption | apply scanEnd_sound

theorem execScanResume_sound {t} (h : Sound q s) (e : (execScanResume s) = .next t) : Sound q t := by
  revert e
  unfold execScanResume
  repeat' with_reducible first
    | refine whenever_sound h fun s h => ?_ | assumption | apply startIslands_sound | apply scanFrom_sound
    | dsimp only

theorem modeWrite_sound {a1 a2} (h : Sound q s) : Sound q (State.modeWrite s a1 a2) := by
  unfold State.modeWrite
  repeat' with_reducible first | assumption | apply writeBy_sound

theorem execMacModeOff_sound {a0} {t} (h : Sound q s) (e : (execMacModeOff a0 s) = .next t) : Sound q t := by
  revert e
  unfold execMacModeOff
  repeat' with_reducible first
    | refine whenPowered_sound h fun s h => ?_ | assumption | apply modeWrite_sound | dsimp only

theorem execMacModeNode_sound {a0} {t} (h : Sound q s) (e : (execMacModeNode a0 s) = .next t) : Sound q t := by
  revert e
  unfold execMacModeNode
  repeat' with_reducible first
    | refine whenPowered_sound h fun s h => ?_ | assumption | apply modeWrite_sound | dsimp only

theorem execMacModeRoot_sound {a0} {t} (h : Sound q s) (e : (execMacModeRoot a0 s) = .next t) : Sound q t := by
  revert e
  unfold execMacModeRoot
  repeat' with_reducible first
    | refine whenPowered_sound h fun s h => ?_ | assumption | apply modeWrite_sound | dsimp only

theorem linkWord_sound {i l f t} (h : Sound q s) (e : s.linkWord i l f = .next t) : Sound q t := by
  unfold State.linkWord at e
  exact whenever_sound h (fun _ h => writeBy_sound h) e

theorem execLinkListen_sound {a0 a1 t} (h : Sound q s) (e : execLinkListen a0 a1 s = .next t) : Sound q t := by
  unfold execLinkListen at e
  exact linkWord_sound h e

theorem execLinkActivate_sound {a0 a1 t} (h : Sound q s) (e : execLinkActivate a0 a1 s = .next t) : Sound q t := by
  unfold execLinkActivate at e
  exact linkWord_sound h e

theorem execLinkOff_sound {a0 a1 t} (h : Sound q s) (e : execLinkOff a0 a1 s = .next t) : Sound q t := by
  unfold execLinkOff at e
  exact linkWord_sound h e

theorem execLinkMapPend_sound {a0 a1 t} (h : Sound q s) (e : execLinkMapPend a0 a1 s = .next t) : Sound q t := by
  unfold execLinkMapPend at e
  exact linkWord_sound h e

theorem execMacTableWrite_sound {a0 a1} {t} (h : Sound q s) (e : (execMacTableWrite a0 a1 s) = .next t) :
    Sound q t := by
  revert e
  unfold execMacTableWrite
  repeat' with_reducible first
    | refine whenPowered_sound h fun s h => ?_ | assumption | apply writeBy_sound | dsimp only

theorem execAsnRead_sound {a0 a1} {t} (h : Sound q s) (e : (execAsnRead a0 a1 s) = .next t) : Sound q t := by
  revert e
  unfold execAsnRead
  repeat' with_reducible first | refine whenPowered_sound h fun s h => ?_ | assumption | apply readBy_sound | dsimp only

theorem keyWrite_sound {a1 a2 a3 a4 a5} (h : Sound q s) : Sound q (State.keyWrite s a1 a2 a3 a4 a5) := by
  unfold State.keyWrite
  repeat' with_reducible first | assumption | apply writeBy_sound

theorem execUnwrap_sound {a0 a1 a2} {t} (h : Sound q s) (e : (execUnwrap a0 a1 a2 s) = .next t) : Sound q t := by
  revert e
  unfold execUnwrap
  repeat' with_reducible first
    | refine whenPowered_sound h fun s h => ?_ | assumption | apply keyWrite_sound | dsimp only

theorem execErase_sound {a0 a1} {t} (h : Sound q s) (e : (execErase a0 a1 s) = .next t) : Sound q t := by
  revert e
  unfold execErase
  repeat' with_reducible first
    | refine whenPowered_sound h fun s h => ?_ | assumption | apply keyWrite_sound | dsimp only

theorem execBind_sound {a0 a1 a2} {t} (h : Sound q s) (e : (execBind a0 a1 a2 s) = .next t) : Sound q t := by
  revert e
  unfold execBind
  repeat' with_reducible first
    | refine whenPowered_sound h fun s h => ?_ | assumption | apply keyWrite_sound | dsimp only

theorem execKeystoreCommitDone_sound {a0} {t} (h : Sound q s) (e : (execKeystoreCommitDone a0 s) = .next t) :
    Sound q t := by
  revert e
  unfold execKeystoreCommitDone
  repeat' with_reducible first
    | refine whenever_sound h fun s h => ?_ | assumption | apply keyCommitDone_sound | dsimp only

theorem service_sound {i} {f : State → Fin 4 → State} (hf : ∀ t, Sound q t → Sound q (f t i)) (h : Sound q s) :
    Sound q (s.service i f) := by
  unfold State.service
  split
  · exact interrupt_sound h
  · exact hf _ h

theorem execSha256_sound {i t} (h : Sound q s) (e : execSha256 i s = .next t) : Sound q t := by
  unfold execSha256 at e
  exact whenever_sound h (fun _ h => service_sound (fun _ => svcSha_sound) h) e

theorem execEcdsaVerify_sound {i t} (h : Sound q s) (e : execEcdsaVerify i s = .next t) : Sound q t := by
  unfold execEcdsaVerify at e
  exact whenever_sound h (fun _ h => service_sound (fun _ => svcVerify_sound) h) e

theorem execEcdhGen_sound {i t} (h : Sound q s) (e : execEcdhGen i s = .next t) : Sound q t := by
  unfold execEcdhGen at e
  exact whenever_sound h (fun _ h => service_sound (fun _ => svcGen_sound) h) e

theorem execEcdhSlot_sound {i t} (h : Sound q s) (e : execEcdhSlot i s = .next t) : Sound q t := by
  unfold execEcdhSlot at e
  exact whenever_sound h (fun _ h => service_sound (fun _ => svcSlot_sound) h) e

theorem execTrngRead_sound {a0 a1} {t} (h : Sound q s) (e : (execTrngRead a0 a1 s) = .next t) : Sound q t := by
  revert e
  unfold execTrngRead
  repeat' with_reducible first | refine whenPowered_sound h fun s h => ?_ | assumption | apply readBy_sound | dsimp only

theorem execEntropyFailure_sound {t} (h : Sound q s) (e : (execEntropyFailure s) = .next t) : Sound q t := by
  revert e
  unfold execEntropyFailure
  repeat' with_reducible first | refine whenever_sound h fun s h => ?_ | assumption | apply modSec_sound | dsimp only

theorem lifeKeyed_sound {a1 a2} (h : Sound q s) : Sound q (State.lifeKeyed s a1 a2) := by
  unfold State.lifeKeyed
  repeat' with_reducible first | assumption | apply writeBy_sound

theorem execLifecycleTransition_sound {a0 a1} {t} (h : Sound q s) (e : (execLifecycleTransition a0 a1 s) = .next t) :
    Sound q t := by
  revert e
  unfold execLifecycleTransition
  repeat' with_reducible first
    | refine whenPowered_sound h fun s h => ?_ | assumption | apply lifeKeyed_sound | dsimp only

theorem execDbglock_sound {a0} {t} (h : Sound q s) (e : (execDbglock a0 s) = .next t) : Sound q t := by
  revert e
  unfold execDbglock
  repeat' with_reducible first
    | refine whenPowered_sound h fun s h => ?_ | assumption | apply lifeKeyed_sound | dsimp only

theorem burnLand_sound {a1} (h : Sound q s) : Sound q (State.burnLand s a1) := by
  unfold State.burnLand
  repeat' with_reducible first
    | assumption | apply land_sound | refine foldl_sound ?_ fun t x ht => ?_
    | refine ite_sound (fun _ => ?_) fun _ => ?_ | dsimp only | split

theorem execFuseBurnDone_sound {t} (h : Sound q s) (e : (execFuseBurnDone s) = .next t) : Sound q t := by
  revert e
  unfold execFuseBurnDone
  repeat' with_reducible first
    | refine whenever_sound h fun s h => ?_ | assumption | apply burnLand_sound | apply burnDone_sound | dsimp only
    | split | simp only [id_eq]

theorem execRollbackBurn_sound {a0 a1} {t} (h : Sound q s) (e : (execRollbackBurn a0 a1 s) = .next t) : Sound q t := by
  revert e
  unfold execRollbackBurn
  repeat' with_reducible first
    | refine whenPowered_sound h fun s h => ?_ | assumption | apply writeBy_sound | dsimp only

theorem execRollbackBurnDone_sound {t} (h : Sound q s) (e : (execRollbackBurnDone s) = .next t) : Sound q t := by
  revert e
  unfold execRollbackBurnDone
  repeat' with_reducible first
    | refine whenever_sound h fun s h => ?_ | assumption | apply burnLand_sound | apply rollbackDone_sound
    | dsimp only | split | simp only [id_eq]

theorem execOtpProgram_sound {a0 a1} {t} (h : Sound q s) (e : (execOtpProgram a0 a1 s) = .next t) : Sound q t := by
  revert e
  unfold execOtpProgram
  repeat' with_reducible first
    | refine whenPowered_sound h fun s h => ?_ | assumption | apply otpProgram_sound | dsimp only

theorem execDebugChallenge_sound {a0} {t} (h : Sound q s) (e : (execDebugChallenge a0 s) = .next t) : Sound q t := by
  revert e
  unfold execDebugChallenge
  repeat' with_reducible first
    | refine whenPowered_sound h fun s h => ?_ | assumption | apply debugWrite_sound | dsimp only

theorem execDebugChallengeRead_sound {t} (h : Sound q s) (e : (execDebugChallengeRead s) = .next t) : Sound q t := by
  revert e
  unfold execDebugChallengeRead
  repeat' with_reducible first
    | refine whenPowered_sound h fun s h => ?_ | assumption | apply debugRead_sound | dsimp only

theorem execDebugResponseWord_sound {a0} {t} (h : Sound q s) (e : (execDebugResponseWord a0 s) = .next t) :
    Sound q t := by
  revert e
  unfold execDebugResponseWord
  repeat' with_reducible first
    | refine whenPowered_sound h fun s h => ?_ | assumption | apply debugWrite_sound | dsimp only

theorem execDebugVerify_sound {t} (h : Sound q s) (e : (execDebugVerify s) = .next t) : Sound q t := by
  revert e
  unfold execDebugVerify
  repeat' with_reducible first | refine whenever_sound h fun s h => ?_ | assumption | apply dbgVerify_sound

theorem execDebugHalt_sound {a0} {t} (h : Sound q s) (e : (execDebugHalt a0 s) = .next t) : Sound q t := by
  revert e
  unfold execDebugHalt
  repeat' with_reducible first
    | refine whenever_sound h fun s h => ?_ | assumption | apply modSh_sound | apply coreStart_sound | dsimp only

theorem execDebugResume_sound {a0} {t} (h : Sound q s) (e : (execDebugResume a0 s) = .next t) : Sound q t := by
  revert e
  unfold execDebugResume
  repeat' with_reducible first
    | refine whenever_sound h fun s h => ?_ | assumption | apply modSh_sound | apply coreStart_sound | dsimp only

theorem execGatherTransfer_sound {a0} {t} (h : Sound q s) (e : (execGatherTransfer a0 s) = .next t) : Sound q t := by
  revert e
  unfold execGatherTransfer
  repeat' with_reducible first | refine whenPowered_sound h fun s h => ?_ | assumption | apply gather_sound | dsimp only

theorem execPrfFreeze_sound {a0 a1} {t} (h : Sound q s) (e : (execPrfFreeze a0 a1 s) = .next t) : Sound q t := by
  revert e
  unfold execPrfFreeze
  repeat' with_reducible first
    | refine whenPowered_sound h fun s h => ?_ | assumption | apply writeBy_sound | dsimp only

theorem execPrfSelectWrite_sound {a0 a1 a2} {t} (h : Sound q s) (e : (execPrfSelectWrite a0 a1 a2 s) = .next t) :
    Sound q t := by
  revert e
  unfold execPrfSelectWrite
  repeat' with_reducible first
    | refine whenPowered_sound h fun s h => ?_ | assumption | apply writeBy_sound | dsimp only

theorem execChainStrapSample_sound {a0} {t} (h : Sound q s) (e : (execChainStrapSample a0 s) = .next t) :
    Sound q t := by
  revert e
  unfold execChainStrapSample
  repeat' with_reducible first
    | refine whenever_sound h fun s h => ?_ | assumption | apply strapSample_sound | dsimp only

theorem execEnumReq_sound {a0} {t} (h : Sound q s) (e : (execEnumReq a0 s) = .next t) : Sound q t := by
  revert e
  unfold execEnumReq
  repeat' with_reducible first
    | refine whenPowered_sound h fun s h => ?_ | assumption | refine linkFrame_sound (fun t ht => ?_) ?_
    | apply enumRequest_sound | dsimp only

theorem execEnumAns_sound {a0 a1 a2} {t} (h : Sound q s) (e : (execEnumAns a0 a1 a2 s) = .next t) : Sound q t := by
  revert e
  unfold execEnumAns
  repeat' with_reducible first
    | refine whenPowered_sound h fun s h => ?_ | assumption | refine linkFrame_sound (fun t ht => ?_) ?_
    | apply enumAnswer_sound | dsimp only

theorem execHwmsg_sound {a0 a1 a2} {t} (h : Sound q s) (e : (execHwmsg a0 a1 a2 s) = .next t) : Sound q t := by
  revert e
  unfold execHwmsg
  repeat' with_reducible first
    | refine whenPowered_sound h fun s h => ?_ | assumption | refine linkFrame_sound (fun t ht => ?_) ?_
    | apply hwFrame_sound | dsimp only

theorem execChainProbe_sound {a0} {t} (h : Sound q s) (e : (execChainProbe a0 s) = .next t) : Sound q t := by
  revert e
  unfold execChainProbe
  repeat' with_reducible first | refine whenever_sound h fun s h => ?_ | assumption | apply modLnk_sound | dsimp only

theorem execRead_sound {a0 a1 a2} {t} (h : Sound q s) (e : (execRead a0 a1 a2 s) = .next t) : Sound q t := by
  revert e
  unfold execRead
  repeat' with_reducible first
    | refine whenPowered_sound h fun s h => ?_ | assumption | refine linkFrame_sound (fun t ht => ?_) ?_
    | apply memberRead_sound | dsimp only

theorem execWrite_sound {a0 a1 a2 a3} {t} (h : Sound q s) (e : (execWrite a0 a1 a2 a3 s) = .next t) : Sound q t := by
  revert e
  unfold execWrite
  repeat' with_reducible first
    | refine whenPowered_sound h fun s h => ?_ | assumption | refine linkFrame_sound (fun t ht => ?_) ?_
    | apply memberWrite_sound | dsimp only

theorem execRdata_sound {a0 a1 a2 a3} {t} (h : Sound q s) (e : (execRdata a0 a1 a2 a3 s) = .next t) : Sound q t := by
  revert e
  unfold execRdata
  repeat' with_reducible first
    | refine whenPowered_sound h fun s h => ?_ | assumption | refine linkFrame_sound (fun t ht => ?_) ?_
    | apply rdataFrame_sound | dsimp only

theorem execWack_sound {a0 a1 a2} {t} (h : Sound q s) (e : (execWack a0 a1 a2 s) = .next t) : Sound q t := by
  revert e
  unfold execWack
  repeat' with_reducible first
    | refine whenPowered_sound h fun s h => ?_ | assumption | refine linkFrame_sound (fun t ht => ?_) ?_
    | apply wackFrame_sound | dsimp only

theorem execRemoteAccessTimeout_sound {t} (h : Sound q s) (e : (execRemoteAccessTimeout s) = .next t) : Sound q t := by
  revert e
  unfold execRemoteAccessTimeout
  repeat' with_reducible first | refine whenever_sound h fun s h => ?_ | assumption | apply remoteTimeout_sound

theorem execTxboxWrite_sound {a0 a1} {t} (h : Sound q s) (e : (execTxboxWrite a0 a1 s) = .next t) : Sound q t := by
  revert e
  unfold execTxboxWrite
  repeat' with_reducible first
    | refine whenPowered_sound h fun s h => ?_ | assumption | apply writeBy_sound | dsimp only

theorem execSend_sound {a0} {t} (h : Sound q s) (e : (execSend a0 s) = .next t) : Sound q t := by
  revert e
  unfold execSend
  repeat' with_reducible first
    | refine whenPowered_sound h fun s h => ?_ | assumption | apply writeBy_sound | dsimp only

theorem execFlush_sound {a0} {t} (h : Sound q s) (e : (execFlush a0 s) = .next t) : Sound q t := by
  revert e
  unfold execFlush
  repeat' with_reducible first
    | refine whenPowered_sound h fun s h => ?_ | assumption | apply writeBy_sound | dsimp only

theorem execMsg_sound {a0 a1 a2 a3} {t} (h : Sound q s) (e : (execMsg a0 a1 a2 a3 s) = .next t) : Sound q t := by
  revert e
  unfold execMsg
  repeat' with_reducible first
    | refine whenPowered_sound h fun s h => ?_ | assumption | refine linkFrame_sound (fun t ht => ?_) ?_
    | apply msgFrame_sound | dsimp only

theorem execMack_sound {a0 a1 a2 a3} {t} (h : Sound q s) (e : (execMack a0 a1 a2 a3 s) = .next t) : Sound q t := by
  revert e
  unfold execMack
  repeat' with_reducible first
    | refine whenPowered_sound h fun s h => ?_ | assumption | refine linkFrame_sound (fun t ht => ?_) ?_
    | apply mackFrame_sound | dsimp only

theorem execMailboxLost_sound {t} (h : Sound q s) (e : (execMailboxLost s) = .next t) : Sound q t := by
  revert e
  unfold execMailboxLost
  repeat' with_reducible first | refine whenever_sound h fun s h => ?_ | assumption | apply sendEnds_sound | dsimp only

theorem execRxboxRead_sound {a0 a1} {t} (h : Sound q s) (e : (execRxboxRead a0 a1 s) = .next t) : Sound q t := by
  revert e
  unfold execRxboxRead
  repeat' with_reducible first | refine whenPowered_sound h fun s h => ?_ | assumption | apply readBy_sound | dsimp only

theorem execSyncPulse_sound {a0} {t} (h : Sound q s) (e : (execSyncPulse a0 s) = .next t) : Sound q t := by
  revert e
  unfold execSyncPulse
  repeat' with_reducible first
    | refine whenever_sound h fun s h => ?_ | assumption | apply syncPulse_sound | apply atPhase_sound | dsimp only

theorem execSyncEdge_sound {a0} {t} (h : Sound q s) (e : (execSyncEdge a0 s) = .next t) : Sound q t := by
  revert e
  unfold execSyncEdge
  repeat' with_reducible first
    | refine whenever_sound h fun s h => ?_ | assumption | apply syncEdge_sound | apply atPhase_sound | dsimp only

theorem execTime_sound {a0 a1 a2} {t} (h : Sound q s) (e : (execTime a0 a1 a2 s) = .next t) : Sound q t := by
  revert e
  unfold execTime
  repeat' with_reducible first
    | refine whenPowered_sound h fun s h => ?_ | assumption | refine linkFrame_sound (fun t ht => ?_) ?_
    | apply timeFrame_sound | dsimp only

theorem execSyncPairTimeout_sound {t} (h : Sound q s) (e : (execSyncPairTimeout s) = .next t) : Sound q t := by
  revert e
  unfold execSyncPairTimeout
  repeat' with_reducible first
    | refine whenever_sound h fun s h => ?_ | assumption | apply syncError_sound | apply modLnk_sound | dsimp only

theorem execLinkTimeout_sound {t} (h : Sound q s) (e : (execLinkTimeout s) = .next t) : Sound q t := by
  revert e
  unfold execLinkTimeout
  repeat' with_reducible first
    | refine whenever_sound h fun s h => ?_ | assumption | apply chainEvent_sound | apply modLnk_sound | dsimp only

theorem levelCounts_sound (h : Sound q s) : Sound q (State.levelCounts s) := by
  unfold State.levelCounts
  repeat' with_reducible first
    | assumption | apply count_sound | refine ite_sound (fun _ => ?_) fun _ => ?_ | dsimp only | split
    | apply Sound.memory | apply Sound.queue | refine mk_sound ?_ ?_

theorem romRequests_sound (h : Sound q s) : Sound q (State.romRequests s) := by
  unfold State.romRequests
  repeat' with_reducible first
    | assumption | apply modSys_sound | refine ite_sound (fun _ => ?_) fun _ => ?_ | dsimp only | split

theorem period_sound (h : Sound q s) : Sound q (State.period s) := by
  unfold State.period
  repeat' with_reducible first
    | assumption | apply levelCounts_sound | apply romRequests_sound | apply modSys_sound | apply modPrs_sound
    | apply modTmp_sound | apply modLnk_sound | refine ite_sound (fun _ => ?_) fun _ => ?_ | dsimp only | split

end Sys2Proof.Machine
end

