-- ==== Sys2Proof/WellFormed.lean ====
section
/-!
DEFINITION. The commands whose operands lie in the ranges that the spec gives them. Operands whose type is already the
spec's range need no check.
-/

namespace Sys2Proof

/-- An instant inside an XT32 period: the ring counts no more to the next edge than over a whole period (R350). -/
def phaseOk (ph : Ring) : Bool := decide (ph.na ≤ ph.nb) && decide (0 < ph.nb)

/-- A power that the RSSI can state, dBm (R380). -/
def rssiOk (v : Int) : Bool := decide (-125 ≤ v) && decide (v ≤ -10)

/-- Well-formed commands: instants inside a period (R350), one reading per valve for the samples that concern all 24 (R71,
R287), 16 samples of a spot reading (R326), 1 to 8 words of a message (R515), a position up to 31 (R511), a peak time that
fits its field (R249), a frame with as many octets as its PHR states (R371), an RSSI in its range (R380), a word of the OTP
window (R461). -/
def Instr.wf : Instr → Bool
  | .stamp _ _ _ ph => phaseOk ph
  | .euseUpdate _ drawn => drawn.length == 24
  | .startPointScan _ drawn => drawn.length == 24
  | .boostEnd _ tpeak => decide (tpeak < 65536)
  | .pulseEnd _ _ ph => phaseOk ph
  | .coilThermalTick _ meanMa rm => meanMa.length == 24 && rm.length == 24
  | .flowShot _ ph => phaseOk ph
  | .pressureSample _ _ ph => phaseOk ph
  | .spotReadingDone _ uv => uv.length == 16
  | .comparatorTransition _ _ ph => phaseOk ph
  | .captureForce _ _ ph => phaseOk ph
  | .tmpNowRead _ _ ph => phaseOk ph
  | .ppsEdge ph => phaseOk ph
  | .frameReceive f => phaseOk f.sfd && decide (f.rate < 3) && f.octets.length == f.phr.toNat % 2048 && rssiOk f.rssi
  | .keyup sfd _ => phaseOk sfd
  | .ackTransmit sfd _ => phaseOk sfd
  | .lbtListenEnd rssi _ => rssiOk rssi
  | .otpProgram off _ => decide (off % 4 = 0) && decide (off < 4096)
  | .chainProbe answering => decide (answering ≤ 31)
  | .msg _ _ _ ws => !ws.isEmpty && decide (ws.length ≤ 8)
  | .syncPulse ph => phaseOk ph
  | .syncEdge ph => phaseOk ph
  | .add .. | .sub .. | .and .. | .or .. | .xor .. | .shl .. | .shr .. | .sra .. | .slt .. | .sltu .. | .min ..
  | .max .. | .minu .. | .maxu .. | .clz .. | .popc .. | .adds .. | .subs .. | .mul .. | .mulh .. | .mulhu ..
  | .div .. | .divu .. | .rem .. | .remu .. | .macs .. | .macu .. | .accclr .. | .addi .. | .andi .. | .ori ..
  | .xori .. | .slti .. | .shli .. | .shri .. | .srai .. | .lui .. | .ldw .. | .ldh .. | .ldhu .. | .ldb ..
  | .ldbu .. | .ldd .. | .stw .. | .sth .. | .stb .. | .std .. | .beq .. | .bne .. | .blt .. | .bge .. | .bltu ..
  | .bgeu .. | .jal .. | .jalr .. | .wait .. | .waitComplete .. | .post .. | .trap .. | .eret .. | .fence ..
  | .fenceComplete .. | .csrr .. | .csrw .. | .halt .. | .drv .. | .snap .. | .commit .. | .crc ..
  | .interruptEntry .. | .shuttleStart .. | .shuttleDisable .. | .issueTableApply | .coreClockRequest ..
  | .coreClockSwitch | .xo32mStop | .coreClockRestart | .xo32mStable | .islandStop .. | .crossingTimeout ..
  | .postedWriteComplete .. | .registerWrite .. | .engVecbaseWrite .. | .softwareReset .. | .wdogConfig ..
  | .wdogKick .. | .wdogTimeout | .coldStart .. | .brownoutReset | .pinReset | .debugReset | .bootHandover ..
  | .writeBufferEntryWrite | .eccInjectRequest .. | .scrubRead .. | .pcommitImmediate .. | .pcommitArm ..
  | .persistBoundaryTick | .persistCommitComplete | .cellMeasurement .. | .chargeTimerExpiry | .lastact
  | .lastactNextClose | .lastactCloseSkip | .lastactDeadline .. | .lastactCutoff | .resetHoldEnd ..
  | .lastactThresholdWrite .. | .focvSampleStart .. | .focvSample .. | .nrgBoundaryTick .. | .tegTakeover
  | .pvOvervoltage | .pvOvervoltageClear | .dcSupplyLoss | .dcSupplyRestore | .cellUvCutoff .. | .cellReconnect ..
  | .cellOvercurrentTrip | .cellSwitchReclose | .boostStart | .boostStop | .referenceRefresh | .shipModeEnter ..
  | .reservoirDischarge .. | .driveCommand .. | .cancel .. | .release .. | .admitWaitExpiry .. | .boostTimeout ..
  | .peakEnd .. | .holdEnd .. | .endTimeout .. | .chopPeriod .. | .tTurnEnd .. | .vresFloor .. | .drvResultRead ..
  | .valveTableWrite .. | .turnoffTimeout .. | .interlockRelease .. | .manualMode .. | .switchControl ..
  | .switchAutoOff | .bootstrapPrechargeEnd .. | .bootstrapRefresh .. | .bootstrapUvlo .. | .overcurrentTrip ..
  | .vresFastLimit .. | .vresov | .thermalShutdown | .thermalShutdownClear | .thermalWaitExpiry ..
  | .offstateTest .. | .testAll .. | .offstateTestDone .. | .flowDue .. | .flowPrewake .. | .flowStartRequest ..
  | .flowMeasurementStart | .flowResultPost | .flowZeroWrite .. | .pulseInputSample .. | .pulseCountWrite ..
  | .spotReading .. | .comparatorSample .. | .captureComplete .. | .captureRelease .. | .blankWindowEnd ..
  | .comparatorConfigWrite .. | .comparatorTestWrite .. | .tempoStart | .xt32StartTimeout | .xt32Fail
  | .xt32Recover | .tmpOffsRead .. | .tmpOffsStage .. | .tmpOffsSet .. | .timeSourceChange .. | .matchArm ..
  | .matchDisarm .. | .tmpMatch | .timeQualityTick | .dwellSubwindow | .dwellConfig ..
  | .radioTest .. | .slotEvent | .radioPrewake | .slotStart | .superframeBoundary | .ackTimeout
  | .rxWindowTimeout | .scanCycleEnd | .scanResume | .macModeOff .. | .macModeNode .. | .macModeRoot ..
  | .linkListen .. | .linkActivate .. | .linkOff .. | .linkMapPend .. | .macTableWrite .. | .asnRead ..
  | .unwrap .. | .erase .. | .bind .. | .keystoreCommitDone .. | .sha256 .. | .ecdsaVerify .. | .ecdhGen ..
  | .ecdhSlot .. | .trngRead .. | .entropyFailure | .lifecycleTransition .. | .dbglock .. | .fuseBurnDone
  | .rollbackBurn .. | .debugChallenge .. | .debugChallengeRead | .debugResponseWord .. | .debugVerify
  | .debugHalt .. | .debugResume .. | .gatherTransfer .. | .prfFreeze .. | .prfSelectWrite ..
  | .chainStrapSample .. | .enumReq .. | .enumAns .. | .hwmsg .. | .read .. | .write .. | .rdata .. | .wack ..
  | .remoteAccessTimeout | .txboxWrite .. | .send .. | .flush .. | .mack .. | .mailboxLost | .rxboxRead ..
  | .time .. | .syncPairTimeout | .linkTimeout | .zeroCondition .. | .coilCurrentSample .. | .tegSampleEnd ..
  | .traceLoss | .rollbackBurnDone | .vresDischarged => true

end Sys2Proof
end

