-- ==== Sys2Proof/Tests/Slice0.lean ====
section
/-!
SUPPORT. Tests of single commands on small states, the well-formedness checks, and for each statement with hypotheses a
concrete state that meets them.
-/

open Sys2Proof Sys2Proof.Machine

namespace Sys2Proof.Tests

set_option Elab.async false

/-! ## States -/

def s0 : State := State.reset
def user : State := s0.modSh 0 fun x => { x with prv := true }
def inexc : State := s0.modSh 0 fun x => { x with inexc := true }
def latched : State := s0.modSh 0 fun x => { x with wpend := 0x8001 }
def waits : State := s0.modSh 0 fun x => { x with run := .wait, waitMask := 0x8000 }
def waiting : State := waits.modSh 0 fun x => { x with wpend := 0x8000 }
def asleep : State := { waiting with eng := { waiting.eng with stopped := true } }
def posting : State := s0.modSys fun x => { x with posted := [{ init := .shuttle 0, addr := 0x40003004, val := 0x5F }] }
def failing : State := s0.modSys fun x => { x with failed := [{ init := .shuttle 0, addr := 4, cause := 0xB }] }
def fencing : State := s0.modSh 0 fun x => { x with run := .busy, busyOn := some .fence }
def fenced : State := posting.modSh 0 fun x => { x with run := .busy, busyOn := some .fence }
def irq : State :=
  let t := s0.modSh 0 fun x => { x with ie := true, ien := 0x8000 }
  { t with eng := { t.eng with evpend := 0x8000 } }
def withReg (s : State) (a : Word) : State := s.modSh 0 fun x => { x with w := x.w.set 1 a }
def at20 : State := withReg s0 0x20000000
def at08 : State := withReg s0 0x08000000
def at60 : State := withReg user 0x60000000
def guarded : State := withReg { user with
  eng := { user.eng with mpuctl := 0x10, mpu := user.eng.mpu.set 0 ((Vector.replicate 8 0).set 0 0x18C) } } 0x20000000
def entry (k : Nat) : WbEntry := { word := 0x08000000 + 8 * k, data := 1, mask := 1, owners := 1, inj := 0 }
def full : State := { at08 with mem := { s0.mem with wbuf := [entry 1, entry 2, entry 3, entry 4] } }
def dmi : State := s0.modSys fun x => { x with xoRun := true, runDmi := true }
def rad : State := s0.modSys fun x => { x with xoRun := true, runRad := true }
def allOn : State := s0.modSys fun x => { x with xoRun := true, runDmi := true, runRad := true }
def running : State := allOn.modSys fun x => { x with power := .run }
def moving : State := dmi.modSys fun x => { x with src := 2 }
def member : State := { s0 with lnk := { s0.lnk with valid := true, head := false, pos := 3, sampled := true } }
def wdog : State := s0.modSys fun x => { x with wdogEn := true }
def up : PowerUp := { source := .panel, cellMv := 0, mpsetPv := some 40, mpsetTeg := none, tcxo := false }
def tick : State := { s0 with tmp := { s0.tmp with counting := true } }
def spoilt : State := { tick with mem := { s0.mem with ecc := [(0x20000000, 2)] } }
def persist : State := { tick with armed := 0x100 }
def persist1 : State := { persist with mem := { s0.mem with pendSeq := some 7 } }
def persist2 : State := { persist with mem := { s0.mem with pendSeq := some 7, busy := some 6 } }
def committing : State := { s0 with mem := { s0.mem with busy := some 7 } }
def spoiltBank : State := { s0 with mem := { s0.mem with busy := some 7, ecc := [(0x081F0000, 2)] } }

def lost : State := s0.modSh 0 fun x => { x with pc := 0x20000000 }
def waitingIrq : State :=
  let t := waiting.modSh 0 fun x => { x with ie := true, ien := 0x8000 }
  { t with eng := { t.eng with evpend := 0x8000 } }
def irqQuiet : State := { irq with prf := { irq.prf with cycen := false } }
def irqWait : State := irq.modSh 0 fun x => { x with run := .wait }
def refilled : State := fencing.modSh 0 fun x => { x with restart := true }
def memberOn : State := { dmi with lnk := member.lnk }

/-! Energy and the last act -/

def dc : State := { tick with nrg := { s0.nrg with dcMode := true } }
def charging : State := { s0 with nrg := { s0.nrg with chg := .precharge, protReg := 0x50 } }
def boosting : State := { s0 with nrg := { s0.nrg with refOk := true } }
def closed : State := { tick with drv := { s0.drv with vstate := Vector.replicate 24 .closed } }
def due : State := { s0 with nrgx := { s0.nrgx with laArmed := true, laCount := 4 } }
def sequencing : State := { dmi with
  drv := { s0.drv with seqMode := .last }, nrgx := { s0.nrgx with laState := .closing }, nrg := { s0.nrg with euse := 0xFFFF } }
def starved : State := { dmi with drv := { s0.drv with seqMode := .last }, nrgx := { s0.nrgx with laState := .closing } }
def acting : State := { s0 with nrgx := { s0.nrgx with laState := .commitWait } }
def ended : State := { s0 with nrgx := { s0.nrgx with laState := .commitWait, deadline := true } }

def headerBegun : State := { acting with mem := { acting.mem with busy := some 7 } }

/-! The drive -/

def onTreadle (k : Fin 3) (t : Treadle) : State := { dmi with drv := { s0.drv with trd := s0.drv.trd.set k t } }
def held : State := { dmi with drv := { s0.drv with trdcfg := #v[0x10FA0, 0xFA0, 0xFA0] } }
def opening : QEntry := { (default : QEntry) with valve := 0, profile := 0, waiting := true, deferred := true }
def closeOf (v : Fin 24) : QEntry := { (default : QEntry) with valve := v, profile := 1 }
def queued : State := onTreadle 0 { Treadle.reset with queue := [opening] }
def closing : State := { onTreadle 0 { Treadle.reset with queue := [closeOf 0] } with nrg := { s0.nrg with euse := 0xFFFF } }
def pulse (p : Phase) : Pulse := { (default : Pulse) with
  valve := 0, prof := romProfile false, phase := p, resctl := 0x3058B478, decay := .fast }
def pulsing (p : Phase) : State := onTreadle 0 { Treadle.reset with runs := [pulse p] }
def failed3 : State := onTreadle 0 { Treadle.reset with runs := [pulse .boost], refFail := 2 }
def turning : State := onTreadle 2 { Treadle.reset with turn := some true }
def manual : State := { dmi with drv := { s0.drv with manual := true, sw := 1, leg := 26 } }
def tripped : State := { dmi with drv := { s0.drv with trips := 0x4000000 } }
def hot : State := { dmi with drv := { s0.drv with tsdact := true } }
def testing : State := { dmi with drv := { s0.drv with test := some (23, .tgo), tgo := true } }

def endedEarly : State := onTreadle 0 { Treadle.reset with runs := [{ pulse .ending with early := some 8 }] }

/-! Flow, pressure and comparators -/

def withFlow (s : State) (n : Fin 3) (f : FlowLine → FlowLine) : State :=
  { s with flw := { s.flw with line := s.flw.line.set n (f (s.flw.line.get n)) } }
def flow1 : State := withFlow { dmi with tmp := { s0.tmp with counting := true } } 0 fun l => { l with ctlAct := 0x907FA808 }
def flow2 : State := withFlow flow1 0 fun l => { l with due := true }
def flow3 : State := withFlow flow2 0 fun l => { l with cfg1 := 0x00C800C8 }
def flow4 : State := { flow1 with
  flw := { flow1.flw with
    meas := some { line := 0, shots := [], vexc := false, exclow := false, zfirst := false, stamp := none } } }
def flow5 : State := { flow1 with
  flw := { flow1.flw with
    meas := some {
      line := 0, shots := List.replicate (2 * (flow1.flow 0).pairs) default, vexc := false, exclow := false, zfirst := false,
      stamp := none } } }
def quietHold : State := { pulsing .hold with flw := { s0.flw with quiet := true, winFrom := 0, winTo := 1 } }
def contact : State := withFlow dmi 2 fun l => { l with pcfg := 0xD31 }
def settledPin : State := withFlow contact 2 fun l => { l with pin := { l.pin with settled := true } }
def record : Record := { (default : Record) with toff := some 0, npost := 8192 }
def prs (c : CapState) : State := { dmi with
  prs := { s0.prs with
    line := s0.prs.line.set 2 { PrsLine.reset with
      ctlAct := 0xF0080000, state := c, buf := 0x40, rec_ := if c = .post then some record else none } } }
def spotting : State := { dmi with prs := { s0.prs with line := s0.prs.line.set 0 { PrsLine.reset with spot := true } } }
def withCmp (c : Fin 8) (x : Cmp) : State := { s0 with prs := { s0.prs with cmp := s0.prs.cmp.set c x } }
def cmp3 : State := withCmp 3 { Cmp.reset with cfg := 0x86100000 }
def cmp7 : State := withCmp 3 { Cmp.reset with cfg := 0x8E100000 }
def blanked : State :=
  let t := withCmp 0 { Cmp.reset with blMatch := true }
  { t with prs := { t.prs with wins := [{ src := .tmpMatch, mask := 1, valve := 0, tail := 16000, due := some 9 }] } }

/-! Tempo, radio and MAC -/

def pps : State := { tick with tmp := { tick.tmp with src := 2 } }
def synced : State := { tick with tmp := { tick.tmp with sync := true } }
def hearing : State := { rad with rad := { s0.rad with state := .receive } }
def frameBad : RxFrame := { rate := 0, coded := false, phr := 0, octets := [], rssi := -80, sfd := ⟨1, 2⟩ }
def frameOf (p : List Nat) : RxFrame := { frameBad with phr := BitVec.ofNat 16 p.length, octets := p.map (BitVec.ofNat 8) }
def hopping : State := { tick with rad := { s0.rad with unset := false, dwell := 0x80008001 } }
def listens : State := { rad with
  rad := { s0.rad with state := .listen, ctl := 3, dwell := 0x4000 }, macx := { s0.macx with serving := .beacon, listens := true } }
def root : State := { rad with mac := { s0.mac with ctl := 0x00884002 } }
def ack : List Nat := withFcs (fcOf 1 0 false 0 ++ [5] ++ le16 0 ++ le16 0 ++ [0])
def waitsAck : State := { hearing with macx := { s0.macx with attempt := some { link := 0, lseq := 5, type := 1, due := 0 } } }
def later (s : State) (n : BitVec 64) : State := { s with tmp := { s.tmp with counting := true, now := n } }
def cells : State := { root with mac := { root.mac with cellAct := root.mac.cellAct.set 0 0xC4000001 } }
def withHead (s : State) : State := { s with lnk := { s.lnk with valid := true, head := true } }
def keySlot : KeySlot := { valid := true, key := 1, gen := 0, bound := none, fcnt := 0, ceiling := 4096 }
def keys (s : State) : State := { s with
  sec := { s.sec with slots := Vector.replicate 16 keySlot, store := Vector.replicate 16 keySlot } }
def beaconing : State := keys { rad with macx := { s0.macx with serving := .beacon } }
def silent : State := { beaconing with rad := { s0.rad with ctl := 0 } }
def allowed : Rad := { s0.rad with unset := false, dwell := 0x80008190, pwr := 14 }
def sending : State := withHead { beaconing with rad := allowed }
def ackDue : State := withHead { rad with rad := allowed, macx := { s0.macx with ack := some default } }
def expecting : State := { hearing with macx := { s0.macx with serving := .rxBeacon } }
def childOut : State := { rad with
  mac := { s0.mac with ctl := 0x00884001, links := s0.mac.links.set 0 { Link.reset with parent := true, state := .active } },
  tmp := { s0.tmp with disc := .locked } }
def scans : State := { rad with mac := { s0.mac with ctl := 0x00884001 } }
def headRad : State := withHead rad
def headFree : State := { headRad with tmp := { s0.tmp with src := 3, sync := true } }
def linkSel : State := { scans with mac := { scans.mac with tabsel := 0x2000005A } }

def talks (lt : BitVec 13) (before : Bool) : State := { rad with
  rad := { allowed with ctl := 3, dwell := 0xC0008190, lbtLt := lt }, macx := { s0.macx with before := before } }

/-! Security -/

def self : State := { s0 with sec := { s0.sec with stok := true } }
def keyed : State := keys self
def wrapped : State := { self with sec := { self.sec with slots := self.sec.slots.set 0 keySlot } }
def service (a : Word) : State :=
  self.modSh 0 fun x => { x with pc := a, w := x.w.set 3 0x20000000 }
def otpBytes (l : List Host.Cell) : State := { s0 with mem := { s0.mem with cells := l } }
def made : State := otpBytes [(0x40100000, 1), (0x4010000B, 0x80), (0x40100040, 1), (0x40100100, 1)]
def fuse (s : State) (b : Byte) : State := { s with mem := { s.mem with cells := s.mem.cells ++ [(0x40100084, b)] } }
def provisioned : State := fuse s0 1
def levelled : State := { s0 with sec := { s0.sec with bootLevel := 32 } }
def burning : State := { s0 with secx := { s0.secx with burn := some { init := .debug, bits := 4, retire := true } } }
def rolling : State := { s0 with secx := { s0.secx with rollback := some (32, .debug) } }
def entropy : State := { self with sec := { self.sec with entok := true } }
def chal : State := { entropy with
  sec := { entropy.sec with dbgst := .chal }, secx := { s0.secx with challenge := [1, 2, 3, 4, 5, 6, 7, 8] } }
def verify : State := { self with sec := { self.sec with dbgst := .verify } }
def gathered : State := { s0 with prf := { s0.prf with sel := Vector.replicate 4 0xF043F043 } }

/-! The chain -/

def chainHead : State := withHead s0
def unplaced : State := { s0 with lnk := { s0.lnk with sampled := true } }
def remoteHead : State := { chainHead with
  lnk := { chainHead.lnk with remotes := [{ (default : Remote) with init := .debug, pos := 1 }] } }
def staged : State := { chainHead with lnk := { chainHead.lnk with staged := [1] } }
def outstanding : State := { staged with lnk := { staged.lnk with txst := 1 } }
def edged : State := { member with lnk := { member.lnk with edge := some 5 } }

def remoteTo (write : Bool) : State :=
  let t : State := { chainHead with
    lnk := { chainHead.lnk with
      remotes := [{ (default : Remote) with init := .shuttle 0, pos := 1, addr := 0x60100008, write := write }] } }
  t.modSh 0 fun x => { x with run := .busy, busyOn := some (if write then .remoteStore else .remoteLoad 1) }
def frameA : LinkFrame := { dir := .down, type := 8, pos := 1, payload := [] }
def frameB : LinkFrame := { frameA with type := 0xA }
def waitingLnk : Lnk := { s0.lnk with downq := [frameA, frameB], downTurn := true }

/-! ## Well-formed commands: each check refuses an ill-formed one -/

theorem test_wf_accepts : Instr.wf (.stamp 0 2 false ⟨1, 1⟩) = true ∧ Instr.wf (.msg true true 1 [1, 2, 3, 4, 5, 6, 7, 8]) = true ∧
    Instr.wf (.otpProgram 4092 0) = true ∧ Instr.wf (.chainProbe 31) = true := by decide
theorem test_wf_phase : Instr.wf (.stamp 0 2 false ⟨2, 1⟩) = false ∧ Instr.wf (.pulseEnd 0 0 ⟨2, 1⟩) = false ∧
    Instr.wf (.flowShot default ⟨2, 1⟩) = false ∧ Instr.wf (.pressureSample 0 0 ⟨2, 1⟩) = false ∧
    Instr.wf (.comparatorTransition 0 0 ⟨2, 1⟩) = false ∧ Instr.wf (.captureForce .debug 0 ⟨2, 1⟩) = false ∧
    Instr.wf (.tmpNowRead .debug 1 ⟨2, 1⟩) = false ∧ Instr.wf (.ppsEdge ⟨2, 1⟩) = false ∧ Instr.wf (.keyup ⟨2, 1⟩ 0) = false ∧
    Instr.wf (.ackTransmit ⟨2, 1⟩ 0) = false ∧ Instr.wf (.syncPulse ⟨2, 1⟩) = false ∧ Instr.wf (.syncEdge ⟨0, 0⟩) = false := by
  decide
theorem test_wf_readings : Instr.wf (.euseUpdate 0 []) = false ∧ Instr.wf (.startPointScan 0 []) = false ∧
    Instr.wf (.coilThermalTick 0 [] []) = false ∧ Instr.wf (.spotReadingDone 0 []) = false := by decide
theorem test_wf_peak : Instr.wf (.boostEnd 0 65536) = false := by decide
theorem test_wf_frame : Instr.wf (.frameReceive frameBad) = true ∧
    Instr.wf (.frameReceive { frameBad with sfd := ⟨2, 1⟩ }) = false ∧ Instr.wf (.frameReceive { frameBad with rate := 3 }) = false ∧
    Instr.wf (.frameReceive { frameBad with octets := [0] }) = false ∧
    Instr.wf (.frameReceive { frameBad with rssi := -126 }) = false ∧ Instr.wf (.lbtListenEnd (-9) false) = false := by decide
theorem test_wf_otp : Instr.wf (.otpProgram 2 0) = false ∧ Instr.wf (.otpProgram 4096 0) = false := by decide
theorem test_wf_probe : Instr.wf (.chainProbe 32) = false := by decide
theorem test_wf_message : Instr.wf (.msg true true 1 []) = false ∧ Instr.wf (.msg true true 1 (List.replicate 9 0)) = false := by decide

/-! ## Single commands against values worked out by hand or published -/

/-- The field of the next state, or nothing. -/
def after {α : Type} (o : Out) (f : State → α) : Option α :=
  match o with
  | .next t => some (f t)
  | _ => none

/-- Words written out from R146: opcode in bits 31:26, rd in 25:22, ra in 21:18 and imm18, or imm22. -/
theorem test_words : wordOf (.crc 0 3 4 3) = some 0xC4D04003 ∧ wordOf (.lui 0 5 0x100014) = some 0x21500014 ∧
    wordOf (.stw 0 6 5 8) = some 0x61940008 ∧ wordOf (.addi 0 3 0 0x3FFFF) = some 0x08C3FFFF := by decide +kernel
/-- 0xFFFFFFFF + 1 wraps to 0 (R153). -/
theorem test_add_wraps : after (exec (.addi 0 2 1 1) (withReg s0 0xFFFFFFFF)) (fun t => t.reg 0 2) = some 0 := by decide +kernel
/-- The most negative number divided by -1 gives itself (R155). -/
theorem test_div_most_negative :
    after (exec (.div 0 2 1 3) ((withReg s0 0x80000000).modSh 0 fun x => { x with w := x.w.set 3 0xFFFFFFFF }))
      (fun t => t.reg 0 2) = some 0x80000000 := by decide +kernel
/-- A write to w0 is discarded (R110). -/
theorem test_w0_stays : after (exec (.addi 0 0 1 1) (withReg s0 5)) (fun t => t.reg 0 0) = some 0 := by decide +kernel
/-- CRC-32 of the octets 1 to 9 in ASCII is the published check value. -/
theorem test_crc_check : crc32 [0x31, 0x32, 0x33, 0x34, 0x35, 0x36, 0x37, 0x38, 0x39] = 0xCBF43926 := by decide +kernel
/-- A byte stored to SRAM is read back, and its neighbour reads 0. -/
theorem test_store_byte :
    after (exec (.stb 0 1 1 0) at20) (fun t => (t.byte 0x20000000, t.byte 0x20000001)) = some (0, 0) ∧
    after (exec (.stb 0 3 1 1) (at20.modSh 0 fun x => { x with w := x.w.set 3 0x1A5 })) (fun t =>
      (t.byte 0x20000000, t.byte 0x20000001)) = some (0, 0xA5) := by decide +kernel
/-- A step takes the front command and leaves the rest. -/
theorem test_step_takes_front :
    after (step { s0 with pending := [.halt 0, .pinReset] }) (fun t => (t.pending, (t.sh 0).run)) =
      some ([.pinReset], .halted) := by decide +kernel
/-- The digest of the empty string starts with the published octets (FIPS 180-4). -/
theorem test_sha256_empty : (sha256 []).take 4 = [0xE3, 0xB0, 0xC4, 0x42] := by decide +kernel

/-- The published example of a 128-bit key wrapped with a 128-bit key (RFC 3394, 4.1). -/
theorem test_key_unwrap :
    kwUnwrap (List.range 16)
      [0x1F, 0xA6, 0x8B, 0x0A, 0x81, 0x12, 0xB4, 0x47, 0xAE, 0xF3, 0x4B, 0xD8, 0xFB, 0x5A, 0x7B, 0x82,
       0x9D, 0x3E, 0x86, 0x23, 0x71, 0xD2, 0xCF, 0xE5] =
    some [0, 0x11, 0x22, 0x33, 0x44, 0x55, 0x66, 0x77, 0x88, 0x99, 0xAA, 0xBB, 0xCC, 0xDD, 0xEE, 0xFF] := by decide +kernel

/-! ## Witnesses: concrete states that meet the hypotheses of the statements -/

/-- Meets the hypotheses of StepRunsTheFrontCommand, EveryStepKeepsMemorySound. -/
theorem witness_step_front :
    (({ s0 with pending := [.pinReset] } : State).pending = .pinReset :: []) ∧
    (s0.pending = []) := by decide +kernel

/-- Meets the hypotheses of AluGroupWritesItsResult, MultiplyDivideAndAccumulate, ImmediateFormsWriteTheirResult,
BranchesFollowTheirCondition. -/
theorem witness_alu :
    (s0.issues 0 = true) ∧
    (s0.issues 0 = true ∧ (s0.sh 0).w = Vector.replicate 16 0) := by decide +kernel

/-- Meets the hypotheses of JumpsLinkAndChangeFlow. -/
theorem witness_jump_targets :
    (s0.issues 0 = true) ∧
    ((s0.reg 0 1 + (4 : BitVec 18).signExtend 32).toNat % 4 = 0) ∧
    ((s0.reg 0 1 + (2 : BitVec 18).signExtend 32).toNat % 4 ≠ 0) ∧
    ((s0.sh 0).inexc = false) := by decide +kernel

/-- Meets the hypotheses of ReservedAndPrivilegedFormsTrap. -/
theorem witness_reserved_forms :
    (s0.issues 0 = true) ∧
    ((s0.sh 0).inexc = false) ∧
    ((wordOf (.ldd 0 1 0 0)).isSome = true) ∧
    ((wordOf (.std 0 15 0 0)).isSome = true) ∧
    (7 < (8 : BitVec 12).toNat) ∧
    ((wordOf (.csrr 0 1 8)).isSome = true) ∧
    ((wordOf (.csrw 0 1 7)).isSome = true) ∧
    ((wordOf (.snap 0 2 5)).isSome = true) ∧
    ((wordOf (.stamp 0 1 false ⟨0, 1⟩)).isSome = true) ∧
    ((s0.reg 0 0 ||| (0x600 : BitVec 12).setWidth 32) &&& 0xFFFFF600 ≠ 0) ∧
    ((wordOf (.commit 0 1 0 0x600)).isSome = true) ∧
    (12 ≤ (12 : BitVec 4).toNat) ∧
    ((wordOf (.crc 0 1 2 12)).isSome = true) ∧
    (s0.hasSlot 0 = true) ∧
    (lost.coreRuns = true ∧ (lost.nextSlot 0).isSome = true ∧ lost.fetchable 0 = true ∧ (lost.sh 0).inexc = false ∧ inRom
      (lost.sh 0).pc.toNat = false ∧ isInstr (lost.fetchWord 0) = false) ∧
    ((0x1C000080 : Word).extractLsb' 26 6 = 7 ∧ (0x1C000080 : Word).extractLsb' 7 11 ≠ 0 ∧ (0x1C000060 : Word).extractLsb' 5
      2 = 3) ∧
    (0x12 < ((0x13 : Word).extractLsb' 0 14).toNat) ∧
    ((0xC0008000 : Word).extractLsb' 26 6 = 0x30 ∧ 7 < ((0xC0008000 : Word).extractLsb' 12 6).toNat) := by decide +kernel

/-- Meets the hypotheses of ReservedAndPrivilegedFormsTrap. -/
theorem witness_privileged_forms :
    (user.issues 0 = true) ∧
    ((user.sh 0).inexc = false) ∧
    ((user.sh 0).prv = true) ∧
    ((wordOf (.eret 0)).isSome = true) ∧
    ((wordOf (.halt 0)).isSome = true) ∧
    ((4 : BitVec 12).toNat ≤ 4) ∧
    ((wordOf (.csrr 0 1 4)).isSome = true) ∧
    ((user.sh 0).udev = false) ∧
    (user.hasSlot 0 = true) := by decide +kernel

/-- Meets the hypotheses of TrapEntersAndEretReturns. -/
theorem witness_trap_and_eret :
    (s0.issues 0 = true) ∧
    ((s0.sh 0).inexc = false) ∧
    ((s0.sh 0).prv = false) := by decide +kernel

/-- Meets the hypotheses of ControlRegistersReadAndWrite. -/
theorem witness_control_registers :
    (s0.issues 0 = true) ∧
    ((s0.sh 0).prv = false) ∧
    ((0 : BitVec 12).toNat = 0) ∧
    ((7 : BitVec 12).toNat = 7) := by decide +kernel

/-- Meets the hypotheses of FaultedAndHaltedShuttlesStop. -/
theorem witness_double_fault :
    (inexc.issues 0 = true) ∧
    ((inexc.sh 0).inexc = true) ∧
    (((s0.modSh 0 fun x => { x with run := .faulted }).sh 0).run = .faulted) := by decide +kernel

/-- Meets the hypotheses of EventsAreWaitedForAndPosted. -/
theorem witness_wait :
    (latched.issues 0 = true) ∧
    ((latched.sh 0).wpend &&& 1 ≠ 0) ∧
    ((s0.sh 0).wpend &&& 1 = 0) ∧
    (s0.issues 0 = true) := by decide +kernel

/-- Meets the hypotheses of EventsAreWaitedForAndPosted. -/
theorem witness_wait_completes :
    (waiting.powered = true) ∧
    (waiting.sys.coreStopped = false) ∧
    ((waiting.sh 0).en = true) ∧
    ((waiting.sh 0).run = .wait) ∧
    ((waiting.sh 0).wpend &&& (waiting.sh 0).waitMask ≠ 0) ∧
    ((waits.sh 0).wpend &&& (waits.sh 0).waitMask = 0) ∧
    ((waits.sh 0).run = .wait) ∧
    (waiting.irq 0 = none) ∧
    (waitingIrq.irq 0 = some 15 ∧ (waitingIrq.sh 0).wpend &&& (waitingIrq.sh 0).waitMask ≠ 0 ∧ (waitingIrq.sh 0).run =
      .wait) := by decide +kernel

/-- Meets the hypotheses of FenceAndPostedWritesComplete. -/
theorem witness_fence :
    (∀ f ∈ s0.sys.failed, f.init ≠ .shuttle 0) ∧
    ((∀ p ∈ s0.sys.posted, p.init ≠ .shuttle 0) ∧ ∀ e ∈ s0.mem.wbuf, e.owners.getLsbD 0 = false) ∧
    (¬ ∀ p ∈ posting.sys.posted, p.init ≠ .shuttle 0) ∧
    (posting.issues 0 = true) ∧
    (∀ f ∈ posting.sys.failed, f.init ≠ .shuttle 0) ∧
    (failing.issues 0 = true) ∧
    (failing.sys.failed.find? (fun f => f.init == .shuttle 0) = some { init := .shuttle 0, addr := 4, cause := 0xB }) ∧
    ((failing.sh 0).inexc = false) := by decide +kernel

/-- Meets the hypotheses of FenceAndPostedWritesComplete. -/
theorem witness_fence_waits :
    (fencing.powered = true) ∧
    ((fencing.sh 0).run = .busy ∧ (fencing.sh 0).busyOn = some .fence ∧ (fencing.sh 0).en = true) ∧
    (∀ f ∈ fencing.sys.failed, f.init ≠ .shuttle 0) ∧
    (∀ p ∈ fencing.sys.posted, p.init ≠ .shuttle 0) ∧
    ((fenced.sh 0).run = .busy ∧ (fenced.sh 0).busyOn = some .fence ∧ (fenced.sh 0).en = true) ∧
    (¬ ∀ p ∈ fenced.sys.posted, p.init ≠ .shuttle 0) ∧
    ((refilled.sh 0).restart = true ∧ (refilled.sh 0).busyOn = some .fence) := by decide +kernel

/-- Meets the hypotheses of FenceAndPostedWritesComplete. -/
theorem witness_crossing :
    (canTimeout true 0x40005000 = true) ∧
    (s0.issues 0 = true) ∧
    ((s0.sh 0).inexc = false) ∧
    (dmi.powered = true ∧ dmi.crosses true 0x40005000 = true ∧ dmi.crosses false 0x40004000 = true) ∧
    (dmi.issues 0 = true ∧ (dmi.dataGate 0 0x40005000 4 true).isNone = true) ∧
    (dmi.dbgMay 0x40005000 true = true) ∧
    (memberOn.isMember = true ∧ inMember 0x40005000 = true ∧ memberOn.crosses true 0x40005000 = true) ∧
    ((dmi.sh 0).prv = false ∧ dmi.sys.runDmi = true ∧ (dmi.sh 0).inexc = false) ∧
    (∀ f ∈ dmi.sys.failed, f.init ≠ .shuttle 0) ∧
    (∀ d ∈ setBits 0xFF 9, allOn.domainOff d = false) ∧
    ((setBits (0x180 &&& 0xFF &&& 0x0FF : BitVec 9).toNat 9).head? = some 7) := by decide +kernel

/-- Meets the hypotheses of FenceAndPostedWritesComplete. -/
theorem witness_posted :
    (posting.powered = true) ∧
    (posting.sys.posted = { init := .shuttle 0, addr := 0x40003004, val := 0x5F } :: []) ∧
    ((({ posting with sys := { posting.sys with posted := [] } } : State).aonApply 0x40003004 0x5F).2 = 0) := by decide +kernel

/-- Meets the hypotheses of InterruptEntryTakesTheLowestEvent. -/
theorem witness_interrupt_entry :
    (irq.powered = true) ∧
    (irq.sys.coreStopped = false) ∧
    ((irq.sh 0).en = true) ∧
    ((irq.sh 0).ie = true) ∧
    ((irq.sh 0).run = .ready) ∧
    (irq.eng.evpend.getLsbD 15 = true ∧ fld irq.eng.evroute 30 2 = 0 ∧ (irq.sh 0).ien.getLsbD 15 = true) ∧
    (∀ k : Fin 15, irq.eng.evpend.getLsbD k = false) ∧
    (irq.hasSlot 0 = true ∧ (irq.wordCause 0).isNone = true) ∧
    (irqQuiet.prf.en = 0 ∧ irqQuiet.prf.cycen = false ∧ irqQuiet.hasSlot 0 = true) ∧
    ((irqWait.sh 0).run = .wait ∧ (irqWait.sh 0).en = true ∧ (irqWait.sh 0).ie = true) ∧
    ((irqQuiet.sh 0).prv = false ∧ (6 : BitVec 12).toNat ≤ 6) := by decide +kernel

/-- Meets the hypotheses of LoadsReadMemoryBytes. -/
theorem witness_loads :
    (s0.issues 0 = true) ∧
    (at20.issues 0 = true) ∧
    ((at20.reg 0 1 + (0x2FFF8 : BitVec 18).signExtend 32).toNat % 8 = 0 ∨ (at20.reg 0 1).toNat % 8 = 0) ∧
    (at20.mpuOk 0 0x20000000 .r = true) ∧
    (inRom 0x7FFC = true) ∧
    (inSram 0x20000000 = true) ∧
    (inSram 0x2002FFFF = true) ∧
    (at20.mem.eccOf 0x20000000 = 0 ∧ at20.mem.entryOf 0x20000000 = none) ∧
    (inMram 0x08000000 = true ∧ inKeyStore 0x08000000 = false) := by decide +kernel

/-- Meets the hypotheses of StoresWriteSramBytes. -/
theorem witness_stores :
    (at20.issues 0 = true) ∧
    (Memory.wf at20.mem = true) ∧
    ((at20.reg 0 1).toNat % 8 = 0) ∧
    (at20.mpuOk 0 0x20000000 .w = true) ∧
    (inSram (at20.reg 0 1).toNat = true) ∧
    (at20.mem.eccOf 0x20000000 = 0 ∧ at20.mem.inj = 0) := by decide +kernel

/-- Meets the hypotheses of MramStoresEnterTheWriteBuffer. -/
theorem witness_mram_stores :
    (at08.issues 0 = true) ∧
    ((at08.reg 0 1).toNat % 8 = 0) ∧
    (at08.mpuOk 0 0x08000000 .w = true) ∧
    (inMram (at08.reg 0 1).toNat = true) ∧
    (at08.mramGate 0x08000000 = 0) ∧
    (at08.mem.entryOf 0x08000000 = none) ∧
    (at08.mem.inj = 0) ∧
    (at08.mem.wbuf.length < 4) ∧
    (4 ≤ full.mem.wbuf.length) ∧
    (full.issues 0 = true) ∧
    (full.mramGate 0x08000000 = 0) ∧
    (full.mem.entryOf 0x08000000 = none) ∧
    (∀ k : Fin 4, (at08.sh k).stalled = false) := by decide +kernel

/-- Meets the hypotheses of RefusedDataAccessesTrap. -/
theorem witness_refused_accesses :
    (s0.issues 0 = true) ∧
    ((s0.sh 0).inexc = false) ∧
    ((s0.reg 0 1 + (1 : BitVec 18).signExtend 32).toNat % 2 ≠ 0) ∧
    (user.issues 0 = true) ∧
    ((user.sh 0).prv = true ∧ user.prf.uread = false) ∧
    (at60.issues 0 = true ∧ (at60.reg 0 1).toNat = 0x60000000) ∧
    (at60.issues 0 = true ∧ (at60.sh 0).prv = true) ∧
    (guarded.issues 0 = true) ∧
    (guarded.mpuOk 0 0x20000000 .r = false) ∧
    (guarded.mpuOk 0 0x20000000 .w = false) := by decide +kernel

/-- Meets the hypotheses of CrcUpdatesBitByBit. -/
theorem witness_crc :
    (s0.issues 0 = true) ∧
    ((0 : BitVec 4).toNat < 12) ∧
    ((11 : BitVec 4).toNat < 12) := by decide +kernel

/-- Meets the hypotheses of CountsAndTimeAreReadWhole. -/
theorem witness_snap :
    (s0.issues 0 = true) ∧
    ((0 : Fin 16).val % 2 = 0) ∧
    ((4 : BitVec 12).toNat ≤ 4) ∧
    ((s0.sh 0).prv = false) ∧
    (user.issues 0 = true) ∧
    ((user.sh 0).prv = true) ∧
    (user.prf.uread = false) ∧
    ((user.sh 0).inexc = false) := by decide +kernel

/-- Meets the hypotheses of CountsAndTimeAreReadWhole. -/
theorem witness_stamp :
    (s0.issues 0 = true) ∧
    ((14 : Fin 16).val % 2 = 0) ∧
    (∀ f ∈ s0.sys.failed, f.init ≠ .shuttle 0) ∧
    ((failing.sh 0).inexc = false) := by decide +kernel

/-- Meets the hypotheses of CommitArmsAndCancels. -/
theorem witness_commit :
    (allOn.issues 0 = true) ∧
    ((allOn.sh 0).prv = false) ∧
    ((allOn.reg 0 0 ||| (0x1FF : BitVec 12).setWidth 32) &&& 0xFFFFF600 = 0) ∧
    (allOn.sys.runRad = true ∧ allOn.sys.runDmi = true) ∧
    (∀ f ∈ allOn.sys.failed, f.init ≠ .shuttle 0) ∧
    (((0x800 : BitVec 12).setWidth 32 : Word).getLsbD 11 = true) ∧
    (((0x180 : BitVec 12).setWidth 32 : Word).getLsbD 11 = false) ∧
    (∀ d : Fin 7, (allOn.armed ||| 0x180).getLsbD d = false) ∧
    (allOn.sys.posted = []) ∧
    (∀ d ∈ setBits 0x1FF 9, allOn.domainOff d = false) ∧
    (failing.sys.failed.find? (fun f => f.init == .shuttle 0) = some { init := .shuttle 0, addr := 4, cause := 0xB }) ∧
    (failing.issues 0 = true ∧ ∀ d ∈ setBits 0x80 9, failing.domainOff d = false) := by decide +kernel

/-- Meets the hypotheses of CoreClockAndShuttlesStartAndStop. -/
theorem witness_core_clock :
    (s0.powered = true) ∧
    (s0.eng.stopped = false) ∧
    (moving.sys.curSrc ≠ moving.sys.src) ∧
    (moving.srcReady moving.sys.src = true) ∧
    (asleep.eng.stopped = true) ∧
    (asleep.sys.coreStopped = false) ∧
    (asleep.canWake = true) ∧
    (dmi.sys.xoRun = true) := by decide +kernel

/-- Meets the hypotheses of CoreClockAndShuttlesStartAndStop. -/
theorem witness_shuttles :
    (s0.reaches .debug 0x40001004 true = true) ∧
    (s0.reaches (.shuttle 0) 0x40001004 true = true) ∧
    ((s0.sh 3).en = false) ∧
    ((s0.sh 0).en = true) ∧
    (member.reaches .chain 0x40001004 true = true) := by decide +kernel

/-- Meets the hypotheses of IslandsAndIssueTableTakeEffect. -/
theorem witness_islands :
    (s0.sys.xoRun = false) ∧
    (s0.xoWanted = true) ∧
    (running.mayStop .dmi = true) ∧
    (running.mayStop .radio = true) ∧
    (s0.coreRuns = true) := by decide +kernel

/-- Meets the hypotheses of ControlRegistersTakeTheirFields. -/
theorem witness_control_writes :
    (s0.reaches .debug 0x40000018 true = true) ∧
    (fld (0x801 : Word) 12 20 = 0 ∧ fld (0x801 : Word) 6 2 = 0 ∧ fld (0x801 : Word) 2 2 = 0 ∧ fld (0x801 : Word) 0 2 ≠ 3) ∧
    (s0.reaches .debug 0x40001024 true = true ∧ vecbaseOk 0x7C00 = true) ∧
    (s0.reaches .debug 0x40000020 true = true ∧ (0x8810 : BitVec 16).extractLsb' 12 3 = 0 ∧ (0x8810 : BitVec 16).extractLsb'
      4 4 ≠ 0) ∧
    (s0.reaches (.shuttle 0) 0x40000020 true = true) ∧
    (s0.reaches .debug 0x40002000 true = true ∧ fld (0x10001 : Word) 24 8 = 0 ∧ fld (0x10001 : Word) 4 12 = 0 ∧ (0x10001 :
      Word).getLsbD 1 = false ∧ fld (0x10001 : Word) 2 2 ≠ 3) ∧
    (s0.reaches .debug 0x40001000 true = true) ∧
    (s0.reaches .debug 0x40001008 true = true ∧ fld (0xFFFF : Word) 16 16 = 0) ∧
    (s0.reaches .debug (0x40001010 + 4 * 3) true = true) ∧
    (s0.reaches .debug 0x40001020 true = true) ∧
    (s0.reaches .debug 0x40001060 true = true ∧ (0xF0 : Word) &&& 0xFFFFFF0C = 0) := by decide +kernel

/-- Meets the hypotheses of ResetsAndBootFollowTheirRules. -/
theorem witness_resets :
    (s0.mem.wbuf = []) ∧
    (wdog.sys.wdogEn = true ∧ wdog.sys.wdogStopped = false ∧ (wdog.sh 0).run ≠ .debug) ∧
    (s0.lifecycle ≠ 2) ∧
    (s0.reaches .debug 0x40000008 true = true ∧ s0.sys.posted = []) ∧
    (∀ k : Fin 4, (s0.sh k).stalled = false) := by decide +kernel

/-- Meets the hypotheses of ResetsAndBootFollowTheirRules. -/
theorem witness_cold_starts :
    (coldFrom .off up = true) ∧
    (coldFrom .ship { up with source := .shipPanel } = true) ∧
    (({ s0 with sys := { s0.sys with power := .hold } } : State).sys.power = .hold) ∧
    (s0.sys.power = .boot ∧ s0.sys.coreStopped = false) ∧
    (({ s0 with sec := { s0.sec with stok := true, entok := true } } : State).restoreKeys.chooseImage.2.isNone = true) := by decide +kernel

/-- Meets the hypotheses of WriteBufferAndScrubbersWork. -/
theorem witness_write_buffer :
    (full.powered = true) ∧
    (full.mem.wbuf = entry 1 :: [entry 2, entry 3, entry 4]) ∧
    (Memory.wf full.mem = true) ∧
    (∀ k : Fin 4, (full.sh k).stalled = false) ∧
    (tick.tmp.counting = true ∧ tick.sys.coreStopped = false ∧ tick.mem.men = true ∧ tick.mem.sen = true) ∧
    (tick.mem.entryOf 0x08000000 = none ∧ tick.mem.eccOf 0x08000000 = 0) ∧
    (2 ≤ spoilt.mem.eccOf 0x20000000) := by decide +kernel

/-- Meets the hypotheses of PersistCommitsRunTheirSteps. -/
theorem witness_persist :
    (s0.reaches .debug 0x40002018 true = true) ∧
    (s0.armed.getLsbD 8 = false ∧ s0.mem.busy = none ∧ s0.mem.act = .none) ∧
    (1 ≤ (1 : BitVec 31).toNat ∧ (0x7FFFFFFE : BitVec 31).toNat ≤ 0x7FFFFFFE) ∧
    (persist.tmp.counting = true ∧ persist.sys.coreStopped = false ∧ persist.localTickRules = true ∧ persist.armed.getLsbD 8
      = true) ∧
    (persist.mem.pendSeq = none) ∧
    (persist1.mem.pendSeq = some 7 ∧ persist1.mem.busy = none) ∧
    (persist2.mem.pendSeq = some 7 ∧ persist2.mem.busy ≠ none) := by decide +kernel

/-- Meets the hypotheses of PersistCommitsRunTheirSteps. -/
theorem witness_commits :
    (committing.powered = true ∧ committing.mem.busy = some 7 ∧ committing.mem.pendSeq = none) ∧
    (Memory.wf committing.mem = true) ∧
    (committing.badWord 0x081F0000 0x7FF8 = false) ∧
    (spoiltBank.badWord 0x081F0000 0x7FF8 = true ∧ spoiltBank.mem.busy = some 7) := by decide +kernel

/-- Meets the hypotheses of CellAndSourcesSwitch. -/
theorem witness_cell_switch :
    (({ s0 with nrgx := { s0.nrgx with cellSw := .closed } } : State).nrgx.cellSw = .closed) ∧
    (({ s0 with nrgx := { s0.nrgx with cellSw := .uvOpen } } : State).nrgx.cellSw = .uvOpen) ∧
    (({ s0 with nrgx := { s0.nrgx with cellSw := .ocRetry } } : State).nrgx.cellSw = .ocRetry) ∧
    (s0.nrg.refOk = false) ∧
    (({ s0 with nrg := { s0.nrg with refOk := true } } : State).nrg.refOk = true) ∧
    (s0.nrgx.cellSw = .opened) := by decide +kernel

/-- Meets the hypotheses of CellAndSourcesSwitch. -/
theorem witness_sources :
    (s0.nrg.dcMode = false ∧ s0.nrg.period ≠ 0) ∧
    (dc.tmp.counting = true ∧ dc.nrg.dcMode = true) ∧
    (({ s0 with nrgx := { s0.nrgx with pvSampling := true } } : State).nrgx.pvSampling = true) ∧
    (s0.nrg.pvov = false) ∧
    (({ s0 with nrg := { s0.nrg with pvov := true } } : State).nrg.pvov = true) ∧
    (s0.nrg.ctl.getLsbD 1 = true ∧ s0.nrgx.tegRun = false) ∧
    (({ s0 with nrgx := { s0.nrgx with tegSampling := true } } : State).nrgx.tegSampling = true) ∧
    (dc.nrg.dcPres = false) ∧
    (({ dc with nrg := { dc.nrg with dcPres := true } } : State).nrg.dcMode = true) ∧
    (({ dc with nrg := { dc.nrg with dcPres := true } } : State).nrg.dcPres = true) := by decide +kernel

/-- Meets the hypotheses of MeasurementsDriveTheCharger. -/
theorem witness_charger :
    (charging.powered = true ∧ charging.nrg.chg = .precharge) ∧
    (¬ (charging.nrg.ctl.getLsbD 2 = false ∨ charging.nrg.chem = 3)) ∧
    (¬ ((100 : Int) < -160 ∨ 400 < (100 : Int))) ∧
    ((-512 : Int) ≤ -512 ∧ (511 : Int) ≤ 511) ∧
    (s0.nrg.chg ≠ .fault) ∧
    (s0.nrg.ctl.getLsbD 2 = false ∨ s0.nrg.chem = 3) := by decide +kernel

/-- Meets the hypotheses of ReservoirAndShipModeAct. -/
theorem witness_reservoir :
    (({ charging with nrgx := { s0.nrgx with chgTimer := true } } : State).nrgx.chgTimer = true ∧ charging.nrg.chg =
      .precharge) ∧
    (boosting.boostAllowed = true ∧ boosting.nrgx.boostOn = false) ∧
    (({ s0 with nrgx := { s0.nrgx with boostOn := true } } : State).nrgx.boostOn = true) ∧
    (({ s0 with nrgx := { s0.nrgx with sink := true } } : State).nrgx.sink = true) ∧
    (s0.reaches .debug 0x40003004 true = true ∧ s0.sys.posted = [] ∧ ∀ f ∈ s0.sys.failed, f.init ≠ .debug) ∧
    ((0x1FF : Word).extractLsb' 9 23 = 0) ∧
    ((0x80 : Word).getLsbD 7 = true) ∧
    (s0.drv.quiet = false) ∧
    (closed.drv.quiet = true) ∧
    ((0x100 : Word).getLsbD 7 = false ∧ (0x100 : Word).getLsbD 8 = true ∧ s0.nrg.ctl.getLsbD 8 = false) ∧
    (({ s0 with nrg := { s0.nrg with chg := .cc } } : State).nrg.chg = .cc ∧ fld s0.nrg.chgReg 20 4 ≠ 0) ∧
    (fld ({ s0.nrg with chgReg := 0x0002000A } : Nrg).chgReg 20 4 = 0) := by decide +kernel

/-- Meets the hypotheses of LastActRunsInItsOrder. -/
theorem witness_last_act :
    (due.nrgx.laArmed = true ∧ due.nrgx.laCount = 4 ∧ due.nrgx.laState = .idle) ∧
    (sequencing.sys.runDmi = true ∧ sequencing.seqReady = some 0 ∧ sequencing.drv.held (treadleOf 0) = false) ∧
    (starved.sys.runDmi = true ∧ starved.seqWaits = true ∧ starved.drv.seqValve = some 0) ∧
    (acting.nrgx.laState = .commitWait ∧ acting.nrgx.deadline = false ∧ acting.sec.commit = false) ∧
    (ended.nrgx.laState = .commitWait ∧ ended.nrgx.deadline = true) ∧
    (s0.reaches .debug 0x40003028 true = true ∧ s0.nrgCheck 0x28 0 = 0) ∧
    (charging.nrgCheck 0x28 3600 = 0) ∧
    (headerBegun.mem.busy ≠ none ∧ headerBegun.nrgx.laState = .commitWait ∧ headerBegun.nrgx.deadline = false) ∧
    ((match exec .persistCommitComplete headerBegun.wbDrain with | .next e => e.mem.busy.isNone | _ => false) = true) := by decide +kernel

/-- Meets the hypotheses of DriveCommandsAreChecked. -/
theorem witness_drive_commands :
    (dmi.sys.runDmi = true ∧ dmi.reaches .debug 0x40005008 true = true) ∧
    (dmi.reaches (.shuttle 0) 0x40005008 true = true) ∧
    ((0x117 : Word).extractLsb' 0 5 = BitVec.ofNat 5 (23 : Fin 24).val ∧ (0x117 : Word).extractLsb' 5 3 = 0 ∧ (0x117 :
      Word).extractLsb' 8 4 = 1 ∧ (0x117 : Word).extractLsb' 15 17 = 0) ∧
    (dmi.drv.profOk (dmi.drv.profileAt 1) 23 = true) ∧
    ((dmi.drv.valves.get 23).notfit = false ∧ dmi.nrgx.laState = .idle) ∧
    ((dmi.accept 23 1 false false).2 ≠ 2) := by decide +kernel

/-- Meets the hypotheses of DriveCommandsAreChecked. -/
theorem witness_releases :
    (held.drv.held (treadleOf (held.drv.even 0)) = true ∧ (held.drv.profileAt 1).closes = true ∧ (held.drv.profileAt
      1).valid = true) ∧
    ((held.drv.valves.get 0).notfit = false ∧ held.nrgx.laState = .idle ∧ held.drv.seqMode = .idle) ∧
    (((held.drv.trd.get (treadleOf 0)).queue.any fun e => e.valve = 0) = false) ∧
    (held.sys.runDmi = true ∧ held.reaches .debug 0x40005008 true = true) := by decide +kernel

/-- Meets the hypotheses of DriveCommandsAreChecked. -/
theorem witness_drv :
    (dmi.issues 0 = true ∧ dmi.noDevice 0 = false ∧ dmi.sys.runDmi = true) ∧
    ((dmi.command (dmi.reg 0 1)).2.1 = 0) ∧
    (24 ≤ ((24 : Word).extractLsb' 0 5).toNat) ∧
    ((dmi.sh 0).inexc = false) := by decide +kernel

/-- Meets the hypotheses of StartPointsAdmitAndExpire. -/
theorem witness_start_points :
    ((queued.drv.trd.get 0).queue[0]? = some opening ∧ (queued.entryProfile opening).closes = false) ∧
    (opening.waiting = true ∧ queued.admits (queued.entryProfile opening) opening.valve = false) ∧
    (opening.deferred = true) ∧
    ((closing.drv.trd.get 0).queue = [closeOf 0] ∧ ∀ k : Fin 3, k ≠ 0 → (closing.drv.trd.get k).queue = []) ∧
    ((closing.entryProfile (closeOf 0)).closes = true ∧ closing.drv.held 0 = false ∧ (closeOf 0).deferred = false ∧ (closeOf
      0).prediag = false) ∧
    (closing.drv.profOk (closing.entryProfile (closeOf 0)) 0 = true ∧ closing.drv.startBlocked 0 = false) ∧
    (closing.drv.overlapOk 0 (closing.entryProfile (closeOf 0)) = true ∧ (closing.drv.pulseOf 0).isNone = true) ∧
    (closing.drv.tall = false ∧ closing.admits (closing.entryProfile (closeOf 0)) 0 = true) := by decide +kernel

/-- Meets the hypotheses of PulsesRunTheirPhases. -/
theorem witness_pulses :
    ((pulsing .boost).drv.pulseOf ((pulsing .boost).drv.even 0) = some (pulse .boost)) ∧
    ((pulsing .peak).drv.pulseOf ((pulsing .peak).drv.even 0) = some (pulse .peak)) ∧
    ((pulsing .hold).drv.pulseOf ((pulsing .hold).drv.even 0) = some (pulse .hold)) ∧
    ((pulsing .ending).drv.pulseOf ((pulsing .ending).drv.even 0) = some (pulse .ending)) ∧
    ((pulsing .boost).powered = true ∧ (pulsing .boost).sys.runDmi = true) ∧
    ((pulse .boost).off = false ∧ (pulse .ending).endSlow = false) ∧
    ((pulse .hold).prof.tHold ≠ 0xFFFF) ∧
    ((pulse .peak).decay = .fast) ∧
    (0 < (pulse .boost).floorMv) ∧
    ((pulsing .boost).drv.gate.getLsbD 20 = true) ∧
    (endedEarly.drv.pulseOf (endedEarly.drv.even 0) = some { pulse .ending with early := some 8 }) ∧
    (quietHold.holdQuiet = true ∧ (pulse .hold).on = false ∧ quietHold.drv.pulseOf (quietHold.drv.even 0) = some (pulse
      .hold)) := by decide +kernel

/-- Meets the hypotheses of ProtectionsActOnTheDrive. -/
theorem witness_protections :
    ((pulsing .boost).drv.users 0 ≠ []) ∧
    (dmi.drv.tsdact = false) ∧
    (hot.drv.tsdact = true) ∧
    (manual.drv.sw ≠ 0) ∧
    ((turning.drv.trd.get 2).turn.isSome = true ∧ turning.drv.tall = false) ∧
    (manual.drv.users 26 = [] ∧ manual.drv.manualReq 26 = true) ∧
    (tripped.drv.trips.getLsbD 26 = true ∧ tripped.drv.users 26 = [] ∧ tripped.drv.manualReq 26 = false) ∧
    ((pulsing .boost).drv.bridgeOn (bridgeOf (.leg 0)) = true ∧ (pulsing .boost).drv.users (bridgeOf (.leg 0)) ≠ []) := by decide +kernel

/-- Meets the hypotheses of BootstrapCoilAndTestFollowTheirRules. -/
theorem witness_bootstrap :
    ((((pulsing .precharge).drv.trd.get 0).runs.any fun p => p.phase == .precharge) = true) ∧
    ((pulsing .boost).drv.highOn 0 = true) ∧
    (((pulsing .boost).drv.trd.get 0).refFail < 2) ∧
    (2 ≤ (failed3.drv.trd.get 0).refFail ∧ failed3.drv.highOn 0 = true) ∧
    (∀ v : Fin 24, dmi.drv.holdMeasured v = false) ∧
    (testing.drv.test = some (23, .tgo)) ∧
    ((pulsing .boost).drv.refreshes 0 = true ∧ failed3.drv.refreshes 0 = true) ∧
    (dmi.drv.held (treadleOf 0) = false) := by decide +kernel

/-- Meets the hypotheses of DriveRegistersActAsWritten. -/
theorem witness_drive_registers :
    (dmi.reaches .debug 0x40005030 true = true ∧ dmi.drv.leg.toNat < 27 ∧ dmi.drv.tvalve.toNat < 24) ∧
    (dmi.lifecycle = 0 ∧ dmi.drv.allRuns = [] ∧ dmi.drv.allQueued = [] ∧ dmi.drv.seqMode = .idle) ∧
    (dmi.drv.test = none ∧ dmi.drv.tall = false ∧ dmi.drv.tsdact = false) ∧
    ((0x1A001700 : Word).extractLsb' 0 8 = 0 ∧ (0x1A001700 : Word).extractLsb' 13 3 = 0 ∧ (0x1A001700 : Word).extractLsb' 20
      4 = 0) ∧
    (((0x1A001700 : Word).extractLsb' 24 5).toNat < 27 ∧ ((0x1A001700 : Word).extractLsb' 8 5).toNat < 24 ∧ (0x1A001700 :
      Word).extractLsb' 29 2 = 0) ∧
    (manual.drv.manual = true ∧ manual.lifecycle = 0) ∧
    ((dmi.drv.trd.get (treadleOf (dmi.drv.even 23))).runs = [] ∧ (dmi.drv.trd.get (treadleOf (dmi.drv.even 23))).turn =
      none) ∧
    ((dmi.drv.valves.get 0).notfit = false ∧ dmi.drv.even 0 = 0) ∧
    (dmi.reaches .debug (0x40005600 + 16 * 23 + 4 * 3) true = true) ∧
    ((0x1F04 : Word).extractLsb' 13 19 = 0 ∧ (0x1F04 : Word).extractLsb' 4 4 = 0 ∧ ((0x1F04 : Word).extractLsb' 0 4).toNat ≤
      4 ∧ dmi.drv.vs 23 = .unknown ∧ dmi.drv.engaged 23 = false) ∧
    (dmi.reaches .debug 0x40005040 false = true) := by decide +kernel

/-- Meets the hypotheses of FlowMeasurementsRunTheirRules. -/
theorem witness_flow :
    ((flow1.flow 0).en = true ∧ (flow1.flow 0).period ≠ 0 ∧ flow1.tmp.counting = true ∧ flow1.sys.runDmi = true) ∧
    (flow1.reaches .debug 0x40006100 true = true) ∧
    (∀ n : Fin 3, (1 : BitVec 3).getLsbD n.val = true → (flow1.flow n).en = true) ∧
    (flow2.flw.meas = none ∧ flow2.flw.dead = false ∧ (flow2.flow 0).due = true ∧ ∀ m : Fin 3, (flow2.flow m).due = true →
      (flow2.flow 0).dueAt < (flow2.flow m).dueAt ∨ (flow2.flow 0).dueAt = (flow2.flow m).dueAt ∧ 0 ≤ m) ∧
    (let l := flow2.flow 0
    l.wopen < l.wclose ∧ l.wclose + 50 ≤ l.sint ∧ l.npulse * l.fdiv ≤ 64 * l.wopen) ∧
    (let l := flow3.flow 0
    ¬ (l.wopen < l.wclose) ∧ l.due = true) ∧
    (flow4.flw.meas.isSome = true ∧ (flow4.flow 0).pairs ≠ 0) ∧
    (flow5.flw.meas.any (fun m => decide (m.shots.length = 2 * (flow5.flow m.line).pairs)) = true) ∧
    (flow1.reaches .debug (0x4000600C + 0x40 * 2) true = true) ∧
    ((closed.flow 2).zsettle ≠ 0 ∧ (closed.flow 2).mask ≠ 0 ∧ (closed.flow 2).zcond = false ∧ closed.tmp.counting = true) ∧
    (∀ v : Fin 24, closed.drv.vs v = .closed) ∧
    (flow1.flw.dead = false ∧ flow1.sys.xoRun = true) := by decide +kernel

/-- Meets the hypotheses of PulseInputsCountTransitions. -/
theorem witness_pulse_inputs :
    ((contact.flow 2).pmode = 1) ∧
    (contact.pulseLevel 2 .active = some true) ∧
    (contact.pulseLevel 2 .between = none) ∧
    (contact.reaches .debug (0x40006010 + 0x40 * 2) true = true ∧ contact.sys.runDmi = true) ∧
    ((settledPin.flow 2).pmode ≠ 0 ∧ (settledPin.flow 2).pin.settled = true) ∧
    (((settledPin.flow 2).pedge = 2 ∨ (settledPin.flow 2).pedge = 0)) := by decide +kernel

/-- Meets the hypotheses of PressureLinesSampleAndCapture. -/
theorem witness_pressure :
    ((prs .recording).powered = true ∧ (prs .recording).sys.runDmi = true ∧ ((prs .recording).prsLine 2).armed = true) ∧
    ((prs .recording).cmpByLine 2 = false ∧ (prs .recording).isArmed 6 = false ∧ Memory.wf (prs .recording).mem = true) ∧
    ((prs .recording).reaches .debug (0x40007008 + 0x40 * 2) true = true) ∧
    (((prs .hold).prsLine 2).state = .hold ∧ ((prs .hold).prsLine 2).armed = true) ∧
    (((prs .post).prsLine 2).state = .post ∧ ((prs .post).prsLine 2).rec_ = some record ∧ record.toff.isSome = true ∧ ((prs
      .post).prsLine 2).len - ((prs .post).prsLine 2).pre ≤ record.npost) ∧
    (spotting.prsLine 0 = { PrsLine.reset with spot := true }) := by decide +kernel

/-- Meets the hypotheses of ComparatorsFollowTheirInputs. -/
theorem witness_comparators :
    (cmp3.cmpActive 3 = true ∧ cmp3.cmpByLine 3 = false ∧ (cmp3.prs.cmp.get 3).srate ≠ 7) ∧
    (cmp7.cmpActive 3 = true ∧ cmp7.cmpByLine 3 = false ∧ (cmp7.prs.cmp.get 3).srate = 7) ∧
    (s0.reaches .debug (0x40008000 + 4 * 7) true = true ∧ (0 : Word).getLsbD 18 = false ∧ (0 : Word).extractLsb' 25 3 ≠ 6 ∧
      ((0 : Word).extractLsb' 23 2).toNat < 2 ∧ (0 : Word).extractLsb' 28 2 ≠ 2) ∧
    (s0.reaches .debug 0x4000802C true = true ∧ (0xFFFF : Word).extractLsb' 16 16 = 0) ∧
    (blanked.prs.nextWin .tmpMatch = some { src := .tmpMatch, mask := 1, valve := 0, tail := 16000, due := some 9 }) := by decide +kernel

/-- Meets the hypotheses of TempoStartsAndFallsBack. -/
theorem witness_tempo :
    (s0.powered = true ∧ s0.tmp.counting = false) ∧
    (tick.tmp.counting = true ∧ tick.tmp.xtfail = false) ∧
    (({ s0 with tmp := { s0.tmp with xtfail := true } } : State).tmp.xtfail = true) ∧
    (({ s0 with tmp := { s0.tmp with src := 2, trace := true } } : State).tmp.trace = true) := by decide +kernel

/-- Meets the hypotheses of TempoRegistersReadAndWrite. -/
theorem witness_tempo_registers :
    (s0.powered = true ∧ s0.sys.posted = [] ∧ ∀ f ∈ s0.sys.failed, f.init ≠ .debug) ∧
    (tick.reaches .debug 0x40004000 false = true) ∧
    (s0.reaches .debug 0x4000400C false = true ∧ s0.reaches .debug 0x4000400C true = true) ∧
    (s0.tmp.sync = false) ∧
    (s0.reaches .debug 0x40004010 true = true ∧ s0.reaches .debug 0x40004014 true = true ∧ s0.reaches .debug 0x40004018 true
      = true) ∧
    (({ tick with tmp := { tick.tmp with phase := max tick.tmp.phase (tick.tmp.captured 1 ⟨1, 2⟩) } } : State).reaches
      .debug 0x40004000 false = true) ∧
    (tick.tmp.counting = true ∧ 0 < (⟨1, 2⟩ : Ring).nb) := by decide +kernel

/-- Meets the hypotheses of TempoFollowsItsEdges. -/
theorem witness_tempo_edges :
    (({ tick with tmp := { tick.tmp with marm := true } } : State).tmp.marm = true) ∧
    ((tick.tmp.now.toNat + 2 ^ 32 - tick.tmp.tmatch.toNat) % 2 ^ 32 < 2 ^ 31) ∧
    (pps.tmp.src = 2 ∧ pps.tmp.xtfail = false ∧ pps.tmp.counting = true) ∧
    (pps.tmp.gp0At = none) ∧
    (pps.tmp.ppsEdges = 0) ∧
    (synced.tmp.sync = true ∧ synced.tmp.parentErr ≤ 65520) ∧
    (0 ^ 2 + 9 * (66 ^ 2 + (30 * 1023) ^ 2) ≤ (92071 : Nat) * 92071) ∧
    (s0.tmp.sync = false) := by decide +kernel

/-- Meets the hypotheses of RadioKeepsItsLimits. -/
theorem witness_radio :
    (hearing.receiving = true) ∧
    (frameBad.phr.toNat % 2048 < 5) ∧
    (hopping.rad.unset = false ∧ hopping.tmp.counting = true) ∧
    (rad.sys.runRad = true ∧ rad.reaches .debug 0x4000900C true = true) ∧
    (let v : Word := 0x80008001
    1 ≤ (v.extractLsb' 15 15).toNat ∧ (v.extractLsb' 15 15).toNat ≤ 22500 ∧ v.extractLsb' 0 14 ≠ 0) ∧
    (rad.reaches .debug 0x40009000 true = true ∧ rad.lifecycle = 0 ∧ (0x10 : Word) &&& 0xFFFF80CC = 0 ∧ ((0x10 :
      Word).extractLsb' 8 7).toNat < rad.rad.chans ∧ (0x10 : Word).extractLsb' 4 2 = 1) ∧
    (listens.listening = true) ∧
    (root.macRuns = true ∧ (root.pickCell 256).isSome = true) ∧
    ((later root 65280000).asn = 255) ∧
    (hearing.hears frameBad = true) ∧
    (hearing.hears (frameOf (List.replicate 5 0)) = true ∧ crc32 [0] ≠ ofLE [0, 0, 0, 0]) ∧
    ((talks 1900 true).rad.lbt = true ∧ (talks 1900 true).sys.runRad = true ∧ ((talks 1900 true).dwellCheck 0 ((talks 1900
      true).rad.onTime ((talks 1900 true).servingLen .beacon))).isNone = true) ∧
    (¬ ((talks 1901 true).macx.before = false ∨ (talks 1901 true).rad.lbtLt.toNat ≤ 1900) ∧ (talks 1901 true).rad.lbt =
      true) ∧
    ((talks 1901 false).macx.before = false) ∧
    (hopping.rad.unset = false ∨ hopping.rad.oldPlan ≠ none) := by decide +kernel

/-- Meets the hypotheses of RadioKeepsItsLimits. -/
theorem witness_acknowledgement :
    (waitsAck.receiving = true) ∧
    (waitsAck.macx.attempt = some { link := 0, lseq := 5, type := 1, due := 0 }) ∧
    (∀ q ∈ waitsAck.macx.queue, q.down = false) ∧
    (frameOk ack = true ∧ fcType ack = 1) ∧
    (crc32 (ack.take 8) = ofLE (ack.drop 8)) ∧
    (oct ack 2 = 5 ∧ oct16 ack 3 = waitsAck.mac.saddr.toNat ∧ oct16 ack 5 = (waitsAck.neigh (waitsAck.link
      0).neigh).saddr.toNat) ∧
    (waitsAck.hears (frameOf ack) = true) ∧
    ((frameOf ack).phr.toNat % 2048 = 12) := by decide +kernel

/-- Meets the hypotheses of SlotsServeTheirCells. -/
theorem witness_slots :
    (cells.macRuns = true ∧ cells.pickEv (cells.asn + 1) = true) ∧
    (beaconing.keyupDue = true ∧ (beaconing.rad.ctl.getLsbD 0) = true ∧ beaconing.lnk.valid = false) ∧
    ((beaconing.slot 1).valid = true ∧ (beaconing.slot 1).fcnt ≠ 0xFFFFFFFF ∧ (beaconing.slot 1).fcnt.toNat <
      (beaconing.sec.store.get 1).ceiling.toNat) ∧
    ((later cells 256000).macRuns = true ∧ ((later cells 256000).asn + 2 ^ 40 - (later cells 256000).macx.slotAsn) % 2 ^ 40
      = 1) := by decide +kernel

/-- Meets the hypotheses of SlotsServeTheirCells. -/
theorem witness_key_ups :
    (silent.keyupDue = true ∧ Machine.bit silent.rad.ctl 0 = false) ∧
    (Machine.bit sending.rad.ctl 0 = true ∧ sending.lnk.valid = true ∧ sending.lnk.head = true ∧ sending.keyupDue = true) ∧
    (sending.dwellCheck sending.macx.chan (sending.rad.onTime 48) = none) ∧
    (sending.macx.serving = .beacon ∧ (sending.slot 1).valid = true ∧ (sending.slot 1).fcnt.toNat < (sending.sec.store.get
      1).ceiling.toNat) ∧
    (ackDue.macx.ack.isSome = true ∧ ackDue.sys.runRad = true) ∧
    (ackDue.dwellCheck 0 (ackDue.rad.onTime 12) = none) ∧
    (waitsAck.macx.attempt.isSome = true) ∧
    (expecting.macx.serving.receives = true ∧ expecting.rad.state = .receive) := by decide +kernel

/-- Meets the hypotheses of SuperframesAndScansRun. -/
theorem witness_superframes :
    (root.mac.mode = 2) ∧
    (cells.macRuns = true) ∧
    (childOut.macRuns = true ∧ childOut.mac.mode ≠ 2 ∧ childOut.tmp.sync = false) ∧
    (∀ l : Fin 16, (childOut.link l).state ≠ .off → (childOut.link l).supage.toNat + 1 < childOut.mac.supv.toNat) ∧
    (scans.scanning = true ∧ scans.macx.scanPause = false) ∧
    (({ scans with macx := { scans.macx with scanPause := true } } : State).scanning = true) ∧
    (rad.reaches .debug 0x4000A008 false = true) ∧
    (({ scans with macx := { scans.macx with scanPause := true } } : State).macx.scanPause = true) := by decide +kernel

/-- Meets the hypotheses of MacModesAndLinksChange. -/
theorem witness_mac_modes :
    (rad.reaches .debug 0x4000A000 true = true ∧ rad.mac.ctl &&& 0xFF0008FC = 0 ∧ rad.mac.ctl.extractLsb' 16 4 ≠ 0 ∧
      rad.mac.ctl.extractLsb' 12 4 ≠ 0 ∧ rad.mac.ctl.extractLsb' 12 4 &&& 8 = 0) ∧
    (rad.mac.mode = 0) ∧
    (root.mac.mode ≠ 0) ∧
    (headRad.lnk.valid = true ∧ headRad.lnk.head = true ∧ headRad.mac.mode = 0 ∧ headRad.tmp.src = 0) ∧
    (headFree.tmp.src = 3 ∧ headFree.tmp.sync = true) ∧
    (rad.reaches .debug 0x4000A030 true = true) ∧
    ((linkSel.mac.tabsel = BitVec.ofNat 32 (0x20000000 + 6 * 15)) ∧ (linkSel.link 15).inc ≠ 0 ∧ (linkSel.link 15).state =
      .off) ∧
    (linkSel.mac.mode = 1 ∧ linkSel.mac.parentLink = none ∧ (linkSel.neigh (linkSel.link 15).neigh).depth ≠ 8) ∧
    (cells.macRuns = true) ∧
    (cellOk 0 = true) ∧
    ((0 : Word) &&& 0x7E00FC00 = 0 ∧ ((0x000A03FF : Word).extractLsb' 16 4).toNat ≤ 10) := by decide +kernel

/-- Meets the hypotheses of KeySlotsAndStoreFollowTheirRules. -/
theorem witness_key_slots :
    (self.powered = true ∧ self.sec.stok = true ∧ self.lifecycle = 0) ∧
    (self.reaches .debug 0x4000B008 true = true) ∧
    ((24572 : BitVec 15).toNat ≤ 24572) ∧
    (({ self with sec := { self.sec with commit := true } } : State).sec.commit = true) ∧
    (self.sec.commit = false ∧ self.sec.commitNext = false) ∧
    ((wrapped.slot 3).valid = false ∧ (wrapped.slot 0).valid = true) ∧
    ((keyed.slot 15).valid = true ∧ (15 : Fin 16) ≠ (if keyed.sec.nettx then 2 else 1)) ∧
    ((keyed.slot 2).valid = true ∧ (self.slot 15).valid = false) ∧
    (∀ e ∈ wrapped.mem.ecc, e.1 + 8 ≤ 0x20000000 ∨ 0x20000000 + 32 ≤ e.1) := by decide +kernel

/-- Meets the hypotheses of KeySlotsAndStoreFollowTheirRules. -/
theorem witness_key_reports :
    (({ self with sec := { self.sec with commit := true } } : State).sec.commit = true) ∧
    (({ self with sec := { self.sec with entok := true } } : State).sec.entok = true) ∧
    (self.reaches .debug 0x4000B01C false = true) := by decide +kernel

/-- Meets the hypotheses of RomServicesAnswer. -/
theorem witness_rom_services :
    ((service 0x100).powered = true ∧ (service 0x100).coreRuns = true ∧ ((service 0x100).sh 0).en = true ∧ ((service
      0x100).sh 0).run = .ready ∧ (service 0x100).user 0 = false ∧ (service 0x100).sec.stok = true) ∧
    (((service 0x100).sh 0).pc = 0x100) ∧
    (inSram ((service 0x100).reg 0 3).toNat = true ∧ inSram (((service 0x100).reg 0 3).toNat + 31) = true) ∧
    (((service 0x108).sh 0).pc = 0x108 ∧ ((service 0x118).sh 0).pc = 0x118) ∧
    ((service 0x110).sec.entok = false) ∧
    ((service 0x118).lifecycle ≠ 3 ∧ (service 0x118).sec.commit = false ∧ (service 0x118).sec.commitNext = false) ∧
    (((service 0x118).reg 0 2).toNat < 3) ∧
    (onCurve g256 = true ∧ ecMul 256 1 (some g256) none = some g256) ∧
    (((service 0x100).irq 0).isNone = true ∧ ((service 0x100).reg 0 14).toNat % 4 = 0) := by decide +kernel

/-- Meets the hypotheses of LifecycleAndRollbackBurn. -/
theorem witness_burns :
    (made.powered = true ∧ made.lifecycle = 0 ∧ made.eui ≠ 0 ∧ made.bytes 0x40100100 16 ≠ 0 ∧ made.bytes 0x40100040 32 ≠ 0 ∧
      (made.otp 0x08).getLsbD 31 = true) ∧
    (made.reaches .debug 0x4000000C true = true ∧ made.secx.burn = none) ∧
    (provisioned.lifecycle = 1 ∧ provisioned.dbgLock = false ∧ provisioned.reaches .debug 0x4000000C true = true) ∧
    (levelled.reaches .debug 0x4000B014 true = true ∧ levelled.secx.rollback = none ∧ levelled.levels < 32 ∧ (32 : BitVec
      6).toNat ≤ levelled.sec.bootLevel.toNat ∧ levelled.lifecycle ≠ 3) ∧
    (burning.secx.burn = some { init := .debug, bits := 4, retire := true } ∧ Memory.wf burning.mem = true ∧ ∀ k : Fin 4,
      (burning.sh k).busyOn ≠ some (.burn false)) ∧
    (rolling.secx.rollback = some (32, .debug) ∧ ∀ k : Fin 4, (rolling.sh k).busyOn ≠ some (.burn true)) ∧
    (s0.lifecycle = 0 ∧ s0.otp 0x10C = 0 ∧ s0.otp 0 = 0) ∧
    (made.otp 0x08 ≠ 0) := by decide +kernel

/-- Meets the hypotheses of DebugAuthenticates. -/
theorem witness_debug :
    (entropy.sec.dbgst = .idle ∧ (15 : BitVec 16).toNat < 16 ∧ entropy.sec.entok = true) ∧
    (chal.sec.dbgst = .chal ∧ chal.secx.chalPos < 8) ∧
    (({ chal with secx := { chal.secx with chalPos := 8 } } : State).secx.chalPos = 8) ∧
    (verify.sec.dbgst = .verify ∧ verify.sec.stok = true) ∧
    (s0.lifecycle ≠ 2 ∧ (s0.sh 0).run = .ready) ∧
    (({ s0 with eng := { s0.eng with stopped := true } } : State).sys.curSrc = 0) ∧
    ((s0.modSh 0 fun x => { x with run := .debug }).lifecycle ≠ 2) := by decide +kernel

/-- Meets the hypotheses of CountersGatherAndFreeze. -/
theorem witness_counters :
    (∀ n : Fin 8, (s0.prf.cnt.get n).toNat + s0.prf.gather.get n < 2 ^ 32) ∧
    (s0.reaches .debug 0x4000C000 true = true) ∧
    (s0.reaches .debug (0x4000C030 + 4 * 3) true = true) ∧
    (let h : BitVec 16 := 0xF043
    (h.extractLsb' 0 8).toNat = 0x43 ∧ h.getLsbD 8 = false ∧ h.extractLsb' 10 2 ≠ 3) ∧
    (gatherOf (gathered.prf.selOf 0 % 256) = some .aon) := by decide +kernel

/-- Meets the hypotheses of ChainEnumeratesItsMembers. -/
theorem witness_chain :
    (s0.lnk.sampled = false) ∧
    (chainHead.lnk.valid = true ∧ chainHead.lnk.head = true ∧ chainHead.lnk.rxbox = []) ∧
    (unplaced.lnk.valid = false ∧ unplaced.lnk.sampled = true ∧ unplaced.lnk.refused = false) ∧
    (member.lnk.head = false ∧ member.lnk.valid = true ∧ (31 : BitVec 5) ≠ member.lnk.pos) ∧
    (({ member with lnk := { member.lnk with hwWait := [5] } } : State).lnk.hwWait = 5 :: []) ∧
    (waitingLnk.next .down = some frameB ∧ waitingLnk.downTurn = true) ∧
    (s0.lnk.next .down = none ∧ s0.lnk.next .up = none) ∧
    (waitingLnk.downq ≠ [] ∧ s0.lnk.downTurn = true ∨ s0.lnk.downTurn = false) := by decide +kernel

/-- Meets the hypotheses of RemoteAccessesRunOneAtATime. -/
theorem witness_remote :
    (member.lnk.valid = true ∧ member.lnk.head = false ∧ (0 : BitVec 5) ≠ member.lnk.pos) ∧
    ((member.busRead .chain 0x40000000 4).2.cause = 0) ∧
    (remoteHead.lnk.head = true ∧ remoteHead.lnk.remotes = { (default : Remote) with init := .debug, pos := 1 } :: []) ∧
    ((remoteTo false).lnk.head = true ∧ ((remoteTo false).sh 0).busyOn = some (.remoteLoad 1) ∧ ((remoteTo false).sh 0).en =
      true ∧ ((remoteTo false).sh 0).restart = false ∧ ((remoteTo false).sh 0).inexc = false) ∧
    (((remoteTo true).sh 0).busyOn = some .remoteStore) := by decide +kernel

/-- Meets the hypotheses of MailboxesCarryMessages. -/
theorem witness_mailboxes :
    (s0.reaches .debug 0x4000D00C true = true ∧ s0.reaches .debug 0x4000D000 true = true ∧ s0.lnk.ctl &&& 0xFFFF07F0 = 0) ∧
    (staged.lnk.staged ≠ [] ∧ staged.lnk.txst ≠ 1) ∧
    (chainHead.lnk.valid = true ∧ chainHead.lnk.rxbox = []) ∧
    (member.lnk.head = false ∧ member.lnk.valid = true) ∧
    (outstanding.lnk.txst = 1 ∧ outstanding.lnk.valid = true ∧ outstanding.lnk.head = true) ∧
    (s0.reaches .debug 0x4000D010 false = true) := by decide +kernel

/-- Meets the hypotheses of SharedTimeFollowsTheHead. -/
theorem witness_shared_time :
    (tick.tmp.counting = true ∧ chainHead.lnk.ctl.getLsbD 3 = true ∧ chainHead.lnk.head = true) ∧
    (member.lnk.edge = none ∧ member.tmp.syncAt = none ∧ member.lnk.head = false ∧ member.lnk.valid = true) ∧
    (edged.lnk.edge = some 5 ∧ edged.armed.getLsbD 8 = false ∧ edged.lnk.head = false) ∧
    (({ member with lnk := { member.lnk with linkup := true } } : State).lnk.linkup = true) := by decide +kernel

end Sys2Proof.Tests
end

section
/-!
PROOFS. The reset state's shuttles, lines, comparators and links by index, and the statement about the values at reset.
-/

namespace Sys2Proof.Machine

/-! ## The reset state by index -/

/-- R112: shuttle 0 is the one that the boot ROM runs in. -/
@[simp] theorem reset_sh (k : Fin 4) : State.reset.sh k = Shuttle.reset (k == 0) := by
  match k with
  | 0 | 1 | 2 | 3 => rfl

@[simp] theorem reset_flow (n : Fin 3) : State.reset.flow n = FlowLine.reset n := by
  match n with
  | 0 | 1 | 2 => rfl

@[simp] theorem reset_prsLine (n : Fin 3) : State.reset.prsLine n = PrsLine.reset := by
  match n with
  | 0 | 1 | 2 => rfl

@[simp] theorem reset_cmp (c : Fin 8) : State.reset.prs.cmp.get c = Cmp.reset :=
  Vector.get_replicate 8 Cmp.reset c

@[simp] theorem reset_link (l : Fin 16) : State.reset.link l = Link.reset :=
  Vector.get_replicate 16 Link.reset l

/-! ## The values at reset -/

/-- Settles O2: the blocks that come in several copies by the lemmas above, every other field by computing State.reset. -/
theorem resetLeavesTheSpecifiedValues : Obligations.ResetLeavesTheSpecifiedValues := by
  unfold Obligations.ResetLeavesTheSpecifiedValues
  refine ⟨?command, fun k => ?shuttle, ?engine, ?sys, ?memory, ?energy, ?drive, fun n => ?lines, fun c => ?comparator,
    ?blank, ?tempo, ?radio, ⟨rfl, rfl, rfl, rfl, fun l => ?link⟩, ?security, ?counters, ?chain⟩
  case shuttle => simp [Shuttle.reset]
  case lines =>
    rw [reset_flow, reset_prsLine]
    and_intros <;> rfl
  case comparator =>
    rw [reset_cmp]
    and_intros <;> rfl
  case link => rw [reset_link]; rfl
  case blank => rfl
  case command | engine | sys | memory | energy | drive | tempo | radio | security | counters | chain =>
    and_intros <;> rfl

end Sys2Proof.Machine
end

section
/-!
SUPPORT. The rules of the energy manager's operations: outcomes of its commands, the energy events, and what a change of a
source, of the charger or of the boost leaves, up to counting and events (R46 to R60, R70).
-/

namespace Sys2Proof.Machine

/-! ## Bits and fields -/

theorem bit_eq_getLsbD (w : Word) (i : Nat) : bit w i = w.getLsbD i := by
  simp [bit, fld, BitVec.getLsbD, Nat.testBit]

theorem fld_eq_extractLsb' (w : Word) (lo n : Nat) : fld w lo n = (w.extractLsb' lo n).toNat := by
  simp [fld]

theorem fld_zero_iff (w : Word) (lo n : Nat) : fld w lo n = 0 ↔ w.extractLsb' lo n = 0 := by
  rw [fld_eq_extractLsb', ← BitVec.toNat_inj]
  rfl

/-! ## Outcomes -/

theorem whenever_powered {s : State} (h : s.powered = true) (c : Bool) (f : State → State) :
    whenever s c f = .next (if c then f s else s) := by
  cases c <;> simp [whenever, h]

theorem whenever_holds {s : State} (h : s.powered = true) {c : Bool} (hc : c = true) (f : State → State) :
    whenever s c f = .next (f s) := by
  rw [whenever_powered h, if_pos hc]

theorem whenPowered_powered {s : State} (h : s.powered = true) (f : State → State) : whenPowered s f = .next (f s) := by
  simp [whenPowered, h]

/-- A next state that counting and events have made of `u` touches what `w` takes from it, if that is all in which `u` differs
from the state before. -/
theorem touches_of_quiet {o : Out} {u t : State} {w : State → State} {f : State → Prop} (ho : o = .next t)
    (hq : Quiet u t) (hw : ∀ n, w (u.noted n) = u) (hf : ∀ n, t = u.noted n → f (u.noted n)) : Touches o w f := by
  obtain ⟨n, -, rfl⟩ := hq
  exact ⟨_, n, ho, by rw [hw], hf n rfl⟩

theorem Quiet.modNrg {s t : State} (h : Quiet s t) (f : Nrg → Nrg) : Quiet (s.modNrg f) (t.modNrg f) := by
  obtain ⟨n, hn, rfl⟩ := h
  exact ⟨n, hn, rfl⟩

theorem Quiet.modNrgx {s t : State} (h : Quiet s t) (f : NrgAux → NrgAux) : Quiet (s.modNrgx f) (t.modNrgx f) := by
  obtain ⟨n, hn, rfl⟩ := h
  exact ⟨n, hn, rfl⟩

theorem Quiet.modTmp {s t : State} (h : Quiet s t) (f : Tmp → Tmp) : Quiet (s.modTmp f) (t.modTmp f) := by
  obtain ⟨n, hn, rfl⟩ := h
  exact ⟨n, hn, rfl⟩

theorem modNrg_self (s : State) (f : Nrg → Nrg) (h : f s.nrg = s.nrg) : s.modNrg f = s := by
  rw [State.modNrg, h]

theorem modNrgx_self (s : State) (f : NrgAux → NrgAux) (h : f s.nrgx = s.nrgx) : s.modNrgx f = s := by
  rw [State.modNrgx, h]

/-! ## Events -/

theorem event_evpend (s : State) (e : Nat) : (s.event e).eng.evpend = s.eng.evpend ||| BitVec.ofNat 16 (1 <<< e) := by
  unfold State.event
  dsimp only
  split <;> rfl

theorem event_pends (s : State) (e : Fin 16) : (s.event e).eng.evpend.getLsbD e = true := by
  rw [event_evpend, BitVec.getLsbD_or, BitVec.getLsbD_ofNat, Nat.one_shiftLeft, Nat.testBit_two_pow_self]
  simp

theorem entered_pend (s : State) (ev : Nat) (k : Option (Fin 4)) (a b : Bool) {e : Nat} (he : e ≠ 13) :
    (s.entered ev k a b).eng.evpend.getLsbD e = s.eng.evpend.getLsbD e :=
  (loose_ite (count_loose s ev k .entry 1) (Loose.refl s)).pend e he

/-! ## The sources -/

theorem srcChange_quiet (s : State) : Quiet (s.modNrg fun n => { n with evsrc := true }) s.srcChange :=
  quiet_ite (event_quiet _ _) (Quiet.refl _)

theorem srcChange_pends (s : State) (h : s.nrg.ctl.getLsbD 4 = true) : s.srcChange.eng.evpend.getLsbD 9 = true := by
  simp only [State.srcChange, modNrg_nrg, bit_eq_getLsbD, h, if_true]
  exact event_pends _ 9

/-- A source's bit that changes (`f`) sets EVSRC; one that is as it was (`c`) does nothing. -/
theorem quiet_source {c : Prop} [Decidable c] (s : State) (f : Nrg → Nrg) (h : c → f s.nrg = s.nrg) :
    Quiet (s.modNrg fun n => { f n with evsrc := (f n).evsrc || !decide c }) (if c then s else (s.modNrg f).srcChange) := by
  split
  case isTrue hc =>
    rw [modNrg_self _ _ (by simp [hc, h])]
    exact Quiet.refl s
  case isFalse hc =>
    have e : (s.modNrg fun n => { f n with evsrc := (f n).evsrc || !decide c }) =
        (s.modNrg f).modNrg fun n => { n with evsrc := true } := by simp [State.modNrg, hc]
    exact e ▸ srcChange_quiet _

theorem setDc_quiet (s : State) (b : Bool) :
    Quiet (s.modNrg fun n => { n with dcPres := b, evsrc := n.evsrc || !decide (s.nrg.dcPres = b) }) (s.setDc b) :=
  quiet_source s (fun n => { n with dcPres := b }) fun h => by rw [← h]

@[simp] theorem noted_pvRuns (s : State) (n : Noted) : (s.noted n).pvRuns = s.pvRuns := rfl

/-- The registers once the panel's converter switches as `b` says. -/
def Nrg.withPv (n : Nrg) (b : Bool) : Nrg := { n with pvAct := b, evsrc := n.evsrc || b != n.pvAct }

theorem pvUpdate_quiet (s : State) : Quiet (s.modNrg fun n => n.withPv s.pvRuns) s.pvUpdate := by
  have e : (!decide (s.nrg.pvAct = s.pvRuns)) = (s.pvRuns != s.nrg.pvAct) := by
    rw [bne, Bool.beq_comm]
    rfl
  have h := quiet_source (c := s.nrg.pvAct = s.pvRuns) s (fun n => { n with pvAct := s.pvRuns }) fun h => by rw [← h]
  rw [e] at h
  exact h

theorem pvUpdate_pends (s : State) (h : s.pvRuns ≠ s.nrg.pvAct) (hc : s.nrg.ctl.getLsbD 4 = true) :
    s.pvUpdate.eng.evpend.getLsbD 9 = true := by
  rw [State.pvUpdate, State.setPv, if_neg (Ne.symm h)]
  exact srcChange_pends _ hc

theorem Quiet.pvUpdate {s t : State} (h : Quiet s t) : Quiet (s.modNrg fun n => n.withPv s.pvRuns) t.pvUpdate := by
  have e : t.pvRuns = s.pvRuns := by
    obtain ⟨n, -, rfl⟩ := h
    rfl
  exact (h.modNrg _).trans (e ▸ pvUpdate_quiet t)

/-- A command that ends with the panel's converter switching anew. -/
theorem touches_pvUpdate {o : Out} {s u : State} (ho : o = .next u.pvUpdate)
    (hu : ({ s with nrg := (u.modNrg fun n => n.withPv u.pvRuns).nrg, nrgx := u.nrgx } : State) =
      u.modNrg fun n => n.withPv u.pvRuns) :
    Touches o (fun t => { s with nrg := t.nrg, nrgx := u.nrgx }) fun t =>
      t.nrg = { u.nrg with pvAct := t.pvRuns, evsrc := u.nrg.evsrc || t.pvRuns != u.nrg.pvAct } ∧
      (t.pvRuns ≠ u.nrg.pvAct → u.nrg.ctl.getLsbD 4 = true → t.eng.evpend.getLsbD 9 = true) := by
  refine touches_of_quiet ho (pvUpdate_quiet u) (fun _ => hu) fun n hn => ⟨rfl, fun h hc => ?_⟩
  rw [← hn]
  exact pvUpdate_pends u h hc

/-- The registers once the TEG converter delivers as `b` says. -/
def Nrg.withTeg (n : Nrg) (b : Bool) : Nrg := { n with tegAct := b, evsrc := n.evsrc || !decide (n.tegAct = b) }

/-- The TEG converter delivers: it is enabled, has taken over and is not idle (R55, R57). -/
def State.tegRuns (s : State) : Bool := s.nrg.ctl.getLsbD 1 && s.nrgx.tegRun && !s.nrg.tegIdle

theorem tegUpdate_quiet (s : State) : Quiet (s.modNrg fun n => n.withTeg s.tegRuns) s.tegUpdate := by
  rw [State.tegUpdate, bit_eq_getLsbD]
  exact quiet_source s (fun n => { n with tegAct := s.tegRuns }) fun h => by rw [← h]

/-! ## The charger's state and the boost -/

theorem setChg_quiet (s : State) (c : Chg) :
    Quiet (s.modNrg fun n => { n with chg := c, evchg := n.evchg || !decide (n.chg = c) }) (s.setChg c) := by
  unfold State.setChg
  split
  case isTrue h =>
    rw [modNrg_self _ _ (by simp [← h])]
    exact Quiet.refl s
  case isFalse h =>
    have e : (s.modNrg fun n => { n with chg := c, evchg := n.evchg || !decide (n.chg = c) }) =
        s.modNrg fun n => { n with chg := c, evchg := true } := by simp [State.modNrg, h]
    rw [e]
    exact (quiet_ite (event_quiet _ _) (Quiet.refl _)).trans (entered_quiet _ _ _ _ _)

theorem setChg_pends (s : State) (c : Chg) (h : c ≠ s.nrg.chg) (hc : s.nrg.ctl.getLsbD 5 = true) :
    (s.setChg c).eng.evpend.getLsbD 9 = true := by
  rw [State.setChg, if_neg (Ne.symm h)]
  dsimp only
  rw [entered_pend _ _ _ _ _ (by decide), if_pos (by rw [modNrg_nrg, bit_eq_getLsbD]; exact hc)]
  exact event_pends _ 9

theorem setBoost_quiet (s : State) (b : Bool) : Quiet (s.modNrgx fun x => { x with boostOn := b }) (s.setBoost b) :=
  entered_quiet _ _ _ _ _

theorem boostCheck_quiet (s : State) :
    Quiet (s.modNrgx fun x => { x with boostOn := x.boostOn && s.boostAllowed }) s.boostCheck := by
  unfold State.boostCheck
  split
  case isTrue h =>
    rw [Bool.and_eq_true, Bool.not_eq_true'] at h
    rw [h.2]
    simpa using setBoost_quiet s false
  case isFalse h =>
    rw [modNrgx_self]
    · exact Quiet.refl s
    · have e : (s.nrgx.boostOn && s.boostAllowed) = s.nrgx.boostOn := by simpa using h
      rw [e]

theorem boostCheck_pend (s : State) {e : Nat} (he : e ≠ 13) :
    s.boostCheck.eng.evpend.getLsbD e = s.eng.evpend.getLsbD e := by
  unfold State.boostCheck
  split
  · exact entered_pend _ _ _ _ _ he
  · rfl

end Sys2Proof.Machine
end

section
/-!
PROOFS. The boundary of domain NRG, the cell switch and the sources (R46 to R63, R98), and the statement about them.
-/

namespace Sys2Proof.Machine

/-! ## The boundary of domain NRG -/

/-- The state once an idle TEG converter goes on (R57). -/
def State.tegWoken (s : State) : State :=
  (s.modNrg fun n => ({ n with tegIdle := false } : Nrg).withTeg (n.ctl.getLsbD 1 && s.nrgx.tegRun)).modNrgx fun x =>
    { x with tegWatch := false }

theorem tegRestart_quiet (s : State) (teg20 : Bool) :
    Quiet (if s.nrg.tegIdle && (teg20 || s.nrgx.tegWatch) then s.tegWoken else s) (s.tegRestart teg20) := by
  unfold State.tegRestart
  split
  · have h := tegUpdate_quiet ((s.modNrg fun n => { n with tegIdle := false }).modNrgx fun x => { x with tegWatch := false })
    simpa [State.modNrg, State.modNrgx, State.tegWoken, State.tegRuns] using h
  · exact Quiet.refl s

/-- The state once an armed NRG_FOCV has swapped (R211). -/
def State.focvSwapped (s : State) : State :=
  { s with
    armed := s.armed &&& ~~~(BitVec.ofNat 9 (1 <<< 7))
    nrg := { s.nrg with focvAct := if s.armed.getLsbD 7 then s.nrg.focvSh else s.nrg.focvAct } }

theorem disarmed_eq_self (a : BitVec 9) (d : Nat) (h : a.getLsbD d = false) : a &&& ~~~(BitVec.ofNat 9 (1 <<< d)) = a := by
  refine BitVec.eq_of_getLsbD_eq fun i hi => ?_
  rw [BitVec.getLsbD_and, BitVec.getLsbD_not, BitVec.getLsbD_ofNat, Nat.one_shiftLeft, Nat.testBit_two_pow]
  by_cases e : d = i
  · subst e
    simp [h]
  · simp [e, hi]

theorem swap_eq_focvSwapped (s : State) :
    (if s.isArmed 7 then (s.disarm 7).modNrg fun n => { n with focvAct := n.focvSh } else s) = s.focvSwapped := by
  unfold State.isArmed State.focvSwapped
  split
  case isTrue h => rfl
  case isFalse h => rw [disarmed_eq_self s.armed 7 (by simpa using h)]

theorem focvSwapped_disarmed (s : State) : s.focvSwapped.armed.getLsbD 7 = false := by
  simp [State.focvSwapped]

/-- The boundary starts the panel's sample: panel mode, and PERIOD of the copy that is then active is not 0 (R49, R51). -/
def State.panelSamples (s : State) : Bool := !s.nrg.dcMode && s.focvSwapped.nrg.period != 0

/-- The state at the boundary of domain NRG, before an idle TEG converter goes on: the swap, and the samples that start. -/
def State.atBoundary (s : State) : State :=
  { s.focvSwapped with
    nrg := { s.focvSwapped.nrg with focvReg := s.panelSamples && s.nrg.focvReg }
    nrgx := { s.nrgx with
      pvSampling := s.panelSamples, tegSampling := s.nrgx.tegRun && bit s.nrg.ctl 1,
      pvTarget := if s.panelSamples then s.nrgx.pvTarget else s.nrgx.vMpset * 256,
      pvLowOff := s.panelSamples && s.nrgx.pvLowOff } }

theorem nrgBoundary_eq (s : State) (teg20 : Bool) : s.nrgBoundary teg20 = (s.atBoundary.tegRestart teg20).pvUpdate := by
  unfold State.nrgBoundary State.atBoundary
  rw [swap_eq_focvSwapped]
  have h : (!s.focvSwapped.nrg.dcMode && s.focvSwapped.nrg.period != 0) = s.panelSamples := rfl
  dsimp only
  rw [h]
  cases s.panelSamples <;> rfl

/-- The state that a boundary of domain NRG yields, up to events. -/
def State.boundaryEnd (s : State) (teg20 : Bool) : State :=
  let u := if s.nrg.tegIdle && (teg20 || s.nrgx.tegWatch) then s.atBoundary.tegWoken else s.atBoundary
  u.modNrg fun n => n.withPv u.pvRuns

theorem nrgBoundary_quiet (s : State) (teg20 : Bool) : Quiet (s.boundaryEnd teg20) (s.nrgBoundary teg20) := by
  rw [nrgBoundary_eq]
  exact (tegRestart_quiet s.atBoundary teg20).pvUpdate

theorem extract_ne_zero (n : Nrg) : (n.focvAct.extractLsb' 0 8 != 0) = (n.period != 0) := by
  rw [Nrg.period, fld_eq_extractLsb', Bool.eq_iff_iff, bne_iff_ne, bne_iff_ne, ne_eq, ne_eq, ← BitVec.toNat_inj]
  rfl

theorem boundaryEnd_frame (s : State) (teg20 : Bool) :
    { s with
      nrg := (s.boundaryEnd teg20).nrg, nrgx := (s.boundaryEnd teg20).nrgx, armed := (s.boundaryEnd teg20).armed } =
      s.boundaryEnd teg20 := by
  unfold State.boundaryEnd
  split <;> rfl

theorem boundaryEnd_pvAct (s : State) (teg20 : Bool) : (s.boundaryEnd teg20).nrg.pvAct = (s.boundaryEnd teg20).pvRuns := rfl

theorem boundaryEnd_nrgx (s : State) (teg20 : Bool) :
    (s.boundaryEnd teg20).nrgx = { s.atBoundary.nrgx with
      tegWatch := if s.nrg.tegIdle && (teg20 || s.nrgx.tegWatch) then false else s.nrgx.tegWatch } := by
  unfold State.boundaryEnd
  split <;> rfl

theorem boundaryEnd_armed (s : State) (teg20 : Bool) : (s.boundaryEnd teg20).armed = s.focvSwapped.armed := by
  unfold State.boundaryEnd
  split <;> rfl

theorem boundaryEnd_focv (s : State) (teg20 : Bool) :
    (s.boundaryEnd teg20).nrg.focvAct = s.focvSwapped.nrg.focvAct ∧
      (s.boundaryEnd teg20).nrg.focvReg = (s.panelSamples && s.nrg.focvReg) := by
  unfold State.boundaryEnd
  split <;> exact ⟨rfl, rfl⟩

theorem boundaryEnd_teg (s : State) (teg20 : Bool) :
    (s.boundaryEnd teg20).nrg.tegIdle = (s.nrg.tegIdle && !(teg20 || s.nrgx.tegWatch)) ∧
      (s.boundaryEnd teg20).nrg.tegAct =
        if s.nrg.tegIdle && (teg20 || s.nrgx.tegWatch) then s.nrg.ctl.getLsbD 1 && s.nrgx.tegRun else s.nrg.tegAct := by
  unfold State.boundaryEnd
  split
  case isTrue h =>
    rw [Bool.and_eq_true] at h
    exact ⟨by rw [h.2, Bool.not_true, Bool.and_false]; rfl, rfl⟩
  case isFalse h =>
    refine ⟨?_, rfl⟩
    change s.nrg.tegIdle = _
    revert h
    cases s.nrg.tegIdle <;> simp

/-- What the boundary of domain NRG does, whichever command stands for it. -/
theorem touches_nrgBoundary {o : Out} {s : State} {teg20 : Bool} (ho : o = .next (s.nrgBoundary teg20)) :
    Touches o (fun t => { s with nrg := t.nrg, nrgx := t.nrgx, armed := t.armed }) fun t =>
      let swaps := s.armed.getLsbD 7
      let panel := !s.nrg.dcMode && t.nrg.focvAct.extractLsb' 0 8 != 0
      t.armed.getLsbD 7 = false ∧ t.nrg.focvAct = (if swaps then s.nrg.focvSh else s.nrg.focvAct) ∧
      t.nrgx.pvSampling = panel ∧ t.nrgx.tegSampling = (s.nrgx.tegRun && s.nrg.ctl.getLsbD 1) ∧
      t.nrgx.pvTarget = (if panel then s.nrgx.pvTarget else s.nrgx.vMpset * 256) ∧ t.nrg.pvAct = t.pvRuns ∧
      t.nrg.focvReg = (panel && s.nrg.focvReg) ∧
      t.nrg.tegIdle = (s.nrg.tegIdle && !(teg20 || s.nrgx.tegWatch)) ∧
      t.nrg.tegAct =
        (if s.nrg.tegIdle && (teg20 || s.nrgx.tegWatch) then s.nrg.ctl.getLsbD 1 && s.nrgx.tegRun else s.nrg.tegAct) := by
  refine touches_of_quiet ho (nrgBoundary_quiet s teg20) (fun n => boundaryEnd_frame s teg20) fun n _ => ?_
  obtain ⟨hAct, hReg⟩ := boundaryEnd_focv s teg20
  obtain ⟨hIdle, hTeg⟩ := boundaryEnd_teg s teg20
  have panel : (!s.nrg.dcMode && (s.boundaryEnd teg20).nrg.focvAct.extractLsb' 0 8 != 0) = s.panelSamples := by
    rw [extract_ne_zero, Nrg.period, hAct]
    rfl
  simp only [noted_nrg, noted_nrgx, noted_armed, noted_pvRuns, panel, boundaryEnd_armed, boundaryEnd_nrgx, hIdle, hTeg, hReg]
  exact ⟨focvSwapped_disarmed s, hAct, rfl, by rw [← bit_eq_getLsbD]; rfl, rfl, boundaryEnd_pvAct s teg20, trivial,
    trivial, trivial⟩

/-! ## The cell -/

theorem exec_cellUvCutoff_closed {s : State} (hp : s.powered = true) (v : Nat) (h : s.nrgx.cellSw = .closed) :
    exec (.cellUvCutoff v) s = .next (if v < s.nrg.uvMv then s.setCell .uvOpen else s) := by
  change execCellUvCutoff v s = _
  rw [execCellUvCutoff, whenever_powered hp]
  simp [h]

theorem exec_cellReconnect_uvOpen {s : State} (hp : s.powered = true) (v : Nat) (h : s.nrgx.cellSw = .uvOpen) :
    exec (.cellReconnect v) s = .next (if s.nrg.reconnectMv < v then s.setCell .closed else s) := by
  change execCellReconnect v s = _
  rw [execCellReconnect, whenever_powered hp]
  simp [h]

theorem exec_cellReconnect_opened {s : State} (hp : s.powered = true) (v : Nat) (h : s.nrgx.cellSw = .opened) :
    exec (.cellReconnect v) s = .next (if s.nrg.refOk = true ∧ s.nrg.reconnectMv ≤ v then s.setCell .closed else s) := by
  change execCellReconnect v s = _
  rw [execCellReconnect, whenever_powered hp]
  simp [h]

theorem exec_cellSwitchReclose_ocRetry {s : State} (hp : s.powered = true) (h : s.nrgx.cellSw = .ocRetry) :
    exec .cellSwitchReclose s = .next (s.setCell .closed) := by
  change execCellSwitchReclose s = _
  rw [execCellSwitchReclose, whenever_powered hp]
  simp [h]

theorem exec_cellOvercurrentTrip_closed {s : State} (hp : s.powered = true) (h : s.nrgx.cellSw = .closed) :
    let recent := s.local.toNat :: s.nrgx.ocTrips.filter fun t => decide (s.local.toNat ≤ t + 160000000)
    exec .cellOvercurrentTrip s = .next { s with nrgx := { s.nrgx with
      ocTrips := recent.take 3, cellSw := if 3 ≤ recent.length then .ocLatched else .ocRetry } } := by
  change execCellOvercurrentTrip s = _
  rw [execCellOvercurrentTrip, whenever_powered hp, h]
  rfl

theorem exec_referenceRefresh_refOk {s : State} (hp : s.powered = true) (h : s.nrg.refOk = true) :
    exec .referenceRefresh s = .next s := by
  change execReferenceRefresh s = _
  rw [execReferenceRefresh, whenPowered_powered hp, if_pos h]

/-- The cell switch after the first refresh, which may close it (R98). -/
def State.refreshedCell (s : State) : CellSwitch :=
  if s.nrgx.cellSw = .opened ∧ s.nrg.reconnectMv ≤ s.nrg.vcell.toNat then .closed else s.nrgx.cellSw

theorem exec_referenceRefresh_first {s : State} (hp : s.powered = true) (h : s.nrg.refOk = false) :
    exec .referenceRefresh s = .next ((s.setCell s.refreshedCell).modNrg fun n => { n with refOk := true }).pvUpdate := by
  change execReferenceRefresh s = _
  rw [execReferenceRefresh, whenPowered_powered hp, if_neg (by simp [h])]
  have hc : s.refreshedCell =
      if s.nrgx.cellSw == .opened && decide (s.nrg.reconnectMv ≤ s.nrg.vcell.toNat) then .closed else s.nrgx.cellSw := by
    simp [State.refreshedCell]
  rw [hc]
  change Host.Outcome.next (State.pvUpdate
    (if s.nrgx.cellSw == .opened && decide (s.nrg.reconnectMv ≤ s.nrg.vcell.toNat) then _ else _)) = _
  split <;> rfl

/-! ## The cell switch and the sources -/

/-- Settles O31: the cell's commands by their own rules; every source's command ends with `pvUpdate`, `tegUpdate` or the
boundary of domain NRG. -/
theorem cellAndSourcesSwitch : Obligations.CellAndSourcesSwitch := by
  unfold Obligations.CellAndSourcesSwitch
  refine ⟨fun s hp => ⟨exec_cellUvCutoff_closed hp, exec_cellReconnect_uvOpen hp, exec_cellReconnect_opened hp,
      exec_cellSwitchReclose_ocRetry hp, exec_cellOvercurrentTrip_closed hp, exec_referenceRefresh_refOk hp, fun h => ?refresh⟩,
    fun s hp => ⟨fun b hd hper => ?focvStart, fun b hc hper => ?tick, fun v h => ?focv, fun hd hv => ?ov, fun hv => ?ovClear,
      fun hc hr => ?takeover, fun v h => ?teg, fun hd hs => ?loss, fun hd hs => ?restore⟩⟩
  case refresh =>
    exact touches_of_quiet (exec_referenceRefresh_first hp h) (pvUpdate_quiet _) (fun _ => rfl) fun _ _ => ⟨rfl, rfl, rfl⟩
  case focvStart =>
    exact touches_nrgBoundary (show execFocvSampleStart b s = _ from whenever_holds hp (by simp [hd, hper]) _)
  case tick =>
    exact touches_nrgBoundary (show execNrgBoundaryTick b s = _ from whenever_holds hp (by simpa [hc] using hper) _)
  case focv => exact touches_pvUpdate (show execFocvSample v s = _ from whenever_holds hp h _) rfl
  case ov => exact touches_pvUpdate (show execPvOvervoltage s = _ from whenever_holds hp (by simp [hd, hv]) _) rfl
  case ovClear => exact touches_pvUpdate (show execPvOvervoltageClear s = _ from whenever_holds hp hv _) rfl
  case takeover =>
    exact (show execTegTakeover s = _ from whenever_holds hp (by simp [bit_eq_getLsbD, hc, hr]) _)
  case teg =>
    exact touches_of_quiet (show execTegSampleEnd v s = _ from whenever_holds hp h _) (tegUpdate_quiet _)
      (fun _ => rfl) fun _ _ => ⟨rfl, rfl, rfl⟩
  case loss =>
    refine touches_of_quiet (show execDcSupplyLoss s = _ from whenever_holds hp (by simp [hd, hs]) _)
      (setDc_quiet _ _).pvUpdate (fun _ => rfl) fun _ _ => ⟨rfl, ?_, ?_⟩
    · simp [Nrg.withPv, State.pvRuns, State.modNrg, State.modNrgx, hd]
    · simp [Nrg.withPv, State.modNrg, State.modNrgx, hs]
  case restore =>
    refine touches_of_quiet (show execDcSupplyRestore s = _ from whenever_holds hp (by simp [hd, hs]) _)
      (setDc_quiet _ _).pvUpdate (fun _ => rfl) fun _ _ => ⟨rfl, ?_, ?_⟩
    · simp [Nrg.withPv, State.pvRuns, State.modNrg, State.modNrgx, hd, bit_eq_getLsbD]
    · simp [Nrg.withPv, State.modNrg, State.modNrgx, hs]

end Sys2Proof.Machine
end

section
/-!
PROOFS. The cell measurement and the charger's rows (R58 to R65, R89, R90), and the statement about them.
-/

namespace Sys2Proof.Machine

/-! ## A cell measurement -/

/-- What a reading of the cell's thermistor leaves in TCELL and NTCFLT (R65). -/
def ntcReads : NtcReading → BitVec 10 × Bool
  | .temp q => (BitVec.ofInt 10 (clampI (-512) 511 q), decide (q < -160) || decide (400 < q))
  | .openCircuit => (0x200, true)
  | .shorted => (0x1FF, true)

/-- The registers with the readings of a measurement. -/
def Nrg.measured (n : Nrg) (m : CellSample) : Nrg :=
  { n with tcell := (ntcReads m.ntc).1, vcell := BitVec.ofNat 16 (min 65535 m.vcell), ntcflt := (ntcReads m.ntc).2 }

/-- The cell is blocked by over-voltage after a measurement (R61). -/
def Nrg.blocks (n : Nrg) (was : Bool) : Bool :=
  n.chemSet && (if n.ovMv ≤ n.vcell.toNat then true else if n.vcell.toNat < n.vchg then false else was)

/-- The charger's state after a measurement (R60). -/
def State.chgMeasured (s : State) (m : CellSample) : Chg :=
  (s.modNrg fun n => n.measured m).chgNext m.chargeMa m.harvest

/-- The last act arms at this measurement (R89). -/
def State.arms (s : State) : Bool :=
  decide (s.nrgx.laState = .idle ∧ s.nrg.chemSet ∧ s.laThresh + 100 ≤ s.nrg.vcell.toNat)

theorem laArm_eq (s : State) : s.laArm = s.modNrgx fun x => { x with laArmed := x.laArmed || s.arms } := by
  unfold State.laArm State.arms
  split
  case isTrue h => simp [h]
  case isFalse h => rw [modNrgx_self _ _ (by simp [h])]

/-- The charger set for its next state, which it has yet to take. -/
def State.chargerSet (s : State) (m : CellSample) : State :=
  { s with
    nrg := s.nrg.measured m
    nrgx := { s.nrgx with
      ovBlock := (s.nrg.measured m).blocks s.nrgx.ovBlock, chgTimer := (s.chgMeasured m).active,
      chgUa := if (s.nrg.measured m).blocks s.nrgx.ovBlock then 0 else (s.nrg.measured m).chargeUa (s.chgMeasured m) } }

theorem cellMeasure_eq (s : State) (m : CellSample) :
    s.cellMeasure m = (((s.chargerSet m).setChg (s.chgMeasured m)).laCountOne.laArm).boostCheck := by
  unfold State.cellMeasure State.chargerSet State.chgMeasured Nrg.measured ntcReads
  cases m.ntc <;> rfl

/-- The charger in its next state. -/
def State.chargerMoved (s : State) (m : CellSample) : State :=
  (s.chargerSet m).modNrg fun n => { n with chg := s.chgMeasured m, evchg := n.evchg || !decide (n.chg = s.chgMeasured m) }

/-- The state that a measurement yields, up to events. -/
def State.measureEnd (s : State) (m : CellSample) : State :=
  let u := (s.chargerMoved m).laCountOne
  (u.modNrgx fun x => { x with laArmed := x.laArmed || u.arms }).modNrgx fun x =>
    { x with boostOn := x.boostOn && (u.modNrgx fun x => { x with laArmed := x.laArmed || u.arms }).boostAllowed }

theorem cellMeasure_quiet (s : State) (m : CellSample) : Quiet (s.measureEnd m) (s.cellMeasure m) := by
  have counted (u t : State) (h : Quiet u t) :
      Quiet (u.laCountOne.modNrgx fun x => { x with laArmed := x.laArmed || u.laCountOne.arms }) t.laCountOne.laArm := by
    obtain ⟨n, hn, rfl⟩ := h
    rw [laArm_eq]
    exact ⟨n, hn, rfl⟩
  have boosted (u t : State) (h : Quiet u t) :
      Quiet (u.modNrgx fun x => { x with boostOn := x.boostOn && u.boostAllowed }) t.boostCheck := by
    have e : t.boostAllowed = u.boostAllowed := by
      obtain ⟨n, -, rfl⟩ := h
      rfl
    exact (h.modNrgx _).trans (e ▸ boostCheck_quiet t)
  rw [cellMeasure_eq]
  exact boosted _ _ (counted _ _ (setChg_quiet _ _))

theorem cellMeasure_pends (s : State) (m : CellSample) (h : s.chgMeasured m ≠ s.nrg.chg) (hc : s.nrg.ctl.getLsbD 5 = true) :
    (s.cellMeasure m).eng.evpend.getLsbD 9 = true := by
  rw [cellMeasure_eq, boostCheck_pend _ (by decide), laArm_eq]
  exact setChg_pends (s.chargerSet m) _ h hc

/-! ## The charger's rows (R60) -/

/-- The charger is disabled, by CHGEN or by a CHEM that is unset (R60). -/
def Nrg.chgOff (n : Nrg) : Bool := !bit n.ctl 2 || !n.chemSet

theorem chgOff_iff (n : Nrg) : n.chgOff = true ↔ n.ctl.getLsbD 2 = false ∨ n.chem = 3 := by
  rw [Nrg.chgOff, bit_eq_getLsbD, Nrg.chemSet]
  simp

/-- What a charger that would go to `k` does: disabled, on hold for temperature, and without harvest it does not (R60). -/
def Nrg.gate (n : Nrg) (harvest : Bool) (k : Chg) : Chg :=
  if n.chgOff then .off else if !n.tempOk || n.ntcflt then .tempHold else if !harvest then .suspended else k

theorem chgNext_precharge {s : State} (ma : Nat) (harvest : Bool) (h : s.nrg.chg = .precharge) :
    s.chgNext ma harvest = s.nrg.gate harvest (if s.nrg.preMv + 100 ≤ s.nrg.vcell.toNat then .cc else .precharge) := by
  simp only [State.chgNext, h]
  rfl

theorem chgNext_cc {s : State} (ma : Nat) (harvest : Bool) (h : s.nrg.chg = .cc) :
    s.chgNext ma harvest = s.nrg.gate harvest (if s.nrg.vchg ≤ s.nrg.vcell.toNat then .cv else .cc) := by
  simp only [State.chgNext, h]
  rfl

/-- A charger that works or waits goes through the gate. -/
theorem chgNext_gate {s : State} (ma : Nat) (harvest : Bool)
    (h : s.nrg.chg = .precharge ∨ s.nrg.chg = .cc ∨ s.nrg.chg = .cv ∨ s.nrg.chg = .tempHold ∨ s.nrg.chg = .suspended) :
    ∃ k, s.chgNext ma harvest = s.nrg.gate harvest k := by
  rcases h with h | h | h | h | h <;> exact ⟨_, by simp only [State.chgNext, h]; rfl⟩

theorem chgNext_fault {s : State} (ma : Nat) (harvest : Bool) (h : s.nrg.chg = .fault) : s.chgNext ma harvest = .fault := by
  simp only [State.chgNext, h]

theorem chgNext_disabled {s : State} (ma : Nat) (harvest : Bool) (h : s.nrg.chg ≠ .fault)
    (ho : s.nrg.chgOff = true) : s.chgNext ma harvest = .off := by
  cases hc : s.nrg.chg with
  | fault => exact absurd hc h
  | off | done =>
    rw [Nrg.chgOff] at ho
    simp [State.chgNext, hc, ho]
  | precharge | cc | cv | tempHold | suspended =>
    obtain ⟨k, e⟩ := chgNext_gate (s := s) ma harvest (by simp [hc])
    rw [e, Nrg.gate, if_pos ho]

section
variable {s : State} {ma : Nat} {harvest : Bool} (ho : s.nrg.chgOff = false)
include ho

theorem chgNext_hold
    (h : s.nrg.chg = .precharge ∨ s.nrg.chg = .cc ∨ s.nrg.chg = .cv ∨ s.nrg.chg = .tempHold ∨ s.nrg.chg = .suspended)
    (hf : s.nrg.ntcflt = true) : s.chgNext ma harvest = .tempHold := by
  obtain ⟨k, e⟩ := chgNext_gate ma harvest h
  simp [e, Nrg.gate, ho, hf]

variable (ht : s.nrg.tempOk = true) (hf : s.nrg.ntcflt = false)
include ht hf

theorem gate_sound (k : Chg) : s.nrg.gate harvest k = if harvest then k else .suspended := by
  cases harvest <;> simp [Nrg.gate, ho, ht, hf]

theorem chgNext_suspend (h : s.nrg.chg = .precharge ∨ s.nrg.chg = .cc ∨ s.nrg.chg = .cv) (hh : harvest = false) :
    s.chgNext ma harvest = .suspended := by
  obtain ⟨k, e⟩ := chgNext_gate (s := s) ma harvest (by rcases h with h | h | h <;> simp [h])
  rw [e, gate_sound ho ht hf, hh, if_neg Bool.false_ne_true]

theorem chgNext_precharge_harvest (h : s.nrg.chg = .precharge) (hh : harvest = true) :
    s.chgNext ma harvest = if s.nrg.preMv + 100 ≤ s.nrg.vcell.toNat then .cc else .precharge := by
  rw [chgNext_precharge ma harvest h, gate_sound ho ht hf, if_pos hh]

theorem chgNext_cc_harvest (h : s.nrg.chg = .cc) (hh : harvest = true) :
    s.chgNext ma harvest = if s.nrg.vchg ≤ s.nrg.vcell.toNat then .cv else .cc := by
  rw [chgNext_cc ma harvest h, gate_sound ho ht hf, if_pos hh]

end

/-! ## The values after a measurement -/

theorem measureEnd_frame (s : State) (m : CellSample) :
    { s with nrg := (s.measureEnd m).nrg, nrgx := (s.measureEnd m).nrgx } = s.measureEnd m := by
  unfold State.measureEnd
  rfl

theorem measureEnd_tempOk (s : State) (m : CellSample) : (s.measureEnd m).nrg.tempOk = (s.nrg.measured m).tempOk := rfl

theorem chemSet_eq (n : Nrg) : n.chemSet = !decide (n.chem = 3) := rfl

theorem clamped_tcell {q : Int} (h1 : -512 ≤ q) (h2 : q ≤ 511) : (BitVec.ofInt 10 (clampI (-512) 511 q)).toInt = q := by
  rw [clampI, min_eq_right h2, max_eq_right h1, BitVec.toInt_ofInt]
  exact Int.bmod_eq_of_le (by omega) (by omega)

theorem vcell_measured (n : Nrg) (m : CellSample) : (n.measured m).vcell.toNat = min 65535 m.vcell :=
  (BitVec.toNat_ofNat _ _).trans (Nat.mod_eq_of_lt (by omega))

theorem chargeUa_eq (n : Nrg) (c : Chg) :
    n.chargeUa c = if c = .precharge then if n.vcell.toNat < 2000 then 1000 else max 1000 (fld n.chgReg 0 9 * 100)
      else if c = .cc ∨ c = .cv then n.iUsed * (if n.half then 500 else 1000) else 0 := by
  cases c with
  | precharge | off | done | tempHold | fault | suspended => simp [Nrg.chargeUa]
  | cc | cv => cases h : n.half <;> simp [Nrg.chargeUa, h]

theorem blocks_eq (n : Nrg) (was : Bool) :
    n.blocks was =
      if n.chem = 3 then false else if n.ovMv ≤ n.vcell.toNat then true else if n.vcell.toNat < n.vchg then false else was := by
  rw [Nrg.blocks, chemSet_eq]
  by_cases h : n.chem = 3 <;> simp [h]

/-- Settles O32: CELL_MEASUREMENT yields `measureEnd`; each row of R60 is a case of `chgNext`. -/
theorem measurementsDriveTheCharger : Obligations.MeasurementsDriveTheCharger := by
  unfold Obligations.MeasurementsDriveTheCharger
  intro m s hp v n off fault low
  refine touches_of_quiet (show execCellMeasurement m s = _ from whenPowered_powered hp _)
    ((cellMeasure_quiet s m).modTmp fun t => t.compensate m.aonTemp) (fun _ => ?frame) fun k hk => ?_
  case frame => exact congrArg (fun t => t.modTmp fun t => t.compensate m.aonTemp) (measureEnd_frame s m)
  have hv : (n.measured m).vcell.toNat = v := vcell_measured n m
  have hfault : (n.measured m).ntcflt = true ↔ fault := by
    cases hm : m.ntc <;> simp [Nrg.measured, ntcReads, fault, hm]
  have hoff : (n.measured m).chgOff = true ↔ off := chgOff_iff (n.measured m)
  have hon (h : ¬ off) : (n.measured m).chgOff = false := by
    rw [← hoff] at h
    simpa using h
  have hsound (h : ¬ fault) : (n.measured m).ntcflt = false := by
    rw [← hfault] at h
    simpa using h
  let u := s.modNrg fun n => n.measured m
  refine ⟨rfl, hfault, ?tcell, chgNext_fault (s := u) m.chargeMa m.harvest,
    fun hf ho => chgNext_disabled (s := u) m.chargeMa m.harvest hf (hoff.mpr ho), fun ha ho hf => ?hold,
    fun ha ho hf ht hh => ?suspend, fun ha ho hf ht hh => ?precharge, fun ha ho hf ht hh => ?cc, fun hc => ?event,
    ?block, ?current, ?count, ?arm⟩
  case tcell =>
    intro q hm h1 h2
    change (ntcReads m.ntc).1.toInt = q
    rw [hm]
    exact clamped_tcell h1 h2
  case hold => exact chgNext_hold (s := u) (hon ho) ha (hfault.mpr hf)
  case suspend => exact chgNext_suspend (s := u) (hon ho) ((measureEnd_tempOk s m).symm.trans ht) (hsound hf) ha hh
  case precharge =>
    rw [← hv]
    exact chgNext_precharge_harvest (s := u) (hon ho) ((measureEnd_tempOk s m).symm.trans ht) (hsound hf) ha hh
  case cc =>
    rw [← hv]
    exact chgNext_cc_harvest (s := u) (hon ho) ((measureEnd_tempOk s m).symm.trans ht) (hsound hf) ha hh
  case event =>
    refine ⟨?_, fun h5 => hk ▸ cellMeasure_pends s m hc h5⟩
    have hne : n.chg ≠ s.chgMeasured m := Ne.symm hc
    change (n.evchg || !decide (n.chg = s.chgMeasured m)) = true
    simp [hne]
  case block => exact hv ▸ blocks_eq (n.measured m) s.nrgx.ovBlock
  case current =>
    have e := chargeUa_eq (n.measured m) (s.chgMeasured m)
    rw [hv] at e
    change (if (n.measured m).blocks s.nrgx.ovBlock then 0 else (n.measured m).chargeUa (s.chgMeasured m)) = _
    rw [e]
    rfl
  case count =>
    change (if s.nrgx.laCount = 4 then 4 else
      if s.nrgx.laArmed && decide ((n.measured m).vcell.toNat < s.laThresh) then s.nrgx.laCount + 1 else 0) = _
    simp only [hv, Bool.and_eq_true, decide_eq_true_eq, low]
  case arm =>
    change (s.nrgx.laArmed ||
      decide (s.nrgx.laState = .idle ∧ n.chemSet ∧ s.laThresh + 100 ≤ (n.measured m).vcell.toNat)) = true ↔ _
    rw [hv, chemSet_eq]
    simp

end Sys2Proof.Machine
end

section
/-!
PROOFS. EUSE and the reserve, the charge timer, and the writes of NRG_CTL with ship mode (R60, R67 to R75, R87), and the
statement about them.
-/

namespace Sys2Proof.Machine

/-! ## EUSE and the reserve (R72, R79, R87) -/

/-- The pulses' figures of energy change the drive, and what the lines watch of it. -/
theorem takeDrawn_frame (s : State) (drawn : List (Option Int)) :
    s.takeDrawn drawn = { s with drv := (s.takeDrawn drawn).drv, flw := (s.takeDrawn drawn).flw } := by
  unfold State.takeDrawn
  generalize upTo 24 = l
  induction l generalizing s with
  | nil => rfl
  | cons v l ih =>
    rw [List.foldl_cons]
    cases nth none drawn v.val with
    | none => exact ih s
    | some e => exact (ih _).trans rfl

/-- The state with VRES, EUSE, ERES and RESLOW of an update (R72, R87). -/
def State.reserveSeen (s : State) (vres : Nat) : State :=
  let e := min 0xFFFF (euseOf s.nrg.resctl vres)
  s.modNrg fun n => { n with
    euse := BitVec.ofNat 16 e, vres := BitVec.ofNat 16 (min 0xFFFF vres),
    eres := BitVec.ofNat 16 (min 0xFFFF (s.eReserve none / 4000)),
    resLow := decide (4000 * e < s.eReserve none + s.eCommitted) }

/-- The state that the update yields, up to events: a rise of RESLOW sets EVRES. -/
def State.eused (s : State) (vres : Nat) : State :=
  (s.reserveSeen vres).modNrg fun n => { n with evres := n.evres || (n.resLow && !s.nrg.resLow) }

theorem euseTick_quiet (s : State) (vres : Nat) : Quiet (s.eused vres) (s.euseTick vres) := by
  have raised (u : State) (r : Bool) : Quiet (u.modNrg fun n => { n with evres := n.evres || r })
      (if r then
        (if bit u.nrg.ctl 6 then (u.modNrg fun n => { n with evres := true }).event 9
          else u.modNrg fun n => { n with evres := true })
      else u) := by
    cases r with
    | false =>
      rw [modNrg_self _ _ (by simp)]
      exact Quiet.refl u
    | true => simpa using quiet_ite (event_quiet (u.modNrg fun n => { n with evres := true }) 9) (Quiet.refl _)
  exact raised (s.reserveSeen vres) ((s.reserveSeen vres).nrg.resLow && !s.nrg.resLow)

theorem eused_euse (s : State) (vres : Nat) :
    (s.eused vres).nrg.euse.toNat = min 0xFFFF (euseOf s.nrg.resctl vres) :=
  (BitVec.toNat_ofNat _ _).trans (Nat.mod_eq_of_lt (by omega))

/-- The update of a state `u` that is `s` but for the drive and what the lines watch of it. -/
theorem touches_euseTick {o : Out} {s u : State} (hu : u = { s with drv := u.drv, flw := u.flw }) (vres : Nat)
    (ho : o = .next (u.euseTick vres)) :
    Touches o (fun t => { s with nrg := t.nrg, drv := t.drv, flw := t.flw }) fun t =>
      let f := (s.nrg.resctl.extractLsb' 9 9).toNat * 100
      let c := (s.nrg.resctl.extractLsb' 18 8).toNat
      t.nrg.euse = BitVec.ofNat 16 (min 65535 (c * (vres * vres - f * f) / 20000000)) ∧
      t.nrg.vres = BitVec.ofNat 16 (min 65535 vres) ∧
      (t.nrg.resLow = true ↔ 4000 * t.nrg.euse.toNat < t.eReserve none + t.eCommitted) ∧
      (t.nrg.evres = true ↔ s.nrg.evres = true ∨ t.nrg.resLow = true ∧ s.nrg.resLow = false) := by
  have hn : u.nrg = s.nrg := (congrArg State.nrg hu :)
  refine touches_of_quiet ho (euseTick_quiet u vres) (fun _ => ?frame) fun _ _ => ⟨?euse, rfl, ?low, ?rise⟩
  case frame => exact congrArg (fun t : State => ({ t with nrg := (u.eused vres).nrg } : State)) hu.symm
  case euse =>
    change BitVec.ofNat 16 (min 65535 (euseOf u.nrg.resctl vres)) = _
    rw [hn, euseOf, fld_eq_extractLsb', fld_eq_extractLsb']
  case low =>
    rw [noted_nrg, eused_euse]
    exact decide_eq_true_iff
  case rise =>
    change (u.nrg.evres || ((u.eused vres).nrg.resLow && !u.nrg.resLow)) = true ↔
      s.nrg.evres = true ∨ (u.eused vres).nrg.resLow = true ∧ s.nrg.resLow = false
    rw [hn, Bool.or_eq_true, Bool.and_eq_true, Bool.not_eq_true']

/-! ## The charge timer and the boost -/

theorem not_timed {n : Nrg} (h : n.chg = .cc ∨ n.chg = .cv) (ht : fld n.chgReg 20 4 = 0) : n.timed = false := by
  rcases h with h | h <;> simp [Nrg.timed, h, ht]

theorem timed_not_fault {n : Nrg} (h : n.chg = .precharge ∨ (n.chg = .cc ∨ n.chg = .cv) ∧ fld n.chgReg 20 4 ≠ 0) :
    n.timed = true ∧ n.chg ≠ .fault := by
  rcases h with h | ⟨h | h, ht⟩
  · simp [Nrg.timed, h]
  · simp [Nrg.timed, h, ht]
  · simp [Nrg.timed, h, ht]

/-! ## Writes of NRG_CTL (R73, R75) -/

theorem ctlWrite_posts {s : State} {i : Initiator} {v : Word} (hr : s.reaches i 0x40003004 true = true)
    (hp : s.sys.posted = []) (hf : ∀ f ∈ s.sys.failed, f.init ≠ i) (hv : v.extractLsb' 9 23 = 0) :
    Posts (.next (s.writeThrough i 0x40003004 v)) s i 0x40003004 fun u => u.nrgCtlWrite v := by
  have check (u : State) : u.aonCheck 0x40003004 v = 0 := if_pos ((fld_zero_iff v 9 23).mpr hv)
  exact writeThrough_posts s i 0x40003004 v _ rfl rfl rfl hr hp
    (List.find?_eq_none.mpr fun f hm => by simpa using hf f hm) (check s) (fun u _ => (check u).trans (check s).symm)
    fun u _ => rfl

theorem reserved_or {v b : Word} (hv : v.extractLsb' 9 23 = 0) (hb : b.extractLsb' 9 23 = 0) :
    (v ||| b).extractLsb' 9 23 = 0 := by
  rw [BitVec.extractLsb'_or, hv, hb]
  rfl

/-- NRG_CTL, SVCREF and the sink after a write of NRG_CTL (R73, R75). -/
def State.ctlTaken (s : State) (v : Word) : State :=
  let dis := bit v 8 && !bit s.nrg.ctl 8
  let v' := v &&& 0x7F ||| placeB (bit v 8 && (bit s.nrg.ctl 8 || s.drv.quiet)) 8
  (s.modNrg fun n => { n with ctl := v', svcref := n.svcref || (bit v 7 || dis) && !s.drv.quiet }).modNrgx fun x =>
    { x with sink := if bit v' 8 then x.sink || dis else false }

/-- The state after a write of NRG_CTL but for the entry into ship mode: the charger, the sources and the boost follow. -/
def State.ctlWritten (s : State) (v : Word) : State :=
  let u := s.ctlTaken v
  (((if u.nrg.chg = .fault ∧ !bit u.nrg.ctl 2 then u.setChg .off else u).pvUpdate).tegUpdate).boostCheck

theorem nrgCtlWrite_eq (s : State) (v : Word) :
    s.nrgCtlWrite v = if bit v 7 && s.drv.quiet then (s.ctlWritten v).enterShip else s.ctlWritten v := rfl

/-- `t` has SYS, memory, NRG_CTL, SVCREF and the sink of `s`. -/
structure CtlAlike (s t : State) : Prop where
  sys : t.sys = s.sys
  mem : t.mem = s.mem
  ctl : t.nrg.ctl = s.nrg.ctl
  svcref : t.nrg.svcref = s.nrg.svcref
  sink : t.nrgx.sink = s.nrgx.sink

theorem CtlAlike.refl (s : State) : CtlAlike s s := ⟨rfl, rfl, rfl, rfl, rfl⟩

theorem CtlAlike.trans {s u t : State} (h : CtlAlike s u) (k : CtlAlike u t) : CtlAlike s t :=
  ⟨k.sys.trans h.sys, k.mem.trans h.mem, k.ctl.trans h.ctl, k.svcref.trans h.svcref, k.sink.trans h.sink⟩

theorem Quiet.ctlAlike {s u t : State} (q : Quiet u t) (h : CtlAlike s u) : CtlAlike s t := by
  obtain ⟨n, -, rfl⟩ := q
  exact ⟨h.sys, h.mem, h.ctl, h.svcref, h.sink⟩

theorem ctlWritten_alike (s : State) (v : Word) : CtlAlike (s.ctlTaken v) (s.ctlWritten v) := by
  have charger (u : State) : CtlAlike u (if u.nrg.chg = .fault ∧ !bit u.nrg.ctl 2 then u.setChg .off else u) := by
    split
    · exact (setChg_quiet u .off).ctlAlike ⟨rfl, rfl, rfl, rfl, rfl⟩
    · exact .refl u
  have pv (u : State) : CtlAlike u u.pvUpdate := (pvUpdate_quiet u).ctlAlike ⟨rfl, rfl, rfl, rfl, rfl⟩
  have teg (u : State) : CtlAlike u u.tegUpdate := (tegUpdate_quiet u).ctlAlike ⟨rfl, rfl, rfl, rfl, rfl⟩
  have boost (u : State) : CtlAlike u u.boostCheck := (boostCheck_quiet u).ctlAlike ⟨rfl, rfl, rfl, rfl, rfl⟩
  exact (((charger _).trans (pv _)).trans (teg _)).trans (boost _)

theorem ctlTaken_resdisch (s : State) (v : Word) :
    (s.ctlTaken v).nrg.ctl.getLsbD 8 = (v.getLsbD 8 && (s.nrg.ctl.getLsbD 8 || s.drv.quiet)) := by
  simp only [State.ctlTaken, modNrgx_nrg, modNrg_nrg, bit_eq_getLsbD]
  cases v.getLsbD 8 && (s.nrg.ctl.getLsbD 8 || s.drv.quiet) <;> simp [placeB, place, b2n]

theorem ctlTaken_sink (s : State) (v : Word) : (s.ctlTaken v).nrgx.sink =
    if (s.ctlTaken v).nrg.ctl.getLsbD 8 then s.nrgx.sink || (v.getLsbD 8 && !s.nrg.ctl.getLsbD 8) else false := by
  simp only [← bit_eq_getLsbD]
  rfl

theorem ctlTaken_svcref (s : State) (v : Word) : (s.ctlTaken v).nrg.svcref =
    (s.nrg.svcref || (v.getLsbD 7 || v.getLsbD 8 && !s.nrg.ctl.getLsbD 8) && !s.drv.quiet) := by
  simp only [← bit_eq_getLsbD]
  rfl

/-- Settles O33: the charge timer, the boost and EUSE by their rules, and NRG_CTL by what a write of it makes of the
register. -/
theorem reservoirAndShipModeAct : Obligations.ReservoirAndShipModeAct := by
  unfold Obligations.ReservoirAndShipModeAct
  intro s hp
  refine ⟨fun ht hc => ?timer, fun hc ht => ?untimed, fun ha hb => ?start, fun hb => ?stop, fun hs => ?sink,
    fun vres drawn => ?euse, fun i v hr hq hf hv => ⟨?ship, ?discharge⟩,
    fun v h7 => ⟨fun hq => ?enters, fun hq => ?refuses⟩, fun v h7 h8 hc => ?resdisch⟩
  case timer =>
    obtain ⟨hn, hne⟩ := timed_not_fault hc
    refine touches_of_quiet (show execChargeTimerExpiry s = _ from whenever_holds hp (by simp [ht, hn]) _)
      (setChg_quiet _ _) (fun _ => ?_) fun n hn h5 => hn ▸ setChg_pends _ _ (Ne.symm hne) h5
    simp [State.modNrg, State.modNrgx, hne]
  case untimed =>
    change execChargeTimerExpiry s = _
    rw [execChargeTimerExpiry, whenever_powered hp, not_timed hc ht, Bool.and_false, if_neg Bool.false_ne_true]
  case start =>
    exact touches_of_quiet (show execBoostStart s = _ from whenever_holds hp (by simp [ha, hb]) _) (setBoost_quiet s true)
      (fun _ => rfl) fun _ _ => trivial
  case stop =>
    exact touches_of_quiet (show execBoostStop s = _ from whenever_holds hp hb _) (setBoost_quiet s false)
      (fun _ => rfl) fun _ _ => trivial
  case sink => exact show execVresDischarged s = _ from whenever_holds hp hs _
  case euse =>
    exact touches_euseTick (takeDrawn_frame s drawn) vres
      (show execEuseUpdate vres drawn s = _ from whenPowered_powered hp _)
  case ship =>
    change Posts (execShipModeEnter i v s) _ _ _ _
    rw [execShipModeEnter, whenPowered_powered hp]
    exact ctlWrite_posts hr hq hf (reserved_or hv rfl)
  case discharge =>
    change Posts (execReservoirDischarge i v s) _ _ _ _
    rw [execReservoirDischarge, whenPowered_powered hp]
    exact ctlWrite_posts hr hq hf (reserved_or hv rfl)
  case enters =>
    have e : s.nrgCtlWrite v = (s.ctlWritten v).enterShip := by
      rw [nrgCtlWrite_eq, bit_eq_getLsbD, h7, hq]
      rfl
    have hm : (s.ctlWritten v).mem = s.mem := (ctlWritten_alike s v).mem
    rw [e]
    exact ⟨rfl, rfl, rfl, rfl, congrArg (fun m : Mem => m.cells.filter fun c => !inSram (c : Host.Cell).1) hm⟩
  case refuses =>
    have e : s.nrgCtlWrite v = s.ctlWritten v := by
      rw [nrgCtlWrite_eq, hq, Bool.and_false]
      rfl
    have k := ctlWritten_alike s v
    rw [e]
    refine ⟨?_, k.sys, k.mem⟩
    rw [k.svcref, ctlTaken_svcref, h7, hq]
    simp
  case resdisch =>
    have e : s.nrgCtlWrite v = s.ctlWritten v := by
      rw [nrgCtlWrite_eq, bit_eq_getLsbD, h7]
      rfl
    have k := ctlWritten_alike s v
    dsimp only
    rw [e, k.ctl, k.svcref, k.sink, ctlTaken_sink, ctlTaken_svcref, ctlTaken_resdisch, h7, h8, hc]
    simp

end Sys2Proof.Machine
end

section
/-!
SUPPORT. What an operation leaves unchanged: the parts of the state, the relation that only named parts change, and that
relation for the operations on memory, the clocks and the write buffer (R195, R199 to R205, R218, R222).
-/

namespace Sys2Proof.Machine

/-! ## Parts of the state -/

/-- The SYS block but for its clocks, its islands and the debug port's latest answer. -/
def Sys.steady (x : Sys) : Sys :=
  { x with curSrc := 0, fallback := false, runDmi := false, runRad := false, xoRun := false, dbgData := 0, dbgCause := 0 }

/-- What a frame names: the blocks of the state, and within a block the fields that most of its operations leave alone. -/
inductive Part where
  /-- SYS, and SYS but for its clocks and islands. -/
  | sys | steady
  /-- The engine but for counting and event latches, and what each shuttle is busy on. -/
  | eng | busy
  /-- Memory, its bytes, and the commit under way with the active bank. -/
  | mem | cells | bank
  /-- The drive, the flow meter, the pressure lines, and the marks of the latter two that the last act has been. -/
  | drv | flw | prs | dead
  | armed | nrg | nrgx | tmp | rad | mac | macx | sec | secx | lnk | fresh | pending
  deriving DecidableEq

/-- The part is as it was. -/
def Part.Same : Part → State → State → Prop
  | .sys, s, t => t.sys = s.sys
  | .steady, s, t => t.sys.steady = s.sys.steady
  | .eng, s, t => ∃ n : Noted, t.eng = (s.noted n).eng
  | .busy, s, t => (fun k => (t.sh k).busyOn) = fun k => (s.sh k).busyOn
  | .mem, s, t => t.mem = s.mem
  | .cells, s, t => t.mem.cells = s.mem.cells
  | .bank, s, t => (t.mem.busy, t.mem.act) = (s.mem.busy, s.mem.act)
  | .drv, s, t => t.drv = s.drv
  | .flw, s, t => t.flw = s.flw
  | .prs, s, t => t.prs = s.prs
  | .dead, s, t => (t.flw.dead, t.prs.dead) = (s.flw.dead, s.prs.dead)
  | .armed, s, t => t.armed = s.armed
  | .nrg, s, t => t.nrg = s.nrg
  | .nrgx, s, t => t.nrgx = s.nrgx
  | .tmp, s, t => t.tmp = s.tmp
  | .rad, s, t => t.rad = s.rad
  | .mac, s, t => t.mac = s.mac
  | .macx, s, t => t.macx = s.macx
  | .sec, s, t => t.sec = s.sec
  | .secx, s, t => t.secx = s.secx
  | .lnk, s, t => t.lnk = s.lnk
  | .fresh, s, t => t.fresh = s.fresh
  | .pending, s, t => t.pending = s.pending

theorem Part.Same.refl (p : Part) (s : State) : p.Same s s := by
  cases p
  case eng => exact ⟨s.note, congrArg State.eng (noted_note s).symm⟩
  all_goals rfl

theorem noted_eng {s t : State} (h : t.eng = s.eng) (n : Noted) : (t.noted n).eng = (s.noted n).eng := by
  simp only [State.noted, h]

theorem Part.Same.trans {p : Part} {s t u : State} (h : p.Same s t) (k : p.Same t u) : p.Same s u := by
  cases p
  case eng =>
    obtain ⟨n, hn⟩ := h
    obtain ⟨m, hm⟩ := k
    exact ⟨m, hm.trans ((noted_eng hn m).trans (congrArg State.eng (noted_noted s n m)))⟩
  all_goals exact Eq.trans k h

theorem Part.Same.noted (p : Part) (s : State) (n : Noted) : p.Same s (s.noted n) := by
  cases p
  case eng => exact ⟨n, rfl⟩
  case busy => funext k; rw [noted_sh]
  all_goals rfl

/-! ## Only named parts change -/

/-- Of `s`, only these parts have changed in `t`, and what counting notes. -/
def Within (l : List Part) (s t : State) : Prop := ∀ p ∉ l, p.Same s t

theorem Within.refl (l : List Part) (s : State) : Within l s s := fun p _ => Part.Same.refl p s

theorem Within.mono {a b : List Part} {s t : State} (h : Within a s t) (hb : decide (a ⊆ b) = true) : Within b s t :=
  fun p hp => h p fun ha => hp (of_decide_eq_true hb ha)

theorem Within.trans {l : List Part} {s t u : State} (h : Within l s t) (k : Within l t u) : Within l s u :=
  fun p hp => (h p hp).trans (k p hp)

/-- An operation, after what has changed so far. -/
theorem Within.after {b l : List Part} {s t u : State} (k : Within b t u) (h : Within l s t) : Within (b ++ l) s u :=
  fun p hp => (h p fun hl => hp (List.mem_append_right b hl)).trans (k p fun hb => hp (List.mem_append_left l hb))

theorem within_ite {c : Prop} [Decidable c] {a b : List Part} {s t u : State} (ht : Within a s t) (hu : Within b s u) :
    Within (a ++ b) s (if c then t else u) := by
  split
  · exact fun p hp => ht p fun ha => hp (List.mem_append_left b ha)
  · exact fun p hp => hu p fun hb => hp (List.mem_append_right a hb)

theorem within_foldl {α : Type} {b : List Part} (f : State → α → State) (h : ∀ s a, Within b s (f s a)) (l : List α)
    (s : State) : Within b s (l.foldl f s) := by
  induction l generalizing s with
  | nil => exact .refl b s
  | cons a l ih => exact (h s a).trans (ih _)

theorem Quiet.within {s t : State} (h : Quiet s t) (l : List Part) : Within l s t := by
  obtain ⟨n, -, rfl⟩ := h
  exact fun p _ => .noted p s n

theorem noted_within (s : State) (n : Noted) : Within [] s (s.noted n) := fun p _ => .noted p s n

/-! ## What a frame says of a part -/

section
variable {l : List Part} {s t : State} (h : Within l s t)
include h

theorem Within.mem (hp : decide (.mem ∉ l) = true) : t.mem = s.mem := h .mem (of_decide_eq_true hp)

theorem Within.drv (hp : decide (.drv ∉ l) = true) : t.drv = s.drv := h .drv (of_decide_eq_true hp)

theorem Within.armed (hp : decide (.armed ∉ l) = true) : t.armed = s.armed := h .armed (of_decide_eq_true hp)

theorem Within.nrg (hp : decide (.nrg ∉ l) = true) : t.nrg = s.nrg := h .nrg (of_decide_eq_true hp)

theorem Within.nrgx (hp : decide (.nrgx ∉ l) = true) : t.nrgx = s.nrgx := h .nrgx (of_decide_eq_true hp)

theorem Within.tmp (hp : decide (.tmp ∉ l) = true) : t.tmp = s.tmp := h .tmp (of_decide_eq_true hp)

theorem Within.sec (hp : decide (.sec ∉ l) = true) : t.sec = s.sec := h .sec (of_decide_eq_true hp)

theorem Within.secx (hp : decide (.secx ∉ l) = true) : t.secx = s.secx := h .secx (of_decide_eq_true hp)

theorem Within.lnk (hp : decide (.lnk ∉ l) = true) : t.lnk = s.lnk := h .lnk (of_decide_eq_true hp)

theorem Within.pending (hp : decide (.pending ∉ l) = true) : t.pending = s.pending := h .pending (of_decide_eq_true hp)

theorem Within.sys (hp : decide (.sys ∉ l) = true) : t.sys = s.sys := h .sys (of_decide_eq_true hp)

theorem Within.steady (hp : decide (.steady ∉ l) = true) : t.sys.steady = s.sys.steady := h .steady (of_decide_eq_true hp)

/-- A field of SYS that is none of its clocks or islands. -/
theorem Within.sysField {α : Type} (f : Sys → α) (hp : decide (.steady ∉ l) = true) (hf : ∀ x : Sys, f x.steady = f x) :
    f t.sys = f s.sys :=
  (hf t.sys).symm.trans ((congrArg f (h.steady hp)).trans (hf s.sys))

theorem Within.cells (hp : decide (.cells ∉ l) = true) : t.mem.cells = s.mem.cells := h .cells (of_decide_eq_true hp)

theorem Within.busyOn (k : Fin 4) (hp : decide (.busy ∉ l) = true) : (t.sh k).busyOn = (s.sh k).busyOn :=
  congrFun (h .busy (of_decide_eq_true hp)) k

theorem Within.bank (hp : decide (.bank ∉ l) = true) : t.mem.busy = s.mem.busy ∧ t.mem.act = s.mem.act :=
  Prod.mk.inj (h .bank (of_decide_eq_true hp))

theorem Within.dead (hp : decide (.dead ∉ l) = true) : t.flw.dead = s.flw.dead ∧ t.prs.dead = s.prs.dead :=
  Prod.mk.inj (h .dead (of_decide_eq_true hp))

theorem Within.eng (hp : decide (.eng ∉ l) = true) : ∃ n : Noted, t.eng = (s.noted n).eng := h .eng (of_decide_eq_true hp)

theorem Within.vecbase (hp : decide (.eng ∉ l) = true) : t.eng.vecbase = s.eng.vecbase := by
  obtain ⟨n, hn⟩ := h.eng hp
  rw [hn]
  rfl

/-- A shuttle is as it was, up to the events it waits for. -/
theorem Within.sh (k : Fin 4) (hp : decide (.eng ∉ l) = true) : ∃ w, t.sh k = { s.sh k with wpend := w } := by
  obtain ⟨n, hn⟩ := h.eng hp
  refine ⟨n.wpend k, ?_⟩
  rw [← noted_sh, State.sh, hn]
  rfl

end

/-! ## A frame as the claims state it -/

/-- The state `s` with these blocks of `t`. -/
def State.take (s : State) (l : List Part) (t : State) : State :=
  let own {α : Type} (p : Part) (x y : α) : α := if p ∈ l then y else x
  { s with
    sys := own .sys s.sys t.sys, eng := own .eng s.eng t.eng, mem := own .mem s.mem t.mem, armed := own .armed s.armed t.armed,
    nrg := own .nrg s.nrg t.nrg, nrgx := own .nrgx s.nrgx t.nrgx, drv := own .drv s.drv t.drv, flw := own .flw s.flw t.flw,
    prs := own .prs s.prs t.prs, tmp := own .tmp s.tmp t.tmp, rad := own .rad s.rad t.rad, mac := own .mac s.mac t.mac,
    macx := own .macx s.macx t.macx, sec := own .sec s.sec t.sec, secx := own .secx s.secx t.secx,
    lnk := own .lnk s.lnk t.lnk, fresh := own .fresh s.fresh t.fresh, pending := own .pending s.pending t.pending }

theorem noted_note_eng {s t : State} {n : Noted} (h : t.eng = (s.noted n).eng) : (s.noted t.note).eng = t.eng := by
  have e : t.note = { n with prf := t.prf } := by
    simp only [State.note, State.sh, h]
    congr 1
    funext k
    exact get_noted s n k
  rw [e, h]
  rfl

theorem Within.eq_take {l : List Part} {s t : State} (h : Within l s t) : t = (s.take l t).noted t.note := by
  have own (p : Part) {α : Type} (f : State → α) (hp : p ∉ l → f t = f s) : f t = if p ∈ l then f t else f s := by
    split
    · rfl
    · exact hp ‹_›
  have eng : t.eng = ((s.take l t).noted t.note).eng := by
    by_cases he : Part.eng ∈ l
    · exact (congrArg State.eng (noted_note t)).symm.trans (by simp [State.take, State.noted, he])
    · obtain ⟨n, hn⟩ := h _ he
      exact (noted_note_eng hn).symm.trans (by simp [State.take, State.noted, he])
  have rest : t = { (s.take l t).noted t.note with eng := t.eng } := by
    conv_lhs => rw [← noted_note t]
    simp only [State.noted, State.take, State.note]
    rw [← own .sys State.sys (h .sys), ← own .mem State.mem (h .mem), ← own .armed State.armed (h .armed),
      ← own .nrg State.nrg (h .nrg), ← own .nrgx State.nrgx (h .nrgx), ← own .drv State.drv (h .drv),
      ← own .flw State.flw (h .flw), ← own .prs State.prs (h .prs), ← own .tmp State.tmp (h .tmp),
      ← own .rad State.rad (h .rad), ← own .mac State.mac (h .mac), ← own .macx State.macx (h .macx),
      ← own .sec State.sec (h .sec), ← own .secx State.secx (h .secx), ← own .lnk State.lnk (h .lnk),
      ← own .fresh State.fresh (h .fresh), ← own .pending State.pending (h .pending)]
    exact congrArg (fun e : Eng => ({ t with eng := e } : State)) (congrArg State.eng (noted_note t))
  exact rest.trans (congrArg (fun e : Eng => ({ (s.take l t).noted t.note with eng := e } : State)) eng)

theorem Within.touches {l : List Part} {s t : State} {o : Out} {w : State → State} {f : State → Prop} (h : Within l s t)
    (ho : o = .next t) (hw : s.take l t = w t) (hf : f t) : Touches o w f :=
  ⟨t, t.note, ho, hw ▸ h.eq_take, hf⟩

/-! ## The state's own operations -/

/-- An operation that leaves the engine alone: each block outside the list is as it was. -/
theorem within_of_eng {l : List Part} {s t : State} (he : t.eng = s.eng)
    (h : ∀ p ∉ .eng :: .busy :: l, p.Same s t) : Within l s t := by
  intro p hp
  by_cases e : p = .eng
  · subst e
    exact ⟨s.note, he.trans (congrArg State.eng (noted_note s).symm)⟩
  by_cases b : p = .busy
  · subst b
    exact congrArg (fun e : Eng => fun k => (e.sh.get k).busyOn) he
  exact h p (by simp [e, b, hp])

theorem modSys_within (s : State) (f : Sys → Sys) : Within [.sys, .steady] s (s.modSys f) :=
  within_of_eng rfl fun p hp => by cases p <;> simp_all [Part.Same]

/-- A change of clocks and islands. -/
theorem clocks_within (s : State) (x : Sys) (h : x.steady = s.sys.steady) : Within [.sys] s { s with sys := x } :=
  within_of_eng rfl fun p hp => by cases p <;> simp_all [Part.Same]

theorem modNrg_within (s : State) (f : Nrg → Nrg) : Within [.nrg] s (s.modNrg f) :=
  within_of_eng rfl fun p hp => by cases p <;> simp_all [Part.Same]

theorem modNrgx_within (s : State) (f : NrgAux → NrgAux) : Within [.nrgx] s (s.modNrgx f) :=
  within_of_eng rfl fun p hp => by cases p <;> simp_all [Part.Same]

theorem modDrv_within (s : State) (f : Drv → Drv) : Within [.drv, .flw] s (s.modDrv f) :=
  within_of_eng rfl fun p hp => by cases p <;> simp_all [Part.Same]

theorem modFlw_within (s : State) (f : Flw → Flw) : Within [.flw, .dead] s (s.modFlw f) :=
  within_of_eng rfl fun p hp => by cases p <;> simp_all [Part.Same]

theorem modFlow_within (s : State) (n : Fin 3) (f : FlowLine → FlowLine) : Within [.flw] s (s.modFlow n f) :=
  within_of_eng rfl fun p hp => by cases p <;> simp_all [Part.Same]

theorem modPrs_within (s : State) (f : Prs → Prs) : Within [.prs, .dead] s (s.modPrs f) :=
  within_of_eng rfl fun p hp => by cases p <;> simp_all [Part.Same]

/-- A change of the pressure block that keeps the mark of the last act. -/
theorem lines_within (s : State) (x : Prs) (h : x.dead = s.prs.dead) : Within [.prs] s { s with prs := x } :=
  within_of_eng rfl fun p hp => by cases p <;> simp_all [Part.Same]

theorem modLine_within (s : State) (n : Fin 3) (f : PrsLine → PrsLine) : Within [.prs] s (s.modLine n f) :=
  lines_within s _ rfl

theorem modCmp_within (s : State) (c : Fin 8) (f : Cmp → Cmp) : Within [.prs] s (s.modCmp c f) :=
  lines_within s _ rfl

theorem modRad_within (s : State) (f : Rad → Rad) : Within [.rad] s (s.modRad f) :=
  within_of_eng rfl fun p hp => by cases p <;> simp_all [Part.Same]

theorem modLnk_within (s : State) (f : Lnk → Lnk) : Within [.lnk] s (s.modLnk f) :=
  within_of_eng rfl fun p hp => by cases p <;> simp_all [Part.Same]

theorem modSec_within (s : State) (f : Sec → Sec) : Within [.sec] s (s.modSec f) :=
  within_of_eng rfl fun p hp => by cases p <;> simp_all [Part.Same]

theorem disarm_within (s : State) (d : Nat) : Within [.armed] s (s.disarm d) :=
  within_of_eng rfl fun p hp => by cases p <;> simp_all [Part.Same]

theorem fresh_within (s : State) (k : Nat) : Within [.fresh] s { s with fresh := k } :=
  within_of_eng rfl fun p hp => by cases p <;> simp_all [Part.Same]

theorem setMem_within (s : State) (m : Mem) : Within [.mem, .cells, .bank] s (s.setMem m) :=
  within_of_eng rfl fun p hp => by cases p <;> simp_all [Part.Same]

/-- Memory changes, but for its bytes, the commit under way and the active bank. -/
theorem setMem_flags_within (s : State) (m : Mem) (hc : m.cells = s.mem.cells) (hb : m.busy = s.mem.busy)
    (ha : m.act = s.mem.act) : Within [.mem] s (s.setMem m) :=
  within_of_eng rfl fun p hp => by cases p <;> simp_all [Part.Same]

theorem setCells_within (s : State) (c : List Host.Cell) : Within [.mem, .cells] s (s.setCells c) :=
  within_of_eng rfl fun p hp => by cases p <;> simp_all [Part.Same]

/-- Any change of the engine. -/
theorem withEng_within (s : State) (e : Eng) : Within [.eng, .busy] s { s with eng := e } := by
  intro p hp
  cases p with
  | eng | busy => simp at hp
  | _ => rfl

theorem modSh_within (s : State) (i : Fin 4) (f : Shuttle → Shuttle) : Within [.eng, .busy] s (s.modSh i f) :=
  withEng_within s _

/-- A shuttle changes that goes on being busy on what it was. -/
theorem modSh_busy_within (s : State) (i : Fin 4) (f : Shuttle → Shuttle) (h : (f (s.sh i)).busyOn = (s.sh i).busyOn) :
    Within [.eng] s (s.modSh i f) := by
  intro p hp
  by_cases e : p = .busy
  · subst e
    funext k
    rw [sh_modSh]
    split
    · next hk => rw [hk, h]
    · rfl
  exact modSh_within s i f p (by simp_all)

theorem withEng_busy_within (s : State) (e : Eng) (h : e.sh = s.eng.sh) : Within [.eng] s { s with eng := e } := by
  intro p hp
  by_cases b : p = .busy
  · subst b
    exact congrArg (fun v : Vector Shuttle 4 => fun k => (v.get k).busyOn) h
  exact withEng_within s e p (by simp_all)

/-! ## Error correction and writes of memory (R195, R199 to R205) -/

theorem eccFlag_within (s : State) (b : BitVec 7) (memerr : Bool) : Within [.mem] s (s.eccFlag b memerr) :=
  .mono (.after (within_ite ((event_quiet _ 14).within []) (.refl [] _))
    (.after ((quiet_same _ _).within []) (setMem_flags_within s _ rfl rfl rfl))) rfl

theorem eccRecord_within (s : State) (w : Nat) (u : Bool) : Within [.mem] s (s.eccRecord w u) :=
  .mono (within_ite (.refl [] s) (setMem_flags_within s _ rfl rfl rfl)) rfl

theorem eccCount_within (s : State) (w : Nat) : Within [.mem] s (s.eccCount w) := by
  have counted (s : State) (a b : BitVec 16) :
      Within [.mem] s (s.setMem (if inMram w then { s.mem with mcnt := a } else { s.mem with scnt := b })) := by
    split <;> exact setMem_flags_within _ _ rfl rfl rfl
  exact .mono (.after (within_ite (eccFlag_within _ _ _) (.refl [] _)) (.after ((occur_quiet _ 0x12).within [])
    (.after (eccFlag_within _ _ _) (.after (counted _ _ _) (eccRecord_within s w false))))) rfl

theorem eccUncor_within (s : State) (w : Nat) (b : BitVec 7) : Within [.mem] s (s.eccUncor w b) :=
  .mono (.after (eccFlag_within _ _ _) (eccRecord_within s w true)) rfl

theorem eccRead_within (s : State) (w : Nat) (scrub : Bool) : Within [.mem] s (s.eccRead w scrub).1 := by
  unfold State.eccRead
  split
  case h_1 => exact .refl _ s
  case h_2 =>
    dsimp only
    split
    · exact .mono (.after (setMem_flags_within _ _ rfl rfl rfl) (eccCount_within s w)) rfl
    · split
      · exact .mono (.after (setMem_flags_within _ _ rfl rfl rfl) (eccCount_within s w)) rfl
      · exact eccCount_within s w
  case h_3 => exact eccUncor_within s w _

theorem supersede_within (s : State) (w : Nat) : Within [.mem] s (s.supersede w) :=
  .mono (within_ite (setMem_flags_within s _ rfl rfl rfl) (.refl [] s)) rfl

theorem setEcc_within (s : State) (w c : Nat) : Within [.mem] s (s.setMem (s.mem.setEcc w c)) :=
  setMem_flags_within _ _ rfl rfl rfl

theorem writeWord_within (s : State) (w : Nat) (d : DWord) (m : BitVec 8) (inj : Nat) :
    Within [.mem, .cells] s (s.writeWord w d m inj) :=
  .mono (.after (within_ite (.after (eccUncor_within _ w 0x40) (setEcc_within _ w 3)) (setEcc_within _ w inj))
    (.after (setCells_within _ _)
      (.after (within_ite (eccCount_within _ w) (.refl [] _)) (supersede_within s w)))) rfl

theorem wbWriteOne_within (s : State) : Within [.mem, .cells] s s.wbWriteOne := by
  have clear (s : State) : Within [.mem] s (s.setMem { s.mem with inj := 0 }) := setMem_flags_within _ _ rfl rfl rfl
  unfold State.wbWriteOne
  split
  · exact .refl _ s
  · exact .mono (.after ((occur_quiet _ 0x11).within []) (.after (within_ite (clear _) (.refl [] _))
      (.after (writeWord_within _ _ _ _ _) (setMem_flags_within s _ rfl rfl rfl)))) rfl

theorem storeBytes_within (s : State) (a n : Nat) (v : DWord) (own : BitVec 4) (inj : Nat) :
    Within [.mem, .cells] s (s.storeBytes a n v own inj) :=
  .mono (within_ite (setMem_flags_within s _ rfl rfl rfl)
    (.after (within_ite (setMem_flags_within _ _ rfl rfl rfl) (.refl [] _)) (writeWord_within s _ _ _ _))) rfl

/-! ## The write buffer drains (R194 to R197) -/

theorem coreFall_within (s : State) : Within [.sys] s s.coreFall := clocks_within s _ rfl

theorem leaveXo_within (s : State) : Within [.sys] s s.leaveXo :=
  .mono (within_ite (within_ite (clocks_within s _ rfl) (coreFall_within s)) (.refl [] s)) rfl

theorem xoRest_within (s : State) : Within [.sys] s s.xoRest :=
  .mono (within_ite (.refl [] s) (.after (leaveXo_within _) (clocks_within s _ rfl))) rfl

theorem checkStop_within (s : State) : Within [.sys, .eng] s s.checkStop :=
  .mono (within_ite (.after (xoRest_within _) (withEng_busy_within s _ rfl)) (.refl [] s)) rfl

theorem restarted_within (s : State) (i : Fin 4) : Within [.sys, .eng, .busy] s (s.restarted i) :=
  .mono (within_ite (withEng_within s _)
    (within_ite (.refl [] s) (.after (checkStop_within _) (modSh_within s i _)))) rfl

theorem land_within (s : State) (i : Fin 4) : Within [.sys, .eng, .busy] s (s.land i) :=
  .mono (.after (restarted_within _ i) (modSh_within s i _)) rfl

theorem stallOne_within (s : State) : Within [.sys, .eng, .busy, .mem, .cells] s s.stallOne := by
  unfold State.stallOne
  split
  · exact .refl _ s
  · split
    · exact .mono (within_ite (.after (land_within _ _) (storeBytes_within s _ _ _ _ _)) (.refl [] s)) rfl
    · exact .refl _ s

theorem stallLand_within (s : State) : Within [.sys, .eng, .busy, .mem, .cells] s s.stallLand :=
  (((stallOne_within s).trans (stallOne_within _)).trans (stallOne_within _)).trans (stallOne_within _)

theorem wbDrain_within (s : State) : Within [.sys, .eng, .busy, .mem, .cells] s s.wbDrain :=
  .mono (within_foldl _ (fun s _ => .after (stallLand_within _) (wbWriteOne_within s)) _ s) rfl

/-! ## The banks (R218, R222) -/

theorem foldl_eccRead_within (l : List Nat) (s : State) : Within [.mem] s (l.foldl (fun s w => (s.eccRead w false).1) s) :=
  within_foldl _ (fun s w => eccRead_within s w false) l s

theorem readBank_within (s : State) (bk : Bank) : Within [.mem] s (s.readBank bk) := foldl_eccRead_within _ s

theorem selectBank_within (s : State) : Within [.mem, .bank] s s.selectBank := by
  have act (s : State) (bk : Bank) : Within [.mem, .bank] s (s.setMem { s.mem with act := bk }) :=
    within_of_eng rfl fun p hp => by cases p <;> simp_all [Part.Same]
  exact .mono (.after (act _ _) (.after (readBank_within _ .b) (readBank_within s .a))) rfl

theorem commitStart_within (s : State) (q : BitVec 31) :
    Within [.sys, .eng, .busy, .mem, .cells, .bank] s (s.commitStart q) :=
  .mono (.after (withEng_within _ _) (.after (setMem_within _ _) (wbDrain_within s))) rfl

theorem commitHeader_within (s : State) (bk : Bank) (bad : Bool) (q : BitVec 31) :
    Within [.mem, .cells, .bank] s (s.commitHeader bk bad q) :=
  .mono (within_ite (.after ((event_quiet _ 14).within []) (setMem_within s _))
    (.after (setMem_within _ _) (.after (setEcc_within _ _ _) (setCells_within s _)))) rfl

theorem commitNext_within (s : State) : Within [.sys, .eng, .busy, .mem, .cells, .bank] s s.commitNext := by
  unfold State.commitNext
  split
  · exact .mono (within_ite (.after (commitStart_within _ _) (setMem_within s _)) (checkStop_within s)) rfl
  · exact .mono (checkStop_within s) rfl

theorem commitEnd_within (s : State) (q : BitVec 31) : Within [.sys, .eng, .busy, .mem, .cells, .bank] s (s.commitEnd q) :=
  .mono (.after (commitNext_within _) (.after (commitHeader_within _ _ _ q) (readBank_within s _))) rfl

end Sys2Proof.Machine
end

section
/-!
SUPPORT. The valve drive's operations: what each leaves unchanged, what a result record holds, how an entry leaves its queue,
and the start of a close (R232, R242, R248, R254, R255, R263).
-/

namespace Sys2Proof.Machine

/-! ## Treadles, valve states and profiles -/

theorem trd_modTrd (d : Drv) (t k : Fin 3) (f : Treadle → Treadle) :
    (d.modTrd t f).trd.get k = if k = t then f (d.trd.get t) else d.trd.get k := by
  simp only [Drv.modTrd, Vector.get_eq_getElem, Vector.getElem_set, Fin.ext_iff, eq_comm]

/-- A valve's state changes, and nothing else of the drive. -/
theorem setVs_eq (d : Drv) (v : Fin 24) (x : VState) : ∃ w, d.setVs v x = { d with vstate := w } := by
  unfold Drv.setVs
  dsimp only
  split <;> exact ⟨_, rfl⟩

/-- The entry leaves its treadle's queue. -/
def Drv.unqueue (d : Drv) (t : Fin 3) (e : QEntry) : Drv := d.modTrd t fun q => { q with queue := q.queue.erase e }

theorem pulseOf_modTrd (d : Drv) (t : Fin 3) (f : Treadle → Treadle) (v : Fin 24) (h : ∀ q, (f q).runs = q.runs) :
    (d.modTrd t f).pulseOf v = d.pulseOf v := by
  unfold Drv.pulseOf
  rw [trd_modTrd]
  split
  · next e => rw [h, e]
  · rfl

/-- The node's own profile for a close closes: it is the one that is named, if that closes, or the ROM default (R88). -/
theorem nodeProfile_closes (s : State) (n : Nat) (v : Fin 24) : (s.nodeProfile n v).closes = true := by
  unfold State.nodeProfile
  dsimp only
  generalize (if s.drv.held (treadleOf v) then (s.drv.profileAt n).valid else s.drv.profOk (s.drv.profileAt n) v) = ok
  split
  · next h => exact (Bool.and_eq_true_iff.mp h).2
  · rfl

/-! ## Result records (R254, R255) -/

/-- A record enters the FIFO, or is lost with ROVF. -/
def Drv.filed (d : Drv) (r : Word × Word) : Drv :=
  if d.fifo.length < 16 then { d with fifo := d.fifo ++ [r] } else { d with rovf := true }

theorem filed_eq (d : Drv) (r : Word × Word) : ∃ l b, d.filed r = { d with fifo := l, rovf := b } := by
  unfold Drv.filed
  split <;> exact ⟨_, _, rfl⟩

/-- The summary word of a record, with its valve's state as DRV_VSTATE codes it. -/
def resultWord (close : Bool) (v : Fin 24) (prof res vs flags : Nat) (uj : Int) : Word :=
  place 1 31 ||| placeB close 30 ||| place v.val 25 ||| place (prof % 16) 21 ||| place res 17 ||| place vs 15 |||
    BitVec.ofNat 32 flags ||| place (min 255 (uj.toNat / 10000)) 0

theorem post_drv (s : State) (close : Bool) (v : Fin 24) (prof res flags : Nat) (uj : Int) :
    (s.post close v prof res flags uj).drv =
      s.drv.filed (resultWord close v prof res (vsCode (s.drv.vs v)) flags uj, s.local.setWidth 32) := by
  have stamp : (BitVec.ofNat 32 s.local.toNat : Word) = s.local.setWidth 32 := by simp
  unfold State.post Drv.filed
  dsimp only
  rw [event_drv, stamp, apply_ite State.drv]
  rfl

theorem post_within (s : State) (close : Bool) (v : Fin 24) (prof res flags : Nat) (uj : Int) :
    Within [.drv, .flw] s (s.post close v prof res flags uj) :=
  .mono (.after ((event_quiet _ 4).within []) (within_ite (modDrv_within s _) (modDrv_within s _))) rfl

theorem getLsbD_place (x lo i : Nat) :
    (place x lo).getLsbD i = (decide (i < 32) && (decide (lo ≤ i) && x.testBit (i - lo))) := by
  simp [place, BitVec.getLsbD_ofNat, Nat.testBit_shiftLeft]

theorem testBit_of_lt {x n i : Nat} (h : x < 2 ^ n) (hi : n ≤ i) : x.testBit i = false :=
  Nat.testBit_lt_two_pow (h.trans_le (Nat.pow_le_pow_right (by decide) hi))

theorem extract_place_same (x : Nat) {lo n : Nat} (hn : lo + n ≤ 32) :
    (place x lo).extractLsb' lo n = BitVec.ofNat n x := by
  refine BitVec.eq_of_getLsbD_eq fun i hi => ?_
  rw [BitVec.getLsbD_extractLsb', getLsbD_place, BitVec.getLsbD_ofNat]
  simp [hi, show lo + i < 32 by omega]

/-- A field placed outside `lo` .. `lo + n - 1` does not show there. -/
theorem extract_place_other {x k lo n m : Nat} (hx : x < 2 ^ m) (h : k + m ≤ lo ∨ lo + n ≤ k) :
    (place x k).extractLsb' lo n = 0 := by
  refine BitVec.eq_of_getLsbD_eq fun i hi => ?_
  rw [BitVec.getLsbD_extractLsb', getLsbD_place]
  rcases h with h | h
  · simp [testBit_of_lt hx (show m ≤ lo + i - k by omega)]
  · simp [show ¬ k ≤ lo + i by omega]

theorem vsCode_lt (x : VState) : vsCode x < 2 ^ 2 := by
  cases x <;> decide

theorem b2n_lt (b : Bool) : b2n b < 2 ^ 1 := by
  cases b <;> decide

/-- The record of an entry that ends without a pulse: its mark, its direction, its valve and its result. -/
theorem resultWord_fields (close : Bool) (v : Fin 24) (prof res : Nat) (x : VState) (hr : res < 2 ^ 4) :
    let w := resultWord close v prof res (vsCode x) 0 0
    w.getLsbD 31 = true ∧ w.getLsbD 30 = close ∧ (w.extractLsb' 25 5).toNat = v.val ∧ (w.extractLsb' 17 4).toNat = res := by
  have hv : v.val < 2 ^ 5 := by omega
  have hp : prof % 16 < 2 ^ 4 := by omega
  have hx := vsCode_lt x
  have hc := b2n_lt close
  have tail : (BitVec.ofNat 32 0 : Word) ||| place (min 255 ((0 : Int).toNat / 10000)) 0 = 0 := by decide
  have e : resultWord close v prof res (vsCode x) 0 0 =
      place 1 31 ||| place (b2n close) 30 ||| place v.val 25 ||| place (prof % 16) 21 ||| place res 17 ||| place (vsCode x) 15 := by
    rw [resultWord, BitVec.or_assoc _ (BitVec.ofNat 32 0), tail]
    exact BitVec.or_zero
  dsimp only
  rw [e]
  refine ⟨?mark, ?direction, ?valve, ?result⟩
  case mark => simp [getLsbD_place]
  case direction =>
    simp only [BitVec.getLsbD_or, getLsbD_place, testBit_of_lt hv (show 5 ≤ 30 - 25 by decide),
      testBit_of_lt hp (show 4 ≤ 30 - 21 by decide), testBit_of_lt hr (show 4 ≤ 30 - 17 by decide),
      testBit_of_lt hx (show 2 ≤ 30 - 15 by decide)]
    cases close <;> rfl
  case valve =>
    simp only [BitVec.extractLsb'_or]
    rw [extract_place_other (m := 1) (by decide) (by omega), extract_place_other hc (by omega),
      extract_place_same v.val (by decide), extract_place_other hp (by omega), extract_place_other hr (by omega),
      extract_place_other hx (by omega)]
    simpa using hv
  case result =>
    simp only [BitVec.extractLsb'_or]
    rw [extract_place_other (m := 1) (by decide) (by omega), extract_place_other hc (by omega),
      extract_place_other hv (by omega), extract_place_other hp (by omega), extract_place_same res (by decide),
      extract_place_other hx (by omega)]
    simpa using hr

/-! ## An entry leaves its queue without a pulse (R248, R254) -/

theorem endEntry_within (s : State) (t : Fin 3) (e : QEntry) (res : Nat) : Within [.drv, .flw] s (s.endEntry t e res) :=
  .mono (.after (post_within _ _ _ _ _ _ _)
    (.after (within_ite (modDrv_within _ _) (.refl [] _)) (modDrv_within s _))) rfl

theorem endEntry_drv (s : State) (t : Fin 3) (e : QEntry) (res : Nat) : ∃ w x,
    (s.endEntry t e res).drv = ({ s.drv.unqueue t e with vstate := w } : Drv).filed
      (resultWord (s.entryProfile e).closes e.valve e.profile.toNat res (vsCode x) 0 0, s.local.setWidth 32) := by
  have filed (c : Bool) (u : State) (hu : u = if c then (s.modDrv fun d => d.unqueue t e).modDrv fun d =>
      d.setVs e.valve .unknown else s.modDrv fun d => d.unqueue t e) : ∃ w x,
      (u.post (u.entryProfile e).closes e.valve e.profile.toNat res 0 0).drv =
        ({ s.drv.unqueue t e with vstate := w } : Drv).filed
          (resultWord (s.entryProfile e).closes e.valve e.profile.toNat res (vsCode x) 0 0, s.local.setWidth 32) := by
    obtain ⟨⟨w, hw⟩, hl⟩ : (∃ w, u.drv = { s.drv.unqueue t e with vstate := w }) ∧ u.local = s.local := by
      rw [hu]
      split
      · exact ⟨setVs_eq (s.drv.unqueue t e) e.valve .unknown, rfl⟩
      · exact ⟨⟨_, rfl⟩, rfl⟩
    refine ⟨w, u.drv.vs e.valve, ?_⟩
    rw [post_drv, hl]
    simp only [State.entryProfile, State.nodeProfile, Drv.profOk, hw]
    rfl
  exact filed _ _ rfl

theorem endEntry_trd (s : State) (t : Fin 3) (e : QEntry) (res : Nat) :
    (s.endEntry t e res).drv.trd.get t = { s.drv.trd.get t with queue := (s.drv.trd.get t).queue.erase e } := by
  obtain ⟨w, x, hd⟩ := endEntry_drv s t e res
  obtain ⟨l, b, hl⟩ := filed_eq { s.drv.unqueue t e with vstate := w } _
  rw [hd, hl]
  exact (trd_modTrd s.drv t t fun q => { q with queue := q.queue.erase e }).trans (if_pos rfl)

/-! ## Ends of pulses (R232, R285) -/

theorem phaseMeasured_within (s : State) (p : Pulse) : Within [.drv, .flw] s (s.phaseMeasured p) := by
  unfold State.phaseMeasured State.coilMeasured
  split
  · exact modDrv_within s _
  · exact .refl _ s

theorem toEnd_within (s : State) (v : Fin 24) (mode : Pulse → Nat) (f : Pulse → Pulse) :
    Within [.drv, .flw] s (s.toEnd v mode f) := by
  unfold State.toEnd
  split
  · exact .refl _ s
  · exact .mono (within_ite (.refl [] s) (.after (modDrv_within _ _) (phaseMeasured_within s _))) rfl

theorem endEarly_within (s : State) (v : Fin 24) (res : BitVec 4) : Within [.drv, .flw] s (s.endEarly v res) :=
  toEnd_within s v _ _

/-! ## The start of a pulse (R233, R242 to R244, R263) -/

theorem heatByEnergy_within (s : State) (v : Fin 24) (drawn : Int) : Within [.drv, .flw] s (s.heatByEnergy v drawn) :=
  modDrv_within s fun d => d.modValve v fun e =>
    if e.rcoil = 0 then { e with tcoil := e.tcoil + drawn * 4 * 2 ^ 30 / (1000000 * (fld s.drv.therm 8 6 : Int)) } else e

theorem blankDrive_within (s : State) (v : Fin 24) : Within [.prs] s (s.blankDrive v) := lines_within s _ rfl

theorem startPulse_within (s : State) (t : Fin 3) (e : QEntry) (ok : Bool) :
    Within [.drv, .flw, .prs] s (s.startPulse t e ok) := by
  unfold State.startPulse
  dsimp only
  have begun (u : State) : Within [.prs] u
      (((u.occur 0x30).entered 0x33 none (!s.drv.allRuns.isEmpty) true).blankDrive e.valve) :=
    .mono (.after (blankDrive_within _ _) (.after ((entered_quiet _ _ _ _ _).within []) ((occur_quiet u _).within []))) rfl
  refine .mono (.after (begun _) (.after (within_ite (modDrv_within _ _) (.refl [] _)) (l := [.drv, .flw]) ?_)) rfl
  split
  · exact .mono (.after (modDrv_within _ _) (.after (heatByEnergy_within _ _ _) (.after (post_within _ _ _ _ _ _ _)
      (.after (modDrv_within _ _) (.after (phaseMeasured_within _ _) (modDrv_within s _)))))) rfl
  · exact .mono (.after (modDrv_within _ _) (modDrv_within s _)) rfl

/-- The pulse of an entry that closes a valve without a running pulse. -/
def State.closePulse (s : State) (e : QEntry) : Pulse :=
  s.newPulse e (s.entryProfile e) (s.eReq (s.entryProfile e) e.valve) (s.drv.vs e.valve) .boost

/-- The entry leaves its queue, and its pulse runs. -/
def Drv.starts (d : Drv) (t : Fin 3) (e : QEntry) (p : Pulse) : Drv :=
  ((d.unqueue t e).modTrd t fun q => { q with runs := q.runs ++ [p], turn := none }).setVs e.valve .moving

theorem startPulse_close_drv {s : State} {t : Fin 3} {e : QEntry} (ok : Bool) (hc : (s.entryProfile e).closes = true)
    (hp : s.drv.pulseOf e.valve = none) : (s.startPulse t e ok).drv = s.drv.starts t e (s.closePulse e) := by
  have hq : (s.modDrv fun d => d.unqueue t e).drv.pulseOf e.valve = none :=
    (pulseOf_modTrd s.drv t (fun q => { q with queue := q.queue.erase e }) e.valve fun _ => rfl).trans hp
  unfold Drv.unqueue at hq
  unfold State.startPulse
  dsimp only
  rw [hq, hc]
  simp only [Bool.not_true, Bool.false_and, Bool.false_eq_true, if_false, Drv.firstPhase]
  rw [show ∀ u v, (State.blankDrive u v).drv = u.drv from fun _ _ => rfl, entered_drv, occur_drv]
  rfl

theorem starts_trd (d : Drv) (t k : Fin 3) (e : QEntry) (p : Pulse) :
    (d.starts t e p).trd.get k =
      if k = t then { d.trd.get t with queue := (d.trd.get t).queue.erase e, runs := (d.trd.get t).runs ++ [p], turn := none }
      else d.trd.get k := by
  obtain ⟨w, hw⟩ := setVs_eq ((d.unqueue t e).modTrd t fun q => { q with runs := q.runs ++ [p], turn := none }) e.valve .moving
  rw [Drv.starts, hw]
  dsimp only
  rw [Drv.unqueue, trd_modTrd, trd_modTrd, trd_modTrd]
  split <;> simp

/-- Besides its treadles and the valve's state, the drive is as it was. -/
theorem starts_eq (d : Drv) (t : Fin 3) (e : QEntry) (p : Pulse) :
    ∃ l w, d.starts t e p = { d with trd := l, vstate := w } := by
  obtain ⟨w, hw⟩ := setVs_eq ((d.unqueue t e).modTrd t fun q => { q with runs := q.runs ++ [p], turn := none }) e.valve .moving
  exact ⟨_, w, hw⟩

end Sys2Proof.Machine
end

section
/-!
PROOFS. The start points: the ends of entries that wait too long, and the scan that starts an admitted close (R79 to R84, R242,
R254, R255, R289), and the statement about them.
-/

namespace Sys2Proof.Machine

/-! ## The scan with one close at the head of one queue (R83, R242) -/

theorem takeDrawn_nil (s : State) : s.takeDrawn [] = s := List.foldl_fixed' (fun _ => rfl) _

/-- With no entry deferred, the thermal check ends none (R289). -/
theorem thermScan_none {s : State} (h : ∀ k, ∀ e ∈ (s.drv.trd.get k).queue, e.deferred = false) : s.thermScan = s := by
  refine List.foldl_fixed' (fun k => ?_) _
  calc (s.drv.trd.get k).queue.foldl _ s
      = (s.drv.trd.get k).queue.foldl (fun u _ => u) s := List.foldl_ext _ _ _ fun u e he => by simp [h k e he]
    _ = s := List.foldl_fixed _

theorem nextCand_nil {s : State} {k : Fin 3} (h : (s.drv.trd.get k).queue = []) : s.nextCand k .all = none := by
  simp [State.nextCand, State.candidate, h]

/-- A close that nothing holds is its treadle's candidate. -/
theorem nextCand_close {s : State} {t : Fin 3} {e : QEntry} (hq : (s.drv.trd.get t).queue = [e])
    (hc : (s.entryProfile e).closes = true) (hh : s.drv.held t = false) (hb : s.drv.startBlocked t = false)
    (ho : s.drv.overlapOk e.valve (s.entryProfile e) = true) : s.nextCand t .all = some e := by
  simp [State.nextCand, State.candidate, State.isRelease, State.opens, hq, hc, hh, hb, ho]

/-- Every treadle is still scanned in full. -/
def allModes : Vector ScanMode 3 := #v[.all, .all, .all]

theorem allModes_get (k : Fin 3) : allModes.get k = .all := by
  match k with
  | 0 | 1 | 2 => rfl

/-- The only candidate is the one that is taken. -/
theorem pick_only {s : State} {t : Fin 3} {e : QEntry} (h : s.nextCand t .all = some e)
    (hk : ∀ k, k ≠ t → s.nextCand k .all = none) : s.pick allModes = some (t, e) := by
  have cs : ((upTo 3).filterMap fun k => (s.nextCand k (allModes.get k)).map fun e => (k, e)) = [(t, e)] := by
    simp only [allModes_get, upTo]
    match t with
    | 0 => simp [List.finRange_succ, h, hk 1 (by decide), hk 2 (by decide)]
    | 1 => simp [List.finRange_succ, h, hk 0 (by decide), hk 2 (by decide)]
    | 2 => simp [List.finRange_succ, h, hk 0 (by decide), hk 1 (by decide)]
  unfold State.pick
  dsimp only
  rw [cs]
  cases ho : s.opens e <;> simp [ho]

theorem pick_none {s : State} (h : ∀ k, s.nextCand k .all = none) : s.pick allModes = none := by
  simp [State.pick, allModes_get, h]

theorem scanLoop_none {s : State} {ms : Vector ScanMode 3} (b : BitVec 3) (n : Nat) (h : s.pick ms = none) :
    State.scanLoop b n s ms = s := by
  cases n with
  | zero => rfl
  | succ n => simp only [State.scanLoop, h]

theorem scanLoop_step {s u : State} {t : Fin 3} {e : QEntry} {ms ns : Vector ScanMode 3} {b : BitVec 3} (n : Nat)
    (h : s.pick ms = some (t, e)) (hs : s.scanOne t e ms b = (u, ns)) :
    State.scanLoop b (n + 1) s ms = State.scanLoop b n u ns := by
  simp only [State.scanLoop, h, hs]

/-- The scan's step at an admitted close: its pulse starts. -/
theorem scanOne_close {s : State} {t : Fin 3} {e : QEntry} {ms : Vector ScanMode 3} (b : BitVec 3)
    (hc : (s.entryProfile e).closes = true) (hh : s.drv.held t = false) (hd : e.prediag = false)
    (hp : e.origin ≠ .program ∨ s.drv.profOk (s.entryProfile e) e.valve = true)
    (ha : s.admits (s.entryProfile e) e.valve = true) :
    s.scanOne t e ms b = (s.startPulse t e (b.getLsbD t), ms) := by
  have hi : ¬ (e.origin = .program ∧ s.drv.profOk (s.entryProfile e) e.valve = false) := by
    rintro ⟨ho, hn⟩
    rcases hp with hp | hp
    · exact hp ho
    · simp [hn] at hp
  simp [State.scanOne, State.isRelease, hc, hh, hd, ha, hi]

/-- A pass of tests that is not under way does not go on. -/
theorem tallGo_off {d : Drv} (h : d.tall = false) : d.tallGo = d := by
  simp [Drv.tallGo, h]

/-- The scan that finds one close, admitted and held by nothing, at the head of the only queue that is not empty. -/
theorem scan_close {s : State} {t : Fin 3} {e : QEntry} (b : BitVec 3) (hq : (s.drv.trd.get t).queue = [e])
    (hn : ∀ k, k ≠ t → (s.drv.trd.get k).queue = []) (hc : (s.entryProfile e).closes = true)
    (hh : s.drv.held t = false) (hf : e.deferred = false) (hd : e.prediag = false)
    (hp : e.origin ≠ .program ∨ s.drv.profOk (s.entryProfile e) e.valve = true) (hb : s.drv.startBlocked t = false)
    (ho : s.drv.overlapOk e.valve (s.entryProfile e) = true) (hr : s.drv.pulseOf e.valve = none)
    (ha : s.admits (s.entryProfile e) e.valve = true) (htall : s.drv.tall = false) :
    Within [.drv, .flw, .prs] s (s.scan b) ∧ (s.scan b).drv = s.drv.starts t e (s.closePulse e) := by
  have still : s.thermScan = s := thermScan_none fun k x hx => by
    by_cases hk : k = t
    · rw [hk, hq, List.mem_singleton] at hx
      rw [hx, hf]
    · rw [hn k hk] at hx
      exact absurd hx List.not_mem_nil
  have drv : (s.startPulse t e (b.getLsbD t)).drv = s.drv.starts t e (s.closePulse e) := startPulse_close_drv _ hc hr
  have empty : ∀ k, ((s.startPulse t e (b.getLsbD t)).drv.trd.get k).queue = [] := by
    intro k
    rw [drv, starts_trd]
    split
    · simp [hq]
    · next hk => exact hn k hk
  have loop : State.scanLoop b 120 s allModes = s.startPulse t e (b.getLsbD t) := by
    have first := pick_only (nextCand_close hq hc hh hb ho) fun k hk => nextCand_nil (hn k hk)
    exact (scanLoop_step 119 first (scanOne_close b hc hh hd hp ha)).trans
      (scanLoop_none b 119 (pick_none fun k => nextCand_nil (empty k)))
  have scanned : s.scan b = (s.startPulse t e (b.getLsbD t)).modDrv Drv.tallGo := by
    rw [State.scan, still]
    exact congrArg (fun u : State => u.modDrv Drv.tallGo) loop
  rw [scanned]
  refine ⟨.mono (.after (modDrv_within _ _) (startPulse_within s t e _)) rfl, ?_⟩
  obtain ⟨l, w, hw⟩ := starts_eq s.drv t e (s.closePulse e)
  rw [modDrv_drv, drv, tallGo_off (by rw [hw]; exact htall)]

/-! ## The claims -/

/-- Settles O36: an entry that ends leaves its queue by `endEntry`; the scan that finds the close starts its pulse by
`scan_close`. -/
theorem startPointsAdmitAndExpire : Obligations.StartPointsAdmitAndExpire := by
  unfold Obligations.StartPointsAdmitAndExpire
  intro t e s hpow hdmi p posts ends
  have ended (res : Nat) (hr : res < 2 ^ 4) : ends (.next (s.endEntry t e res)) res := by
    obtain ⟨w, x, hd⟩ := endEntry_drv s t e res
    obtain ⟨hm, hc, hv, hres⟩ := resultWord_fields p.closes e.valve e.profile.toNat res x hr
    refine (endEntry_within s t e res).touches rfl rfl ⟨?queue, ?runs, ?record⟩
    case queue => rw [endEntry_trd]
    case runs => rw [endEntry_trd]
    case record =>
      change if s.drv.fifo.length < 16 then _ else _
      rw [hd, Drv.filed]
      split
      · next h => exact ⟨_, if_pos h ▸ rfl, hm, hc, hv, hres⟩
      · next h => exact if_neg h ▸ ⟨rfl, rfl⟩
  have opens (h : p.closes = false) : s.opens e = true := by simp [State.opens, p] at h ⊢; exact h
  refine ⟨fun k hk hc => ⟨fun hw ha => ?turned, fun hd => ?thermal⟩,
    fun b hq hn htr hc hh hf hd hp hb ho hr htall ha => ?scan⟩
  case turned =>
    have h : exec (.admitWaitExpiry t k) s = .next (s.endEntry t e 2) := by
      change execAdmitWaitExpiry t k s = _
      simp only [execAdmitWaitExpiry, State.entryAt, hk]
      exact whenever_holds hpow (by simp [hdmi, opens hc, hw, p, ← ha]) _
    exact h ▸ ended 2 (by decide)
  case thermal =>
    have h : exec (.thermalWaitExpiry t k) s = .next (s.endEntry t e 3) := by
      change execThermalWaitExpiry t k s = _
      simp only [execThermalWaitExpiry, State.entryAt, hk]
      exact whenever_holds hpow (by simpa [hdmi, opens hc] using hd) _
    exact h ▸ ended 3 (by decide)
  case scan =>
    have h : exec (.startPointScan b []) s = .next (s.scan b) := by
      change execStartPointScan b [] s = _
      rw [execStartPointScan, whenever_holds hpow hdmi, takeDrawn_nil]
    obtain ⟨hw, hd⟩ := scan_close b hq hn hc hh hf hd hp hb ho hr ha htall
    refine hw.touches h rfl ?_
    rw [hd, starts_trd, if_pos rfl]
    exact ⟨by simp [hq], s.closePulse e, rfl, rfl, rfl, rfl, rfl⟩

end Sys2Proof.Machine
end

section
/-!
SUPPORT. What the drive's sequencer, the boost, the flow meter, the pressure lines, the chain and the islands leave unchanged,
and what drains with no store waiting (R70, R91, R92, R127, R194, R306, R307, R337, R516).
-/

namespace Sys2Proof.Machine

/-! ## The drive, the boost and the sequencer (R70, R91, R92) -/

theorem dropRetry_within (s : State) : Within [.drv, .flw] s s.dropRetry := by
  unfold State.dropRetry
  split
  · exact .refl _ s
  · exact .mono (.after (post_within _ _ _ _ _ _ _) (modDrv_within s _)) rfl

/-- A retry that is dropped has its record, and nothing else of the drive changes. -/
theorem dropRetry_drv (s : State) : ∃ l b, s.dropRetry.drv = { s.drv with fifo := l, rovf := b, seqRetry := none } := by
  unfold State.dropRetry
  split
  · next h => exact ⟨s.drv.fifo, s.drv.rovf, h ▸ rfl⟩
  · rw [post_drv]
    exact filed_eq { s.drv with seqRetry := none } _

theorem seqStep_within (s : State) (v : Fin 24) : Within [.drv, .flw] s (s.seqStep v) := modDrv_within s _

theorem boostCheck_within (s : State) : Within [.nrgx] s s.boostCheck := by
  have h := (boostCheck_quiet s).within []
  exact .mono (.after h (modNrgx_within s _)) rfl

/-- Of the energy manager, the check of the boost's permission changes the boost alone. -/
theorem boostCheck_nrgx (s : State) : ∃ b, s.boostCheck.nrgx = { s.nrgx with boostOn := b } := by
  obtain ⟨n, -, h⟩ := boostCheck_quiet s
  rw [h]
  exact ⟨_, rfl⟩

theorem seqFinish_within (s : State) : Within [.drv, .flw, .nrgx] s s.seqFinish :=
  .mono (within_ite (.after (boostCheck_within _) (.after (within_ite (modNrgx_within _ _) (.refl [] _))
    (.after (modDrv_within _ _) (dropRetry_within s)))) (.refl [] s)) rfl

/-- The sequencer's end stops the boost at most, and takes a closing last act to its commit wait (R91). -/
theorem seqFinish_nrgx (s : State) : ∃ b st, s.seqFinish.nrgx = { s.nrgx with boostOn := b, laState := st } ∧
    (st = s.nrgx.laState ∨ s.nrgx.laState = .closing ∧ st = .commitWait) := by
  unfold State.seqFinish
  split
  · dsimp only
    have hd : (s.dropRetry.modDrv fun d => { d with seqMode := .idle, seqNext := 0 }).nrgx = s.nrgx :=
      (dropRetry_within s).nrgx rfl
    split
    · next h =>
      obtain ⟨b, hb⟩ := boostCheck_nrgx
        ((s.dropRetry.modDrv fun d => { d with seqMode := .idle, seqNext := 0 }).modNrgx fun x => { x with laState := .commitWait })
      refine ⟨b, .commitWait, hb.trans (hd ▸ rfl), .inr ⟨?_, rfl⟩⟩
      rw [← hd]
      exact eq_of_beq (Bool.and_eq_true_iff.mp h).2
    · obtain ⟨b, hb⟩ := boostCheck_nrgx (s.dropRetry.modDrv fun d => { d with seqMode := .idle, seqNext := 0 })
      exact ⟨b, s.nrgx.laState, hb.trans (hd ▸ rfl), .inl rfl⟩
  · exact ⟨s.nrgx.boostOn, s.nrgx.laState, rfl, .inl rfl⟩

/-- The sequencer's end in the drive: it goes on as it was, or a retry that it dropped has its record and it is idle. -/
theorem seqFinish_drv (s : State) :
    s.seqFinish.drv = s.drv ∨ s.seqFinish.drv = { s.dropRetry.drv with seqMode := .idle, seqNext := 0 } := by
  unfold State.seqFinish
  split
  · refine .inr ?_
    dsimp only
    rw [(boostCheck_within _).drv rfl]
    split <;> rfl
  · exact .inl rfl

/-- Manual mode, the tests and the running opens end with LASTACT (R91, R261, R282). -/
def State.drvCancelled (s : State) : State :=
  let s := (s.modDrv fun d => d.abortTest).modDrv fun d => { d with manual := false, sw := 0 }
  (s.drv.allRuns.filter fun p => !p.prof.closes).foldl (fun s p => s.endEarly p.valve 4) s

/-- Every queued command ends with LASTACT (R91). -/
def State.drvUnqueued (s : State) : State :=
  (upTo 3).foldl (fun s t => (s.drv.trd.get t).queue.foldl (fun s e => s.endEntry t e 4) s) s

/-- The sequencer has the drive, and starts from V0 (R91, R103). -/
def State.drvSequenced (s : State) : State :=
  s.dropRetry.modDrv fun d => { d with seqMode := .last, seqNext := 0, seqOver := d.seqRun.isSome }

theorem drvLastAct_eq (s : State) : s.drvLastAct = s.drvCancelled.drvUnqueued.drvSequenced.seqFinish := rfl

theorem drvCancelled_within (s : State) : Within [.drv, .flw] s s.drvCancelled := by
  have begin : Within [.drv, .flw] s ((s.modDrv fun d => d.abortTest).modDrv fun d => { d with manual := false, sw := 0 }) :=
    (modDrv_within s _).trans (modDrv_within _ _)
  exact begin.trans (within_foldl _ (fun s p => endEarly_within s _ _) _ _)

theorem drvUnqueued_within (s : State) : Within [.drv, .flw] s s.drvUnqueued :=
  within_foldl _ (fun s t => within_foldl _ (fun s e => endEntry_within s t e 4) _ s) _ s

theorem drvSequenced_within (s : State) : Within [.drv, .flw] s s.drvSequenced :=
  (dropRetry_within s).trans (modDrv_within _ _)

/-- What LASTACT does in the drive before the sequencer may finish at once. -/
theorem drvCleared_within (s : State) : Within [.drv, .flw] s s.drvCancelled.drvUnqueued.drvSequenced :=
  ((drvCancelled_within s).trans (drvUnqueued_within _)).trans (drvSequenced_within _)

theorem drvLastAct_within (s : State) : Within [.drv, .flw, .nrgx] s s.drvLastAct := by
  rw [drvLastAct_eq]
  exact .mono (.after (seqFinish_within _) (drvCleared_within s)) rfl

/-! ## The flow meter (R211, R306, R307) -/

/-- A change of the flow block that keeps the mark of the last act. -/
theorem flow_within (s : State) (x : Flw) (h : x.dead = s.flw.dead) : Within [.flw] s { s with flw := x } :=
  within_of_eng rfl fun p hp => by cases p <;> simp_all [Part.Same]

theorem latchPeriod_within (s : State) (k : Nat) (f : Fin 8 → Bool) : Within [.prs] s (s.latchPeriod k f) :=
  lines_within s _ rfl

theorem flowSwap_within (s : State) (n : Fin 3) : Within [.flw, .armed] s (s.flowSwap n) :=
  .mono (within_ite (.after (modFlow_within _ n _) (disarm_within s _)) (.refl [] s)) rfl

theorem flowPost_within (s : State) (n : Fin 3) (m : FlowMeas) (cut : Option Nat) :
    Within [.flw, .armed, .prs, .fresh] s (s.flowPost n m cut) :=
  .mono (.after (flowSwap_within _ n) (.after (latchPeriod_within _ 2 _) (.after ((event_quiet _ 6).within [])
    (.after (flow_within _ _ rfl) (.after (modFlow_within _ n _) (.after ((count_quiet _ 0x39 none .occ _).within [])
      (fresh_within s _))))))) rfl

theorem flowLastAct_within (s : State) : Within [.flw, .dead, .armed, .prs, .fresh] s s.flowLastAct := by
  unfold State.flowLastAct
  refine .mono (.after (modFlw_within _ _) (l := [.flw, .armed, .prs, .fresh]) ?_) rfl
  split
  · exact flowPost_within s _ _ _
  · exact .refl _ s

theorem flowLastAct_dead (s : State) : s.flowLastAct.flw.dead = true := rfl

/-! ## The pressure lines (R327, R337, R340 to R342) -/

theorem cmpFollow_within (s : State) (n : Fin 3) (old : PrsLine) : Within [.prs] s (s.cmpFollow n old) :=
  .mono (within_ite (modCmp_within s _ _) (.refl [] s)) rfl

theorem prsSwapAct_within (s : State) (n : Fin 3) (old : PrsLine) : Within [.prs] s (s.prsSwapAct n old) := by
  unfold State.prsSwapAct
  dsimp only
  split
  · exact .mono (within_ite (.refl [] s)
      (within_ite (within_ite (.refl [] s) (modLine_within s n _)) (modLine_within s n _))) rfl
  · exact .mono (within_ite (modLine_within s n _) (within_ite (modLine_within s n _) (.refl [] s))) rfl
  · exact .mono (within_ite (.refl [] s) (modLine_within s n _)) rfl
  · exact .refl _ s

theorem prsSwap_within (s : State) (n : Fin 3) : Within [.armed, .prs] s (s.prsSwap n) :=
  .mono (within_ite (.after (cmpFollow_within _ n _) (.after (prsSwapAct_within _ n _) (.after (modLine_within _ n _)
    (disarm_within s _)))) (.refl [] s)) rfl

theorem ringFlush_within (s : State) (n : Fin 3) : Within [.mem, .cells, .prs] s (s.ringFlush n) :=
  .mono (within_ite (.refl [] s) (.after (modLine_within _ n _) (writeWord_within s _ _ _ _))) rfl

theorem capEnd_within (s : State) (n : Fin 3) (trunc : Bool) :
    Within [.mem, .cells, .prs, .fresh] s (s.capEnd n trunc) := by
  unfold State.capEnd
  split
  · exact .refl _ s
  · exact .mono (.after ((event_quiet _ 7).within []) (.after (modLine_within _ n _)
      (.after (within_foldl _ (fun s k => writeWord_within s _ _ _ _) _ _) (.after (fresh_within _ _)
        (ringFlush_within s n))))) rfl

theorem lineLastAct_within (s : State) (n : Fin 3) :
    Within [.mem, .cells, .armed, .prs, .fresh] s (s.lineLastAct n) := by
  unfold State.lineLastAct
  dsimp only
  split
  · exact .mono (.after (prsSwap_within _ n) (.after (cmpFollow_within _ n _) (modLine_within s n _))) rfl
  · exact .mono (.after (prsSwap_within _ n) (capEnd_within s n true)) rfl
  · exact .refl _ s

theorem prsLastAct_within (s : State) : Within [.mem, .cells, .armed, .prs, .dead, .fresh] s s.prsLastAct :=
  .mono (.after (within_foldl _ lineLastAct_within _ _) (modPrs_within s _)) rfl

/-- The pressure lines are marked, and the flow meter's mark is as it was. -/
theorem prsLastAct_dead (s : State) : s.prsLastAct.flw.dead = s.flw.dead ∧ s.prsLastAct.prs.dead = true :=
  (within_foldl _ lineLastAct_within (upTo 3) (s.modPrs fun p => { p with dead := true })).dead rfl

/-! ## The chain, the radio and the islands (R127, R516) -/

theorem hwSend_within (s : State) (w : Word) : Within [.lnk] s (s.hwSend w) := modLnk_within s _

theorem hwSend_lnk (s : State) (w : Word) :
    (s.hwSend w).lnk = ({ s.lnk with hwWait := s.lnk.hwWait ++ [w] } : Lnk).serve .up := rfl

theorem setRad_within (s : State) (st : RadState) : Within [.rad] s (s.setRad st) :=
  .mono (.after ((entered_quiet _ _ _ _ _).within []) (.after ((entered_quiet _ _ _ _ _).within []) (modRad_within s _))) rfl

theorem startDmi_within (s : State) : Within [.sys, .drv, .flw] s s.startDmi :=
  .mono (within_ite (.refl [] s) (.after (modDrv_within _ _) (clocks_within s _ rfl))) rfl

theorem startRad_within (s : State) : Within [.sys, .rad] s s.startRad :=
  .mono (within_ite (.refl [] s) (.after (setRad_within _ _) (clocks_within s _ rfl))) rfl

theorem startIslands_within (s : State) : Within [.sys, .drv, .flw, .rad] s s.startIslands := by
  have dmi : Within [.sys, .drv, .flw, .rad] s (if s.dmiWanted then s.startDmi else s) :=
    .mono (within_ite (startDmi_within s) (.refl [] s)) rfl
  exact .mono (within_ite (within_ite (.after (startRad_within _) dmi) dmi) (.refl [] s)) rfl

/-! ## The write buffer with no store waiting (R194 to R197) -/

theorem Within.stalled {l : List Part} {s t : State} (h : Within l s t) (hp : decide (.busy ∉ l) = true)
    (hs : ∀ k, (s.sh k).stalled = false) (k : Fin 4) : (t.sh k).stalled = false := by
  unfold Shuttle.stalled at hs ⊢
  rw [h.busyOn k hp]
  exact hs k

theorem stallAt_none {x : Shuttle} (h : x.stalled = false) : x.stallAt = none := by
  unfold Shuttle.stalled at h
  unfold Shuttle.stallAt
  split
  · next e => rw [e] at h; cases h
  · rfl

theorem stallLand_none {s : State} (h : ∀ k, (s.sh k).stalled = false) : s.stallLand = s := by
  have first : s.firstStalled = none := List.find?_eq_none.mpr fun k _ => by simp [stallAt_none (h k)]
  have one : s.stallOne = s := by simp [State.stallOne, first]
  simp only [State.stallLand, one]

theorem foldl_wbWriteOne {α : Type} (l : List α) {s : State} (h : ∀ k, (s.sh k).stalled = false) :
    (l.foldl (fun s _ => s.wbWriteOne.stallLand) s).mem.wbuf = s.mem.wbuf.drop l.length := by
  induction l generalizing s with
  | nil => rfl
  | cons a l ih =>
    have hw : ∀ k, (s.wbWriteOne.sh k).stalled = false := (wbWriteOne_within s).stalled rfl h
    rw [List.foldl_cons, stallLand_none hw, ih hw, wbWriteOne_wbuf, List.drop_drop, List.length_cons, Nat.add_comm]

/-- A buffer of at most eight entries drains to its end. -/
theorem wbDrain_wbuf {s : State} (h : ∀ k, (s.sh k).stalled = false) (hl : s.mem.wbuf.length ≤ 8) :
    s.wbDrain.mem.wbuf = [] := by
  unfold State.wbDrain
  rw [foldl_wbWriteOne _ h, List.length_range]
  exact List.drop_eq_nil_of_le hl

theorem wbDrain_empty {s : State} (h : ∀ k, (s.sh k).stalled = false) (hw : s.mem.wbuf = []) : s.wbDrain = s := by
  have one : s.wbWriteOne.stallLand = s := by
    have e : s.wbWriteOne = s := by simp [State.wbWriteOne, hw]
    rw [e, stallLand_none h]
  unfold State.wbDrain
  exact List.foldl_fixed' (fun _ => one) _

end Sys2Proof.Machine
end

section
/-!
PROOFS. The last act: LASTACT, the sequencer's closes, the deadline, the cut-off and the threshold (R89 to R96), and the
statement about them.
-/

namespace Sys2Proof.Machine

/-! ## LASTACT (R91) -/

/-- The last act has fired, before the drive, the meters and the lines hear of it. -/
def State.lastActFired (s : State) : State :=
  (((s.event 10).modNrgx fun x => { x with laState := .closing, laArmed := false, sink := false }).modNrg fun n =>
    { n with ctl := putFld n.ctl 8 1 0 }).modSys fun x => { x with wdogStopped := true }

/-- The drive, the meters and the lines have heard of it. -/
def State.lastActEnds (s : State) : State := s.lastActFired.drvLastAct.flowLastAct.prsLastAct

/-- A member has told the head. -/
def State.lastActTold (s : State) : State :=
  if s.lastActEnds.isMember then s.lastActEnds.hwSend (hwWord 2 0) else s.lastActEnds

theorem fireLastAct_eq (s : State) : s.fireLastAct = s.lastActTold.boostCheck.startIslands := rfl

theorem lastActFired_within (s : State) : Within [.sys, .steady, .nrg, .nrgx] s s.lastActFired :=
  .mono (.after (modSys_within _ _) (.after (modNrg_within _ _)
    (.after (modNrgx_within _ _) ((event_quiet s 10).within [])))) rfl

theorem lastActEnds_within (s : State) :
    Within [.drv, .flw, .nrgx, .dead, .armed, .prs, .fresh, .mem, .cells] s.lastActFired s.lastActEnds :=
  .mono (.after (prsLastAct_within _) (.after (flowLastAct_within _) (drvLastAct_within _))) rfl

theorem lastActTold_within (s : State) : Within [.lnk] s.lastActEnds s.lastActTold :=
  .mono (within_ite (hwSend_within _ _) (.refl [] _)) rfl

/-- What follows the word to the head. -/
theorem fireLastAct_within_told (s : State) : Within [.sys, .drv, .flw, .rad, .nrgx] s.lastActTold s.fireLastAct :=
  .mono (.after (startIslands_within _) (boostCheck_within _)) rfl

/-- What follows the writes of NRG_CTL and of the watchdog. -/
theorem fireLastAct_within_fired (s : State) :
    Within [.sys, .drv, .flw, .rad, .nrgx, .lnk, .dead, .armed, .prs, .fresh, .mem, .cells] s.lastActFired s.fireLastAct :=
  .mono (.after (fireLastAct_within_told s) (.after (lastActTold_within s) (lastActEnds_within s))) rfl

theorem fireLastAct_nrgx (s : State) : ∃ b st, s.fireLastAct.nrgx =
    { s.nrgx with boostOn := b, laState := st, laArmed := false, sink := false } ∧ (st = .closing ∨ st = .commitWait) := by
  obtain ⟨b, st, hd, hst⟩ := seqFinish_nrgx s.lastActFired.drvCancelled.drvUnqueued.drvSequenced
  have hc : s.lastActFired.drvCancelled.drvUnqueued.drvSequenced.nrgx = s.lastActFired.nrgx :=
    (drvCleared_within _).nrgx rfl
  have ends : Within [.flw, .dead, .armed, .prs, .fresh, .mem, .cells, .lnk] s.lastActFired.drvLastAct s.lastActTold :=
    .mono (.after (lastActTold_within s) (.after (prsLastAct_within _) (flowLastAct_within _))) rfl
  have told : s.lastActTold.nrgx = { s.lastActFired.nrgx with boostOn := b, laState := st } :=
    (ends.nrgx rfl).trans (hd.trans (by rw [hc]))
  have fired : s.lastActFired.nrgx = { s.nrgx with laState := .closing, laArmed := false, sink := false } := by
    change ({ (s.event 10).nrgx with laState := .closing, laArmed := false, sink := false } : NrgAux) = _
    rw [((event_quiet s 10).within []).nrgx rfl]
  obtain ⟨b', hb⟩ := boostCheck_nrgx s.lastActTold
  refine ⟨b', st, ?_, ?_⟩
  · rw [fireLastAct_eq, (startIslands_within _).nrgx rfl, hb, told, fired]
  · rcases hst with h | ⟨-, h⟩
    · exact .inl (h.trans (by rw [hc, fired]))
    · exact .inr h

theorem lastActTold_lnk (s : State) : s.lastActTold.lnk =
    if s.lnk.valid = true ∧ s.lnk.head = false then
      ({ s.lnk with hwWait := s.lnk.hwWait ++ [hwWord 2 0] } : Lnk).serve .up else s.lnk := by
  have e : s.lastActEnds.lnk = s.lnk :=
    ((lastActEnds_within s).lnk rfl).trans ((lastActFired_within s).lnk rfl)
  have m : s.lastActEnds.isMember = (s.lnk.valid && !s.lnk.head) := by rw [State.isMember, e]
  unfold State.lastActTold
  rw [m]
  simp only [Bool.and_eq_true, Bool.not_eq_true']
  split
  · rw [hwSend_lnk, e]
  · exact e

/-- A field of one bit that is cleared reads 0. -/
theorem getLsbD_putFld_zero (w : Word) (lo : Nat) : (putFld w lo 1 0).getLsbD lo = false := by
  have e : (w.toNat - (w.toNat / 2 ^ lo % 2) * 2 ^ lo) / 2 ^ lo % 2 = 0 := by
    rw [Nat.mul_comm, Nat.sub_mul_div]
    omega
  simp [putFld, fld, BitVec.getLsbD_ofNat, Nat.testBit, Nat.shiftLeft_eq, Nat.shiftRight_eq_div_pow, e]

theorem fireLastAct_dead (s : State) : s.fireLastAct.flw.dead = true ∧ s.fireLastAct.prs.dead = true := by
  obtain ⟨told_flw, told_prs⟩ := (fireLastAct_within_told s).dead rfl
  obtain ⟨ends_flw, ends_prs⟩ := (lastActTold_within s).dead rfl
  obtain ⟨prs_flw, prs_prs⟩ := prsLastAct_dead s.lastActFired.drvLastAct.flowLastAct
  rw [told_flw, ends_flw, State.lastActEnds, prs_flw, flowLastAct_dead, told_prs, ends_prs, State.lastActEnds, prs_prs]
  exact ⟨rfl, rfl⟩

theorem fireLastAct_wdogStopped (s : State) : s.fireLastAct.sys.wdogStopped = true := by
  rw [(fireLastAct_within_fired s).sysField Sys.wdogStopped rfl fun _ => rfl]
  rfl

theorem fireLastAct_ctl (s : State) : s.fireLastAct.nrg.ctl.getLsbD 8 = false := by
  rw [(fireLastAct_within_fired s).nrg rfl]
  exact getLsbD_putFld_zero _ 8

theorem fireLastAct_lnk (s : State) : s.fireLastAct.lnk =
    if s.lnk.valid = true ∧ s.lnk.head = false then
      ({ s.lnk with hwWait := s.lnk.hwWait ++ [hwWord 2 0] } : Lnk).serve .up else s.lnk := by
  rw [(fireLastAct_within_told s).lnk rfl, lastActTold_lnk]

theorem fireLastAct_within (s : State) :
    Within [.sys, .steady, .mem, .cells, .armed, .nrg, .nrgx, .drv, .flw, .prs, .dead, .rad, .lnk, .fresh] s s.fireLastAct :=
  .mono (.after (fireLastAct_within_fired s) (lastActFired_within s)) rfl

/-! ## The sequencer's closes (R92) -/

/-- A close that may start now, of a treadle that is not HELD, has no pulse of its valve before it. -/
theorem seqReady_pulse {s : State} {v : Fin 24} (h : s.seqReady = some v) (hh : s.drv.held (treadleOf v) = false) :
    s.drv.pulseOf v = none := by
  unfold State.seqReady at h
  split at h
  · cases h
  split at h
  · cases h
  next w _ =>
    dsimp only at h
    split at h
    · cases h
    split at h
    · next hw =>
      split at h
      · cases h
        exact absurd (hw.symm.trans hh) (by decide)
      · cases h
    · split at h
      · next hc =>
        cases h
        simp only [Bool.and_eq_true, Option.isNone_iff_eq_none] at hc
        exact hc.1.1
      · cases h

/-- The entry of the sequencer's close. -/
def State.seqEntry (s : State) (v : Fin 24) : QEntry :=
  { newEntry v (BitVec.ofNat 4 (s.closeP (treadleOf v))) .head .sequencer with retry := s.drv.seqRetry == some v }

/-- The sequencer takes up the close of a valve. -/
def State.seqTakes (s : State) (v : Fin 24) : State := s.modDrv fun d => { d with seqRun := some v, seqRetry := none }

theorem seqClose_eq {s : State} {v : Fin 24} (hh : s.drv.held (treadleOf v) = false) :
    s.seqClose v = (s.seqTakes v).startPulse (treadleOf v) (s.seqEntry v) true := by
  simp [State.seqClose, hh, State.seqEntry, State.seqTakes]

theorem seqClose_within {s : State} {v : Fin 24} (hh : s.drv.held (treadleOf v) = false) :
    Within [.drv, .flw, .prs] s (s.seqClose v) := by
  rw [seqClose_eq hh]
  exact .mono (.after (startPulse_within _ _ _ _) (modDrv_within s _)) rfl

theorem seqClose_drv {s : State} {v : Fin 24} (h : s.seqReady = some v) (hh : s.drv.held (treadleOf v) = false) :
    (s.seqClose v).drv.seqRun = some v ∧ (s.seqClose v).drv.seqRetry = none := by
  have free : s.drv.pulseOf v = none := seqReady_pulse h hh
  have hp : (s.seqTakes v).drv.pulseOf (s.seqEntry v).valve = none := free
  have hc : ((s.seqTakes v).entryProfile (s.seqEntry v)).closes = true := by
    rw [State.entryProfile, if_neg (by simp [State.seqEntry, newEntry])]
    exact nodeProfile_closes _ _ _
  rw [seqClose_eq hh, startPulse_close_drv true hc hp]
  obtain ⟨l, w, e⟩ := starts_eq (s.seqTakes v).drv (treadleOf v) (s.seqEntry v) ((s.seqTakes v).closePulse (s.seqEntry v))
  rw [e]
  exact ⟨rfl, rfl⟩

/-- A skipped close leaves its valve's state; the sequencer goes on behind it, or has finished. -/
theorem skip_drv (s : State) (v : Fin 24) :
    let d := (s.dropRetry.seqStep v).seqFinish.drv
    d.vstate = s.drv.vstate ∧ d.seqRun = none ∧ d.seqRetry = none ∧
      (d.seqNext = (if s.drv.seqOver then s.drv.seqNext else max s.drv.seqNext (v.val + 1)) ∨
        d.seqMode = .idle ∧ d.seqNext = 0) := by
  obtain ⟨l, b, h⟩ := dropRetry_drv s
  have step : (s.dropRetry.seqStep v).drv = { s.drv with
      fifo := l, rovf := b, seqRetry := none, seqRun := none, seqOver := false
      seqNext := if s.drv.seqOver then s.drv.seqNext else max s.drv.seqNext (v.val + 1) } := by
    simp only [State.seqStep, State.modDrv, h]
  obtain ⟨l', b', h'⟩ := dropRetry_drv (s.dropRetry.seqStep v)
  rcases seqFinish_drv (s.dropRetry.seqStep v) with e | e
  · rw [e, step]
    exact ⟨rfl, rfl, rfl, .inl rfl⟩
  · rw [e, h', step]
    exact ⟨rfl, rfl, rfl, .inr ⟨rfl, rfl⟩⟩

/-! ## The deadline (R93, R467) -/

theorem keyCommitDone_within (s : State) (ok : Bool) : Within [.sec] s (s.keyCommitDone ok) := by
  unfold State.keyCommitDone
  exact .mono (.after (modSec_within _ _)
    (within_ite (modSec_within s _) (.after ((event_quiet _ 14).within []) (modSec_within s _)))) rfl

theorem headerDone_within (s : State) (begun : Bool) :
    Within [.sys, .eng, .busy, .mem, .cells, .bank] s (s.headerDone begun) := by
  unfold State.headerDone
  split
  · exact .mono (within_ite (commitEnd_within s _) (.refl [] s)) rfl
  · exact .refl _ s

/-- The state as the deadline drains it: a commit of the key store has completed, and the buffer has drained. -/
def State.drained (s : State) : State := (if s.sec.commit then s.keyCommitDone true else s).wbDrain

theorem drained_within (s : State) : Within [.sys, .eng, .busy, .mem, .cells, .sec] s s.drained :=
  .mono (.after (wbDrain_within _) (within_ite (keyCommitDone_within s _) (.refl [] s))) rfl

/-- The core island stops, and what has not completed is lost. -/
def State.coreStops (u : State) : State :=
  (((u.disarm 8).setMem { (u.disarm 8).mem with busy := none, pendSeq := none, pendDue := false }).modNrgx fun x =>
    { x with deadline := true }).modSys fun x => { x with coreStopped := true }

theorem coreStops_within (u : State) :
    Within [.sys, .steady, .mem, .cells, .bank, .armed, .nrgx] u u.coreStops :=
  .mono (.after (modSys_within _ _) (.after (modNrgx_within _ _) (.after (setMem_within _ _) (disarm_within u 8)))) rfl

theorem coreStops_mem (u : State) :
    u.coreStops.mem = { u.mem with busy := none, pendSeq := none, pendDue := false } := rfl

theorem coreStops_sys (u : State) : u.coreStops.sys = { u.sys with coreStopped := true } := rfl

theorem coreStops_armed (u : State) : u.coreStops.armed = u.armed &&& ~~~0x100#9 := rfl

theorem coreStops_nrgx (u : State) : u.coreStops.nrgx = { u.nrgx with deadline := true } := rfl

theorem deadline_eq (s : State) (begun : Bool) : s.deadline begun = (s.drained.headerDone begun).coreStops := by
  unfold State.deadline State.drained
  rfl

theorem drained_headerDone (s : State) (begun : Bool) :
    Within [.sys, .eng, .busy, .mem, .cells, .bank, .sec] s (s.drained.headerDone begun) :=
  .mono (.after (headerDone_within _ begun) (drained_within s)) rfl

theorem deadline_within (s : State) (begun : Bool) :
    Within [.sys, .steady, .eng, .busy, .mem, .cells, .bank, .armed, .nrgx, .sec] s (s.deadline begun) := by
  rw [deadline_eq]
  exact .mono (.after (coreStops_within _) (drained_headerDone s begun)) rfl

theorem drained_sec {s : State} (h : s.sec.commit = false) : s.drained.sec = s.sec := by
  have e : s.drained = s.wbDrain := by simp [State.drained, h]
  rw [e, (wbDrain_within s).sec rfl]

theorem drained_wbuf {s : State} (hl : s.mem.wbuf.length ≤ 8) (h : ∀ k : Fin 4, (s.sh k).stalled = false) :
    s.drained.mem.wbuf = [] := by
  have key : Within [.sec] s (if s.sec.commit then s.keyCommitDone true else s) :=
    .mono (within_ite (keyCommitDone_within s _) (.refl [] s)) rfl
  unfold State.drained
  refine wbDrain_wbuf (key.stalled rfl h) ?_
  rw [key.mem rfl]
  exact hl

theorem drained_bank (s : State) : s.drained.mem.busy = s.mem.busy ∧ s.drained.mem.act = s.mem.act :=
  (drained_within s).bank rfl

/-- A drained commit whose header write has not begun, or none, goes no further. -/
theorem headerDone_none {s : State} {begun : Bool} (h : begun = false ∨ s.mem.busy = none) : s.headerDone begun = s := by
  rcases h with h | h
  · unfold State.headerDone
    split <;> simp [h]
  · simp [State.headerDone, h]

/-- A drained commit whose header write has begun completes. -/
theorem headerDone_commit {s t : State} (hp : s.powered = true) (hq : s.mem.busy ≠ none)
    (ht : exec .persistCommitComplete s = .next t) : s.headerDone true = t := by
  obtain ⟨q, hq⟩ := Option.ne_none_iff_exists'.mp hq
  have run : exec .persistCommitComplete s = .next (s.commitEnd q) := by
    change execPersistCommitComplete s = _
    simp only [execPersistCommitComplete, hq]
    exact whenever_holds hp rfl _
  have e : s.commitEnd q = t := by injection run.symm.trans ht
  simp [State.headerDone, hq, e]

theorem deadline_mem (s : State) (begun : Bool) : (s.deadline begun).mem =
    { (s.drained.headerDone begun).mem with busy := none, pendSeq := none, pendDue := false } := by
  rw [deadline_eq, coreStops_mem]

theorem deadline_coreStopped (s : State) (begun : Bool) : (s.deadline begun).sys.coreStopped = true := by
  rw [deadline_eq, coreStops_sys]

theorem deadline_sec (s : State) (begun : Bool) : (s.deadline begun).sec = s.drained.sec := by
  rw [deadline_eq, (coreStops_within _).sec rfl, (headerDone_within _ begun).sec rfl]

theorem deadline_armed (s : State) (begun : Bool) : (s.deadline begun).armed = s.armed &&& ~~~0x100#9 := by
  rw [deadline_eq, coreStops_armed, (drained_headerDone s begun).armed rfl]

theorem deadline_nrgx (s : State) (begun : Bool) : (s.deadline begun).nrgx = { s.nrgx with deadline := true } := by
  rw [deadline_eq, coreStops_nrgx, (drained_headerDone s begun).nrgx rfl]

/-! ## The threshold (R89, R96) -/

/-- The last act arms, where it is not armed. -/
theorem laArm_once (s : State) :
    (if s.nrgx.laArmed then s else s.laArm) =
      s.modNrgx fun x => { x with laArmed := decide (s.nrgx.laArmed = true ∨ s.arms = true) } := by
  split
  · next h =>
    have e : decide (s.nrgx.laArmed = true ∨ s.arms = true) = s.nrgx.laArmed := by simp [h]
    exact (modNrgx_self s _ (by rw [e])).symm
  · next h =>
    rw [laArm_eq]
    simp [State.modNrgx, h]

theorem nrgWrite_thresh (u : State) (v : Word) :
    let t : State := { u with nrgx := { u.nrgx with thresh := v.extractLsb' 0 16, laCount := 0 } }
    let arms := u.nrgx.laArmed ∨ u.nrgx.laState = .idle ∧ u.nrg.chem ≠ 3 ∧ t.laThresh + 100 ≤ u.nrg.vcell.toNat
    u.nrgWrite 0x28 v = ({ t with nrgx := { t.nrgx with laArmed := decide arms } }, 0) := by
  intro t arms
  have ht : (u.modNrgx fun x => { x with thresh := BitVec.ofNat 16 (fld v 0 16), laCount := 0 }) = t := by
    rw [fld_eq_extractLsb', BitVec.ofNat_toNat, BitVec.setWidth_eq]
    rfl
  have hw : u.nrgWrite 0x28 v = (if t.nrgx.laArmed then t else t.laArm, 0) := by
    change (if _ then _ else _, 0) = _
    rw [ht]
  have ha : (t.nrgx.laArmed = true ∨ t.arms = true) = arms := by
    simp only [State.arms, decide_eq_true_iff, chemSet_eq, Bool.not_eq_true', decide_eq_false_iff_not]
    rfl
  rw [hw, laArm_once]
  simp only [ha]
  rfl

theorem threshWrite_posts {s : State} {i : Initiator} {v : Word} (hr : s.reaches i 0x40003028 true = true)
    (hp : s.sys.posted = []) (hf : ∀ f ∈ s.sys.failed, f.init ≠ i) (hv : s.nrgCheck 0x28 v = 0) :
    Posts (.next (s.writeThrough i 0x40003028 v)) s i 0x40003028 fun u => (u.nrgWrite 0x28 v).1 := by
  have same (u : State) (h : s.AtBus i u) : u.aonCheck 0x40003028 v = s.aonCheck 0x40003028 v := by
    obtain ⟨-, -, -, hn, -⟩ := atBus_same h
    change u.nrgCheck 0x28 v = s.nrgCheck 0x28 v
    simp only [State.nrgCheck, hn]
  exact writeThrough_posts s i 0x40003028 v _ rfl rfl rfl hr hp
    (List.find?_eq_none.mpr fun f hm => by simpa using hf f hm) hv same fun u _ => rfl

/-! ## The statement -/

/-- Settles O34: each command is its own operation, whose frame and whose named fields are read off the operations above. -/
theorem lastActRunsInItsOrder : Obligations.LastActRunsInItsOrder := by
  unfold Obligations.LastActRunsInItsOrder
  intro s hpow
  refine ⟨fun ha hc hi => ?fires, fun v hd hr hh => ?next, fun v hd hw hv => ?skip, fun begun hl hd => ?deadline,
    fun hl hd => ?cutoff, fun i v hr hp hf hv => ?threshold⟩
  case fires =>
    have h : exec .lastact s = .next s.fireLastAct := whenever_holds hpow (by simp [ha, hc, hi]) _
    obtain ⟨b, st, hx, hst⟩ := fireLastAct_nrgx s
    obtain ⟨hflw, hprs⟩ := fireLastAct_dead s
    refine (fireLastAct_within s).touches h rfl ⟨?_, ?_, ?_, fireLastAct_ctl s, fireLastAct_wdogStopped s, hflw, hprs,
      fireLastAct_lnk s⟩
    · rw [hx]; exact hst
    · rw [hx]
    · rw [hx]
  case next =>
    have h : exec .lastactNextClose s = .next (s.seqClose v) := by
      change execLastactNextClose s = _
      simp only [execLastactNextClose, hr]
      exact whenever_holds hpow hd _
    have hw := seqClose_within (s := s) (v := v) hh
    obtain ⟨hrun, hretry⟩ := seqClose_drv hr hh
    refine Within.touches (l := [.drv, .flw, .prs, .nrgx]) (hw.mono rfl) h rfl ⟨hrun, hretry, hw.nrgx rfl⟩
  case skip =>
    have h : exec .lastactCloseSkip s = .next (s.dropRetry.seqStep v).seqFinish := by
      change execLastactCloseSkip s = _
      rw [execLastactCloseSkip, whenever_holds hpow (by simp [hd, hw])]
      simp only [hv]
    have hw : Within [.drv, .flw, .nrgx] s (s.dropRetry.seqStep v).seqFinish :=
      .mono (.after (seqFinish_within _) (.after (seqStep_within _ v) (dropRetry_within s))) rfl
    exact hw.touches h rfl (skip_drv s v)
  case deadline =>
    have h : exec (.lastactDeadline begun) s = .next (s.deadline begun) :=
      whenever_holds hpow (by simpa [hd] using hl) fun s => s.deadline begun
    have hw : s.take [.sys, .steady, .eng, .busy, .mem, .cells, .bank, .armed, .nrgx, .sec] (s.deadline begun) = { s with
        sys := (s.deadline begun).sys, eng := (s.deadline begun).eng, mem := (s.deadline begun).mem,
        armed := s.armed &&& ~~~0x100#9, nrgx := { s.nrgx with deadline := true }, sec := (s.deadline begun).sec } := by
      rw [← deadline_armed s begun, ← deadline_nrgx s begun]
      rfl
    have hup : s.drained.powered = true := by
      have e : s.drained.sys.power = s.sys.power := (drained_within s).sysField Sys.power rfl fun _ => rfl
      rw [State.powered, e]
      exact hpow
    obtain ⟨hbusy, hact⟩ := drained_bank s
    refine (deadline_within s begun).touches h hw ⟨deadline_coreStopped s begun, ?_, ?_, ?_, fun hc => ?_, fun hb => ?_,
      fun hb hq e he => ?_⟩
    · rw [deadline_mem]
    · rw [deadline_mem]
    · rw [deadline_mem]
    · rw [deadline_sec, drained_sec hc]
    · have hb : begun = false ∨ s.drained.mem.busy = none := hbusy.symm ▸ hb
      rw [deadline_mem, headerDone_none hb]
      dsimp only
      refine ⟨hact, ?_, drained_wbuf⟩
      rw [State.drained]
    · have he : exec .persistCommitComplete s.drained = .next e := he
      have hq : s.drained.mem.busy ≠ none := hbusy.symm ▸ hq
      rw [deadline_mem, hb, headerDone_commit hup hq he]
  case cutoff =>
    have h : exec .lastactCutoff s = .next s.cutOff := whenever_holds hpow (by simp [hl, hd]) _
    exact ⟨s.cutOff, s.note, h, (noted_note s.cutOff).symm.trans rfl, rfl, rfl, rfl, rfl, rfl, rfl, rfl, rfl, rfl, rfl, rfl⟩
  case threshold =>
    have h : exec (.lastactThresholdWrite i v) s = .next (s.writeThrough i 0x40003028 v) :=
      whenPowered_powered hpow fun s => s.writeThrough i 0x40003028 v
    obtain ⟨u, hu, ho⟩ := threshWrite_posts hr hp hf hv
    exact ⟨u, hu, h.trans (ho.trans (congrArg (fun p : State × Nat => (.next p.1 : Out)) (nrgWrite_thresh _ v)))⟩

end Sys2Proof.Machine
end

section
/-!
PROOFS. Resets and cold starts: what each leaves of SYS, the engine, tempo, the queue and memory (R17, R94, R97, R104 to R106,
R112, R539).
-/

namespace Sys2Proof.Machine

/-! ## The blocks across a reset (R17, R104) -/

/-- A shuttle as a reset leaves it, up to the events it waits for. -/
def Shuttle.atReset (x : Shuttle) (k : Fin 4) : Prop := { x with wpend := 0 } = Shuttle.reset (k == 0)

theorem atReset_of_eng {s t : State} {n : Noted} (hs : s.eng = Eng.reset) (h : t.eng = (s.noted n).eng) (k : Fin 4) :
    (t.sh k).atReset k := by
  have e : t.sh k = { s.sh k with wpend := n.wpend k } := by
    rw [← noted_sh, State.sh, h]
    rfl
  have r : s.sh k = Shuttle.reset (k == 0) := by
    have all : ∀ j : Fin 4, Eng.reset.sh.get j = Shuttle.reset (j == 0) := by decide
    rw [State.sh, hs, all]
  rw [Shuttle.atReset, e, r]
  rfl

/-- The cause of a reset depends on the latest cause alone (R105). -/
theorem causeOf_steady (x : Sys) (c : BitVec 4) : x.steady.causeOf c = x.causeOf c := rfl

/-- Before the bank is selected and a last act goes on, a reset has set every block. -/
theorem resetAs_blocks (s : State) (c : BitVec 4) (lose : Bool) :
    let u := if lose then s else s.wbDrain
    ∃ t : State, s.resetAs c lose = t.selectBank.laResume.boostCheck ∧
      t.sys = { Sys.reset with rstCause := u.sys.causeOf c, rstRecent := true, tcxo := u.sys.tcxo } ∧
      t.eng = Eng.reset ∧ t.armed = 0 ∧ t.sec.dbgOpen = false ∧ t.tmp.now = u.tmp.now ∧ t.tmp.offs = u.tmp.offs ∧
      t.pending = u.pending ∧ t.mem.cells = if lose then u.mem.cells.filter fun c => !inSram c.1 else u.mem.cells :=
  ⟨_, rfl, rfl, rfl, rfl, rfl, rfl, rfl, rfl, rfl⟩

theorem laResume_within (s : State) : Within [.sys, .steady, .drv, .flw] s s.laResume := by
  unfold State.laResume
  split
  · exact .mono (.after (modDrv_within _ _) (modSys_within s _)) rfl
  · exact .mono (modSys_within s _) rfl
  · exact .refl _ s

/-- Of SYS, a last act that goes on changes the watchdog's stop, the core's and the islands. -/
theorem laResume_sys (s : State) : ∃ w c x d,
    s.laResume.sys = { s.sys with wdogStopped := w, coreStopped := c, xoRun := x, runDmi := d } := by
  unfold State.laResume
  split
  · exact ⟨_, _, _, _, rfl⟩
  · exact ⟨_, _, _, _, rfl⟩
  · exact ⟨s.sys.wdogStopped, s.sys.coreStopped, s.sys.xoRun, s.sys.runDmi, rfl⟩

/-! ## What a reset leaves (R17, R104, R105) -/

/-- The state `t` is what a reset from `s` leaves, as the statement has it. -/
def ResetLeaves (s : State) (cause : BitVec 4) (lose : Bool) (t : State) : Prop :=
  t.sys.rstCause = (if s.sys.rstRecent && decide (resetRank s.sys.rstCause < resetRank cause) then s.sys.rstCause else cause) ∧
  t.sys.power = .boot ∧ t.sys.wdogEn = false ∧ t.eng.vecbase = 0 ∧ t.armed = 0 ∧
  t.sec.dbgOpen = false ∧ t.tmp.now = s.tmp.now ∧ t.tmp.offs = s.tmp.offs ∧ t.pending = s.pending ∧
  (∀ k : Fin 4, { t.sh k with wpend := 0 } = Shuttle.reset (k == 0)) ∧
  (lose = true ∨ s.mem.wbuf = [] ∧ (∀ k : Fin 4, (s.sh k).stalled = false) →
    t.mem.cells = if lose then s.mem.cells.filter fun c => !inSram c.1 else s.mem.cells)

theorem resetAs_leaves (s : State) (c : BitVec 4) (lose : Bool) : ResetLeaves s c lose (s.resetAs c lose) := by
  obtain ⟨t, e, hsys, heng, harmed, hdbg, hnow, hoffs, hpend, hcells⟩ := resetAs_blocks s c lose
  have drain : Within [.sys, .eng, .busy, .mem, .cells] s (if lose then s else s.wbDrain) :=
    .mono (within_ite (.refl [] s) (wbDrain_within s)) rfl
  have drained : lose = true ∨ s.mem.wbuf = [] ∧ (∀ k : Fin 4, (s.sh k).stalled = false) →
      (if lose then s else s.wbDrain).mem = s.mem := by
    rintro (rfl | ⟨hw, hs⟩)
    · rfl
    · rw [wbDrain_empty hs hw, ite_self]
  generalize (if lose then s else s.wbDrain) = u at *
  have rest : Within [.mem, .bank, .sys, .steady, .drv, .flw, .nrgx] t t.selectBank.laResume.boostCheck :=
    .mono (.after (boostCheck_within _) (.after (laResume_within _) (selectBank_within t))) rfl
  obtain ⟨w, co, x, d, hr⟩ := laResume_sys t.selectBank
  have sys : t.selectBank.laResume.boostCheck.sys =
      { t.sys with wdogStopped := w, coreStopped := co, xoRun := x, runDmi := d } := by
    rw [(boostCheck_within _).sys rfl, hr, (selectBank_within t).sys rfl]
  have cause : u.sys.causeOf c = s.sys.causeOf c := drain.sysField (fun x => x.causeOf c) rfl fun x => causeOf_steady x c
  obtain ⟨n, hn⟩ := rest.eng rfl
  rw [e, ResetLeaves, sys, hsys, cause]
  refine ⟨rfl, rfl, rfl, ?_, (rest.armed rfl).trans harmed, ?_, ?_, ?_, ?_, atReset_of_eng heng hn, fun hw => ?_⟩
  · rw [hn]
    change t.eng.vecbase = 0
    rw [heng]
    rfl
  · rw [rest.sec rfl, hdbg]
  · rw [rest.tmp rfl, hnow, drain.tmp rfl]
  · rw [rest.tmp rfl, hoffs, drain.tmp rfl]
  · rw [rest.pending rfl, hpend, drain.pending rfl]
  · rw [rest.cells rfl, hcells, drained hw]

/-- A write that asks for a reset has kept what the reset keeps. -/
theorem ResetLeaves.of {s u t : State} {c : BitVec 4} {lose : Bool} (h : ResetLeaves u c lose t)
    (hw : Within [.sys, .eng, .drv, .flw, .rad] s u) : ResetLeaves s c lose t := by
  obtain ⟨hcause, hpower, hwdog, hvec, harmed, hdbg, hnow, hoffs, hpend, hsh, hcells⟩ := h
  have recent : u.sys.rstRecent = s.sys.rstRecent := hw.sysField Sys.rstRecent rfl fun _ => rfl
  have cause : u.sys.rstCause = s.sys.rstCause := hw.sysField Sys.rstCause rfl fun _ => rfl
  rw [recent, cause] at hcause
  rw [hw.tmp rfl] at hnow hoffs
  rw [hw.mem rfl] at hcells
  exact ⟨hcause, hpower, hwdog, hvec, harmed, hdbg, hnow, hoffs, hpend.trans (hw.pending rfl), hsh, fun h =>
    hcells (h.imp_right fun ⟨hb, hs⟩ => ⟨hb, hw.stalled rfl hs⟩)⟩

/-! ## A software reset (R106) -/

theorem atBus_within {s u : State} {i : Initiator} (h : s.AtBus i u) : Within [.eng] s u := by
  cases i with
  | shuttle k =>
    obtain ⟨c, n, -, -, -, rfl⟩ := h
    exact .mono (.after (noted_within _ n) (modSh_busy_within s k _ rfl)) rfl
  | debug => cases h; exact withEng_busy_within s _ rfl
  | chain => cases h; exact withEng_busy_within s _ rfl

theorem advance_within (s : State) (k : Fin 4) (n : Nat) : Within [.eng] s (s.advance k n) := by
  have moved := modSh_busy_within s k (fun x => { x with pc := x.pc + 4, freeAt := s.eng.cyc + (n - 1) }) rfl
  exact .mono (within_ite moved
    (.after ((count_quiet _ _ _ _ _).within []) (.after ((count_quiet _ _ _ _ _).within []) moved))) rfl

theorem accessEnd_within (s : State) (k : Fin 4) (c : Nat × Option GatherIsland) : Within [.eng] s (s.accessEnd k c) := by
  unfold State.accessEnd
  split
  · exact .mono (.after ((count_quiet _ _ _ _ _).within []) (.after ((count_quiet _ _ _ _ _).within [])
      (.after (advance_within _ k _) (withEng_busy_within s _ rfl)))) rfl
  · exact advance_within s k _

theorem wroteBy_within (t u : State) (i : Initiator) (a : Nat) : Within [.sys, .eng] t (t.wroteBy u i a) := by
  cases i with
  | shuttle k => exact .mono (accessEnd_within t k _) rfl
  | debug => exact .mono (clocks_within t _ rfl) rfl
  | chain => exact .refl _ t

theorem afterStore_reset (s : State) {v : Word} (hv : v.getLsbD 0 = true) :
    s.afterStore 0x40000008 (v.setWidth 64) = s.softReset :=
  if_pos ⟨rfl, by simpa using hv⟩

/-- A register write that asks for a software reset, by any initiator: the reset follows once the store has ended. -/
theorem writeBy_reset (s : State) (i : Initiator) (a : Nat) (v : Word) (ha : a = 0x40000008) (hv : v.getLsbD 0 = true)
    (hc : swresetCheck v = 0) (hr : s.reaches i a true = true) :
    ∃ u, s.AtBus i u ∧ s.writeBy i a v = (u.afterWrite.wroteBy u i a).softReset := by
  have hin : inRegs a = true := ha ▸ rfl
  have bus (u : State) : u.busWrite i a 4 (v.setWidth 64) = (u.afterWrite, good 0) :=
    busWrite_reg u u i a v hin (ha ▸ rfl) (ha ▸ rfl) (ha ▸ rfl) (ha ▸ congrArg (Prod.mk u) hc)
  have reset (u : State) : u.afterStore a (v.setWidth 64) = u.softReset := ha ▸ afterStore_reset u hv
  cases i with
  | shuttle k =>
    simp only [State.reaches, Bool.and_eq_true, Option.isNone_iff_eq_none] at hr
    obtain ⟨c, n, hn, hcyc, counts, e⟩ := instr_ok s k hr.1
    refine ⟨_, ⟨c, n, hn, hcyc, counts, rfl⟩, ?_⟩
    have gate : ((s.modSh k fun x => x.fetched s.mem.oldNum).noted n).dataGate k a 4 true = none := by
      rw [dataGate_noted _ _ _ _ _ _ (.inl rfl), hr.2]
    have burn (u : State) : burnBegun u u.afterWrite = none := by
      have h : u.afterWrite.secx = u.secx := (startIslands_within u).secx rfl
      simp [burnBegun, h]
    simp only [State.writeBy, State.storeReg, e, State.store, inRegs_toNat hin, gate, remote_regs _ _ hin, inRegs_mram hin, bus]
    simp only [Bool.false_and, Bool.false_eq_true, if_false, good, ne_eq, not_true_eq_false, burn, State.storeEnd, reset]
    rfl
  | debug =>
    refine ⟨s.newCycle, rfl, ?_⟩
    simp only [State.reaches] at hr
    simp only [State.writeBy, State.debugWrite, hr, remote_regs _ _ hin, bus]
    simp only [Bool.not_true, Bool.false_eq_true, if_false, good, State.respond, true_or, if_true, reset]
    rfl
  | chain =>
    refine ⟨s.newCycle, rfl, ?_⟩
    simp only [State.reaches] at hr
    simp only [State.writeBy, State.chainWrite, hr, bus]
    simp only [Bool.not_true, Bool.false_eq_true, if_false, good, State.respond, true_or, if_true, reset]
    rfl

theorem softReset_none {s : State} (h : s.sys.posted = []) : s.softReset = s.resetAs 2 false := by
  simp [State.softReset, State.drainPosted, h]

theorem swreset_leaves {s : State} {i : Initiator} (hr : s.reaches i 0x40000008 true = true) (hp : s.sys.posted = []) :
    ResetLeaves s 2 false (s.writeBy i 0x40000008 0x0C5E0001) := by
  obtain ⟨u, hu, e⟩ := writeBy_reset s i 0x40000008 0x0C5E0001 rfl rfl rfl hr
  have hw : Within [.sys, .eng, .drv, .flw, .rad] s (u.afterWrite.wroteBy u i 0x40000008) :=
    .mono (.after (wroteBy_within _ _ _ _) (.after (startIslands_within _) (atBus_within hu))) rfl
  have posted : (u.afterWrite.wroteBy u i 0x40000008).sys.posted = [] :=
    (hw.sysField Sys.posted rfl fun _ => rfl).trans hp
  rw [e, softReset_none posted]
  exact (resetAs_leaves _ 2 false).of hw

/-! ## A cold start (R44, R56, R97) -/

/-- The state `t` is what a cold start from `s` leaves, as the statement has it. -/
def ColdLeaves (s : State) (p : PowerUp) (t : State) : Prop :=
  t.sys.power = .boot ∧ t.sys.rstCause = 0 ∧ t.sys.shipExit = (p.source == .shipPanel || p.source == .shipWake) ∧
  t.sys.tcxo = p.tcxo ∧ t.nrg.dcMode = (mpsetOf p.mpsetPv).2.1 ∧ t.nrgx.vMpset = (mpsetOf p.mpsetPv).1 ∧
  t.nrgx.tegFrac = tegFracOf p.mpsetTeg ∧ t.mem.cells = s.mem.cells.filter (fun c => !inSram c.1) ∧ t.tmp = Tmp.reset ∧
  t.drv = Drv.reset ∧ t.pending = s.pending ∧ ∀ k : Fin 4, { t.sh k with wpend := 0 } = Shuttle.reset (k == 0)

/-- Before the bank is selected, a cold start has set every block. -/
theorem coldStart_blocks (s : State) (p : PowerUp) : ∃ t : State, s.coldStart p = t.selectBank ∧ ColdLeaves s p t ∧
    t.eng = Eng.reset := by
  have shuttles (t : State) (h : t.eng = Eng.reset) (k : Fin 4) : (t.sh k).atReset k :=
    atReset_of_eng (n := t.note) h (congrArg State.eng (noted_note t)).symm k
  exact ⟨_, rfl, ⟨rfl, rfl, rfl, rfl, rfl, rfl, rfl, rfl, rfl, rfl, rfl, shuttles _ rfl⟩, rfl⟩

theorem coldStart_leaves (s : State) (p : PowerUp) : ColdLeaves s p (s.coldStart p) := by
  obtain ⟨t, e, ⟨hpower, hcause, hship, htcxo, hdc, hmp, hteg, hcells, htmp, hdrv, hpend, -⟩, heng⟩ := coldStart_blocks s p
  have h := selectBank_within t
  obtain ⟨n, hn⟩ := h.eng rfl
  rw [e, ColdLeaves, h.sys rfl, h.nrg rfl, h.nrgx rfl, h.cells rfl, h.tmp rfl, h.drv rfl, h.pending rfl]
  exact ⟨hpower, hcause, hship, htcxo, hdc, hmp, hteg, hcells, htmp, hdrv, hpend, atReset_of_eng heng hn⟩

end Sys2Proof.Machine
end

section
/-!
PROOFS. The boot's handover (R99, R101, R113, R390, R462, R468, R480), and the statement about resets, cold starts and the boot.
-/

namespace Sys2Proof.Machine

/-! ## What the boot ROM leaves of SYS (R390, R462, R463, R468) -/

theorem coldClose_within (s : State) : Within [.drv, .flw, .nrgx] s s.coldClose :=
  .mono (within_ite (.after (seqFinish_within _) (modDrv_within s _)) (.refl [] s)) rfl

theorem loadImage_within (s : State) : Within [.drv, .flw, .nrgx] s s.loadImage := by
  have loaded (u : State) (h : Within [.drv, .flw] s u) : Within [.drv, .flw, .nrgx] s u.seqFinish :=
    .mono (.after (seqFinish_within u) h) rfl
  unfold State.loadImage
  split
  · exact loaded _ (modDrv_within s _)
  · exact loaded _ (modDrv_within s _)

/-- The writes of NRG_PROT, NRG_RESCTL and NRG_CHG change their registers. -/
theorem nrgWrite_within (s : State) (v : Word) {off : Nat} (h : off = 0x18 ∨ off = 0x1C ∨ off = 0x10) :
    Within [.nrg] s (s.nrgWrite off v).1 := by
  rcases h with rfl | rfl | rfl
  · change Within [.nrg] s (if s.nrg.protDone then (s, 0) else (s.modNrg _, 0)).1
    split
    · exact .refl _ s
    · dsimp only
      exact modNrg_within s _
  · exact modNrg_within s fun n => { n with resctl := v }
  · exact modNrg_within s fun n => { n with chgReg := v }

theorem bootNrg_within (s : State) (v : Word) {off : Nat} (h : off = 0x18 ∨ off = 0x1C ∨ off = 0x10) :
    Within [.nrg] s (s.bootNrg off v) :=
  .mono (within_ite (nrgWrite_within s v h) (.refl [] s)) rfl

theorem copyBoard_within (s : State) : Within [.nrg, .drv, .flw] s s.copyBoard :=
  .mono (within_ite
    (.after (modDrv_within _ _) (.after (modDrv_within _ _) (.after (bootNrg_within _ _ (by decide))
      (.after (bootNrg_within _ _ (by decide)) (bootNrg_within s _ (by decide))))))
    (modDrv_within s _)) rfl

theorem dwellWrite_within (s : State) (v : Word) : Within [.rad] s (s.dwellWrite v).1 := by
  unfold State.dwellWrite
  dsimp only
  split
  · exact .refl _ s
  · split
    · exact .refl _ s
    · dsimp only
      exact modRad_within s _

theorem radPwr_within (s : State) (v : Word) : Within [.rad] s (s.radPwr v).1 := by
  have or_kept {c : Prop} [Decidable c] (f : Rad → Rad) : Within [.rad] s (if c then (s.modRad f, 0) else (s, 3)).1 := by
    split
    · exact modRad_within s f
    · exact .refl _ s
  unfold State.radPwr
  dsimp only
  split
  · exact .refl _ s
  · split
    · exact or_kept _
    · exact or_kept _

theorem copyRegulatory_within (s : State) : Within [.rad] s s.copyRegulatory :=
  .mono (within_ite (.refl [] s) (.after (radPwr_within _ _) (dwellWrite_within s _))) rfl

/-! ## The handover (R113, R480) -/

/-- The islands run, the copies are made and the drive image is loaded; the ROM's requests for the islands end. -/
def State.bootReady (s : State) (start : Bool) : State :=
  let s := (s.bootIslands start).copyBoard
  let s := if start then s.copyRegulatory else s
  (s.loadImage).modSys fun x => { x with reqDmi := false, reqRad := false }

/-- No image starts. -/
def State.bootFails (s : State) : State := ((s.bootReady false).modSys fun x => { x with power := .bootFail }).coldClose

/-- The image starts. -/
def State.bootStarts (s : State) (b : Bool) : State := ((s.bootReady true).startImage b).coldClose

/-- What the self-tests leave, with the keys restored. -/
def State.bootTested (s : State) (selfTestOk entropyOk : Bool) : State :=
  (s.modSec fun c => { c with stok := selfTestOk, entok := entropyOk }).restoreKeys

/-- The handover of an image, or the failure to find one. -/
def State.bootEnds (u : State) : Option Bool → State
  | some b => u.bootStarts b
  | none => u.bootFails

theorem bootHandover_failed (s : State) (en : Bool) : s.bootHandover false en = (s.bootTested false en).bootFails := rfl

theorem bootHandover_tested (s : State) (en : Bool) : s.bootHandover true en =
    (s.bootTested true en).chooseImage.1.bootEnds (s.bootTested true en).chooseImage.2 := by
  unfold State.bootHandover State.bootTested
  simp only [if_true]
  generalize (State.restoreKeys _).chooseImage = p
  rcases p with ⟨u, _ | b⟩ <;> rfl

theorem startDmi_runs (s : State) : s.startDmi.sys = { s.sys with runDmi := true } := by
  unfold State.startDmi
  split
  · next h => rw [← h]
  · rfl

/-- Of SYS, the copies and the drive image change nothing; the ROM's requests have ended. -/
theorem bootReady_sys (s : State) (start : Bool) :
    (s.bootReady start).sys = { (s.bootIslands start).sys with reqDmi := false, reqRad := false } := by
  have copied : Within [.rad, .nrg, .drv, .flw, .nrgx] (s.bootIslands start)
      (if start then (s.bootIslands start).copyBoard.copyRegulatory else (s.bootIslands start).copyBoard).loadImage :=
    .mono (.after (loadImage_within _)
      (within_ite (.after (copyRegulatory_within _) (copyBoard_within _)) (copyBoard_within _))) rfl
  rw [← copied.sys rfl]
  rfl

theorem bootFails_sys (s : State) : s.bootFails.sys =
    { s.sys with xoRun := true, runDmi := true, reqDmi := false, reqRad := false, power := .bootFail } := by
  have closed : s.bootFails.sys = { (s.bootReady false).sys with power := .bootFail } := (coldClose_within _).sys rfl
  have islands : (s.bootIslands false).sys = { s.sys with xoRun := true, runDmi := true } := startDmi_runs _
  rw [closed, bootReady_sys, islands]

theorem word_same {s t : State} (h : t.mem.cells = s.mem.cells) (a : Nat) : t.word a = s.word a := by
  have byte (a : Nat) : t.byte a = s.byte a := by rw [State.byte, State.byte, h]
  have bytes (n : Nat) : ∀ a, t.bytes a n = s.bytes a n := by
    induction n with
    | zero => exact fun _ => rfl
    | succ n ih => exact fun a => by rw [State.bytes, State.bytes, byte, ih]
  rw [State.word, State.word, bytes]

/-- The image's shuttle 0 starts at its start entry, at S privilege with IE 0. -/
theorem startImage_sh (s : State) (b : Bool) : ((s.startImage b).sh 0).pc = (s.startImage b).eng.vecbase + 0xC0 ∧
    ((s.startImage b).sh 0).run = .ready ∧ ((s.startImage b).sh 0).prv = false ∧ ((s.startImage b).sh 0).ie = false := by
  have sh (u : State) (f : Shuttle → Shuttle) (g : Sys → Sys) : ((u.modSh 0 f).modSys g).sh 0 = f (u.sh 0) :=
    (sh_modSh u 0 0 f).trans (if_pos rfl)
  unfold State.startImage
  dsimp only
  rw [sh]
  exact ⟨rfl, rfl, rfl, rfl⟩

theorem startImage_vecbase (s : State) (b : Bool) : (s.startImage b).eng.vecbase = s.word (imageBase b + 0x14) := rfl

theorem startImage_bootImg (s : State) (b : Bool) : (s.startImage b).sec.bootImg = if b then 2 else 1 := rfl

theorem startImage_mem (s : State) (b : Bool) : (s.startImage b).mem = s.mem := rfl

theorem bootStarts_sys (s : State) (b : Bool) : (s.bootStarts b).sys.power = .run ∧ (s.bootStarts b).sys.reqRad = false ∧
    (s.bootStarts b).sys.reqDmi = false := by
  have closed : (s.bootStarts b).sys = { (s.bootReady true).sys with power := .run } := (coldClose_within _).sys rfl
  rw [closed, bootReady_sys]
  exact ⟨rfl, rfl, rfl⟩

theorem bootStarts_within (s : State) (b : Bool) :
    Within [.drv, .flw, .nrgx] ((s.bootReady true).startImage b) (s.bootStarts b) := coldClose_within _

theorem bootStarts_vecbase (s : State) (b : Bool) :
    (s.bootStarts b).eng.vecbase = (s.bootStarts b).word (imageBase b + 0x14) := by
  have cells : (s.bootStarts b).mem.cells = (s.bootReady true).mem.cells := by
    rw [(bootStarts_within s b).cells rfl, startImage_mem]
  rw [(bootStarts_within s b).vecbase rfl, startImage_vecbase, word_same cells]

theorem bootStarts_sh (s : State) (b : Bool) : ((s.bootStarts b).sh 0).pc = (s.bootStarts b).eng.vecbase + 0xC0 ∧
    ((s.bootStarts b).sh 0).run = .ready ∧ ((s.bootStarts b).sh 0).prv = false ∧ ((s.bootStarts b).sh 0).ie = false := by
  obtain ⟨w, hw⟩ := (bootStarts_within s b).sh 0 rfl
  rw [hw, (bootStarts_within s b).vecbase rfl]
  dsimp only
  exact startImage_sh _ b

theorem bootStarts_bootImg (s : State) (b : Bool) : (s.bootStarts b).sec.bootImg = if b then 2 else 1 := by
  rw [(bootStarts_within s b).sec rfl, startImage_bootImg]

theorem exec_bootHandover {s : State} (ok en : Bool) (hb : s.sys.power = .boot) (hc : s.sys.coreStopped = false) :
    exec (.bootHandover ok en) s = .next (s.bootHandover ok en) :=
  whenever_holds (by simp [State.powered, hb]) (by simp [hb, hc]) fun s => s.bootHandover ok en

/-! ## The statement -/

/-- Settles O28: a reset and a cold start set every block and select a bank, and the handover ends as its choice of an image. -/
theorem resetsAndBootFollowTheirRules : Obligations.ResetsAndBootFollowTheirRules := by
  unfold Obligations.ResetsAndBootFollowTheirRules
  refine ⟨fun s hpow => ⟨?pin, ?brownout, fun he hs hk => ?wdog, fun hd => ?debug, fun i hr hp => ?soft⟩,
    fun p s => ⟨fun hc => ?cold, fun hh hc => ?hold, fun hh => ?off⟩, fun en s hb hc => ⟨?failed, ?tested⟩⟩
  case pin => exact ⟨_, whenPowered_powered hpow fun s => s.resetAs 1 false, resetAs_leaves s 1 false⟩
  case brownout => exact ⟨_, whenPowered_powered hpow fun s => s.resetAs 5 true, resetAs_leaves s 5 true⟩
  case wdog =>
    have held : s.allHeld = false := by
      obtain ⟨k, hk⟩ := hk
      exact List.all_eq_false.mpr ⟨k, List.mem_finRange k, by simpa using hk⟩
    exact ⟨_, whenever_holds hpow (by simp [he, hs, held]) fun s => s.resetAs 3 false, resetAs_leaves s 3 false⟩
  case debug =>
    have may : s.debugResets = true := by simpa [State.debugResets, or_assoc] using hd
    exact ⟨_, whenever_holds hpow may fun s => s.resetAs 4 false, resetAs_leaves s 4 false⟩
  case soft =>
    exact ⟨_, whenPowered_powered hpow fun s => s.writeBy i 0x40000008 0x0C5E0001, swreset_leaves hr hp⟩
  case cold =>
    have h : exec (.coldStart p) s = .next (s.coldStart p) := by
      change execColdStart p s = _
      rw [execColdStart, if_pos hc]
    exact ⟨_, h, coldStart_leaves s p⟩
  case hold =>
    have h : exec (.resetHoldEnd (some p)) s = .next ((s.modSys fun x => { x with power := .off }).coldStart p) := by
      change execResetHoldEnd (some p) s = _
      simp only [execResetHoldEnd, hh, hc, if_true]
    exact ⟨_, h, coldStart_leaves (s.modSys fun x => { x with power := .off }) p⟩
  case off => exact if_pos hh
  case failed =>
    refine ⟨_, exec_bootHandover false en hb hc, ?_⟩
    rw [bootHandover_failed, bootFails_sys]
    exact ⟨rfl, rfl, rfl, rfl, rfl⟩
  case tested =>
    have h := bootHandover_tested s en
    intro u
    have hu : u = s.bootTested true en := rfl
    clear_value u
    rw [← hu] at h
    cases hi : u.chooseImage.2 with
    | none =>
      refine ⟨_, exec_bootHandover true en hb hc, ?_⟩
      rw [h, hi, State.bootEnds, bootFails_sys]
    | some b =>
      refine ⟨_, exec_bootHandover true en hb hc, ?_⟩
      rw [h, hi, State.bootEnds]
      obtain ⟨hpower, hrad, hdmi⟩ := bootStarts_sys u.chooseImage.1 b
      obtain ⟨hpc, hrun, hprv, hie⟩ := bootStarts_sh u.chooseImage.1 b
      exact ⟨hpower, bootStarts_vecbase _ b, hpc, hrun, hprv, hie, bootStarts_bootImg _ b, hrad, hdmi⟩

end Sys2Proof.Machine
end

section
/-!
SUPPORT. An instruction that changes more than its shuttle, a shuttle that comes to rest, and what the end of a WAIT and a
return leave (R116, R123, R139, R140, R144).
-/

namespace Sys2Proof.Machine

/-! ## An instruction that issues -/

/-- An instruction that issues and has no cause of its own: `g` makes the rest of the state, and `F` its shuttle. -/
theorem issuedOn_with {s : State} {sh : Fin 4} {pre : State → PreCause} {f g : State → State} {F : Nat → Shuttle → Shuttle}
    (h : s.issues sh = true)
    (hp : ∀ n : Noted, pre ((s.modSh sh fun x => x.fetched s.mem.oldNum).noted n) = none)
    (hf : ∀ n : Noted, n.Counts s → ∃ m : Noted, m.cyc = n.cyc ∧
      m.Counts ((g s).modSh sh fun x => F n.cyc (x.fetched s.mem.oldNum)) ∧
      f ((s.modSh sh fun x => x.fetched s.mem.oldNum).noted n) =
        ((g s).modSh sh fun x => F n.cyc (x.fetched s.mem.oldNum)).noted m) :
    IssuedOn (.next (s.instrWith sh pre f)) s sh g F := by
  obtain ⟨c, n, hc, hn, cn, e⟩ := instrWith_ok s sh h
  obtain ⟨m, hm, cm, em⟩ := hf n cn.ofNew
  rw [hn] at hm cm em
  exact ⟨c, m, hc, hm, cm, by rw [e _ _ (hp n), em]⟩

/-- What counting notes, it notes where the latches and the counters stand alike, whatever else has changed. -/
theorem Noted.Counts.of_note {s t : State} {n : Noted} (h : n.Counts s) (e : t.note = s.note) : n.Counts t := by
  have hw (k : Fin 4) : (t.sh k).wpend = (s.sh k).wpend := congrFun (congrArg Noted.wpend e) k
  exact h.congr (congrArg Noted.prf e) (congrArg Noted.evpend e) hw (congrArg Noted.same e)

/-! ## A return (R139, R171) -/

/-- A shuttle after a return, in cycle `now`. -/
def Shuttle.returned (x : Shuttle) (now : Nat) : Shuttle :=
  { x with ie := x.pie, prv := x.pprv, inexc := false, pc := x.epc, flow := true, freeAt := now + flowCost x.epc }

theorem eret_noted (s : State) (n : Noted) (i : Fin 4) :
    (s.noted n).eret i = (s.modSh i fun x => x.returned n.cyc).noted n := by
  rw [← noted_modSh s n i _ (by intros; rfl)]
  unfold State.eret State.jump
  rw [modSh_modSh]
  simp [State.modSh, Shuttle.returned]

/-! ## A shuttle that comes to rest (R116, R123) -/

theorem othersRest_modSh (s : State) (i : Fin 4) (f : Shuttle → Shuttle) : (s.modSh i f).othersRest i = s.othersRest i := by
  have rest (k : Fin 4) : (k == i || ((s.modSh i f).sh k).rests) = (k == i || (s.sh k).rests) := by
    by_cases h : k = i <;> simp [h]
  unfold State.othersRest
  simp only [rest]
  rfl

theorem rested_modSh (s : State) (i : Fin 4) (f : Shuttle → Shuttle) : (s.modSh i f).rested i = (s.rested i).modSh i f := by
  unfold State.rested
  rw [othersRest_modSh]
  split <;> rfl

theorem rested_noted (s : State) (n : Noted) (i : Fin 4) : (s.noted n).rested i = (s.rested i).noted n := by
  have rest : (s.noted n).othersRest i = s.othersRest i := by
    unfold State.othersRest
    simp only [noted_sh, noted_mem]
    rfl
  unfold State.rested
  rw [rest]
  split <;> rfl

theorem rested_note (s : State) (i : Fin 4) : (s.rested i).note = s.note := by
  unfold State.rested
  split <;> rfl

/-- A user of XO32M remains (R122, R127). -/
def State.xoUsed (s : State) : Bool := s.sys.runDmi || s.sys.runRad || s.coreWantsXo

/-- The core runs on XO32M, which stops (R121). -/
def State.losesXo (s : State) : Bool := s.sys.xoRun && !s.xoUsed && s.sys.curSrc == 2 && !s.eng.stopped

/-- The core's requested source is ready without XO32M (R121). -/
def State.readyWithoutXo (s : State) : Bool := s.sys.src == 0 || (s.sys.src == 1 && s.xt32Runs)

/-- SYS once XO32M has been let go: it stops without a user, and a core that ran on it takes its requested source or falls back
(R121, R122, R123, R127). -/
def State.xoLeft (s : State) : Sys :=
  { s.sys with
    xoRun := s.sys.xoRun && s.xoUsed
    curSrc := if s.losesXo then (if s.readyWithoutXo then s.sys.src else s.fallSrc) else s.sys.curSrc
    fallback := s.sys.fallback || s.losesXo && !s.readyWithoutXo }

theorem xoLeft_stays {s : State} (hx : (s.sys.xoRun && s.xoUsed) = s.sys.xoRun) (hl : s.losesXo = false) : s.xoLeft = s.sys := by
  unfold State.xoLeft
  rw [hx, hl, Bool.false_and, Bool.or_false]
  rfl

theorem xoRest_eq (s : State) : s.xoRest = { s with sys := s.xoLeft } := by
  by_cases hu : s.xoUsed = true ∨ s.sys.xoRun = false
  · have stays : s.xoLeft = s.sys := by
      apply xoLeft_stays <;> rcases hu with h | h <;> simp [h, State.losesXo]
    rw [stays]
    exact if_pos (by simpa [State.xoUsed, or_assoc] using hu)
  · obtain ⟨hu, hx⟩ : s.xoUsed = false ∧ s.sys.xoRun = true := by simpa using hu
    have off : s.xoRest = ({ s with sys := { s.sys with xoRun := false } } : State).leaveXo :=
      if_neg (by rw [← Bool.not_eq_true] at hu; simpa [State.xoUsed, hx, and_assoc] using hu)
    have ready : ({ s with sys := { s.sys with xoRun := false } } : State).srcReady s.sys.src = s.readyWithoutXo := by
      simp [State.srcReady, State.xt32Runs, State.readyWithoutXo]
    have loses : s.losesXo = (decide (s.sys.curSrc = 2) && !s.eng.stopped) := by
      simp only [State.losesXo, hx, hu, Bool.not_false, Bool.true_and]
      rfl
    rw [off, State.leaveXo, ready, State.xoLeft, hu, Bool.and_false, loses]
    cases (decide (s.sys.curSrc = 2) && !s.eng.stopped)
    · simp
    · cases s.readyWithoutXo <;> simp [State.coreFall, State.fallSrc, State.xt32Runs]

/-- With shuttle `i` at rest, the core clock stops exactly when the others rest; a stopped core does not hold XO32M (R122, R123). -/
theorem checkStop_rested {s : State} {i : Fin 4} (h : (s.sh i).rests = true) : s.checkStop = s.rested i := by
  have rest : ((upTo 4).all fun k => (s.sh k).rests) = (upTo 4).all fun k => k == i || (s.sh k).rests := by
    congr 1
    funext k
    by_cases e : k = i <;> simp [e, h]
  unfold State.checkStop State.rested State.othersRest
  rw [rest, xoRest_eq]
  simp [State.xoLeft, State.losesXo, State.xoUsed, State.coreWantsXo, State.coreRuns]

end Sys2Proof.Machine
end

section
/-!
PROOFS. The statements about TRAP and ERET, and about shuttles that fault and halt (R116, R123, R137, R139, R140, R173).
-/

namespace Sys2Proof.Machine

/-- Settles O12: TRAP has its cause before it issues, and ERET is a return. -/
theorem trapEntersAndEretReturns : Obligations.TrapEntersAndEretReturns := by
  unfold Obligations.TrapEntersAndEretReturns
  refine ⟨fun sh imm s h hx => traps_pre h hx fun _ => rfl, fun sh s h hp => ?_⟩
  refine issuedOn_with (g := id) (F := fun now x => x.returned now) h (fun n => ?_) fun n cn => ⟨n, rfl, cn.modSh sh _ rfl, ?_⟩
  · rw [user_fetched, State.user, hp]
    rfl
  · rw [eret_noted, modSh_modSh]
    rfl

/-! ## The double fault (R140) -/

/-- A shuttle after an exception that came with INEXC at 1. -/
def Shuttle.doubleFaulted (x : Shuttle) (cause addr : Word) : Shuttle :=
  { x with epc := x.pc, cause := cause, addr := addr, run := .faulted, busyOn := none }

theorem raise_faults {s : State} {i : Fin 4} (cause addr : Word) (hx : (s.sh i).inexc = true) (hr : (s.sh i).run = .ready) :
    s.raise i cause addr = (s.rested i).modSh i fun x => x.doubleFaulted cause addr := by
  have rests : ((s.modSh i fun x => x.doubleFaulted cause addr).sh i).rests = true := by
    simp [Shuttle.rests, Shuttle.doubleFaulted]
  rw [← rested_modSh, ← checkStop_rested rests]
  unfold State.raise State.ended
  simp only [hx, hr, if_true, show (RunState.ready == RunState.busy) = false from rfl, Bool.false_eq_true, if_false]
  rw [← hx]
  rfl

/-- A FAULTED shuttle is due no interrupt. -/
theorem irq_faulted {s : State} {i : Fin 4} (h : (s.sh i).run = .faulted) : s.irq i = none := by
  simp [State.irq, h]

/-! ## HALT (R116, R173) -/

/-- The failures of posted writes that are left when those of shuttle `i` are dropped. -/
def State.dropFailed (s : State) (i : Fin 4) : State :=
  { s with sys := { s.sys with failed := s.sys.failed.filter fun f => f.init != .shuttle i } }

theorem haltShuttle_eq (s : State) (i : Fin 4) :
    s.haltShuttle i = ((s.dropFailed i).rested i).modSh i fun x => { x with run := .halted, pc := x.pc + 4 } := by
  have rests : (((s.dropFailed i).modSh i fun x => { x with run := .halted, pc := x.pc + 4 }).sh i).rests = true := by
    simp [Shuttle.rests]
  rw [← rested_modSh, ← checkStop_rested rests]
  rfl

/-- Settles O14: an exception with INEXC at 1 and HALT each bring their shuttle to rest. -/
theorem faultedAndHaltedShuttlesStop : Obligations.FaultedAndHaltedShuttlesStop := by
  unfold Obligations.FaultedAndHaltedShuttlesStop
  refine ⟨fun s sh imm h hx => ⟨?_, fun t ht => irq_faulted ht⟩, fun s sh h hp => ?_⟩
  · obtain ⟨c, n, hc, hn, cn, e⟩ := instrWith_slot s sh h
    have counts : n.Counts (s.rested sh) := cn.ofNew.of_note (rested_note _ _)
    refine ⟨c, n, hc, hn, counts.modSh sh _ rfl, ?_⟩
    change Host.Outcome.next (s.instrWith sh _ _) = _
    have hx' : (((s.modSh sh fun x => x.fetched s.mem.oldNum).noted n).sh sh).inexc = true := by
      rw [sh_fetched]
      exact hx
    have hr : (((s.modSh sh fun x => x.fetched s.mem.oldNum).noted n).sh sh).run = .ready := by
      rw [sh_fetched]
      exact hasSlot_ready h
    rw [e]
    simp only
    rw [raise_faults _ _ hx' hr, rested_noted, rested_modSh, noted_modSh _ _ _ _ (by intros; rfl), modSh_modSh]
    rfl
  · refine issuedOn_with h (fun n => ?_) fun n cn =>
      ⟨n, rfl, (cn.of_note (t := (s.dropFailed sh).rested sh) (rested_note _ _)).modSh sh _ rfl, ?_⟩
    · rw [user_fetched, State.user, hp]
      rfl
    · have drop : ((s.modSh sh fun x => x.fetched s.mem.oldNum).noted n).dropFailed sh =
          ((s.dropFailed sh).modSh sh fun x => x.fetched s.mem.oldNum).noted n := rfl
      rw [haltShuttle_eq, drop, rested_noted, rested_modSh, noted_modSh _ _ _ _ (by intros; rfl), modSh_modSh]
      rfl

end Sys2Proof.Machine
end

section
/-!
SUPPORT. The wait latches, the core clock's restart and interrupt entry, up to what counting notes (R123, R138, R143, R144,
R169).
-/

namespace Sys2Proof.Machine

/-! ## Latches and counting -/

/-- Counting notes over what has been noted. -/
theorem count_noted (s : State) (n : Noted) (ev : Nat) (sh : Option (Fin 4)) (c : Counted) (k : Nat) :
    ∃ m : Noted, m.cyc = n.cyc ∧ (∀ u : State, n.Counts u → m.Counts u) ∧ (s.noted n).count ev sh c k = s.noted m := by
  obtain ⟨m, hm, cm, e⟩ := count_tally (s.noted n) ev sh c k
  refine ⟨m, hm, fun u h => h.trans (cm.congr rfl rfl (fun k => ?_) rfl), by rw [e, noted_noted]⟩
  rw [get_noted, get_noted]

/-- The wait latch of shuttle `i` as `w`. -/
def Noted.latch (n : Noted) (i : Fin 4) (w : BitVec 16) : Noted := { n with wpend := fun k => if k = i then w else n.wpend k }

theorem latch_wpend (n : Noted) (i k : Fin 4) (w : BitVec 16) : (n.latch i w).wpend k = if k = i then w else n.wpend k := rfl

/-- Two states with the same shuttles, and alike in everything else. -/
theorem eq_of_sh {t u : State} (hs : ∀ k, t.sh k = u.sh k) (h : { t with eng := { t.eng with sh := u.eng.sh } } = u) : t = u := by
  have e : t.eng.sh = u.eng.sh := Vector.ext fun k hk => hs ⟨k, hk⟩
  rw [← e] at h
  exact h

/-- A change of a shuttle that sets its latch too. -/
theorem noted_modSh_latch (s : State) (n : Noted) (i : Fin 4) (f g : Shuttle → Shuttle) (w : BitVec 16)
    (h : f ((s.noted n).sh i) = { g (s.sh i) with wpend := w }) :
    (s.noted n).modSh i f = (s.modSh i g).noted (n.latch i w) := by
  refine eq_of_sh (fun k => ?_) rfl
  rw [sh_modSh, h, noted_sh, noted_sh, sh_modSh, latch_wpend]
  by_cases hk : k = i <;> simp only [hk, if_true, if_false]

theorem Noted.Counts.latch {s : State} {n : Noted} (h : n.Counts s) (i : Fin 4) (g : Shuttle → Shuttle) :
    (n.latch i (g (s.sh i)).wpend).Counts (s.modSh i g) := by
  have wait (k : Fin 4) : (s.modSh i g).eng.sh.get k = if k = i then g (s.sh i) else s.sh k := sh_modSh s i k g
  refine ⟨h.pend, fun k e he => ?_, h.fresh, h.ecc, h.setup, fun hen hcyc => ?_⟩
  · rw [wait, latch_wpend]
    split
    · rfl
    · exact h.wait k e he
  · obtain ⟨hprf, hev, hw, hsame⟩ := h.still hen hcyc
    refine ⟨hprf, hev, fun k => ?_, hsame⟩
    rw [wait, latch_wpend]
    split
    · rfl
    · exact hw k

/-- In the cycle of an issue nothing has occurred but PERF (R15). -/
theorem Noted.Counts.nothing_occurred {s : State} {n : Noted} (h : n.Counts s.newCycle) {e : Nat} (he : e ≠ 13) :
    n.same.ev.getLsbD e = false := by
  by_contra hc
  exact absurd (h.fresh e he (by simpa using hc)) (by simp [newCycle_ev])

/-- With nothing that counts, nothing at all has occurred. -/
theorem Noted.Counts.still_occurred {s : State} {n : Noted} (h : n.Counts s.newCycle) (hen : s.prf.en = 0)
    (hcyc : s.prf.cycen = false) : n.same.ev = 0 := by
  obtain ⟨-, -, -, hsame⟩ := h.still hen hcyc
  refine BitVec.eq_of_getLsbD_eq fun e _ => ?_
  by_contra hc
  exact absurd (hsame e (by simpa using hc)) (by simp [newCycle_ev])

theorem extractLsb'_low (w : Word) (k : Nat) : w.extractLsb' 0 k = w.setWidth k := by
  ext i hi
  simp

theorem advance_one (s : State) (i : Fin 4) :
    s.advance i 1 = s.modSh i fun x => { x with pc := x.pc + 4, freeAt := s.eng.cyc } := rfl

/-! ## The core clock's restart (R123) -/

theorem coreStart_eq (s : State) : s.coreStart =
    { s with
      eng := { s.eng with stopped := false }
      sys := { s.sys with
        curSrc := if s.eng.stopped = true ∧ s.srcReady s.sys.curSrc = false then s.fallSrc else s.sys.curSrc } } := by
  have ready : (s.modEng fun e => { e with stopped := false }).srcReady s.sys.curSrc = s.srcReady s.sys.curSrc := rfl
  unfold State.coreStart
  cases h : s.eng.stopped
  case false =>
    simp only [Bool.false_eq_true, false_and, if_false]
    rw [← h]
  case true =>
    simp only [if_true, modEng_sys, ready, true_and]
    cases s.srcReady s.sys.curSrc <;> rfl

theorem coreStart_note (s : State) : s.coreStart.note = s.note := by
  rw [coreStart_eq]
  rfl

/-! ## Interrupt entry (R138) -/

theorem interrupt_tally (s : State) (i : Fin 4) (e : Nat) : ∃ n : Noted, n.cyc = s.eng.cyc ∧ n.Counts s ∧
    s.interrupt i e = (s.modSh i fun x => x.interrupted (s.entry i 0x80) e (max s.eng.cyc x.freeAt)).noted n := by
  obtain ⟨n, hn, cn, h⟩ :=
    count_tally (s.modSh i fun x => x.interrupted (s.entry i 0x80) e (max s.eng.cyc x.freeAt)) 0x0B (some i) .occ 1
  refine ⟨n, hn, cn.congr rfl rfl (fun k => ?_) rfl, h⟩
  have wait := sh_modSh s i k fun x => x.interrupted (s.entry i 0x80) e (max s.eng.cyc x.freeAt)
  unfold State.sh at wait
  rw [wait]
  split
  · rename_i hk
    rw [hk]
    rfl
  · rfl

end Sys2Proof.Machine
end

section
/-!
PROOFS. WAIT, WAIT_COMPLETE and POST (R123, R143, R144, R167 to R169).
-/

namespace Sys2Proof.Machine

/-! ## The end of a WAIT (R144) -/

/-- A shuttle whose WAIT ends: `got` goes to rd, and `kept` stays in its latch. -/
def Shuttle.waitOver (x : Shuttle) (rd : Fin 16) (got kept : BitVec 16) : Shuttle :=
  { x.wr rd (got.setWidth 32) with wpend := kept }

theorem waitEnd_eq (s : State) (i : Fin 4) (rd : Fin 16) (m : BitVec 16) : s.waitEnd i rd m = s.modSh i fun x =>
    x.waitOver rd (x.wpend &&& m) (x.wpend &&& ~~~(x.wpend &&& m &&& ~~~s.eng.same.ev)) := by
  unfold State.waitEnd State.setReg
  rw [modSh_modSh]
  simp only [wr_wpend]
  rfl

theorem waitEnd_still {s : State} {i : Fin 4} {rd : Fin 16} {m : BitVec 16} (h : s.eng.same.ev = 0) :
    s.waitEnd i rd m = s.modSh i fun x => x.waitOver rd (x.wpend &&& m) (x.wpend &&& ~~~(x.wpend &&& m)) := by
  have keep (w : BitVec 16) : w &&& ~~~(0 : BitVec 16) = w := BitVec.and_allOnes
  rw [waitEnd_eq, h]
  simp only [keep]

/-- A WAIT that completes at once. -/
theorem waitEnd_issued (s : State) (n : Noted) (i : Fin 4) (rd : Fin 16) (m : BitVec 16) :
    let got := n.wpend i &&& m
    let kept := n.wpend i &&& ~~~(got &&& ~~~n.same.ev)
    (((s.noted n).waitEnd i rd m).advance i 1) =
      (s.modSh i fun x => { x.waitOver rd got kept with pc := x.pc + 4, freeAt := n.cyc }).noted (n.latch i kept) := by
  intro got kept
  rw [advance_one, waitEnd_eq, modSh_modSh]
  refine noted_modSh_latch s n i _ _ kept ?_
  rw [noted_sh]
  unfold Shuttle.waitOver
  rw [wr_wpend]
  unfold Shuttle.wr
  split <;> rfl

theorem wait_wrote (x : Shuttle) (rd : Fin 16) (got kept : BitVec 16) (now o : Nat) :
    ({ (x.fetched o).waitOver rd got kept with pc := (x.fetched o).pc + 4, freeAt := now } : Shuttle) =
      { (x.fetched o).wrote rd (got.setWidth 32) 1 now with wpend := kept } := by
  unfold Shuttle.waitOver Shuttle.wrote Shuttle.wr Shuttle.fetched
  split <;> rfl

theorem waitOver_ready (x : Shuttle) (rd : Fin 16) (got kept : BitVec 16) (now : Nat) :
    ({ x.waitOver rd got kept with run := .ready, pc := (x.waitOver rd got kept).pc + 4, freeAt := now } : Shuttle) =
      { x.wr rd (got.setWidth 32) with wpend := kept, run := .ready, pc := x.pc + 4, freeAt := now } := by
  unfold Shuttle.waitOver Shuttle.wr
  split <;> rfl

/-! ## A WAIT that waits (R144, R167) -/

/-- A shuttle that enters WAIT. -/
def Shuttle.waiting (x : Shuttle) (rd : Fin 16) (m : BitVec 16) : Shuttle := { x with run := .wait, waitMask := m, waitRd := rd }

theorem waitFor_waits (s : State) (n : Noted) (i : Fin 4) (rd : Fin 16) (m : BitVec 16) (hm : m ≠ 0) (h : n.wpend i &&& m = 0) :
    ∃ p : Noted, p.cyc = n.cyc ∧ (∀ u : State, n.Counts u → p.Counts u) ∧
      (s.noted n).waitFor i rd m = ((s.rested i).modSh i fun x => x.waiting rd m).noted p := by
  obtain ⟨p, hp, cp, e⟩ := count_noted (s.modSh i fun x => x.waiting rd m) n 0x06 (some i) .entry 1
  refine ⟨p, hp, cp, ?_⟩
  have waits : ¬(m = 0 ∨ ((s.noted n).sh i).waited m ≠ 0) := by simpa [Shuttle.waited, h] using hm
  have rests : (((s.modSh i fun x => x.waiting rd m).noted p).sh i).rests = true := by
    simp [Shuttle.rests, Shuttle.waiting]
  rw [← rested_modSh, ← rested_noted, ← checkStop_rested rests, ← e, ← noted_modSh _ _ _ _ (by intros; rfl)]
  exact if_neg waits

/-! ## POST (R143, R169) -/

/-- What is noted once SOFT has been posted to these shuttles. -/
def Noted.posted (n : Noted) (set : Nat) : Noted :=
  if set = 0 then n
  else { n with
    evpend := n.evpend ||| 0x8000
    wpend := fun k => if set.testBit k.val then n.wpend k ||| 0x8000 else n.wpend k }

theorem postTo_fold (set : Nat) (l : List (Fin 4)) (s : State) (n : Noted) (hl : l.Nodup) :
    l.foldl (fun s k => if set.testBit k.val then s.modSh k fun x => { x with wpend := x.wpend ||| 0x8000 } else s) (s.noted n) =
      s.noted { n with wpend := fun k => if k ∈ l ∧ set.testBit k.val then n.wpend k ||| 0x8000 else n.wpend k } := by
  induction l generalizing n with
  | nil => simp
  | cons a l ih =>
    obtain ⟨ha, hl⟩ := List.nodup_cons.mp hl
    have one : (if set.testBit a.val then (s.noted n).modSh a fun x => { x with wpend := x.wpend ||| 0x8000 } else s.noted n) =
        s.noted (n.latch a (if set.testBit a.val then n.wpend a ||| 0x8000 else n.wpend a)) := by
      split
      · refine (noted_modSh_latch s n a _ id _ ?_).trans (congrArg (fun t : State => t.noted _) ?_)
        · rw [noted_sh]
          rfl
        · exact eq_of_sh (fun k => by rw [sh_modSh]; split <;> simp_all) rfl
      · refine congrArg (fun w => s.noted { n with wpend := w }) (funext fun k => ?_)
        split <;> simp_all
    rw [List.foldl_cons, one, ih _ hl]
    congr 1
    simp only [Noted.latch]
    congr 1
    funext k
    by_cases hk : k = a
    · subst hk
      simp [ha]
    · simp [hk]

theorem postTo_noted (s : State) (n : Noted) (set : Nat) : (s.noted n).postTo set = s.noted (n.posted set) := by
  unfold State.postTo Noted.posted
  split
  · rfl
  · have ev : ((s.noted n).modEng fun e => { e with evpend := e.evpend ||| 0x8000 }) =
        s.noted { n with evpend := n.evpend ||| 0x8000 } := rfl
    dsimp only
    rw [ev, postTo_fold set (upTo 4) s _ (List.nodup_finRange 4)]
    congr 2
    funext k
    simp [upTo]

theorem getLsbD_soft (e : Nat) : (0x8000 : BitVec 16).getLsbD e = (e == 15) := by
  rw [show (0x8000 : BitVec 16) = BitVec.twoPow 16 15 from rfl, BitVec.getLsbD_twoPow]
  grind

theorem posted_evpend (n : Noted) (set : BitVec 4) (e : Nat) :
    (n.posted set.toNat).evpend.getLsbD e = (n.evpend.getLsbD e || (e == 15 && set != 0)) := by
  have zero : set.toNat = 0 ↔ set = 0 := by rw [← BitVec.toNat_inj]; rfl
  unfold Noted.posted
  split
  · simp_all
  · rename_i h
    rw [BitVec.getLsbD_or, getLsbD_soft, bne_iff_ne.mpr (zero.not.mp h), Bool.and_true]

theorem posted_wpend (n : Noted) (set : BitVec 4) (k : Fin 4) (e : Nat) :
    ((n.posted set.toNat).wpend k).getLsbD e = ((n.wpend k).getLsbD e || (e == 15 && set.getLsbD k)) := by
  have bit : set.getLsbD k = set.toNat.testBit k := rfl
  unfold Noted.posted
  rw [bit]
  by_cases h : set.toNat = 0
  · simp [h]
  · rw [if_neg h]
    cases hb : set.toNat.testBit k.val
    · simp [hb]
    · simp only [hb, if_true, BitVec.getLsbD_or, getLsbD_soft, Bool.and_true]

theorem posted_prf (n : Noted) (set : Nat) : (n.posted set).prf = n.prf := by
  unfold Noted.posted
  split <;> rfl

theorem posted_cyc (n : Noted) (set : Nat) : (n.posted set).cyc = n.cyc := by
  unfold Noted.posted
  split <;> rfl

/-! ## WAIT_COMPLETE (R123, R144, R168) -/

theorem exec_waitComplete {s : State} {sh : Fin 4} (hp : s.powered = true) (hc : s.sys.coreStopped = false)
    (he : (s.sh sh).en = true) (hr : (s.sh sh).run = .wait) :
    exec (.waitComplete sh) s = .next (if (s.sh sh).wpend &&& (s.sh sh).waitMask = 0 then s else
      (s.irq sh).elim
        ((s.newCycle.coreStart.waitEnd sh (s.sh sh).waitRd (s.sh sh).waitMask).modSh sh fun x =>
          { x with run := .ready, pc := x.pc + 4, freeAt := s.eng.cyc })
        fun e => s.newCycle.coreStart.interrupt sh e) := by
  have irq : s.newCycle.coreStart.irq sh = s.irq sh := by rw [coreStart_eq]; rfl
  have cyc : s.newCycle.coreStart.eng.cyc = s.eng.cyc := by rw [coreStart_eq]; rfl
  change execWaitComplete sh s = _
  unfold execWaitComplete
  rw [whenever_powered hp]
  simp only [hc, he, hr, irq, Shuttle.waited, Bool.not_false, Bool.true_and, beq_self_eq_true, bne_iff_ne, ne_eq, ite_not]
  split
  · rfl
  · rw [← cyc]
    cases s.irq sh <;> rfl

/-- Settles O15: WAIT by its latch at the issue, WAIT_COMPLETE by the event and the interrupt due, POST by what it notes. -/
theorem eventsAreWaitedForAndPosted : Obligations.EventsAreWaitedForAndPosted := by
  unfold Obligations.EventsAreWaitedForAndPosted
  refine ⟨fun sh rd ra imm s h => ?wait, fun sh s hp hc he hr => ?complete, fun sh ra imm s h => ?post⟩
  case wait =>
    intro m
    obtain ⟨c, n, hs, hn, cn, ex⟩ := instr_ok s sh h
    have mask (t : State) (ht : t.reg sh ra = s.reg sh ra) :
        ((t.reg sh ra ||| imm.setWidth 32).extractLsb' 0 16) = m := by
      rw [ht, extractLsb'_low]
    have run : exec (.wait sh rd ra imm) s =
        .next (((s.modSh sh fun x => x.fetched s.mem.oldNum).noted n).waitFor sh rd m) := by
      change Host.Outcome.next (s.instr sh _) = _
      rw [ex, mask _ ((reg_noted _ _ _ _).trans (reg_fetched _ _ _ _ _))]
    have latched : ((s.modSh sh fun x => x.fetched s.mem.oldNum).noted n).sh sh =
        { (s.sh sh).fetched s.mem.oldNum with wpend := n.wpend sh } := sh_fetched s n sh _
    refine ⟨n.wpend sh, n.wpend sh &&& ~~~(n.wpend sh &&& m &&& ~~~n.same.ev), fun e he => ⟨cn.wait sh e he, ?_⟩,
      fun hen hcyc => ⟨(cn.still hen hcyc).2.2.1 sh, ?_⟩, fun hm => ?now, fun hm => ?waits⟩
    · simp only [BitVec.getLsbD_and, BitVec.getLsbD_not, cn.nothing_occurred he]
      grind
    · rw [cn.still_occurred hen hcyc]
      ext e he
      simp only [BitVec.getElem_and, BitVec.getElem_not]
      grind
    case now =>
      refine ⟨c, _, hs, ?_, cn.ofNew.latch sh fun x =>
        { (x.fetched s.mem.oldNum).wrote rd ((n.wpend sh &&& m).setWidth 32) 1 (c + 1) with
          wpend := n.wpend sh &&& ~~~(n.wpend sh &&& m &&& ~~~n.same.ev) }, ?_⟩
      · exact hn
      · have ends : m = 0 ∨ (((s.modSh sh fun x => x.fetched s.mem.oldNum).noted n).sh sh).waited m ≠ 0 := by
          rw [latched]
          exact hm
        rw [run, State.waitFor, if_pos ends, waitEnd_issued, modSh_modSh, hn]
        simp only [wait_wrote]
    case waits =>
      obtain ⟨p, hp, cp, e⟩ := waitFor_waits (s.modSh sh fun x => x.fetched s.mem.oldNum) n sh rd m hm.1 hm.2
      refine ⟨c, p, hs, hp.trans hn, ?_, ?_⟩
      · exact (((cp s cn.ofNew).of_note (rested_note s sh)).modSh sh _ rfl)
      · rw [run, e, rested_modSh, modSh_modSh]
        rfl
  case complete =>
    intro got src u
    have hu : s.newCycle.coreStart = u := by
      rw [coreStart_eq]
      rfl
    rw [exec_waitComplete hp hc he hr, hu]
    refine ⟨fun hg hi => ?_, fun e hg hi => ?_, fun hg => ?_⟩
    · rw [if_neg hg, hi, Option.elim_none, waitEnd_still rfl, modSh_modSh]
      exact congrArg (fun x => Host.Outcome.next (u.setSh sh x)) (waitOver_ready (s.sh sh) _ got _ _)
    · rw [if_neg hg, hi]
      obtain ⟨n, hn, cn, h⟩ := interrupt_tally u sh e
      exact ⟨n, hn, (cn.of_note (t := s.newCycle) rfl).ofNew, congrArg Host.Outcome.next h⟩
    · rw [if_pos hg]
  case post =>
    intro set
    obtain ⟨c, n, hs, hn, cn, ex⟩ := instr_ok s sh h
    have bits (t : State) (ht : t.reg sh ra = s.reg sh ra) :
        ((t.reg sh ra ||| imm.setWidth 32).extractLsb' 0 4) = set := by
      rw [ht, extractLsb'_low]
    refine ⟨c, n.posted set.toNat, hs, by rw [posted_cyc, hn], ?_, fun e he => ?_, fun k e he => ?_, fun hen hcyc => ?_⟩
    · change Host.Outcome.next (s.instr sh _) = _
      rw [ex, bits _ ((reg_noted _ _ _ _).trans (reg_fetched _ _ _ _ _)), postTo_noted, advance_one,
        noted_modSh _ _ _ _ (by intros; rfl), modSh_modSh, noted_cyc, posted_cyc, hn]
      rfl
    · rw [posted_evpend, cn.pend e he]
      rfl
    · rw [posted_wpend, cn.wait k e he]
      rfl
    · rw [posted_prf, (cn.still hen hcyc).1]
      rfl

end Sys2Proof.Machine
end

section
/-!
PROOFS. Which interrupt is due and where it is taken (R138, R141, R145, R168), and the statement about interrupt entry.
-/

namespace Sys2Proof.Machine

/-! ## The event that is due (R145) -/

/-- Event `e` is pending, routed to shuttle `i` and enabled there. -/
def State.meets (s : State) (i : Fin 4) (e : Nat) : Prop :=
  s.eng.evpend.getLsbD e = true ∧ fld s.eng.evroute (2 * e) 2 = i.val ∧ (s.sh i).ien.getLsbD e = true

/-- A shuttle that may be interrupted is due the lowest event that it meets. -/
theorem irq_lowest {s : State} {i : Fin 4} {e : Fin 16} (hen : (s.sh i).en = true) (hie : (s.sh i).ie = true)
    (hr : (s.sh i).run = .ready ∨ (s.sh i).run = .wait) (he : s.meets i e) (hl : ∀ k : Nat, k < e → ¬ s.meets i k) :
    s.irq i = some e.val := by
  have first : (s.irqs i).head? = some e.val := by
    unfold State.irqs
    rw [List.head?_filter, List.find?_eq_some_iff_getElem]
    refine ⟨?_, e.val, by simp, by simp, fun j hj => ?_⟩
    · obtain ⟨hp, hroute, hien⟩ := he
      simp [hp, hroute, hien]
    · have hn := hl j hj
      simp only [State.meets, not_and] at hn
      simp only [List.getElem_range, Bool.not_eq_true', Bool.and_eq_false_iff]
      by_contra hc
      simp only [not_or, Bool.not_eq_false, beq_iff_eq] at hc
      exact hn hc.1.1 hc.1.2 hc.2
  unfold State.irq
  rw [if_pos (by rcases hr with h | h <;> simp [hen, hie, h]), first]

/-- Counting may pend PERF alone, so an event below it stays the lowest; with nothing that counts, every event does. -/
theorem irq_counted {s : State} {n : Noted} (cn : n.Counts s) {i : Fin 4} {e : Fin 16} (hen : (s.sh i).en = true)
    (hie : (s.sh i).ie = true) (hr : (s.sh i).run = .ready ∨ (s.sh i).run = .wait) (he : s.meets i e)
    (hl : ∀ k : Nat, k < e → ¬ s.meets i k) (hc : e.val < 13 ∨ s.prf.en = 0 ∧ s.prf.cycen = false) :
    (s.noted n).irq i = some e.val := by
  have same (k : Nat) (hk : k ≤ e.val) : (s.noted n).meets i k ↔ s.meets i k := by
    have pend : n.evpend.getLsbD k = s.eng.evpend.getLsbD k := by
      rcases hc with h | ⟨hp, hcyc⟩
      · exact cn.pend k (by omega)
      · rw [(cn.still hp hcyc).2.1]
    simp only [State.meets, noted_evpend, noted_evroute, noted_sh, pend]
  refine irq_lowest ?_ ?_ ?_ ((same e le_rfl).mpr he) fun k hk => (same k hk.le).not.mpr (hl k hk)
  all_goals rwa [noted_sh]

/-- At its issue point a READY shuttle is due what it was due before. -/
theorem irq_preSlot {s : State} {i : Fin 4} {e : Fin 16} (hen : (s.sh i).en = true) (hie : (s.sh i).ie = true)
    (hr : (s.sh i).run = .ready) (he : s.meets i e) (hl : ∀ k : Nat, k < e → ¬ s.meets i k)
    (hc : e.val < 13 ∨ s.prf.en = 0 ∧ s.prf.cycen = false) : (s.preSlot i).irq i = some e.val := by
  obtain ⟨n, cn, h⟩ := preSlot_noted s i
  rw [h]
  exact irq_counted cn hen hie (.inl hr) he hl hc

/-! ## INTERRUPT_ENTRY (R138, R141) -/

theorem wordCause_noted (s : State) (n : Noted) (i : Fin 4) : (s.noted n).wordCause i = s.wordCause i := by
  simp only [State.wordCause, fetchWord_noted, illegalWord_noted, State.user, noted_sh]

/-- A READY shuttle whose word has no cause of its own takes what it is due at its issue point. -/
theorem enter_interrupts {s : State} {i : Fin 4} {e : Nat} (h : s.hasSlot i = true) (hw : s.wordCause i = none)
    (hi : (s.preSlot i).irq i = some e) : s.enter i = (s.preSlot i).interrupt i e := by
  simp only [State.hasSlot, Bool.and_eq_true] at h
  obtain ⟨⟨⟨hr, hs⟩, hf⟩, -⟩ := h
  obtain ⟨c, hc⟩ := Option.isSome_iff_exists.mp hs
  obtain ⟨n, -, -, issue⟩ := issue_noted s i c hr hc
  obtain ⟨m, -, -, fetch⟩ := fetch_ok (s.noted n) i (by rw [fetchable_noted, hf])
  unfold State.enter
  simp only [issue, fetch, wordCause_noted, hw, hi]

theorem exec_interruptEntry {s : State} {sh : Fin 4} {e : Nat} (hp : s.powered = true) (hc : s.sys.coreStopped = false)
    (hi : s.irq sh = some e) : exec (.interruptEntry sh) s =
      .next (if (s.sh sh).run = .wait then s.coreStart.interrupt sh e else s.coreStart.enter sh) := by
  change execInterruptEntry sh s = _
  unfold execInterruptEntry
  rw [hi]
  exact whenever_holds hp (by rw [hc]; rfl) _

/-- Settles O17: the lowest event that meets R145 is due before and after the time to the issue point, and is taken there. -/
theorem interruptEntryTakesTheLowestEvent : Obligations.InterruptEntryTakesTheLowestEvent := by
  unfold Obligations.InterruptEntryTakesTheLowestEvent
  refine ⟨fun sh e s hp hc => ?entry, fun sh e s => ?first⟩
  case entry =>
    intro x meets src u hen hie he hl
    have hu : s.coreStart = u := coreStart_eq s
    refine ⟨fun hr => ?_, fun hr hs hw hq => ?_⟩
    · obtain ⟨n, hn, cn, h⟩ := interrupt_tally u sh e
      rw [exec_interruptEntry hp hc (irq_lowest hen hie (.inr hr) he hl), if_pos hr, hu]
      exact ⟨n, hn, cn.of_note rfl, congrArg Host.Outcome.next h⟩
    · have hi : (u.preSlot sh).irq sh = some e.val := irq_preSlot hen hie hr he hl hq
      have slot : (u.nextSlot sh).isSome = true := by
        simp only [State.hasSlot, Bool.and_eq_true] at hs
        exact hs.1.1.2
      rw [exec_interruptEntry hp hc (irq_lowest hen hie (.inl hr) he hl), if_neg (by rw [show (s.sh sh).run = .ready from hr]; decide),
        hu, enter_interrupts hs hw hi]
      exact interrupt_slot slot
  case first =>
    intro x meets hen hie hr hs he hl hq rd ra rb imm m set first
    have due : (s.preSlot sh).irq sh = some e.val := irq_preSlot hen hie hr he hl hq
    have plain (f : State → State) : Interrupts (.next (s.instr sh f)) s sh e := interrupts_with hs due fun _ => rfl
    refine ⟨plain _, plain _, plain _, plain _, plain _, plain _, plain _, plain _, plain _, plain _, fun hx => ⟨?_, fun hm => ?_⟩⟩
    · refine interrupts_with hs due fun n => ?_
      rw [user_fetched, State.user, show (s.sh sh).prv = false from hx]
      rfl
    · refine interrupts_with hs due fun n => ?_
      rw [user_fetched, State.user, show (s.sh sh).prv = false from hx, illegalIf, if_neg (by simpa using hm)]
      rfl

end Sys2Proof.Machine
end

section
/-!
PROOFS. Data accesses that are refused before they reach the bus (R130, R132, R136, R160).
-/

namespace Sys2Proof.Machine

/-! ## The gate of a data access -/

/-- The gate of an instruction that has issued is the gate before it: counting keeps UREAD. -/
theorem dataGate_counts {s : State} {n : Noted} (cn : n.Counts s) (k : Fin 4) (o a w : Nat) (wr : Bool) :
    ((s.modSh k fun x => x.fetched o).noted n).dataGate k a w wr = s.dataGate k a w wr := by
  have uread : n.prf.uread = s.prf.uread := by
    have h := congrArg Prf.uread cn.setup
    exact h
  have user := user_fetched s n k o
  have prv : (((s.modSh k fun x => x.fetched o).noted n).sh k).prv = (s.sh k).prv := user
  simp only [State.dataGate, State.barred, State.mpuOk, user, prv, noted_prf, uread]
  rfl

/-- The register block that an address lies in. -/
theorem blockOf_eq {a k : Nat} (hk : k < 14) :
    (inRegs a = true ∧ blockOf a = k) ↔ 0x40000000 + 0x1000 * k ≤ a ∧ a < 0x40000000 + 0x1000 * (k + 1) := by
  rw [inRegs_iff]
  unfold blockOf
  omega

/-- What R130 and R512 bar U code from. -/
theorem barred_iff (s : State) (a : Nat) (wr : Bool) :
    let block (k : Nat) : Prop := 0x40000000 + 0x1000 * k ≤ a ∧ a < 0x40000000 + 0x1000 * (k + 1)
    s.barred a wr = true ↔ (0x60000000 ≤ a ∧ a < 0x62000000) ∨
      wr = true ∧ (block 0 ∨ block 1 ∨ block 2 ∨ block 11 ∨ block 12) ∨ wr = false ∧ block 12 ∧ s.prf.uread = false := by
  intro block
  have lies (k : Nat) (hk : k < 14) : block k ↔ inRegs a = true ∧ blockOf a = k := (blockOf_eq hk).symm
  rw [lies 0 (by decide), lies 1 (by decide), lies 2 (by decide), lies 11 (by decide), lies 12 (by decide)]
  unfold State.barred inChain
  cases wr <;> simp [and_assoc, or_assoc, ← and_or_left]

/-- The three refusals of a data access at `addr`, in their order (R136). -/
def State.Refuses (s : State) (sh : Fin 4) (addr : Word) (w : Nat) (wr : Bool) (o : Out) : Prop :=
  (addr.toNat % w ≠ 0 → Traps o s sh 6 addr) ∧
  (addr.toNat % w = 0 → (s.sh sh).prv = true ∧ s.barred addr.toNat wr = true → Traps o s sh 2 addr) ∧
  (addr.toNat % w = 0 → ¬((s.sh sh).prv = true ∧ s.barred addr.toNat wr = true) →
    s.mpuOk sh addr.toNat (if wr then .w else .r) = false → Traps o s sh (if wr then 5 else 4) addr)

/-- An access that raises what its gate answers is refused in that order. -/
theorem gate_refuses {s : State} {sh : Fin 4} {addr : Word} {w : Nat} {wr : Bool} {o : Out}
    (h : ∀ cause : Nat, s.dataGate sh addr.toNat w wr = some (BitVec.ofNat 32 cause) → Traps o s sh cause addr) :
    s.Refuses sh addr w wr o := by
  refine ⟨fun ha => h 6 (if_pos ha), fun ha hb => h 2 ?_, fun ha hb hm => h _ ?_⟩
  · rw [State.dataGate, if_neg (not_not.mpr ha), if_pos (by simpa [State.user] using hb)]
    rfl
  · rw [State.dataGate, if_neg (not_not.mpr ha), if_neg (by simpa [State.user] using hb), hm]
    cases wr <;> rfl

/-- An instruction whose access raises what its gate answers. -/
theorem access_refused {s : State} {sh : Fin 4} {pre : State → PreCause} {f : State → State} {addr : Word} {w : Nat} {wr : Bool}
    (h : s.issues sh = true) (hx : (s.sh sh).inexc = false)
    (hp : ∀ n : Noted, pre ((s.modSh sh fun x => x.fetched s.mem.oldNum).noted n) = none)
    (hf : ∀ (n : Noted) (e : Word), ((s.modSh sh fun x => x.fetched s.mem.oldNum).noted n).dataGate sh addr.toNat w wr = some e →
      f ((s.modSh sh fun x => x.fetched s.mem.oldNum).noted n) =
        ((s.modSh sh fun x => x.fetched s.mem.oldNum).noted n).raise sh e addr) :
    s.Refuses sh addr w wr (.next (s.instrWith sh pre f)) := by
  refine gate_refuses fun cause hg => issuedOn_with (g := id)
    (F := fun now x => x.trapped (s.eng.vecbase + BitVec.ofNat 32 (0x100 * sh.val)) (BitVec.ofNat 32 cause) addr now)
    h hp fun n cn => ?_
  obtain ⟨m, hm, cm, e⟩ := raise_noted (s.modSh sh fun x => x.fetched s.mem.oldNum) n sh (BitVec.ofNat 32 cause) addr
    (by simp [hx, Shuttle.fetched]) (by simp [issues_ready h, Shuttle.fetched])
  refine ⟨m, hm, (cm s cn).modSh sh _ rfl, ?_⟩
  rw [hf n _ ((dataGate_counts cn sh _ _ _ _).trans hg), e, modSh_modSh]
  rfl

/-! ## Loads and stores -/

theorem load_gated {s : State} {i : Fin 4} {rd : Fin 16} {addr : Word} {n : Nat} {fin : DWord → State → State} {e : Word}
    (h : s.dataGate i addr.toNat n false = some e) : s.load i rd addr n fin = s.raise i e addr := by
  simp only [State.load, h]

theorem store_gated {s : State} {i : Fin 4} {addr : Word} {n : Nat} {v : DWord} {e : Word}
    (h : s.dataGate i addr.toNat n true = some e) : s.store i addr n v = s.raise i e addr := by
  simp only [State.store, h]

/-- Settles O21: every load and store raises what its gate answers, and the gate answers in the order of R136. -/
theorem refusedDataAccessesTrap : Obligations.RefusedDataAccessesTrap := by
  unfold Obligations.RefusedDataAccessesTrap
  intro sh r ra imm s h hx addr a block window barred refused
  have refuses (i : Instr) (n : Nat) (wr : Bool) (hi : s.Refuses sh addr n wr (exec i s)) : refused i n wr := by
    have hb : barred wr ↔ (s.sh sh).prv = true ∧ s.barred a wr = true := and_congr_right' (barred_iff s a wr).symm
    obtain ⟨h6, h2, h45⟩ := hi
    exact ⟨h6, fun ha hw => h2 ha (hb.mp hw), fun ha hw => h45 ha (hb.not.mp hw)⟩
  have loads (rd : Fin 16) (n : Nat) (ext : DWord → Word) :
      s.Refuses sh addr n false (.next (s.instr sh fun t => t.loadTo sh rd (t.ea sh ra imm) n ext)) := by
    refine access_refused h hx (fun _ => rfl) fun m e he => ?_
    rw [ea_fetched]
    exact load_gated he
  have stores (n : Nat) (v : State → DWord) :
      s.Refuses sh addr n true (.next (s.instr sh fun t => t.store sh (t.ea sh ra imm) n (v t))) := by
    refine access_refused h hx (fun _ => rfl) fun m e he => ?_
    rw [ea_fetched]
    exact store_gated he
  refine ⟨refuses _ _ _ (loads _ _ _), refuses _ _ _ (loads _ _ _), refuses _ _ _ (loads _ _ _), refuses _ _ _ (loads _ _ _),
    refuses _ _ _ (loads _ _ _), refuses _ _ _ (stores _ _), refuses _ _ _ (stores _ _), refuses _ _ _ (stores _ _), fun hr => ?_⟩
  have even (w : Word) : illegalIf (oddReg r) w = none := by
    unfold illegalIf oddReg
    rw [hr]
    rfl
  refine ⟨refuses _ _ _ (access_refused h hx (fun _ => even _) fun m e he => ?_),
    refuses _ _ _ (access_refused h hx (fun _ => even _) fun m e he => ?_)⟩
  · rw [ea_fetched]
    exact load_gated he
  · rw [ea_fetched]
    exact store_gated he

end Sys2Proof.Machine
end

section
/-!
PROOFS. Writes of the SYS, ENG and MEM registers, by any initiator (R107, R117, R121, R142, R145 to R147, R205), and the
statement about the fields that they take.
-/

namespace Sys2Proof.Machine

/-! ## A write of a register of the core island -/

theorem ofNat_fld (w : Word) (lo n : Nat) : BitVec.ofNat n (fld w lo n) = w.extractLsb' lo n := by
  rw [fld_eq_extractLsb', BitVec.ofNat_toNat, BitVec.setWidth_eq]

/-- What follows a register write touches no fuse and no rollback counter. -/
theorem burnBegun_none {u t : State} (h : t.secx = u.secx) : burnBegun u t.afterWrite = none := by
  have after : t.afterWrite.secx = u.secx := ((startIslands_within t).secx rfl).trans h
  simp [burnBegun, after]

/-- The core island's registers but SYS_SWRESET: SYS, ENG and MEM. -/
def coreReg (a : Nat) : Bool := inRegs a && a % 4 == 0 && a != 0x40000008 && decide (blockOf a ≤ 2)

/-- A write that a register of SYS, ENG or MEM takes: `g` is what it makes of the state. -/
theorem core_written {o : Out} {s : State} {i : Initiator} {a : Nat} {v : Word} {g : State → State}
    (ho : o = whenPowered s fun s => s.writeBy i a v) (hp : s.powered = true) (ha : coreReg a = true)
    (hr : s.reaches i a true = true) (hw : ∀ u, s.AtBus i u → u.regWrite i a v = (g u, 0) ∧ (g u).secx = u.secx) :
    Written o s i a fun u => (g u).afterWrite := by
  rw [ho, whenPowered_powered hp]
  simp only [coreReg, Bool.and_eq_true, beq_iff_eq, bne_iff_ne, decide_eq_true_eq] at ha
  obtain ⟨⟨⟨hin, h4⟩, hs⟩, hb⟩ := ha
  have run : s.islandOff (blockOf a) = false := by
    simp only [State.islandOff, isDmi, isRad, Bool.or_eq_false_iff, Bool.and_eq_false_iff, beq_eq_false_iff_ne]
    omega
  have aon : isAon (blockOf a) = false := by
    simp only [isAon, Bool.or_eq_false_iff, beq_eq_false_iff_ne]
    omega
  exact writeBy_written s i a v g hin h4 hs run aon hr fun u hu => ⟨(hw u hu).1, burnBegun_none (hw u hu).2⟩

/-! ## SYS -/

theorem coreclkWrite_takes (u : State) {v : Word} (h20 : fld v 12 20 = 0) (h2 : fld v 6 2 = 0) (h2' : fld v 2 2 = 0)
    (h3 : fld v 0 2 ≠ 3) : u.coreclkWrite v =
      ({ u with
        sys := { u.sys with
          fallback := u.sys.fallback && !v.getLsbD 11, div := v.extractLsb' 4 2, src := v.extractLsb' 0 2 } }, 0) := by
  unfold State.coreclkWrite
  rw [if_neg (by simp [h20, h2, h2', h3])]
  simp only [ofNat_fld, bit_eq_getLsbD]
  rfl

theorem wdogWrite_config (u : State) (i : Initiator) (low : BitVec 16) (h3 : low.extractLsb' 12 3 = 0)
    (h4 : low.extractLsb' 4 4 ≠ 0) : u.wdogWrite i (0#16 ++ low) =
      (if u.sys.wdogEn then u else { u with
        sys := { u.sys with
          wdogEn := low.getLsbD 15, wdogPeriod := low.extractLsb' 8 4, wdogKmask := low.extractLsb' 4 4 } }, 0) := by
  have part (lo n : Nat) (h : lo + n ≤ 16) : (0#16 ++ low : Word).extractLsb' lo n = low.extractLsb' lo n :=
    BitVec.extractLsb'_append_eq_of_add_le h
  have key : fld (0#16 ++ low) 16 16 = 0 := (fld_zero_iff _ _ _).mpr BitVec.extractLsb'_append_eq_left
  have bad : ¬(fld (0#16 ++ low) 12 3 ≠ 0 ∨ fld (0#16 ++ low) 4 4 = 0) := by
    rw [ne_eq, fld_zero_iff, fld_zero_iff, part 12 3 (by decide), part 4 4 (by decide)]
    exact not_or.mpr ⟨not_not.mpr h3, h4⟩
  have en : bit (0#16 ++ low) 15 = low.getLsbD 15 := by
    rw [bit_eq_getLsbD, BitVec.getLsbD_append]
    rfl
  unfold State.wdogWrite
  rw [if_neg (by rw [key]; decide), if_pos key, State.wdogConfig, if_neg bad, ofNat_fld, ofNat_fld, en,
    part 8 4 (by decide), part 4 4 (by decide)]
  cases u.sys.wdogEn <;> rfl

theorem wdogWrite_kick (u : State) (k : Fin 4) (low : BitVec 16) : u.wdogWrite (.shuttle k) (0x7A1E#16 ++ low) =
    (let kicked := u.sys.wdogKicked ||| BitVec.ofNat 4 (2 ^ k.val)
     { u with sys := { u.sys with wdogKicked := if u.sys.wdogKmask &&& ~~~kicked = 0 then 0 else kicked } }, 0) := by
  have key : fld (0x7A1E#16 ++ low) 16 16 = 0x7A1E := by
    rw [fld_eq_extractLsb', BitVec.extractLsb'_append_eq_left]
    rfl
  unfold State.wdogWrite
  rw [if_pos key, State.wdogKick, Nat.one_shiftLeft]
  rfl

/-! ## MEM -/

theorem memCtl_takes (u : State) {v : Word} (h8 : fld v 24 8 = 0) (h12 : fld v 4 12 = 0) (h1 : v.getLsbD 1 = false)
    (h3 : fld v 2 2 ≠ 3) : u.memCtl v =
      (({ u with
        mem := { u.mem with
          cthresh := v.extractLsb' 16 8, inj := v.extractLsb' 2 2, cwb := v.getLsbD 0,
          wbuf := u.mem.wbuf.map fun e => { e with inj := 0 } } } : State).allSh Shuttle.unbound, 0) := by
  unfold State.memCtl
  rw [if_neg (by rw [bit_eq_getLsbD, h8, h12, h1]; simpa using h3)]
  simp only [ofNat_fld, bit_eq_getLsbD]
  rfl

/-- A shuttle whose store takes no injection, as one change of what it is busy on. -/
theorem unbound_eq : Shuttle.unbound = fun x => { x with
    busyOn := match x.busyOn with
      | some (.mramStore a n d _ t) => some (.mramStore a n d 0 t)
      | b => b } := by
  funext x
  unfold Shuttle.unbound
  cases hb : x.busyOn with
  | none => simp [← hb]
  | some b => cases b <;> simp [← hb]

/-! ## ENG -/

theorem issueWrite_takes (u : State) (v : Word) : u.engWrite 0 v =
    ({ u with eng := { u.eng with
      issueAct := if u.eng.issueAt ≤ u.eng.cyc / 16 * 16 then u.eng.issueReq else u.eng.issueAct, issueReq := v,
      issueAt := u.eng.cyc } }, 0) := by
  change (u.modEng fun e => { e with issueAct := e.table e.cyc, issueReq := v, issueAt := e.cyc }, 0) = _
  simp only [Eng.table, inForce, decide_eq_true_eq]
  rfl

/-- The mask and the wait latch of shuttle `k`. -/
theorem maskWrite_takes (u : State) (k : Fin 4) (v : Word) : u.engWrite (0x10 + 4 * k.val) v =
    (u.modSh k fun x => { x with
      wpend := x.wpend &&& ~~~(v.extractLsb' 16 16 &&& ~~~u.eng.same.ev), ien := v.extractLsb' 0 16 }, 0) := by
  match k with
  | 0 | 1 | 2 | 3 => rfl

theorem vecbaseWrite_takes (u : State) {v : Word} (h : vecbaseOk v = true) :
    u.engWrite 0x24 v = ({ u with eng := { u.eng with vecbase := v } }, 0) :=
  if_pos h

theorem evpendWrite_takes (u : State) {v : Word} (h : fld v 16 16 = 0) : u.engWrite 8 v =
    ({ u with eng := { u.eng with evpend := u.eng.evpend &&& ~~~(v.extractLsb' 0 16 &&& ~~~u.eng.same.ev) } }, 0) :=
  if_neg (not_not.mpr h)

theorem mpuctlWrite_takes (u : State) {v : Word} (h : v &&& 0xFFFFFF0C = 0) :
    u.engWrite 0x60 v = ({ u with eng := { u.eng with mpuctl := v } }, 0) :=
  if_neg (not_not.mpr h)

/-- The register ENG_EVMASKk. -/
theorem maskReg (k : Fin 4) : coreReg (0x40001010 + 4 * k.val) = true ∧ blockOf (0x40001010 + 4 * k.val) = 1 ∧
    (0x40001010 + 4 * k.val) % 0x1000 = 0x10 + 4 * k.val ∧
    (BitVec.ofNat 32 (0x40001010 + 4 * k.val)).toNat = 0x40001010 + 4 * k.val := by
  revert k
  decide

theorem maskWrite_regWrite (u : State) (i : Initiator) (k : Fin 4) (v : Word) :
    u.regWrite i (0x40001010 + 4 * k.val) v = u.engWrite (0x10 + 4 * k.val) v := by
  obtain ⟨-, hb, ho, -⟩ := maskReg k
  simp only [State.regWrite, hb, ho]

/-- Settles O27: each row is a write of its register, and the register takes its fields by the lemma that names it. -/
theorem controlRegistersTakeTheirFields : Obligations.ControlRegistersTakeTheirFields := by
  unfold Obligations.ControlRegistersTakeTheirFields
  refine ⟨fun i v low s hp => ⟨fun hr h20 h2 h2' h3 => ?coreclk, fun hr hv => ?vecbase, fun hr h3 h4 => ?config,
    fun k hr => ?kick, fun hr h8 h12 h1 h3 => ?inject⟩, fun i v s hp => ⟨fun hr => ?issue, fun hr hv => ?evpend,
    fun k hr => ?mask, fun hr => ?route, fun hr hv => ?mpuctl⟩⟩
  case coreclk =>
    exact core_written rfl hp rfl hr fun u _ => ⟨coreclkWrite_takes u h20 h2 h2' h3, rfl⟩
  case vecbase =>
    exact core_written rfl hp rfl hr fun u _ => ⟨vecbaseWrite_takes u hv, rfl⟩
  case config =>
    exact core_written rfl hp rfl hr fun u _ => ⟨wdogWrite_config u i low h3 h4, by split <;> rfl⟩
  case kick =>
    exact core_written rfl hp rfl hr fun u _ => ⟨wdogWrite_kick u k low, rfl⟩
  case inject =>
    refine core_written rfl hp rfl hr fun u _ => ⟨?_, rfl⟩
    exact (memCtl_takes u h8 h12 h1 h3).trans (congrArg (fun f => (State.allSh _ f, 0)) unbound_eq)
  case issue =>
    exact core_written rfl hp rfl hr fun u _ => ⟨issueWrite_takes u v, rfl⟩
  case evpend =>
    exact core_written rfl hp rfl hr fun u _ => ⟨evpendWrite_takes u hv, rfl⟩
  case mask =>
    obtain ⟨core, -, -, back⟩ := maskReg k
    exact core_written (congrArg (fun a => whenPowered s fun s => s.writeBy i a v) back) hp core hr fun u _ =>
      ⟨(maskWrite_regWrite u i k v).trans (maskWrite_takes u k v), rfl⟩
  case route =>
    exact core_written rfl hp rfl hr fun u _ => ⟨rfl, rfl⟩
  case mpuctl =>
    exact core_written rfl hp rfl hr fun u _ => ⟨mpuctlWrite_takes u hv, rfl⟩

end Sys2Proof.Machine
end

section
/-!
SUPPORT. A write of ENG_SHCTL that changes one shuttle's EN: the word that it writes, and what it makes of the four shuttles
(R114, R115, R117).
-/

namespace Sys2Proof.Machine

/-! ## The bytes of ENG_SHCTL -/

/-- The word with shuttle `k`'s byte cleared of its lowest bit and that bit put to `b` has the other bytes as they were. -/
theorem putFld_byte (w : Word) (k j : Fin 4) (b : Bool) : fld (putFld w (8 * k.val) 1 (b2n b)) (8 * j.val) 8 =
    if j = k then fld w (8 * k.val) 8 / 2 * 2 + b2n b else fld w (8 * j.val) 8 := by
  have hb := b2n_lt b
  have hw := w.isLt
  unfold putFld fld
  simp only [BitVec.toNat_ofNat, Nat.shiftRight_eq_div_pow, Nat.shiftLeft_eq]
  match k, j with
  | 0, 0 | 0, 1 | 0, 2 | 0, 3 | 1, 0 | 1, 1 | 1, 2 | 1, 3 | 2, 0 | 2, 1 | 2, 2 | 2, 3 | 3, 0 | 3, 1 | 3, 2 | 3, 3 =>
    simp
    omega

/-- One of four bytes, read back. -/
theorem places_byte {a b c d : Nat} (ha : a < 2 ^ 8) (hb : b < 2 ^ 8) (hc : c < 2 ^ 8) (hd : d < 2 ^ 8) :
    let w := place a 24 ||| place b 16 ||| place c 8 ||| place d 0
    w.extractLsb' 24 8 = BitVec.ofNat 8 a ∧ w.extractLsb' 16 8 = BitVec.ofNat 8 b ∧ w.extractLsb' 8 8 = BitVec.ofNat 8 c ∧
      w.extractLsb' 0 8 = BitVec.ofNat 8 d := by
  have other {x k lo : Nat} (hx : x < 2 ^ 8) (h : k + 8 ≤ lo ∨ lo + 8 ≤ k) : (place x k).extractLsb' lo 8 = 0 :=
    extract_place_other hx h
  dsimp only
  simp only [BitVec.extractLsb'_or]
  refine ⟨?_, ?_, ?_, ?_⟩
  · rw [extract_place_same a (by decide), other hb (by decide), other hc (by decide), other hd (by decide)]
    simp only [BitVec.or_zero, BitVec.ofNat_eq_ofNat]
  · rw [extract_place_same b (by decide), other ha (by decide), other hc (by decide), other hd (by decide)]
    simp only [BitVec.or_zero, BitVec.zero_or, BitVec.ofNat_eq_ofNat]
  · rw [extract_place_same c (by decide), other ha (by decide), other hb (by decide), other hd (by decide)]
    simp only [BitVec.or_zero, BitVec.zero_or, BitVec.ofNat_eq_ofNat]
  · rw [extract_place_same d (by decide), other ha (by decide), other hb (by decide), other hc (by decide)]
    simp only [BitVec.zero_or, BitVec.ofNat_eq_ofNat]

/-- The byte that `shBytes` gives to each shuttle. -/
theorem shBytes_byte (s : State) (f : Shuttle → Nat) (hf : ∀ x, f x < 2 ^ 8) (j : Fin 4) :
    fld (s.shBytes f) (8 * j.val) 8 = f (s.sh j) := by
  obtain ⟨h3, h2, h1, h0⟩ := places_byte (hf (s.sh 3)) (hf (s.sh 2)) (hf (s.sh 1)) (hf (s.sh 0))
  have read {x : Nat} {w : BitVec 8} (hx : x < 2 ^ 8) (h : w = BitVec.ofNat 8 x) : w.toNat = x := by
    rw [h, BitVec.toNat_ofNat, Nat.mod_eq_of_lt hx]
  rw [fld_eq_extractLsb', State.shBytes]
  match j with
  | 0 => exact read (hf _) h0
  | 1 => exact read (hf _) h1
  | 2 => exact read (hf _) h2
  | 3 => exact read (hf _) h3

theorem ctl_lt (x : Shuttle) : x.ctl < 2 ^ 5 := by
  have h (b : Bool) := b2n_lt b
  have h0 := h x.en
  have h1 := h x.priv
  have h2 := h x.fixedReq
  have h3 := h x.recvReq
  have h4 := h x.udev
  unfold Shuttle.ctl
  omega

/-- EN is the lowest bit. -/
theorem ctl_en (x : Shuttle) (b : Bool) : x.ctl / 2 * 2 + b2n b = ({ x with en := b } : Shuttle).ctl := by
  have h := b2n_lt x.en
  unfold Shuttle.ctl
  dsimp only
  omega

theorem ctl_bits (x : Shuttle) : x.ctl.testBit 0 = x.en ∧ x.ctl.testBit 1 = x.priv ∧ x.ctl.testBit 2 = x.fixedReq ∧
    x.ctl.testBit 3 = x.recvReq ∧ x.ctl.testBit 4 = x.udev := by
  have all : ∀ a b c d e : Bool, let n := b2n a + 2 * b2n b + 4 * b2n c + 8 * b2n d + 16 * b2n e
      n.testBit 0 = a ∧ n.testBit 1 = b ∧ n.testBit 2 = c ∧ n.testBit 3 = d ∧ n.testBit 4 = e := by decide
  exact all _ _ _ _ _

/-- A word whose four bytes are below 32 has no reserved bit of ENG_SHCTL. -/
theorem shctl_reserved {v : Word} (h : ∀ j : Fin 4, fld v (8 * j.val) 8 < 2 ^ 5) : v &&& 0xE0E0E0E0 = 0 := by
  have mask : ∀ i : Fin 32, (0xE0E0E0E0 : Word).getLsbD i = decide (5 ≤ i.val % 8) := by decide
  refine BitVec.eq_of_getLsbD_eq fun i hi => ?_
  have byte : v.getLsbD i = (fld v (8 * (i / 8)) 8).testBit (i % 8) := by
    rw [fld, Nat.testBit_mod_two_pow, Nat.testBit_shiftRight, Nat.div_add_mod, decide_eq_true (Nat.mod_lt i (by decide)),
      Bool.true_and]
    rfl
  rw [BitVec.getLsbD_and, mask ⟨i, hi⟩, byte]
  by_cases h5 : 5 ≤ i % 8
  · rw [testBit_of_lt (h ⟨i / 8, by omega⟩) h5]
    simp
  · simp [h5]

/-- The word that SHUTTLE_START and SHUTTLE_DISABLE write. -/
def State.shctlWord (s : State) (k : Fin 4) (b : Bool) : Word := putFld (s.shBytes Shuttle.ctl) (8 * k.val) 1 (b2n b)

theorem shctlWord_byte (s : State) (k j : Fin 4) (b : Bool) : fld (s.shctlWord k b) (8 * j.val) 8 =
    if j = k then ({ s.sh k with en := b } : Shuttle).ctl else (s.sh j).ctl := by
  have bytes (i : Fin 4) := shBytes_byte s Shuttle.ctl (fun x => (ctl_lt x).trans (by decide)) i
  rw [State.shctlWord, putFld_byte, bytes, bytes, ctl_en]

theorem shctlWord_reserved (s : State) (k : Fin 4) (b : Bool) : s.shctlWord k b &&& 0xE0E0E0E0 = 0 := by
  refine shctl_reserved fun j => ?_
  rw [shctlWord_byte]
  split <;> exact ctl_lt _

/-! ## One shuttle's byte -/

/-- A shuttle with FIXED and RECEIVE of earlier rounds in force, if a round has begun since they were written (R117). -/
def Shuttle.settled (now : Bool) (x : Shuttle) : Shuttle :=
  { x with fixedAct := if now then x.fixedReq else x.fixedAct, recvAct := if now then x.recvReq else x.recvAct }

/-- Shuttle `i` so settled. -/
def State.settleOne (s : State) (i : Fin 4) : State := s.modSh i (Shuttle.settled (inForce s.eng.flagAt s.eng.cyc))

/-- Shuttle `k` as EN goes to 1 (R114). -/
def State.started (s : State) (k : Fin 4) : State :=
  let entry := s.eng.vecbase + BitVec.ofNat 32 (0x100 * k.val + 0xC0)
  s.coreStart.modSh k fun x =>
    if x.run = .busy then { x with en := true, wpend := 0, restart := true }
    else { x with
      en := true, pc := entry, flow := true, run := .ready, busyOn := none, restart := false, prv := x.priv, ie := false,
      pie := false, inexc := false, wpend := 0, freeAt := max s.eng.cyc x.freeAt + flowCost entry }

/-- Shuttle `k` as EN goes to 0 (R115). -/
def State.disabled (s : State) (k : Fin 4) : State :=
  (s.modSh k fun x =>
    if x.run = .busy then { x with en := false, restart := false } else { x with en := false, run := .disabled }).checkStop

/-- A byte of ENG_SHCTL that has the shuttle's bits but for EN, before EN takes effect. -/
theorem shctlOne_set (s : State) (i : Fin 4) (b : Bool) : s.shctlOne i ({ s.sh i with en := b } : Shuttle).ctl =
    (let t := (s.settleOne i).modSh i fun x => { x with en := b }
     if !(s.sh i).en && b then t.startShuttle i else if (s.sh i).en && !b then t.stopShuttle i else t) := by
  obtain ⟨h0, h1, h2, h3, h4⟩ := ctl_bits { s.sh i with en := b }
  have fixed : s.fixed i s.eng.cyc = if inForce s.eng.flagAt s.eng.cyc then (s.sh i).fixedReq else (s.sh i).fixedAct := rfl
  have recv : s.recv i s.eng.cyc = if inForce s.eng.flagAt s.eng.cyc then (s.sh i).recvReq else (s.sh i).recvAct := rfl
  unfold State.shctlOne
  rw [State.settleOne, modSh_modSh]
  simp only [h0, h1, h2, h3, h4, fixed, recv]
  rfl

theorem shctlOne_same (s : State) (i : Fin 4) : s.shctlOne i (s.sh i).ctl = s.settleOne i := by
  have h := shctlOne_set s i (s.sh i).en
  rw [Bool.not_and_self, Bool.and_not_self] at h
  refine h.trans ?_
  rw [State.settleOne, modSh_modSh]
  rfl

theorem coreStart_modSh (s : State) (i : Fin 4) (f : Shuttle → Shuttle) : (s.modSh i f).coreStart = s.coreStart.modSh i f := by
  rw [coreStart_eq, coreStart_eq]
  rfl

theorem coreStart_sh (s : State) (i : Fin 4) : s.coreStart.sh i = s.sh i := by
  rw [coreStart_eq]
  rfl

theorem startShuttle_eq (s : State) (i : Fin 4) : (s.modSh i fun x => { x with en := true }).startShuttle i = s.started i := by
  unfold State.startShuttle State.started
  rw [coreStart_modSh, modSh_modSh]
  by_cases hb : (s.sh i).run = .busy
  · simp only [sh_modSh, coreStart_sh, hb, if_true, modSh_modSh]
    simp [State.modSh, coreStart_sh, hb]
  · have cyc : s.coreStart.eng.cyc = s.eng.cyc := congrArg Noted.cyc (coreStart_note s)
    have base : s.coreStart.eng.vecbase = s.eng.vecbase := by
      rw [coreStart_eq]
    simp only [sh_modSh, coreStart_sh, hb, if_true, if_false, State.begin, State.entry, modSh_modSh]
    simp only [State.modSh, coreStart_sh, hb, if_false]
    rw [← cyc, ← base]
    rfl

theorem shctlOne_starts {s : State} {i : Fin 4} (h : (s.sh i).en = false) :
    s.shctlOne i ({ s.sh i with en := true } : Shuttle).ctl = (s.settleOne i).started i := by
  rw [shctlOne_set, h]
  exact startShuttle_eq _ i

theorem shctlOne_stops {s : State} {i : Fin 4} (h : (s.sh i).en = true) :
    s.shctlOne i ({ s.sh i with en := false } : Shuttle).ctl = (s.settleOne i).disabled i := by
  rw [shctlOne_set, h]
  simp only [Bool.not_true, Bool.and_self, Bool.not_false, Bool.false_eq_true, if_false, if_true,
    State.stopShuttle, State.disabled, modSh_modSh]

/-! ## The four bytes -/

theorem modSh_comm (s : State) {i j : Fin 4} (h : i ≠ j) (f g : Shuttle → Shuttle) :
    (s.modSh i f).modSh j g = (s.modSh j g).modSh i f := by
  refine eq_of_sh (fun k => ?_) rfl
  simp only [sh_modSh, h, h.symm, if_false]
  by_cases hi : k = i
  · subst hi
    simp [h]
  · simp [hi]

theorem settleOne_sh (s : State) (i j : Fin 4) :
    (s.settleOne i).sh j = if j = i then (s.sh i).settled (inForce s.eng.flagAt s.eng.cyc) else s.sh j := by
  rw [State.settleOne, sh_modSh]

theorem settleOne_ctl (s : State) (i j : Fin 4) : ((s.settleOne i).sh j).ctl = (s.sh j).ctl := by
  rw [settleOne_sh]
  split
  · rename_i h
    rw [h]
    rfl
  · rfl

/-- What settling these shuttles leaves: their bits of ENG_SHCTL, and the other shuttles. -/
theorem settle_keeps (l : List (Fin 4)) (s : State) (j : Fin 4) :
    ((l.foldl State.settleOne s).sh j).ctl = (s.sh j).ctl ∧ (j ∉ l → (l.foldl State.settleOne s).sh j = s.sh j) := by
  induction l generalizing s with
  | nil => exact ⟨rfl, fun _ => rfl⟩
  | cons a l ih =>
    obtain ⟨hc, hs⟩ := ih (s.settleOne a)
    refine ⟨hc.trans (settleOne_ctl s a j), fun hj => ?_⟩
    obtain ⟨ha, hl⟩ := List.ne_and_not_mem_of_not_mem_cons hj
    rw [List.foldl_cons, hs hl, settleOne_sh, if_neg ha]

/-- The write of ENG_SHCTL folds over the shuttles; where a shuttle's byte is as it was, that shuttle is settled. -/
theorem settle_fold {v : Word} {l : List (Fin 4)} {s : State} (h : ∀ i ∈ l, fld v (8 * i.val) 8 = (s.sh i).ctl) :
    l.foldl (fun s i => s.shctlOne i (fld v (8 * i.val) 8)) s = l.foldl State.settleOne s := by
  induction l generalizing s with
  | nil => rfl
  | cons a l ih =>
    rw [List.foldl_cons, List.foldl_cons, h a (List.mem_cons_self ..), shctlOne_same]
    exact ih fun i hi => (h i (List.mem_cons_of_mem a hi)).trans (settleOne_ctl s a i).symm

/-- An operation that sets EN of shuttle `k` to `b`: the others keep their bits of ENG_SHCTL and can be settled before or after
it, and it may begin before the round of the write is noted. -/
structure SetsEn (k : Fin 4) (b : Bool) (op : State → State) : Prop where
  keeps   : ∀ (s : State) (i : Fin 4), i ≠ k → ((op s).sh i).ctl = (s.sh i).ctl
  settles : ∀ (s : State) (i : Fin 4), i ≠ k → (op s).settleOne i = op (s.settleOne i)
  byte    : ∀ s : State, (s.sh k).en = !b → s.shctlOne k ({ s.sh k with en := b } : Shuttle).ctl = op (s.settleOne k)
  round   : ∀ s : State, (op s).modEng (fun e => { e with flagAt := e.cyc }) = op (s.modEng fun e => { e with flagAt := e.cyc })

theorem SetsEn.fold {k : Fin 4} {b : Bool} {op : State → State} (h : SetsEn k b op) {l : List (Fin 4)} (hk : k ∉ l) (s : State) :
    l.foldl State.settleOne (op s) = op (l.foldl State.settleOne s) := by
  induction l generalizing s with
  | nil => rfl
  | cons a l ih =>
    obtain ⟨ha, hl⟩ := List.ne_and_not_mem_of_not_mem_cons hk
    rw [List.foldl_cons, h.settles s a ha.symm, ih hl, List.foldl_cons]

/-- Every shuttle settled, and the round noted from which the written FIXED and RECEIVE count (R117). -/
def State.settled (s : State) : State :=
  ({ s with eng := { s.eng with flagAt := s.eng.cyc } } : State).allSh (Shuttle.settled (inForce s.eng.flagAt s.eng.cyc))

/-- What settling these shuttles makes of each. -/
theorem settle_sh {l : List (Fin 4)} (h : l.Nodup) (s : State) (j : Fin 4) : (l.foldl State.settleOne s).sh j =
    if j ∈ l then (s.sh j).settled (inForce s.eng.flagAt s.eng.cyc) else s.sh j := by
  induction l generalizing s with
  | nil => rfl
  | cons a l ih =>
    obtain ⟨ha, hl⟩ := List.nodup_cons.mp h
    rw [List.foldl_cons, ih hl, settleOne_sh]
    by_cases e : j = a
    · subst e
      rw [if_neg ha, if_pos rfl, if_pos (List.mem_cons_self ..)]
    · simp only [List.mem_cons, e, false_or]
      rfl

/-- Settling touches no field but the shuttles'. -/
theorem settle_rest (l : List (Fin 4)) (s : State) :
    { l.foldl State.settleOne s with eng := { (l.foldl State.settleOne s).eng with sh := s.eng.sh } } = s := by
  induction l generalizing s with
  | nil => rfl
  | cons a l ih => exact congrArg (fun t : State => { t with eng := { t.eng with sh := s.eng.sh } }) (ih (s.settleOne a))

theorem settled_eq (s : State) :
    ((upTo 4).foldl State.settleOne s).modEng (fun e => { e with flagAt := e.cyc }) = s.settled := by
  refine eq_of_sh (fun k => ?_) ?_
  · refine (settle_sh (List.nodup_finRange 4) s k).trans ((if_pos (List.mem_finRange k)).trans ?_)
    match k with
    | 0 | 1 | 2 | 3 => rfl
  · exact congrArg (fun t : State => { t with eng := { t.eng with sh := s.settled.eng.sh, flagAt := t.eng.cyc } })
      (settle_rest (upTo 4) s)

/-- A write of ENG_SHCTL that changes EN of shuttle `k` alone. -/
theorem shctlWrite_sets {s : State} {v : Word} {k : Fin 4} {b : Bool} {op : State → State} (h : SetsEn k b op)
    (hb : ∀ j : Fin 4, fld v (8 * j.val) 8 = if j = k then ({ s.sh k with en := b } : Shuttle).ctl else (s.sh j).ctl)
    (hen : (s.sh k).en = !b) : s.shctlWrite v = op s.settled := by
  obtain ⟨l, r, split⟩ := List.append_of_mem (List.mem_finRange k)
  have nodup : (l ++ k :: r).Nodup := split ▸ List.nodup_finRange 4
  have hl : k ∉ l := fun hk => (List.nodup_append.mp nodup).2.2 k hk k (List.mem_cons_self ..) rfl
  have hr : k ∉ r := (List.nodup_cons.mp (List.nodup_append.mp nodup).2.1).1
  obtain ⟨-, keep⟩ := settle_keeps l s k
  have first : l.foldl (fun s i => s.shctlOne i (fld v (8 * i.val) 8)) s = l.foldl State.settleOne s :=
    settle_fold fun i hi => by
      have ne : i ≠ k := fun e => hl (e ▸ hi)
      rw [hb, if_neg ne]
  have change : (l.foldl State.settleOne s).shctlOne k (fld v (8 * k.val) 8) = op ((l.foldl State.settleOne s).settleOne k) := by
    rw [← h.byte _ (by rw [keep hl, hen]), keep hl, hb, if_pos rfl]
  have rest : r.foldl (fun s i => s.shctlOne i (fld v (8 * i.val) 8)) (op ((l.foldl State.settleOne s).settleOne k)) =
      r.foldl State.settleOne (op ((l.foldl State.settleOne s).settleOne k)) := by
    refine settle_fold fun i hi => ?_
    have ne : i ≠ k := fun e => hr (e ▸ hi)
    rw [hb, if_neg ne, h.keeps _ i ne, settleOne_ctl, (settle_keeps l s i).1]
  have all : (upTo 4).foldl (fun s i => s.shctlOne i (fld v (8 * i.val) 8)) s = op ((upTo 4).foldl State.settleOne s) := by
    rw [upTo, split, List.foldl_append, List.foldl_cons, first, change, rest, h.fold hr, List.foldl_append, List.foldl_cons]
  rw [State.shctlWrite, all, h.round, settled_eq]

/-! ## Start and disable as such operations -/

theorem coreStart_round (s : State) : s.coreStart.eng.flagAt = s.eng.flagAt ∧ s.coreStart.eng.cyc = s.eng.cyc := by
  rw [coreStart_eq]
  exact ⟨rfl, rfl⟩

theorem started_setsEn (k : Fin 4) : SetsEn k true fun s => s.started k where
  keeps s i hi := by rw [State.started, sh_modSh, if_neg hi, coreStart_sh]
  settles s i hi := by
    obtain ⟨hf, hc⟩ := coreStart_round s
    unfold State.settleOne State.started
    rw [coreStart_modSh, ← modSh_comm _ hi.symm]
    simp only [State.modSh, State.setSh, hf, hc]
  byte s h := shctlOne_starts h
  round s := by
    unfold State.started
    rw [coreStart_eq, coreStart_eq]
    rfl

/-- Every shuttle rests and no access of the MRAM is under way (R123, R222). -/
def State.allRest (s : State) : Bool := ((upTo 4).all fun i => (s.sh i).rests) && s.mem.busy.isNone

theorem checkStop_eq (s : State) : s.checkStop = if s.allRest then
    { s with
      eng := { s.eng with stopped := true }
      sys := ({ s with eng := { s.eng with stopped := true } } : State).xoLeft }
    else s := by
  unfold State.checkStop
  rw [xoRest_eq]
  rfl

theorem allRest_modSh {s : State} {i : Fin 4} {f : Shuttle → Shuttle} (h : (f (s.sh i)).rests = (s.sh i).rests) :
    (s.modSh i f).allRest = s.allRest := by
  have rest (k : Fin 4) : ((s.modSh i f).sh k).rests = (s.sh k).rests := by
    rw [sh_modSh]
    split
    · rename_i e
      rw [e, h]
    · rfl
  simp only [State.allRest, rest]
  rfl

/-- The check whether the core's clock stops asks of the shuttles only whether they rest. -/
theorem checkStop_modSh {s : State} {i : Fin 4} {f : Shuttle → Shuttle} (h : (f (s.sh i)).rests = (s.sh i).rests) :
    (s.modSh i f).checkStop = s.checkStop.modSh i f := by
  rw [checkStop_eq, checkStop_eq, allRest_modSh h]
  split <;> rfl

theorem checkStop_engine (s : State) :
    (∀ i, s.checkStop.sh i = s.sh i) ∧ s.checkStop.eng.flagAt = s.eng.flagAt ∧ s.checkStop.eng.cyc = s.eng.cyc := by
  rw [checkStop_eq]
  split <;> exact ⟨fun _ => rfl, rfl, rfl⟩

theorem checkStop_round (s : State) :
    s.checkStop.modEng (fun e => { e with flagAt := e.cyc }) = (s.modEng fun e => { e with flagAt := e.cyc }).checkStop := by
  rw [checkStop_eq, checkStop_eq]
  exact (apply_ite (fun t : State => t.modEng fun e => { e with flagAt := e.cyc }) ..)

theorem disabled_setsEn (k : Fin 4) : SetsEn k false fun s => s.disabled k where
  keeps s i hi := by rw [State.disabled, (checkStop_engine _).1, sh_modSh, if_neg hi]
  settles s i hi := by
    obtain ⟨-, hf, hc⟩ := checkStop_engine (s.modSh k fun x =>
      if x.run = .busy then { x with en := false, restart := false } else { x with en := false, run := .disabled })
    unfold State.settleOne State.disabled
    rw [hf, hc, ← checkStop_modSh rfl, modSh_comm s hi.symm]
    rfl
  byte s h := shctlOne_stops h
  round s := checkStop_round _

end Sys2Proof.Machine
end

section
/-!
PROOFS. The core clock's source and XO32M (R29, R121 to R123, R127), and the statement about them and about the start and the
stop of a shuttle (R114, R115).
-/

namespace Sys2Proof.Machine

/-! ## What the clocks' operations leave -/

/-- Whether the core clock is stopped is not a matter of counting. -/
theorem Within.stopped {l : List Part} {s t : State} (h : Within l s t) (hp : decide (.eng ∉ l) = true) :
    t.eng.stopped = s.eng.stopped := by
  obtain ⟨n, hn⟩ := h.eng hp
  rw [hn]
  rfl

theorem dmiOff_within (s : State) : Within [.sys, .drv, .flw] s s.dmiOff :=
  .mono (within_ite (.after (modDrv_within _ _) (clocks_within s _ rfl)) (.refl [] s)) rfl

theorem radOff_within (s : State) : Within [.sys, .rad] s s.radOff :=
  .mono (within_ite (.after (setRad_within _ _) (clocks_within s _ rfl)) (.refl [] s)) rfl

theorem dmiOff_sys (s : State) : s.dmiOff.sys = { s.sys with runDmi := false } := by
  unfold State.dmiOff
  split
  · rfl
  · next h => rw [← Bool.eq_false_of_not_eq_true h]

theorem radOff_sys (s : State) : s.radOff.sys = { s.sys with runRad := false } := by
  unfold State.radOff
  split
  · exact (setRad_within _ _).sys rfl
  · next h => rw [← Bool.eq_false_of_not_eq_true h]

/-- A Radio island that stops takes the radio OFF. -/
theorem radOff_off {s : State} (h : s.sys.runRad = true) : s.radOff.rad.state = .off := by
  unfold State.radOff State.setRad
  rw [if_pos h]
  simp only [entered_rad, modRad_rad, modSys_sys, Bool.false_eq_true, if_false]

theorem fallSrc_within {l : List Part} {s t : State} (h : Within l s t) (hp : decide (.tmp ∉ l) = true) :
    t.fallSrc = s.fallSrc := by
  rw [State.fallSrc, State.xt32Runs, h.tmp hp]
  rfl

/-! ## The core's source (R121) -/

theorem xoUsed_running {s : State} (h : s.coreRuns = true) :
    s.xoUsed = (s.sys.runDmi || s.sys.runRad || s.sys.src == 2) := by
  rw [State.xoUsed, State.coreWantsXo, h, Bool.true_and]

theorem coreStart_stopped {s : State} (h : s.eng.stopped = true) : s.coreStart = { s with
    eng := { s.eng with stopped := false }
    sys := { s.sys with curSrc := if s.srcReady s.sys.curSrc then s.sys.curSrc else s.fallSrc } } := by
  rw [coreStart_eq, h]
  cases s.srcReady s.sys.curSrc <;> rfl

/-- The core takes its requested source: XO32M goes on while something uses it. -/
theorem coreSwitch_eq {s : State} (hr : s.srcReady s.sys.src = true) (h : s.xoUsed = true ∨ s.coreRuns = true) :
    s.coreSwitch = { s with sys := { s.sys with curSrc := s.sys.src, xoRun := s.sys.xoRun && s.xoUsed } } := by
  have loses : ({ s with sys := { s.sys with curSrc := s.sys.src } } : State).losesXo = false := by
    change (s.sys.xoRun && !s.xoUsed && s.sys.src == 2 && !s.eng.stopped) = false
    rcases h with h | h
    · simp [h]
    · rw [State.xoUsed, State.coreWantsXo, h]
      cases s.sys.src == 2 <;> simp
  have left : ({ s with sys := { s.sys with curSrc := s.sys.src } } : State).xoLeft =
      { s.sys with curSrc := s.sys.src, xoRun := s.sys.xoRun && s.xoUsed } := by
    unfold State.xoLeft
    rw [loses, Bool.false_and, Bool.or_false]
    rfl
  unfold State.coreSwitch
  rw [if_pos hr, State.modSys, xoRest_eq, left]

/-! ## XO32M stops (R29, R122) -/

/-- Both islands without their clock, and XO32M stopped. -/
def State.islandsOff (s : State) : State := (s.dmiOff.radOff).modSys fun x => { x with xoRun := false }

theorem islandsOff_within (s : State) : Within [.sys, .drv, .flw, .rad] s s.islandsOff :=
  .mono (.after (clocks_within _ _ rfl) (.after (radOff_within _) (dmiOff_within s))) rfl

theorem islandsOff_sys (s : State) : s.islandsOff.sys = { s.sys with xoRun := false, runDmi := false, runRad := false } := by
  unfold State.islandsOff
  rw [modSys_sys, radOff_sys, dmiOff_sys]

theorem islandsOff_off {s : State} (h : s.sys.runRad = true) : s.islandsOff.rad.state = .off :=
  radOff_off (s := s.dmiOff) (by rw [dmiOff_sys]; exact h)

theorem xoStop_eq (s : State) : s.xoStop = if s.sys.curSrc = 2 && !s.eng.stopped then s.islandsOff.coreFall else s.islandsOff := by
  have src : s.islandsOff.sys.curSrc = s.sys.curSrc := by rw [islandsOff_sys]
  rw [← src, ← (islandsOff_within s).stopped rfl]
  rfl

theorem xoStop_within (s : State) : Within [.sys, .drv, .flw, .rad] s s.xoStop := by
  rw [xoStop_eq]
  exact .mono (within_ite (.after (coreFall_within _) (islandsOff_within s)) (islandsOff_within s)) rfl

theorem xoStop_sys (s : State) : s.xoStop.sys = { s.sys with
    xoRun := false, runDmi := false, runRad := false
    curSrc := if s.sys.curSrc = 2 && !s.eng.stopped then s.fallSrc else s.sys.curSrc
    fallback := s.sys.fallback || (s.sys.curSrc = 2 && !s.eng.stopped) } := by
  rw [xoStop_eq]
  cases (decide (s.sys.curSrc = 2) && !s.eng.stopped)
  · simp [islandsOff_sys]
  · simp [State.coreFall, islandsOff_sys, fallSrc_within (islandsOff_within s) rfl]

theorem xoStop_off {s : State} (h : s.sys.runRad = true) : s.xoStop.rad.state = .off := by
  rw [xoStop_eq]
  split <;> exact islandsOff_off h

/-! ## The write of ENG_SHCTL reaches its register -/

/-- What the access to ENG_SHCTL finds of a shuttle's bits. -/
theorem atBus_ctl {s u : State} {i : Initiator} (h : s.AtBus i u) (j : Fin 4) : (u.sh j).ctl = (s.sh j).ctl ∧
    (u.sh j).en = (s.sh j).en ∧ ∀ b, ({ u.sh j with en := b } : Shuttle).ctl = ({ s.sh j with en := b } : Shuttle).ctl := by
  cases i with
  | shuttle k =>
    obtain ⟨c, n, -, -, -, rfl⟩ := h
    rw [noted_sh, sh_modSh]
    split
    · next e =>
      subst e
      exact ⟨rfl, rfl, fun _ => rfl⟩
    · exact ⟨rfl, rfl, fun _ => rfl⟩
  | debug | chain =>
    cases h
    exact ⟨rfl, rfl, fun _ => rfl⟩

theorem shctlWrite_takes (u : State) (i : Initiator) {v : Word} (h : v &&& 0xE0E0E0E0 = 0) :
    u.regWrite i 0x40001004 v = (u.shctlWrite v, 0) :=
  if_neg (not_not.mpr h)

/-- A write of ENG_SHCTL that changes EN of one shuttle. -/
theorem shctl_written {o : Out} {s : State} {i : Initiator} {k : Fin 4} {b : Bool} {op : State → State}
    (ho : o = whenPowered s fun s => s.writeBy i 0x40001004 (s.shctlWord k b)) (hp : s.powered = true)
    (hr : s.reaches i 0x40001004 true = true) (hop : SetsEn k b op) (hx : ∀ u, (op u).secx = u.secx)
    (hen : (s.sh k).en = !b) : Written o s i 0x40001004 fun u => (op u.settled).afterWrite := by
  have out : o = whenPowered s fun t => t.writeBy i 0x40001004 (s.shctlWord k b) := by
    rw [ho, whenPowered_powered hp, whenPowered_powered hp]
  refine core_written out hp rfl hr fun u hu => ⟨?_, hx _⟩
  obtain ⟨-, en, -⟩ := atBus_ctl hu k
  rw [shctlWrite_takes u i (shctlWord_reserved s k b), shctlWrite_sets hop (fun j => ?_) (en.trans hen)]
  obtain ⟨ctl, -, -⟩ := atBus_ctl hu j
  obtain ⟨-, -, set⟩ := atBus_ctl hu k
  rw [shctlWord_byte, ctl, set]

theorem Written.congr {o : Out} {s : State} {i : Initiator} {a : Nat} {f g : State → State} (h : Written o s i a f)
    (e : ∀ u, f u = g u) : Written o s i a g :=
  funext e ▸ h

theorem shuttleStart_writes (i : Initiator) (k : Fin 4) (s : State) : exec (.shuttleStart i k) s =
    whenPowered s fun s => s.writeBy i 0x40001004 (s.shctlWord k true) := rfl

theorem shuttleDisable_writes (i : Initiator) (k : Fin 4) (s : State) : exec (.shuttleDisable i k) s =
    whenPowered s fun s => s.writeBy i 0x40001004 (s.shctlWord k false) := rfl

theorem started_secx (s : State) (k : Fin 4) : (s.started k).secx = s.secx := by
  rw [State.started, coreStart_eq]
  rfl

theorem disabled_secx (s : State) (k : Fin 4) : (s.disabled k).secx = s.secx := (checkStop_within _).secx rfl

/-- Settles O25: the clock's rows are the lemmas about its operations, and a write of ENG_SHCTL changes one shuttle's EN. -/
theorem coreClockAndShuttlesStartAndStop : Obligations.CoreClockAndShuttlesStartAndStop := by
  unfold Obligations.CoreClockAndShuttlesStartAndStop
  refine ⟨fun s hp => ⟨fun hs hc hne hr => ?switch, fun hs hc hw => ?restart, fun hx => ⟨s.xoStop, ?stop, xoStop_sys s, xoStop_off,
    (xoStop_within s).mem rfl, (xoStop_within s).tmp rfl, xoStop_within s .mac (by decide), fun k => ?shuttle⟩⟩,
    fun i k s hp hr => ⟨fun hen => ?start, fun hen => ?disable⟩⟩
  case switch =>
    have runs : s.coreRuns = true := by simp [State.coreRuns, hp, hc, hs]
    rw [← xoUsed_running runs, ← coreSwitch_eq hr (.inr runs)]
    exact whenever_holds hp (by simp [hs, hne, hr]) _
  case restart =>
    rw [← coreStart_stopped hs]
    exact whenever_holds hp (by simp [hs, hc, hw]) _
  case stop => exact whenever_holds hp hx _
  case shuttle =>
    obtain ⟨w, hw⟩ := (xoStop_within s).sh k rfl
    rw [hw]
  case start =>
    exact (shctl_written (shuttleStart_writes i k s) hp hr (started_setsEn k) (fun u => started_secx u k) hen).congr fun _ => rfl
  case disable =>
    exact (shctl_written (shuttleDisable_writes i k s) hp hr (disabled_setsEn k) (fun u => disabled_secx u k) hen).congr
      fun _ => rfl

end Sys2Proof.Machine
end

section
/-!
PROOFS. XO32M becomes stable, an island stops without a reason to run, and the issue table comes into force (R117, R121, R122,
R127), with the statement about them.
-/

namespace Sys2Proof.Machine

/-! ## What the core's wish for XO32M rests on -/

/-- Starting and stopping islands leaves open or closed what the core asks of XO32M. -/
theorem coreWantsXo_islands {l : List Part} {s t : State} (h : Within l s t) (heng : decide (.eng ∉ l) = true) {x a b : Bool}
    (hs : t.sys = { s.sys with xoRun := x, runDmi := a, runRad := b }) : t.coreWantsXo = s.coreWantsXo := by
  simp only [State.coreWantsXo, State.coreRuns, State.powered, h.stopped heng, hs]

/-! ## The islands start (R127) -/

theorem startRad_sys (s : State) : s.startRad.sys = { s.sys with runRad := true } := by
  unfold State.startRad
  split
  · next h => rw [← h]
  · exact (setRad_within _ _).sys rfl

theorem startDmi_radWanted (s : State) : s.startDmi.radWanted = s.radWanted := by
  unfold State.startDmi
  split <;> rfl

theorem startIslands_sys {s : State} (hx : s.sys.xoRun = true) : s.startIslands.sys =
    { s.sys with runDmi := s.sys.runDmi || s.dmiWanted, runRad := s.sys.runRad || s.radWanted } := by
  unfold State.startIslands
  rw [if_pos hx]
  cases hd : s.dmiWanted <;> cases hr : s.radWanted <;>
    simp [hr, startDmi_radWanted, startRad_sys, startDmi_runs]

/-- XO32M runs, with the islands that are wanted. -/
def State.islandsOn (s : State) : State := (s.modSys fun x => { x with xoRun := true }).startIslands

theorem islandsOn_within (s : State) : Within [.sys, .drv, .flw, .rad] s s.islandsOn :=
  .mono (.after (startIslands_within _) (clocks_within s _ rfl)) rfl

theorem islandsOn_sys (s : State) : s.islandsOn.sys =
    { s.sys with xoRun := true, runDmi := s.sys.runDmi || s.dmiWanted, runRad := s.sys.runRad || s.radWanted } :=
  startIslands_sys rfl

/-- What XO32M was wanted for uses it. -/
theorem islandsOn_used {s : State} (h : s.xoWanted = true) : s.islandsOn.xoUsed = true := by
  rw [State.xoUsed, coreWantsXo_islands (islandsOn_within s) rfl (islandsOn_sys s), islandsOn_sys]
  simp only [State.xoWanted, Bool.or_eq_true] at h ⊢
  rcases h with (h | h) | h
  · exact .inl (.inl (.inr h))
  · exact .inl (.inr (.inr h))
  · exact .inr h

theorem xoStable_eq (s : State) :
    s.xoStable = if s.sys.src = 2 && !s.eng.stopped then s.islandsOn.coreSwitch else s.islandsOn := by
  have src : s.islandsOn.sys.src = s.sys.src := by rw [islandsOn_sys]
  rw [← src, ← (islandsOn_within s).stopped rfl]
  rfl

theorem xoStable_sys {s : State} (h : s.xoWanted = true) : s.xoStable.sys = { s.sys with
    xoRun := true, runDmi := s.sys.runDmi || s.dmiWanted, runRad := s.sys.runRad || s.radWanted
    curSrc := if s.sys.src = 2 && !s.eng.stopped then 2 else s.sys.curSrc } := by
  rw [xoStable_eq]
  cases hc : (decide (s.sys.src = 2) && !s.eng.stopped)
  · exact islandsOn_sys s
  · have src : s.sys.src = 2 := of_decide_eq_true (Bool.and_eq_true_iff.mp hc).1
    have ready : s.islandsOn.srcReady s.islandsOn.sys.src = true := by simp [State.srcReady, islandsOn_sys, src]
    rw [if_pos rfl, coreSwitch_eq ready (.inl (islandsOn_used h)), islandsOn_used h, islandsOn_sys, src]
    rfl

/-! ## An island stops (R127) -/

/-- XO32M after a change of what runs: it stops without a user, and a core that ran on it moves (R121, R122). -/
theorem xoRest_islands {l : List Part} {s t : State} (h : Within l s t) (heng : decide (.eng ∉ l) = true)
    (htmp : decide (.tmp ∉ l) = true) {a b : Bool} (hs : t.sys = { s.sys with runDmi := a, runRad := b }) :
    let ready := s.sys.src == 0 || (s.sys.src == 1 && s.xt32Runs)
    let leaves := s.sys.xoRun && !(a || b || s.coreWantsXo) && s.sys.curSrc == 2 && !s.eng.stopped
    t.xoRest.sys = { s.sys with
      runDmi := a, runRad := b, xoRun := s.sys.xoRun && (a || b || s.coreWantsXo)
      curSrc := if leaves then (if ready then s.sys.src else s.fallSrc) else s.sys.curSrc
      fallback := s.sys.fallback || leaves && !ready } := by
  have used : t.xoUsed = (a || b || s.coreWantsXo) := by
    rw [State.xoUsed, coreWantsXo_islands h heng hs, hs]
  have runs : t.xt32Runs = s.xt32Runs := by rw [State.xt32Runs, State.xt32Runs, h.tmp htmp]
  rw [xoRest_eq]
  simp only [State.xoLeft, State.losesXo, State.readyWithoutXo, used, runs, fallSrc_within h htmp, h.stopped heng, hs]

theorem xoRest_drv (s : State) : s.xoRest.drv = s.drv := (xoRest_within s).drv rfl

theorem xoRest_rad (s : State) : s.xoRest.rad = s.rad := xoRest_within s .rad (by decide)

/-- The Drive and Measure Island without its clock: the pending counts have arrived. -/
theorem dmiOff_gathered (s : State) : Within [.sys, .drv, .flw] s (s.gather .dmi).dmiOff ∧
    (s.gather .dmi).dmiOff.sys = { s.sys with runDmi := false, runRad := s.sys.runRad } :=
  ⟨.mono (.after (dmiOff_within _) ((gather_quiet s .dmi).within [])) rfl, by rw [dmiOff_sys, gather_sys]⟩

theorem radOff_gathered (s : State) : Within [.sys, .rad] s (s.gather .radio).radOff ∧
    (s.gather .radio).radOff.sys = { s.sys with runDmi := s.sys.runDmi, runRad := false } :=
  ⟨.mono (.after (radOff_within _) ((gather_quiet s .radio).within [])) rfl, by rw [radOff_sys, gather_sys]⟩

/-- The local time at which the DMI stops is kept. -/
theorem dmiOff_stopAt {s : State} (h : s.sys.runDmi = true) : s.dmiOff.drv.stopAt = s.local.toNat := by
  unfold State.dmiOff
  rw [if_pos h]
  rfl

theorem gather_local (s : State) (isl : GatherIsland) : (s.gather isl).local = s.local := by
  rw [State.local, State.local, gather_tmp]

/-! ## The issue table comes into force (R117) -/

/-- The written table and flags in force. -/
def State.applied (s : State) : State :=
  { s with eng := { s.eng with issueAct := s.eng.issueReq } }.allSh fun x => { x with fixedAct := x.fixedReq, recvAct := x.recvReq }

theorem applied_noted (s : State) (n : Noted) : (s.noted n).applied = s.applied.noted n := by
  refine eq_of_sh (fun k => ?_) rfl
  match k with
  | 0 | 1 | 2 | 3 => rfl

theorem applied_note (s : State) : s.applied.note = s.note := by
  have latch : (fun k => (s.applied.sh k).wpend) = fun k => (s.sh k).wpend := by
    funext k
    match k with
    | 0 | 1 | 2 | 3 => rfl
  exact congrArg (fun w => { s.note with wpend := w }) latch

theorem issueTableApply_next {s : State} (h : s.coreRuns = true) :
    exec .issueTableApply s = .next (s.idleTick ((16 - s.eng.cyc % 16) % 16)).applied := by
  have hp : s.powered = true := by
    simp only [State.coreRuns, Bool.and_eq_true] at h
    exact h.1.1
  exact whenever_holds hp h fun s => (s.idleTick ((16 - s.eng.cyc % 16) % 16)).applied

/-- Settles O26: XO32M, the islands and the core's source are what the lemmas about their operations say, and the cycles up to the
next round change only what counting notes. -/
theorem islandsAndIssueTableTakeEffect : Obligations.IslandsAndIssueTableTakeEffect := by
  unfold Obligations.IslandsAndIssueTableTakeEffect
  refine ⟨fun s hp => ⟨fun hx hw => ⟨s.xoStable, ?stable, xoStable_sys hw⟩, fun hm => ⟨s.islandStop .dmi, ?dmi, ?stopAt, ?dmiSys⟩,
    fun hm => ⟨s.islandStop .radio, ?radio, ?off, ?radSys⟩⟩, fun s hr => ?apply⟩
  case stable => exact whenever_holds hp (by rw [hx, hw]; rfl) fun s => s.xoStable.drvLandAll
  case dmi => exact whenever_holds hp hm fun s => s.islandStop .dmi
  case stopAt =>
    have runs : (s.gather .dmi).sys.runDmi = true := by
      rw [gather_sys]
      exact (Bool.and_eq_true_iff.mp hm).1
    exact (congrArg Drv.stopAt (xoRest_drv _)).trans ((dmiOff_stopAt runs).trans (by rw [gather_local]))
  case dmiSys =>
    obtain ⟨within, sys⟩ := dmiOff_gathered s
    have left := xoRest_islands within rfl rfl sys
    simp only [Bool.false_or] at left
    exact left
  case radio => exact whenever_holds hp hm fun s => s.islandStop .radio
  case off =>
    have runs : (s.gather .radio).sys.runRad = true := by
      rw [gather_sys]
      exact (Bool.and_eq_true_iff.mp hm).1
    exact (congrArg Rad.state (xoRest_rad _)).trans (radOff_off runs)
  case radSys =>
    obtain ⟨within, sys⟩ := radOff_gathered s
    have left := xoRest_islands within rfl rfl sys
    simp only [Bool.or_false] at left
    exact left
  case apply =>
    obtain ⟨n, hn, cn, e⟩ := idleTick_counts s ((16 - s.eng.cyc % 16) % 16)
    refine ⟨n, cn.of_note (applied_note s), ?_, ?_, ?_, ?_⟩
    · omega
    · omega
    · omega
    · rw [issueTableApply_next hr, e, applied_noted]
      rfl

end Sys2Proof.Machine
end

section
/-!
PROOFS. Every step keeps memory canonical and the write buffer sound, and the reset state meets that invariant (R190, R194).
-/

namespace Sys2Proof.Machine

/-- A command keeps memory sound and the waiting queue as it is: each arm of exec by the lemma about its meaning. -/
theorem exec_sound {q : List Instr} {s t : State} (c : Instr) (h : Sound q s) (e : exec c s = .next t) : Sound q t := by
  cases c with
  | add => exact execAdd_sound h e
  | sub => exact execSub_sound h e
  | and => exact execAnd_sound h e
  | or => exact execOr_sound h e
  | xor => exact execXor_sound h e
  | shl => exact execShl_sound h e
  | shr => exact execShr_sound h e
  | sra => exact execSra_sound h e
  | slt => exact execSlt_sound h e
  | sltu => exact execSltu_sound h e
  | min => exact execMin_sound h e
  | max => exact execMax_sound h e
  | minu => exact execMinu_sound h e
  | maxu => exact execMaxu_sound h e
  | clz => exact execClz_sound h e
  | popc => exact execPopc_sound h e
  | adds => exact execAdds_sound h e
  | subs => exact execSubs_sound h e
  | mul => exact execMul_sound h e
  | mulh => exact execMulh_sound h e
  | mulhu => exact execMulhu_sound h e
  | div => exact execDiv_sound h e
  | divu => exact execDivu_sound h e
  | rem => exact execRem_sound h e
  | remu => exact execRemu_sound h e
  | macs => exact execMacs_sound h e
  | macu => exact execMacu_sound h e
  | accclr => exact execAccclr_sound h e
  | addi => exact execAddi_sound h e
  | andi => exact execAndi_sound h e
  | ori => exact execOri_sound h e
  | xori => exact execXori_sound h e
  | slti => exact execSlti_sound h e
  | shli => exact execShli_sound h e
  | shri => exact execShri_sound h e
  | srai => exact execSrai_sound h e
  | lui => exact execLui_sound h e
  | ldw => exact execLdw_sound h e
  | ldh => exact execLdh_sound h e
  | ldhu => exact execLdhu_sound h e
  | ldb => exact execLdb_sound h e
  | ldbu => exact execLdbu_sound h e
  | ldd => exact execLdd_sound h e
  | stw => exact execStw_sound h e
  | sth => exact execSth_sound h e
  | stb => exact execStb_sound h e
  | std => exact execStd_sound h e
  | beq => exact execBeq_sound h e
  | bne => exact execBne_sound h e
  | blt => exact execBlt_sound h e
  | bge => exact execBge_sound h e
  | bltu => exact execBltu_sound h e
  | bgeu => exact execBgeu_sound h e
  | jal => exact execJal_sound h e
  | jalr => exact execJalr_sound h e
  | wait => exact execWait_sound h e
  | waitComplete => exact execWaitComplete_sound h e
  | post => exact execPost_sound h e
  | trap => exact execTrap_sound h e
  | eret => exact execEret_sound h e
  | fence => exact execFence_sound h e
  | fenceComplete => exact execFenceComplete_sound h e
  | csrr => exact execCsrr_sound h e
  | csrw => exact execCsrw_sound h e
  | halt => exact execHalt_sound h e
  | drv => exact execDrv_sound h e
  | snap => exact execSnap_sound h e
  | commit => exact execCommit_sound h e
  | stamp => exact execStamp_sound h e
  | crc => exact execCrc_sound h e
  | interruptEntry => exact execInterruptEntry_sound h e
  | shuttleStart => exact execShuttleStart_sound h e
  | shuttleDisable => exact execShuttleDisable_sound h e
  | issueTableApply => exact execIssueTableApply_sound h e
  | coreClockRequest => exact execCoreClockRequest_sound h e
  | coreClockSwitch => exact execCoreClockSwitch_sound h e
  | xo32mStop => exact execXo32mStop_sound h e
  | coreClockRestart => exact execCoreClockRestart_sound h e
  | xo32mStable => exact execXo32mStable_sound h e
  | islandStop => exact execIslandStop_sound h e
  | crossingTimeout => exact execCrossingTimeout_sound h e
  | postedWriteComplete => exact execPostedWriteComplete_sound h e
  | registerWrite => exact execRegisterWrite_sound h e
  | engVecbaseWrite => exact execEngVecbaseWrite_sound h e
  | softwareReset => exact execSoftwareReset_sound h e
  | wdogConfig => exact execWdogConfig_sound h e
  | wdogKick => exact execWdogKick_sound h e
  | wdogTimeout => exact execWdogTimeout_sound h e
  | coldStart => exact execColdStart_sound h e
  | brownoutReset => exact execBrownoutReset_sound h e
  | pinReset => exact execPinReset_sound h e
  | debugReset => exact execDebugReset_sound h e
  | bootHandover => exact execBootHandover_sound h e
  | writeBufferEntryWrite => exact execWriteBufferEntryWrite_sound h e
  | eccInjectRequest => exact execEccInjectRequest_sound h e
  | scrubRead => exact execScrubRead_sound h e
  | pcommitImmediate => exact execPcommitImmediate_sound h e
  | pcommitArm => exact execPcommitArm_sound h e
  | persistBoundaryTick => exact execPersistBoundaryTick_sound h e
  | persistCommitComplete => exact execPersistCommitComplete_sound h e
  | cellMeasurement => exact execCellMeasurement_sound h e
  | chargeTimerExpiry => exact execChargeTimerExpiry_sound h e
  | lastact => exact execLastact_sound h e
  | lastactNextClose => exact execLastactNextClose_sound h e
  | lastactCloseSkip => exact execLastactCloseSkip_sound h e
  | lastactDeadline => exact execLastactDeadline_sound h e
  | lastactCutoff => exact execLastactCutoff_sound h e
  | resetHoldEnd => exact execResetHoldEnd_sound h e
  | lastactThresholdWrite => exact execLastactThresholdWrite_sound h e
  | focvSampleStart => exact execFocvSampleStart_sound h e
  | focvSample => exact execFocvSample_sound h e
  | nrgBoundaryTick => exact execNrgBoundaryTick_sound h e
  | tegTakeover => exact execTegTakeover_sound h e
  | pvOvervoltage => exact execPvOvervoltage_sound h e
  | pvOvervoltageClear => exact execPvOvervoltageClear_sound h e
  | dcSupplyLoss => exact execDcSupplyLoss_sound h e
  | dcSupplyRestore => exact execDcSupplyRestore_sound h e
  | cellUvCutoff => exact execCellUvCutoff_sound h e
  | cellReconnect => exact execCellReconnect_sound h e
  | cellOvercurrentTrip => exact execCellOvercurrentTrip_sound h e
  | cellSwitchReclose => exact execCellSwitchReclose_sound h e
  | boostStart => exact execBoostStart_sound h e
  | boostStop => exact execBoostStop_sound h e
  | referenceRefresh => exact execReferenceRefresh_sound h e
  | euseUpdate => exact execEuseUpdate_sound h e
  | shipModeEnter => exact execShipModeEnter_sound h e
  | reservoirDischarge => exact execReservoirDischarge_sound h e
  | driveCommand => exact execDriveCommand_sound h e
  | cancel => exact execCancel_sound h e
  | release => exact execRelease_sound h e
  | startPointScan => exact execStartPointScan_sound h e
  | admitWaitExpiry => exact execAdmitWaitExpiry_sound h e
  | boostEnd => exact execBoostEnd_sound h e
  | boostTimeout => exact execBoostTimeout_sound h e
  | peakEnd => exact execPeakEnd_sound h e
  | holdEnd => exact execHoldEnd_sound h e
  | endTimeout => exact execEndTimeout_sound h e
  | pulseEnd => exact execPulseEnd_sound h e
  | chopPeriod => exact execChopPeriod_sound h e
  | tTurnEnd => exact execTTurnEnd_sound h e
  | vresFloor => exact execVresFloor_sound h e
  | drvResultRead => exact execDrvResultRead_sound h e
  | valveTableWrite => exact execValveTableWrite_sound h e
  | turnoffTimeout => exact execTurnoffTimeout_sound h e
  | interlockRelease => exact execInterlockRelease_sound h e
  | manualMode => exact execManualMode_sound h e
  | switchControl => exact execSwitchControl_sound h e
  | switchAutoOff => exact execSwitchAutoOff_sound h e
  | bootstrapPrechargeEnd => exact execBootstrapPrechargeEnd_sound h e
  | bootstrapRefresh => exact execBootstrapRefresh_sound h e
  | bootstrapUvlo => exact execBootstrapUvlo_sound h e
  | overcurrentTrip => exact execOvercurrentTrip_sound h e
  | vresFastLimit => exact execVresFastLimit_sound h e
  | vresov => exact execVresov_sound h e
  | thermalShutdown => exact execThermalShutdown_sound h e
  | thermalShutdownClear => exact execThermalShutdownClear_sound h e
  | thermalWaitExpiry => exact execThermalWaitExpiry_sound h e
  | coilThermalTick => exact execCoilThermalTick_sound h e
  | offstateTest => exact execOffstateTest_sound h e
  | testAll => exact execTestAll_sound h e
  | offstateTestDone => exact execOffstateTestDone_sound h e
  | flowDue => exact execFlowDue_sound h e
  | flowPrewake => exact execFlowPrewake_sound h e
  | flowStartRequest => exact execFlowStartRequest_sound h e
  | flowMeasurementStart => exact execFlowMeasurementStart_sound h e
  | flowShot => exact execFlowShot_sound h e
  | flowResultPost => exact execFlowResultPost_sound h e
  | flowZeroWrite => exact execFlowZeroWrite_sound h e
  | pulseInputSample => exact execPulseInputSample_sound h e
  | pulseCountWrite => exact execPulseCountWrite_sound h e
  | pressureSample => exact execPressureSample_sound h e
  | spotReading => exact execSpotReading_sound h e
  | spotReadingDone => exact execSpotReadingDone_sound h e
  | comparatorSample => exact execComparatorSample_sound h e
  | comparatorTransition => exact execComparatorTransition_sound h e
  | captureForce => exact execCaptureForce_sound h e
  | captureComplete => exact execCaptureComplete_sound h e
  | captureRelease => exact execCaptureRelease_sound h e
  | blankWindowEnd => exact execBlankWindowEnd_sound h e
  | comparatorConfigWrite => exact execComparatorConfigWrite_sound h e
  | comparatorTestWrite => exact execComparatorTestWrite_sound h e
  | tempoStart => exact execTempoStart_sound h e
  | xt32StartTimeout => exact execXt32StartTimeout_sound h e
  | xt32Fail => exact execXt32Fail_sound h e
  | xt32Recover => exact execXt32Recover_sound h e
  | tmpNowRead => exact execTmpNowRead_sound h e
  | tmpOffsRead => exact execTmpOffsRead_sound h e
  | tmpOffsStage => exact execTmpOffsStage_sound h e
  | tmpOffsSet => exact execTmpOffsSet_sound h e
  | timeSourceChange => exact execTimeSourceChange_sound h e
  | matchArm => exact execMatchArm_sound h e
  | matchDisarm => exact execMatchDisarm_sound h e
  | tmpMatch => exact execTmpMatch_sound h e
  | ppsEdge => exact execPpsEdge_sound h e
  | timeQualityTick => exact execTimeQualityTick_sound h e
  | frameReceive => exact execFrameReceive_sound h e
  | keyup => exact execKeyup_sound h e
  | lbtListenEnd => exact execLbtListenEnd_sound h e
  | dwellSubwindow => exact execDwellSubwindow_sound h e
  | dwellConfig => exact execDwellConfig_sound h e
  | radioTest => exact execRadioTest_sound h e
  | slotEvent => exact execSlotEvent_sound h e
  | radioPrewake => exact execRadioPrewake_sound h e
  | slotStart => exact execSlotStart_sound h e
  | superframeBoundary => exact execSuperframeBoundary_sound h e
  | ackTransmit => exact execAckTransmit_sound h e
  | ackTimeout => exact execAckTimeout_sound h e
  | rxWindowTimeout => exact execRxWindowTimeout_sound h e
  | scanCycleEnd => exact execScanCycleEnd_sound h e
  | scanResume => exact execScanResume_sound h e
  | macModeOff => exact execMacModeOff_sound h e
  | macModeNode => exact execMacModeNode_sound h e
  | macModeRoot => exact execMacModeRoot_sound h e
  | linkListen => exact execLinkListen_sound h e
  | linkActivate => exact execLinkActivate_sound h e
  | linkOff => exact execLinkOff_sound h e
  | linkMapPend => exact execLinkMapPend_sound h e
  | macTableWrite => exact execMacTableWrite_sound h e
  | asnRead => exact execAsnRead_sound h e
  | unwrap => exact execUnwrap_sound h e
  | erase => exact execErase_sound h e
  | bind => exact execBind_sound h e
  | keystoreCommitDone => exact execKeystoreCommitDone_sound h e
  | sha256 => exact execSha256_sound h e
  | ecdsaVerify => exact execEcdsaVerify_sound h e
  | ecdhGen => exact execEcdhGen_sound h e
  | ecdhSlot => exact execEcdhSlot_sound h e
  | trngRead => exact execTrngRead_sound h e
  | entropyFailure => exact execEntropyFailure_sound h e
  | lifecycleTransition => exact execLifecycleTransition_sound h e
  | dbglock => exact execDbglock_sound h e
  | fuseBurnDone => exact execFuseBurnDone_sound h e
  | rollbackBurn => exact execRollbackBurn_sound h e
  | otpProgram => exact execOtpProgram_sound h e
  | debugChallenge => exact execDebugChallenge_sound h e
  | debugChallengeRead => exact execDebugChallengeRead_sound h e
  | debugResponseWord => exact execDebugResponseWord_sound h e
  | debugVerify => exact execDebugVerify_sound h e
  | debugHalt => exact execDebugHalt_sound h e
  | debugResume => exact execDebugResume_sound h e
  | gatherTransfer => exact execGatherTransfer_sound h e
  | prfFreeze => exact execPrfFreeze_sound h e
  | prfSelectWrite => exact execPrfSelectWrite_sound h e
  | chainStrapSample => exact execChainStrapSample_sound h e
  | enumReq => exact execEnumReq_sound h e
  | enumAns => exact execEnumAns_sound h e
  | hwmsg => exact execHwmsg_sound h e
  | chainProbe => exact execChainProbe_sound h e
  | read => exact execRead_sound h e
  | write => exact execWrite_sound h e
  | rdata => exact execRdata_sound h e
  | wack => exact execWack_sound h e
  | remoteAccessTimeout => exact execRemoteAccessTimeout_sound h e
  | txboxWrite => exact execTxboxWrite_sound h e
  | send => exact execSend_sound h e
  | flush => exact execFlush_sound h e
  | msg => exact execMsg_sound h e
  | mack => exact execMack_sound h e
  | mailboxLost => exact execMailboxLost_sound h e
  | rxboxRead => exact execRxboxRead_sound h e
  | syncPulse => exact execSyncPulse_sound h e
  | syncEdge => exact execSyncEdge_sound h e
  | time => exact execTime_sound h e
  | syncPairTimeout => exact execSyncPairTimeout_sound h e
  | linkTimeout => exact execLinkTimeout_sound h e
  | zeroCondition => exact execZeroCondition_sound h e
  | coilCurrentSample => exact execCoilCurrentSample_sound h e
  | tegSampleEnd => exact execTegSampleEnd_sound h e
  | traceLoss => exact execTraceLoss_sound h e
  | rollbackBurnDone => exact execRollbackBurnDone_sound h e
  | vresDischarged => exact execVresDischarged_sound h e

/-- R194: a step keeps memory sound and takes the front of the queue; with an empty queue one XT32 period passes. -/
theorem step_sound {s t : State} (h : s.mem.Sound) (e : step s = .next t) : Sound s.pending.tail t := by
  unfold step at e
  split at e
  case h_1 empty =>
    cases e
    rw [empty, List.tail_nil]
    exact period_sound ⟨h, empty⟩
  case h_2 c rest front =>
    have keeps : Sound rest { s with pending := rest } := ⟨h, rfl⟩
    rw [front, List.tail_cons]
    exact exec_sound c keeps e

/-- Settles O5: the invariant by `step_sound`, whose queue is the tail. -/
theorem everyStepKeepsMemorySound : Obligations.EveryStepKeepsMemorySound := by
  unfold Obligations.EveryStepKeepsMemorySound
  exact fun _ _ sound steps => step_sound sound steps

/-- Settles O3: no cell is listed at reset and the write buffer is empty. -/
theorem resetMemoryIsSound : Obligations.ResetMemoryIsSound := by
  unfold Obligations.ResetMemoryIsSound
  exact ⟨rfl, Nat.zero_le 4, List.nodup_nil⟩

end Sys2Proof.Machine
end

section
/-!
SUPPORT. What reads, writes and logs of errors leave of memory: each word's error class, the fields that a log of errors does not
name, and the write buffer's oldest entry (R194, R195, R199 to R205).
-/

namespace Sys2Proof.Machine

/-! ## Error classes -/

/-- A word's error class after it has been set. -/
@[simp] theorem eccOf_setEcc (m : Mem) (w c : Nat) : (m.setEcc w c).eccOf w = c := by
  have gone : (m.ecc.filter fun p => p.1 != w).find? (fun p => p.1 == w) = none := by
    rw [List.find?_eq_none]
    intro p hp
    simpa using (List.mem_filter.mp hp).2
  unfold Mem.eccOf Mem.setEcc
  by_cases hc : c = 0
  · simp [hc, gone]
  · simp [hc]

/-! ## The log of errors (R199 to R205) -/

/-- Memory but for what a log of errors writes: the flags, the counters and the recorded address. -/
def Mem.unlogged (m : Mem) : Mem := { m with eccstat := 0, mcnt := 0, scnt := 0, eccAddr := 0, uncor := false }

@[simp] theorem eccFlag_mem (s : State) (b : BitVec 7) (memerr : Bool) :
    (s.eccFlag b memerr).mem = { s.mem with eccstat := s.mem.eccstat ||| b } := by
  cases memerr <;> simp [State.eccFlag]

theorem eccFlag_pends (s : State) (b : BitVec 7) : (s.eccFlag b true).eng.evpend.getLsbD 14 = true :=
  event_pends _ 14

theorem eccUncor_mem (s : State) (w : Nat) (b : BitVec 7) : (s.eccUncor w b).mem =
    { s.mem with eccAddr := BitVec.ofNat 32 w, uncor := true, eccstat := s.mem.eccstat ||| b } :=
  eccFlag_mem _ b true

theorem eccRecord_unlogged (s : State) (w : Nat) (u : Bool) : (s.eccRecord w u).mem.unlogged = s.mem.unlogged := by
  unfold State.eccRecord
  split <;> rfl

theorem eccFlag_unlogged (s : State) (b : BitVec 7) (memerr : Bool) : (s.eccFlag b memerr).mem.unlogged = s.mem.unlogged := by
  rw [eccFlag_mem]
  rfl

theorem unlogged_ite {c : Prop} [Decidable c] {t u : State} {m : Mem} (ht : t.mem.unlogged = m) (hu : u.mem.unlogged = m) :
    (if c then t else u).mem.unlogged = m := by
  split <;> assumption

/-- A count of a correctable error is a log. -/
theorem eccCount_unlogged (s : State) (w : Nat) : (s.eccCount w).mem.unlogged = s.mem.unlogged := by
  have counted (m : Mem) (a b : BitVec 16) :
      (if inMram w then { m with mcnt := a } else { m with scnt := b }).unlogged = m.unlogged := by
    split <;> rfl
  unfold State.eccCount
  refine unlogged_ite ((eccFlag_unlogged _ _ _).trans ?_) ?_ <;>
    · rw [occur_mem, eccFlag_unlogged]
      exact (counted _ _ _).trans (eccRecord_unlogged s w false)

theorem eccUncor_unlogged (s : State) (w : Nat) (b : BitVec 7) : (s.eccUncor w b).mem.unlogged = s.mem.unlogged := by
  rw [eccUncor_mem]
  rfl

/-- Error classes are no part of the log. -/
theorem eccOf_unlogged {m n : Mem} (h : m.unlogged = n.unlogged) (w : Nat) : m.eccOf w = n.eccOf w :=
  (congrArg (Mem.eccOf · w) h :)

theorem pendSeq_unlogged {m n : Mem} (h : m.unlogged = n.unlogged) : m.pendSeq = n.pendSeq :=
  (congrArg Mem.pendSeq h :)

/-! ## Writes of a word (R195, R203, R205) -/

theorem supersede_eccOf (s : State) (w x : Nat) : (s.supersede w).mem.eccOf x = s.mem.eccOf x := by
  unfold State.supersede
  dsimp only
  split <;> rfl

/-- A full write leaves the check bits that it injects; a partial one makes an uncorrectable word poison. -/
theorem writeWord_eccOf (s : State) (w : Nat) (d : DWord) (m : BitVec 8) (inj : Nat) :
    (s.writeWord w d m inj).mem.eccOf w = if m ≠ 0xFF ∧ 2 ≤ s.mem.eccOf w then 3 else inj := by
  have poison : ((!m == 0xFF) && decide (2 ≤ s.mem.eccOf w)) = true ↔ m ≠ 0xFF ∧ 2 ≤ s.mem.eccOf w := by simp
  simp only [State.writeWord, supersede_eccOf, poison]
  split
  · rw [eccOf_unlogged (eccUncor_unlogged _ _ _), setMem_mem, eccOf_setEcc]
  · rw [setMem_mem, eccOf_setEcc]

/-! ## The oldest entry (R194, R195) -/

/-- What the write of the oldest entry leaves of memory, but for MEM_CTL.INJ. -/
theorem wbWriteOne_entry {s : State} {e : WbEntry} {r : List WbEntry} (h : s.mem.wbuf = e :: r) :
    s.wbWriteOne.mem.cells = putMasked s.mem.cells e.word e.data e.mask ∧
      s.wbWriteOne.mem.eccOf e.word = if e.mask ≠ 0xFF ∧ 2 ≤ s.mem.eccOf e.word then 3 else e.inj := by
  have put := (writeWord_mem (s.setMem { s.mem with wbuf := r }) e.word e.data e.mask e.inj).2
  have cls := writeWord_eccOf (s.setMem { s.mem with wbuf := r }) e.word e.data e.mask e.inj
  unfold State.wbWriteOne
  rw [h]
  dsimp only
  rw [occur_mem]
  split <;> exact ⟨put, cls⟩

/-! ## Reads of a word (R199 to R201, R206) -/

theorem eccRead_clean {s : State} {w : Nat} (h : s.mem.eccOf w = 0) (scrub : Bool) : s.eccRead w scrub = (s, true) := by
  unfold State.eccRead
  rw [h]
  rfl

theorem eccRead_uncorrectable {s : State} {w : Nat} (h : 2 ≤ s.mem.eccOf w) (scrub : Bool) : s.eccRead w scrub =
    (s.eccUncor w (if scrub then 0x20 else if inMram w then 0x10 else 0x08), false) := by
  obtain ⟨k, hk⟩ := Nat.exists_eq_add_of_le' h
  unfold State.eccRead
  rw [hk]
  rfl

/-- A read of a word leaves a SEQ held for the boundary. -/
theorem eccRead_pendSeq (s : State) (w : Nat) (scrub : Bool) : (s.eccRead w scrub).1.mem.pendSeq = s.mem.pendSeq := by
  have counted := pendSeq_unlogged (eccCount_unlogged s w)
  unfold State.eccRead
  split
  case h_1 => rfl
  case h_2 =>
    dsimp only
    split
    · exact counted
    · split <;> exact counted
  case h_3 => exact pendSeq_unlogged (eccUncor_unlogged s w _)

end Sys2Proof.Machine
end

section
/-!
PROOFS. The write buffer's oldest entry and the scrubbers' reads (R194, R195, R201, R205, R206).
-/

namespace Sys2Proof.Machine

/-! ## The write buffer -/

theorem writeBufferEntryWrite_next {s : State} (hp : s.powered = true) (hw : s.mem.wbuf ≠ [])
    (hs : ∀ k, (s.sh k).stalled = false) : exec .writeBufferEntryWrite s = .next s.wbWriteOne := by
  change whenever s (!s.mem.wbuf.isEmpty) (fun s => s.wbWriteOne.stallLand) = _
  rw [whenever_holds hp (by simpa using hw), stallLand_none ((wbWriteOne_within s).stalled rfl hs)]

/-! ## The scrubbers (R206, R207) -/

/-- The number, in its memory, of the word that a scrubber reads next. -/
def Mem.scrubWord (m : Mem) (mram : Bool) : Nat := if mram then m.scrubM else m.scrubS

/-- The address of the word that a scrubber reads next. -/
def Mem.scrubAddr (m : Mem) (mram : Bool) : Nat := (if mram then 0x08000000 else 0x20000000) + 8 * m.scrubWord mram

/-- A scrubber goes on to the word after `k`, and counts a pass at the end of its memory. -/
def Mem.scrubbed (m : Mem) (mram : Bool) (k : Nat) : Mem :=
  let wrap := decide (scrubWords mram ≤ k + 1)
  let next := if wrap then 0 else k + 1
  if mram then { m with scrubM := next, mpass := if wrap then m.mpass + 1 else m.mpass }
  else { m with scrubS := next, spass := if wrap then m.spass + 1 else m.spass }

/-- A scrub read of a word that the write buffer does not hold. -/
theorem scrub_eq {s : State} {mram : Bool} (h : s.mem.entryOf (s.mem.scrubAddr mram) = none) :
    s.scrub mram = (s.eccRead (s.mem.scrubAddr mram) true).1.setMem
      ((s.eccRead (s.mem.scrubAddr mram) true).1.mem.scrubbed mram (s.mem.scrubWord mram)) := by
  simp only [Mem.scrubAddr, Mem.scrubWord] at h
  simp only [State.scrub, h]
  rfl

/-- The walk of a scrubber names no byte of memory and no flag of an error. -/
theorem scrubbed_keeps (m : Mem) (mram : Bool) (k : Nat) :
    (m.scrubbed mram k).eccstat = m.eccstat ∧ (m.scrubbed mram k).eccAddr = m.eccAddr ∧
      (m.scrubbed mram k).uncor = m.uncor ∧ (m.scrubbed mram k).cells = m.cells ∧ (m.scrubbed mram k).busy = m.busy ∧
      (m.scrubbed mram k).act = m.act ∧
      (m.scrubbed mram k).scrubWord mram = if decide (scrubWords mram ≤ k + 1) then 0 else k + 1 := by
  cases mram <;> exact ⟨rfl, rfl, rfl, rfl, rfl, rfl, rfl⟩

theorem scrubRead_next {s : State} {mram : Bool} (hp : s.powered = true) (ht : s.tmp.counting = true)
    (hc : s.sys.coreStopped = false) (hr : (if mram then s.mem.men else s.mem.sen) = true) :
    exec (.scrubRead mram) s = .next (s.scrub mram) :=
  whenever_holds hp (by rw [ht, hc, hr]; rfl) fun s => s.scrub mram

theorem scrub_clean {s : State} {mram : Bool} (h : s.mem.entryOf (s.mem.scrubAddr mram) = none)
    (h0 : s.mem.eccOf (s.mem.scrubAddr mram) = 0) :
    s.scrub mram = s.setMem (s.mem.scrubbed mram (s.mem.scrubWord mram)) := by
  rw [scrub_eq h, eccRead_clean h0]

theorem scrub_uncorrectable {s : State} {mram : Bool} (h : s.mem.entryOf (s.mem.scrubAddr mram) = none)
    (h2 : 2 ≤ s.mem.eccOf (s.mem.scrubAddr mram)) :
    s.scrub mram = (s.eccUncor (s.mem.scrubAddr mram) 0x20).setMem
      ((s.eccUncor (s.mem.scrubAddr mram) 0x20).mem.scrubbed mram (s.mem.scrubWord mram)) := by
  rw [scrub_eq h, eccRead_uncorrectable h2]
  rfl

/-- Settles O29: the entry by `wbWriteOne_entry`, the scrubbers by their reads of clean and uncorrectable words. -/
theorem writeBufferAndScrubbersWork : Obligations.WriteBufferAndScrubbersWork := by
  unfold Obligations.WriteBufferAndScrubbersWork
  refine fun s hp => ⟨fun e r hw wf hs => ?entry, fun mram ht hc hr => ?scrub⟩
  case entry =>
    have next := writeBufferEntryWrite_next hp (by rw [hw]; exact List.cons_ne_nil e r) hs
    obtain ⟨cells, cls⟩ := wbWriteOne_entry hw
    refine (wbWriteOne_within s).touches next rfl ⟨?_, fun x => ?_, cls⟩
    · rw [wbWriteOne_wbuf, hw, List.drop_one, List.tail_cons]
    · rw [cells]
      exact cellAt_putMasked _ _ _ _ x wf
  case scrub =>
    intro k w wraps next hn
    have run := scrubRead_next hp ht hc hr
    refine ⟨fun h0 => ?clean, fun h2 => ?uncorrectable⟩
    case clean =>
      rw [run, scrub_clean hn h0]
      rfl
    case uncorrectable =>
      rw [run, scrub_uncorrectable hn h2]
      obtain ⟨stat, addr, uncor, cells, busy, act, word⟩ := scrubbed_keeps (s.eccUncor w 0x20).mem mram k
      have kept := eccUncor_mem s w 0x20
      have within := Within.after (setMem_flags_within _ _ cells busy act) (eccUncor_within s w 0x20)
      refine within.touches rfl rfl ⟨?_, ?_, ?_, eccFlag_pends _ _, ?_, word⟩
      · rw [setMem_mem, stat, kept, BitVec.getLsbD_or]
        exact Bool.or_true _
      · exact addr.trans (by rw [kept])
      · exact uncor.trans (by rw [kept])
      · exact cells.trans (by rw [kept])

end Sys2Proof.Machine
end

section
/-!
PROOFS. Commits of the persistent banks: an accepted MEM_PCOMMIT, the boundary of domain PERSIST and the end of a commit (R218 to
R222).
-/

namespace Sys2Proof.Machine

/-! ## What a bank reads as -/

theorem byte_of_cells {s t : State} (h : t.mem.cells = s.mem.cells) (a : Nat) : t.byte a = s.byte a := by
  simp only [State.byte, h]

theorem bytes_of_cells {s t : State} (h : t.mem.cells = s.mem.cells) (a n : Nat) : t.bytes a n = s.bytes a n := by
  induction n generalizing a with
  | zero => rfl
  | succ n ih => simp only [State.bytes, byte_of_cells h, ih]

theorem crcOver_of_cells {s t : State} (h : t.mem.cells = s.mem.cells) (a n c : Nat) : t.crcOver a n c = s.crcOver a n c := by
  induction n generalizing a c with
  | zero => rfl
  | succ n ih => simp only [State.crcOver, byte_of_cells h, ih]

theorem activeSeq_of_mem {s t : State} (h : t.mem = s.mem) : t.activeSeq = s.activeSeq := by
  simp only [State.activeSeq, State.bankSeq, h, bytes_of_cells (congrArg Mem.cells h)]

/-! ## An accepted MEM_PCOMMIT (R220) -/

/-- A write of MEM_PCOMMIT with this SEQ is accepted: no commit is armed or under way, and SEQ is in range and above the active
bank's. -/
theorem pcommitCheck_accepts {s : State} {q : Nat} (ha : s.armed.getLsbD 8 = false) (hb : s.mem.busy = none) (h1 : 1 ≤ q)
    (h2 : q ≤ 0x7FFFFFFE) (hs : s.mem.act = .none ∨ s.activeSeq < q) : s.pcommitCheck q = 0 := by
  have idle : ¬(s.isArmed 8 = true ∨ s.mem.busy.isSome = true) := by
    rw [State.isArmed, ha, hb]
    decide
  have range : ¬(q = 0 ∨ 0x7FFFFFFE < q) := by omega
  have above : ¬(s.mem.act ≠ .none ∧ q ≤ s.activeSeq) := by
    rintro ⟨hact, hq⟩
    rcases hs with h | h
    · exact hact h
    · omega
  rw [State.pcommitCheck, if_neg idle, if_neg range, if_neg above]

theorem pcommitWrite_takes {s : State} (arm : Bool) (q : BitVec 31) (h : s.pcommitCheck q.toNat = 0) :
    s.memWrite 0x18 (BitVec.ofBool arm ++ q) = (s.pcommit arm q, 0) := by
  have seq : (BitVec.ofBool arm ++ q : Word).extractLsb' 0 31 = q := BitVec.extractLsb'_append_eq_right
  have bit31 : bit (BitVec.ofBool arm ++ q) 31 = arm := by
    rw [bit_eq_getLsbD, BitVec.getLsbD_append]
    cases arm <;> rfl
  have ok : s.pcommitCheck (fld (BitVec.ofBool arm ++ q) 0 31) = 0 := by rw [fld_eq_extractLsb', seq, h]
  change (if s.pcommitCheck _ ≠ 0 then _ else _) = _
  rw [if_neg (not_not.mpr ok), seq, bit31]

/-- A commit starts with the buffer drained (R222). -/
theorem commitStart_eq (s : State) (q : BitVec 31) : s.commitStart q = { s.wbDrain with
    mem := { s.wbDrain.mem with busy := some q, pendDue := false }, eng := { s.wbDrain.eng with stopped := false } } := by
  unfold State.commitStart
  generalize s.wbDrain = t
  rfl

theorem pcommit_starts (s : State) (q : BitVec 31) :
    s.pcommit false q = ({ s with mem := { s.mem with pendSeq := none } } : State).commitStart q := by
  rw [State.pcommit, if_neg Bool.false_ne_true]
  rfl

theorem pcommit_secx (s : State) (arm : Bool) (q : BitVec 31) : (s.pcommit arm q).secx = s.secx := by
  cases arm
  · exact (commitStart_within _ q).secx rfl
  · rfl

/-- An accepted write of MEM_PCOMMIT by any initiator. -/
theorem pcommit_written {o : Out} {s : State} {i : Initiator} {arm : Bool} {q : BitVec 31}
    (ho : o = whenPowered s fun s => s.writeBy i 0x40002018 (BitVec.ofBool arm ++ q)) (hp : s.powered = true)
    (hr : s.reaches i 0x40002018 true = true) (hc : s.pcommitCheck q.toNat = 0) :
    Written o s i 0x40002018 fun u => (u.pcommit arm q).afterWrite := by
  refine core_written ho hp rfl hr fun u hu => ⟨?_, pcommit_secx u arm q⟩
  have hw := atBus_within hu
  have same : u.pcommitCheck q.toNat = s.pcommitCheck q.toNat := by
    unfold State.pcommitCheck State.isArmed
    rw [hw.armed rfl, activeSeq_of_mem (hw.mem rfl), hw.mem rfl]
  exact pcommitWrite_takes arm q (same.trans hc)

/-! ## The boundary of domain PERSIST (R221) -/

theorem persistBoundaryTick_next {s : State} (hp : s.powered = true) (ht : s.tmp.counting = true)
    (hc : s.sys.coreStopped = false) (hl : s.localTickRules = true) :
    exec .persistBoundaryTick s = .next s.persistBoundary :=
  whenever_holds hp (by rw [ht, hl, hc]; rfl) State.persistBoundary

section
variable {s : State} (ha : s.armed.getLsbD 8 = true)
include ha

theorem persistBoundary_unheld (hn : s.mem.pendSeq = none) :
    s.persistBoundary = (s.disarm 8).setMem { s.mem with noseq := true } := by
  have armed : s.isArmed 8 = true := ha
  simp only [State.persistBoundary, armed, if_true, disarm_mem, hn]

theorem persistBoundary_waits {q : BitVec 31} (hq : s.mem.pendSeq = some q) (hb : s.mem.busy ≠ none) :
    s.persistBoundary = (s.disarm 8).setMem { s.mem with pendDue := true } := by
  have armed : s.isArmed 8 = true := ha
  simp only [State.persistBoundary, armed, if_true, disarm_mem, hq, Option.isSome_iff_ne_none.mpr hb]

theorem persistBoundary_starts {q : BitVec 31} (hq : s.mem.pendSeq = some q) (hb : s.mem.busy = none) :
    s.persistBoundary = ((s.disarm 8).setMem { s.mem with pendSeq := none }).commitStart q := by
  have armed : s.isArmed 8 = true := ha
  simp only [State.persistBoundary, armed, if_true, disarm_mem, hq, hb, Option.isSome_none, Bool.false_eq_true, if_false]

end

/-! ## The end of a commit (R222) -/

theorem foldl_eccRead_pendSeq (l : List Nat) (s : State) :
    (l.foldl (fun s w => (s.eccRead w false).1) s).mem.pendSeq = s.mem.pendSeq := by
  induction l generalizing s with
  | nil => rfl
  | cons w l ih => rw [List.foldl_cons, ih, eccRead_pendSeq]

theorem readBank_pendSeq (s : State) (bk : Bank) : (s.readBank bk).mem.pendSeq = s.mem.pendSeq := foldl_eccRead_pendSeq _ s

/-- A commit of a bank with an uncorrectable payload word leaves FAIL and MEMERR, and no byte changes. -/
theorem commitHeader_fails (s : State) (bk : Bank) (q : BitVec 31) :
    (s.commitHeader bk true q).mem = { s.mem with fail := true, busy := none } ∧
      (s.commitHeader bk true q).eng.evpend.getLsbD 14 = true :=
  ⟨event_mem (s.setMem { s.mem with fail := true, busy := none }) 14, event_pends _ 14⟩

theorem commitHeader_pendSeq (s : State) (bk : Bank) (bad : Bool) (q : BitVec 31) :
    (s.commitHeader bk bad q).mem.pendSeq = s.mem.pendSeq := by
  cases bad
  · rfl
  · exact (congrArg Mem.pendSeq (commitHeader_fails s bk q).1 :)

/-- With no SEQ held, the bank is read, its header written, and the core may stop. -/
theorem commitEnd_idle {s : State} (h : s.mem.pendSeq = none) (q : BitVec 31) : s.commitEnd q =
    (((s.readBank (inactiveBank s.mem.act)).commitHeader (inactiveBank s.mem.act)
      (s.badWord (bankBase (inactiveBank s.mem.act)) 0x7FF8) q).checkStop) := by
  simp only [State.commitEnd, State.commitNext, commitHeader_pendSeq, readBank_pendSeq, h]

theorem checkStop_mem (s : State) : s.checkStop.mem = s.mem := (checkStop_within s).mem rfl

theorem checkStop_evpend (s : State) : s.checkStop.eng.evpend = s.eng.evpend := by
  rw [checkStop_eq]
  split <;> rfl

/-- The header of a commit is eight bytes: SEQ, then the inverted CRC-32 over the payload (R218). -/
def State.header (s : State) (bk : Bank) (q : BitVec 31) : Nat :=
  q.toNat + (s.crcOver (bankBase bk) 0x7FF8 0xFFFFFFFF ^^^ 0xFFFFFFFF) * 2 ^ 32

theorem commitHeader_cells {s : State} (wf : Memory.wf s.mem = true) (bk : Bank) (q : BitVec 31) (x : Nat) :
    cellAt (s.commitHeader bk false q).mem.cells x =
      if bankBase bk + 0x7FF8 ≤ x ∧ x < bankBase bk + 0x8000 then
        BitVec.ofNat 8 (s.header bk q >>> (8 * (x - (bankBase bk + 0x7FF8))))
      else cellAt s.mem.cells x := by
  rw [State.header, ← Nat.shiftLeft_eq]
  exact cellAt_poke s (bankBase bk + 0x7FF8) 8 _ x wf

theorem header_of_cells {s t : State} (h : t.mem.cells = s.mem.cells) (bk : Bank) (q : BitVec 31) :
    t.header bk q = s.header bk q := by
  rw [State.header, crcOver_of_cells h, State.header]

theorem persistCommitComplete_next {s : State} {q : BitVec 31} (hp : s.powered = true) (hb : s.mem.busy = some q) :
    exec .persistCommitComplete s = .next (s.commitEnd q) := by
  change execPersistCommitComplete s = _
  simp only [execPersistCommitComplete, hb]
  exact whenever_holds hp rfl _

/-- The bank that a commit takes, at its base address (R219). -/
theorem bankBase_inactive (bk : Bank) : bankBase (inactiveBank bk) = if bk = .a then 0x081F8000 else 0x081F0000 := by
  cases bk <;> rfl

theorem inactiveBank_eq (bk : Bank) : inactiveBank bk = if bk = .a then .b else .a := by
  cases bk <;> rfl

/-- Settles O30: a write and a boundary by what each makes of the held SEQ, and the end of a commit by its header's two cases. -/
theorem persistCommitsRunTheirSteps : Obligations.PersistCommitsRunTheirSteps := by
  unfold Obligations.PersistCommitsRunTheirSteps
  refine ⟨fun i seq s hp => ?begins, fun q s hp hb hn wf => ?ends⟩
  case begins =>
    intro started free
    have starts (u : State) (q : BitVec 31) : started u q = u.commitStart q := (commitStart_eq u q).symm
    refine ⟨fun hr ⟨ha, hb, h1, h2, hs⟩ => ?accepted, fun ht hc hl ha => ?boundary⟩
    case accepted =>
      have ok := pcommitCheck_accepts ha hb h1 h2 hs
      have immediate := pcommit_written (o := exec (.pcommitImmediate i seq) s) (arm := false) rfl hp hr ok
      simp only [pcommit_starts] at immediate
      refine ⟨?_, pcommit_written (arm := true) rfl hp hr ok⟩
      simp only [starts]
      exact immediate
    case boundary =>
      intro u
      have next := persistBoundaryTick_next hp ht hc hl
      refine ⟨fun hn => ?unheld, fun q hq => ⟨fun hb => ?waits, fun hb => ?starts⟩⟩
      case unheld => exact next.trans (congrArg _ (persistBoundary_unheld ha hn))
      case waits => exact next.trans (congrArg _ (persistBoundary_waits ha hq hb))
      case starts =>
        rw [starts, next, persistBoundary_starts ha hq hb]
        rfl
  case ends =>
    intro base
    have hbase : bankBase (inactiveBank s.mem.act) = base := bankBase_inactive _
    have next := persistCommitComplete_next hp hb
    have read := readBank_within s (inactiveBank s.mem.act)
    have cells := read.cells rfl
    rw [commitEnd_idle hn, hbase] at next
    refine ⟨fun bad => ?fails, fun good => ?completes⟩
    case fails =>
      rw [bad] at next
      obtain ⟨mem, pends⟩ := commitHeader_fails (s.readBank (inactiveBank s.mem.act)) (inactiveBank s.mem.act) q
      refine ⟨_, next, ?_⟩
      rw [checkStop_mem, checkStop_evpend, mem]
      exact ⟨rfl, rfl, (read.bank rfl).2, cells, pends⟩
    case completes =>
      intro crc
      rw [good] at next
      refine ⟨_, next, ?_⟩
      rw [checkStop_mem]
      refine ⟨rfl, rfl, inactiveBank_eq _, fun x => ?_⟩
      rw [commitHeader_cells (by rw [Memory.wf, cells]; exact wf), header_of_cells cells, cells, State.header, hbase]

end Sys2Proof.Machine
end

section
/-!
SUPPORT. A command word of the drive: what its checks leave unchanged, what its status rests on, and the outcome of each check
(R236 to R241, R246).
-/

namespace Sys2Proof.Machine

/-! ## What a command leaves unchanged -/

theorem joinQueue_within (s : State) (t : Fin 3) (e : QEntry) : Within [.drv, .flw] s (s.joinQueue t e) := modDrv_within s _

theorem release_within (s : State) (v : Fin 24) (prof : BitVec 4) : Within [.drv, .flw] s (s.release v prof) := by
  unfold State.release
  split
  · exact .mono (.after (post_within _ _ _ _ _ _ _) (modDrv_within s _)) rfl
  · dsimp only
    split
    · exact toEnd_within s v _ _
    · exact modDrv_within s _
    · exact toEnd_within s v _ _

theorem cancelValve_within (s : State) (v : Fin 24) : Within [.drv, .flw] s (s.cancelValve v) := by
  have entries (s : State) (es : List QEntry) :
      Within [.drv, .flw] s (es.foldl (fun s e => s.endEntry (treadleOf v) e 5) s) :=
    within_foldl _ (fun s e => endEntry_within s _ e 5) es s
  unfold State.cancelValve
  split
  · exact .refl _ s
  refine Within.trans ?_ (entries _ _)
  split
  · exact within_ite (endEarly_within s v 5) (.refl [] s)
  · exact .refl _ s

theorem accept_within (s : State) (v : Fin 24) (prof : BitVec 4) (prio prediag : Bool) :
    Within [.drv, .flw] s (s.accept v prof prio prediag).1 := by
  have join {u : State} (h : Within [.drv, .flw] s u) (e : QEntry) :
      Within [.drv, .flw] s (u.joinQueue (treadleOf v) e) := h.trans (joinQueue_within u _ e)
  have reversed (c : Bool) : Within [.drv, .flw] s (if c then s.endEarly v 7 else s) :=
    within_ite (endEarly_within s v 7) (.refl [] s)
  unfold State.accept
  dsimp only
  split
  · exact release_within s v prof
  split
  · exact .refl _ s
  split
  · exact (reversed _).trans (post_within _ _ _ _ _ _ _)
  split
  · exact join (reversed _) _
  split
  · exact join (reversed _) _
  split
  · exact join (reversed _) _
  · exact join (reversed _) _

/-! ## What an acceptance's status rests on -/

theorem entryProfile_congr {s u : State} (h : u.drv = s.drv) (e : QEntry) : u.entryProfile e = s.entryProfile e := by
  simp only [State.entryProfile, State.nodeProfile, h]

theorem passes_congr {s u : State} (h : u.drv = s.drv) (q : List QEntry) (c : Bool) : u.passes q c = s.passes q c := by
  induction q generalizing c with
  | nil => rfl
  | cons e r ih => simp only [State.passes, entryProfile_congr h, h, ih]

theorem atStart_congr {s u : State} (h : u.drv = s.drv) (t : Fin 3) (v : Fin 24) (p : Profile) (q : List QEntry) :
    u.atStart t v p q = s.atStart t v p q := by
  simp only [State.atStart, passes_congr h, h]

/-- The status of an acceptance rests on the drive alone. -/
theorem accept_status_congr {s u : State} (h : u.drv = s.drv) (v : Fin 24) (prof : BitVec 4) (prio prediag : Bool) :
    (u.accept v prof prio prediag).2 = (s.accept v prof prio prediag).2 := by
  simp only [State.accept, atStart_congr h, h, apply_ite Prod.snd]

/-! ## The outcome of each check (R238) -/

theorem lifecycle_congr {s u : State} (h : u.mem = s.mem) : u.lifecycle = s.lifecycle := by
  have hc : u.lcfuse = s.lcfuse := bytes_of_cells (congrArg Mem.cells h) 0x40100084 4
  simp only [State.lifecycle, hc]

/-- A command word that names a valve and sets no reserved bit. -/
structure CmdWord (w : Word) (x : Fin 24) : Prop where
  valve : w.extractLsb' 0 5 = BitVec.ofNat 5 x.val
  low : w.extractLsb' 5 3 = 0
  high : w.extractLsb' 15 17 = 0

/-- The profile of a command is valid: a release asks no more of it than that it is marked so (R235, R236). -/
def Drv.cmdOk (d : Drv) (v : Fin 24) (p : Profile) : Bool :=
  if d.held (treadleOf v) && p.closes then p.valid else d.profOk p v

theorem command_wellFormed {w : Word} {x : Fin 24} (h : CmdWord w x) (s : State) :
    s.command w =
      let v := s.drv.even x
      let prof := w.extractLsb' 8 4
      let p := s.drv.profileAt prof.toNat
      if w.getLsbD 14 then (s.cancelValve v, 0, 0)
      else if s.lifecycle = 3 ∧ p.closes = false then (s, 0, 5)
      else if s.drv.cmdOk v p = false then (s, 0, 4)
      else if (s.drv.valves.get v).notfit then (s.post p.closes v prof.toNat 13 0 0, 0, 0)
      else if s.nrgx.laState ≠ .idle then (s.post p.closes v prof.toNat 4 0 0, 0, 1)
      else ((s.accept v prof (w.getLsbD 13) (w.getLsbD 12)).1, 0, (s.accept v prof (w.getLsbD 13) (w.getLsbD 12)).2) := by
  have hv : fld w 0 5 = x.val := by
    rw [fld_eq_extractLsb', h.valve, BitVec.toNat_ofNat]
    omega
  unfold State.command
  dsimp only
  rw [dif_pos (hv ▸ x.isLt), if_neg (by simp [fld_zero_iff, h.low, h.high])]
  simp only [hv, ofNat_fld, bit_eq_getLsbD, Bool.not_eq_true', Drv.cmdOk, Fin.eta]
  rfl

theorem command_malformed {w : Word}
    (h : 24 ≤ (w.extractLsb' 0 5).toNat ∨ w.extractLsb' 5 3 ≠ 0 ∨ w.extractLsb' 15 17 ≠ 0) (s : State) :
    s.command w = (s, 3, 0) := by
  unfold State.command
  dsimp only
  split
  · next hv =>
    rw [fld_eq_extractLsb'] at hv
    rw [if_pos]
    rw [ne_eq, ne_eq, fld_zero_iff, fld_zero_iff]
    rcases h with h | h | h
    · omega
    · exact .inr h
    · exact .inl h
  · rfl

/-- A command word that is not malformed is well-formed. -/
theorem cmdWord_of_not {w : Word}
    (h : ¬ (24 ≤ (w.extractLsb' 0 5).toNat ∨ w.extractLsb' 5 3 ≠ 0 ∨ w.extractLsb' 15 17 ≠ 0)) : ∃ x, CmdWord w x := by
  simp only [not_or, not_not, Nat.not_le] at h
  obtain ⟨hv, hl, hh⟩ := h
  exact ⟨⟨_, hv⟩, by rw [BitVec.ofNat_toNat, BitVec.setWidth_eq], hl, hh⟩

theorem command_within (s : State) (w : Word) : Within [.drv, .flw] s (s.command w).1 := by
  by_cases h : 24 ≤ (w.extractLsb' 0 5).toNat ∨ w.extractLsb' 5 3 ≠ 0 ∨ w.extractLsb' 15 17 ≠ 0
  · rw [command_malformed h]
    exact .refl _ s
  obtain ⟨x, hx⟩ := cmdWord_of_not h
  rw [command_wellFormed hx]
  dsimp only
  split
  · exact cancelValve_within s _
  split
  · exact .refl _ s
  split
  · exact .refl _ s
  split
  · exact post_within _ _ _ _ _ _ _
  split
  · exact post_within _ _ _ _ _ _ _
  · exact accept_within s _ _ _ _

/-- The answer to a command rests on the drive, the last act's state and the lifecycle fuses. -/
theorem command_answer_congr {s u : State} (hd : u.drv = s.drv) (hn : u.nrgx = s.nrgx) (hm : u.mem = s.mem) (w : Word) :
    (u.command w).2 = (s.command w).2 := by
  have accepted := accept_status_congr hd
  simp only [State.command, hd, hn, lifecycle_congr hm, apply_ite Prod.snd, apply_dite Prod.snd, accepted]

end Sys2Proof.Machine
end

section
/-!
PROOFS. Command words through DRV_CMD, CANCEL, the release of a HELD valve and DRV (R128, R175, R176, R236 to R239), and the
statement about them.
-/

namespace Sys2Proof.Machine

/-! ## The rows that write DRV_CMD -/

/-- A write of DRV_CMD that the DMI answers with a status but a full queue's: `f` is what the command makes of the state. -/
theorem cmd_written {o : Out} {s : State} {i : Initiator} {w : Word} {f : State → State} {k : Nat}
    (ho : o = whenPowered s fun s => s.writeBy i drvCmdAddr w) (hp : s.powered = true) (hd : s.sys.runDmi = true)
    (hr : s.reaches i drvCmdAddr true = true) (hk : k ≠ 2) (hc : ∀ u, Within [.eng] s u → u.command w = (f u, 0, k)) :
    Written o s i drvCmdAddr fun u => ((f u).modDrv fun d => { d with cmdstat := BitVec.ofNat 3 k }).afterWrite := by
  have run : s.islandOff (blockOf drvCmdAddr) = false := by
    change (true && !s.sys.runDmi || false && !s.sys.runRad) = false
    rw [hd]
    rfl
  rw [ho, whenPowered_powered hp]
  refine writeBy_written s i drvCmdAddr w (fun u => (f u).modDrv fun d => { d with cmdstat := BitVec.ofNat 3 k }) rfl rfl
    (by decide) run rfl hr fun u hu => ⟨?takes, burnBegun_none ?fuses⟩
  case takes =>
    change u.cmdWrite w = _
    simp only [State.cmdWrite, hc u (atBus_within hu), if_neg hk]
  case fuses =>
    have within := command_within u w
    rw [hc u (atBus_within hu)] at within
    exact within.secx rfl

theorem cmdWord_cancel (x : Fin 24) :
    let w := place 1 14 ||| place (BitVec.ofNat 5 x.val).toNat 0
    CmdWord w x ∧ w.getLsbD 14 = true := by
  have hv := (BitVec.ofNat 5 x.val).isLt
  have h1 : 1 < 2 ^ 1 := by decide
  dsimp only
  refine ⟨⟨?_, ?_, ?_⟩, by simp [getLsbD_place]⟩
  · rw [BitVec.extractLsb'_or, extract_place_other h1 (by omega), extract_place_same _ (by decide), BitVec.ofNat_toNat,
      BitVec.setWidth_eq]
    exact BitVec.zero_or
  · rw [BitVec.extractLsb'_or, extract_place_other h1 (by omega), extract_place_other hv (by omega)]
    rfl
  · rw [BitVec.extractLsb'_or, extract_place_other h1 (by omega), extract_place_other hv (by omega)]
    rfl

theorem cmdWord_release (x : Fin 24) (prof : BitVec 4) :
    let w := place prof.toNat 8 ||| place (BitVec.ofNat 5 x.val).toNat 0
    CmdWord w x ∧ w.extractLsb' 8 4 = prof ∧ w.getLsbD 14 = false := by
  have hv := (BitVec.ofNat 5 x.val).isLt
  have hp := prof.isLt
  dsimp only
  refine ⟨⟨?_, ?_, ?_⟩, ?_, ?_⟩
  · rw [BitVec.extractLsb'_or, extract_place_other hp (by omega), extract_place_same _ (by decide), BitVec.ofNat_toNat,
      BitVec.setWidth_eq]
    exact BitVec.zero_or
  · rw [BitVec.extractLsb'_or, extract_place_other hp (by omega), extract_place_other hv (by omega)]
    rfl
  · rw [BitVec.extractLsb'_or, extract_place_other hp (by omega), extract_place_other hv (by omega)]
    rfl
  · rw [BitVec.extractLsb'_or, extract_place_same _ (by decide), extract_place_other hv (by omega), BitVec.ofNat_toNat,
      BitVec.setWidth_eq]
    exact BitVec.or_zero
  · rw [BitVec.getLsbD_or, getLsbD_place, getLsbD_place, testBit_of_lt hp (by decide), testBit_of_lt hv (by decide)]
    rfl

/-- A release that nothing queued precedes acts as it is accepted (R236). -/
theorem accept_release {s : State} {v : Fin 24} {prof : BitVec 4} (prio prediag : Bool)
    (hh : s.drv.held (treadleOf v) = true) (hc : (s.drv.profileAt prof.toNat).closes = true) (hs : s.drv.seqMode = .idle)
    (hq : ((s.drv.trd.get (treadleOf v)).queue.any fun e => e.valve = v) = false) :
    s.accept v prof prio prediag = (s.release v prof, 0) := by
  unfold State.accept
  dsimp only
  rw [if_pos (by rw [hh, hc, hq, hs]; rfl)]

/-! ## DRV (R128, R175, R176) -/

/-- While the DMI runs, DRV returns the status and crosses to the DMI. -/
theorem drvExec_answers {u : State} {w : Word} {k : Nat} (i : Fin 4) (rd : Fin 16) (hd : u.sys.runDmi = true)
    (hc : (u.command w).2 = (0, k)) : u.drvExec i rd w =
      ((u.command w).1.setReg i rd (BitVec.ofNat 32 k)).crossed i [(.dmi, u.crossCost 125)] := by
  have cost : ((u.command w).1.setReg i rd (BitVec.ofNat 32 k)).crossCost 125 = u.crossCost 125 :=
    congrArg (fun x : Sys => 4 + ceilDiv (125 * (x.sourceKHz / 2 ^ x.div.toNat)) 1000000) ((command_within u w).sys rfl)
  rcases hu : u.command w with ⟨t, c, st⟩
  rw [hu] at hc cost
  cases hc
  simp only [State.drvExec, hd, State.drvAnswer, hu, cost, if_true]

/-- A malformed word is answered by an error response (R176). -/
theorem drvExec_refuses {u : State} {w : Word} (i : Fin 4) (rd : Fin 16) (hd : u.sys.runDmi = true)
    (hc : u.command w = (u, 3, 0)) : u.drvExec i rd w = u.busError i true 3 7 (BitVec.ofNat 32 drvCmdAddr) := by
  simp only [State.drvExec, hd, State.drvAnswer, hc, if_true]

/-- An error response with the shuttle READY and outside an exception: its record, and the exception (R135, R209). -/
theorem busError_noted (s : State) (n : Noted) (i : Fin 4) (wr : Bool) (cause exc : Nat) (a : Word)
    (h : (s.sh i).inexc = false) (hr : (s.sh i).run = .ready) :
    ∃ m : Noted, m.cyc = n.cyc ∧ (∀ u : State, n.Counts u → m.Counts u) ∧ (s.noted n).busError i wr cause exc a =
      ((s.modSys fun x => x.recorded i.val wr cause a).modSh i fun x =>
        x.trapped (s.eng.vecbase + BitVec.ofNat 32 (0x100 * i.val)) (BitVec.ofNat 32 exc) a n.cyc).noted m := by
  obtain ⟨k, hk, ck, ek⟩ := count_tally ((s.modSys fun x => x.recorded i.val wr cause a).noted n) 0x13 none .occ 1
  have recorded : (s.noted n).record i.val wr cause a = (s.modSys fun x => x.recorded i.val wr cause a).noted k := by
    rw [← noted_noted _ n k, ← ek]
    rfl
  obtain ⟨m, hm, cm, em⟩ := raise_noted (s.modSys fun x => x.recorded i.val wr cause a) k i (BitVec.ofNat 32 exc) a h hr
  refine ⟨m, hm.trans hk, fun u hu => cm u (hu.trans (ck.congr rfl rfl (fun j => by rw [get_noted, get_noted]) rfl)), ?_⟩
  rw [State.busError, recorded, em, hk]
  rfl

/-- The checks as any access finds them that reaches DRV_CMD from `s` (R238). -/
theorem command_reached {w : Word} {x : Fin 24} (h : CmdWord w x) {s u : State} (hu : Within [.eng] s u) :
    u.command w =
      let v := s.drv.even x
      let prof := w.extractLsb' 8 4
      let p := s.drv.profileAt prof.toNat
      let accepted (s : State) := s.accept v prof (w.getLsbD 13) (w.getLsbD 12)
      if w.getLsbD 14 then (u.cancelValve v, 0, 0)
      else if s.lifecycle = 3 ∧ p.closes = false then (u, 0, 5)
      else if s.drv.cmdOk v p = false then (u, 0, 4)
      else if (s.drv.valves.get v).notfit then (u.post p.closes v prof.toNat 13 0 0, 0, 0)
      else if s.nrgx.laState ≠ .idle then (u.post p.closes v prof.toNat 4 0 0, 0, 1)
      else ((accepted u).1, 0, (accepted s).2) := by
  rw [command_wellFormed h, hu.drv rfl, hu.nrgx rfl, lifecycle_congr (hu.mem rfl)]
  simp only [accept_status_congr (hu.drv rfl)]

/-- The release of a HELD valve is answered with status 0 (R236). -/
theorem command_releases {w : Word} {x : Fin 24} {prof : BitVec 4} (h : CmdWord w x) (h14 : w.getLsbD 14 = false)
    (hprof : w.extractLsb' 8 4 = prof) {s u : State} (hh : s.drv.held (treadleOf (s.drv.even x)) = true)
    (hc : (s.drv.profileAt prof.toNat).closes = true) (hv : (s.drv.profileAt prof.toNat).valid = true)
    (hn : (s.drv.valves.get (s.drv.even x)).notfit = false) (hl : s.nrgx.laState = .idle) (hs : s.drv.seqMode = .idle)
    (hq : ((s.drv.trd.get (treadleOf (s.drv.even x))).queue.any fun e => e.valve = s.drv.even x) = false)
    (hu : Within [.eng] s u) : u.command w = (u.release (s.drv.even x) prof, 0, 0) := by
  have ok : s.drv.cmdOk (s.drv.even x) (s.drv.profileAt prof.toNat) = true := by simp [Drv.cmdOk, hh, hc, hv]
  have same := hu.drv rfl
  have released (a b : Bool) := accept_release (s := s) (v := s.drv.even x) (prof := prof) a b hh hc hs hq
  have released' (a b : Bool) := accept_release (s := u) (v := s.drv.even x) (prof := prof) a b (same ▸ hh) (same ▸ hc)
    (same ▸ hs) (same ▸ hq)
  rw [command_reached h hu, h14, hprof]
  simp [hc, ok, hn, hl, released, released']

/-- Settles O35: each row writes DRV_CMD, whose checks `command_wellFormed` gives in their order; DRV takes its status or its
error response from the same checks. -/
theorem driveCommandsAreChecked : Obligations.DriveCommandsAreChecked := by
  unfold Obligations.DriveCommandsAreChecked
  refine ⟨fun i w x s hpow hdmi hr => ?writes, fun sh rd ra s hi hu hdmi => ⟨fun k hk => ?answers, fun hx hw => ?refuses⟩⟩
  case writes =>
    intro v does
    refine ⟨fun prof hx h5 hprof h15 => ?command, ?cancel, fun prof hh hc hv hn hl hs hq => ?release⟩
    case command =>
      intro p valid does'
      have word : CmdWord w x := ⟨hx, h5, h15⟩
      have invalid : s.drv.cmdOk v p = false ↔ ¬ valid := by
        rw [← Bool.not_eq_true, not_iff_not]
        simp only [valid, Drv.cmdOk, Bool.and_eq_true]
        split <;> rfl
      have answers {f : State → State} {k : Nat} (hk : k ≠ 2) (h : ∀ u, Within [.eng] s u → u.command w = (f u, 0, k)) :
          does' f k := cmd_written rfl hpow hdmi hr hk h
      have checks {u : State} (hu : Within [.eng] s u) := hprof ▸ command_reached word hu
      split
      · next h14 => exact answers (by decide) fun u hu => (checks hu).trans (if_pos h14)
      next h14 =>
      split
      · next h3 => exact answers (by decide) fun u hu => (checks hu).trans ((if_neg h14).trans (if_pos h3))
      next h3 =>
      have past {u : State} (hu : Within [.eng] s u) := (checks hu).trans ((if_neg h14).trans (if_neg h3))
      split
      · next hok => exact answers (by decide) fun u hu => (past hu).trans (if_pos (invalid.mpr hok))
      next hok =>
      have valid {u : State} (hu : Within [.eng] s u) := (past hu).trans (if_neg (invalid.not.mpr hok))
      split
      · next hn => exact answers (by decide) fun u hu => (valid hu).trans (if_pos hn)
      next hn =>
      split
      · next hl => exact answers (by decide) fun u hu => (valid hu).trans ((if_neg hn).trans (if_pos hl))
      · next hl =>
        rintro k hk rfl
        exact answers hk fun u hu => (valid hu).trans ((if_neg hn).trans (if_neg hl))
    case cancel =>
      obtain ⟨word, h14⟩ := cmdWord_cancel x
      exact cmd_written rfl hpow hdmi hr (by decide) fun u hu => (command_reached word hu).trans (if_pos h14)
    case release =>
      obtain ⟨word, hprof, h14⟩ := cmdWord_release x prof
      exact cmd_written rfl hpow hdmi hr (by decide) fun u hu => command_releases word h14 hprof hh hc hv hn hl hs hq hu
  case answers =>
    obtain ⟨c, n, hc, hn, cn, e⟩ := instr_ok s sh hi
    have hb : s.AtBus (.shuttle sh) ((s.modSh sh fun x => x.fetched s.mem.oldNum).noted n) := ⟨c, n, hc, hn, cn, rfl⟩
    have within := atBus_within hb
    have status := (command_answer_congr (within.drv rfl) (within.nrgx rfl) (within.mem rfl) (s.reg sh ra)).trans hk
    have user : ((s.modSh sh fun x => x.fetched s.mem.oldNum).noted n).noDevice sh = false := by
      simpa [State.noDevice, State.user] using hu
    refine ⟨_, hb, congrArg Host.Outcome.next ?_⟩
    rw [e, user, reg_noted, reg_fetched]
    exact drvExec_answers sh rd hdmi status
  case refuses =>
    refine issuedOn_with hi (fun _ => rfl) fun n cn => ?_
    have user : ((s.modSh sh fun x => x.fetched s.mem.oldNum).noted n).noDevice sh = false := by
      simpa [State.noDevice, State.user] using hu
    obtain ⟨m, hm, cm, em⟩ := busError_noted (s.modSh sh fun x => x.fetched s.mem.oldNum) n sh true 3 7
      (BitVec.ofNat 32 drvCmdAddr) (by simp [hx, Shuttle.fetched]) (by simp [issues_ready hi, Shuttle.fetched])
    have counts : m.Counts (s.modSys fun x => x.recorded sh.val true 3 0x40005008) := (cm s cn).of_note rfl
    refine ⟨m, hm, counts.modSh sh _ rfl, ?_⟩
    rw [user, reg_noted, reg_fetched]
    refine Eq.trans (drvExec_refuses sh rd hdmi (command_malformed hw _)) (em.trans (congrArg (State.noted · m) ?_))
    exact modSh_modSh (s.modSys fun x => x.recorded sh.val true 3 0x40005008) sh (fun x => x.fetched s.mem.oldNum)
      fun x => x.trapped (s.eng.vecbase + BitVec.ofNat 32 (0x100 * sh.val)) 7 0x40005008 n.cyc

end Sys2Proof.Machine
end

section
/-!
SUPPORT. A running pulse of the drive: what its operations make of it and leave unchanged (R228 to R232, R273, R285,
R286).
-/

namespace Sys2Proof.Machine

/-! ## The running pulse of a valve -/

theorem pulseOf_valve {d : Drv} {v : Fin 24} {p : Pulse} (h : d.pulseOf v = some p) : p.valve = v := by
  simpa using List.find?_some h

theorem pulseOf_trd {d e : Drv} (h : e.trd = d.trd) (v : Fin 24) : e.pulseOf v = d.pulseOf v := by
  rw [Drv.pulseOf, h, Drv.pulseOf]

theorem pulseOf_setVs (d : Drv) (w v : Fin 24) (x : VState) : (d.setVs w x).pulseOf v = d.pulseOf v := by
  obtain ⟨l, hl⟩ := setVs_eq d w x
  rw [hl]
  rfl

/-- A change of a treadle's runs that keeps each pulse's valve changes the pulse of each valve alike. -/
theorem find_map_valve {f : Pulse → Pulse} (hf : ∀ q, (f q).valve = q.valve) (l : List Pulse) (v : Fin 24) :
    (l.map f).find? (fun p => p.valve = v) = (l.find? fun p => p.valve = v).map f := by
  rw [List.find?_map]
  congr 2
  funext q
  simp [hf]

theorem pulseOf_modPulse {d : Drv} {v : Fin 24} {p : Pulse} {f : Pulse → Pulse} (h : d.pulseOf v = some p)
    (hf : ∀ q, q.valve = v → (f q).valve = v) : (d.modPulse v f).pulseOf v = some (f p) := by
  have keeps (q : Pulse) : (if q.valve = v then f q else q).valve = q.valve := by
    split
    · next hq => rw [hf q hq, hq]
    · rfl
  have runs : ((d.modPulse v f).trd.get (treadleOf v)).runs =
      (d.trd.get (treadleOf v)).runs.map fun q => if q.valve = v then f q else q := by
    rw [Drv.modPulse, trd_modTrd, if_pos rfl]
  change (d.trd.get (treadleOf v)).runs.find? _ = some p at h
  rw [Drv.pulseOf, runs, find_map_valve keeps, h, Option.map_some, if_pos (pulseOf_valve h)]

/-! ## Faults (R273) -/

theorem drvFault_within (s : State) (b : Nat) (vs : List (Fin 24)) : Within [.drv, .flw] s (s.drvFault b vs) :=
  .mono (.after ((event_quiet _ 5).within []) (modDrv_within s _)) rfl

/-- The valves of a fault, as bits. -/
theorem testBit_faultBits (vs : List (Fin 24)) (m i : Nat) :
    (vs.foldl (fun m v => m ||| (1 <<< v.val)) m).testBit i = (m.testBit i || vs.any fun v => v.val == i) := by
  induction vs generalizing m with
  | nil => simp
  | cons v vs ih =>
    rw [List.foldl_cons, ih, List.any_cons, Nat.testBit_or, Nat.one_shiftLeft, Nat.testBit_two_pow, Bool.or_assoc]
    rfl

theorem drvFault_drv (s : State) (b : Nat) (vs : List (Fin 24)) :
    (s.drvFault b vs).drv = { s.drv with
      fault := s.drv.fault ||| BitVec.ofNat 8 (1 <<< b),
      faultv := s.drv.faultv ||| BitVec.ofNat 24 (vs.foldl (fun m v => m ||| (1 <<< v.val)) 0) } := by
  rw [State.drvFault, event_drv]
  rfl

theorem drvFault_pulseOf (s : State) (b : Nat) (vs : List (Fin 24)) (v : Fin 24) :
    (s.drvFault b vs).drv.pulseOf v = s.drv.pulseOf v := by
  rw [drvFault_drv]
  rfl

theorem drvFault_fault (s : State) {b : Nat} (vs : List (Fin 24)) (hb : b < 8) :
    (s.drvFault b vs).drv.fault.getLsbD b = true := by
  rw [drvFault_drv, BitVec.getLsbD_or, BitVec.getLsbD_ofNat, Nat.one_shiftLeft]
  simp [hb]

theorem drvFault_faultv (s : State) (b : Nat) {vs : List (Fin 24)} {v : Fin 24} (hv : v ∈ vs) :
    (s.drvFault b vs).drv.faultv.getLsbD v.val = true := by
  have any : (vs.any fun w => w.val == v.val) = true := List.any_eq_true.mpr ⟨v, hv, beq_self_eq_true _⟩
  rw [drvFault_drv, BitVec.getLsbD_or, BitVec.getLsbD_ofNat, testBit_faultBits, any]
  simp

/-! ## Measurements of the coil (R285, R286) -/

theorem coilMeasured_within (s : State) (v : Fin 24) (taken : Bool) (rm : Option Nat) :
    Within [.drv, .flw] s (s.coilMeasured v taken rm) := by
  unfold State.coilMeasured
  split
  · exact modDrv_within s _
  · exact .refl _ s

theorem coilMeasured_trd (s : State) (v : Fin 24) (taken : Bool) (rm : Option Nat) :
    (s.coilMeasured v taken rm).drv.trd = s.drv.trd := by
  unfold State.coilMeasured
  split <;> rfl

theorem phaseMeasured_trd (s : State) (p : Pulse) : (s.phaseMeasured p).drv.trd = s.drv.trd :=
  coilMeasured_trd s p.valve p.measures p.rm

theorem phaseDone_within (s : State) (v : Fin 24) (taken : Bool) (rm : Option Nat) :
    Within [.drv, .flw] s (s.phaseDone v taken rm) :=
  (coilMeasured_within s v taken rm).trans (modDrv_within _ _)

theorem phaseDone_pulse {s : State} {v : Fin 24} {p : Pulse} (h : s.drv.pulseOf v = some p) (taken : Bool) (rm : Option Nat) :
    (s.phaseDone v taken rm).drv.pulseOf v = some { p with rm := none } :=
  pulseOf_modPulse ((pulseOf_trd (coilMeasured_trd s v taken rm) v).trans h) fun _ hq => hq

/-! ## The pulse moves to END (R230, R232) -/

/-- A decay starts in some mode, and is demoted or not. -/
theorem decay_eq (s : State) (p : Pulse) (m : Nat) : ∃ d b, s.decay p m = { p with decay := d, demoted := b } := by
  unfold State.decay
  dsimp only
  split
  · exact ⟨_, _, rfl⟩
  split
  · exact ⟨_, _, rfl⟩
  · exact ⟨_, _, rfl⟩

theorem toEnd_pulse {s : State} {v : Fin 24} {p : Pulse} (h : s.drv.pulseOf v = some p) (hp : p.phase ≠ .ending)
    (mode : Pulse → Nat) {f : Pulse → Pulse} (hf : ∀ q, (f q).valve = q.valve) :
    ∃ d b, (s.toEnd v mode f).drv.pulseOf v = some (f { p with phase := .ending, decay := d, demoted := b }) := by
  obtain ⟨d, b, hd⟩ := decay_eq s p (mode p)
  refine ⟨d, b, ?_⟩
  unfold State.toEnd
  simp only [h, if_neg hp, hd, modDrv_drv, pulseOf_setVs]
  exact pulseOf_modPulse ((pulseOf_trd (phaseMeasured_trd s p) v).trans h) fun _ _ =>
    (hf _).trans (show p.valve = v from pulseOf_valve h)

theorem toNormalEnd_pulse {s : State} {v : Fin 24} {p : Pulse} (h : s.drv.pulseOf v = some p) (hp : p.phase ≠ .ending) :
    ∃ d b, (s.toNormalEnd v).drv.pulseOf v = some { p with phase := .ending, decay := d, demoted := b } :=
  toEnd_pulse h hp _ fun _ => rfl

theorem endEarly_pulse {s : State} {v : Fin 24} {p : Pulse} (h : s.drv.pulseOf v = some p) (hp : p.phase ≠ .ending)
    (res : BitVec 4) : ∃ d b, (s.endEarly v res).drv.pulseOf v =
      some { p with phase := .ending, early := some res, decay := d, demoted := b } :=
  toEnd_pulse h hp _ fun _ => rfl

/-! ## BOOST, PEAK and HOLD (R232, R249, R284) -/

theorem afterPeak_within (s : State) (v : Fin 24) : Within [.drv, .flw] s (s.afterPeak v) := by
  unfold State.afterPeak
  split
  · exact .refl _ s
  dsimp only
  split
  · exact toEnd_within s v _ _
  split
  · exact (modDrv_within s _).trans (modDrv_within _ _)
  · exact modDrv_within s _

/-- What follows PEAK: HOLD, or END if T_HOLD is 0. -/
def Profile.pastPeak (p : Profile) : Phase := if p.tHold ≠ 0 then .hold else .ending

theorem afterPeak_pulse {s : State} {v : Fin 24} {p : Pulse} (h : s.drv.pulseOf v = some p) (hp : p.phase ≠ .ending) :
    ∃ d b k, (s.afterPeak v).drv.pulseOf v =
      some { p with phase := p.prof.pastPeak, decay := d, demoted := b, held := k } := by
  unfold State.afterPeak Profile.pastPeak
  simp only [h]
  by_cases h0 : p.prof.tHold = 0
  · obtain ⟨d, b, hq⟩ := toNormalEnd_pulse h hp
    rw [if_pos h0, if_neg (not_not.mpr h0)]
    exact ⟨d, b, p.held, hq⟩
  · have held : (s.drv.modPulse v fun q => { q with phase := .hold, held := true }).pulseOf v =
        some { p with phase := .hold, held := true } := pulseOf_modPulse h fun _ hq => hq
    rw [if_neg h0, if_pos h0]
    refine ⟨p.decay, p.demoted, true, ?_⟩
    split
    · exact (pulseOf_setVs _ _ _ _).trans held
    · exact held

/-- What follows BOOST: PEAK, or what follows it if T_PEAK is 0. -/
def Profile.pastBoost (p : Profile) : Phase := if p.tPeak ≠ 0 then .peak else p.pastPeak

/-- The pulse as its current has reached I_PEAK (R232, R284). -/
def Pulse.peaked (p : Pulse) (tpeak : Nat) : Pulse :=
  { p with
    phase := .peak, tpeak := BitVec.ofNat 16 tpeak, peakEarly := p.prof.window && decide (tpeak < p.prof.winLo),
    peakLate := p.prof.window && decide (p.prof.winHi < tpeak) }

theorem boostDone_within (s : State) (v : Fin 24) (tpeak : Nat) : Within [.drv, .flw] s (s.boostDone v tpeak) := by
  unfold State.boostDone
  split
  · exact .refl _ s
  dsimp only
  split
  · exact (modDrv_within s _).trans (afterPeak_within _ v)
  · exact modDrv_within s _

theorem boostDone_pulse {s : State} {v : Fin 24} {p : Pulse} (h : s.drv.pulseOf v = some p) (tpeak : Nat) :
    ∃ d b k, (s.boostDone v tpeak).drv.pulseOf v =
      some { p.peaked tpeak with phase := p.prof.pastBoost, decay := d, demoted := b, held := k } := by
  have reached : (s.modDrv fun d => d.modPulse v fun q => q.peaked tpeak).drv.pulseOf v = some (p.peaked tpeak) :=
    pulseOf_modPulse h fun _ hq => hq
  unfold State.boostDone Profile.pastBoost
  simp only [h]
  by_cases h0 : p.prof.tPeak = 0
  · rw [if_pos h0, if_neg (not_not.mpr h0)]
    exact afterPeak_pulse reached (by simp [Pulse.peaked])
  · rw [if_neg h0, if_pos h0]
    exact ⟨p.decay, p.demoted, p.held, reached⟩

theorem boostLate_within (s : State) (v : Fin 24) : Within [.drv, .flw] s (s.boostLate v) :=
  ((modDrv_within s _).trans (endEarly_within _ v 9)).trans (drvFault_within _ 6 [v])

theorem boostLate_pulse {s : State} {v : Fin 24} {p : Pulse} (h : s.drv.pulseOf v = some p) (hp : p.phase ≠ .ending) :
    ∃ d b, (s.boostLate v).drv.pulseOf v =
      some { p with phase := .ending, early := some 9, peakLate := p.prof.window, decay := d, demoted := b } := by
  have late : (s.modDrv fun d => d.modPulse v fun q => { q with peakLate := q.prof.window }).drv.pulseOf v =
      some { p with peakLate := p.prof.window } := pulseOf_modPulse h fun _ hq => hq
  obtain ⟨d, b, hq⟩ := endEarly_pulse late hp 9
  exact ⟨d, b, (drvFault_pulseOf _ 6 [v] v).trans hq⟩

/-- A sample counts and raises the maximum; a notch that has been seen stays (R249). -/
theorem sample_eq (p : Pulse) (ma : Nat) : ∃ seen t dip top, p.sample ma =
    { p with
      samples := p.samples + 1, notchMax := max p.notchMax ma, notchSeen := seen, tnotch := t, notchDip := dip,
      notchMaxAt := top } ∧ (p.notchSeen = true → seen = true ∧ t = p.tnotch) := by
  unfold Pulse.sample
  dsimp only
  split
  · next h =>
    rw [max_eq_right h.le]
    refine ⟨_, _, _, _, rfl, fun hs => ?_⟩
    simp [hs]
  · next h =>
    rw [max_eq_left (Nat.le_of_not_lt h)]
    exact ⟨_, _, _, _, rfl, fun hs => ⟨hs, rfl⟩⟩

theorem sample_valve (p : Pulse) (ma : Nat) : (p.sample ma).valve = p.valve := by
  obtain ⟨_, _, _, _, h, -⟩ := sample_eq p ma
  rw [h]

/-! ## A slow END (R230, R232) -/

theorem slowEnd_within (s : State) (v : Fin 24) : Within [.drv, .flw] s (s.slowEnd v) :=
  (modDrv_within s _).trans (drvFault_within _ 7 [v])

theorem slowEnd_pulse {s : State} {v : Fin 24} {p : Pulse} (h : s.drv.pulseOf v = some p) :
    let many := decide (1 < (s.drv.trd.get (treadleOf v)).runs.length)
    (s.slowEnd v).drv.pulseOf v =
      some { p with endSlow := true, decay := if many then .slow else .clamp, demoted := p.demoted || many } :=
  (drvFault_pulseOf _ 7 [v] v).trans (pulseOf_modPulse h fun _ hq => hq)

end Sys2Proof.Machine
end

section
/-!
SUPPORT. Chop periods and edges, the reservoir's floor, and the end of a pulse (R86, R228 to R230, R236, R244, R248, R250, R271,
R300, R332).
-/

namespace Sys2Proof.Machine

/-! ## Chop periods and edges (R228, R271, R272) -/

theorem valves_modValve (d : Drv) (v k : Fin 24) (f : ValveEntry → ValveEntry) :
    (d.modValve v f).valves.get k = if k = v then f (d.valves.get v) else d.valves.get k := by
  simp only [Drv.modValve, Vector.get_eq_getElem, Vector.getElem_set, Fin.ext_iff, eq_comm]

/-- A treadle's edges change DRV_GATE alone. -/
theorem adaptTrdAll_eq (d : Drv) (t : Fin 3) (edges : List Nat) : ∃ g, d.adaptTrdAll t edges = { d with gate := g } := by
  unfold Drv.adaptTrdAll
  induction edges generalizing d with
  | nil => exact ⟨d.gate, rfl⟩
  | cons e es ih =>
    obtain ⟨g, hg⟩ : ∃ g, d.adaptTrd t e = { d with gate := g } := by
      unfold Drv.adaptTrd
      split
      · exact ⟨_, rfl⟩
      · exact ⟨d.gate, rfl⟩
    obtain ⟨k, hk⟩ := ih { d with gate := g }
    exact ⟨k, by rw [List.foldl_cons, hg, hk]⟩

/-- A leg's edge changes its valve's entry alone. -/
theorem adaptLeg_eq (d : Drv) (p : Pulse) (edge : Option Nat) : ∃ l, d.adaptLeg p edge = { d with valves := l } := by
  unfold Drv.adaptLeg
  split
  · exact ⟨_, rfl⟩
  · exact ⟨d.valves, rfl⟩

/-- The drive after the edges of a chop period. -/
def Drv.adapted (d : Drv) (p : Pulse) (leg : Option Nat) (edges : List Nat) : Drv :=
  (d.adaptLeg p leg).adaptTrdAll (treadleOf p.valve) edges

theorem adapted_trd (d : Drv) (p : Pulse) (leg : Option Nat) (edges : List Nat) : (d.adapted p leg edges).trd = d.trd := by
  obtain ⟨g, hg⟩ := adaptTrdAll_eq (d.adaptLeg p leg) (treadleOf p.valve) edges
  obtain ⟨l, hl⟩ := adaptLeg_eq d p leg
  rw [Drv.adapted, hg, hl]

/-- The leg's gate steps once by its edge against the target of its profile (R271, R272). -/
theorem adapted_gstep (d : Drv) (p : Pulse) (e : Nat) (edges : List Nat) (h : d.gate.getLsbD 20 = true) :
    ((d.adapted p (some e) edges).valves.get p.valve).gstep = BitVec.ofNat 4 (gateStep (d.valves.get p.valve).gstep.toNat e
      (if p.prof.tsw = 0 then d.tswDef else 10 * p.prof.tsw)) := by
  obtain ⟨g, hg⟩ := adaptTrdAll_eq (d.adaptLeg p (some e)) (treadleOf p.valve) edges
  have leg : d.adaptLeg p (some e) = d.modValve p.valve fun x =>
      { x with gstep := BitVec.ofNat 4 (gateStep x.gstep.toNat e (if p.prof.tsw = 0 then d.tswDef else 10 * p.prof.tsw)) } := by
    unfold Drv.adaptLeg
    rw [bit_eq_getLsbD, h]
  rw [Drv.adapted, hg, leg]
  dsimp only
  rw [valves_modValve, if_pos rfl]

theorem chopped_off (s : State) (p : Pulse) {c : Chop} (h : c ≠ .below) :
    ∃ d b, s.chopped p c = { p with on := false, decay := d, demoted := b } := by
  obtain ⟨d, b, hd⟩ := decay_eq s p p.phaseMode
  exact ⟨d, b, by rw [State.chopped, if_neg h, hd]⟩

theorem chopped_below (s : State) (p : Pulse) : s.chopped p .below = { p with on := true } := if_pos rfl

/-- The pulse goes on in its phase, on where its current is below the target. -/
theorem chopped_phase (s : State) (p : Pulse) (c : Chop) :
    (s.chopped p c).valve = p.valve ∧ (s.chopped p c).phase = p.phase ∧ (s.chopped p c).on = decide (c = .below) := by
  by_cases h : c = .below
  · rw [h, chopped_below]
    exact ⟨rfl, rfl, rfl⟩
  · obtain ⟨d, b, hd⟩ := chopped_off s p h
    rw [hd, decide_eq_false h]
    exact ⟨rfl, rfl, rfl⟩

/-- A chop period acts on the current in PEAK, and in HOLD unless the leg stays off while a window is quiet (R300). -/
theorem chops_iff (s : State) (p : Pulse) : (p.phase.regulated && !s.chopHeld p) = true ↔
    p.phase = .peak ∨ p.phase = .hold ∧ (p.on = true ∨ s.holdQuiet = false) := by
  unfold State.chopHeld Phase.regulated
  cases p.phase <;> cases p.on <;> simp

/-- The state after a chop period: the gates have adapted, and in a regulated phase the current is chopped. -/
def State.chopDone (s : State) (p : Pulse) (chop : Chop) (leg : Option Nat) (edges : List Nat) : State :=
  let s := s.modDrv fun d => d.adapted p leg edges
  if p.phase.regulated && !s.chopHeld p then
    (s.modDrv fun d => d.modPulse p.valve fun _ => s.chopped p chop).occur 0x31
  else s

theorem chopDone_within (s : State) (p : Pulse) (chop : Chop) (leg : Option Nat) (edges : List Nat) :
    Within [.drv, .flw] s (s.chopDone p chop leg edges) := by
  have current (u : State) : Within [.drv, .flw] u
      ((u.modDrv fun d => d.modPulse p.valve fun _ => u.chopped p chop).occur 0x31) :=
    .mono (.after ((occur_quiet _ 0x31).within []) (modDrv_within u _)) rfl
  exact .mono (.after (within_ite (current _) (.refl [] _)) (modDrv_within s _)) rfl

theorem chopDone_valves (s : State) (p : Pulse) (chop : Chop) (leg : Option Nat) (edges : List Nat) :
    (s.chopDone p chop leg edges).drv.valves = (s.drv.adapted p leg edges).valves := by
  unfold State.chopDone
  dsimp only
  split
  · rw [occur_drv]
    rfl
  · rfl

/-- The pulse after a chop period. -/
theorem chopDone_pulse {s : State} {v : Fin 24} {p : Pulse} (h : s.drv.pulseOf v = some p) (chop : Chop)
    (leg : Option Nat) (edges : List Nat) : (s.chopDone p chop leg edges).drv.pulseOf v =
      some (if p.phase.regulated && !s.chopHeld p then (s.modDrv fun d => d.adapted p leg edges).chopped p chop else p) := by
  have adapted : (s.modDrv fun d => d.adapted p leg edges).drv.pulseOf v = some p :=
    (pulseOf_trd (adapted_trd s.drv p leg edges) v).trans h
  have held : (s.modDrv fun d => d.adapted p leg edges).chopHeld p = s.chopHeld p := rfl
  unfold State.chopDone
  dsimp only
  rw [held]
  split
  · rw [occur_drv, modDrv_drv, pulseOf_valve h]
    obtain ⟨hv, -, -⟩ := chopped_phase (s.modDrv fun d => d.adapted p leg edges) p chop
    exact pulseOf_modPulse adapted fun _ _ => hv.trans (pulseOf_valve h)
  · exact adapted

/-! ## The reservoir's floor (R86, R230) -/

theorem floorTrd_within (s : State) (mv : Nat) (same : List (Fin 24)) (t : Fin 3) :
    Within [.drv, .flw] s (s.floorTrd mv same t) := by
  have measured (hit : List Pulse) : Within [.drv, .flw] s (hit.foldl (fun s p => s.phaseMeasured p) s) :=
    within_foldl _ phaseMeasured_within hit s
  unfold State.floorTrd
  dsimp only
  split
  · exact .refl _ s
  · exact ((measured _).trans (modDrv_within _ _)).trans (modDrv_within _ _)

theorem foldl_phaseMeasured_trd (l : List Pulse) (s : State) :
    (l.foldl (fun s p => s.phaseMeasured p) s).drv.trd = s.drv.trd := by
  induction l generalizing s with
  | nil => rfl
  | cons p l ih => rw [List.foldl_cons, ih, phaseMeasured_trd]

theorem foldl_setVs_trd (l : List Pulse) (d : Drv) (x : VState) : (l.foldl (fun d p => d.setVs p.valve x) d).trd = d.trd := by
  induction l generalizing d with
  | nil => rfl
  | cons p l ih =>
    obtain ⟨w, hw⟩ := setVs_eq d p.valve x
    rw [List.foldl_cons, ih, hw]

/-- The treadles after R86 on treadle `t`, where a pulse is at its floor. -/
theorem floorTrd_trd {s : State} {mv : Nat} {same : List (Fin 24)} {t : Fin 3} {p : Pulse}
    (hp : p ∈ (s.drv.trd.get t).runs) (hf : p.atFloor mv same = true) :
    ∃ alone, (s.floorTrd mv same t).drv.trd = (s.drv.modTrd t fun x =>
      { x with runs := x.runs.map fun p => p.floored mv same alone }).trd := by
  have someHit : ((s.drv.trd.get t).runs.filter fun p => p.atFloor mv same).isEmpty = false := by
    rw [List.isEmpty_eq_false_iff_exists_mem]
    exact ⟨p, List.mem_filter.mpr ⟨hp, hf⟩⟩
  refine ⟨(s.drv.trd.get t).runs.all fun p => p.atFloor mv same, ?_⟩
  unfold State.floorTrd
  dsimp only
  rw [if_neg (by simp [someHit]), modDrv_drv, foldl_setVs_trd, modDrv_drv]
  simp only [Drv.modTrd, foldl_phaseMeasured_trd]

theorem floored_valve (p : Pulse) (mv : Nat) (same : List (Fin 24)) (alone : Bool) :
    (p.floored mv same alone).valve = p.valve := by
  unfold Pulse.floored
  split
  · rfl
  · split <;> rfl

/-- A pulse at its floor ends with FLOOR. -/
theorem floored_ends {p : Pulse} {mv : Nat} {same : List (Fin 24)} (h : p.atFloor mv same = true) (alone : Bool) :
    (p.floored mv same alone).phase = .ending ∧ (p.floored mv same alone).early = some 8 := by
  rw [Pulse.floored, if_pos h]
  exact ⟨rfl, rfl⟩

/-- R86 on another treadle leaves the valve's pulse alone. -/
theorem floorTrd_other (s : State) (mv : Nat) (same : List (Fin 24)) {t : Fin 3} {v : Fin 24} (h : t ≠ treadleOf v) :
    (s.floorTrd mv same t).drv.pulseOf v = s.drv.pulseOf v := by
  by_cases hit : ∃ p ∈ (s.drv.trd.get t).runs, p.atFloor mv same = true
  · obtain ⟨p, hp, hf⟩ := hit
    obtain ⟨alone, ht⟩ := floorTrd_trd hp hf
    rw [pulseOf_trd ht, Drv.pulseOf, trd_modTrd, if_neg h.symm, Drv.pulseOf]
  · have noHit : ((s.drv.trd.get t).runs.filter fun p => p.atFloor mv same) = [] := by
      simpa using hit
    simp [State.floorTrd, noHit]

theorem foldl_floorTrd_other (mv : Nat) (same : List (Fin 24)) {v : Fin 24} {l : List (Fin 3)} (h : treadleOf v ∉ l)
    (s : State) :
    (l.foldl (fun s t => s.floorTrd mv same t) s).drv.pulseOf v = s.drv.pulseOf v := by
  induction l generalizing s with
  | nil => rfl
  | cons t l ih =>
    obtain ⟨ht, hl⟩ := not_or.mp (List.mem_cons.not.mp h)
    rw [List.foldl_cons, ih hl, floorTrd_other s mv same (Ne.symm ht)]

theorem floorTrd_pulse {s : State} {mv : Nat} {same : List (Fin 24)} {v : Fin 24} {p : Pulse}
    (h : s.drv.pulseOf v = some p) (hf : p.atFloor mv same = true) :
    ∃ alone, (s.floorTrd mv same (treadleOf v)).drv.pulseOf v = some (p.floored mv same alone) := by
  obtain ⟨alone, ht⟩ := floorTrd_trd (List.mem_of_find?_eq_some h) hf
  change (s.drv.trd.get (treadleOf v)).runs.find? _ = some p at h
  refine ⟨alone, ?_⟩
  rw [pulseOf_trd ht, Drv.pulseOf, trd_modTrd, if_pos rfl]
  dsimp only
  rw [find_map_valve (fun q => floored_valve q mv same alone), h, Option.map_some]

/-- A pulse at its floor, when R86 has passed every treadle. -/
theorem foldl_floorTrd_pulse {mv : Nat} {same : List (Fin 24)} {v : Fin 24} {p : Pulse} (hf : p.atFloor mv same = true)
    {l : List (Fin 3)} (hl : l.Nodup) (hv : treadleOf v ∈ l) {s : State} (h : s.drv.pulseOf v = some p) :
    ∃ alone, (l.foldl (fun s t => s.floorTrd mv same t) s).drv.pulseOf v = some (p.floored mv same alone) := by
  induction l generalizing s with
  | nil => cases hv
  | cons t l ih =>
    obtain ⟨ht, hn⟩ := List.nodup_cons.mp hl
    rw [List.foldl_cons]
    by_cases e : t = treadleOf v
    · obtain ⟨alone, hq⟩ := floorTrd_pulse h hf
      subst e
      exact ⟨alone, (foldl_floorTrd_other mv same ht _).trans hq⟩
    · exact ih hn ((List.mem_cons.mp hv).resolve_left (Ne.symm e)) ((floorTrd_other s mv same e).trans h)

theorem mem_allRuns {d : Drv} {v : Fin 24} {p : Pulse} (h : d.pulseOf v = some p) : p ∈ d.allRuns := by
  have mem : p ∈ (d.trd.get (treadleOf v)).runs := List.mem_of_find?_eq_some h
  unfold Drv.allRuns
  generalize treadleOf v = t at mem
  match t with
  | 0 | 1 | 2 => simp [mem]

/-- The valves whose pulses are at their floor. -/
def State.floorHit (s : State) (mv : Nat) (same : List (Fin 24)) : List (Fin 24) :=
  (s.drv.allRuns.filter fun p => p.atFloor mv same).map Pulse.valve

/-- The state after R86 has passed the treadles. -/
def State.floorAll (s : State) (mv : Nat) (same : List (Fin 24)) : State :=
  ((upTo 3).foldl (fun s t => s.floorTrd mv same t) s).drvFault 5 (s.floorHit mv same)

theorem exec_vresFloor (mv : Nat) (same : List (Fin 24)) (s : State) : exec (.vresFloor mv same) s =
    whenever s (s.sys.runDmi && !(s.floorHit mv same).isEmpty) fun u =>
      ((upTo 3).foldl (fun s t => s.floorTrd mv same t) u).drvFault 5 (s.floorHit mv same) := by
  change execVresFloor mv same s = _
  unfold execVresFloor State.floorHit
  rfl

theorem floorAll_within (s : State) (mv : Nat) (same : List (Fin 24)) : Within [.drv, .flw] s (s.floorAll mv same) :=
  (within_foldl _ (fun s t => floorTrd_within s mv same t) _ s).trans (drvFault_within _ 5 _)

theorem floorAll_fault (s : State) (mv : Nat) (same : List (Fin 24)) : (s.floorAll mv same).drv.fault.getLsbD 5 = true := by
  unfold State.floorAll
  exact drvFault_fault _ _ (by decide)

theorem floorAll_faultv {s : State} {mv : Nat} {same : List (Fin 24)} {v : Fin 24} (h : v ∈ s.floorHit mv same) :
    (s.floorAll mv same).drv.faultv.getLsbD v.val = true := by
  unfold State.floorAll
  exact drvFault_faultv _ _ h

theorem floorAll_pulse {s : State} {mv : Nat} {same : List (Fin 24)} {v : Fin 24} {p : Pulse}
    (h : s.drv.pulseOf v = some p) (hf : p.atFloor mv same = true) :
    ∃ alone, (s.floorAll mv same).drv.pulseOf v = some (p.floored mv same alone) := by
  obtain ⟨alone, hq⟩ := foldl_floorTrd_pulse hf (List.nodup_finRange 3) (List.mem_finRange _) h
  unfold State.floorAll
  exact ⟨alone, (drvFault_pulseOf _ 5 _ v).trans hq⟩

/-! ## The end of a pulse (R86, R236, R244, R250, R332) -/

/-- The operation keeps every treadle's runs and its T_TURN, and changes at most the drive, the flow meter's gates and the last act's
state. -/
structure KeepsRuns (s t : State) : Prop where
  within : Within [.drv, .flw, .nrgx] s t
  runs : ∀ k, (t.drv.trd.get k).runs = (s.drv.trd.get k).runs ∧ (t.drv.trd.get k).turn = (s.drv.trd.get k).turn

theorem KeepsRuns.refl (s : State) : KeepsRuns s s := ⟨.refl _ s, fun _ => ⟨rfl, rfl⟩⟩

theorem KeepsRuns.trans {s t u : State} (h : KeepsRuns s t) (k : KeepsRuns t u) : KeepsRuns s u :=
  ⟨h.within.trans k.within, fun j => ⟨(k.runs j).1.trans (h.runs j).1, (k.runs j).2.trans (h.runs j).2⟩⟩

theorem keepsRuns_ite {c : Prop} [Decidable c] {s t u : State} (ht : KeepsRuns s t) (hu : KeepsRuns s u) :
    KeepsRuns s (if c then t else u) := by
  split
  · exact ht
  · exact hu

theorem keepsRuns_foldl {α : Type} (f : State → α → State) (h : ∀ s a, KeepsRuns s (f s a)) (l : List α) (s : State) :
    KeepsRuns s (l.foldl f s) := by
  induction l generalizing s with
  | nil => exact .refl s
  | cons a l ih => exact (h s a).trans (ih _)

/-- An operation that leaves the treadles alone. -/
theorem keepsRuns_of_trd {s t : State} (h : Within [.drv, .flw, .nrgx] s t) (e : t.drv.trd = s.drv.trd) : KeepsRuns s t :=
  ⟨h, fun k => by rw [e]; exact ⟨rfl, rfl⟩⟩

theorem modDrv_keepsRuns (s : State) {f : Drv → Drv} (h : (f s.drv).trd = s.drv.trd) : KeepsRuns s (s.modDrv f) :=
  keepsRuns_of_trd (.mono (modDrv_within s f) rfl) h

theorem setVs_keepsRuns (s : State) (v : Fin 24) (x : VState) : KeepsRuns s (s.modDrv fun d => d.setVs v x) := by
  obtain ⟨w, hw⟩ := setVs_eq s.drv v x
  exact modDrv_keepsRuns s (by rw [hw])

theorem learn_within (s : State) (p : Pulse) (drawn : Int) : Within [.drv, .flw] s (s.learn p drawn) := modDrv_within s _

theorem post_keepsRuns (s : State) (close : Bool) (v : Fin 24) (prof res flags : Nat) (uj : Int) :
    KeepsRuns s (s.post close v prof res flags uj) := by
  obtain ⟨l, b, h⟩ := filed_eq s.drv (resultWord close v prof res (vsCode (s.drv.vs v)) flags uj, s.local.setWidth 32)
  exact keepsRuns_of_trd (.mono (post_within _ _ _ _ _ _ _) rfl) (by rw [post_drv, h])

theorem joinQueue_keepsRuns (s : State) (t : Fin 3) (e : QEntry) : KeepsRuns s (s.joinQueue t e) := by
  refine ⟨.mono (joinQueue_within s t e) rfl, fun k => ?_⟩
  have trd : (s.joinQueue t e).drv.trd.get k = if k = t then
      { s.drv.trd.get t with queue := qInsert { e with id := s.drv.entryId } (s.drv.trd.get t).queue }
      else s.drv.trd.get k :=
    trd_modTrd s.drv t k fun q => { q with queue := qInsert { e with id := s.drv.entryId } q.queue }
  rw [trd]
  split
  · next h => rw [h]; exact ⟨rfl, rfl⟩
  · exact ⟨rfl, rfl⟩

theorem seqFinish_keepsRuns (s : State) : KeepsRuns s s.seqFinish := by
  refine keepsRuns_of_trd (seqFinish_within s) ?_
  obtain h | h := seqFinish_drv s
  · rw [h]
  · obtain ⟨l, b, hd⟩ := dropRetry_drv s
    rw [h, hd]

/-- The pulse has left its treadle, and the tail of its windows has begun. -/
def State.pulseLeft (s : State) (p : Pulse) : State := (s.modDrv fun d => d.dropPulse p).blankTail p.valve

/-- What follows, its record, its releases and the sequencer, leaves the runs alone. -/
theorem pulseEnd_keepsRuns (s : State) (p : Pulse) (drawn : Int) : KeepsRuns (s.pulseLeft p) (s.pulseEnd p drawn) := by
  have heat (u : State) : KeepsRuns u (u.heatByEnergy p.valve drawn) :=
    keepsRuns_of_trd (.mono (heatByEnergy_within u _ _) rfl) rfl
  have learn (u : State) : KeepsRuns u (if p.early.isNone || p.early = some 3 then u.learn p drawn else u) :=
    keepsRuns_ite (keepsRuns_of_trd (.mono (learn_within u p drawn) rfl) rfl) (.refl u)
  have seq (u : State) : KeepsRuns u (if u.drv.seqOwns p then u.seqStep p.valve else u) :=
    keepsRuns_ite (keepsRuns_of_trd (.mono (seqStep_within u _) rfl) rfl) (.refl u)
  unfold State.pulseEnd
  refine KeepsRuns.trans ?_ (seqFinish_keepsRuns _)
  refine KeepsRuns.trans ?_ (keepsRuns_foldl _ (fun u r => post_keepsRuns u _ _ _ _ _ _) _ _)
  refine KeepsRuns.trans (((heat _).trans (learn _)).trans (setVs_keepsRuns _ p.valve
    (((s.pulseLeft p).heatByEnergy p.valve drawn).ending p).1)) ?_
  refine keepsRuns_ite (keepsRuns_ite ?_ (joinQueue_keepsRuns _ _ _)) ((post_keepsRuns _ _ _ _ _ _ _).trans (seq _))
  exact modDrv_keepsRuns _ rfl

theorem pulseLeft_trd (s : State) (p : Pulse) :
    let runs := (s.drv.trd.get (treadleOf p.valve)).runs.filter fun q => q.valve != p.valve
    ((s.pulseLeft p).drv.trd.get (treadleOf p.valve)).runs = runs ∧
      (runs = [] → ((s.pulseLeft p).drv.trd.get (treadleOf p.valve)).turn = some p.prof.closes) := by
  have trd : (s.pulseLeft p).drv.trd.get (treadleOf p.valve) = _ := trd_modTrd s.drv (treadleOf p.valve) (treadleOf p.valve) _
  intro runs
  rw [trd, if_pos rfl]
  exact ⟨rfl, fun h => if_pos (by rw [List.isEmpty_iff]; exact h)⟩

/-- The windows of the pulse have their end (R332). -/
theorem pulseLeft_wins (s : State) (p : Pulse) :
    ∀ w ∈ (s.pulseLeft p).prs.wins, w.src = .drv → w.valve = BitVec.ofNat 8 p.valve.val → w.due ≠ none := by
  intro w hw hs hv
  obtain ⟨x, -, rfl⟩ := List.mem_map.mp (show w ∈ s.prs.wins.map _ from hw)
  split at hs
  · next h => simp [h]
  · next h =>
    rw [if_neg h] at hv ⊢
    intro hd
    simp [hs, hv, hd] at h

theorem modTmp_within (s : State) (f : Tmp → Tmp) : Within [.tmp] s (s.modTmp f) :=
  within_of_eng rfl fun p hp => by cases p <;> simp_all [Part.Same]

theorem atPhase_within (s : State) (ph : Ring) : Within [.tmp] s (s.atPhase ph) := modTmp_within s _

theorem pulseEnd_within (s : State) (p : Pulse) (drawn : Int) (ph : Ring) :
    Within [.drv, .flw, .nrgx, .prs, .tmp] s ((s.atPhase ph).pulseEnd p drawn) :=
  .mono (.after (pulseEnd_keepsRuns (s.atPhase ph) p drawn).within
    (.after (lines_within _ _ rfl) (.after (modDrv_within _ _) (atPhase_within s ph)))) rfl

end Sys2Proof.Machine
end

section
/-!
PROOFS. The phases of a pulse, its chop periods, the reservoir's floor and its end (R86, R228 to R232, R244, R249, R271 to R274,
R277, R284, R300, R332), and the statement about them.
-/

namespace Sys2Proof.Machine

/-- A next state in which only the drive and the flow meter's gates have changed, with the valve's pulse in it. -/
theorem touches_pulse {o : Out} {s t : State} {v : Fin 24} {q : Pulse} {f : State → Pulse → Prop} (ho : o = .next t)
    (hw : Within [.drv, .flw] s t) (hq : t.drv.pulseOf v = some q) (hf : f t q) :
    Touches o (fun t => { s with drv := t.drv, flw := t.flw }) fun t => ∃ q, t.drv.pulseOf v = some q ∧ f t q :=
  hw.touches ho rfl ⟨q, hq, hf⟩

/-- What a row asks of the output's pulse. -/
theorem pulseIn_eq {s : State} {x : Fin 24} {p : Pulse} (h : s.drv.pulseOf (s.drv.even x) = some p) (ho : p.off = false)
    (hd : s.sys.runDmi = true) (f : Phase → Bool) : s.pulseIn x f = f p.phase := by
  simp [State.pulseIn, h, ho, hd]

/-! ## The rows on a running pulse -/

section
variable {x : Fin 24} {p : Pulse} {s : State} (hpow : s.powered = true) (hdmi : s.sys.runDmi = true)
  (h : s.drv.pulseOf (s.drv.even x) = some p)
include hpow hdmi h

theorem boostEnd_next (hp : p.phase = .boost) (ho : p.off = false) (tpeak : Nat) :
    exec (.boostEnd x tpeak) s = .next (s.boostDone (s.drv.even x) tpeak) := by
  change execBoostEnd x tpeak s = _
  exact whenever_holds hpow (by rw [pulseIn_eq h ho hdmi, hp]; rfl) _

theorem boostTimeout_late (hp : p.phase = .boost) (ho : p.off = false) (same : Bool) :
    exec (.boostTimeout x same) s = .next (s.boostLate (s.drv.even x)) := by
  change execBoostTimeout x same s = _
  have going : s.pulseIn x (· == .ending) = false := by rw [pulseIn_eq h ho hdmi, hp]; rfl
  have boosts : s.pulseIn x (· == .boost) = true := by rw [pulseIn_eq h ho hdmi, hp]; rfl
  simp only [execBoostTimeout, going, boosts, Bool.and_false, Bool.false_and, Bool.false_eq_true, if_false]
  exact whenever_holds hpow rfl _

/-- A timeout in the cycle of another end leaves the pulse to that end (R277). -/
theorem boostTimeout_ended (hp : p.phase = .ending) (ho : p.off = false) (he : p.early.isSome = true) :
    exec (.boostTimeout x true) s = .next (s.drvFault 6 [s.drv.even x]) := by
  change execBoostTimeout x true s = _
  have ends : s.pulseIn x (· == .ending) = true := by rw [pulseIn_eq h ho hdmi, hp]; rfl
  simp only [execBoostTimeout, ends, h, Option.any_some, he, Bool.and_self, if_true]
  exact whenever_holds hpow (Bool.or_true _) _

theorem coilCurrentSample_next (hp : p.phase = .boost) (ho : p.off = false) (ma : Nat) :
    exec (.coilCurrentSample x ma) s = .next (s.modDrv fun d => d.modPulse (d.even x) fun p => p.sample ma) := by
  change execCoilCurrentSample x ma s = _
  exact whenever_holds hpow (by rw [pulseIn_eq h ho hdmi, hp]; rfl) _

theorem peakEnd_next (hp : p.phase = .peak) (ho : p.off = false) (rm : Option Nat) :
    exec (.peakEnd x rm) s = .next
      ((s.phaseDone (s.drv.even x) (measured p.prof.tPeak p.prof.iPeak) rm).afterPeak (s.drv.even x)) := by
  change execPeakEnd x rm s = _
  refine (whenever_holds hpow (by rw [pulseIn_eq h ho hdmi, hp]; rfl) _).trans ?_
  simp only [h, Option.any_some]

theorem holdEnd_next (hp : p.phase = .hold) (ho : p.off = false) (hf : p.prof.tHold ≠ 0xFFFF) (rm : Option Nat) :
    exec (.holdEnd x rm) s = .next
      ((s.phaseDone (s.drv.even x) (measured (100 * p.prof.tHold) p.prof.iHold) rm).toNormalEnd (s.drv.even x)) := by
  change execHoldEnd x rm s = _
  have finite : p.endless = false := beq_false_of_ne hf
  refine (whenever_holds hpow (by rw [pulseIn_eq h ho hdmi, hp, h, Option.any_some, finite]; rfl) _).trans ?_
  simp only [h, Option.any_some]

theorem endTimeout_next (hp : p.phase = .ending) (ho : p.off = false) (hs : p.endSlow = false) :
    exec (.endTimeout x) s = .next (s.slowEnd (s.drv.even x)) := by
  change execEndTimeout x s = _
  exact whenever_holds hpow (by rw [pulseIn_eq h ho hdmi, hp, h, Option.any_some, hs]; rfl) _

theorem chopPeriod_next (hp : p.phase ≠ .precharge) (ho : p.off = false) (chop : Chop) (leg : Option Nat) (edges : List Nat) :
    exec (.chopPeriod x chop leg edges) s = .next (s.chopDone p chop leg edges) := by
  change execChopPeriod x chop leg edges s = _
  simp only [execChopPeriod, h]
  exact whenever_holds hpow (by simp [hdmi, hp, ho]) _

theorem vresFastLimit_next (hp : p.phase = .ending ∨ p.phase = .peak ∨ p.phase = .hold) (ho : p.off = false)
    (hd : p.decay = .fast) : exec (.vresFastLimit x) s =
      .next (s.modDrv fun d => d.modPulse (d.even x) fun p => { p with decay := .clamp }) := by
  change execVresFastLimit x s = _
  refine whenever_holds hpow ?_ _
  rw [pulseIn_eq h ho hdmi, h, Option.any_some, hd]
  rcases hp with hp | hp | hp <;> rw [hp] <;> rfl

theorem vresFloor_next {mv : Nat} {same : List (Fin 24)} (hf : p.atFloor mv same = true) :
    s.drv.even x ∈ s.floorHit mv same ∧ exec (.vresFloor mv same) s = .next (s.floorAll mv same) := by
  have mem : s.drv.even x ∈ s.floorHit mv same :=
    List.mem_map.mpr ⟨p, List.mem_filter.mpr ⟨mem_allRuns h, hf⟩, pulseOf_valve h⟩
  have someHit : (s.floorHit mv same).isEmpty = false := List.isEmpty_eq_false_iff_exists_mem.mpr ⟨_, mem⟩
  refine ⟨mem, ?_⟩
  rw [exec_vresFloor, hdmi, someHit]
  exact whenever_holds hpow rfl _

theorem pulseEnd_next (hp : p.phase = .ending) (drawn : Int) (ph : Ring) :
    exec (.pulseEnd x drawn ph) s = .next ((s.atPhase ph).pulseEnd p drawn) := by
  change execPulseEnd x drawn ph s = _
  simp only [execPulseEnd, h]
  exact whenever_holds hpow (by rw [hdmi, hp]; rfl) _

end

/-! ## The claims -/

/-- Settles O37: each row's operation is one of the lemmas about the running pulse; R86 passes the treadles one after another,
and what follows the end of a pulse keeps the runs. -/
theorem pulsesRunTheirPhases : Obligations.PulsesRunTheirPhases := by
  unfold Obligations.PulsesRunTheirPhases
  intro x p s hpow hdmi hq v after many
  have hv : p.valve = v := pulseOf_valve hq
  refine ⟨fun hb ho => ⟨fun tpeak => ?boostEnd, fun same => ?boostTimeout, fun ma => ?sample⟩, fun he ho hr => ?ended,
    fun rm hp ho => ?peakEnd, fun rm hh ho hf => ?holdEnd, fun he ho hs => ?slow, fun chop leg edges hp ho => ?chop,
    fun hp ho hd => ?fast, fun mv same hp hf => ?floor, fun drawn ph he => ?pulseEnd⟩
  case boostEnd =>
    obtain ⟨d, b, k, hq'⟩ := boostDone_pulse hq tpeak
    exact touches_pulse (boostEnd_next hpow hdmi hq hb ho tpeak) (boostDone_within s v tpeak) hq' ⟨rfl, rfl, rfl, rfl⟩
  case boostTimeout =>
    obtain ⟨d, b, hq'⟩ := boostLate_pulse hq (by rw [hb]; decide)
    exact touches_pulse (boostTimeout_late hpow hdmi hq hb ho same) (boostLate_within s v) hq'
      ⟨rfl, rfl, rfl, drvFault_fault _ _ (by decide), drvFault_faultv _ _ List.mem_cons_self⟩
  case sample =>
    obtain ⟨seen, t, dip, top, hs, hn⟩ := sample_eq p ma
    refine touches_pulse (coilCurrentSample_next hpow hdmi hq hb ho ma) (modDrv_within s _)
      (pulseOf_modPulse hq fun q hw => (sample_valve q ma).trans hw) ?_
    rw [hs]
    exact ⟨rfl, rfl, hb, hn⟩
  case ended =>
    exact touches_pulse (boostTimeout_ended hpow hdmi hq he ho hr) (drvFault_within s 6 [v])
      ((drvFault_pulseOf s 6 [v] v).trans hq)
      ⟨rfl, drvFault_fault _ _ (by decide), drvFault_faultv _ _ List.mem_cons_self⟩
  case peakEnd =>
    obtain ⟨d, b, k, hq'⟩ := afterPeak_pulse (phaseDone_pulse hq (measured p.prof.tPeak p.prof.iPeak) rm) (by simp [hp])
    exact touches_pulse (peakEnd_next hpow hdmi hq hp ho rm) ((phaseDone_within s v _ rm).trans (afterPeak_within _ v)) hq'
      ⟨rfl, rfl⟩
  case holdEnd =>
    obtain ⟨d, b, hq'⟩ := toNormalEnd_pulse (phaseDone_pulse hq (measured (100 * p.prof.tHold) p.prof.iHold) rm)
      (by simp [hh])
    exact touches_pulse (holdEnd_next hpow hdmi hq hh ho hf rm) ((phaseDone_within s v _ rm).trans (toEnd_within _ v _ _)) hq'
      ⟨rfl, rfl⟩
  case slow =>
    exact touches_pulse (endTimeout_next hpow hdmi hq he ho hs) (slowEnd_within s v) (slowEnd_pulse hq)
      ⟨rfl, rfl, drvFault_fault _ _ (by decide), drvFault_faultv _ _ List.mem_cons_self⟩
  case chop =>
    obtain ⟨-, phase, on⟩ := chopped_phase (s.modDrv fun d => d.adapted p leg edges) p chop
    refine touches_pulse (chopPeriod_next hpow hdmi hq hp ho chop leg edges) (chopDone_within s p chop leg edges)
      (chopDone_pulse hq chop leg edges) ⟨?phase, fun h1 h2 => ?other, fun hh hf hw => ?quiet, fun hc => ?current, ?gate⟩
    case phase =>
      split
      · exact phase
      · rfl
    case other => exact if_neg ((chops_iff s p).not.mpr (by simp [h1, h2]))
    case quiet => exact if_neg ((chops_iff s p).not.mpr (by simp [hh, hf, hw]))
    case current =>
      rw [if_pos ((chops_iff s p).mpr hc)]
      exact ⟨on, fun hb => by rw [hb, chopped_below]⟩
    case gate =>
      rintro e rfl hg
      rw [chopDone_valves, ← hv]
      exact adapted_gstep s.drv p e edges hg
  case fast =>
    exact touches_pulse (vresFastLimit_next hpow hdmi hq hp ho hd) (modDrv_within s _) (pulseOf_modPulse hq fun _ hw => hw) rfl
  case floor =>
    have at_floor : p.atFloor mv same = true := by
      rcases hp with hp | hp | hp <;> simp [Pulse.atFloor, Phase.regulated, hp, hf]
    obtain ⟨hit, ho⟩ := vresFloor_next hpow hdmi hq at_floor
    obtain ⟨alone, hq'⟩ := floorAll_pulse hq at_floor
    obtain ⟨ends, floor⟩ := floored_ends at_floor alone
    exact touches_pulse ho (floorAll_within s mv same) hq' ⟨ends, floor, floorAll_fault s mv same, floorAll_faultv hit⟩
  case pulseEnd =>
    intro phase
    have keeps := pulseEnd_keepsRuns (s.atPhase ph) p drawn
    have prs := keeps.within .prs (by decide)
    have tmp := keeps.within.tmp rfl
    obtain ⟨runs, turn⟩ := keeps.runs (treadleOf p.valve)
    obtain ⟨left, turned⟩ := pulseLeft_trd (s.atPhase ph) p
    refine (pulseEnd_within s p drawn ph).touches (pulseEnd_next hpow hdmi hq he drawn ph) ?frame ⟨?windows, ?runs⟩
    case frame =>
      have prs' : ((s.atPhase ph).pulseEnd p drawn).prs =
          { s.prs with wins := ((s.atPhase ph).pulseEnd p drawn).prs.wins } := by
        rw [prs]
        rfl
      have tmp' : ((s.atPhase ph).pulseEnd p drawn).tmp = { s.tmp with phase := phase } := tmp
      simp only [State.take]
      rw [← prs', ← tmp']
      rfl
    case windows =>
      rw [prs, ← hv]
      exact pulseLeft_wins (s.atPhase ph) p
    case runs =>
      rw [← hv, runs, turn]
      exact ⟨left, turned⟩

end Sys2Proof.Machine
end

section
/-!
SUPPORT. The flow lines: what an operation on one line makes of the lines, writes of the FLW registers, and the islands that
then start (R127, R312, R317).
-/

namespace Sys2Proof.Machine

/-! ## The lines in a frame -/

theorem Within.flw {l : List Part} {s t : State} (h : Within l s t) (hp : decide (.flw ∉ l) = true) : t.flw = s.flw :=
  h .flw (of_decide_eq_true hp)

theorem Within.prs {l : List Part} {s t : State} (h : Within l s t) (hp : decide (.prs ∉ l) = true) : t.prs = s.prs :=
  h .prs (of_decide_eq_true hp)

theorem flow_congr {s t : State} (h : t.flw = s.flw) (n : Fin 3) : t.flow n = s.flow n := congrArg (fun w => w.line.get n) h

theorem line_set (v : Vector FlowLine 3) (n k : Fin 3) (x : FlowLine) : (v.set n x).get k = if k = n then x else v.get k := by
  simp only [Vector.get_eq_getElem, Vector.getElem_set, Fin.ext_iff, eq_comm]

theorem flow_modFlow (s : State) (n k : Fin 3) (f : FlowLine → FlowLine) :
    (s.modFlow n f).flow k = if k = n then f (s.flow n) else s.flow k :=
  line_set s.flw.line n k _

/-- Two changes of one line, as one. -/
theorem modFlow_modFlow (s : State) (n : Fin 3) (f g : FlowLine → FlowLine) :
    (s.modFlow n f).modFlow n g = s.modFlow n fun l => g (f l) := by
  simp only [State.modFlow, State.modFlw, line_set, if_true, Vector.set_set]

theorem local_congr {s t : State} (h : t.tmp = s.tmp) : t.local = s.local := by
  simp only [State.local, h]

/-! ## The islands start after a change of the lines (R127) -/

/-- While the DMI runs, only the Radio island can start, and the lines stay as they are. -/
theorem startIslands_flw {s : State} (hd : s.sys.runDmi = true) : s.startIslands.flw = s.flw := by
  have dmi : s.startDmi = s := if_pos hd
  unfold State.startIslands
  rw [dmi, ite_self]
  exact (within_ite (within_ite (startRad_within s) (.refl [] s)) (.refl [] s)).flw rfl

theorem watch_prewake (l : FlowLine) (d : Drv) : (l.watch d).prewake = l.prewake := by
  unfold FlowLine.watch
  split <;> rfl

theorem startDmi_prewake (s : State) (n : Fin 3) : (s.startDmi.flow n).prewake = (s.flow n).prewake := by
  unfold State.startDmi
  split
  · rfl
  · simp only [State.flow, modDrv_flw, Vector.get_eq_getElem, Vector.getElem_map, watch_prewake]
    rfl

theorem startIslands_prewake (s : State) (n : Fin 3) : (s.startIslands.flow n).prewake = (s.flow n).prewake := by
  have dmi : ((if s.dmiWanted then s.startDmi else s).flow n).prewake = (s.flow n).prewake := by
    split
    · exact startDmi_prewake s n
    · rfl
  unfold State.startIslands
  dsimp only
  split
  · rw [flow_congr ((within_ite (startRad_within _) (.refl [] _)).flw rfl)]
    exact dmi
  · rfl

/-! ## Writes of FLW registers -/

/-- The registers of FLW. -/
def flwReg (a : Nat) : Bool := inRegs a && a % 4 == 0 && blockOf a == 6

/-- A write that a register of FLW takes while the DMI runs: `g` is what it makes of the state. -/
theorem flw_written {s : State} {i : Initiator} {a : Nat} {v : Word} {g : State → State} (hd : s.sys.runDmi = true)
    (ha : flwReg a = true) (hr : s.reaches i a true = true)
    (hw : ∀ u, Within [.eng] s u → u.flwWrite (a % 0x1000) v = (g u, 0) ∧ (g u).secx = u.secx) :
    Written (.next (s.writeBy i a v)) s i a fun u => (g u).afterWrite := by
  simp only [flwReg, Bool.and_eq_true, beq_iff_eq] at ha
  obtain ⟨⟨hin, h4⟩, hb⟩ := ha
  have run : s.islandOff (blockOf a) = false := by
    rw [hb, State.islandOff, hd]
    rfl
  refine writeBy_written s i a v g hin h4 (fun e => ?_) run (by rw [hb]; rfl) hr fun u hu => ?_
  · rw [e] at hb
    exact absurd hb (by decide)
  · obtain ⟨taken, secx⟩ := hw u (atBus_within hu)
    refine ⟨?_, burnBegun_none secx⟩
    simp only [State.regWrite, hb, taken]

/-- The registers FLW_ZEROn and FLW_PCNTn. -/
theorem lineReg (n : Fin 3) (v : Word) :
    (flwReg (0x4000600C + 0x40 * n.val) = true ∧
      ∀ u : State, u.flwWrite ((0x4000600C + 0x40 * n.val) % 0x1000) v = (u.zeroWrite n v, 0)) ∧
    flwReg (0x40006010 + 0x40 * n.val) = true ∧
      ∀ u : State, u.flwWrite ((0x40006010 + 0x40 * n.val) % 0x1000) v = (u.pulseWrite n v, 0) := by
  match n with
  | 0 | 1 | 2 => exact ⟨⟨rfl, fun _ => rfl⟩, rfl, fun _ => rfl⟩

end Sys2Proof.Machine
end

section
/-!
PROOFS. Samples of the pulse inputs and writes of their counts (R313 to R317), and the statement about them.
-/

namespace Sys2Proof.Machine

/-! ## One sample -/

/-- An increment of the count, with its wrap (R317). -/
def FlowLine.counted (k : FlowLine) : FlowLine := { k with pcnt := k.pcnt + 1, povf := k.povf || k.pcnt == 0xFFFFFFFF }

/-- The line after a sample with level `v` (R314, R315). -/
def FlowLine.sampled (k : FlowLine) (v : Bool) : FlowLine :=
  let run := if k.pin.runLen ≠ 0 ∧ k.pin.level = v then min 16 (k.pin.runLen + 1) else 1
  let pin := { k.pin with level := v, runLen := run }
  if run < k.deb then { k with pin := pin }
  else if k.pin.settled = false then { k with pin := { pin with settled := true, definite := v, counted := v } }
  else if run = k.deb ∨ k.pin.counted = v then { k with pin := { pin with definite := v } }
  else if edgeCounts k.pedge v then FlowLine.counted { k with pin := { pin with definite := v, counted := v } }
  else { k with pin := { pin with definite := v, counted := v } }

theorem incSat_eq_min (hi v : Nat) : incSat hi v = min hi (v + 1) := by
  unfold incSat
  split <;> omega

/-- The debounce's answer, as the line takes it. -/
theorem step_sampled (k : FlowLine) (v : Bool) :
    (let line := { k with pin := (k.pin.step k.deb v).1 }
    if (k.pin.step k.deb v).2.any (edgeCounts k.pedge) then FlowLine.counted line else line) = k.sampled v := by
  unfold PulseIn.step FlowLine.sampled
  simp only [incSat_eq_min]
  generalize (if k.pin.runLen ≠ 0 ∧ k.pin.level = v then min 16 (k.pin.runLen + 1) else 1) = run
  by_cases early : run < k.deb
  · simp only [if_pos early]
    rfl
  have late : run ≤ k.deb ↔ run = k.deb := by omega
  simp only [if_neg early, late]
  cases settled : k.pin.settled
  · rfl
  by_cases old : run = k.deb ∨ k.pin.counted = v
  · simp [old]
  · simp [old]

theorem pulseCount_flw (s : State) (n : Fin 3) : (s.pulseCount n).flw = (s.modFlow n FlowLine.counted).flw :=
  occur_flw _ 0x41

theorem pulseSample_none {s : State} {n : Fin 3} {p : PinSample} (h : s.pulseLevel n p = none) : s.pulseSample n p = s := by
  simp only [State.pulseSample, h]

theorem pulseSample_within (s : State) (n : Fin 3) (p : PinSample) : Within [.flw] s (s.pulseSample n p) := by
  have count (u : State) : Within [.flw] u (u.pulseCount n) :=
    .mono (.after ((occur_quiet _ 0x41).within []) (modFlow_within u n _)) rfl
  unfold State.pulseSample
  split
  · exact .refl _ s
  dsimp only
  split
  · exact modFlow_within s n _
  · exact (modFlow_within s n _).trans (.mono (within_ite (count _) (.refl [] _)) rfl)

/-- A sample with a level changes its line alone. -/
theorem pulseSample_flw {s : State} {n : Fin 3} {p : PinSample} {v : Bool} (h : s.pulseLevel n p = some v) :
    (s.pulseSample n p).flw = { s.flw with line := s.flw.line.set n ((s.flow n).sampled v) } := by
  rw [← step_sampled]
  unfold State.pulseSample
  simp only [h]
  rcases (s.flow n).pin.step (s.flow n).deb v with ⟨pin, _ | a⟩
  · rfl
  · dsimp only [Option.any_some]
    split
    · rw [pulseCount_flw, modFlow_modFlow]
      rfl
    · rfl

theorem pulseLevel_congr {s t : State} {n : Fin 3} (p : PinSample) (hm : (t.flow n).pmode = (s.flow n).pmode)
    (hq : (t.flow n).pin = (s.flow n).pin) (hp : t.prs = s.prs) : t.pulseLevel n p = s.pulseLevel n p := by
  have input (c : Fin 8) : t.cmpInput c = s.cmpInput c := by
    simp only [State.cmpInput, State.prsLine, hp]
  unfold State.pulseLevel State.cmpActive
  dsimp only
  rw [hm, hq, hp, input]

/-! ## A write of the count (R317) -/

theorem pulseCountWrite_none {s : State} (hp : s.powered = true) (i : Initiator) (n : Fin 3) (v : Word) :
    exec (.pulseCountWrite i n v none) s = .next (s.writeBy i (0x40006010 + 0x40 * n.val) v) :=
  show execPulseCountWrite i n v none s = _ from whenPowered_powered hp _

theorem pulseCountWrite_some {s : State} (hp : s.powered = true) (i : Initiator) (n : Fin 3) (v : Word) (p : PinSample) :
    exec (.pulseCountWrite i n v (some p)) s = .next ((s.writeBy i (0x40006010 + 0x40 * n.val) v).pulseSample n p) :=
  show execPulseCountWrite i n v (some p) s = _ from whenPowered_powered hp _

section
variable {s : State} {i : Initiator} {n : Fin 3} (hd : s.sys.runDmi = true)
  (hr : s.reaches i (0x40006010 + 0x40 * n.val) true = true)
include hd hr

theorem pulseWrite_written (v : Word) : Written (.next (s.writeBy i (0x40006010 + 0x40 * n.val) v)) s i
    (0x40006010 + 0x40 * n.val) fun u => (u.pulseWrite n v).afterWrite := by
  obtain ⟨-, reg, takes⟩ := lineReg n v
  exact flw_written hd reg hr fun u _ => ⟨takes u, rfl⟩

/-- After the write the line has the written count, and its input stands as before. -/
theorem pulseWrite_line (v : Word) :
    ((s.writeBy i (0x40006010 + 0x40 * n.val) v).flow n = { s.flow n with pcnt := v }) ∧
      ∀ p, (s.writeBy i (0x40006010 + 0x40 * n.val) v).pulseLevel n p = s.pulseLevel n p := by
  obtain ⟨u, hu, e⟩ := pulseWrite_written hd hr v
  have e := Host.Outcome.next.inj e
  have bus := atBus_within hu
  have ends := wroteBy_within (u.pulseWrite n v).afterWrite u i (0x40006010 + 0x40 * n.val)
  have runs : (u.pulseWrite n v).sys.runDmi = true := (congrArg Sys.runDmi (bus.sys rfl)).trans hd
  have flw : (s.writeBy i (0x40006010 + 0x40 * n.val) v).flw = (u.pulseWrite n v).flw := by
    rw [e, ends.flw rfl]
    exact startIslands_flw runs
  have prs : (s.writeBy i (0x40006010 + 0x40 * n.val) v).prs = s.prs := by
    rw [e, ends.prs rfl]
    exact ((startIslands_within _).prs rfl).trans (bus.prs rfl)
  have line : (s.writeBy i (0x40006010 + 0x40 * n.val) v).flow n = { s.flow n with pcnt := v } := by
    rw [flow_congr flw n, State.pulseWrite, flow_modFlow, if_pos rfl, flow_congr (bus.flw rfl) n]
  exact ⟨line, fun p => pulseLevel_congr p (by rw [line]; rfl) (by rw [line]) prs⟩

end

/-! ## The claims -/

/-- Settles O42: a sample makes `FlowLine.sampled` of its line, and the write of a count leaves the level that it reads. -/
theorem pulseInputsCountTransitions : Obligations.PulseInputsCountTransitions := by
  unfold Obligations.PulseInputsCountTransitions
  intro n s hp l counts up flow sampled
  have sample (p : PinSample) (hm : l.pmode ≠ 0) : exec (.pulseInputSample n p) s = .next (s.pulseSample n p) :=
    show execPulseInputSample n p s = _ from whenever_holds hp (bne_iff_ne.mpr hm) _
  refine ⟨fun p v hm hv => ?level, fun p hm hv => ?noLevel, fun hm => ?contact, fun i v hd hr =>
    ⟨?write, fun p x hx => ?both, fun p hx => ?writeAlone⟩⟩
  case level => exact (pulseSample_within s n p).touches (sample p hm) rfl (pulseSample_flw hv)
  case noLevel => rw [sample p hm, pulseSample_none hv]
  case contact => simp [State.pulseLevel, show (s.flow n).pmode = 1 from hm]
  case write =>
    rw [pulseCountWrite_none hp]
    exact pulseWrite_written hd hr v
  case both =>
    obtain ⟨line, level⟩ := pulseWrite_line hd hr v
    refine ⟨_, pulseCountWrite_some hp i n v p, ?_⟩
    rw [State.flow, pulseSample_flw ((level p).trans hx), line_set, if_pos rfl, line]
    rfl
  case writeAlone =>
    obtain ⟨-, level⟩ := pulseWrite_line hd hr v
    rw [pulseCountWrite_some hp, pulseCountWrite_none hp, pulseSample_none ((level p).trans hx)]

end Sys2Proof.Machine
end

section
/-!
SUPPORT. What the flow meter's operations make of its lines: due times and requests, the posting of a result, a write of
FLW_GCTL, and the start and the shots of a measurement (R127, R293 to R306, R310).
-/

namespace Sys2Proof.Machine

theorem modFlow_congr {s : State} {n : Fin 3} {f g : FlowLine → FlowLine} (h : f (s.flow n) = g (s.flow n)) :
    s.modFlow n f = s.modFlow n g :=
  congrArg (fun l => s.modFlow n fun _ => l) h

/-! ## Due times and requests (R293 to R295) -/

theorem periodic_of {s : State} {n : Fin 3} (he : (s.flow n).en = true) (hp : (s.flow n).period ≠ 0)
    (hc : s.tmp.counting = true) : s.periodic n = true := by
  simp [State.periodic, he, hp, hc]

theorem flowDue_eq {s : State} {n : Fin 3} (h : (s.flow n).period ≠ 0) : s.flowDue n = s.modFlow n fun l =>
    if l.meas = true ∨ l.due = true then { l with skip := true, prewake := false }
    else { l with
      due := true, prewake := false,
      dueAt := l.ts + (2 * (s.local.toNat - l.ts) + l.period * 2000000) / (2 * (l.period * 2000000)) * (l.period * 2000000) } := by
  have grid : FlowLine.gridTime { s.flow n with prewake := false } s.local.toNat = _ :=
    if_neg (Nat.mul_ne_zero h (by decide))
  unfold State.flowDue
  refine modFlow_congr ?_
  simp only [Bool.or_eq_true, grid]
  rfl

/-- What a START request makes of its line. -/
def FlowLine.requested (l : FlowLine) (now : Nat) : FlowLine :=
  if l.meas then l else if l.due then { l with start := true } else { l with due := true, start := true, dueAt := now }

/-- The requests of the lines in `l` that START names change these lines alone. -/
theorem requests_eq (f : Fin 3 → Bool) {l : List (Fin 3)} (hl : l.Nodup) (s : State) :
    ∃ lines, l.foldl (fun s n => if f n then s.flowRequest n else s) s = { s with flw := { s.flw with line := lines } } ∧
      ∀ n, lines.get n = if n ∈ l ∧ f n = true then (s.flow n).requested s.local.toNat else s.flow n := by
  induction l generalizing s with
  | nil => exact ⟨s.flw.line, rfl, fun n => by simp [State.flow]⟩
  | cons m l ih =>
    obtain ⟨hm, hl⟩ := List.nodup_cons.mp hl
    obtain ⟨lines, e, each⟩ := ih hl (if f m then s.flowRequest m else s)
    have first (n : Fin 3) : (if f m then s.flowRequest m else s).flow n =
        if n = m ∧ f m = true then (s.flow n).requested s.local.toNat else s.flow n := by
      cases f m
      · simp
      · change (s.modFlow m fun l => l.requested s.local.toNat).flow n = _
        rw [flow_modFlow]
        by_cases h : n = m <;> simp [h]
    have now : (if f m then s.flowRequest m else s).local = s.local := by split <;> rfl
    refine ⟨lines, ?_, fun n => ?_⟩
    · rw [List.foldl_cons, e]
      split <;> rfl
    · rw [each, now, first]
      by_cases h : n = m
      · subst h; simp [hm]
      · simp [h]

/-- The earliest due time, and of equal ones the lowest line. -/
theorem first_eq {w : Flw} {n : Fin 3} (hd : (w.line.get n).due = true)
    (h : ∀ m, (w.line.get m).due = true → (w.line.get n).dueAt < (w.line.get m).dueAt ∨
      (w.line.get n).dueAt = (w.line.get m).dueAt ∧ n ≤ m) : w.first = some n := by
  have h0 := h 0
  have h1 := h 1
  have h2 := h 2
  change [0, 1, 2].foldl _ none = _
  simp only [List.foldl_cons, List.foldl_nil]
  match n with
  | 0 => grind
  | 1 => grind
  | 2 => grind


/-! ## A result posts (R303, R304, R306, R310) -/

/-- The pairs of a measurement that count: none of their shots was rejected, and they pass the slip check (R302). -/
def FlowLine.valid (l : FlowLine) (m : FlowMeas) : List (Shot × Shot) :=
  noSlip l.fdiv ((pairsOf 0 m.shots).filter fun p => pairReason p == 4)

/-- The mean difference, DTRAW. -/
def FlowLine.raw (l : FlowLine) (m : FlowMeas) : Int := roundDiv ((l.valid m).map dtOf).sum (l.valid m).length

/-- The result updates the zero (R310). -/
def FlowLine.learns (l : FlowLine) (m : FlowMeas) (qual : Nat) : Bool := qual == 0 && m.zfirst && l.zcond

/-- The zero that the result leaves (R310). -/
def FlowLine.nextZero (l : FlowLine) (m : FlowMeas) (qual : Nat) : Int :=
  if l.learns m qual then l.zero.toInt + roundDiv (l.raw m - l.zero.toInt) (min (l.zk + 1) 16) else l.zero.toInt

/-- The quality of a result with valid pairs and of one without (R304). -/
def FlowLine.Quality (l : FlowLine) (m : FlowMeas) (qual : Nat) : Prop :=
  if l.valid m = [] then 2 ≤ qual ∧ qual < 6 else qual = if l.pairs ≤ 2 * (l.valid m).length then 0 else 1

/-- The line `k` that a posting with this quality makes of `l`. -/
structure FlowLine.Posted (l : FlowLine) (m : FlowMeas) (q : Nat) (k : FlowLine) : Prop where
  meas : k.meas = false
  new : k.new = true
  exclow : k.exclow = m.exclow
  qual : k.qual = BitVec.ofNat 3 q
  seq : k.res.seq = l.res.seq + 1
  nvalid : k.res.nvalid = BitVec.ofNat 8 (l.valid m).length
  nrej : k.res.nrej = BitVec.ofNat 8 ((pairsOf 0 m.shots).length - (l.valid m).length)
  dtsum : k.res.dtsum = BitVec.ofInt 32 ((l.valid m).map dtOf).sum
  none : l.valid m = [] → k.dt = 0x80000000 ∧ k.res.dtraw = 0x80000000
  dtraw : l.valid m ≠ [] → k.res.dtraw = BitVec.ofInt 32 (l.raw m)
  dt : l.valid m ≠ [] → k.dt = BitVec.ofInt 32 (max (-2147483648) (min 2147483647 (l.raw m - l.nextZero m q)))
  zero : l.valid m ≠ [] → k.zero = BitVec.ofInt 32 (l.nextZero m q)
  zk : k.zk = if l.learns m q then l.zk + 1 else l.zk
  zstate : k.zstate = if l.learns m q then .auto else l.zstate

/-- A swap of the line's domain changes none of this (R211, R296). -/
theorem flowSwap_posted {l : FlowLine} {m : FlowMeas} {q : Nat} {s : State} {n : Fin 3} (h : l.Posted m q (s.flow n)) :
    l.Posted m q ((s.flowSwap n).flow n) := by
  unfold State.flowSwap
  split
  · dsimp only
    rw [flow_modFlow, if_pos rfl]
    obtain ⟨⟩ := h
    constructor <;> assumption
  · exact h

theorem flowSwap_flw (s : State) (n : Fin 3) : ∃ lines, (s.flowSwap n).flw = { s.flw with line := lines } := by
  unfold State.flowSwap
  split
  · exact ⟨_, rfl⟩
  · exact ⟨_, rfl⟩

theorem flowSwap_eng (s : State) (n : Fin 3) : (s.flowSwap n).eng = s.eng := by
  unfold State.flowSwap
  split <;> rfl

/-- What a posting makes of the flow meter, and its event. -/
structure State.FlowPosted (s : State) (n : Fin 3) (m : FlowMeas) (qual : Nat) (t : State) : Prop where
  within : Within [.flw, .armed, .prs, .fresh] s t
  line : (s.flow n).Posted m qual (t.flow n)
  meas : t.flw.meas = none
  keep : t.flw.keep = s.local.toNat + 80000
  pends : t.eng.evpend.getLsbD 6 = true

theorem worstOf_range (a b c d : Nat) : 2 ≤ worstOf a b c d ∧ worstOf a b c d < 6 := by
  unfold worstOf
  dsimp only
  split
  · decide
  split
  · decide
  split <;> decide

/-- The quality by the number of valid pairs, where a rejection's is `w`. -/
theorem quality_of (l : FlowLine) (m : FlowMeas) {w : Nat} (hw : 2 ≤ w ∧ w < 6) :
    l.Quality m (if (l.valid m).length = 0 then w else if ceilDiv l.pairs 2 ≤ (l.valid m).length then 0 else 1) := by
  have half : ceilDiv l.pairs 2 ≤ (l.valid m).length ↔ l.pairs ≤ 2 * (l.valid m).length := by
    unfold ceilDiv
    omega
  unfold FlowLine.Quality
  by_cases h : l.valid m = []
  · rw [if_pos h, if_pos (List.length_eq_zero_iff.mpr h)]
    exact hw
  · rw [if_neg h, if_neg (mt List.length_eq_zero_iff.mp h)]
    simp only [half]

theorem flowPost_posts (s : State) (n : Fin 3) (m : FlowMeas) (cut : Option Nat) :
    ∃ qual, s.FlowPosted n m qual (s.flowPost n m cut) ∧ (∀ q, cut = some q → qual = q) ∧
      (cut = none → (s.flow n).Quality m qual) := by
  have within := flowPost_within s n m cut
  generalize ht : s.flowPost n m cut = t at within ⊢
  unfold State.flowPost at ht
  extract_lets l ps ok va cnt slip nv sum up dn raw qual learn zk z₀ z cap free res s₁ s₂ s₃ s₄ s₅ s₆ at ht
  subst ht
  have raw_eq (h : l.valid m ≠ []) : raw = l.raw m := if_neg (mt List.length_eq_zero_iff.mp h)
  have zero_eq (h : l.valid m ≠ []) : z = l.nextZero m qual := by
    unfold z zk FlowLine.nextZero
    rw [raw_eq h]
    change (if learn then _ else _) = if learn then _ else _
    split <;> rfl
  have flw : s₆.flw = s₄.flw := event_flw _ 6
  have old : s₂.flow n = l := flow_congr (count_flw _ _ _ _ _) n
  have line : s₆.flow n = _ := (show _ = s₃.flow n from flow_congr flw n).trans ((flow_modFlow s₂ n n _).trans (if_pos rfl))
  rw [old] at line
  have posted : l.Posted m qual (s₆.flow n) := by
    rw [line]
    exact {
      meas := rfl, new := rfl, exclow := rfl, qual := rfl, seq := rfl, nvalid := rfl, nrej := rfl, dtsum := rfl
      none := fun h => ⟨if_pos (List.length_eq_zero_iff.mpr h), if_pos (List.length_eq_zero_iff.mpr h)⟩
      dtraw := fun h => (if_neg (mt List.length_eq_zero_iff.mp h)).trans (by rw [raw_eq h])
      dt := fun h => (if_neg (mt List.length_eq_zero_iff.mp h)).trans (by rw [raw_eq h, zero_eq h]; rfl)
      zero := fun h => congrArg (BitVec.ofInt 32) (zero_eq h)
      zk := rfl, zstate := rfl }
  have now : s₃.local = s.local := local_congr (show s₂.tmp = s₁.tmp from count_tmp _ _ _ _ _)
  obtain ⟨lines, hflw⟩ := flowSwap_flw s₆ n
  refine ⟨qual, ⟨within, flowSwap_posted posted, ?meas, ?keep, ?pends⟩, ?cut, ?quality⟩
  case meas =>
    rw [hflw, flw]
    rfl
  case keep =>
    rw [hflw, flw]
    exact congrArg (fun x : BitVec 64 => x.toNat + 80000) now
  case pends =>
    rw [flowSwap_eng]
    exact event_pends _ 6
  case cut =>
    rintro q rfl
    rfl
  case quality =>
    rintro rfl
    exact quality_of l m (worstOf_range _ _ _ _)

section
variable {l k : FlowLine} {m : FlowMeas} {q : Nat} (h : l.Posted m q k)
include h

theorem FlowLine.Posted.without (hq : l.Quality m q) (hv : l.valid m = []) :
    2 ≤ k.qual.toNat ∧ k.dt = 0x80000000 ∧ k.res.dtraw = 0x80000000 := by
  rw [FlowLine.Quality, if_pos hv] at hq
  refine ⟨?_, h.none hv⟩
  rw [h.qual, BitVec.toNat_ofNat]
  omega

theorem FlowLine.Posted.quality (hq : l.Quality m q) (hv : l.valid m ≠ []) :
    k.qual = if l.pairs ≤ 2 * (l.valid m).length then 0 else 1 := by
  rw [FlowLine.Quality, if_neg hv] at hq
  rw [h.qual, hq]
  split <;> rfl

/-- A result with enough pairs updates the zero while the zero condition held (R310). -/
theorem FlowLine.Posted.learned (hv : l.valid m ≠ []) (hl : l.learns m q = true) :
    let z := l.zero.toInt + roundDiv (l.raw m - l.zero.toInt) (min (l.zk + 1) 16)
    k.zero = BitVec.ofInt 32 z ∧ k.zk = l.zk + 1 ∧ k.zstate = .auto ∧
      k.dt = BitVec.ofInt 32 (max (-2147483648) (min 2147483647 (l.raw m - z))) := by
  have zero := h.zero hv
  have dt := h.dt hv
  rw [FlowLine.nextZero, if_pos hl] at zero dt
  exact ⟨zero, h.zk.trans (if_pos hl), h.zstate.trans (if_pos hl), dt⟩

theorem FlowLine.Posted.kept (hv : l.valid m ≠ []) (hl : ¬ l.learns m q = true) :
    k.zero = l.zero ∧ k.zk = l.zk ∧ k.zstate = l.zstate ∧
      k.dt = BitVec.ofInt 32 (max (-2147483648) (min 2147483647 (l.raw m - l.zero.toInt))) := by
  have zero := h.zero hv
  have dt := h.dt hv
  rw [FlowLine.nextZero, if_neg hl] at zero dt
  exact ⟨zero.trans (BitVec.ofInt_toInt), h.zk.trans (if_neg hl), h.zstate.trans (if_neg hl), dt⟩

end

theorem learns_iff {l : FlowLine} {m : FlowMeas} {q : Nat} (hq : l.Quality m q) (hv : l.valid m ≠ []) :
    l.learns m q = true ↔ l.pairs ≤ 2 * (l.valid m).length ∧ m.zfirst = true ∧ l.zcond = true := by
  rw [FlowLine.Quality, if_neg hv] at hq
  have full : q = 0 ↔ l.pairs ≤ 2 * (l.valid m).length := by
    rw [hq]
    split <;> simp [*]
  simp [FlowLine.learns, full, and_assoc]

/-! ## The DMI before a due time (R127, R294) -/

/-- While XO32M runs, a line's prewake starts the DMI. -/
theorem prewake_runs {s : State} {n : Fin 3} (hx : s.sys.xoRun = true) (hl : s.flw.dead = false)
    (h : (s.flow n).prewake = true) : s.startIslands.sys.runDmi = true := by
  have any : ((upTo 3).any fun n => (s.flow n).due || (s.flow n).prewake) = true :=
    List.any_eq_true.mpr ⟨n, List.mem_finRange n, by rw [h, Bool.or_true]⟩
  have wants : s.flowWants = true := by rw [State.flowWants, hl, any]; exact Bool.or_true _
  have wanted : s.dmiWanted = true := by simp [State.dmiWanted, wants]
  rw [startIslands_sys hx, wanted]
  exact Bool.or_true _

/-! ## FLW_GCTL (R295) -/

theorem getLsbD_gctl (q : Bool) (mask : BitVec 3) :
    (placeB q 3 ||| place mask.toNat 0).getLsbD 3 = q ∧
      ∀ n : Fin 3, (placeB q 3 ||| place mask.toNat 0).getLsbD n.val = mask.getLsbD n.val := by
  have high : mask.toNat.testBit 3 = false := testBit_of_lt mask.isLt (by decide)
  refine ⟨?_, fun n => ?_⟩
  · rw [BitVec.getLsbD_or, placeB, getLsbD_place, getLsbD_place]
    cases q <;> simp [b2n, high]
  · have hn := n.isLt
    rw [BitVec.getLsbD_or, placeB, getLsbD_place, getLsbD_place]
    simp [show ¬ 3 ≤ n.val by omega, show n.val < 32 by omega, BitVec.getLsbD]

theorem reserved_gctl (q : Bool) (mask : BitVec 3) : fld (placeB q 3 ||| place mask.toNat 0) 4 28 = 0 := by
  rw [fld_zero_iff, BitVec.extractLsb'_or, placeB, extract_place_other (b2n_lt q) (by omega),
    extract_place_other mask.isLt (by omega)]
  rfl

/-- A write of FLW_GCTL that starts enabled lines. -/
theorem gctlWrite_takes {u : State} (q : Bool) {mask : BitVec 3}
    (he : ∀ n : Fin 3, mask.getLsbD n.val = true → (u.flow n).en = true) :
    ∃ lines, u.gctlWrite (placeB q 3 ||| place mask.toNat 0) =
        ({ u with flw := { u.flw with line := lines, hquiet := q } }, 0) ∧
      ∀ n, lines.get n =
        if mask.getLsbD n.val = true then (u.flow n).requested u.local.toNat else u.flow n := by
  obtain ⟨quiet, lines⟩ := getLsbD_gctl q mask
  have enabled : (upTo 3).any (fun n => mask.getLsbD n.val && !(u.flow n).en) = false := by
    rw [List.any_eq_false]
    intro n _
    cases hm : mask.getLsbD n.val
    · simp
    · simp [he n hm]
  obtain ⟨ls, e, each⟩ := requests_eq (fun n => mask.getLsbD n.val) (List.nodup_finRange 3) u
  refine ⟨ls, ?_, fun n => by rw [each]; simp⟩
  unfold State.gctlWrite
  simp only [bit_eq_getLsbD, lines, quiet]
  rw [if_neg (by rw [enabled, reserved_gctl]; decide)]
  change (State.modFlw ((List.finRange 3).foldl _ u) _, 0) = _
  rw [e]
  rfl

theorem gctl_written {s : State} {i : Initiator} {mask : BitVec 3} (hd : s.sys.runDmi = true)
    (hr : s.reaches i 0x40006100 true = true) (q : Bool)
    (he : ∀ n : Fin 3, mask.getLsbD n.val = true → (s.flow n).en = true) :
    Written (.next (s.writeBy i 0x40006100 (placeB q 3 ||| place mask.toNat 0))) s i 0x40006100 fun u =>
      (u.gctlWrite (placeB q 3 ||| place mask.toNat 0)).1.afterWrite := by
  refine flw_written (g := fun u => (u.gctlWrite _).1) hd rfl hr fun u hu => ?_
  obtain ⟨lines, taken, -⟩ := gctlWrite_takes (u := u) q fun n h => (flow_congr (hu.flw rfl) n).symm ▸ he n h
  change u.gctlWrite _ = _ ∧ _
  rw [taken]
  exact ⟨rfl, rfl⟩

/-! ## A measurement starts, and its shots (R294, R297 to R301, R332) -/

/-- The excitation is low (R301). -/
def State.lowExc (s : State) (n : Fin 3) : Bool := (s.flow n).vexc && decide (s.nrg.vres.toNat < 11000)

/-- The measurement of a line before its first shot. -/
def State.begun (s : State) (n : Fin 3) : FlowMeas :=
  { line := n, shots := [], vexc := (s.flow n).vexc && !s.lowExc n, exclow := s.lowExc n, zfirst := false, stamp := none }

/-- The front end has taken up the line. -/
def State.flowBegun (s : State) (n : Fin 3) : State :=
  ((s.modFlow n fun l => { l with meas := true, due := false, start := false }).modFlw fun w =>
    { w with meas := some (s.begun n) }).entered 0x3B none false true

theorem flowStart_eq (s : State) (n : Fin 3) : s.flowStart n =
    if (s.flow n).configOk then s.flowBegun n else (s.flowBegun n).flowPost n (s.begun n) (some 7) := rfl

theorem flowBegun_within (s : State) (n : Fin 3) : Within [.flw] s (s.flowBegun n) :=
  .mono (.after ((entered_quiet _ _ _ _ _).within []) (.after (flow_within _ _ rfl) (modFlow_within s n _))) rfl

theorem flowBegun_flw (s : State) (n : Fin 3) : (s.flowBegun n).flw = { s.flw with
    line := s.flw.line.set n { s.flow n with meas := true, due := false, start := false }, meas := some (s.begun n) } :=
  entered_flw _ _ _ _ _

theorem configOk_iff (l : FlowLine) : l.configOk = true ↔
    l.wopen < l.wclose ∧ l.wclose + 50 ≤ l.sint ∧ l.npulse * l.fdiv ≤ 64 * l.wopen := by
  simp [FlowLine.configOk, and_assoc]

theorem valid_noShots (l : FlowLine) {m : FlowMeas} (h : m.shots = []) : l.valid m = [] := by
  unfold FlowLine.valid
  rw [h]
  rfl

theorem flowMeasurementStart_next {s : State} {n : Fin 3} (hp : s.powered = true) (hd : s.sys.runDmi = true)
    (hm : s.flw.meas = none) (hl : s.flw.dead = false) (hf : s.flw.first = some n) :
    exec .flowMeasurementStart s = .next (s.flowStart n) := by
  change execFlowMeasurementStart s = _
  simp only [execFlowMeasurementStart, hf]
  exact whenever_holds hp (by rw [hd, hm, hl]; rfl) _

theorem flowShot_within (s : State) (m : FlowMeas) (o : Shot) : Within [.flw, .prs] s (s.flowShot m o) :=
  .mono (.after (lines_within _ _ rfl) (.after ((occur_quiet _ 0x38).within []) (flow_within s _ rfl))) rfl

theorem flowShot_flw (s : State) (m : FlowMeas) (o : Shot) : (s.flowShot m o).flw = { s.flw with
    winFrom := s.local.toNat + 16 * (s.flow m.line).wopen, winTo := s.local.toNat + 16 * (s.flow m.line).wclose,
    quiet := s.flw.hquiet,
    meas := some { m with
      shots := m.shots ++ [o],
      stamp := if m.shots = [] then some (s.local.extractLsb' 0 32) else m.stamp,
      zfirst := if m.shots = [] then (s.flow m.line).zcond else m.zfirst } } := by
  refine (occur_flw _ 0x38).trans ?_
  simp only [List.isEmpty_iff]
  rfl

end Sys2Proof.Machine
end

section
/-!
PROOFS. Due flow lines, their measurements, shots and results, and the zero (R293 to R312), and the statement about them.
-/

namespace Sys2Proof.Machine

/-- The frame of a row that changes the flow meter, and swaps or latches at most besides. -/
theorem Within.touches_flow {s t : State} {o : Out} {f : State → Prop} (h : Within [.flw, .armed, .prs, .fresh] s t)
    (ho : o = .next t) (hf : f t) :
    Touches o (fun t => { s with armed := t.armed, flw := t.flw, prs := t.prs, fresh := t.fresh }) f :=
  h.touches ho rfl hf

/-- Settles O41: a posting is `FlowLine.Posted`; each other row makes of its lines what the lemma on its operation says. -/
theorem flowMeasurementsRunTheirRules : Obligations.FlowMeasurementsRunTheirRules := by
  unfold Obligations.FlowMeasurementsRunTheirRules
  intro s hp only put isFirst
  refine ⟨fun n he hper hc => ⟨fun hd => ?due, fun hl => ?prewake⟩, fun i mask hd hr he => ?start,
    fun hd => ⟨fun n hm hl hf => ⟨fun hok => ?begins, fun hbad => ?refused⟩, fun m o ph hm hn => ?shot, fun m hm hn => ?result⟩,
    fun i n v hd hr => ?zero, fun n hc hz hmask hcond hv => ?condition⟩
  case due =>
    have within : Within [.flw] s (s.flowDue n) := by
      rw [flowDue_eq hper]
      exact modFlow_within s n _
    refine (within.mono rfl).touches_flow ?_ ?_
    · exact show execFlowDue n s = _ from whenever_holds hp (by rw [hd, periodic_of he hper hc]; rfl) _
    · rw [flowDue_eq hper]
      rfl
  case prewake =>
    have within : Within [.sys, .drv, .flw, .rad] s (s.modFlow n fun l => { l with prewake := true }).startIslands :=
      .mono (.after (startIslands_within _) (modFlow_within s n _)) rfl
    have marked : ((s.modFlow n fun l => { l with prewake := true }).flow n).prewake = true := by
      rw [flow_modFlow, if_pos rfl]
    refine within.touches ?_ rfl ⟨(startIslands_prewake _ n).trans marked, fun hx => prewake_runs hx hl marked⟩
    exact show execFlowPrewake n s = _ from whenever_holds hp (by rw [periodic_of he hper hc, hl]; rfl) _
  case start =>
    obtain ⟨u, hu, e⟩ := gctl_written hd hr s.flw.hquiet he
    have bus := atBus_within hu
    have same (n : Fin 3) : u.flow n = s.flow n := flow_congr (bus.flw rfl) n
    obtain ⟨lines, taken, each⟩ := gctlWrite_takes s.flw.hquiet fun n h => (same n).symm ▸ he n h
    dsimp only at e
    rw [taken] at e
    refine ⟨u, { u with flw := { u.flw with line := lines, hquiet := s.flw.hquiet } }, hu, ?_, rfl, rfl, fun n => ?_⟩
    · exact (show execFlowStartRequest i mask s = _ from whenPowered_powered hp _).trans e
    · change lines.get n = _
      rw [each, local_congr (bus.tmp rfl), same]
      unfold FlowLine.requested
      cases mask.getLsbD n.val <;> simp
  case begins =>
    have first : s.flw.first = some n := first_eq hf.1 hf.2
    refine Within.touches_flow (t := s.flowBegun n) (.mono (flowBegun_within s n) rfl) ?_ ?_
    · rw [flowMeasurementStart_next hp hd hm hl first, flowStart_eq, if_pos ((configOk_iff _).mpr (not_not.mp hok))]
    · rw [flowBegun_flw]
      simp only [Bool.decide_and, Bool.decide_eq_true]
      rfl
  case refused =>
    have first : s.flw.first = some n := first_eq hf.1 hf.2
    obtain ⟨q, posts, refusal, -⟩ := flowPost_posts (s.flowBegun n) n (s.begun n) (some 7)
    have line : (s.flowBegun n).flow n = { s.flow n with meas := true, due := false, start := false } := by
      rw [State.flow, flowBegun_flw, line_set, if_pos rfl]
    obtain rfl := refusal 7 rfl
    refine Within.touches_flow (.mono (.after posts.within (flowBegun_within s n)) rfl) ?_
      ⟨posts.meas, posts.line.qual, posts.line.new, (posts.line.none (valid_noShots _ rfl)).1, ?_, posts.pends⟩
    · rw [flowMeasurementStart_next hp hd hm hl first, flowStart_eq, if_neg ((configOk_iff _).not.mpr hbad)]
    · rw [posts.line.seq, line]
  case shot =>
    have within : Within [.tmp, .flw, .prs] s ((s.atPhase ph).flowShot m o) :=
      .mono (.after (flowShot_within _ m o) (atPhase_within s ph)) rfl
    have tmp : ((s.atPhase ph).flowShot m o).tmp = (s.atPhase ph).tmp := (flowShot_within _ m o).tmp rfl
    refine within.touches ?_ rfl ⟨tmp, ?_⟩
    · change execFlowShot o ph s = _
      simp only [execFlowShot, hm]
      exact whenever_holds hp (by rw [hd]; exact decide_eq_true hn) _
    · rw [flowShot_flw, local_congr tmp]
      rfl
  case result =>
    intro l ps va raw full
    obtain ⟨q, posts, -, quality⟩ := flowPost_posts s m.line m none
    have quality := quality rfl
    have p := posts.line
    refine Within.touches_flow posts.within ?_ ⟨posts.meas, posts.keep, p.meas, p.new, p.exclow, posts.pends, p.seq,
      p.nvalid, p.nrej, p.dtsum, p.without quality, fun hv => ⟨p.quality quality hv, p.dtraw hv⟩, fun hv hfull hz hc => ?_,
      fun hv hno => ?_⟩
    · change execFlowResultPost s = _
      simp only [execFlowResultPost, hm]
      exact whenever_holds hp (by rw [hd]; exact beq_iff_eq.mpr hn) _
    · exact p.learned hv ((learns_iff quality hv).mpr ⟨hfull, hz, hc⟩)
    · refine p.kept hv fun hl => ?_
      obtain ⟨hfull, hz, hc⟩ := (learns_iff quality hv).mp hl
      rcases hno with h | h | h
      · exact h hfull
      · exact absurd hz (by rw [h]; decide)
      · exact absurd hc (by rw [h]; decide)
  case zero =>
    obtain ⟨⟨reg, takes⟩, -⟩ := lineReg n v
    have write : exec (.flowZeroWrite i n v) s = .next (s.writeBy i (0x4000600C + 0x40 * n.val) v) :=
      show execFlowZeroWrite i n v s = _ from whenPowered_powered hp _
    rw [write]
    exact flw_written hd reg hr fun u _ => ⟨takes u, rfl⟩
  case condition =>
    have closed : s.gateClosed n = true := by
      simp only [State.gateClosed, Bool.and_eq_true, bne_iff_ne, List.all_eq_true]
      refine ⟨⟨hz, hmask⟩, fun v _ => ?_⟩
      cases hb : (s.flow n).mask.testBit v.val
      · rfl
      · rw [hv v hb]
        rfl
    refine Within.touches_flow (t := s.modFlow n fun l => { l with zcond := true, zk := 0 })
      (.mono (modFlow_within s n _) rfl) ?_ rfl
    exact show execZeroCondition n s = _ from whenever_holds hp (by rw [hc, closed, hcond]; rfl) _

end Sys2Proof.Machine
end


section
/-!
SUPPORT. The pressure lines and the comparators by index: what a change of one line or of one comparator makes of each, and what
a line's changes make of its comparator (R319, R320, R327, R330).
-/

namespace Sys2Proof.Machine

/-! ## One line, one comparator -/

theorem vector_get_set {α : Type} {m : Nat} (v : Vector α m) (n k : Fin m) (x : α) :
    (v.set n x).get k = if k = n then x else v.get k := by
  simp only [Vector.get_eq_getElem, Vector.getElem_set, Fin.ext_iff, eq_comm]

theorem vector_set_get {α : Type} {m : Nat} (v : Vector α m) (n : Fin m) : v.set n (v.get n) = v :=
  Vector.set_getElem_self n.isLt

theorem prsLine_congr {s t : State} (h : t.prs = s.prs) (n : Fin 3) : t.prsLine n = s.prsLine n :=
  congrArg (fun p => p.line.get n) h

theorem prsLine_modLine (s : State) (n : Fin 3) (f : PrsLine → PrsLine) : (s.modLine n f).prsLine n = f (s.prsLine n) :=
  (vector_get_set s.prs.line n n _).trans (if_pos rfl)

theorem modLine_congr {s : State} {n : Fin 3} {f g : PrsLine → PrsLine} (h : f (s.prsLine n) = g (s.prsLine n)) :
    s.modLine n f = s.modLine n g :=
  congrArg (fun l => s.modLine n fun _ => l) h

/-- A change that leaves the line as it is. -/
theorem modLine_self {s : State} {n : Fin 3} {f : PrsLine → PrsLine} (h : f (s.prsLine n) = s.prsLine n) :
    s.modLine n f = s := by
  change ({ s with prs := { s.prs with line := s.prs.line.set n (f (s.prsLine n)) } } : State) = s
  rw [h, State.prsLine, vector_set_get]

theorem cmp_modCmp (s : State) (c k : Fin 8) (f : Cmp → Cmp) :
    (s.modCmp c f).prs.cmp.get k = if k = c then f (s.prs.cmp.get c) else s.prs.cmp.get k :=
  vector_get_set s.prs.cmp c k _

theorem cmp_modCmp_same (s : State) (c : Fin 8) (f : Cmp → Cmp) : (s.modCmp c f).prs.cmp.get c = f (s.prs.cmp.get c) :=
  (cmp_modCmp s c c f).trans (if_pos rfl)

/-- The line's comparator. -/
def lineCmp (n : Fin 3) : Fin 8 := ⟨n.val, by omega⟩

/-- A line and its comparator are evaluated in another way than those of `old` (R327, R330). -/
abbrev PrsLine.Moved (l old : PrsLine) : Prop :=
  (l.armed || l.spot) ≠ (old.armed || old.spot) ∨ l.armed = true ∧ old.armed = true ∧ l.pulsed ≠ old.pulsed

theorem cmpFollow_line (s : State) (n : Fin 3) (old : PrsLine) : (s.cmpFollow n old).prsLine n = s.prsLine n := by
  unfold State.cmpFollow
  dsimp only
  split <;> rfl

theorem cmpFollow_cmp (s : State) (n : Fin 3) (old : PrsLine) : (s.cmpFollow n old).prs.cmp.get (lineCmp n) =
    if (s.prsLine n).Moved old then (s.prs.cmp.get (lineCmp n)).restart else s.prs.cmp.get (lineCmp n) := by
  have moved : ((((s.prsLine n).armed || (s.prsLine n).spot) != (old.armed || old.spot) ||
      ((s.prsLine n).armed && old.armed && (s.prsLine n).pulsed != old.pulsed)) = true) ↔ (s.prsLine n).Moved old := by
    simp [PrsLine.Moved, and_assoc]
  unfold State.cmpFollow
  dsimp only
  simp only [moved]
  split
  · exact cmp_modCmp_same s (lineCmp n) _
  · rfl

/-! ## Front-end voltages (R319, R320) -/

theorem vp_eq (l : PrsLine) (d : Int) : l.vp d =
    (if l.ctlAct.getLsbD 28 then d else 900000 + 2 ^ (l.ctlAct.extractLsb' 23 2).toNat * d).toNat := by
  simp only [PrsLine.vp, bit_eq_getLsbD, fld_eq_extractLsb']

end Sys2Proof.Machine
end

section
/-!
SUPPORT. The ring of a pressure line and the header of its record as bytes of memory (R324, R340, R342).
-/

namespace Sys2Proof.Machine

/-! ## Bytes of words -/

/-- Four samples as one 64-bit word, the oldest lowest. -/
theorem packed_four (a b c d : BitVec 16) : ([a, b, c, d].zipIdx).foldl (fun w p => w + p.1.toNat <<< (16 * p.2)) 0 =
    a.toNat + b.toNat <<< 16 + c.toNat <<< 32 + d.toNat <<< 48 := by
  simp only [List.zipIdx_cons, List.zipIdx_nil, List.foldl_cons, List.foldl_nil, Nat.reduceAdd, Nat.reduceMul,
    Nat.shiftLeft_zero, Nat.zero_add]

/-- Byte `k` of four samples packed into one word is a byte of sample `k / 2`. -/
theorem packed_byte {l : List (BitVec 16)} (hl : l.length = 4) {k : Nat} (hk : k < 8) :
    BitVec.ofNat 8 ((BitVec.ofNat 64 ((l.zipIdx).foldl (fun w p => w + p.1.toNat <<< (16 * p.2)) 0)).toNat >>> (8 * k)) =
      (l.getD (k / 2) 0).extractLsb' (8 * (k % 2)) 8 := by
  obtain ⟨a, b, c, d, rfl⟩ : ∃ a b c d, l = [a, b, c, d] := by
    match l, hl with
    | [a, b, c, d], _ => exact ⟨a, b, c, d, rfl⟩
  have ha := a.isLt
  have hb := b.isLt
  have hc := c.isLt
  have hd := d.isLt
  refine BitVec.eq_of_toNat_eq ?_
  rw [packed_four, BitVec.toNat_ofNat, BitVec.toNat_ofNat, BitVec.extractLsb'_toNat]
  simp only [Nat.shiftLeft_eq, Nat.shiftRight_eq_div_pow]
  match k, hk with
  | 0, _ | 1, _ | 2, _ | 3, _ | 4, _ | 5, _ | 6, _ | 7, _ =>
    simp only [Nat.reduceDiv, Nat.reduceMod, Nat.reduceMul, Nat.reducePow, List.getD_cons_zero, List.getD_cons_succ]
    omega
/-- Byte `j` of the 64-bit word `k` of a number is its byte `8 * k + j`. -/
theorem word_byte (h k : Nat) {j : Nat} (hj : j < 8) :
    BitVec.ofNat 8 ((BitVec.ofNat 64 (h >>> (64 * k))).toNat >>> (8 * j)) = BitVec.ofNat 8 (h >>> (8 * (8 * k + j))) := by
  refine BitVec.eq_of_getLsbD_eq fun i hi => ?_
  have low : 8 * j + i < 64 := by omega
  have at_ : 64 * k + (8 * j + i) = 8 * (8 * k + j) + i := by omega
  simp only [BitVec.getLsbD_ofNat, BitVec.toNat_ofNat, Nat.testBit_shiftRight, Nat.testBit_mod_two_pow, low, at_, decide_true,
    Bool.true_and]

/-! ## Words of memory -/

theorem fullMask_bit {k : Nat} (h : k < 8) : (0xFF : BitVec 8).getLsbD k = true := by
  match k, h with
  | 0, _ | 1, _ | 2, _ | 3, _ | 4, _ | 5, _ | 6, _ | 7, _ => rfl

theorem writeWord_wf {s : State} (hm : Memory.wf s.mem = true) (w : Nat) (d : DWord) (m : BitVec 8) (inj : Nat) :
    Memory.wf (s.writeWord w d m inj).mem = true := by
  rw [Memory.wf, (writeWord_mem s w d m inj).2]
  exact putMasked_cells s.mem.cells w d m hm

/-- A write of a whole 64-bit word. -/
theorem cellAt_writeWord {s : State} (hm : Memory.wf s.mem = true) (w : Nat) (d : DWord) (inj x : Nat) :
    cellAt (s.writeWord w d 0xFF inj).mem.cells x =
      if w ≤ x ∧ x < w + 8 then BitVec.ofNat 8 (d.toNat >>> (8 * (x - w))) else cellAt s.mem.cells x := by
  have mask : (w ≤ x ∧ x < w + 8 ∧ (0xFF : BitVec 8).getLsbD (x - w) = true) ↔ w ≤ x ∧ x < w + 8 :=
    ⟨fun ⟨h, k, _⟩ => ⟨h, k⟩, fun ⟨h, k⟩ => ⟨h, k, fullMask_bit (by omega)⟩⟩
  rw [(writeWord_mem s w d 0xFF inj).2, cellAt_putMasked s.mem.cells w d 0xFF x hm]
  simp only [mask]

/-- A number written as `m` 64-bit words from `a` on. -/
theorem cellAt_writeWords {s : State} (hm : Memory.wf s.mem = true) (a h x m : Nat) :
    let t := (List.range m).foldl (fun s k => s.writeWord (a + 8 * k) (BitVec.ofNat 64 (h >>> (64 * k))) 0xFF 0) s
    Memory.wf t.mem = true ∧ cellAt t.mem.cells x =
      if a ≤ x ∧ x < a + 8 * m then BitVec.ofNat 8 (h >>> (8 * (x - a))) else cellAt s.mem.cells x := by
  induction m with
  | zero => exact ⟨hm, (if_neg (by omega)).symm⟩
  | succ m ih =>
    obtain ⟨wf, before⟩ := ih
    simp only [List.range_succ, List.foldl_append, List.foldl_cons, List.foldl_nil]
    refine ⟨writeWord_wf wf _ _ _ _, ?_⟩
    rw [cellAt_writeWord wf, before]
    by_cases last : a + 8 * m ≤ x ∧ x < a + 8 * m + 8
    · rw [if_pos last, if_pos (by omega), word_byte h m (by omega)]
      congr 3
      omega
    · rw [if_neg last]
      by_cases early : a ≤ x ∧ x < a + 8 * m
      · rw [if_pos early, if_pos (by omega)]
      · rw [if_neg early, if_neg (by omega)]

/-! ## The ring (R324, R340) -/

theorem writeWord_prsLine (s : State) (n : Fin 3) (w : Nat) (d : DWord) (m : BitVec 8) (inj : Nat) :
    (s.writeWord w d m inj).prsLine n = s.prsLine n :=
  prsLine_congr ((writeWord_within s w d m inj).prs rfl) n

theorem ringPut_within (s : State) (n : Fin 3) (v : BitVec 16) : Within [.mem, .cells, .prs] s (s.ringPut n v) :=
  .mono (within_ite (.after (writeWord_within _ _ _ _ _) (modLine_within s n _)) (modLine_within s n _)) rfl

/-- The line after a sample has gone to its ring. -/
theorem ringPut_line (s : State) (n : Fin 3) (v : BitVec 16) : (s.ringPut n v).prsLine n = { s.prsLine n with
    stored := (s.prsLine n).stored + 1,
    acc := if (s.prsLine n).acc.length = 3 then [] else (s.prsLine n).acc ++ [v] } := by
  have full : ((s.prsLine n).acc ++ [v]).length = 4 ↔ (s.prsLine n).acc.length = 3 := by simp
  unfold State.ringPut
  simp only [full]
  split
  · rw [writeWord_prsLine, prsLine_modLine]
  · rw [prsLine_modLine]

/-- The bytes after a sample has gone to its ring: the fourth sample of a word stores them. -/
theorem ringPut_cells {s : State} (hm : Memory.wf s.mem = true) (n : Fin 3) (v : BitVec 16) (x : Nat) :
    let l := s.prsLine n
    let at_ := l.base + 32 + 2 * (l.stored % l.len / 4 * 4)
    cellAt (s.ringPut n v).mem.cells x =
      if l.acc.length = 3 ∧ at_ ≤ x ∧ x < at_ + 8 then
        ((l.acc ++ [v]).getD ((x - at_) / 2) 0).extractLsb' (8 * ((x - at_) % 2)) 8
      else cellAt s.mem.cells x := by
  intro l at_
  have full : (l.acc ++ [v]).length = 4 ↔ l.acc.length = 3 := by simp
  change cellAt (if (l.acc ++ [v]).length = 4 then _ else _ : State).mem.cells x = _
  by_cases h3 : l.acc.length = 3
  · rw [if_pos (full.mpr h3)]
    refine (cellAt_writeWord (by exact hm) at_ _ 0 x).trans ?_
    by_cases inWord : at_ ≤ x ∧ x < at_ + 8
    · rw [if_pos inWord, if_pos ⟨h3, inWord⟩]
      exact packed_byte (full.mpr h3) (by omega)
    · rw [if_neg inWord]
      exact (if_neg fun h => inWord h.2).symm
  · rw [if_neg (mt full.mp h3)]
    exact (if_neg fun h => h3 h.1).symm

theorem ringFlush_wf {s : State} (hm : Memory.wf s.mem = true) (n : Fin 3) : Memory.wf (s.ringFlush n).mem = true := by
  unfold State.ringFlush
  dsimp only
  split
  · exact hm
  · exact writeWord_wf hm _ _ _ _

theorem ringFlush_line (s : State) (n : Fin 3) : (s.ringFlush n).prsLine n = { s.prsLine n with acc := [] } := by
  unfold State.ringFlush
  dsimp only
  split
  · next h => rw [← List.isEmpty_iff.mp h]
  · rw [prsLine_modLine, writeWord_prsLine]

/-! ## The end of a record (R337, R340, R342) -/

/-- The numbers of the header are those that the samples gave, or free values where there is none. -/
theorem capEnd_ends {s : State} {n : Fin 3} {r : Record} (hr : (s.prsLine n).rec_ = some r) (ht : r.toff.isSome = true)
    (hm : Memory.wf s.mem = true) (trunc : Bool) :
    (∃ first lo hi : Nat,
      let h := headerOf n (s.prsLine n) r trunc (r.toff.getD 0) first lo hi
      ∀ x : Nat, cellAt (s.capEnd n trunc).mem.cells x =
        if (s.prsLine n).base ≤ x ∧ x < (s.prsLine n).base + 32 then BitVec.ofNat 8 (h >>> (8 * (x - (s.prsLine n).base)))
        else cellAt (s.ringFlush n).mem.cells x) ∧
    (s.capEnd n trunc).prsLine n =
      { s.prsLine n with state := .hold, done := true, seq := (s.prsLine n).seq + 1, rec_ := none, acc := [] } ∧
    (s.capEnd n trunc).eng.evpend.getLsbD 7 = true := by
  have line := ringFlush_line s n
  generalize e : s.capEnd n trunc = t
  unfold State.capEnd at e
  rw [hr] at e
  dsimp -zeta only at e
  extract_lets s₁ l first free vs lo hi h s₂ s₃ at e
  subst e
  have flushed : l = { s.prsLine n with acc := [] } := line
  have header : h = headerOf n (s.prsLine n) r trunc (r.toff.getD 0) first lo hi := by
    obtain ⟨toff, ht⟩ := Option.isSome_iff_exists.mp ht
    simp only [h, flushed, ht, Option.getD_some]
    rfl
  have written := fun x => (cellAt_writeWords (s := s₂) (ringFlush_wf hm n) l.base h x 4).2
  have kept : s₃.prsLine n = l := prsLine_congr ((within_foldl _ (fun s k => writeWord_within s _ _ _ _) _ s₂).prs rfl) n
  refine ⟨⟨first, lo, hi, fun x => ?_⟩, ?_, event_pends _ 7⟩
  · rw [event_mem, ← header]
    refine (written x).trans ?_
    rw [flushed]
    rfl
  · rw [prsLine_congr (event_prs _ 7), prsLine_modLine, kept, flushed]

end Sys2Proof.Machine
end

section
/-!
SUPPORT. What a sample, a trigger and a command bit of PRS_TRGn make of a pressure line (R320, R324, R326, R337 to R341).
-/

namespace Sys2Proof.Machine

/-! ## Samples (R320, R324, R340) -/

/-- The line with the code of its latest conversion. -/
def State.converted (s : State) (n : Fin 3) (v : BitVec 16) : State :=
  (s.occur 0x3A).modLine n fun l => { l with val := v, valid := true }

/-- The sample is stored as well, and the record is `ρ` from now on. -/
def State.sampled (s : State) (n : Fin 3) (v : BitVec 16) (ρ : Option Record) : State :=
  ((s.converted n v).ringPut n v).modLine n fun l => { l with lastAt := s.local.toNat, rec_ := ρ }

/-- The record with one more sample, taken at `now` (R340). -/
def Record.taken (r : Record) (l : PrsLine) (now : Nat) : Record :=
  if r.toff = none ∧ now < r.at_ then { r with npre := min l.pre (l.stored + 1) }
  else if r.toff = none then { r with npre := min l.pre l.stored, toff := some (now - r.at_), npost := r.npost + 1 }
  else { r with npost := r.npost + 1 }

/-- The record after a sample that the line stores; none where it stores none. -/
def PrsLine.takes (l : PrsLine) (now : Nat) : Option (Option Record) :=
  match l.state with
  | .recording => some l.rec_
  | .post => (l.rec_.filter fun r => !r.done l).map fun r => some (r.taken l now)
  | _ => none

theorem converted_line (s : State) (n : Fin 3) (v : BitVec 16) :
    (s.converted n v).prsLine n = { s.prsLine n with val := v, valid := true } := by
  rw [State.converted, prsLine_modLine, prsLine_congr (occur_prs s 0x3A)]

theorem converted_within (s : State) (n : Fin 3) (v : BitVec 16) : Within [.prs] s (s.converted n v) :=
  .mono (.after (modLine_within _ n _) ((occur_quiet s 0x3A).within [])) rfl

theorem cmpByLine_lineCmp (s : State) (n : Fin 3) :
    s.cmpByLine (lineCmp n) = ((s.prsLine n).armed && (s.prsLine n).pulsed) :=
  dif_pos n.isLt

theorem converted_cmpByLine (s : State) (n : Fin 3) (v : BitVec 16) :
    (s.converted n v).cmpByLine (lineCmp n) = s.cmpByLine (lineCmp n) := by
  rw [cmpByLine_lineCmp, cmpByLine_lineCmp, converted_line]
  rfl

theorem sampled_within (s : State) (n : Fin 3) (v : BitVec 16) (ρ : Option Record) :
    Within [.mem, .cells, .prs] s (s.sampled n v ρ) :=
  .mono (.after (modLine_within _ n _) (.after (ringPut_within _ n v) (converted_within s n v))) rfl

theorem sampled_line (s : State) (n : Fin 3) (v : BitVec 16) (ρ : Option Record) :
    (s.sampled n v ρ).prsLine n = { s.prsLine n with
      val := v, valid := true, stored := (s.prsLine n).stored + 1,
      acc := if (s.prsLine n).acc.length = 3 then [] else (s.prsLine n).acc ++ [v], lastAt := s.local.toNat, rec_ := ρ } := by
  rw [State.sampled, prsLine_modLine, ringPut_line, converted_line]

theorem sampled_cells {s : State} (hm : Memory.wf s.mem = true) (n : Fin 3) (v : BitVec 16) (ρ : Option Record) (x : Nat) :
    let l := s.prsLine n
    let at_ := l.base + 32 + 2 * (l.stored % l.len / 4 * 4)
    cellAt (s.sampled n v ρ).mem.cells x =
      if l.acc.length = 3 ∧ at_ ≤ x ∧ x < at_ + 8 then
        ((l.acc ++ [v]).getD ((x - at_) / 2) 0).extractLsb' (8 * ((x - at_) % 2)) 8
      else cellAt s.mem.cells x := by
  have mem : (s.converted n v).mem = s.mem := (converted_within s n v).mem rfl
  have put := ringPut_cells (s := s.converted n v) (mem ▸ hm) n v x
  rw [converted_line, mem] at put
  exact put

/-- A sample of a line that its comparator does not follow, with no swap waiting. -/
theorem prsSample_eq {s : State} {n : Fin 3} (hc : s.cmpByLine (lineCmp n) = false) (ha : s.isArmed (4 + n.val) = false)
    (uv : Int) : s.prsSample n uv =
      ((s.prsLine n).takes s.local.toNat).elim (s.converted n (adcCode ((s.prsLine n).vp uv)))
        (s.sampled n (adcCode ((s.prsLine n).vp uv))) := by
  generalize hv : adcCode ((s.prsLine n).vp uv) = v
  have line := converted_line s n v
  have now : (s.converted n v).local = s.local := local_congr ((converted_within s n v).tmp rfl)
  have noSwap {t : State} (h : t.armed = s.armed) : t.prsSwap n = t :=
    if_neg (by rw [State.isArmed, h]; exact (Bool.not_eq_true _).mpr ha)
  have put (f : PrsLine → PrsLine) (ρ : Option Record)
      (h : f ((s.converted n v).ringPut n v |>.prsLine n) =
        { (s.converted n v).ringPut n v |>.prsLine n with lastAt := s.local.toNat, rec_ := ρ }) :
      ((s.converted n v).ringPut n v).modLine n f = s.sampled n v ρ := modLine_congr h
  unfold State.prsSample
  extract_lets code s₁ s₂ c s₃ at_ t l
  have same : s₃ = s.converted n v := by
    subst hv
    exact if_neg (by rw [show s₂.cmpByLine c = false from (converted_cmpByLine s n code).trans hc]; exact Bool.false_ne_true)
  have at_eq : at_ = s.local.toNat := by rw [← now, ← same]
  obtain rfl : code = v := hv
  clear_value s₃ at_
  subst same at_eq
  have l_eq : l = _ := line
  rw [PrsLine.takes, line]
  cases (s.prsLine n).state with
  | recording =>
    have stored : t = s.sampled n code (s.prsLine n).rec_ := put _ _ (by rw [ringPut_line, line])
    have armed : t.armed = s.armed := by rw [stored]; exact (sampled_within s n code _).armed rfl
    change (if _ then t.prsSwap n else t) = s.sampled n code _
    rw [noSwap armed, ite_self, stored]
  | post =>
    cases (s.prsLine n).rec_ with
    | none => rfl
    | some r =>
      have done : r.done l = r.done (s.prsLine n) := by rw [l_eq]; rfl
      dsimp only
      rw [done]
      cases hd : r.done (s.prsLine n) with
      | true => simp [Option.filter, hd]
      | false =>
        simp only [Option.filter, hd, Bool.not_false, if_true, Option.map_some, Option.elim_some, Bool.false_eq_true,
          if_false, Option.isNone_iff_eq_none, Record.taken]
        split
        · exact put _ _ (by rw [ringPut_line, line]; rfl)
        · split
          · exact put _ _ (by rw [l_eq]; rfl)
          · exact put _ _ rfl
  | hold => rfl
  | off => rfl

/-- What storing a sample leaves of the line and of memory. -/
theorem sampled_stores {s t : State} {n : Fin 3} {v : BitVec 16} {ρ : Option Record} (h : t = s.sampled n v ρ)
    (hm : Memory.wf s.mem = true) :
    let l := s.prsLine n
    let at_ := l.base + 32 + 2 * (l.stored % l.len / 4 * 4)
    let k := t.prsLine n
    k.state = l.state ∧ k.stored = l.stored + 1 ∧ k.lastAt = t.local.toNat ∧ k.rec_ = ρ ∧
      k.acc = (if l.acc.length = 3 then [] else l.acc ++ [v]) ∧
      ∀ x : Nat, cellAt t.mem.cells x =
        if l.acc.length = 3 ∧ at_ ≤ x ∧ x < at_ + 8 then
          ((l.acc ++ [v]).getD ((x - at_) / 2) 0).extractLsb' (8 * ((x - at_) % 2)) 8
        else cellAt s.mem.cells x := by
  have now : t.local = s.local := local_congr (by rw [h]; exact (sampled_within s n v ρ).tmp rfl)
  rw [now, h, sampled_line]
  exact ⟨rfl, rfl, rfl, rfl, rfl, sampled_cells hm n v ρ⟩

theorem takes_post {l : PrsLine} {r : Record} (hs : l.state = .post) (hr : l.rec_ = some r)
    (hd : ¬ (r.toff.isSome = true ∧ l.len - l.pre ≤ r.npost)) (now : Nat) : l.takes now = some (some (r.taken l now)) := by
  have more : r.done l = false := by
    rw [Record.done, PrsLine.want, Bool.eq_false_iff, ne_eq, Bool.and_eq_true, decide_eq_true_eq]
    exact hd
  rw [PrsLine.takes, hs, hr]
  simp only [Option.filter, more, Bool.not_false, if_true, Option.map_some]

/-! ## Triggers (R338, R339) -/

theorem trigger_within (s : State) (n : Fin 3) (own soft sampled : Bool) (at_ : BitVec 64) :
    Within [.prs] s (s.trigger n own soft sampled at_) := by
  have line (f : PrsLine → PrsLine) : Within [.prs] s (s.modLine n f) := modLine_within s n f
  unfold State.trigger
  dsimp only
  split
  · exact .mono (.after ((event_quiet _ 7).within []) (line _)) rfl
  · exact .mono (within_ite (.refl [] s) (line _)) rfl
  · exact .mono (within_ite (.refl [] s) (line _)) rfl
  · exact .refl _ s

/-- The record that a trigger begins. -/
structure Record.Begun (r : Record) (x : Tmp) (l : PrsLine) (soft : Bool) (at_ : BitVec 64) (w : Word) : Prop where
  own : r.own = false
  soft : r.soft = soft
  sampled : r.sampled = false
  plant : r.plant = x.sync
  stampW : r.stampW = w
  valve : r.valve = 0xFF
  qual : r.qual = x.qual
  instant : r.at_ = at_.toNat
  samples : if 0 < l.stored ∧ at_.toNat ≤ l.lastAt then
      r.npre = min l.pre (l.stored - 1) ∧ r.npost = 1 ∧ r.toff = some (l.lastAt - at_.toNat)
    else r.npre = min l.pre l.stored ∧ r.npost = 0 ∧ r.toff = none

/-- A trigger of a RECORDING line that is not its own source's. -/
theorem trigger_begins {s : State} {n : Fin 3} (h : (s.prsLine n).state = .recording) (soft : Bool) (at_ : BitVec 64) :
    let w := (if s.tmp.sync then at_ + s.tmp.offs else at_).extractLsb' 0 32
    let t := s.trigger n false soft false at_
    ∃ r : Record, r.Begun s.tmp (s.prsLine n) soft at_ w ∧
      t.prsLine n = { s.prsLine n with state := .post, trg := true, stamp := w, rec_ := some r } ∧
      t.eng.evpend.getLsbD 7 = true := by
  intro w t
  obtain ⟨r, hr, e⟩ : ∃ r : Record, r.Begun s.tmp (s.prsLine n) soft at_ w ∧
      t = (s.modLine n fun l => { l with state := .post, trg := true, stamp := w, rec_ := some r }).event 7 := by
    unfold t State.trigger
    dsimp only
    rw [h]
    refine ⟨_, ?_, rfl⟩
    by_cases late : 0 < (s.prsLine n).stored ∧ at_.toNat ≤ (s.prsLine n).lastAt
    · rw [if_pos late]
      constructor
      case samples => rw [if_pos late]; exact ⟨rfl, rfl, rfl⟩
      all_goals rfl
    · rw [if_neg late]
      constructor
      case samples => rw [if_neg late]; exact ⟨rfl, rfl, rfl⟩
      all_goals rfl
  refine ⟨r, hr, ?_, ?_⟩
  · rw [e, prsLine_congr (event_prs _ 7), prsLine_modLine]
  · rw [e]
    exact event_pends _ 7

/-! ## The command bits of PRS_TRGn (R326, R337, R338) -/

/-- FORCE, REL and SPOT, by their bit. -/
def State.trgCommand (s : State) (n : Fin 3) (b : Fin 3) : State :=
  match b with
  | 0 => s.force n
  | 1 => s.prsRelease n
  | 2 => s.spotStart n

theorem trgCommand_within (s : State) (n b : Fin 3) : Within [.prs] s (s.trgCommand n b) := by
  match b with
  | 0 => exact .mono (within_ite (trigger_within s n _ _ _ _) (.refl [] s)) rfl
  | 1 => exact .mono (within_ite (.after (cmpFollow_within _ n _) (modLine_within s n _)) (.refl [] s)) rfl
  | 2 => exact .mono (within_ite (.refl [] s) (.after (cmpFollow_within _ n _) (modLine_within s n _))) rfl

/-- The word that a command writes to PRS_TRGn: MISSED as it is, and one command bit. -/
def trgWord (missed : BitVec 8) (b : Fin 3) : Word := place missed.toNat 24 ||| place 1 b.val

theorem trgWord_low (missed : BitVec 8) (b : Fin 3) {i : Nat} (h : i < 24) :
    (trgWord missed b).getLsbD i = decide (i = b.val) := by
  have one : Nat.testBit 1 (i - b.val) = decide (0 = i - b.val) := Nat.testBit_two_pow (n := 0)
  rw [trgWord, BitVec.getLsbD_or, getLsbD_place, getLsbD_place, one]
  simp only [show ¬ 24 ≤ i by omega, show i < 32 by omega, decide_true, decide_false, Bool.false_and, Bool.and_false,
    Bool.false_or, Bool.true_and, ← Bool.decide_and, decide_eq_decide]
  omega

theorem trgWord_missed (missed : BitVec 8) (b : Fin 3) : (trgWord missed b).extractLsb' 24 8 = missed := by
  rw [trgWord, BitVec.extractLsb'_or, extract_place_same _ (by decide),
    extract_place_other (m := 1) (by decide) (.inl (by omega)), BitVec.ofNat_toNat, BitVec.setWidth_eq]
  exact BitVec.or_zero

theorem trgWord_reserved (missed : BitVec 8) (b : Fin 3) :
    fld (trgWord missed b) 8 12 = 0 ∧ fld (trgWord missed b) 3 2 = 0 := by
  constructor <;>
    rw [fld_zero_iff, trgWord, BitVec.extractLsb'_or, extract_place_other missed.isLt (.inr (by decide)),
      extract_place_other (m := 1) (by decide) (.inl (by omega))]
  all_goals rfl

/-- A write of PRS_TRGn with one command bit carries out that command. -/
theorem prsWrite_trg (u : State) (n b : Fin 3) :
    u.prsWrite ((0x40007008 + 0x40 * n.val) % 0x1000) (trgWord (u.prsLine n).missed b) = (u.trgCommand n b, 0) := by
  have line : fin? 3 ((0x40007008 + 0x40 * n.val) % 0x1000 / 0x40) = some n ∧
      (0x40007008 + 0x40 * n.val) % 0x1000 % 0x40 = 8 := by
    match n with
    | 0 | 1 | 2 => exact ⟨rfl, rfl⟩
  obtain ⟨h8, h3⟩ := trgWord_reserved (u.prsLine n).missed b
  have high {i : Nat} (h : i < 24) (hb : 3 ≤ i) : (trgWord (u.prsLine n).missed b).getLsbD i = false := by
    rw [trgWord_low _ _ h]
    exact decide_eq_false (by omega)
  unfold State.prsWrite
  rw [line.1, line.2]
  dsimp only
  simp only [h8, h3, ne_eq, not_true_eq_false, or_self, if_false, bit_eq_getLsbD, ofNat_fld, trgWord_missed,
    high (i := 23) (by decide) (by decide), high (i := 7) (by decide) (by decide),
    high (i := 6) (by decide) (by decide), high (i := 5) (by decide) (by decide),
    trgWord_low _ _ (show 0 < 24 by decide), trgWord_low _ _ (show 1 < 24 by decide), trgWord_low _ _ (show 2 < 24 by decide),
    Bool.not_false, Bool.and_true]
  rw [modLine_self (s := u) (n := n) rfl]
  match b with
  | 0 | 1 | 2 => rfl

/-- A command's write of PRS_TRGn, by any initiator. -/
theorem trgWrite_commands {s : State} {i : Initiator} {n : Fin 3} (hd : s.sys.runDmi = true)
    (hr : s.reaches i (0x40007008 + 0x40 * n.val) true = true) (b : Fin 3) :
    Written (.next (s.trgWrite i n b.val)) s i (0x40007008 + 0x40 * n.val) fun u => (u.trgCommand n b).afterWrite := by
  have reg : inRegs (0x40007008 + 0x40 * n.val) = true ∧ (0x40007008 + 0x40 * n.val) % 4 = 0 ∧
      blockOf (0x40007008 + 0x40 * n.val) = 7 := by
    match n with
    | 0 | 1 | 2 => exact ⟨rfl, rfl, rfl⟩
  obtain ⟨hin, h4, hb⟩ := reg
  have run : s.islandOff (blockOf (0x40007008 + 0x40 * n.val)) = false := by
    rw [hb, State.islandOff, hd]
    rfl
  refine writeBy_written s i _ (trgWord (s.prsLine n).missed b) (fun u => u.trgCommand n b) hin h4 (by omega) run
    (by rw [hb]; rfl) hr fun u hu => ⟨?_, burnBegun_none ((trgCommand_within u n b).secx rfl)⟩
  rw [← prsLine_congr ((atBus_within hu).prs rfl) n, ← prsWrite_trg u n b]
  simp only [State.regWrite, hb]

end Sys2Proof.Machine
end

section
/-!
PROOFS. Samples of the pressure lines, spot readings, triggers, and the hold and the release of records (R319 to R326, R337 to
R342), and the statement about them.
-/

namespace Sys2Proof.Machine

/-! ## What a command bit makes of its line -/

/-- A change of a line, and of its comparator with it. -/
theorem modLine_cmpFollow (s : State) (n : Fin 3) (f : PrsLine → PrsLine) :
    let l := s.prsLine n
    let t := (s.modLine n f).cmpFollow n l
    t.prsLine n = f l ∧ t.prs.cmp.get (lineCmp n) =
      if (f l).Moved l then (s.prs.cmp.get (lineCmp n)).restart else s.prs.cmp.get (lineCmp n) := by
  intro l t
  refine ⟨?_, ?_⟩
  · rw [cmpFollow_line, prsLine_modLine]
  · rw [cmpFollow_cmp, prsLine_modLine]
    rfl

theorem spotStart_starts (u : State) (n : Fin 3) :
    let l := u.prsLine n
    if l.ctlAct.getLsbD 31 = true ∨ l.spot = true then (u.spotStart n).prs = u.prs
    else (u.spotStart n).prsLine n = { l with spot := true } ∧
      (u.spotStart n).prs.cmp.get (lineCmp n) = (u.prs.cmp.get (lineCmp n)).restart := by
  intro l
  have cond : (bit l.ctlAct 31 || l.spot) = true ↔ l.ctlAct.getLsbD 31 = true ∨ l.spot = true := by
    rw [bit_eq_getLsbD, Bool.or_eq_true]
  by_cases busy : l.ctlAct.getLsbD 31 = true ∨ l.spot = true
  · rw [if_pos busy]
    exact congrArg State.prs (if_pos (cond.mpr busy))
  · obtain ⟨line, cmp⟩ := modLine_cmpFollow u n fun l => { l with spot := true }
    have e : u.spotStart n = _ := if_neg (mt cond.mp busy)
    have moved : ({ l with spot := true } : PrsLine).Moved l := by
      obtain ⟨hen, hspot⟩ := not_or.mp busy
      have unarmed : l.armed = false := by
        rw [PrsLine.armed, bit_eq_getLsbD, Bool.eq_false_iff.mpr hen, Bool.false_and]
      left
      rw [unarmed, Bool.eq_false_iff.mpr hspot, Bool.or_true]
      exact Bool.noConfusion
    rw [if_neg busy, e]
    exact ⟨line, cmp.trans (if_pos moved)⟩

theorem prsRelease_releases (u : State) (n : Fin 3) :
    let l := u.prsLine n
    if l.state = .hold ∧ u.prs.dead = false then
      let k : PrsLine := { l with
        state := .recording, ctlAct := l.ctlHeld.getD l.ctlAct, ctlHeld := none, stored := 0, acc := [],
        rec_ := none, lastAt := 0 }
      (u.prsRelease n).prsLine n = k ∧ (u.prsRelease n).prs.cmp.get (lineCmp n) =
        if k.Moved l then (u.prs.cmp.get (lineCmp n)).restart else u.prs.cmp.get (lineCmp n)
    else (u.prsRelease n).prs = u.prs := by
  intro l
  have cond : (l.state = .hold ∧ (!u.prs.dead) = true) ↔ l.state = .hold ∧ u.prs.dead = false := by
    rw [Bool.not_eq_true']
  by_cases held : l.state = .hold ∧ u.prs.dead = false
  · have e : u.prsRelease n = _ := if_pos (cond.mpr held)
    rw [if_pos held, e]
    exact modLine_cmpFollow u n _
  · rw [if_neg held]
    exact congrArg State.prs (if_neg (mt cond.mp held))

/-- A command's write of PRS_TRGn as the statement has it: only the pressure block has changed when it ends. -/
theorem trg_commanded {s : State} {i : Initiator} {n b : Fin 3} {o : Out} {f : State → State → Prop}
    (hd : s.sys.runDmi = true) (hr : s.reaches i (0x40007008 + 0x40 * n.val) true = true)
    (ho : o = .next (s.trgWrite i n b.val)) (hf : ∀ u, Within [.eng] s u → f u (u.trgCommand n b)) :
    ∃ (u t : State) (k : Noted), s.AtBus i u ∧ t = ({ u with prs := t.prs } : State).noted k ∧
      o = .next (t.afterWrite.wroteBy u i (0x40007008 + 0x40 * n.val)) ∧ f u t := by
  obtain ⟨u, hu, e⟩ := trgWrite_commands hd hr b
  exact ⟨u, u.trgCommand n b, _, hu, (trgCommand_within u n b).eq_take, ho.trans e, hf u (atBus_within hu)⟩

/-! ## The end of a spot reading, and of a record -/

/-- The end of a spot reading takes the input from the comparator of an unarmed line alone (R327). -/
theorem moved_of_spotEnd {l : PrsLine} (hs : l.spot = true) (v : BitVec 16) :
    ({ l with val := v, valid := true, sdone := true, spot := false } : PrsLine).Moved l ↔ l.armed = false := by
  change (l.armed || false) ≠ (l.armed || l.spot) ∨ l.armed = true ∧ l.armed = true ∧ l.pulsed ≠ l.pulsed ↔ _
  simp [hs]

theorem spotDone_within (s : State) (n : Fin 3) (uv : List Int) : Within [.prs] s (s.spotDone n uv) :=
  .mono (.after ((event_quiet _ 7).within []) (.after (cmpFollow_within _ n _) (modLine_within s n _))) rfl

theorem spotDone_ends {s : State} {n : Fin 3} (hs : (s.prsLine n).spot = true) {uv : List Int} {m : Nat}
    (hm : meanUp (uv.map fun x => (adcCode ((s.prsLine n).vp x)).toNat) = m) :
    let l := s.prsLine n
    let t := s.spotDone n uv
    t.prsLine n = { l with val := BitVec.ofNat 16 m, valid := true, sdone := true, spot := false } ∧
    (t.prs.cmp.get (lineCmp n) =
      if l.armed then s.prs.cmp.get (lineCmp n) else (s.prs.cmp.get (lineCmp n)).restart) ∧
    t.eng.evpend.getLsbD 7 = true := by
  intro l t
  obtain ⟨line, cmp⟩ := modLine_cmpFollow s n fun k => { k with
    val := BitVec.ofNat 16 m, valid := true, sdone := true, spot := false }
  have e : t = ((s.modLine n fun k => { k with
      val := BitVec.ofNat 16 m, valid := true, sdone := true, spot := false }).cmpFollow n l).event 7 := by
    rw [← hm]
    rfl
  rw [e]
  refine ⟨(prsLine_congr (event_prs _ 7) n).trans line, ?_, event_pends _ 7⟩
  rw [event_prs]
  refine cmp.trans ((if_congr (moved_of_spotEnd hs _) rfl rfl).trans ?_)
  cases l.armed <;> rfl

/-- A record ends with no swap waiting. -/
theorem prsComplete_unarmed {s : State} {n : Fin 3} (ha : s.isArmed (4 + n.val) = false) :
    s.prsComplete n = s.capEnd n false :=
  if_neg (by rw [State.isArmed, (capEnd_within s n false).armed rfl]; exact (Bool.not_eq_true _).mpr ha)

theorem captureReady_of {s : State} {n : Fin 3} {r : Record} (hs : (s.prsLine n).state = .post)
    (hr : (s.prsLine n).rec_ = some r) (ht : r.toff.isSome = true) (hn : (s.prsLine n).len - (s.prsLine n).pre ≤ r.npost) :
    s.captureReady n = true := by
  rw [State.captureReady, hs, hr, Option.any_some, Record.done, ht, PrsLine.want, decide_eq_true hn]
  rfl

/-! ## The claims -/

/-- Settles O43: a sample is `PrsLine.takes`, a command bit is `State.trgCommand`, and a record ends as `capEnd` has it. -/
theorem pressureLinesSampleAndCapture : Obligations.PressureLinesSampleAndCapture := by
  unfold Obligations.PressureLinesSampleAndCapture
  intro n s hp hd l a cmp vp code anew only commanded
  have adc (d : Int) : adcCode (l.vp d) = BitVec.ofNat 16 (code d) := by rw [vp_eq]; rfl
  refine ⟨fun uv ph harm hc ha hm => ?sample, fun i hr => ?spot, fun i hr => ?release, fun uv hs => ?spotDone,
    fun i ph hr => ?force, fun r hst hrec ht hn ha hm => ?complete⟩
  case sample =>
    have eq := prsSample_eq (s := s.atPhase ph) hc ha uv
    rw [show adcCode (((s.atPhase ph).prsLine n).vp uv) = BitVec.ofNat 16 (code uv) from adc uv] at eq
    change _ = (l.takes _).elim _ _ at eq
    generalize ht : (s.atPhase ph).prsSample n uv = t at eq
    have within : Within [.mem, .cells, .prs] (s.atPhase ph) t := by
      rw [eq]
      cases l.takes (s.atPhase ph).local.toNat with
      | none => exact (converted_within _ n _).mono rfl
      | some ρ => exact sampled_within _ n _ ρ
    have now : t.local = (s.atPhase ph).local := local_congr (within.tmp rfl)
    have read : (t.prsLine n).val = BitVec.ofNat 16 (code uv) ∧ (t.prsLine n).valid = true := by
      rw [eq]
      cases l.takes (s.atPhase ph).local.toNat with
      | none => rw [Option.elim_none, converted_line]; exact ⟨rfl, rfl⟩
      | some ρ => rw [Option.elim_some, sampled_line]; exact ⟨rfl, rfl⟩
    rw [← now] at eq
    refine (Within.mono (.after within (atPhase_within s ph)) (b := [.mem, .cells, .armed, .prs, .tmp, .fresh]) rfl).touches
      (t := t) ?next rfl ⟨read.1, read.2, within.tmp rfl, fun hst => ?recording,
        fun r hst hrec hmore => ?post, fun hst => ?hold⟩
    case next =>
      rw [← ht]
      exact show execPressureSample n uv ph s = _ from whenever_holds hp (by rw [hd, harm]; rfl) _
    case recording =>
      rw [PrsLine.takes, hst] at eq
      obtain ⟨state, stored, last, -, acc, cells⟩ := sampled_stores eq hm
      exact ⟨state.trans hst, stored, last, fun _ => ⟨cells, acc⟩⟩
    case post =>
      rw [takes_post hst hrec hmore] at eq
      obtain ⟨state, stored, last, rec_, acc, cells⟩ := sampled_stores eq hm
      exact ⟨state.trans hst, stored, last, fun _ => ⟨cells, acc⟩, rec_⟩
    case hold =>
      rw [PrsLine.takes, hst] at eq
      rw [eq, Option.elim_none, converted_line]
      exact ⟨(converted_within _ n _).mem rfl, rfl⟩
  case spot =>
    refine trg_commanded (b := 2) hd hr (show execSpotReading i n s = _ from whenPowered_powered hp _) fun u hu => ?_
    have line := prsLine_congr (hu.prs rfl) n
    have starts := spotStart_starts u n
    rw [line, hu.prs rfl] at starts
    rw [hu.prs rfl]
    exact starts
  case release =>
    refine trg_commanded (b := 1) hd hr (show execCaptureRelease i n s = _ from whenPowered_powered hp _) fun u hu => ?_
    have line := prsLine_congr (hu.prs rfl) n
    have releases := prsRelease_releases u n
    rw [line, hu.prs rfl] at releases
    rw [hu.prs rfl]
    exact releases
  case spotDone =>
    refine (spotDone_within s n uv).touches ?_ rfl ?_
    · exact show execSpotReadingDone n uv s = _ from whenever_holds hp (by rw [hd, hs]; rfl) _
    · refine spotDone_ends hs ?_
      have codes : (uv.map fun x => (adcCode (l.vp x)).toNat) = uv.map code := List.map_congr_left fun x _ => by
        have top : code x ≤ 65535 := Nat.min_le_left _ _
        rw [adc, BitVec.toNat_ofNat]
        exact Nat.mod_eq_of_lt (by omega)
      rw [meanUp, codes]
      simp only [List.isEmpty_iff]
  case force =>
    refine trg_commanded (s := s.atPhase ph) (b := 0) hd hr
      (show execCaptureForce i n ph s = _ from whenPowered_powered hp _) fun u hu => ?_
    have line := prsLine_congr (hu.prs rfl) n
    have now : u.local = (s.atPhase ph).local := local_congr (hu.tmp rfl)
    have force : u.trgCommand n 0 =
        if l.state = .recording then u.trigger n false true false (s.atPhase ph).local else u := by
      rw [← now]
      exact if_congr (by rw [line]; rfl) rfl rfl
    rw [force]
    by_cases hst : l.state = .recording
    · obtain ⟨r, begun, after, pends⟩ :=
        trigger_begins (s := u) (n := n) (by rw [line]; exact hst) true (s.atPhase ph).local
      rw [hu.tmp rfl, line] at begun after
      rw [if_pos hst, if_pos hst, after]
      exact ⟨rfl, rfl, rfl, pends, r, rfl, begun.own, begun.soft, begun.sampled, begun.plant, begun.stampW, begun.valve,
        begun.qual, begun.instant, begun.samples⟩
    · rw [if_neg hst, if_neg hst]
  case complete =>
    obtain ⟨header, line, pends⟩ := capEnd_ends hrec ht hm false
    refine (Within.mono (capEnd_within s n false) (b := [.mem, .cells, .armed, .prs, .tmp, .fresh]) rfl).touches ?_ rfl
      ⟨header, line, pends⟩
    rw [← prsComplete_unarmed ha]
    have ready := captureReady_of hst hrec ht hn
    exact show execCaptureComplete n s = _ from whenever_holds hp (by rw [hd, ready]; rfl) _

end Sys2Proof.Machine
end

section
/-!
SUPPORT. One evaluation of a comparator: its thresholds, its mode, and what a change of its output reaches (R328 to R335).
-/

namespace Sys2Proof.Machine

/-! ## Thresholds (R328, R330, R335) -/

theorem inBand_iff (uv t hys : Nat) : inBand uv t hys = true ↔
    ¬ ((2 * t + hys) * 1800000 < uv * 1024) ∧ ¬ (uv * 1024 + hys * 1800000 < 2 * t * 1800000) := by
  simp only [inBand, Bool.and_eq_true, Bool.not_eq_true', decide_eq_false_iff_not]

/-- The input that a comparator evaluates: a test mode replaces the pin (R335). -/
def Cmp.volts (x : Cmp) (pin : Nat) : Nat := if x.test = 2 then 300000 else if x.test = 3 then 1200000 else pin

/-- The next state of one threshold. -/
def Cmp.over (x : Cmp) (pin th : Nat) (old : Bool) : Bool := threshold x.begun old (x.test == 1) (x.volts pin) th x.hys

/-- The input lies outside the bands that the mode compares with (R330). -/
def Cmp.outside (x : Cmp) (pin : Nat) : Bool :=
  (x.mode = 0 || !inBand (x.volts pin) x.ta x.hys) && (x.mode = 1 || !inBand (x.volts pin) x.tb x.hys)

theorem eval_eq (x : Cmp) (pin : Nat) : x.eval pin = { x with
    sa := x.over pin x.ta x.sa, sb := x.over pin x.tb x.sb,
    out := outOf x.mode (x.over pin x.ta x.sa) (x.over pin x.tb x.sb),
    begun := true, settled := x.settled || x.outside pin } := by
  have test (k : BitVec 2) : x.test.toNat = k.toNat ↔ x.test = k := BitVec.toNat_inj
  have t1 : (x.test.toNat == 1) = (x.test == 1) := by
    rw [Bool.eq_iff_iff, beq_iff_eq, beq_iff_eq]
    exact test 1
  have volts : (if x.test.toNat = 2 then 300000 else if x.test.toNat = 3 then 1200000 else pin) = x.volts pin :=
    if_congr (test 2) rfl (if_congr (test 3) rfl rfl)
  simp only [Cmp.eval, volts, t1, Cmp.over, Cmp.outside]

/-! ## A change of the output (R331, R333) -/

/-- The comparator after a definite change of its output: a blanked one is not seen. -/
def Cmp.changed (x : Cmp) : Cmp :=
  if x.blanked then x
  else if x.out then { x with seen := x.out, latch := true, recent := true }
  else { x with seen := x.out }

theorem event_keeps {s : State} {k : Nat} (h : s.eng.evpend.getLsbD k = true) (e : Nat) :
    (s.event e).eng.evpend.getLsbD k = true := by
  rw [event_evpend, BitVec.getLsbD_or, h, Bool.true_or]

theorem latch_within (s : State) (c : Fin 8) : Within [.prs] s (s.latch c) :=
  .mono (.after (within_ite ((event_quiet _ 8).within []) (.refl [] _))
    (.after (within_ite (.refl [] _) ((occur_quiet _ 0x40).within [])) (modCmp_within s c _))) rfl

theorem latch_prs (s : State) (c : Fin 8) :
    (s.latch c).prs = (s.modCmp c fun x => { x with latch := true, recent := true }).prs := by
  have event (t : State) (b : Bool) : (if b then t.event 8 else t).prs = t.prs := by
    split
    · exact event_prs t 8
    · rfl
  have occur (t : State) (b : Bool) : (if b then t else t.occur 0x40).prs = t.prs := by
    split
    · rfl
    · exact occur_prs t 0x40
  exact (event _ _).trans (occur _ _)

/-- A comparator with its event enabled pends it as it latches. -/
theorem latch_pends {s : State} {c : Fin 8} (h : (s.prs.cmp.get c).cfg.getLsbD 30 = true) :
    (s.latch c).eng.evpend.getLsbD 8 = true := by
  unfold State.latch
  extract_lets was s₁ s₂
  have prs : s₂.prs = s₁.prs := by
    unfold s₂
    split
    · rfl
    · exact occur_prs s₁ 0x40
  have enabled : bit (s₂.prs.cmp.get c).cfg 30 = true := by
    rw [prs, bit_eq_getLsbD]
    exact (congrArg (fun x : Cmp => x.cfg.getLsbD 30) (cmp_modCmp_same s c _)).trans h
  rw [if_pos enabled]
  exact event_pends s₂ 8

theorem trigger_cmp (s : State) (n : Fin 3) (own soft sampled : Bool) (at_ : BitVec 64) :
    (s.trigger n own soft sampled at_).prs.cmp = s.prs.cmp := by
  unfold State.trigger
  dsimp only
  split
  · rw [event_prs]
    rfl
  · split <;> rfl
  · split <;> rfl
  · rfl

theorem trigger_keeps {s : State} {k : Nat} (h : s.eng.evpend.getLsbD k = true) (n : Fin 3) (own soft sampled : Bool)
    (at_ : BitVec 64) : (s.trigger n own soft sampled at_).eng.evpend.getLsbD k = true := by
  unfold State.trigger
  dsimp only
  split
  · exact event_keeps (by exact h) 7
  · split <;> exact h
  · split <;> exact h
  · exact h

/-- What a capture leaves: every comparator, and every event that pends. -/
structure State.Captured (s t : State) : Prop where
  within : Within [.prs] s t
  cmp : t.prs.cmp = s.prs.cmp
  pends : ∀ k, s.eng.evpend.getLsbD k = true → t.eng.evpend.getLsbD k = true

theorem State.Captured.none (s : State) : s.Captured s := ⟨.refl _ s, rfl, fun _ h => h⟩

theorem trigger_captured (s : State) (n : Fin 3) (own soft sampled : Bool) (at_ : BitVec 64) :
    s.Captured (s.trigger n own soft sampled at_) :=
  ⟨trigger_within s n _ _ _ _, trigger_cmp s n _ _ _ _, fun _ h => trigger_keeps h n _ _ _ _⟩

/-- A change of the output changes its comparator so, whatever it captures. -/
theorem cmpChange_changes (s : State) (c : Fin 8) (sampled : Bool) :
    let x := s.prs.cmp.get c
    let t := s.cmpChange c x.out sampled
    Within [.prs] s t ∧ t.prs.cmp.get c = x.changed ∧
      (x.blanked = false → x.out = true → x.cfg.getLsbD 30 = true → t.eng.evpend.getLsbD 8 = true) := by
  intro x t
  let u := s.modCmp c fun y => { y with seen := y.out }
  have seen : u.prs.cmp.get c = { x with seen := x.out } := cmp_modCmp_same s c _
  have latched : (u.latch c).prs.cmp.get c = { x with seen := x.out, latch := true, recent := true } := by
    rw [latch_prs, cmp_modCmp_same, seen]
  unfold t State.cmpChange
  extract_lets stamp s₂
  cases hb : x.blanked with
  | false =>
    rw [if_pos (show (!false) = true from rfl)]
    cases hr : x.out with
    | false =>
      rw [if_neg Bool.false_ne_true]
      refine ⟨modCmp_within s c _, ?_, fun _ h => absurd h Bool.false_ne_true⟩
      rw [Cmp.changed, hb, hr]
      exact seen.trans (by rw [hr]; rfl)
    | true =>
      rw [if_pos rfl]
      have captured : (u.latch c).Captured
          (if h : c.val < 3 then (u.latch c).trigger ⟨c.val, h⟩ false false sampled stamp else u.latch c) := by
        split
        · exact trigger_captured _ _ _ _ _ _
        · exact .none _
      refine ⟨.mono (.after captured.within (.after (latch_within u c) (modCmp_within s c _))) rfl, ?_, fun _ _ h => ?_⟩
      · rw [Cmp.changed, hb, hr]
        exact (congrArg (fun v : Vector Cmp 8 => v.get c) captured.cmp).trans (latched.trans (by rw [hr]; rfl))
      · exact captured.pends 8 (latch_pends (by rw [seen]; exact h))
  | true =>
    rw [if_neg (show ¬ (!true) = true from Bool.false_ne_true)]
    have captured (b : Bool) : s.Captured (if b then
        if h : c.val < 3 then
          if bit (s.prsLine ⟨c.val, h⟩).ctlAct 30 then s.trigger ⟨c.val, h⟩ true false sampled stamp else s
        else s
      else s) := by
      split
      · split
        · split
          · exact trigger_captured _ _ _ _ _ _
          · exact .none s
        · exact .none s
      · exact .none s
    obtain ⟨within, cmp, -⟩ := captured (x.out && x.blDrv && !x.blShot && !x.blMatch)
    refine ⟨within, ?_, fun h => absurd h.symm Bool.false_ne_true⟩
    rw [Cmp.changed, hb]
    exact congrArg (fun v : Vector Cmp 8 => v.get c) cmp

/-! ## An evaluation (R328 to R336) -/

/-- The comparator `x` after it has been evaluated as `y`: a first settling is seen, and a change of the output reaches what
lies behind it. -/
def Cmp.follows (x y : Cmp) : Cmp :=
  if y.test ≠ 0 then y
  else if x.settled = false then (if y.settled then { y with seen := y.out } else y)
  else if x.out = y.out then y
  else y.changed

theorem cmpEval_follows (s : State) (c : Fin 8) (v : Int) (sampled : Bool) :
    let x := s.prs.cmp.get c
    let y := x.eval (s.cmpUv c v)
    let t := s.cmpEval c v sampled
    Within [.prs] s t ∧ t.prs.cmp.get c = x.follows y ∧
      (y.test = 0 → x.settled = true → x.out ≠ y.out → y.blanked = false → y.out = true → y.cfg.getLsbD 30 = true →
        t.eng.evpend.getLsbD 8 = true) := by
  intro x y t
  have set : (s.modCmp c fun _ => y).prs.cmp.get c = y := cmp_modCmp_same s c _
  have eval : Within [.prs] s (s.modCmp c fun _ => y) := modCmp_within s c _
  unfold t State.cmpEval Cmp.follows
  extract_lets u
  by_cases ht : y.test ≠ 0
  · rw [if_pos ht, if_pos ht]
    exact ⟨eval, set, fun h => absurd h ht⟩
  rw [if_neg ht, if_neg ht]
  by_cases hs : x.settled = false
  · rw [if_pos (by rw [hs]; rfl), if_pos hs]
    refine ⟨?_, ?_, fun _ h => absurd h (by rw [hs]; exact Bool.false_ne_true)⟩
    · exact .mono (within_ite (.after (modCmp_within _ c _) eval) eval) rfl
    · split
      · exact (cmp_modCmp_same u c _).trans (by rw [show u.prs.cmp.get c = y from set])
      · exact set
  rw [if_neg (by rw [Bool.eq_true_of_not_eq_false hs]; exact Bool.false_ne_true), if_neg hs]
  by_cases ho : x.out = y.out
  · rw [if_pos ho, if_pos ho]
    exact ⟨eval, set, fun _ _ h => absurd ho h⟩
  · rw [if_neg ho, if_neg ho]
    have change := cmpChange_changes u c sampled
    rw [show u.prs.cmp.get c = y from set] at change
    obtain ⟨within, cmp, pends⟩ := change
    exact ⟨eval.trans within, cmp, fun _ _ _ => pends⟩

end Sys2Proof.Machine
end

section
/-!
SUPPORT. What an evaluation makes of each field of its comparator, and the ends of blanking windows (R319, R328 to R333).
-/

namespace Sys2Proof.Machine

/-! ## The fields of an evaluated comparator -/

/-- The input lies inside the band of the threshold `th` (R328). -/
abbrev Cmp.Inside (x : Cmp) (pin th : Nat) : Prop :=
  ¬ ((2 * th + x.hys) * 1800000 < x.volts pin * 1024) ∧ ¬ (x.volts pin * 1024 + x.hys * 1800000 < 2 * th * 1800000)

theorem over_eq (x : Cmp) (pin th : Nat) (old : Bool) :
    x.over pin th old = if x.Inside pin th ∧ x.begun = true then old
      else decide (2 * th * 1800000 < x.volts pin * 1024) != (x.test == 1) :=
  if_congr (by rw [Bool.and_eq_true, inBand_iff, Cmp.Inside]) rfl rfl

theorem outside_iff (x : Cmp) (pin : Nat) : x.outside pin = true ↔
    (x.mode = 0 ∨ ¬ x.Inside pin x.ta) ∧ (x.mode = 1 ∨ ¬ x.Inside pin x.tb) := by
  have out (th : Nat) : (!inBand (x.volts pin) th x.hys) = true ↔ ¬ x.Inside pin th := by
    rw [Bool.not_eq_true', Bool.eq_false_iff, ne_eq, inBand_iff, Cmp.Inside]
  rw [Cmp.outside, Bool.and_eq_true, Bool.or_eq_true, Bool.or_eq_true, decide_eq_true_iff, decide_eq_true_iff, out, out]

theorem cmpUv_eq (s : State) (c : Fin 8) (uv : Int) : s.cmpUv c uv =
    if h : c.val < 3 then
      (if (s.prsLine ⟨c.val, h⟩).ctlAct.getLsbD 28 then uv
        else 900000 + 2 ^ ((s.prsLine ⟨c.val, h⟩).ctlAct.extractLsb' 23 2).toNat * uv).toNat
    else uv.toNat := by
  unfold State.cmpUv
  split
  · exact vp_eq _ uv
  · rfl

/-- The evaluation moves the output of a settled comparator that is not under test. -/
abbrev Cmp.Changes (x y : Cmp) : Prop := y.test = 0 ∧ x.settled = true ∧ x.out ≠ y.out

theorem follows_of_changes {x y : Cmp} (h : x.Changes y) : x.follows y = y.changed := by
  obtain ⟨test, settled, out⟩ := h
  rw [Cmp.follows, if_neg (not_not.mpr test), if_neg (by rw [settled]; exact Bool.true_eq_false_eq_False), if_neg out]

/-- Short of a change an evaluation is seen at most. -/
theorem follows_of_not_changes {x y : Cmp} (h : ¬ x.Changes y) : ∃ b, x.follows y = { y with seen := b } := by
  unfold Cmp.follows
  split
  · exact ⟨y.seen, rfl⟩
  · split
    · split
      · exact ⟨y.out, rfl⟩
      · exact ⟨y.seen, rfl⟩
    · split
      · exact ⟨y.seen, rfl⟩
      · exact absurd ⟨not_not.mp ‹_›, Bool.eq_true_of_not_eq_false ‹_›, ‹_›⟩ h

theorem changed_of_blanked {y : Cmp} (h : y.blanked = true) : y.changed = y := if_pos h

theorem changed_of_fall {y : Cmp} (h : y.blanked = false) (out : y.out = false) : y.changed = { y with seen := y.out } := by
  rw [Cmp.changed, if_neg (by rw [h]; exact Bool.false_ne_true), if_neg (by rw [out]; exact Bool.false_ne_true)]

theorem changed_of_rise {y : Cmp} (h : y.blanked = false) (out : y.out = true) :
    y.changed = { y with seen := y.out, latch := true, recent := true } := by
  rw [Cmp.changed, if_neg (by rw [h]; exact Bool.false_ne_true), if_pos out]

theorem changed_seen {y : Cmp} (h : y.blanked = false) : y.changed.seen = y.out := by
  cases ho : y.out with
  | false => rw [changed_of_fall h ho, ho]
  | true => rw [changed_of_rise h ho, ho]

/-- An evaluation reaches no field but these three of the comparator it gives. -/
theorem follows_fields (x y : Cmp) :
    ∃ seen latch recent, x.follows y = { y with seen := seen, latch := latch, recent := recent } := by
  by_cases h : x.Changes y
  · rw [follows_of_changes h]
    cases hb : y.blanked with
    | true => exact ⟨_, _, _, changed_of_blanked hb⟩
    | false =>
      by_cases ho : y.out = true
      · exact ⟨_, _, _, changed_of_rise hb ho⟩
      · exact ⟨_, _, _, changed_of_fall hb (Bool.eq_false_of_not_eq_true ho)⟩
  · obtain ⟨b, e⟩ := follows_of_not_changes h
    exact ⟨_, _, _, e⟩

/-- An evaluation in the terms of its comparator: both threshold states, the output by the mode, and what a change reaches. -/
theorem cmpEval_evaluates (s : State) (c : Fin 8) (uv : Int) (sampled : Bool) :
    let x := s.prs.cmp.get c
    let pin := s.cmpUv c uv
    let a := x.over pin x.ta x.sa
    let b := x.over pin x.tb x.sb
    let out := outOf x.mode a b
    let change := x.test = 0 ∧ x.settled = true ∧ x.out ≠ out
    let t := s.cmpEval c uv sampled
    let y := t.prs.cmp.get c
    y.sa = a ∧ y.sb = b ∧ y.out = out ∧ y.begun = true ∧ (y.settled = true ↔ x.settled = true ∨ x.outside pin = true) ∧
    (change → x.blanked = false → y.seen = out ∧ (out = false → y.latch = x.latch) ∧
      (out = true → y.latch = true ∧ (x.cfg.getLsbD 30 = true → t.eng.evpend.getLsbD 8 = true))) ∧
    (¬ change ∨ x.blanked = true → y.latch = x.latch) ∧ (change → x.blanked = true → y.seen = x.seen) := by
  intro x pin a b out change t y
  obtain ⟨-, cmp, pends⟩ := cmpEval_follows s c uv sampled
  let z : Cmp := { x with sa := a, sb := b, out := out, begun := true, settled := x.settled || x.outside pin }
  rw [show (s.prs.cmp.get c).eval (s.cmpUv c uv) = z from eval_eq x pin] at cmp pends
  change y = x.follows z at cmp
  have moves (h : change) : y = z.changed := cmp.trans (follows_of_changes h)
  have still (h : ¬ change) : y.latch = x.latch := by
    obtain ⟨_, e⟩ := follows_of_not_changes (x := x) (y := z) h
    rw [cmp, e]
  obtain ⟨seen, latch, recent, fields⟩ := follows_fields x z
  rw [← cmp] at fields
  refine ⟨by rw [fields], by rw [fields], by rw [fields], by rw [fields], by rw [fields]; exact Bool.or_eq_true_iff,
    fun h hb => ⟨?_, fun ho => ?_, fun ho => ⟨?_, pends h.1 h.2.1 h.2.2 hb ho⟩⟩, ?_, fun h hb => ?_⟩
  · rw [moves h, changed_seen (y := z) hb]
  · rw [moves h, changed_of_fall (y := z) hb ho]
  · rw [moves h, changed_of_rise (y := z) hb ho]
  · rintro (h | hb)
    · exact still h
    · by_cases h : change
      · rw [moves h, changed_of_blanked (y := z) hb]
      · exact still h
  · rw [moves h, changed_of_blanked (y := z) hb]

/-! ## Blanking windows (R332, R333) -/

/-- Of two windows the one whose end comes first, the earlier in the list of equal ones. -/
def sooner (a : Option BlankWin) (w : BlankWin) : Option BlankWin :=
  match a with
  | none => some w
  | some x => if w.due.getD 0 < x.due.getD 0 then some w else some x

theorem sooner_some (a : Option BlankWin) (w : BlankWin) : ∃ x, sooner a w = some x ∧ (x = w ∨ a = some x) ∧
    x.due.getD 0 ≤ w.due.getD 0 ∧ ∀ y, a = some y → x.due.getD 0 ≤ y.due.getD 0 := by
  cases a with
  | none => exact ⟨w, rfl, .inl rfl, le_rfl, fun _ h => nomatch h⟩
  | some y =>
    by_cases h : w.due.getD 0 < y.due.getD 0
    · exact ⟨w, if_pos h, .inl rfl, le_rfl, fun _ e => Option.some.inj e ▸ h.le⟩
    · exact ⟨y, if_neg h, .inr rfl, not_lt.mp h, fun _ e => Option.some.inj e ▸ le_rfl⟩

/-- The soonest of a list is of the list, and none of the list ends before it. -/
theorem soonest_le {l : List BlankWin} {a : Option BlankWin} {w : BlankWin} (h : l.foldl sooner a = some w) :
    (w ∈ l ∨ a = some w) ∧ (∀ o ∈ l, w.due.getD 0 ≤ o.due.getD 0) ∧ ∀ o, a = some o → w.due.getD 0 ≤ o.due.getD 0 := by
  induction l generalizing a with
  | nil => exact ⟨.inr h, by simp, fun o e => (Option.some.inj (h.symm.trans e) ▸ le_rfl)⟩
  | cons v l ih =>
    obtain ⟨x, e, from_, lev, lea⟩ := sooner_some a v
    obtain ⟨mem, all, first⟩ := ih h
    have le := first x e
    refine ⟨?_, fun o m => ?_, fun o m => le.trans (lea o m)⟩
    · rcases mem with m | m
      · exact .inl (.tail v m)
      · obtain rfl : x = w := Option.some.inj (e.symm.trans m)
        exact from_.imp (fun (e : x = v) => e ▸ List.mem_cons_self) id
    · rcases List.mem_cons.mp m with rfl | m
      · exact le.trans lev
      · exact all o m

theorem nextWin_first {p : Prs} {src : BlankSource} {w : BlankWin} (h : p.nextWin src = some w) :
    w ∈ p.wins ∧ w.src = src ∧ w.due.isSome = true ∧
      ∀ o ∈ p.wins, o.src = src → o.due.isSome = true → w.due.getD 0 ≤ o.due.getD 0 := by
  have fold : p.nextWin src = (p.wins.filter fun w => w.src == src && w.due.isSome).foldl sooner none := rfl
  obtain ⟨mem, all, -⟩ := soonest_le (fold.symm.trans h)
  obtain ⟨of, is⟩ := List.mem_filter.mp (mem.resolve_right fun e => nomatch e)
  rw [Bool.and_eq_true, beq_iff_eq] at is
  refine ⟨of, is.1, is.2, fun o m os od => all o (List.mem_filter.mpr ⟨m, ?_⟩)⟩
  rw [Bool.and_eq_true, beq_iff_eq]
  exact ⟨os, od⟩

/-- The comparator after a window of `src` has ended, with another of `src` over it or not: unblanked, it takes over its
output. -/
def Cmp.uncovered (x : Cmp) (src : BlankSource) (on : Bool) : Cmp :=
  let y := x.setBlank src on
  if x.blanked = true ∧ y.blanked = false ∧ x.settled = true ∧ x.test = 0 ∧ x.seen ≠ x.out then
    { y with seen := x.out, latch := x.latch || x.out, recent := x.recent || x.out }
  else y

/-- A window of this source is over the comparator. -/
def Prs.covers (p : Prs) (src : BlankSource) (c : Fin 8) : Bool := p.wins.any fun w => w.src == src && w.mask.getLsbD c.val

theorem modCmp_modCmp (s : State) (c : Fin 8) (f g : Cmp → Cmp) :
    (s.modCmp c f).modCmp c g = s.modCmp c fun x => g (f x) := by
  simp only [State.modCmp, State.modPrs, vector_get_set, if_true, Vector.set_set]

theorem unblank_prs (s : State) (src : BlankSource) (c : Fin 8) :
    (s.unblank src c).prs = (s.modCmp c fun x => x.uncovered src (s.prs.covers src c)).prs := by
  let x := s.prs.cmp.get c
  let y := x.setBlank src (s.prs.covers src c)
  have kept : y.settled = x.settled ∧ y.test = x.test ∧ y.seen = x.seen ∧ y.out = x.out ∧ y.latch = x.latch ∧
      y.recent = x.recent := by
    cases src <;> exact ⟨rfl, rfl, rfl, rfl, rfl, rfl⟩
  obtain ⟨settled, test, seen, out, latch, recent⟩ := kept
  have due : (x.blanked && !y.blanked && y.settled && y.test == 0 && y.seen != y.out) = true ↔
      x.blanked = true ∧ y.blanked = false ∧ x.settled = true ∧ x.test = 0 ∧ x.seen ≠ x.out := by
    rw [settled, test, seen, out]
    simp [and_assoc]
  have uncovered : (s.modCmp c fun x => x.uncovered src (s.prs.covers src c)).prs =
      (s.modCmp c fun _ => x.uncovered src (s.prs.covers src c)).prs := rfl
  rw [uncovered]
  change (if (x.blanked && !y.blanked && y.settled && y.test == 0 && y.seen != y.out) = true then
    (if y.out then (((s.modCmp c fun _ => y).modCmp c fun z => { z with seen := z.out }).latch c)
      else (s.modCmp c fun _ => y).modCmp c fun z => { z with seen := z.out }) else s.modCmp c fun _ => y).prs = _
  by_cases h : x.blanked = true ∧ y.blanked = false ∧ x.settled = true ∧ x.test = 0 ∧ x.seen ≠ x.out
  · rw [if_pos (due.mpr h), Cmp.uncovered, if_pos h]
    cases ho : y.out with
    | false =>
      rw [if_neg Bool.false_ne_true, modCmp_modCmp, ← out, ho, ← latch, ← recent, Bool.or_false, Bool.or_false]
    | true =>
      rw [if_pos rfl, latch_prs, modCmp_modCmp, modCmp_modCmp, ← out, ho, Bool.or_true, Bool.or_true]
  · rw [if_neg (mt due.mp h), Cmp.uncovered, if_neg h]

theorem unblanks_eq (src : BlankSource) {l : List (Fin 8)} (hl : l.Nodup) (s : State) :
    (l.foldl (fun s c => s.unblank src c) s).prs.wins = s.prs.wins ∧ ∀ k,
      (l.foldl (fun s c => s.unblank src c) s).prs.cmp.get k =
        if k ∈ l then (s.prs.cmp.get k).uncovered src (s.prs.covers src k) else s.prs.cmp.get k := by
  induction l generalizing s with
  | nil => exact ⟨rfl, fun _ => rfl⟩
  | cons c l ih =>
    obtain ⟨hc, hl⟩ := List.nodup_cons.mp hl
    obtain ⟨wins, each⟩ := ih hl (s.unblank src c)
    have same : (s.unblank src c).prs.wins = s.prs.wins := by rw [unblank_prs]; rfl
    refine ⟨wins.trans same, fun k => (each k).trans ?_⟩
    have covers : (s.unblank src c).prs.covers src k = s.prs.covers src k := by rw [Prs.covers, same, Prs.covers]
    rw [covers, unblank_prs, cmp_modCmp]
    by_cases e : k = c
    · subst e
      simp [hc]
    · simp [e]

theorem unblank_within (s : State) (src : BlankSource) (c : Fin 8) : Within [.prs] s (s.unblank src c) := by
  have blank := modCmp_within s c fun _ => (s.prs.cmp.get c).setBlank src (s.prs.covers src c)
  have seen := (modCmp_within _ c fun z => { z with seen := z.out }).after blank
  exact (within_ite (within_ite ((latch_within _ c).after seen) seen) blank).mono rfl

/-- The end of a window takes it from the list and uncovers each comparator. -/
theorem blankEnd_ends {s : State} {src : BlankSource} {w : BlankWin} (h : s.prs.nextWin src = some w) :
    let rest := { s.prs with wins := s.prs.wins.erase w }
    Within [.prs] s (s.blankEnd src) ∧ (s.blankEnd src).prs.wins = rest.wins ∧
      ∀ c, (s.blankEnd src).prs.cmp.get c = (s.prs.cmp.get c).uncovered src (rest.covers src c) := by
  intro rest
  have ends : s.blankEnd src = (upTo 8).foldl (fun s c => s.unblank src c) { s with prs := rest } := by
    unfold State.blankEnd
    rw [h]
    rfl
  have uncovers : Within [.prs] { s with prs := rest } (s.blankEnd src) := by
    rw [ends]
    exact within_foldl _ (fun t c => unblank_within t src c) _ _
  obtain ⟨wins, each⟩ := unblanks_eq src (List.nodup_finRange 8) { s with prs := rest }
  rw [← upTo, ← ends] at wins each
  have taken : Within [.prs] s { s with prs := rest } := lines_within s rest rfl
  exact ⟨taken.trans uncovers, wins, fun c => (each c).trans (if_pos (List.mem_finRange c))⟩

end Sys2Proof.Machine
end

section
/-!
PROOFS. Comparators: evaluations, the ends of blanking windows, and the writes of CMP_CFG and CMP_TEST (R319, R327 to R335).
-/

namespace Sys2Proof.Machine

/-! ## Configuration and test writes (R330, R335) -/

theorem configure_eq (x : Cmp) (v : Word) : x.configure v =
    if (x.cfg ^^^ v) &&& 0x8FFBFFFF = 0 then { x with cfg := v } else { x with cfg := v, begun := false, settled := false } :=
  ite_not ..

theorem setTest_eq (x : Cmp) (v : Word) (lo : Nat) : x.setTest (fld v lo 2) =
    if x.test ≠ 0 ∧ v.extractLsb' lo 2 = 0 then { x with test := v.extractLsb' lo 2, begun := false, settled := false }
    else { x with test := v.extractLsb' lo 2 } := by
  simp only [Cmp.setTest, fld_zero_iff, ofNat_fld]
  rfl

theorem cmpCheck_config {c : Fin 8} {v : Word} (reserved : v.getLsbD 18 = false) (srate : v.extractLsb' 25 3 ≠ 6)
    (band : (v.extractLsb' 23 2).toNat < 2 ∨
      (v.extractLsb' 0 9).toNat + (v.extractLsb' 19 4).toNat + 1 ≤ (v.extractLsb' 9 9).toNat)
    (lclr : c.val < 6 ∨ v.extractLsb' 28 2 ≠ 2) : cmpCheck (4 * c.val) v = 0 := by
  have index : 4 * c.val / 4 = c.val := Nat.mul_div_cancel_left c.val (by decide)
  have rate : fld v 25 3 ≠ 6 := by
    rw [fld_eq_extractLsb']
    exact fun h => srate (BitVec.eq_of_toNat_eq h)
  have clear : fld v 28 2 = 2 → c.val < 6 := fun h => lclr.resolve_right fun ne => ne (BitVec.eq_of_toNat_eq (by
    rw [← fld_eq_extractLsb']
    exact h))
  unfold cmpCheck
  rw [if_pos (by omega), index]
  refine if_neg ?_
  simp only [bit_eq_getLsbD, reserved, fld_eq_extractLsb' v 23, fld_eq_extractLsb' v 9, fld_eq_extractLsb' v 0,
    fld_eq_extractLsb' v 19]
  rintro (h | h | h | h)
  · exact Bool.false_ne_true h
  · exact rate h
  · omega
  · have := clear h.2
    omega

theorem configWrite_posts {s : State} {i : Initiator} {v : Word} {c : Fin 8}
    (hr : s.reaches i (0x40008000 + 4 * c.val) true = true) (hp : s.sys.posted = []) (hf : ∀ f ∈ s.sys.failed, f.init ≠ i)
    (hv : cmpCheck (4 * c.val) v = 0) :
    Posts (.next (s.writeThrough i (0x40008000 + 4 * c.val) v)) s i (0x40008000 + 4 * c.val) fun u =>
      u.modCmp c fun x => x.configure v := by
  have check (u : State) : u.aonCheck (0x40008000 + 4 * c.val) v = 0 := by
    rw [← hv]
    match c with
    | 0 | 1 | 2 | 3 | 4 | 5 | 6 | 7 => rfl
  have write (u : State) : u.aonApply (BitVec.ofNat 32 (0x40008000 + 4 * c.val)) v =
      (u.modCmp c fun x => x.configure v, 0) := by
    match c with
    | 0 | 1 | 2 | 3 | 4 | 5 | 6 | 7 => rfl
  have block : inRegs (0x40008000 + 4 * c.val) = true ∧ (0x40008000 + 4 * c.val) % 4 = 0 ∧
      isAon (blockOf (0x40008000 + 4 * c.val)) = true := by
    match c with
    | 0 | 1 | 2 | 3 | 4 | 5 | 6 | 7 => exact ⟨rfl, rfl, rfl⟩
  obtain ⟨regs, aligned, aon⟩ := block
  exact writeThrough_posts s i _ v _ regs aligned aon hr hp
    (List.find?_eq_none.mpr fun f hm => by simpa using hf f hm) (check s) (fun u _ => (check u).trans (check s).symm)
    fun u _ => write _

theorem testWrite_posts {s : State} {i : Initiator} {v : Word} (hr : s.reaches i 0x4000802C true = true)
    (hp : s.sys.posted = []) (hf : ∀ f ∈ s.sys.failed, f.init ≠ i) (hv : v.extractLsb' 16 16 = 0) :
    Posts (.next (s.writeThrough i 0x4000802C v)) s i 0x4000802C fun u => u.modPrs fun p => { p with
      cmp := Vector.ofFn fun c => (p.cmp.get c).setTest (fld v (2 * c.val) 2) } := by
  have check (u : State) : u.aonCheck 0x4000802C v = 0 := if_pos ((fld_zero_iff v 16 16).mpr hv)
  exact writeThrough_posts s i 0x4000802C v _ rfl rfl rfl hr hp
    (List.find?_eq_none.mpr fun f hm => by simpa using hf f hm) (check s) (fun u _ => (check u).trans (check s).symm)
    fun u _ => rfl

/-! ## The claims -/

/-- Settles O44: an evaluation is `Cmp.follows`, the end of a window `Cmp.uncovered`, and a write its own function of a
comparator. -/
theorem comparatorsFollowTheirInputs : Obligations.ComparatorsFollowTheirInputs := by
  unfold Obligations.ComparatorsFollowTheirInputs
  intro s hp evaluates
  have evaluated (c : Fin 8) (uv : Int) (sampled : Bool) (tmp : Tmp) (o : Out)
      (ho : o = .next (({ s with tmp := tmp } : State).cmpEval c uv sampled)) : evaluates o c uv tmp := by
    have fields := cmpEval_evaluates { s with tmp := tmp } c uv sampled
    rw [cmpUv_eq] at fields
    dsimp only at fields
    rw [over_eq, over_eq, outside_iff] at fields
    exact (cmpEval_follows { s with tmp := tmp } c uv sampled).1.touches ho rfl fields
  refine ⟨fun c uv ha hl => ⟨fun hs => ?sample, fun ph hs => ?transition⟩, fun src w hw => ?window,
    fun i v c hq hf hr h18 hrate hband hlclr => ?config, fun i v hq hf hr hv => ?test⟩
  case sample =>
    exact evaluated c uv true s.tmp _ (show execComparatorSample c uv s = _ from
      whenever_holds hp (by rw [ha, hl, Cmp.continuous, beq_false_of_ne hs]; rfl) _)
  case transition =>
    exact evaluated c uv false _ _ (show execComparatorTransition c uv ph s = _ from
      whenever_holds hp (by rw [ha, hl, Cmp.continuous, hs]; rfl) fun s => (s.atPhase ph).cmpEval c uv false)
  case window =>
    obtain ⟨within, wins, each⟩ := blankEnd_ends hw
    refine ⟨nextWin_first hw, within.touches (t := s.blankEnd src) ?_ rfl ⟨wins, fun c => (each c).trans ?_⟩⟩
    · exact show execBlankWindowEnd src s = _ from whenever_holds hp (by rw [State.windowOpen, hw]; rfl) _
    · cases src <;> rfl
  case config =>
    have runs : exec (.comparatorConfigWrite i c v) s = .next (s.writeThrough i (0x40008000 + 4 * c.val) v) :=
      show execComparatorConfigWrite i c v s = _ from whenPowered_powered hp _
    rw [runs]
    have posts := configWrite_posts hr hq hf (cmpCheck_config h18 hrate hband hlclr)
    simp only [configure_eq] at posts
    exact posts
  case test =>
    have runs : exec (.comparatorTestWrite i v) s = .next (s.writeThrough i 0x4000802C v) :=
      show execComparatorTestWrite i v s = _ from whenPowered_powered hp _
    rw [runs]
    have posts := testWrite_posts hr hq hf hv
    simp only [setTest_eq] at posts
    exact posts

end Sys2Proof.Machine
end

section
/-!
SUPPORT. What a step does (R346).
-/

namespace Sys2Proof.Machine

/-- Settles O1: each case of the queue is an equation of the step. -/
theorem stepRunsTheFrontCommand : Obligations.StepRunsTheFrontCommand := by
  unfold Obligations.StepRunsTheFrontCommand
  intro s
  refine ⟨fun c rest front => ?_, fun empty => ?_⟩
  · rw [step, front]
  · rw [step, empty]

end Sys2Proof.Machine
end

section
/-!
SUPPORT. Tempo's start, its fall to the RC oscillator and its recovery (R345, R364, R369, R370, R538).
-/

namespace Sys2Proof.Machine

/-! ## The core's source (R121, R538) -/

theorem srcReady_iff (s : State) (c : BitVec 2) : s.srcReady c = true ↔
    c = 0 ∨ (c = 1 ∧ s.xt32Runs = true) ∨ (c = 2 ∧ s.sys.xoRun = true) := by
  simp [State.srcReady, or_assoc]

theorem coreSwitch_sys (s : State) : ∃ y : Sys, s.coreSwitch = { s with sys := y } := by
  unfold State.coreSwitch
  split
  · exact ⟨_, xoRest_eq _⟩
  · exact ⟨s.sys, rfl⟩

/-- A running core wants XO32M when that is its source (R123). -/
theorem coreWantsXo_running {s : State} (hp : s.powered = true) (running : s.eng.stopped = false)
    (hc : s.sys.coreStopped = false ∨ s.sys.src ≠ 2) : s.coreWantsXo = (s.sys.src == 2) := by
  unfold State.coreWantsXo State.coreRuns
  rw [hp, running]
  rcases hc with hc | hc
  · rw [hc]; rfl
  · rw [beq_false_of_ne hc, Bool.and_false]

/-- A core that takes its requested source leaves XO32M to the islands, or keeps it as that source. -/
theorem coreSwitch_ready {s : State} (hw : s.coreWantsXo = (s.sys.src == 2)) (hr : s.srcReady s.sys.src = true) :
    s.coreSwitch = { s with sys := { s.sys with
      curSrc := s.sys.src, xoRun := s.sys.xoRun && (s.sys.runDmi || s.sys.runRad || s.sys.src == 2) } } := by
  have loses : ({ s with sys := { s.sys with curSrc := s.sys.src } } : State).losesXo = false := by
    change (s.sys.xoRun && !(s.sys.runDmi || s.sys.runRad || s.coreWantsXo) && s.sys.src == 2 && !s.eng.stopped) = false
    rw [hw]
    cases s.sys.src == 2 <;> simp
  unfold State.coreSwitch
  rw [if_pos hr, State.modSys, xoRest_eq, State.xoLeft, loses, Bool.false_and, Bool.or_false, ← hw]
  rfl

/-! ## The claims -/

/-- Settles O45: the start moves a core that waits for its source, and the other rows are equations of the next state. -/
theorem tempoStartsAndFallsBack : Obligations.TempoStartsAndFallsBack := by
  unfold Obligations.TempoStartsAndFallsBack
  intro s hp start free
  refine ⟨fun idle => ⟨?start, ?timeout⟩, fun counts good => ?fail, fun failed => ?recover, fun src trace => ?trace⟩
  case start =>
    have runs : exec .tempoStart s = .next (if s.eng.stopped then { s with tmp := start s.tmp }
        else ({ s with tmp := start s.tmp } : State).coreSwitch) :=
      show execTempoStart s = _ from whenever_holds hp (by rw [idle]; rfl) _
    have ready : ({ s with tmp := start s.tmp } : State).srcReady s.sys.src = true ↔
        s.sys.src = 0 ∨ (s.sys.src = 1 ∧ s.tmp.xtfail = false) ∨ (s.sys.src = 2 ∧ s.sys.xoRun = true) := by
      rw [srcReady_iff]
      simp [State.xt32Runs, start]
    rw [runs]
    cases running : s.eng.stopped
    case true => exact ⟨s.sys, rfl, fun _ => (if_neg fun h => Bool.noConfusion h.1).symm⟩
    case false =>
      by_cases hr : ({ s with tmp := start s.tmp } : State).srcReady s.sys.src = true
      · obtain ⟨y, switched⟩ := coreSwitch_sys { s with tmp := start s.tmp }
        refine ⟨y, congrArg _ switched, fun hc => ?_⟩
        rw [if_pos ⟨rfl, ready.mp hr⟩]
        have wants := coreWantsXo_running (s := { s with tmp := start s.tmp }) hp running hc
        exact congrArg State.sys (switched.symm.trans (coreSwitch_ready wants hr))
      · exact ⟨s.sys, congrArg _ (if_neg hr), fun _ => (if_neg fun h => hr (ready.mpr h.2)).symm⟩
  case timeout => exact show execXt32StartTimeout s = _ from whenever_holds hp (by rw [idle]; rfl) _
  case fail =>
    refine show execXt32Fail s = _ from (whenever_holds hp (by rw [counts, good]; rfl) _).trans ?_
    by_cases fll : s.sys.curSrc = 1
    · have slow : (s.modTmp fun t => { t.unsync.freeRun with xtfail := true }).fallSrc = 0 :=
        if_neg (by simp [State.xt32Runs, State.modTmp])
      rw [if_pos fll]
      refine congrArg _ ((if_pos fll).trans ?_)
      rw [State.coreFall, slow]
      rfl
    · rw [if_neg fll]
      exact congrArg _ (if_neg fll)
  case recover =>
    refine show execXt32Recover s = _ from (whenever_holds hp failed _).trans (congrArg _ ?_)
    have stays : (s.sys.src == 0 || !(s.modTmp fun t => { t.freeRun with xtfail := false }).xt32Runs) = true ↔
        ¬ (s.sys.src ≠ 0 ∧ s.tmp.counting = true) := by
      simp [State.xt32Runs, State.modTmp, Tmp.freeRun, imp_iff_not_or]
    by_cases back : s.sys.src ≠ 0 ∧ s.tmp.counting = true
    · rw [if_pos back]
      exact if_neg fun h => stays.mp h back
    · rw [if_neg back]
      exact if_pos (stays.mpr back)
  case trace => exact show execTraceLoss s = _ from whenever_holds hp (by rw [src, trace]; rfl) _

end Sys2Proof.Machine
end

section
/-!
SUPPORT. Reads and writes of the TMP registers (R14, R347, R348, R355, R357, R366, R367), and captures (R350, R381, R536).
-/

namespace Sys2Proof.Machine

/-! ## What a register read or write makes of tempo -/

theorem Tmp.free_of {t : Tmp} (h : t.sync = false ∨ t.src = 3) : t.free = true := by
  unfold Tmp.free
  rcases h with h | h
  · rw [h]; rfl
  · rw [h]; exact Bool.or_true _

theorem setSrc_eq (t : Tmp) (c : BitVec 2) : t.setSrc c.toNat =
    if t.src = c then t else { t with
      src := c, sync := false, trace := false, depth := 0xF, err := 0xFFF, disc := .freeRun, ppsEdges := 0,
      rejected := none } := by
  simp only [Tmp.setSrc, BitVec.toNat_inj, BitVec.ofNat_toNat, BitVec.setWidth_eq]
  rfl

/-- The word that a write of TMP_QUAL carries: SRC and MARM, and the read-only fields as 0. -/
def qualWord (c : BitVec 2) (m : Bool) : Word := place c.toNat 28 ||| placeB m 23

theorem qualWord_src (c : BitVec 2) (m : Bool) : fld (qualWord c m) 28 2 = c.toNat := by
  rw [fld_eq_extractLsb', qualWord, placeB, BitVec.extractLsb'_or, extract_place_same _ (by decide),
    extract_place_other (b2n_lt m) (.inl (by decide)), BitVec.ofNat_toNat, BitVec.setWidth_eq]
  exact congrArg BitVec.toNat BitVec.or_zero

theorem qualWord_marm (c : BitVec 2) (m : Bool) : bit (qualWord c m) 23 = m := by
  rw [bit_eq_getLsbD, qualWord, placeB, BitVec.getLsbD_or, getLsbD_place, getLsbD_place]
  cases m <;> rfl

theorem write_qual (t : Tmp) (c : BitVec 2) (m : Bool) :
    t.write 0x14 (qualWord c m) = (if m then t.setSrc c.toNat else { t.setSrc c.toNat with marm := false }, 0) := by
  unfold Tmp.write
  simp only [qualWord_src, qualWord_marm]

theorem setSrc_marm (t : Tmp) (c : Nat) : (t.setSrc c).marm = t.marm := by
  unfold Tmp.setSrc
  split <;> rfl

theorem Tmp.unarmed {t : Tmp} (h : t.marm = false) : { t with marm := false } = t := by
  rw [← h]

/-- A write of SRC with the match as it stands changes the source alone. -/
theorem write_src (t : Tmp) (c : BitVec 2) : t.write 0x14 (qualWord c t.marm) = (t.setSrc c.toNat, 0) := by
  rw [write_qual]
  cases armed : t.marm
  · exact congrArg (·, 0) (Tmp.unarmed ((setSrc_marm t c.toNat).trans armed))
  · rfl

/-- A write of MARM = 0 with SRC as it stands disarms the match. -/
theorem write_disarm (t : Tmp) : t.write 0x14 (qualWord t.src false) = ({ t with marm := false }, 0) := by
  rw [write_qual, setSrc_eq, if_pos rfl]; rfl

theorem qualWord_unarmed (c : BitVec 2) : qualWord c false = place c.toNat 28 := BitVec.or_zero

/-! ## The accesses -/

theorem inRegs_tmp {a : Nat} (block : a / 0x1000 = 0x40004) : inRegs a = true ∧ blockOf a = 4 := by
  rw [inRegs_iff, blockOf, block]
  exact ⟨by omega, rfl⟩

/-- A write of a TMP register that it takes is posted, and then acts on tempo alone. -/
theorem tmpWrite_posts {s : State} {i : Initiator} {a : Nat} {v : Word} {t : Tmp} (block : a / 0x1000 = 0x40004)
    (aligned : a % 4 = 0) (hp : s.sys.posted = []) (hf : ∀ f ∈ s.sys.failed, f.init ≠ i) (hr : s.reaches i a true = true)
    (hc : s.tmp.check (a % 0x1000) v = 0) (hw : s.tmp.write (a % 0x1000) v = (t, 0)) :
    Posts (.next (s.writeThrough i a v)) s i a fun u => { u with tmp := t } := by
  obtain ⟨regs, four⟩ := inRegs_tmp block
  have check (u : State) (hu : u.tmp = s.tmp) : u.aonCheck a v = 0 := by
    rw [State.aonCheck, four, hu]; exact hc
  have apply (u : State) (hu : u.tmp = s.tmp) : u.aonApply (BitVec.ofNat 32 a) v = ({ u with tmp := t }, 0) := by
    rw [State.aonApply, inRegs_toNat regs, block, hu]
    dsimp only
    rw [if_neg (by decide), if_pos rfl, hw]
    rfl
  refine writeThrough_posts s i a v _ regs aligned (by rw [four]; rfl) hr hp
    (List.find?_eq_none.mpr fun f hm => by simpa using hf f hm) (check s rfl)
    (fun u hu => (check u ((atBus_within hu).tmp rfl)).trans (check s rfl).symm) fun u hu => ?_
  exact apply _ (((wroteBy_within u u i a).tmp rfl).trans ((atBus_within hu).tmp rfl))

/-- A read of a TMP register that answers `w` and leaves tempo as `t`. -/
theorem tmpRead_got {s : State} {i : Initiator} {rd : Fin 16} {a : Nat} {t : Tmp} {w : Word} (block : a / 0x1000 = 0x40004)
    (aligned : a % 4 = 0) (hp : s.sys.posted = []) (hf : ∀ f ∈ s.sys.failed, f.init ≠ i) (hr : s.reaches i a false = true)
    (answers : ∀ u : State, u.tmp = s.tmp → u.tmpRead i (a % 0x1000) = some ({ u with tmp := t }, w)) :
    Got (.next (s.readBy i rd a)) s i a rd fun u => ({ u with tmp := t }, w) := by
  obtain ⟨regs, four⟩ := inRegs_tmp block
  refine readBy_got s i rd a _ regs (by rw [four]; decide) hr fun u hu => ?_
  obtain ⟨sys, -⟩ := atBus_same hu
  refine busRead_aon u _ i a w regs aligned (by rw [four]; rfl) (by rw [sys]; exact hp)
    (by rw [sys]; exact List.find?_eq_none.mpr fun f hm => by simpa using hf f hm) ?_
  unfold State.regRead
  rw [four]
  dsimp only
  rw [answers u ((atBus_within hu).tmp rfl)]
  rfl

theorem atPhase_counting {s : State} (h : s.tmp.counting = true) (ph : Ring) :
    s.atPhase ph = { s with tmp := { s.tmp with phase := max s.tmp.phase (s.tmp.captured 1 ph) } } := by
  rw [State.atPhase, State.modTmp, if_pos h]

/-- A read of TMP_NOW_LO, with the time of the latest capture. -/
theorem tmpRead_now {u : State} (i : Initiator) (h : u.tmp.counting = true) :
    let now := u.tmp.now + BitVec.ofNat 64 u.tmp.phase
    u.tmpRead i 0 = some (
      { u with tmp := { u.tmp with hiLatch := u.tmp.hiLatch.set (initIdx i) (now.extractLsb' 32 32) } },
      now.extractLsb' 0 32) := by
  have clock : u.local = u.tmp.now + BitVec.ofNat 64 u.tmp.phase := if_pos h
  dsimp only
  rw [← clock]
  rfl

/-! ## Captures (R350, R381) -/

theorem roundDiv_nat (a b : Nat) : roundDiv (a : Int) b = ((2 * a + b) / (2 * b) : Nat) := by
  rw [roundDiv, if_pos (Int.natCast_nonneg a)]
  norm_cast

/-- The quotient of a rounded division is a nearest one. -/
theorem nearest_div (a : Nat) {b : Nat} (hb : 0 < b) :
    2 * ((2 * a + b) / (2 * b) * b) ≤ 2 * a + b ∧ 2 * a ≤ 2 * ((2 * a + b) / (2 * b) * b) + b := by
  have low := Nat.div_mul_le_self (2 * a + b) (2 * b)
  have high := Nat.lt_div_mul_add (a := 2 * a + b) (b := 2 * b) (by omega)
  rw [Nat.mul_left_comm] at low high
  omega

theorem captured_eq (t : Tmp) (n : Nat) (r : Ring) (h : t.inc * r.na ≤ t.ahead n * (2 ^ 37 * r.nb)) :
    t.captured n r = (2 * (t.ahead n * (2 ^ 37 * r.nb) - t.inc * r.na) + 2 ^ 37 * r.nb) / (2 * (2 ^ 37 * r.nb)) := by
  rw [Tmp.captured, Nat.mul_assoc, ← Nat.cast_sub h, roundDiv_nat, Int.toNat_natCast]

theorem captureLess_eq {s : State} (counts : s.tmp.counting = true) (n : Nat) (r : Ring) (d : Word) :
    s.captureLess n r d = s.tmp.now + BitVec.ofNat 64 (s.tmp.captured n r) - BitVec.ofNat 64 ((16 * d.toNat + 500) / 1000) := by
  have units : (2 * (16 * d.toNat) + 1000) / (2 * 1000) = (16 * d.toNat + 500) / 1000 := by omega
  rw [State.captureLess, if_pos counts, roundDiv_nat, Int.toNat_natCast, units]

/-! ## The claims -/

/-- Settles O46: each access is a read or a write of its register, and a capture is a nearest quotient. -/
theorem tempoRegistersReadAndWrite : Obligations.TempoRegistersReadAndWrite := by
  unfold Obligations.TempoRegistersReadAndWrite
  refine ⟨?accesses, fun s n r counts hb => ⟨rfl, fun fits => ?nearest, captureLess_eq counts n r, ?stamp⟩⟩
  case nearest =>
    rw [captured_eq s.tmp n r fits]
    exact nearest_div _ (by positivity)
  case stamp =>
    rintro f rfl rfl
    rfl
  intro i s hp hq hf mayWrite src
  refine ⟨?now, fun rd hr => ?offs, fun v may hr => ?stage, fun v may hr => ?set,
    fun c hr => ?source, fun v hr => ?arm, fun hr => ?disarm⟩
  case now =>
    intro rd ph counts v hr
    have runs : exec (.tmpNowRead i rd ph) s = .next (v.readBy i rd 0x40004000) :=
      show execTmpNowRead i rd ph s = _ from (whenPowered_powered hp _).trans (by rw [atPhase_counting counts])
    rw [runs]
    refine tmpRead_got rfl rfl hq hf hr fun u hu => (tmpRead_now i (by rw [hu]; exact counts)).trans ?_
    rw [hu]
  case offs =>
    have runs : exec (.tmpOffsRead i rd) s = .next (s.readBy i rd 0x4000400C) :=
      show execTmpOffsRead i rd s = _ from whenPowered_powered hp _
    rw [runs]
    refine tmpRead_got rfl rfl hq hf hr fun u hu => ?_
    rw [← hu]
    rfl
  case stage =>
    have runs : exec (.tmpOffsStage i v) s = .next (s.writeThrough i 0x4000400C v) :=
      show execTmpOffsStage i v s = _ from whenPowered_powered hp _
    rw [runs]
    exact tmpWrite_posts rfl rfl hq hf hr (if_pos (Tmp.free_of may)) (if_pos (Tmp.free_of may))
  case set =>
    have runs : exec (.tmpOffsSet i v) s = .next (s.writeThrough i 0x40004010 v) :=
      show execTmpOffsSet i v s = _ from whenPowered_powered hp _
    rw [runs]
    exact tmpWrite_posts rfl rfl hq hf hr (if_pos (Tmp.free_of may)) (if_pos (Tmp.free_of may))
  case source =>
    have runs : exec (.timeSourceChange i c) s = .next (s.writeThrough i 0x40004014 (qualWord c s.tmp.marm)) :=
      show execTimeSourceChange i c s = _ from whenPowered_powered hp _
    have taken : s.tmp.write 0x14 (qualWord c s.tmp.marm) = (src s.tmp c, 0) :=
      (write_src s.tmp c).trans (congrArg (·, 0) (setSrc_eq s.tmp c))
    rw [runs]
    exact tmpWrite_posts rfl rfl hq hf hr rfl taken
  case arm =>
    have runs : exec (.matchArm i v) s = .next (s.writeThrough i 0x40004018 v) :=
      show execMatchArm i v s = _ from whenPowered_powered hp _
    rw [runs]
    exact tmpWrite_posts rfl rfl hq hf hr rfl rfl
  case disarm =>
    have runs : exec (.matchDisarm i) s = .next (s.writeThrough i 0x40004014 (place s.tmp.src.toNat 28)) :=
      show execMatchDisarm i s = _ from whenPowered_powered hp _
    rw [runs, ← qualWord_unarmed]
    exact tmpWrite_posts rfl rfl hq hf hr rfl (write_disarm s.tmp)

end Sys2Proof.Machine
end

section
/-!
SUPPORT. What the aging of the MAC's tables leaves unchanged: a link that is dropped ends its frames, and the node scans again
(R417, R422, R425, R450, R452).
-/

namespace Sys2Proof.Machine

theorem modMac_within (s : State) (f : Mac → Mac) : Within [.mac] s (s.modMac f) :=
  within_of_eng rfl fun p hp => by cases p <;> simp_all [Part.Same]

theorem modMacx_within (s : State) (f : MacAux → MacAux) : Within [.macx] s (s.modMacx f) :=
  within_of_eng rfl fun p hp => by cases p <;> simp_all [Part.Same]

/-! ## Frames of the queue end (R452, R453) -/

theorem dmaRead_within (s : State) (a n : Nat) : Within [.mem] s (s.dmaRead a n).1 :=
  within_foldl _ (fun s _ => eccRead_within s _ false) _ s

theorem descWrite_within (s : State) (a : Nat) (w : Word) : Within [.mem, .cells] s (s.descWrite a w) :=
  storeBytes_within s a 4 _ 0 0

theorem endDesc_within (s : State) (k : Fin 16) (status : Nat) (stamp : Word) (link tries : Nat) :
    Within [.mem, .cells] s (s.endDesc k status stamp link tries) :=
  .mono (.after ((event_quiet _ 2).within []) (.after (descWrite_within _ _ _) (.after (descWrite_within _ _ _)
    (.after (descWrite_within _ _ _) (dmaRead_within s _ 4))))) rfl

theorem endFrame_within (s : State) (f : TxFrame) (status : Nat) :
    Within [.mem, .cells, .macx, .fresh] s (s.endFrame f status) := by
  unfold State.endFrame
  dsimp only
  split
  · exact .mono (modMacx_within s _) rfl
  · exact .mono (within_ite (.after (endDesc_within _ _ _ _ _ _) (.after (fresh_within _ _) (modMacx_within s _)))
      (.after (endDesc_within _ _ _ _ _ _) (modMacx_within s _))) rfl

/-! ## A link goes OFF (R422, R425, R450) -/

theorem modLink_within (s : State) (l : Fin 16) (f : Link → Link) : Within [.mac] s (s.modLink l f) := modMac_within s _

theorem flushLink_within (s : State) (l : Fin 16) : Within [.mem, .cells, .macx, .fresh] s (s.flushLink l) :=
  within_foldl _ (fun s f => endFrame_within s f 7) _ s

theorem dropAttempt_within (s : State) (l : Fin 16) : Within [.macx] s (s.dropAttempt l) :=
  .mono (within_ite (.after ((event_quiet _ 2).within []) (modMacx_within s _)) (.refl [] s)) rfl

theorem linkOff_within (s : State) (l : Fin 16) : Within [.mem, .cells, .mac, .macx, .fresh] s (s.linkOff l) := by
  unfold State.linkOff
  exact .mono (.after (modMacx_within _ _) (.after (dropAttempt_within _ l) (.after (flushLink_within _ l)
    (modLink_within s l _)))) rfl

theorem allLinksOff_within (s : State) : Within [.mem, .cells, .mac, .macx, .fresh] s s.allLinksOff :=
  within_foldl _ linkOff_within _ s

theorem scanFrom_within (s : State) (c : Nat) : Within [.rad, .macx] s (s.scanFrom c) :=
  .mono (.after (setRad_within _ _) (modMacx_within s _)) rfl

theorem dropLink_within (s : State) (l : Fin 16) :
    Within [.mem, .cells, .rad, .mac, .macx, .fresh] s (s.dropLink l) :=
  .mono (within_ite (.after (scanFrom_within _ _) (.after (allLinksOff_within _) (modMac_within s _)))
    (.after (modMac_within _ _) (linkOff_within s l))) rfl

/-! ## The tick -/

theorem ageTick_within (s : State) : Within [.mem, .cells, .rad, .mac, .macx, .fresh] s s.ageTick :=
  .mono (.after (within_foldl (b := [.mem, .cells, .rad, .mac, .macx, .fresh]) _
    (fun s l => .mono (within_ite (dropLink_within s l) (.refl [] s)) rfl) _ _) (modMac_within s _)) rfl

end Sys2Proof.Machine
end

section
/-!
SUPPORT. Tempo at its edges: the match, an edge of PPS, and the quality tick with its square root (R331, R332, R351, R360,
R363 to R365, R367).
-/

namespace Sys2Proof.Machine

/-! ## The match (R331, R332, R367) -/

theorem blankStart_within (s : State) (src : BlankSource) (tail : Nat) : Within [.prs] s (s.blankStart src tail) :=
  lines_within s _ rfl

/-- The latches with this LCLR clear, but for those set in the XT32 period under way. -/
theorem latchPeriod_cmp (s : State) (k : BitVec 2) (c : Fin 8) :
    (s.latchPeriod k.toNat fun _ => true).prs.cmp.get c =
      let x := s.prs.cmp.get c
      if x.cfg.extractLsb' 28 2 = k ∧ x.recent = false then { x with latch := false } else x := by
  have lclr (w : Word) : fld w 28 2 = k.toNat ↔ w.extractLsb' 28 2 = k := by
    rw [fld_eq_extractLsb', BitVec.toNat_inj]
  simp only [State.latchPeriod, modPrs_prs, Vector.get_ofFn, Bool.and_true, beq_iff_eq, lclr, Cmp.clear]
  cases (s.prs.cmp.get c).recent <;> simp

/-- The window of a match blanks the comparators of its field of CMP_BLANK. -/
theorem blankMatch_prs (s : State) (tail : Nat) : (s.blankStart .tmpMatch tail).prs = { s.prs with
    cmp := Vector.ofFn fun c =>
      let x := s.prs.cmp.get c
      { x with blMatch := x.blMatch || s.prs.blank.getLsbD (16 + c.val) }
    wins := s.prs.wins ++ [{ src := .tmpMatch, mask := s.prs.blank.extractLsb' 16 8, valve := 0, tail := tail,
                             due := some (s.local.toNat + tail) }] } := by
  simp only [State.blankStart, modPrs_prs, bit_eq_getLsbD, ofNat_fld]
  congr 2
  funext c
  cases s.prs.blank.getLsbD (16 + c.val)
  · rw [Bool.or_false]; rfl
  · rw [Bool.or_true]; rfl

/-- A match that has fired, before it acts on the comparators. -/
def State.matchFired (s : State) : State := (s.modTmp fun t => { t with marm := false }).event 11

theorem matchFired_within (s : State) : Within [.tmp] s s.matchFired :=
  .mono (.after ((event_quiet _ 11).within []) (modTmp_within s _)) rfl

theorem matchFired_tmp (s : State) : s.matchFired.tmp = { s.tmp with marm := false } := event_tmp _ 11

theorem matchFired_prs (s : State) : s.matchFired.prs = s.prs := (matchFired_within s).prs rfl

/-- The same, with the latches that a match clears. -/
def State.matchCleared (s : State) : State := s.matchFired.latchPeriod 3 fun _ => true

theorem matchCleared_within (s : State) : Within [.tmp, .prs] s s.matchCleared :=
  .mono (.after (latchPeriod_within _ _ _) (matchFired_within s)) rfl

theorem matchCleared_prs (s : State) : s.matchCleared.prs = { s.prs with cmp := s.matchCleared.prs.cmp } := by
  rw [State.matchCleared, State.latchPeriod, modPrs_prs, matchFired_prs]

theorem matchCleared_cmp (s : State) (c : Fin 8) : s.matchCleared.prs.cmp.get c =
    let x := s.prs.cmp.get c
    if x.cfg.extractLsb' 28 2 = 3 ∧ x.recent = false then { x with latch := false } else x := by
  have cleared := latchPeriod_cmp s.matchFired 3 c
  rw [matchFired_prs] at cleared
  exact cleared

theorem matchCleared_local (s : State) : s.matchCleared.local = s.local := by
  have tmp : s.matchCleared.tmp = { s.tmp with marm := false } := matchFired_tmp s
  rw [State.local, tmp]
  rfl

theorem fireMatch_eq (s : State) :
    s.fireMatch = s.matchCleared.blankStart .tmpMatch (16000 * 2 ^ (s.prs.blank.extractLsb' 28 4).toNat) := by
  rw [← fld_eq_extractLsb', ← matchFired_prs s]
  rfl

theorem fireMatch_within (s : State) : Within [.tmp, .prs] s s.fireMatch := by
  rw [fireMatch_eq]
  exact .mono (.after (blankStart_within _ _ _) (matchCleared_within s)) rfl

theorem fireMatch_tmp (s : State) : s.fireMatch.tmp = { s.tmp with marm := false } := matchFired_tmp s

theorem fireMatch_pends (s : State) : s.fireMatch.eng.evpend.getLsbD 11 = true :=
  event_pends (s.modTmp fun t => { t with marm := false }) 11

theorem fireMatch_prs (s : State) :
    s.fireMatch.prs = { s.prs with cmp := s.fireMatch.prs.cmp, wins := s.fireMatch.prs.wins } := by
  rw [fireMatch_eq, blankMatch_prs, matchCleared_prs]

theorem fireMatch_wins (s : State) : s.fireMatch.prs.wins =
    let tail := 16000 * 2 ^ (s.prs.blank.extractLsb' 28 4).toNat
    s.prs.wins ++ [{ src := .tmpMatch, mask := s.prs.blank.extractLsb' 16 8, valve := 0, tail := tail,
                     due := some (s.local.toNat + tail) }] := by
  rw [fireMatch_eq, blankMatch_prs, matchCleared_local, matchCleared_prs]

theorem fireMatch_cmp (s : State) (c : Fin 8) : s.fireMatch.prs.cmp.get c =
    let x := s.prs.cmp.get c
    let b := x.blMatch || s.prs.blank.getLsbD (16 + c.val)
    if x.cfg.extractLsb' 28 2 = 3 ∧ x.recent = false then { x with latch := false, blMatch := b }
    else { x with blMatch := b } := by
  have blank : s.matchCleared.prs.blank = s.prs.blank := by rw [matchCleared_prs]
  have cleared := matchCleared_cmp s c
  rw [fireMatch_eq, blankMatch_prs, Vector.get_ofFn, blank]
  dsimp only at cleared ⊢
  by_cases clears : (s.prs.cmp.get c).cfg.extractLsb' 28 2 = 3 ∧ (s.prs.cmp.get c).recent = false
  · rw [cleared, if_pos clears, if_pos clears]
  · rw [cleared, if_neg clears, if_neg clears]

/-! ## Time quality (R363, R364) -/

theorem src_cases (c : BitVec 2) : c = 0 ∨ c = 1 ∨ c = 2 ∨ c = 3 := by
  revert c
  decide

/-- The bits below `k` find the root that lies within 2^k of `r`. -/
theorem isqrtFrom_root (k : Nat) {n r : Nat} (low : r * r ≤ n) (high : n < (r + 2 ^ k) * (r + 2 ^ k)) :
    isqrtFrom k n r * isqrtFrom k n r ≤ n ∧ n < (isqrtFrom k n r + 1) * (isqrtFrom k n r + 1) := by
  induction k generalizing r with
  | zero => exact ⟨low, high⟩
  | succ k ih =>
    unfold isqrtFrom
    split
    next above => exact ih above (by rwa [Nat.add_assoc, ← Nat.two_mul, ← Nat.pow_succ'])
    next below => exact ih low (Nat.lt_of_not_le below)

/-- The least root from above. -/
theorem ceilSqrt_eq {n r : Nat} (hn : n < 2 ^ 64) (h : n ≤ r * r) (least : ∀ r' : Nat, n ≤ r' * r' → r ≤ r') :
    ceilSqrt n = r := by
  obtain ⟨low, high⟩ := isqrtFrom_root 32 (n := n) (r := 0) (Nat.zero_le n) (by omega)
  unfold ceilSqrt
  dsimp only
  split
  next whole => exact Nat.le_antisymm (Nat.mul_self_le_mul_self_iff.mp (whole.le.trans h)) (least _ whole.ge)
  next between =>
    refine Nat.le_antisymm (Nat.mul_self_lt_mul_self_iff.mp ?_) (least _ high.le)
    exact (lt_of_le_of_ne low between).trans_le h

/-- What ERR is the root of: the squares of the parent's error and of the node's own since the last reference (R363). -/
def Tmp.errSq (t : Tmp) : Nat :=
  t.parentErr ^ 2 + if t.src = 0 then 9 * (66 ^ 2 + (30 * t.age.toNat) ^ 2) else (90 * t.age.toNat) ^ 2

/-- ERR for the root `r`, rounded up to its units (R363). -/
def Tmp.errUnits (t : Tmp) (r : Nat) : Nat := (r + (if t.src = 0 then 7 else 50) + 15) / 16

theorem errSq_lt {t : Tmp} (h : t.parentErr ≤ 65520) : t.errSq < 2 ^ 64 := by
  have parent : t.parentErr ^ 2 ≤ 65520 ^ 2 := Nat.pow_le_pow_left h 2
  have mesh : (30 * t.age.toNat) ^ 2 ≤ (30 * 1023) ^ 2 := Nat.pow_le_pow_left (by omega) 2
  have chain : (90 * t.age.toNat) ^ 2 ≤ (90 * 1023) ^ 2 := Nat.pow_le_pow_left (by omega) 2
  unfold Tmp.errSq
  split <;> omega

theorem errOf_synced {t : Tmp} {r : Nat} (hs : t.sync = true) (hr : ceilSqrt t.errSq = r) :
    t.errOf = if t.src = 2 ∨ t.src = 3 then 0 else t.errUnits r := by
  unfold Tmp.errSq at hr
  unfold Tmp.errOf Tmp.errUnits ceilDiv
  rcases src_cases t.src with h | h | h | h <;> simp_all

theorem quality_unsynced {t : Tmp} (hs : t.sync = false) : t.quality = { t with err := 0xFFF } := by
  simp [Tmp.quality, Tmp.errOf, hs]

/-- With SRC MESH or CHAIN and SYNC set, ERR follows its root, and SYNC clears above 50 us. -/
theorem quality_network {t : Tmp} {r : Nat} (h : ¬ (t.src = 2 ∨ t.src = 3)) (hs : t.sync = true)
    (hr : ceilSqrt t.errSq = r) : t.quality =
      if 16 * t.errUnits r ≤ 50000 then { t with err := BitVec.ofNat 12 (t.errUnits r) }
      else { t.unsync with disc := .freeRun } := by
  have network : (decide (t.src = 0) || decide (t.src = 1)) = true := by
    rcases src_cases t.src with h' | h' | h' | h' <;> simp_all
  unfold Tmp.quality
  rw [errOf_synced hs hr, if_neg h, hs, network]
  dsimp only
  by_cases small : 16 * t.errUnits r ≤ 50000
  · rw [if_pos small, Nat.min_eq_right (by omega)]
    exact if_neg (by simp [small])
  · rw [if_neg small]
    exact if_pos (decide_eq_true (Nat.lt_of_not_le small))

/-- With SRC PPS or FREE the reference is the node's own. -/
theorem quality_reference {t : Tmp} (h : t.src = 2 ∨ t.src = 3) :
    t.quality = { t with err := if t.sync then 0 else 0xFFF } := by
  rcases h with h | h <;> cases hs : t.sync <;> simp [Tmp.quality, Tmp.errOf, hs, h]

/-- With SYNC set: a node's own reference has no error, and any other keeps SYNC while its error is 50 us or less. -/
theorem quality_synced {t : Tmp} {r : Nat} (hs : t.sync = true) (hr : ceilSqrt t.errSq = r) : t.quality =
    let n := t.errUnits r
    { t with
      sync := decide (t.src = 2 ∨ t.src = 3 ∨ 16 * n ≤ 50000)
      depth := if t.src = 2 ∨ t.src = 3 ∨ 16 * n ≤ 50000 then t.depth else 0xF
      disc := if t.src = 2 ∨ t.src = 3 ∨ 16 * n ≤ 50000 then t.disc else .freeRun
      err := if t.src = 2 ∨ t.src = 3 then 0 else if 16 * n ≤ 50000 then BitVec.ofNat 12 n else 0xFFF } := by
  dsimp only
  simp only [← or_assoc]
  by_cases own : t.src = 2 ∨ t.src = 3
  · rw [quality_reference own]
    simp only [own, true_or, if_true, decide_true, hs]
  · rw [quality_network own hs hr]
    by_cases small : 16 * t.errUnits r ≤ 50000
    · simp only [own, small, false_or, if_true, if_false, decide_true, hs]
    · simp only [own, small, false_or, if_false, decide_false, Tmp.unsync]

/-! ## PPS (R351, R365) -/

theorem edgeTooSoon_iff (o : Option (BitVec 64)) (l : BitVec 64) :
    edgeTooSoon o l = true ↔ ∃ a : BitVec 64, o = some a ∧ (l - a).toInt < 16000 := by
  cases o <;> simp [edgeTooSoon, diff64]

/-- The whole second next to plant time at local time `l`. -/
def Tmp.ppsWhole (t : Tmp) (l : BitVec 64) : Nat := ((l + t.offs).toNat + 8000000) / 16000000 * 16000000

/-- How far that second lies from plant time. -/
def Tmp.ppsOff (t : Tmp) (l : BitVec 64) : Int := (t.ppsWhole l : Int) - (l + t.offs).toNat

/-- The rate update that an edge at `l` asks for, with gain 1 / `g`. -/
def Tmp.ppsRate (t : Tmp) (l : BitVec 64) (g : Nat) : Int := t.rateFrom (BitVec.ofNat 64 (t.ppsWhole l)) l g

/-- An edge within 0.5 ms of the whole second. -/
def Tmp.ppsNear (t : Tmp) (l : BitVec 64) : Prop := -8000 ≤ t.ppsOff l ∧ t.ppsOff l ≤ 8000

/-- The second edge gives a rate within 200 ppm. -/
def Tmp.ppsPlausible (t : Tmp) (l : BitVec 64) : Prop := -858993 ≤ t.ppsRate l 1 ∧ t.ppsRate l 1 ≤ 858993

/-- The whole second is taken as the reference at local time `l`. -/
def Tmp.ppsTaken (t : Tmp) (l : BitVec 64) : Tmp := { t with
  offs := t.offs + BitVec.ofInt 64 (t.ppsOff l), refP := BitVec.ofNat 64 (t.ppsWhole l), refL := l, age := 0, trace := true,
  parentErr := 0, rejected := none, depth := if t.sync then 0 else 0xF, err := if t.sync then 0 else 0xFFF }

section
variable {t : Tmp} {l : BitVec 64}

theorem took_pps (h : t.src = 2) :
    ({ t with offs := t.offs + BitVec.ofInt 64 (t.ppsOff l) } : Tmp).took (BitVec.ofNat 64 (t.ppsWhole l)) l 0 true 0 =
      t.ppsTaken l :=
  quality_reference (.inl h)

/-- The reference of a discipline that starts, or starts again. -/
def Tmp.ppsFirst (t : Tmp) (l : BitVec 64) : Tmp := ({ t with ppsEdges := 1 } : Tmp).ppsTaken l

/-- The second edge of a plausible rate locks plant time. -/
def Tmp.ppsLocked (t : Tmp) (l : BitVec 64) : Tmp :=
  ({ t with rate := BitVec.ofInt 32 (t.ppsRate l 1), sync := true, ppsEdges := 2 } : Tmp).ppsTaken l

/-- A later edge, with its limited update of the rate. -/
def Tmp.ppsFollowed (t : Tmp) (l : BitVec 64) : Tmp :=
  ({ t with rate := BitVec.ofInt 32 (clampI (-858993) 858993 (t.ppsRate l 4)) } : Tmp).ppsTaken l

theorem ppsNear_iff : (decide (-8000 ≤ t.ppsOff l) && decide (t.ppsOff l ≤ 8000)) = true ↔ t.ppsNear l := by
  simp [Tmp.ppsNear]

theorem rateOk_iff (r : Int) : rateOk r = true ↔ -858993 ≤ r ∧ r ≤ 858993 := by
  simp [rateOk]

theorem ppsAt_eq (src : t.src = 2) : t.ppsAt l =
    if t.ppsEdges = 0 then t.ppsFirst l
    else if !(decide (-8000 ≤ t.ppsOff l) && decide (t.ppsOff l ≤ 8000)) then t
    else if t.ppsEdges = 1 then if rateOk (t.ppsRate l 1) then t.ppsLocked l else t.ppsFirst l
    else t.ppsFollowed l := by
  rw [Tmp.ppsFirst, Tmp.ppsLocked, Tmp.ppsFollowed, ← took_pps (t := { t with ppsEdges := 1 }) src,
    ← took_pps (t := { t with rate := BitVec.ofInt 32 (t.ppsRate l 1), sync := true, ppsEdges := 2 }) src,
    ← took_pps (t := { t with rate := BitVec.ofInt 32 (clampI (-858993) 858993 (t.ppsRate l 4)) }) src]
  rfl

theorem ppsAt_far (src : t.src = 2) (h : t.ppsEdges ≠ 0) (far : ¬ t.ppsNear l) : t.ppsAt l = t := by
  rw [← ppsNear_iff, Bool.not_eq_true] at far
  rw [ppsAt_eq src, if_neg h, far]
  rfl

/-- An edge that begins the discipline: the first one, or a second one of an implausible rate. -/
def Tmp.ppsBegins (t : Tmp) (l : BitVec 64) : Prop := t.ppsEdges = 0 ∨ t.ppsEdges = 1 ∧ t.ppsNear l ∧ ¬ t.ppsPlausible l

theorem ppsAt_begins (src : t.src = 2) (h : t.ppsBegins l) : t.ppsAt l = t.ppsFirst l := by
  rw [ppsAt_eq src]
  rcases h with zero | ⟨one, near, rate⟩
  · exact if_pos zero
  · rw [ppsNear_iff.mpr near, Bool.not_true, one, if_neg Nat.one_ne_zero, if_neg Bool.false_ne_true, if_pos rfl]
    exact if_neg (mt (rateOk_iff _).mp rate)

theorem ppsAt_locks (src : t.src = 2) (one : t.ppsEdges = 1) (near : t.ppsNear l) (rate : t.ppsPlausible l) :
    t.ppsAt l = t.ppsLocked l := by
  rw [ppsAt_eq src, ppsNear_iff.mpr near, Bool.not_true, one, if_neg Nat.one_ne_zero, if_neg Bool.false_ne_true, if_pos rfl]
  exact if_pos ((rateOk_iff _).mpr rate)

theorem ppsAt_follows (src : t.src = 2) (two : 2 ≤ t.ppsEdges) (near : t.ppsNear l) : t.ppsAt l = t.ppsFollowed l := by
  rw [ppsAt_eq src, ppsNear_iff.mpr near, Bool.not_true, if_neg (by omega), if_neg Bool.false_ne_true, if_neg (by omega)]

/-- An accepted edge begins the discipline, locks it or follows it. -/
theorem pps_accepted (h : t.ppsEdges = 0 ∨ t.ppsNear l) : t.ppsBegins l ∨
    (t.ppsEdges = 1 ∧ t.ppsNear l ∧ t.ppsPlausible l) ∨ (2 ≤ t.ppsEdges ∧ t.ppsNear l) := by
  obtain zero | one | two : t.ppsEdges = 0 ∨ t.ppsEdges = 1 ∨ 2 ≤ t.ppsEdges := by omega
  · exact .inl (.inl zero)
  · have near := h.resolve_left (by omega)
    by_cases rate : t.ppsPlausible l
    · exact .inr (.inl ⟨one, near, rate⟩)
    · exact .inl (.inr ⟨one, near, rate⟩)
  · exact .inr (.inr ⟨two, h.resolve_left (by omega)⟩)

theorem ppsAt_gp0At (src : t.src = 2) : (t.ppsAt l).gp0At = t.gp0At := by
  rw [ppsAt_eq src]
  split_ifs <;> rfl

end

theorem ppsTake_eq {s : State} (counts : s.tmp.counting = true) : s.ppsTake =
    let l := s.tmp.now + BitVec.ofNat 64 s.tmp.phase
    { s with tmp := if edgeTooSoon s.tmp.gp0At l then s.tmp else ({ s.tmp with gp0At := some l } : Tmp).ppsAt l } := by
  have clock : s.local = s.tmp.now + BitVec.ofNat 64 s.tmp.phase := if_pos counts
  unfold State.ppsTake
  rw [clock]
  dsimp only
  split <;> rfl

/-! ## The quality tick (R363, R417) -/

/-- Tempo after a local tick: AGE advances, and ERR follows. -/
def Tmp.aged (t : Tmp) : Tmp := ({ t with age := BitVec.ofNat 10 (min 1023 (t.age.toNat + 1)) } : Tmp).quality

theorem localTick_eq (s : State) : s.localTick =
    if ({ s with tmp := s.tmp.aged } : State).macRuns then { s with tmp := s.tmp.aged }
    else ({ s with tmp := s.tmp.aged } : State).ageTick := by
  unfold State.localTick Tmp.aged
  rw [← incSat_eq_min]
  rfl

theorem localTick_within (s : State) :
    Within [.mem, .cells, .rad, .mac, .macx, .fresh] ({ s with tmp := s.tmp.aged } : State) s.localTick := by
  rw [localTick_eq]
  exact .mono (within_ite (.refl [] _) (ageTick_within _)) rfl

theorem localTick_runs {s : State} (h : s.macRuns = true) (disc : s.tmp.aged.disc = s.tmp.disc) :
    s.localTick = { s with tmp := s.tmp.aged } := by
  have runs : ({ s with tmp := s.tmp.aged } : State).macRuns = s.macRuns := by
    unfold State.macRuns
    rw [disc]
  rw [localTick_eq, runs, if_pos h]

/-- What a quality tick changes: tempo as it ages, and the MAC while the tick is its boundary. -/
theorem timeQualityTick_touches {s : State} (hp : s.powered = true) (counts : s.tmp.counting = true) {f : State → Prop}
    (hf : ∀ t : State, t.tmp = s.tmp.aged →
      (s.macRuns = true → t.tmp.disc = s.tmp.disc → t.mac = s.mac ∧ t.macx = s.macx) → f t) :
    Touches (exec .timeQualityTick s) (fun t => { s with
      sys := t.sys, drv := t.drv, flw := t.flw,
      tmp := t.tmp, mem := t.mem, rad := t.rad, mac := t.mac, macx := t.macx, sec := t.sec, fresh := t.fresh }) f := by
  have runs : exec .timeQualityTick s = .next s.localTick.startIslands :=
    show execTimeQualityTick s = _ from whenever_holds hp counts _
  have islands := startIslands_within s.localTick
  have tmp : s.localTick.startIslands.tmp = s.tmp.aged := (islands.tmp rfl).trans ((localTick_within s).tmp rfl)
  have within : Within [.sys, .drv, .flw, .tmp, .mem, .cells, .rad, .mac, .macx, .sec, .fresh] s s.localTick.startIslands :=
    .mono (.after islands (.after (localTick_within s) (modTmp_within s fun _ => s.tmp.aged))) rfl
  refine within.touches runs rfl (hf _ tmp fun h disc => ?_)
  rw [tmp] at disc
  have aged := localTick_runs h disc
  have mac : s.localTick.startIslands.mac = s.localTick.mac := islands .mac (by decide)
  have macx : s.localTick.startIslands.macx = s.localTick.macx := islands .macx (by decide)
  exact ⟨mac.trans (by rw [aged]), macx.trans (by rw [aged])⟩

/-! ## The claims -/

/-- Settles O47: the match, an edge of PPS and the tick each by the lemma that says what it makes of tempo. -/
theorem tempoFollowsItsEdges : Obligations.TempoFollowsItsEdges := by
  unfold Obligations.TempoFollowsItsEdges
  intro s hp counts
  refine ⟨fun armed past => ?match_, ?pps, ?synced, fun unsynced => ?unsynced⟩
  case match_ =>
    have runs : exec .tmpMatch s = .next s.fireMatch := show execTmpMatch s = _ from
      whenever_holds hp (by rw [Tmp.matches, armed, counts, decide_eq_true past]; rfl) _
    refine (fireMatch_within s).touches runs ?_ ⟨fireMatch_wins s, fireMatch_pends s, fireMatch_cmp s⟩
    exact congrArg₂ (fun t p => ({ s with tmp := t, prs := p } : State)) (fireMatch_tmp s) (fireMatch_prs s)
  case pps =>
    intro ph src good phase l p w e dl dp rate soon
    let x : Tmp := { s.tmp with phase := phase, gp0At := some l }
    have runs : exec (.ppsEdge ph) s =
        .next { s with tmp := if edgeTooSoon s.tmp.gp0At l then { s.tmp with phase := phase } else x.ppsAt l } :=
      show execPpsEdge ph s = _ from (whenever_holds hp (by rw [src, counts, good]; rfl) _).trans (by
        rw [atPhase_counting counts]
        exact congrArg _ (ppsTake_eq counts))
    by_cases early : soon
    · rw [if_pos ((edgeTooSoon_iff _ _).mpr early)] at runs
      exact ⟨_, runs, fun _ => rfl, fun late => absurd early late⟩
    rw [if_neg (mt (edgeTooSoon_iff _ _).mp early)] at runs
    have own : x.src = 2 := src
    refine ⟨_, runs, fun h => absurd h early, fun _ => ⟨ppsAt_gp0At own, ppsAt_far own, fun accepted => ?_⟩⟩
    have edges : x.ppsEdges = s.tmp.ppsEdges := rfl
    obtain begins | ⟨one, near, plausible⟩ | ⟨two, near⟩ := pps_accepted (t := x) accepted
    · rw [ppsAt_begins own begins]
      have few : x.ppsEdges ≤ 1 := by unfold Tmp.ppsBegins at begins; omega
      refine ⟨rfl, rfl, rfl, rfl, rfl, fun _ => ⟨rfl, rfl, rfl⟩, fun one low high => ?_, fun two => by omega⟩
      exact absurd ⟨low, high⟩ (begins.resolve_left (by omega)).2.2
    · rw [ppsAt_locks own one near plausible]
      refine ⟨rfl, rfl, rfl, rfl, rfl, fun again => ?_, fun _ _ _ => ⟨rfl, rfl, rfl, rfl, rfl⟩, fun two => by omega⟩
      exact absurd plausible (again.resolve_left (by omega)).2
    · rw [ppsAt_follows own two near]
      exact ⟨rfl, rfl, rfl, rfl, rfl, fun early => by omega, fun one => by omega, fun _ => ⟨rfl, rfl, rfl⟩⟩
  case synced =>
    intro r hs hb age q ns n above least
    refine timeQualityTick_touches hp counts fun t tmp mac => ⟨mac, tmp.trans ?_⟩
    let x : Tmp := { s.tmp with age := BitVec.ofNat 10 age }
    have ages : x.age.toNat = age := Nat.mod_eq_of_lt (by omega)
    have squares : x.errSq = q := by
      rw [Tmp.errSq, ages]
    have root : ceilSqrt x.errSq = r := ceilSqrt_eq (errSq_lt hb) (squares ▸ above) (squares ▸ least)
    exact quality_synced (t := x) hs root
  case unsynced =>
    refine timeQualityTick_touches hp counts fun t tmp mac => ?_
    have aged : s.tmp.aged = { s.tmp with age := BitVec.ofNat 10 (min 1023 (s.tmp.age.toNat + 1)), err := 0xFFF } :=
      quality_unsynced unsynced
    exact ⟨fun h => mac h (by rw [tmp, aged]), tmp.trans aged⟩

end Sys2Proof.Machine
end
